-- ==== Sys2Proof/Word.lean ====
section
/-! DEFINITION. The words, the plainest arithmetic and the names the spec enumerates (00_scope.md section 3, R197).

Bytes and register words are bit vectors. Samples, gain indices and the loop's integers are exact integers that the
rules clamp where they say so. Counts, addresses and frequencies are natural numbers. -/

namespace Sys2Proof

/-- One byte of a record or of memory. -/
abbrev Byte := BitVec 8

/-- A 24-bit signed sample held as an exact integer (00_scope 3.2). -/
abbrev Sample := Int

/-- One input frame: one sample per channel of the format, in channel order. -/
abbrev Frame := List Sample

/-- The lowest sample. -/
def sampleMin : Int := -8388608
/-- The highest sample. -/
def sampleMax : Int := 8388607

/-- Clamp an integer into a range. -/
def clampInt (lo hi x : Int) : Int := if x < lo then lo else if hi < x then hi else x

/-- Clamp a natural number into a range. -/
def clampNat (lo hi x : Nat) : Nat := if x < lo then lo else if hi < x then hi else x

/-- Saturate: clamp a value to the sample range (00_scope 3.2). -/
def saturate (x : Int) : Int := clampInt sampleMin sampleMax x

/-- Arithmetic shift right: rounds toward minus infinity (00_scope 3.2). -/
def asr (x : Int) (n : Nat) : Int := x / (2 ^ n : Int)

/-- The sum of a list of integers. -/
def sumInt : List Int → Int
  | [] => 0
  | x :: xs => x + sumInt xs

/-- The sum of a list of natural numbers. -/
def sumNat : List Nat → Nat
  | [] => 0
  | x :: xs => x + sumNat xs

/-- Move a value toward a target by at most a step, stopping at the target. -/
def moveToward (target step x : Int) : Int :=
  if x < target then (if target < x + step then target else x + step)
  else (if x - step < target then target else x - step)

/-- Read one entry of a table of fixed size. -/
def getAt {α : Type} {n : Nat} (v : Vector α n) (i : Fin n) : α := v[i.val]

/-- Write one entry of a table of fixed size. -/
def setAt {α : Type} {n : Nat} (v : Vector α n) (i : Fin n) (x : α) : Vector α n := v.set i.val x i.isLt

/-- The bytes of a number in a field of `k` bytes, least significant byte first (R197). -/
def leBytes : Nat → Nat → List Byte
  | 0, _ => []
  | k + 1, v => BitVec.ofNat 8 v :: leBytes k (v / 256)

/-- The bytes of a signed number in two's complement, least significant byte first (R197). -/
def leBytesInt (k : Nat) (v : Int) : List Byte := leBytes k (v % (2 ^ (8 * k) : Int)).toNat

/-- The number a run of bytes holds, least significant byte first (R197). -/
def leNat : List Byte → Nat
  | [] => 0
  | b :: bs => b.toNat + 256 * leNat bs

/-- A flag or an on/off setting as a byte. -/
def flagByte (b : Bool) : Byte := if b then 1 else 0

/-- The byte of an index that may be absent: absent is 0xFF (R197). -/
def optByte : Option Nat → Byte
  | some n => BitVec.ofNat 8 n
  | none => 0xFF

/-- The two listening rooms (00_scope 3.6); codes as R197 numbers them. -/
inductive Zone where
  | main | zone2
  deriving DecidableEq, Repr

/-- The code of a value of `Zone`: its place in the order of R197's table, from 0. -/
def Zone.code : Zone → Nat
  | .main => 0
  | .zone2 => 1

/-- The value of `Zone` a code stands for; a number with no code gives none (R198). -/
def Zone.ofCode : Nat → Option Zone
  | 0 => some .main
  | 1 => some .zone2
  | _ => Option.none

/-- The two resampling paths (00_scope 3.6); codes as R197 numbers them. -/
inductive PathId where
  | p0 | p1
  deriving DecidableEq, Repr

/-- The code of a value of `PathId`: its place in the order of R197's table, from 0. -/
def PathId.code : PathId → Nat
  | .p0 => 0
  | .p1 => 1

/-- The value of `PathId` a code stands for; a number with no code gives none (R198). -/
def PathId.ofCode : Nat → Option PathId
  | 0 => some .p0
  | 1 => some .p1
  | _ => Option.none

/-- The two broadcast bands; codes as R197 numbers them. -/
inductive Band where
  | fm | am
  deriving DecidableEq, Repr

/-- The code of a value of `Band`: its place in the order of R197's table, from 0. -/
def Band.code : Band → Nat
  | .fm => 0
  | .am => 1

/-- The value of `Band` a code stands for; a number with no code gives none (R198). -/
def Band.ofCode : Nat → Option Band
  | 0 => some .fm
  | 1 => some .am
  | _ => Option.none

/-- The five source rates (00_scope 3.2); codes as R197 numbers them. -/
inductive Rate where
  | r32000 | r44100 | r48000 | r88200 | r96000
  deriving DecidableEq, Repr

/-- The code of a value of `Rate`: its place in the order of R197's table, from 0. -/
def Rate.code : Rate → Nat
  | .r32000 => 0
  | .r44100 => 1
  | .r48000 => 2
  | .r88200 => 3
  | .r96000 => 4

/-- The value of `Rate` a code stands for; a number with no code gives none (R198). -/
def Rate.ofCode : Nat → Option Rate
  | 0 => some .r32000
  | 1 => some .r44100
  | 2 => some .r48000
  | 3 => some .r88200
  | 4 => some .r96000
  | _ => Option.none

/-- Source and speaker roles (00_scope 4.1); codes as R197 numbers them. -/
inductive Role where
  | none | fl | fr | c | lfe | sl | sr | bl | br | tfl | tfr | tbl | tbr | sw | z2l | z2r | unused
  deriving DecidableEq, Repr

/-- The code of a value of `Role`: its place in the order of R197's table, from 0. -/
def Role.code : Role → Nat
  | .none => 0
  | .fl => 1
  | .fr => 2
  | .c => 3
  | .lfe => 4
  | .sl => 5
  | .sr => 6
  | .bl => 7
  | .br => 8
  | .tfl => 9
  | .tfr => 10
  | .tbl => 11
  | .tbr => 12
  | .sw => 13
  | .z2l => 14
  | .z2r => 15
  | .unused => 16

/-- The value of `Role` a code stands for; a number with no code gives none (R198). -/
def Role.ofCode : Nat → Option Role
  | 0 => some .none
  | 1 => some .fl
  | 2 => some .fr
  | 3 => some .c
  | 4 => some .lfe
  | 5 => some .sl
  | 6 => some .sr
  | 7 => some .bl
  | 8 => some .br
  | 9 => some .tfl
  | 10 => some .tfr
  | 11 => some .tbl
  | 12 => some .tbr
  | 13 => some .sw
  | 14 => some .z2l
  | 15 => some .z2r
  | 16 => some .unused
  | _ => Option.none

/-- The kinds of a source entry (R67); codes as R197 numbers them. -/
inductive SourceKind where
  | none | laneGroup | stream | tuner
  deriving DecidableEq, Repr

/-- The code of a value of `SourceKind`: its place in the order of R197's table, from 0. -/
def SourceKind.code : SourceKind → Nat
  | .none => 0
  | .laneGroup => 1
  | .stream => 2
  | .tuner => 3

/-- The value of `SourceKind` a code stands for; a number with no code gives none (R198). -/
def SourceKind.ofCode : Nat → Option SourceKind
  | 0 => some .none
  | 1 => some .laneGroup
  | 2 => some .stream
  | 3 => some .tuner
  | _ => Option.none

/-- A zone's power (R75); codes as R197 numbers them. -/
inductive Power where
  | standby | on | goingStandby
  deriving DecidableEq, Repr

/-- The code of a value of `Power`: its place in the order of R197's table, from 0. -/
def Power.code : Power → Nat
  | .standby => 0
  | .on => 1
  | .goingStandby => 2

/-- The value of `Power` a code stands for; a number with no code gives none (R198). -/
def Power.ofCode : Nat → Option Power
  | 0 => some .standby
  | 1 => some .on
  | 2 => some .goingStandby
  | _ => Option.none

/-- The stages of a zone's switch (R75); codes as R197 numbers them. -/
inductive SwitchState where
  | idle | fadeOut | waitReady | fadeIn
  deriving DecidableEq, Repr

/-- The code of a value of `SwitchState`: its place in the order of R197's table, from 0. -/
def SwitchState.code : SwitchState → Nat
  | .idle => 0
  | .fadeOut => 1
  | .waitReady => 2
  | .fadeIn => 3

/-- The value of `SwitchState` a code stands for; a number with no code gives none (R198). -/
def SwitchState.ofCode : Nat → Option SwitchState
  | 0 => some .idle
  | 1 => some .fadeOut
  | 2 => some .waitReady
  | 3 => some .fadeIn
  | _ => Option.none

/-- The main zone's decode modes (06, 6.3); codes as R197 numbers them. -/
inductive DecodeMode where
  | direct | matrixCinema | matrixMusic
  deriving DecidableEq, Repr

/-- The code of a value of `DecodeMode`: its place in the order of R197's table, from 0. -/
def DecodeMode.code : DecodeMode → Nat
  | .direct => 0
  | .matrixCinema => 1
  | .matrixMusic => 2

/-- The value of `DecodeMode` a code stands for; a number with no code gives none (R198). -/
def DecodeMode.ofCode : Nat → Option DecodeMode
  | 0 => some .direct
  | 1 => some .matrixCinema
  | 2 => some .matrixMusic
  | _ => Option.none

/-- The states of a rate tracker (R94); codes as R197 numbers them. -/
inductive TrackerState where
  | idle | prefill | acquire | track | hold | sync
  deriving DecidableEq, Repr

/-- The code of a value of `TrackerState`: its place in the order of R197's table, from 0. -/
def TrackerState.code : TrackerState → Nat
  | .idle => 0
  | .prefill => 1
  | .acquire => 2
  | .track => 3
  | .hold => 4
  | .sync => 5

/-- The value of `TrackerState` a code stands for; a number with no code gives none (R198). -/
def TrackerState.ofCode : Nat → Option TrackerState
  | 0 => some .idle
  | 1 => some .prefill
  | 2 => some .acquire
  | 3 => some .track
  | 4 => some .hold
  | 5 => some .sync
  | _ => Option.none

/-- The causes of a TRACKER report (R108); codes as R197 numbers them. -/
inductive TrackerCause where
  | locked | slip | underrun | overrun
  deriving DecidableEq, Repr

/-- The code of a value of `TrackerCause`: its place in the order of R197's table, from 0. -/
def TrackerCause.code : TrackerCause → Nat
  | .locked => 0
  | .slip => 1
  | .underrun => 2
  | .overrun => 3

/-- The value of `TrackerCause` a code stands for; a number with no code gives none (R198). -/
def TrackerCause.ofCode : Nat → Option TrackerCause
  | 0 => some .locked
  | 1 => some .slip
  | 2 => some .underrun
  | 3 => some .overrun
  | _ => Option.none

/-- The states of an input lane (R50); codes as R197 numbers them. -/
inductive LaneState where
  | disabled | hunt | synced | preamble | aligned | data | mismatch
  deriving DecidableEq, Repr

/-- The code of a value of `LaneState`: its place in the order of R197's table, from 0. -/
def LaneState.code : LaneState → Nat
  | .disabled => 0
  | .hunt => 1
  | .synced => 2
  | .preamble => 3
  | .aligned => 4
  | .data => 5
  | .mismatch => 6

/-- The value of `LaneState` a code stands for; a number with no code gives none (R198). -/
def LaneState.ofCode : Nat → Option LaneState
  | 0 => some .disabled
  | 1 => some .hunt
  | 2 => some .synced
  | 3 => some .preamble
  | 4 => some .aligned
  | 5 => some .data
  | 6 => some .mismatch
  | _ => Option.none

/-- The causes of a LANE_STATE report (R65); codes as R197 numbers them. -/
inductive LaneCause where
  | joined | sync | threshold | loss | deskew | disabled | redefined | mismatch | early
  deriving DecidableEq, Repr

/-- The code of a value of `LaneCause`: its place in the order of R197's table, from 0. -/
def LaneCause.code : LaneCause → Nat
  | .joined => 0
  | .sync => 1
  | .threshold => 2
  | .loss => 3
  | .deskew => 4
  | .disabled => 5
  | .redefined => 6
  | .mismatch => 7
  | .early => 8

/-- The value of `LaneCause` a code stands for; a number with no code gives none (R198). -/
def LaneCause.ofCode : Nat → Option LaneCause
  | 0 => some .joined
  | 1 => some .sync
  | 2 => some .threshold
  | 3 => some .loss
  | 4 => some .deskew
  | 5 => some .disabled
  | 6 => some .redefined
  | 7 => some .mismatch
  | 8 => some .early
  | _ => Option.none

/-- The stages of a group record (03, 3.4); codes as R197 numbers them. -/
inductive GroupStage where
  | forming | measuring | running
  deriving DecidableEq, Repr

/-- The code of a value of `GroupStage`: its place in the order of R197's table, from 0. -/
def GroupStage.code : GroupStage → Nat
  | .forming => 0
  | .measuring => 1
  | .running => 2

/-- The value of `GroupStage` a code stands for; a number with no code gives none (R198). -/
def GroupStage.ofCode : Nat → Option GroupStage
  | 0 => some .forming
  | 1 => some .measuring
  | 2 => some .running
  | _ => Option.none

/-- The states of the tuner record (R133); codes as R197 numbers them. -/
inductive TunerState where
  | idle | tuning | tuned | seeking | scanning | feFault
  deriving DecidableEq, Repr

/-- The code of a value of `TunerState`: its place in the order of R197's table, from 0. -/
def TunerState.code : TunerState → Nat
  | .idle => 0
  | .tuning => 1
  | .tuned => 2
  | .seeking => 3
  | .scanning => 4
  | .feFault => 5

/-- The value of `TunerState` a code stands for; a number with no code gives none (R198). -/
def TunerState.ofCode : Nat → Option TunerState
  | 0 => some .idle
  | 1 => some .tuning
  | 2 => some .tuned
  | 3 => some .seeking
  | 4 => some .scanning
  | 5 => some .feFault
  | _ => Option.none

/-- The causes of a RADIO_STATE report (R144); codes as R197 numbers them. -/
inductive RadioCause where
  | tuned | feFault | idle | owner | pilot | region | progress
  deriving DecidableEq, Repr

/-- The code of a value of `RadioCause`: its place in the order of R197's table, from 0. -/
def RadioCause.code : RadioCause → Nat
  | .tuned => 0
  | .feFault => 1
  | .idle => 2
  | .owner => 3
  | .pilot => 4
  | .region => 5
  | .progress => 6

/-- The value of `RadioCause` a code stands for; a number with no code gives none (R198). -/
def RadioCause.ofCode : Nat → Option RadioCause
  | 0 => some .tuned
  | 1 => some .feFault
  | 2 => some .idle
  | 3 => some .owner
  | 4 => some .pilot
  | 5 => some .region
  | 6 => some .progress
  | _ => Option.none

/-- The pilot state (R141); codes as R197 numbers them. -/
inductive PilotState where
  | absent | present
  deriving DecidableEq, Repr

/-- The code of a value of `PilotState`: its place in the order of R197's table, from 0. -/
def PilotState.code : PilotState → Nat
  | .absent => 0
  | .present => 1

/-- The value of `PilotState` a code stands for; a number with no code gives none (R198). -/
def PilotState.ofCode : Nat → Option PilotState
  | 0 => some .absent
  | 1 => some .present
  | _ => Option.none

/-- The states of a pair record (R183); codes as R197 numbers them. -/
inductive PairState where
  | normal | protect | recoverWait | softStart | lockout
  deriving DecidableEq, Repr

/-- The code of a value of `PairState`: its place in the order of R197's table, from 0. -/
def PairState.code : PairState → Nat
  | .normal => 0
  | .protect => 1
  | .recoverWait => 2
  | .softStart => 3
  | .lockout => 4

/-- The value of `PairState` a code stands for; a number with no code gives none (R198). -/
def PairState.ofCode : Nat → Option PairState
  | 0 => some .normal
  | 1 => some .protect
  | 2 => some .recoverWait
  | 3 => some .softStart
  | 4 => some .lockout
  | _ => Option.none

/-- The causes of a pair's entry to PROTECT (R183); codes as R197 numbers them. -/
inductive ProtectCause where
  | line | thermal
  deriving DecidableEq, Repr

/-- The code of a value of `ProtectCause`: its place in the order of R197's table, from 0. -/
def ProtectCause.code : ProtectCause → Nat
  | .line => 0
  | .thermal => 1

/-- The value of `ProtectCause` a code stands for; a number with no code gives none (R198). -/
def ProtectCause.ofCode : Nat → Option ProtectCause
  | 0 => some .line
  | 1 => some .thermal
  | _ => Option.none

/-- The completed operations of a COMMAND_DONE (R197); codes as R197 numbers them. -/
inductive Operation where
  | switch | tune | step | recall | seek | scan
  deriving DecidableEq, Repr

/-- The code of a value of `Operation`: its place in the order of R197's table, from 0. -/
def Operation.code : Operation → Nat
  | .switch => 0
  | .tune => 1
  | .step => 2
  | .recall => 3
  | .seek => 4
  | .scan => 5

/-- The value of `Operation` a code stands for; a number with no code gives none (R198). -/
def Operation.ofCode : Nat → Option Operation
  | 0 => some .switch
  | 1 => some .tune
  | 2 => some .step
  | 3 => some .recall
  | 4 => some .seek
  | 5 => some .scan
  | _ => Option.none

/-- The tap's mix points (R42); codes as R197 numbers them. -/
inductive TapPoint where
  | mainDownmix | zone2Mix | tuner
  deriving DecidableEq, Repr

/-- The code of a value of `TapPoint`: its place in the order of R197's table, from 0. -/
def TapPoint.code : TapPoint → Nat
  | .mainDownmix => 0
  | .zone2Mix => 1
  | .tuner => 2

/-- The value of `TapPoint` a code stands for; a number with no code gives none (R198). -/
def TapPoint.ofCode : Nat → Option TapPoint
  | 0 => some .mainDownmix
  | 1 => some .zone2Mix
  | 2 => some .tuner
  | _ => Option.none

/-- The six sections of the mirror (01, 1.7); codes as R197 numbers them. -/
inductive SnapSection where
  | meters | stations | presets | lanes | zonesPaths | protection
  deriving DecidableEq, Repr

/-- The code of a value of `SnapSection`: its place in the order of R197's table, from 0. -/
def SnapSection.code : SnapSection → Nat
  | .meters => 0
  | .stations => 1
  | .presets => 2
  | .lanes => 3
  | .zonesPaths => 4
  | .protection => 5

/-- The value of `SnapSection` a code stands for; a number with no code gives none (R198). -/
def SnapSection.ofCode : Nat → Option SnapSection
  | 0 => some .meters
  | 1 => some .stations
  | 2 => some .presets
  | 3 => some .lanes
  | 4 => some .zonesPaths
  | 5 => some .protection
  | _ => Option.none

/-- The direction of a STEP or a SEEK (R136); codes as R197 numbers them. -/
inductive Direction where
  | up | down
  deriving DecidableEq, Repr

/-- The code of a value of `Direction`: its place in the order of R197's table, from 0. -/
def Direction.code : Direction → Nat
  | .up => 0
  | .down => 1

/-- The value of `Direction` a code stands for; a number with no code gives none (R198). -/
def Direction.ofCode : Nat → Option Direction
  | 0 => some .up
  | 1 => some .down
  | _ => Option.none

/-- The selector of CLEAR_STATIONS (R155); codes as R197 numbers them. -/
inductive StationSelector where
  | fm | am | all
  deriving DecidableEq, Repr

/-- The code of a value of `StationSelector`: its place in the order of R197's table, from 0. -/
def StationSelector.code : StationSelector → Nat
  | .fm => 0
  | .am => 1
  | .all => 2

/-- The value of `StationSelector` a code stands for; a number with no code gives none (R198). -/
def StationSelector.ofCode : Nat → Option StationSelector
  | 0 => some .fm
  | 1 => some .am
  | 2 => some .all
  | _ => Option.none

/-- A channel's polarity (R161); codes as R197 numbers them. -/
inductive Polarity where
  | normal | inverted
  deriving DecidableEq, Repr

/-- The code of a value of `Polarity`: its place in the order of R197's table, from 0. -/
def Polarity.code : Polarity → Nat
  | .normal => 0
  | .inverted => 1

/-- The value of `Polarity` a code stands for; a number with no code gives none (R198). -/
def Polarity.ofCode : Nat → Option Polarity
  | 0 => some .normal
  | 1 => some .inverted
  | _ => Option.none

/-- A channel's size (R161); codes as R197 numbers them. -/
inductive SpeakerSize where
  | large | small
  deriving DecidableEq, Repr

/-- The code of a value of `SpeakerSize`: its place in the order of R197's table, from 0. -/
def SpeakerSize.code : SpeakerSize → Nat
  | .large => 0
  | .small => 1

/-- The value of `SpeakerSize` a code stands for; a number with no code gives none (R198). -/
def SpeakerSize.ofCode : Nat → Option SpeakerSize
  | 0 => some .large
  | 1 => some .small
  | _ => Option.none

/-- The results a command return or a completion carries (R16, 11.2); codes as R197 numbers them. -/
inductive CmdResult where
  | ok | clamped | accepted | busy | badArg | notOwner | inUse | overlap | noRoom | faultPresent | empty | unknown | aborted | found | none
  deriving DecidableEq, Repr

/-- The code of a value of `CmdResult`: its place in the order of R197's table, from 0. -/
def CmdResult.code : CmdResult → Nat
  | .ok => 0
  | .clamped => 1
  | .accepted => 2
  | .busy => 3
  | .badArg => 4
  | .notOwner => 5
  | .inUse => 6
  | .overlap => 7
  | .noRoom => 8
  | .faultPresent => 9
  | .empty => 10
  | .unknown => 11
  | .aborted => 12
  | .found => 13
  | .none => 14

/-- The value of `CmdResult` a code stands for; a number with no code gives none (R198). -/
def CmdResult.ofCode : Nat → Option CmdResult
  | 0 => some .ok
  | 1 => some .clamped
  | 2 => some .accepted
  | 3 => some .busy
  | 4 => some .badArg
  | 5 => some .notOwner
  | 6 => some .inUse
  | 7 => some .overlap
  | 8 => some .noRoom
  | 9 => some .faultPresent
  | 10 => some .empty
  | 11 => some .unknown
  | 12 => some .aborted
  | 13 => some .found
  | 14 => some .none
  | _ => Option.none

/-- The status byte of a stream or tap slot return (11.4); codes as R197 numbers them. -/
inductive StreamStatus where
  | ok | emptySlot | missed | badLength | badFrame | flushed
  deriving DecidableEq, Repr

/-- The code of a value of `StreamStatus`: its place in the order of R197's table, from 0. -/
def StreamStatus.code : StreamStatus → Nat
  | .ok => 0
  | .emptySlot => 1
  | .missed => 2
  | .badLength => 3
  | .badFrame => 4
  | .flushed => 5

/-- The value of `StreamStatus` a code stands for; a number with no code gives none (R198). -/
def StreamStatus.ofCode : Nat → Option StreamStatus
  | 0 => some .ok
  | 1 => some .emptySlot
  | 2 => some .missed
  | 3 => some .badLength
  | 4 => some .badFrame
  | 5 => some .flushed
  | _ => Option.none

/-- The five producers of injected writes (01, 1.4); codes as R197 numbers them. -/
inductive Producer where
  | command | report | intake | tap | mirror
  deriving DecidableEq, Repr

/-- The code of a value of `Producer`: its place in the order of R197's table, from 0. -/
def Producer.code : Producer → Nat
  | .command => 0
  | .report => 1
  | .intake => 2
  | .tap => 3
  | .mirror => 4

/-- The value of `Producer` a code stands for; a number with no code gives none (R198). -/
def Producer.ofCode : Nat → Option Producer
  | 0 => some .command
  | 1 => some .report
  | 2 => some .intake
  | 3 => some .tap
  | 4 => some .mirror
  | _ => Option.none

/-- The rate in frames per second. -/
def Rate.hz : Rate → Nat
  | .r32000 => 32000
  | .r44100 => 44100
  | .r48000 => 48000
  | .r88200 => 88200
  | .r96000 => 96000

/-- The twelve source roles, codes 1 to 12 (R197). -/
def Role.isSource (r : Role) : Bool := decide (1 ≤ r.code ∧ r.code ≤ 12)

/-- The speaker roles of MAIN: every role but NONE, LFE, Z2L, Z2R and UNUSED (R111). -/
def Role.isMainSpeaker : Role → Bool
  | .fl | .fr | .c | .sw | .sl | .sr | .bl | .br | .tfl | .tfr | .tbl | .tbr => true
  | .none | .lfe | .z2l | .z2r | .unused => false

/-- The fifteen roles an output channel may hold (R161). -/
def Role.isOutput : Role → Bool
  | .none | .lfe => false
  | .fl | .fr | .c | .sl | .sr | .bl | .br | .tfl | .tfr | .tbl | .tbr | .sw | .z2l | .z2r | .unused => true

/-- The other zone. -/
def Zone.other : Zone → Zone
  | .main => .zone2
  | .zone2 => .main

/-- The other path. -/
def PathId.other : PathId → PathId
  | .p0 => .p1
  | .p1 => .p0

/-- A write on the memory link: an address, the data bytes and the byte mask (01, 1.1). -/
structure LinkWrite where
  addr : Nat
  data : List Byte
  mask : List Bool
  deriving DecidableEq, Repr

/-- A host request on the P side (01, 1.1). -/
inductive Request where
  | read (addr len : Nat)
  | write (w : LinkWrite)
  deriving DecidableEq, Repr

/-- The first address of a request. -/
def Request.addr : Request → Nat
  | .read a _ => a
  | .write w => w.addr

/-- The length of a request in bytes. -/
def Request.len : Request → Nat
  | .read _ n => n
  | .write w => w.data.length

/-- A lane frame as the line delivers it (11.7): whether each of the eight line symbols was a valid symbol, and the
bytes they stand for (the marker, field A, field B and the parity value). -/
structure LaneFrame where
  symbolsValid : Bool
  marker : Byte
  fieldA : BitVec 24
  fieldB : BitVec 24
  parity : Byte
  deriving DecidableEq, Repr

/-- A label as the arguments carry it: the length byte and the eight character bytes (11.2). -/
structure LabelArg where
  len : Byte
  chars : List Byte
  deriving DecidableEq, Repr

/-- The argument area of DEFINE_SOURCE (11.2). -/
structure SourceArgs where
  kind : Byte
  laneCount : Byte
  lanes : List Byte
  window : Byte
  fillT : BitVec 16
  kp : Byte
  ki : Byte
  gainG : Byte
  ratchetH : Byte
  lockW : Byte
  trim : BitVec 8
  label : LabelArg
  deriving DecidableEq, Repr

/-- The argument area of SET_REGION (11.2). -/
structure RegionArgs where
  fmStep : BitVec 16
  amGrid : Byte
  fmLevel : Byte
  amLevel : Byte
  fmOffset : Byte
  amOffset : Byte
  errK : Byte
  ampLow : BitVec 32
  ampHigh : BitVec 32
  blendLo : Byte
  blendHi : Byte
  forcedMono : Byte
  deriving DecidableEq, Repr

/-- The levels at which a block samples the fault lines and the thermal line (R184, R193), asserted as set or true. -/
structure Lines where
  faults : BitVec 6
  therm  : Bool
  deriving DecidableEq, Repr

/-- A channel, with the lines as the block samples them before the channel's part (log 2). -/
structure ChannelLines where
  channel : Fin 12
  lines   : Lines
  deriving DecidableEq, Repr

/-- A pair, with the thermal line as the block samples it before the channel ramps (log 2). -/
structure PairLine where
  pair  : Fin 6
  therm : Bool
  deriving DecidableEq, Repr

end Sys2Proof
end

