-- ==== Sys2Proof/Syntax.lean ====
section
/-! DEFINITION. The commands: one constructor per row of spec/opcode_table.json, in the table's order.

The commands of the command ring carry the argument fields that 11.2 gives their slot, each with its width there, so
that every value a slot can hold can be written; a byte that names a zone, a channel or an index is the slot's target
byte. Lines that a step samples (FAULT0 to FAULT5, THERM_N) are operands of the steps whose block samples them: a set
bit or `true` is asserted. -/

namespace Sys2Proof

/-- A command to the part, or a step of its own, as the table lists them. -/
inductive Instr where
  | powerOn (straps : BitVec 4)
  | linkReset
  | hostRequestAccept (r : Request)
  | requestForward
  | dramResponse (data : List Byte)
  | injectedWriteIssue
  | starvationHold
  | producerEnqueue (p : Producer)
  | takeCommand (faults : BitVec 6)
  | reportWrite
  | nop
  | restart
  | defineWindow (index kind slotCount : Byte) (slotSize : BitVec 16) (base : BitVec 32)
  | releaseWindow (index : Byte)
  | snapshot (sect : Byte)
  | setMeters (onOff : Byte)
  | bindTap (index point : Byte)
  | unbindTap
  | setLane (lane enable threshold replacement : Byte)
  | defineSource (entry : Byte) (a : SourceArgs)
  | clearSource (entry : Byte)
  | selectSource (zone source : Byte)
  | zonePowerOn (zone : Byte)
  | zonePowerStandby (zone : Byte)
  | mute (zone onOff : Byte)
  | setVolume (zone : Byte) (level : BitVec 16)
  | setZone (zone rampRate : Byte) (avDelay : BitVec 16) (ceiling : Byte)
  | setSleep (zone minutes : Byte)
  | retrack (zone : Byte)
  | setDecode (zone mode : Byte)
  | tune (zone band : Byte) (freq : BitVec 32)
  | step (zone dir : Byte)
  | seek (zone dir : Byte)
  | scan (zone band : Byte)
  | abortRadio
  | setRegion (a : RegionArgs)
  | clearStations (selector : Byte)
  | storePreset (index : Byte) (label : LabelArg)
  | setPreset (index band : Byte) (freq : BitVec 32) (label : LabelArg)
  | clearPreset (index : Byte)
  | recallPreset (zone index : Byte)
  | assignOutput (channel role : Byte)
  | setChannel (channel : Byte) (trim : BitVec 8) (delay : BitVec 16) (polarity size : Byte)
  | setBass (hz : Byte)
  | clearFault (pair : Byte) (faults : BitVec 6)
  | setProtect (pair detect retry : Byte)
  | unknownOpcode (opcode target : Byte)
  | unpackFrame (path : PathId)
  | streamIdle (window : Fin 16)
  | outputBlock (faults : BitVec 6) (therm : Bool)
  | laneLoss (lane : Fin 4)
  | realignDeassert (lane : Fin 4)
  | laneFrame (lane : Fin 4) (f : LaneFrame)
  | fadeOutEnd (zone : Zone)
  | waitReadyEnd (zone : Zone)
  | sourceAbsent (zone : Zone)
  | switchComplete (zone : Zone)
  | goingStandbyEnd (zone : Zone)
  | sleepMinute (zone : Zone)
  | formatAdoption (path : PathId)
  | prefillExit (path : PathId)
  | gainCheck (path : PathId)
  | acquireLock (path : PathId)
  | slip (path : PathId)
  | holdEntry (path : PathId)
  | holdExit (path : PathId)
  | changeGroupApply (unit : ChannelLines)
  | softStartCount (channel : Fin 12) (therm : Bool)
  | softStartEnd (unit : PairLine)
  | limiterRelease (channel : Fin 12) (lines : Lines)
  | meterPeriodEnd
  | protectEntry (pair : Fin 6) (line therm : Bool)
  | recoverWaitExpiry (pair : Fin 6) (line therm : Bool)
  | normalRunExpiry (pair : Fin 6) (line therm : Bool)
  | thermalWarningSet
  | thermalClear
  | escalationSet
  | thermalStep (therm : Bool)
  | feAcknowledgement (request identity : Byte)
  | ackTimeout
  | feStatusRecord (settled : Bool) (level : BitVec 7) (offset : BitVec 8)
  | feBurst (pairs : List (BitVec 16 × BitVec 16))
  | statusSilence
  | settleLimit
  | dwellEnd
  | pilotCapture (ticks : Nat)
  | pilotTimeout
  | blendStep
  deriving DecidableEq, Repr

end Sys2Proof
end

