-- ==== Sys2Proof/Decode.lean ====
section
/-! DEFINITION. Words of the opcode table. No row of spec/opcode_table.json gives its bits (the part is worked through
records in memory, not through instruction words), so no word spells a command: every word is rejected. The bytes of a
command slot are decoded by the command unit (R198: Machine/Operands.lean and Machine/Commands.lean). -/

namespace Sys2Proof

/-- The command a word of the table's bits spells: none, since no row has bits. -/
def decodeTableWord (_nbits _w : Nat) : Option Instr := none

end Sys2Proof
end

