-- ==== Sys2Proof/Config.lean ====
section
/-! DEFINITION. What the part fixes and the spec does not give: the three families of filters. Each is an opaque
constant, so nothing can be proved of its values but what a claim proves for every value.

Each is applied to a fresh counter value (a field of State that every output block advances) and to what it is formed
from, so that it is free from block to block. -/

namespace Sys2Proof

/-- The resampler's polyphase filter (R98): `n` the free-value counter, the path, the consumed input frames of one
channel (newest first) and the phase give one output sample. Free value, log 6. -/
opaque Config.resample (n path : Nat) (history : List Sample) (phase frame : Nat) : Int

/-- The low band of the crossover filters (R172): counter, channel, crossover in Hz, the channel's past inputs and low
outputs, the input sample. Free value, log 7. -/
opaque Config.lowBand (n channel crossover : Nat) (inputs outputs : List Int) (x : Sample) : Int

/-- The high band of the crossover filters (R172). Free value, log 7. -/
opaque Config.highBand (n channel crossover : Nat) (inputs outputs : List Int) (x : Sample) : Int

/-- The demodulator's mid signal (R139): counter, band code, the block's baseband pairs, the frame's place in the
block. Free value, log 8. -/
opaque Config.demodMid (n band : Nat) (pairs : List (BitVec 16 × BitVec 16)) (frame : Nat) : Int

/-- The demodulator's side signal in FM (R139). Free value, log 8. -/
opaque Config.demodSide (n : Nat) (pairs : List (BitVec 16 × BitVec 16)) (frame : Nat) : Int

/-- How many consumed frames the resampler's filter history holds. The spec gives the group delay of 16 input frames,
not the length: DESIGN CHOICE, log 6. -/
def Config.historyFrames : Nat := 32

/-- How many past values each band filter of a crossover holds: a fourth-order filter has four (R172), log 7. -/
def Config.crossoverOrder : Nat := 4

end Sys2Proof
end

