-- ==== Sys2Proof/Machine/State.lean ====
section
/-! DEFINITION. The state of the part as plain data, unit by unit, the reasons a step can stop, and the state after
power-on reset. INVENTORY.md lists every field with the rule that names it and its reset value. -/

namespace Sys2Proof.Machine

open Sys2Proof

/-- A byte memory in one canonical form: addresses strictly rising, no entry 0. An unlisted address reads as 0, as
R14 (the command shadow) and R30 (a shadow page) give. -/
abbrev Mem := List Host.Cell

/-! ## The memory path (chapter 1) -/

/-- An entry of the window table (R4). -/
inductive Window where
  | free
  | anchor (base : Nat)
  | stream (base size count : Nat)
  | tap (base size count : Nat)
  | mirror (base : Nat)
  deriving DecidableEq, Repr

/-- What issuing an injected write does to the part's own views (R13): which slot or entry its owner byte hands back. -/
inductive Origin where
  | command (slot : Fin 64)
  | report (entry : Fin 128)
  | stream (window : Fin 16) (slot : Nat)
  | tapClose (slot : Nat)
  | tapData (slot : Nat)
  | sect
  | orphan
  deriving DecidableEq, Repr

/-- A write standing in the injection queue (R10). -/
structure Injected where
  write  : LinkWrite
  origin : Origin
  deriving DecidableEq, Repr

/-- What stands on the M side and waits for DRAM's answer (R1). -/
inductive InFlight where
  | host (r : Request)
  | discarded (r : Request)
  | injected (w : LinkWrite)
  deriving DecidableEq, Repr

/-- A response passed back to the P side: the request it answers and the bytes it carries (R1). -/
structure Response where
  request : Request
  data    : List Byte
  deriving DecidableEq, Repr

/-- The pass-through port and the M-side arbiter (R1, R2, R10 to R12). -/
structure Link where
  slot         : Option Request
  waiting      : List Request
  overlapLeft  : Nat
  starve       : Nat
  injq         : List Injected
  forwardCount : Nat
  inFlight     : List InFlight
  mSide        : Option Request
  pSide        : Option Response
  deriving DecidableEq, Repr

/-- A return the command unit holds until the queue has a place (R15). -/
structure CmdReturn where
  slot  : Fin 64
  bytes : List Byte
  deriving DecidableEq, Repr

/-- The command unit (R14, R15). `part` holds each slot's owner in the part's view. -/
structure CommandUnit where
  shadow : Mem
  part   : Vector Bool 64
  next   : Fin 64
  ret    : Option CmdReturn
  deriving DecidableEq, Repr

/-- The report kinds (01, 1.6; codes in 11.3). -/
inductive ReportKind where
  | commandDone | zoneState | laneState | tracker | radioState | protectState | thermal | sourceAbsent
  | sleepExpired | format
  deriving DecidableEq, Repr

/-- A report: its kind, the unit a state report is of (R21), its tag, block stamp and payload bytes. -/
structure Report where
  kind    : ReportKind
  unit    : Nat
  tag     : Option Nat
  stamp   : BitVec 32
  payload : List Byte
  deriving DecidableEq, Repr

/-- The report unit (R19 to R22). -/
structure ReportUnit where
  w         : Fin 128
  entryHost : Vector Bool 128
  queue     : List Report
  overrun   : Bool
  deriving DecidableEq, Repr

/-- A section the mirror is placing: the pieces not yet queued, as offsets in the window and bytes (R23, R24). -/
structure MirrorJob where
  sect     : SnapSection
  pieces   : List (Nat × List Byte)
  periodic : Bool
  deriving DecidableEq, Repr

/-- The mirror (R23 to R25). -/
structure Mirror where
  counts   : Vector (BitVec 16) 6
  job      : Option MirrorJob
  metersOn : Bool
  deriving DecidableEq, Repr

/-! ## Stream rings and the tap (chapter 2) -/

/-- The states of a stream slot (R28). -/
inductive SlotState where
  | empty | filling | missed | sealed | unpacking | returning
  deriving DecidableEq, Repr

/-- A record of the slot state table (R28). -/
structure SlotRec where
  state   : SlotState
  late    : Bool
  skip    : Bool
  page    : Option Mem
  len     : Nat
  outcome : StreamStatus
  good    : Nat
  moved   : Nat
  deriving DecidableEq, Repr

/-- What the intake unit keeps of one STREAM window (R28, R29, R39). -/
structure Ring where
  slots         : List SlotRec
  unpackPos     : Nat
  handoverCount : Nat
  feeds         : Option PathId
  idle          : Bool
  deriving DecidableEq, Repr

/-- The tap's view of one of its slots (R42). -/
inductive TapView where
  | hostOwned | offered | filling | closing
  deriving DecidableEq, Repr

/-- The tap's record of one slot: view, late flag and the frames it holds (R42, R43). -/
structure TapSlot where
  view  : TapView
  late  : Bool
  count : Nat
  deriving DecidableEq, Repr

/-- A tap write that is made and waits for a place in the injection queue (R10, R45, R47). -/
inductive TapItem where
  | data (slot first : Nat) (frames : List (Sample × Sample))
  | close (slot count : Nat) (status : StreamStatus) (gapAfter : Bool)
  deriving DecidableEq, Repr

/-- The tap unit (R42 to R47). -/
structure Tap where
  binding      : Option (Fin 16 × TapPoint)
  fillPos      : Nat
  gapPending   : Bool
  closePending : Bool
  hold         : List (Sample × Sample)
  slots        : List TapSlot
  outbox       : List TapItem
  unbinding    : Bool
  deriving DecidableEq, Repr

/-! ## Input lanes (chapter 3) -/

/-- The lane configuration record (R50). -/
structure LaneConfig where
  group : Nat
  index : Nat
  count : Nat
  rate  : Rate
  width : Nat
  role1 : Role
  role2 : Role
  deriving DecidableEq, Repr

/-- The lane record (R50); `realign` is the remaining count while the request is asserted, `arrived` whether a frame
came since the last block (R56). -/
structure LaneRec where
  enable      : Bool
  state       : LaneState
  errors      : Nat
  threshold   : Nat
  replacement : Bool
  goodRun     : Nat
  lastGood    : Sample × Sample
  syncRun     : Nat
  copies      : Nat
  firstCopy   : Option LaneConfig
  config      : Option LaneConfig
  silence     : Nat
  arrived     : Bool
  realign     : Option Nat
  skew        : Nat
  started     : Bool
  buffer      : List (Sample × Sample)
  deriving DecidableEq, Repr

/-- A source format: rate and the role of each channel; its channel count is the number of roles (02, 2.1; R91). -/
structure Format where
  rate  : Rate
  roles : List Role
  deriving DecidableEq, Repr

/-- The group record of a LANE_GROUP entry (03, 3.4). -/
structure GroupRec where
  stage  : GroupStage
  format : Option Format
  opened : Bool
  deriving DecidableEq, Repr

/-! ## Sources, zones and paths (chapters 4 and 5) -/

/-- A source table entry (R67). -/
structure SourceEntry where
  kind   : SourceKind
  lanes  : List (Fin 4)
  window : Option (Fin 16)
  fillT  : Nat
  kp     : Nat
  ki     : Nat
  gainG  : Nat
  ratchetH : Nat
  lockW  : Nat
  trim   : Int
  label  : Option (List Byte)
  deriving DecidableEq, Repr

/-- The zone record (R75). -/
structure ZoneRec where
  power         : Power
  selection     : Option (Fin 12)
  switch        : SwitchState
  target        : Option (Fin 12)
  tag           : Option Nat
  waitCount     : Nat
  attached      : Option PathId
  masterTarget  : Int
  masterCurrent : Int
  mute          : Bool
  rampRate      : Nat
  ramp          : Int
  avDelay       : Nat
  ceiling       : Nat
  sleep         : Nat
  minute        : Nat
  decode        : DecodeMode
  deriving DecidableEq, Repr

/-- The values of the tracker's last computed block that TRACKER reports carry (R108): B, e, c, g and I. -/
structure BlockValues where
  b : Nat
  e : Int
  c : Int
  g : Nat
  i : Int
  deriving DecidableEq, Repr

/-- The tracker record (R94), with the values of the last computed block (R108). -/
structure Tracker where
  state   : TrackerState
  step0   : Option Nat
  cmax    : Option Nat
  integ   : Int
  corr    : Int
  step    : Option Nat
  phase   : Nat
  gain    : Nat
  timer   : Nat
  ratchet : Bool
  slips   : Nat
  overrun : Bool
  err     : Int
  last    : BlockValues
  deriving DecidableEq, Repr

/-- A path: binding, FIFO, formats, tracker, filter history, and the frames it yields in the present block with the
format they carry (R70, R91 to R94, R98, R110). -/
structure PathRec where
  binding     : Option (Fin 12)
  fifo        : List Frame
  format      : Option Format
  formatPending : Bool
  held        : Option Format
  tracker     : Tracker
  history     : List Frame
  drained     : Bool
  yielded     : List Frame
  yieldFormat : Option Format
  adoptedNow  : Bool
  deriving DecidableEq, Repr

/-! ## The mixer (chapter 6) -/

/-- The mixer's state (R114, R116, R125). -/
structure Mixer where
  eL : Nat
  eR : Nat
  eM : Nat
  eS : Nat
  fb : Int
  lr : Int
  matrix : Bool
  layout : List Role
  deriving DecidableEq, Repr

/-! ## The tuner (chapters 7 and 8) -/

/-- A request on the control line (R127). -/
inductive FeRequest where
  | identify
  | setTune (band : Band) (freq : Nat)
  deriving DecidableEq, Repr

/-- The open transaction: its request, acknowledgement timer and retry mark (R127, R133). -/
structure Transaction where
  request : FeRequest
  timer   : Nat
  retried : Bool
  deriving DecidableEq, Repr

/-- Where a tune or a candidate test stands (R137, R146, R147). `advance` is between a dwell that has ended and the
block at which the seek or scan goes on (log 19). -/
inductive TunePhase where
  | none | sending | settling | dwell | advance
  deriving DecidableEq, Repr

/-- The running sums of a dwell (R147). -/
structure Dwell where
  blocks    : Nat
  levelSum  : Nat
  offsetSum : Int
  errors    : Nat
  stereo    : Bool
  deriving DecidableEq, Repr

/-- The operation record (R133), with the clamped mark (R135) and a scan's counts (R150, R151). -/
structure OpRecord where
  kind      : Operation
  dir       : Direction
  startBand : Band
  startFreq : Nat
  tag       : Option Nat
  clamped   : Bool
  found     : Nat
  dropped   : Nat
  tested    : Nat
  deriving DecidableEq, Repr

/-- What the sample lane brought since the last block (R129, R143, R201). -/
inductive Burst where
  | none
  | short
  | full (pairs : List (BitVec 16 × BitVec 16))
  deriving DecidableEq, Repr

/-- The tuner record (R133). The owner zone has its home in `State.owner`. -/
structure Tuner where
  state         : TunerState
  band          : Band
  freq          : Nat
  identified    : Bool
  identity      : Byte
  openTx        : Option Transaction
  waiting       : Option (Band × Nat)
  phase         : TunePhase
  settleCount   : Nat
  silence       : Nat
  level         : Nat
  offset        : Int
  pilot         : PilotState
  inRun         : Nat
  missRun       : Nat
  pilotCount    : Nat
  blend         : Nat
  blendTarget   : Nat
  blendTimer    : Nat
  ampHistory    : List Bool
  op            : Option OpRecord
  dwell         : Dwell
  burst         : Burst
  statusArrived : Bool
  ctlSent       : Option FeRequest
  deriving DecidableEq, Repr

/-- The region settings (R131). -/
structure Region where
  fmStep     : Nat
  amGrid     : Nat
  fmLevel    : Nat
  amLevel    : Nat
  fmOffset   : Nat
  amOffset   : Nat
  ampLow     : Nat
  ampHigh    : Nat
  errK       : Nat
  blendLo    : Nat
  blendHi    : Nat
  forcedMono : Bool
  deriving DecidableEq, Repr

/-- A station list entry (R153). -/
structure Station where
  band   : Band
  freq   : Nat
  level  : Nat
  stereo : Bool
  label  : Option (List Byte)
  deriving DecidableEq, Repr

/-- A used preset (R156); an empty entry is `none`. -/
structure Preset where
  band  : Band
  freq  : Nat
  label : Option (List Byte)
  deriving DecidableEq, Repr

/-! ## Outputs and protection (chapters 9 and 10) -/

/-- The settings a channel's change group waits to apply (R161, R166). -/
structure ChanSettings where
  role     : Role
  delay    : Nat
  polarity : Polarity
  size     : SpeakerSize
  deriving DecidableEq, Repr

/-- The history of a channel's two band filters: past inputs and past outputs (R161, R172). -/
structure CrossoverState where
  inputs : List Int
  lows   : List Int
  highs  : List Int
  deriving DecidableEq, Repr

/-- A channel record (R161). `lrDue` is the fall of Lr due at the next block (R178, log 17); `blockPeak` the last
block's peak (R175). -/
structure Channel where
  applied    : ChanSettings
  trim       : Int
  appliedAv  : Nat
  pend       : Option ChanSettings
  group      : Option (Fin 12)
  ramp       : Int
  reconfig   : Bool
  protect    : Bool
  softStart  : Bool
  softCount  : Nat
  lr         : Int
  lrDue      : Nat
  release    : Nat
  heldPeak   : Nat
  heldClip   : Bool
  heldBlocks : Nat
  blockPeak  : Nat
  crossover  : CrossoverState
  line       : List Sample
  deriving DecidableEq, Repr

/-- The held meter values of one channel (R180, R181). -/
structure MeterHold where
  peak   : Nat
  clip   : Bool
  blocks : Nat
  deriving DecidableEq, Repr

/-- The output unit (R161, R171, R181). `samples` are those the last block put on the output lanes (R163, R201). -/
structure OutputUnit where
  channels    : Vector Channel 12
  crossover   : Nat
  meterPeriod : Nat
  sent        : Option (Vector MeterHold 12)
  samples     : Vector (List Sample) 12
  deriving DecidableEq, Repr

/-- A pair record (R183). -/
structure Pair where
  state     : PairState
  detect    : Nat
  limit     : Nat
  used      : Nat
  asserted  : Nat
  clear     : Nat
  normalRun : Nat
  cause     : Option ProtectCause
  lastLine  : Bool
  deriving DecidableEq, Repr

/-- The thermal record (R193). -/
structure Thermal where
  assertedRun   : Nat
  deassertedRun : Nat
  warning       : Bool
  escalation    : Bool
  t             : Int
  tTarget       : Int
  tTimer        : Nat
  lastLine      : Bool
  deriving DecidableEq, Repr

/-- The input lines as last seen: fault lines and thermal line, asserted as true (11.8). -/
structure Pins where
  faults : BitVec 6
  therm  : Bool
  deriving DecidableEq, Repr

/-- A part of an output block (00_scope 3.1): its beginning, at which the block counter rises, a unit's own part, the
playing of the channels, the tap, the meters. A part made by an earlier row of the same block is not made again in it
(log 2). -/
inductive BlockPart where
  | begin
  | lane (n : Fin 4)
  | path (p : PathId)
  | tuner
  | zone (z : Zone)
  | thermal
  | ramp (c : Fin 12)
  | pair (n : Fin 6)
  | sound
  | limiter (c : Fin 12)
  | tap
  | meters
  deriving DecidableEq, Repr

/-! ## The whole part -/

/-- Everything the spec gives the part, and the queue of the commands that are waiting (`pending`). -/
structure State where
  pending   : List Instr
  strap     : BitVec 4
  windows   : Vector Window 16
  link      : Link
  cmd       : CommandUnit
  rep       : ReportUnit
  mirror    : Mirror
  block     : BitVec 32
  rings     : Vector (Option Ring) 16
  intakeWait : List (Fin 16 × Nat)
  tap       : Tap
  lanes     : Vector LaneRec 4
  groups    : Vector (Option GroupRec) 12
  sources   : Vector SourceEntry 12
  zoneMain  : ZoneRec
  zoneTwo   : ZoneRec
  pathZero  : PathRec
  pathOne   : PathRec
  bindFirst : PathId
  owner     : Option Zone
  mixer     : Mixer
  tuner     : Tuner
  region    : Region
  stations  : List Station
  presets   : Vector (Option Preset) 40
  out       : OutputUnit
  pairs     : Vector Pair 6
  thermal   : Thermal
  pins      : Pins
  freeIdx   : Nat
  taken     : List BlockPart
  deriving DecidableEq, Repr

/-- Why a step stops with a fault. -/
inductive Fault where
  /-- Raised by HOST_REQUEST_ACCEPT for a request the memory link cannot carry (01, 1.1 gives no request of that
  form). Safe: the link delivers none. -/
  | malformedRequest
  deriving DecidableEq, Repr

/-- Why a step is refused. -/
inductive Refusal where
  /-- Raised by exec's arm of a command that has no meaning yet. Safe. -/
  | notModelled (mnemonic : String)
  deriving DecidableEq, Repr

/-! ## Reset values -/

/-- A lane record at power-on (R50). -/
def LaneRec.powerOn : LaneRec where
  enable := false
  state := .disabled
  errors := 0
  threshold := 16
  replacement := true
  goodRun := 0
  lastGood := (0, 0)
  syncRun := 0
  copies := 0
  firstCopy := none
  config := none
  silence := 0
  arrived := false
  realign := none
  skew := 0
  started := false
  buffer := []

/-- A source entry at power-on (R67). -/
def SourceEntry.powerOn : SourceEntry where
  kind := .none
  lanes := []
  window := none
  fillT := 960
  kp := 64
  ki := 2
  gainG := 7
  ratchetH := 3
  lockW := 8
  trim := 0
  label := none

/-- A zone record at power-on (R75). -/
def ZoneRec.powerOn : ZoneRec where
  power := .standby
  selection := none
  switch := .idle
  target := none
  tag := none
  waitCount := 0
  attached := none
  masterTarget := -80
  masterCurrent := -80
  mute := false
  rampRate := 8
  ramp := -240
  avDelay := 0
  ceiling := 1
  sleep := 0
  minute := 0
  decode := .direct

/-- The tracker of a free path (R94, third column). -/
def Tracker.free : Tracker where
  state := .idle
  step0 := none
  cmax := none
  integ := 0
  corr := 0
  step := none
  phase := 0
  gain := 0
  timer := 0
  ratchet := false
  slips := 0
  overrun := false
  err := 0
  last := { b := 0, e := 0, c := 0, g := 0, i := 0 }

/-- A free path (R70, R109). -/
def PathRec.free : PathRec where
  binding := none
  fifo := []
  format := none
  formatPending := false
  held := none
  tracker := Tracker.free
  history := []
  drained := false
  yielded := []
  yieldFormat := none
  adoptedNow := false

/-- The mixer at power-on (R126). -/
def Mixer.powerOn : Mixer where
  eL := 0
  eR := 0
  eM := 0
  eS := 0
  fb := 0
  lr := 0
  matrix := false
  layout := []

/-- The sums at the start of a dwell (R147). -/
def Dwell.start : Dwell where
  blocks := 0
  levelSum := 0
  offsetSum := 0
  errors := 0
  stereo := false

/-- The tuner record at power-on (R133). -/
def Tuner.powerOn : Tuner where
  state := .idle
  band := .fm
  freq := 87500
  identified := false
  identity := 0
  openTx := none
  waiting := none
  phase := .none
  settleCount := 0
  silence := 0
  level := 0
  offset := 0
  pilot := .absent
  inRun := 0
  missRun := 0
  pilotCount := 0
  blend := 0
  blendTarget := 0
  blendTimer := 0
  ampHistory := []
  op := none
  dwell := Dwell.start
  burst := .none
  statusArrived := false
  ctlSent := none

/-- The region settings at power-on (R131). -/
def Region.powerOn : Region where
  fmStep := 100
  amGrid := 9
  fmLevel := 30
  amLevel := 40
  fmOffset := 10
  amOffset := 2
  ampLow := 20000
  ampHigh := 5000000
  errK := 3
  blendLo := 20
  blendHi := 40
  forcedMono := false

/-- Cleared band filters (R161). -/
def CrossoverState.cleared : CrossoverState where
  inputs := []
  lows := []
  highs := []

/-- A channel record at power-on (R161). -/
def Channel.powerOn : Channel where
  applied := { role := .unused, delay := 0, polarity := .normal, size := .large }
  trim := 0
  appliedAv := 0
  pend := none
  group := none
  ramp := 0
  reconfig := false
  protect := false
  softStart := false
  softCount := 0
  lr := 0
  lrDue := 0
  release := 0
  heldPeak := 0
  heldClip := false
  heldBlocks := 0
  blockPeak := 0
  crossover := CrossoverState.cleared
  line := []

/-- The output unit at power-on (R161, R171, R181). -/
def OutputUnit.powerOn : OutputUnit where
  channels := Vector.replicate 12 Channel.powerOn
  crossover := 80
  meterPeriod := 0
  sent := none
  samples := Vector.replicate 12 []

/-- A pair record at power-on (R183). -/
def Pair.powerOn : Pair where
  state := .normal
  detect := 4
  limit := 3
  used := 0
  asserted := 0
  clear := 0
  normalRun := 0
  cause := none
  lastLine := false

/-- The thermal record at power-on (R193). -/
def Thermal.powerOn : Thermal where
  assertedRun := 0
  deassertedRun := 0
  warning := false
  escalation := false
  t := 0
  tTarget := 0
  tTimer := 0
  lastLine := false

/-- The memory link at power-on (R26). -/
def Link.powerOn : Link where
  slot := none
  waiting := []
  overlapLeft := 0
  starve := 0
  injq := []
  forwardCount := 0
  inFlight := []
  mSide := none
  pSide := none

/-- The command unit at power-on and after link reset (R14, R15). -/
def CommandUnit.powerOn : CommandUnit where
  shadow := []
  part := Vector.replicate 64 false
  next := 0
  ret := none

/-- The report unit at power-on and after link reset (R19, R22). -/
def ReportUnit.powerOn : ReportUnit where
  w := 0
  entryHost := Vector.replicate 128 false
  queue := []
  overrun := false

/-- The mirror at power-on (R26). -/
def Mirror.powerOn : Mirror where
  counts := Vector.replicate 6 0
  job := none
  metersOn := false

/-- The tap at power-on (R48). -/
def Tap.powerOn : Tap where
  binding := none
  fillPos := 0
  gapPending := false
  closePending := false
  hold := []
  slots := []
  outbox := []
  unbinding := false

/-- The window table at power-on: the anchor at A x 16 MiB, the rest FREE (R3, R4). -/
def windowsPowerOn (straps : BitVec 4) : Vector Window 16 :=
  (Vector.replicate 16 Window.free).set 0 (Window.anchor (straps.toNat * 16777216))

/-- The state after power-on with given straps and an empty command queue (R26, R41, R48, R66, R89, R90, R109, R126,
R145, R160, R182, R196). -/
def State.powerOn (straps : BitVec 4) : State where
  pending := []
  strap := straps
  windows := windowsPowerOn straps
  link := Link.powerOn
  cmd := CommandUnit.powerOn
  rep := ReportUnit.powerOn
  mirror := Mirror.powerOn
  block := 0
  rings := Vector.replicate 16 none
  intakeWait := []
  tap := Tap.powerOn
  lanes := Vector.replicate 4 LaneRec.powerOn
  groups := Vector.replicate 12 none
  sources := Vector.replicate 12 SourceEntry.powerOn
  zoneMain := ZoneRec.powerOn
  zoneTwo := ZoneRec.powerOn
  pathZero := PathRec.free
  pathOne := PathRec.free
  bindFirst := .p0
  owner := none
  mixer := Mixer.powerOn
  tuner := Tuner.powerOn
  region := Region.powerOn
  stations := []
  presets := Vector.replicate 40 none
  out := OutputUnit.powerOn
  pairs := Vector.replicate 6 Pair.powerOn
  thermal := Thermal.powerOn
  pins := { faults := 0, therm := false }
  freeIdx := 0
  taken := []

/-- The part right after power-on reset. The straps are pins: 0 here is a DESIGN CHOICE (log 13). -/
def State.reset : State := State.powerOn 0

end Sys2Proof.Machine
end

