-- ==== Sys2Proof/Machine/Ops.lean ====
section
/-! DEFINITION. The shared operations: byte memories, tables, the injection queue (R10) and the posting of reports
(R19, R21, R22). -/

namespace Sys2Proof.Machine

open Sys2Proof

/-! ## Byte memories -/

/-- Read one byte; an unlisted address reads as zero (R14, R30). -/
def memRead : Mem → Nat → Byte
  | [], _ => 0
  | (k, v) :: m, a => if a = k then v else memRead m a

/-- Write one byte, keeping addresses rising and listing no zero. -/
def memWrite : Mem → Nat → Byte → Mem
  | [], a, b => if b = 0 then [] else [(a, b)]
  | (k, v) :: m, a, b =>
    if a < k then (if b = 0 then (k, v) :: m else (a, b) :: (k, v) :: m)
    else if a = k then (if b = 0 then m else (a, b) :: m)
    else (k, v) :: memWrite m a b

/-- The canonical form from an address on: addresses strictly rising, no entry zero. -/
def memWfFrom : Nat → Mem → Bool
  | _, [] => true
  | lo, (k, v) :: m => decide (lo ≤ k) && decide (v ≠ 0) && memWfFrom (k + 1) m

/-- The canonical form of a byte memory. -/
def memWf (m : Mem) : Bool := memWfFrom 0 m

/-- Store a list of addressed bytes, in order. -/
def memStore : List (Nat × Byte) → Mem → Mem
  | [], m => m
  | (a, b) :: bs, m => memStore bs (memWrite m a b)

/-- Read a run of bytes. -/
def memBytes (m : Mem) : Nat → Nat → List Byte
  | _, 0 => []
  | a, n + 1 => memRead m a :: memBytes m (a + 1) n

/-- The bytes a write's mask marks, with their addresses (R8: the captured bytes). -/
def maskedBytes : Nat → List Byte → List Bool → List (Nat × Byte)
  | a, b :: bs, k :: ks => if k then (a, b) :: maskedBytes (a + 1) bs ks else maskedBytes (a + 1) bs ks
  | _, _, _ => []

/-- The captured bytes of a write (R8). -/
def capturedOf (w : LinkWrite) : List (Nat × Byte) := maskedBytes w.addr w.data w.mask

/-- Fill a payload up to a length with zero bytes (R199). -/
def padTo (n : Nat) (bs : List Byte) : List Byte := bs ++ List.replicate (n - bs.length) 0

/-- A write of a run of bytes, all of them in its mask. -/
def fullWrite (addr : Nat) (bs : List Byte) : LinkWrite :=
  { addr := addr, data := bs, mask := List.replicate bs.length true }

/-! ## Zones, paths and tables -/

/-- The record of a zone. -/
def State.zone (s : State) : Zone → ZoneRec
  | .main => s.zoneMain
  | .zone2 => s.zoneTwo

/-- Put a zone record in its place. -/
def State.setZone (s : State) (z : Zone) (r : ZoneRec) : State :=
  match z with
  | .main => { s with zoneMain := r }
  | .zone2 => { s with zoneTwo := r }

/-- The record of a path. -/
def State.path (s : State) : PathId → PathRec
  | .p0 => s.pathZero
  | .p1 => s.pathOne

/-- Put a path record in its place. -/
def State.setPath (s : State) (p : PathId) (r : PathRec) : State :=
  match p with
  | .p0 => { s with pathZero := r }
  | .p1 => { s with pathOne := r }

/-- The record of a lane. -/
def State.lane (s : State) (l : Fin 4) : LaneRec := getAt s.lanes l

/-- Put a lane record in its place. -/
def State.setLane (s : State) (l : Fin 4) (r : LaneRec) : State := { s with lanes := setAt s.lanes l r }

/-- The group record of a source entry. -/
def State.group (s : State) (e : Fin 12) : Option GroupRec := getAt s.groups e

/-- Put a group record in its place. -/
def State.setGroup (s : State) (e : Fin 12) (g : Option GroupRec) : State := { s with groups := setAt s.groups e g }

/-- A source table entry. -/
def State.source (s : State) (e : Fin 12) : SourceEntry := getAt s.sources e

/-- Put a source entry in its place. -/
def State.setSource (s : State) (e : Fin 12) (r : SourceEntry) : State := { s with sources := setAt s.sources e r }

/-- A channel record. -/
def State.chan (s : State) (c : Fin 12) : Channel := getAt s.out.channels c

/-- Put a channel record in its place. -/
def State.setChan (s : State) (c : Fin 12) (r : Channel) : State :=
  { s with out := { s.out with channels := setAt s.out.channels c r } }

/-- A pair record. -/
def State.pair (s : State) (n : Fin 6) : Pair := getAt s.pairs n

/-- Put a pair record in its place. -/
def State.setPair (s : State) (n : Fin 6) (r : Pair) : State := { s with pairs := setAt s.pairs n r }

/-- The ring of a STREAM window. -/
def State.ring (s : State) (i : Fin 16) : Option Ring := getAt s.rings i

/-- Put a ring in its place. -/
def State.setRing (s : State) (i : Fin 16) (r : Option Ring) : State := { s with rings := setAt s.rings i r }

/-- A window table entry. -/
def State.window (s : State) (i : Fin 16) : Window := getAt s.windows i

/-- Put a window table entry in its place. -/
def State.setWindow (s : State) (i : Fin 16) (w : Window) : State := { s with windows := setAt s.windows i w }

/-- Index a source entry by a number that may be out of range. -/
def fin12? (n : Nat) : Option (Fin 12) := if h : n < 12 then some ⟨n, h⟩ else none

/-- Index a window by a number that may be out of range. -/
def fin16? (n : Nat) : Option (Fin 16) := if h : n < 16 then some ⟨n, h⟩ else none

/-- Index a pair by a number that may be out of range. -/
def fin6? (n : Nat) : Option (Fin 6) := if h : n < 6 then some ⟨n, h⟩ else none

/-- Index a lane by a number that may be out of range. -/
def fin4? (n : Nat) : Option (Fin 4) := if h : n < 4 then some ⟨n, h⟩ else none

/-- Index a preset by a number that may be out of range. -/
def fin40? (n : Nat) : Option (Fin 40) := if h : n < 40 then some ⟨n, h⟩ else none

/-- The index after `i` in a ring of 64. -/
def next64 (i : Fin 64) : Fin 64 := ⟨(i.val + 1) % 64, Nat.mod_lt _ (by decide)⟩

/-- The index after `i` in a ring of 128. -/
def next128 (i : Fin 128) : Fin 128 := ⟨(i.val + 1) % 128, Nat.mod_lt _ (by decide)⟩

/-- Do an action for each element of a list, in order. -/
def forEach {α : Type} (f : α → State → State) : List α → State → State
  | [], s => s
  | x :: xs, s => forEach f xs (f x s)

/-- Replace one element of a list by its place; a place past the end changes nothing. -/
def listSet {α : Type} : List α → Nat → α → List α
  | [], _, _ => []
  | _ :: xs, 0, y => y :: xs
  | x :: xs, n + 1, y => x :: listSet xs n y

/-! ## Windows (R4) -/

/-- The base of a window. -/
def Window.base : Window → Nat
  | .free => 0
  | .anchor b => b
  | .stream b _ _ => b
  | .tap b _ _ => b
  | .mirror b => b

/-- The length of a window (R4). -/
def Window.length : Window → Nat
  | .free => 0
  | .anchor _ => 8192
  | .stream _ size count => size * count
  | .tap _ size count => size * count
  | .mirror _ => 8192

/-- A window covers an address. -/
def Window.covers (w : Window) (a : Nat) : Bool := decide (w.base ≤ a) && decide (a < w.base + w.length)

/-- The window an address falls in, if any (R4: the ranges never meet). -/
def State.windowAt (s : State) (a : Nat) : Option (Fin 16) :=
  (List.finRange 16).find? fun i => (s.window i).covers a

/-- The first address of the anchor (R3). -/
def State.anchorBase (s : State) : Nat := s.strap.toNat * 16777216

/-- The base of the MIRROR window, if one is defined (R23). -/
def State.mirrorBase (s : State) : Option Nat :=
  (List.finRange 16).findSome? fun i =>
    match s.window i with
    | .mirror b => some b
    | .free | .anchor _ | .stream _ _ _ | .tap _ _ _ => none

/-- The TAP window, if one is defined: index, base, slot size, slot count. -/
def State.tapWindow (s : State) : Option (Fin 16 × Nat × Nat × Nat) :=
  (List.finRange 16).findSome? fun i =>
    match s.window i with
    | .tap b size count => some (i, b, size, count)
    | .free | .anchor _ | .stream _ _ _ | .mirror _ => none

/-! ## The injection queue (R10) -/

/-- The injection queue has a free place: it holds up to 16 writes (R10). -/
def State.room (s : State) : Bool := decide (s.link.injq.length < 16)

/-- Place a write at the end of the injection queue. -/
def State.enqueue (s : State) (i : Injected) : State :=
  { s with link := { s.link with injq := s.link.injq ++ [i] } }

/-! ## Reports (R19 to R22) -/

/-- The kind byte of a report (11.3). -/
def ReportKind.code : ReportKind → Nat
  | .commandDone => 1
  | .zoneState => 2
  | .laneState => 3
  | .tracker => 4
  | .radioState => 5
  | .protectState => 6
  | .thermal => 7
  | .sourceAbsent => 8
  | .sleepExpired => 9
  | .format => 10

/-- The state reports (R21). -/
def ReportKind.isState : ReportKind → Bool
  | .zoneState | .laneState | .tracker | .radioState | .protectState | .thermal => true
  | .commandDone | .sourceAbsent | .sleepExpired | .format => false

/-- The 32 bytes of a report entry (11.3), with owner HOST and the overrun marker of R22. -/
def Report.bytes (r : Report) (overrun : Bool) : List Byte :=
  [0, BitVec.ofNat 8 r.kind.code, flagByte overrun, optByte r.tag]
    ++ leBytes 4 r.stamp.toNat ++ leBytes 4 0 ++ padTo 20 r.payload

/-- Entry `w` is free in the report unit's view and the injection queue has a place (R19). -/
def State.canWriteReport (s : State) : Bool := !(getAt s.rep.entryHost s.rep.w) && s.room

/-- Write a report into entry `w` (R19): one 32-byte injected write; the marker is carried and cleared (R22). -/
def State.writeReport (s : State) (r : Report) : State :=
  let s1 := s.enqueue
    { write := fullWrite (s.anchorBase + 4096 + 32 * s.rep.w.val) (r.bytes s.rep.overrun)
      origin := .report s.rep.w }
  { s1 with rep := { s1.rep with w := next128 s1.rep.w, overrun := false } }

/-- The first report of the same kind and unit in a list, replaced in its place; none if there is no such report. -/
def replaceSame (r : Report) : List Report → Option (List Report)
  | [] => none
  | q :: qs =>
    if q.kind = r.kind ∧ q.unit = r.unit then some (r :: qs)
    else (replaceSame r qs).map (q :: ·)

/-- The pending report of the same kind and unit, replaced in its place (R21). Several such reports can be pending, having
joined while the queue held fewer than 8; R21 does not say which of them is replaced, and the model takes the newest, so
that none older is read after it (log 43). -/
def replaceNewestSame (r : Report) (qs : List Report) : Option (List Report) :=
  (replaceSame r qs.reverse).map List.reverse

/-- A full pending queue keeps at most one RADIO_STATE (R144): of several the newest, in its own place (log 43). -/
def oneRadio : List Report → List Report
  | [] => []
  | q :: qs =>
    if q.kind = .radioState ∧ qs.any (fun x => decide (x.kind = .radioState)) = true then oneRadio qs
    else q :: oneRadio qs

/-- How many RADIO_STATE reports a list holds (R144). -/
def radioCount (qs : List Report) : Nat := qs.countP fun r => decide (r.kind = .radioState)

/-- Drop the first report that is no completion. -/
def dropNonDone : List Report → Option (List Report)
  | [] => none
  | q :: qs => if q.kind = .commandDone then (dropNonDone qs).map (q :: ·) else some qs

/-- Drop the newest pending report that is no completion (R21). -/
def dropNewestNonDone (qs : List Report) : Option (List Report) := (dropNonDone qs.reverse).map List.reverse

/-- A report joins the pending queue, replaces one in it, displaces one, or is dropped (R21, R22). The join that fills
the queue leaves one RADIO_STATE in it (R144), which is a replacement and no drop (log 43). -/
def ReportUnit.pend (u : ReportUnit) (r : Report) : ReportUnit :=
  if u.queue.length < 7 then { u with queue := u.queue ++ [r] }
  else if u.queue.length < 8 then { u with queue := oneRadio (u.queue ++ [r]) }
  else if r.kind.isState then
    match replaceNewestSame r u.queue with
    | some qs => { u with queue := qs }
    | none => { u with overrun := true }
  else if r.kind = .commandDone then
    match dropNewestNonDone u.queue with
    | some qs => { u with queue := qs ++ [r], overrun := true }
    | none => { u with overrun := true }
  else { u with overrun := true }

/-- A report arises (R19): written at once when nothing is pending and an entry and a place are free, else it goes to
the pending queue (R21). -/
def State.post (s : State) (r : Report) : State :=
  if s.rep.queue = [] ∧ s.canWriteReport = true then s.writeReport r
  else { s with rep := s.rep.pend r }

/-- Raise a report that carries no tag, with the present block as its stamp. -/
def State.raise (s : State) (kind : ReportKind) (unit : Nat) (payload : List Byte) : State :=
  s.post { kind := kind, unit := unit, tag := none, stamp := s.block, payload := payload }

/-- Raise a COMMAND_DONE; an operation whose tag is none raises none (R17). -/
def State.raiseDone (s : State) (tag : Option Nat) (payload : List Byte) : State :=
  match tag with
  | none => s
  | some t => s.post { kind := .commandDone, unit := 0, tag := some t, stamp := s.block, payload := payload }

/-- The notify line: asserted while at least one report entry is host-owned (R20). -/
def State.notifyLine (s : State) : Bool := (List.finRange 128).any fun i => getAt s.rep.entryHost i

/-- The report unit writes its oldest pending report when it can (R19). -/
def State.writePending (s : State) : State :=
  match s.rep.queue with
  | [] => s
  | r :: rs => if s.canWriteReport then { s with rep := { s.rep with queue := rs } }.writeReport r else s

/-! ## Which zones a path serves, which path a source has -/

/-- A path bound to a source entry (R70). -/
def State.boundPath (s : State) (e : Fin 12) : Option PathId :=
  if s.pathZero.binding = some e then some .p0
  else if s.pathOne.binding = some e then some .p1
  else none

/-- A zone is attached to a path: the attached-zone set, held in the zone records (R70, R75). -/
def State.attachedTo (s : State) (z : Zone) (p : PathId) : Bool := decide ((s.zone z).attached = some p)

/-- The kind of the source a path is bound to. -/
def State.pathKind (s : State) (p : PathId) : SourceKind :=
  match (s.path p).binding with
  | none => .none
  | some e => (s.source e).kind

/-- The path bound to the TUNER source, if any. -/
def State.tunerPath (s : State) : Option PathId :=
  if s.pathKind .p0 = .tuner then some .p0 else if s.pathKind .p1 = .tuner then some .p1 else none

/-- The LANE_GROUP entry whose lane list holds a lane, if any (R54). -/
def State.entryOfLane (s : State) (l : Fin 4) : Option (Fin 12) :=
  (List.finRange 12).find? fun e => decide ((s.source e).kind = .laneGroup) && (s.source e).lanes.contains l

end Sys2Proof.Machine
end

