-- ==== Sys2Proof/Machine/Operands.lean ====
section
/-! DEFINITION. The operand forms: argument fields of a command slot (R198), lane frames and preamble copies (R49,
R53, R200), carriage frames of a stream slot (02 2.1, R33). -/

namespace Sys2Proof.Machine

open Sys2Proof

/-! ## Argument fields -/

/-- An argument shown as on/off, enable or replacement: 0 is off, any other value on (R198). -/
def onOff (b : Byte) : Bool := decide (b ≠ 0)

/-- A label argument (11.2): none where the length is malformed (9 to 254), else the label or its absence. -/
def decodeLabel (l : LabelArg) : Option (Option (List Byte)) :=
  if l.len.toNat ≤ 8 then some (some (l.chars.take l.len.toNat))
  else if l.len.toNat = 255 then some none
  else none

/-- An allowed ramp rate for a given one (R79). -/
def clampRampRate (n : Nat) : Nat :=
  if n ≤ 1 then 1 else if n ≤ 3 then 2 else if n ≤ 7 then 4 else if n ≤ 15 then 8 else 16

/-- An allowed detect count for a given one (R192). -/
def clampDetect (n : Nat) : Nat :=
  if n ≤ 1 then 1 else if n = 2 then 2 else if n = 3 then 3 else if n ≤ 7 then 4 else if n ≤ 15 then 8
  else if n ≤ 31 then 16 else if n ≤ 63 then 32 else 64

/-- The label argument at an offset of a run of argument bytes. -/
def labelAt (args : List Byte) (off : Nat) : LabelArg :=
  { len := args.getD off 0, chars := (args.drop (off + 1)).take 8 }

/-- An argument byte. -/
def argByte (args : List Byte) (off : Nat) : Byte := args.getD off 0

/-- A 16-bit argument field (R197). -/
def argU16 (args : List Byte) (off : Nat) : BitVec 16 := BitVec.ofNat 16 (leNat ((args.drop off).take 2))

/-- A 32-bit argument field (R197). -/
def argU32 (args : List Byte) (off : Nat) : BitVec 32 := BitVec.ofNat 32 (leNat ((args.drop off).take 4))

/-! ## Lane frames -/

/-- How the lane receiver takes a frame before it looks at the lane's state (R49). -/
inductive FrameKind where
  | fill | sync | preamble | data | errored
  deriving DecidableEq, Repr

/-- Byte `k` of a 24-bit field, the lowest first (R197, 11.7). -/
def fieldByte (f : BitVec 24) (k : Nat) : Byte := BitVec.ofNat 8 (f.toNat / 256 ^ k)

/-- The exclusive-or of bytes 0 to 6 of a lane frame (R200). -/
def frameXor (f : LaneFrame) : Byte :=
  f.marker ^^^ fieldByte f.fieldA 0 ^^^ fieldByte f.fieldA 1 ^^^ fieldByte f.fieldA 2
    ^^^ fieldByte f.fieldB 0 ^^^ fieldByte f.fieldB 1 ^^^ fieldByte f.fieldB 2

/-- The marker is one of the four of 11.7. -/
def markerKnown (f : LaneFrame) : Bool :=
  f.marker == 0x3C || f.marker == 0xB5 || f.marker == 0x6A || f.marker == 0xD3

/-- The error SYMBOL (R200). -/
def symbolError (f : LaneFrame) : Bool := !f.symbolsValid || !markerKnown f

/-- The error PARITY, of a frame with no SYMBOL error (R49, R200). -/
def parityError (f : LaneFrame) : Bool := !symbolError f && frameXor f != f.parity

/-- Classify a frame (R49): errored, or taken by its marker. -/
def frameKind (f : LaneFrame) : FrameKind :=
  if symbolError f || parityError f then .errored
  else if f.marker = 0x3C then .fill
  else if f.marker = 0xB5 then .sync
  else if f.marker = 0x6A then .preamble
  else .data

/-- A field of a DATA frame as a sample, its low bits cleared for a width of 20 or 16 (R49). -/
def fieldSample (width : Nat) (f : BitVec 24) : Sample := ((f >>> (24 - width)) <<< (24 - width)).toInt

/-- The two samples of a DATA frame of a lane (R49). -/
def frameSamples (f : LaneFrame) (cfg : Option LaneConfig) : Sample × Sample :=
  let width := match cfg with
    | some c => c.width
    | none => 24
  (fieldSample width f.fieldA, fieldSample width f.fieldB)

/-- A run of bits of a field, as a number. -/
def fieldBits (f : BitVec 24) (lo n : Nat) : Nat := f.toNat / 2 ^ lo % 2 ^ n

/-- The copy of the lane configuration record a PREAMBLE frame carries; none when it is not valid (R53, R200). -/
def frameCopy (f : LaneFrame) : Option LaneConfig :=
  let group := fieldBits f.fieldA 0 4
  let index := fieldBits f.fieldA 4 4
  let count := fieldBits f.fieldA 8 4
  let rate := fieldBits f.fieldA 12 4
  let width := fieldBits f.fieldA 16 8
  let role1 := fieldBits f.fieldB 0 8
  let role2 := fieldBits f.fieldB 8 8
  let check := fieldBits f.fieldB 16 8
  match Rate.ofCode rate, Role.ofCode role1, Role.ofCode role2 with
  | some r, some a, some b =>
    if check = (group + index + count + rate + width + role1 + role2) % 256 ∧ group ≤ 3 ∧ 1 ≤ count ∧ count ≤ 4
        ∧ index < count ∧ (width = 16 ∨ width = 20 ∨ width = 24) ∧ role1 ≤ 12 ∧ role2 ≤ 12
        ∧ (role1 ≠ role2 ∨ role1 = 0) then
      some { group := group, index := index, count := count, rate := r, width := width, role1 := a, role2 := b }
    else none
  | _, _, _ => none

/-! ## Carriage frames -/

/-- A good carriage frame of a sealed slot: its format, where its samples begin in the slot, how many frames. -/
structure Carriage where
  format : Format
  start  : Nat
  frames : Nat
  deriving DecidableEq, Repr

/-- The sum of the first 15 bytes of a carriage frame header, modulo 256 (02 2.1, 11.4). -/
def headerSum (bs : List Byte) : Nat := sumNat ((bs.take 15).map BitVec.toNat) % 256

/-- The roles a channel map gives its first `c` positions; none where a code is no source role. -/
def mapRoles : List Byte → Option (List Role)
  | [] => some []
  | b :: bs =>
    match Role.ofCode b.toNat with
    | some r => if r.isSource then (mapRoles bs).map (r :: ·) else none
    | none => none

/-- One carriage frame at an offset of a page, when it is good and lies before `stop` (R33). -/
def parseCarriage (page : Mem) (off stop : Nat) : Option Carriage :=
  if stop < off + 16 then none
  else
    let h := memBytes page off 16
    let c := (argByte h 2).toNat
    let n := leNat ((h.drop 4).take 2)
    let map := (h.drop 6).take 8
    match Rate.ofCode (argByte h 3).toNat, mapRoles (map.take c) with
    | some rate, some roles =>
      if argByte h 0 = 0xC7 ∧ argByte h 1 = 0x5A ∧ (argByte h 15).toNat = headerSum h ∧ 1 ≤ c ∧ c ≤ 8
          ∧ 1 ≤ n ∧ n ≤ 256 ∧ roles.Nodup ∧ (map.drop c).all (· == 0) = true ∧ off + 16 + 4 * c * n ≤ stop then
        some { format := { rate := rate, roles := roles }, start := off + 16, frames := n }
      else none
    | _, _ => none

/-- The good carriage frames of a payload up to the first that fails, and whether they end exactly at its end (R33). -/
def parsePayload : Nat → Mem → Nat → Nat → List Carriage × Bool
  | 0, _, _, _ => ([], false)
  | fuel + 1, page, off, stop =>
    if off = stop then ([], true)
    else
      match parseCarriage page off stop with
      | none => ([], false)
      | some c =>
        let r := parsePayload fuel page (c.start + 4 * c.format.roles.length * c.frames) stop
        (c :: r.1, r.2)

/-- Parse the payload of a slot of a given length: a carriage frame takes 20 bytes or more, and a payload is at most
2032 bytes, so 128 rounds reach its end. -/
def parseSlot (page : Mem) (len : Nat) : List Carriage × Bool := parsePayload 128 page 16 (16 + len)

/-- The number of audio frames in the good carriage frames (R33). -/
def goodFrames (cs : List Carriage) : Nat := sumNat (cs.map (·.frames))

/-- Where audio frame `k` of a slot stands: its carriage frame and its place in it. -/
def locateFrame : List Carriage → Nat → Option (Carriage × Nat)
  | [], _ => none
  | c :: cs, k => if k < c.frames then some (c, k) else locateFrame cs (k - c.frames)

/-- The 24-bit sample in the low three bytes of a sample word (02 2.1). -/
def sampleAt (page : Mem) (a : Nat) : Sample := (BitVec.ofNat 24 (leNat (memBytes page a 3))).toInt

/-- The samples of audio frame `k` of a carriage frame, in channel order. -/
def Carriage.frame (c : Carriage) (page : Mem) (k : Nat) : Frame :=
  (List.range c.format.roles.length).map fun j => sampleAt page (c.start + 4 * (c.format.roles.length * k + j))

end Sys2Proof.Machine
end

