-- ==== Sys2Proof/Machine/Flags.lean ====
section
/-! DEFINITION. The gain arithmetic (R174, R175, R178, R180) and the conditions that several units read: readiness,
presence, the buffered count, silence, the zone ramp's target. -/

namespace Sys2Proof.Machine

open Sys2Proof

/-! ## Gain arithmetic -/

/-- The mantissas of R175. -/
def mantissa : Nat → Int
  | 0 => 8388608
  | 1 => 7917792
  | 2 => 7473400
  | 3 => 7053950
  | 4 => 6658043
  | 5 => 6284355
  | 6 => 5931642
  | 7 => 5598724
  | 8 => 5284492
  | 9 => 4987896
  | 10 => 4707947
  | _ => 4443710

/-- q of R175: the gain index divided by 12, rounded up. -/
def gainQ (n : Int) : Int := -((-n) / 12)

/-- k of R175. -/
def gainK (n : Int) : Nat := (12 * gainQ n - n).toNat

/-- sh of R175. -/
def gainSh (n : Int) : Nat := (23 - gainQ n).toNat

/-- The gain chain's arithmetic at gain index `n` (R175), before polarity and saturation. -/
def gainScale (n : Int) (x : Int) : Int := asr (x * mantissa (gainK n) + 2 ^ (gainSh n - 1)) (gainSh n)

/-- The -6 operation of the mixer (R119). -/
def minus6 (x : Sample) : Int := asr (x * 5931642 + 4194304) 23

/-- The +20 operation of the LFE feed (R172). -/
def plus20 (x : Sample) : Int := asr (x * 6658043 + 1048576) 21

/-- The level of full scale at index -d (R178, R180). -/
def levelAt (d : Nat) : Nat := (gainScale (-(d : Int)) 8388607).toNat

/-- The least d of 1 or more whose scaling brings a peak to or below a level (R178): at most 48 steps are ever needed,
since a peak is at most 4 times full scale and a ceiling at least a quarter of it. -/
def limiterFall (peak level : Nat) : Nat :=
  (((List.range 64).map (fun d : Nat => d + 1)).find? fun d : Nat => decide (gainScale (-(d : Int)) peak ≤ level)).getD 64

/-- The meter reading of a held peak: the largest d in 0 to 240 whose level is at or above it, 0 when none is
(R180). -/
def meterReading (p : Nat) : Nat := (((List.range 241).reverse).find? fun d : Nat => decide (p ≤ levelAt d)).getD 0

/-! ## Presence and readiness -/

/-- The source of a path is present (04, after R69): a running group, a window that feeds the path and is not idle, a
TUNED tuner. -/
def State.present (s : State) (p : PathId) : Bool :=
  match (s.path p).binding with
  | none => false
  | some e =>
    match (s.source e).kind with
    | .none => false
    | .laneGroup =>
      match s.group e with
      | some g => decide (g.stage = .running)
      | none => false
    | .stream =>
      match (s.source e).window with
      | none => false
      | some w =>
        match s.ring w with
        | some r => decide (r.feeds = some p) && !r.idle
        | none => false
    | .tuner => decide (s.tuner.state = .tuned)

/-- A tracker is ready in ACQUIRE, TRACK and SYNC (R94). -/
def trackerReady : TrackerState → Bool
  | .acquire | .track | .sync => true
  | .idle | .prefill | .hold => false

/-- A path is ready (R76). -/
def State.pathReady (s : State) (p : PathId) : Bool := trackerReady (s.path p).tracker.state

/-- The ramp target of a zone is silence (R76). -/
def State.rampHeld (s : State) (z : Zone) : Bool :=
  let r := s.zone z
  decide (r.switch = .fadeOut) || decide (r.switch = .waitReady) || decide (r.power ≠ .on) || r.mute ||
    (match r.attached with
     | none => true
     | some p => !s.pathReady p || (s.path p).formatPending)

/-- The ramp target of a zone (R76). -/
def State.rampTarget (s : State) (z : Zone) : Int := if s.rampHeld z then -240 else 0

/-- Every zone attached to a path is silent: r_z is -240 (R76, R93). -/
def State.attachedSilent (s : State) (p : PathId) : Bool :=
  (!s.attachedTo .main p || decide (s.zoneMain.ramp = -240)) && (!s.attachedTo .zone2 p || decide (s.zoneTwo.ramp = -240))

/-! ## The sealed run and B -/

/-- The sealed run from a slot on, over at most `n` slots (R38). -/
def sealedRun (slots : List SlotRec) : Nat → Nat → Nat
  | 0, _ => 0
  | n + 1, i =>
    match slots[i]? with
    | none => 0
    | some r =>
      let rest := sealedRun slots n ((i + 1) % slots.length)
      match r.state with
      | .unpacking => (r.good - r.moved) + rest
      | .sealed => r.good + rest
      | .empty | .filling | .missed | .returning => if r.skip then rest else 0

/-- The frames sealed in the ring that feeds a path. -/
def Ring.run (r : Ring) : Nat := sealedRun r.slots r.slots.length r.unpackPos

/-- The window whose ring feeds a path, if any (R29). -/
def State.feeding (s : State) (p : PathId) : Option (Fin 16) :=
  (List.finRange 16).find? fun i =>
    match s.ring i with
    | some r => decide (r.feeds = some p)
    | none => false

/-- The buffered count B of a path (R38, R95). -/
def State.buffered (s : State) (p : PathId) : Nat :=
  (s.path p).fifo.length +
    (match s.feeding p with
     | some w => match s.ring w with
       | some r => r.run
       | none => 0
     | none => 0)

/-- The pages of one slot list that are bound. -/
def boundIn : List SlotRec → Nat
  | [] => 0
  | r :: rs => (if r.page.isSome then 1 else 0) + boundIn rs

/-- The shadow pages bound to slots, of the 32 the intake unit holds (02 2.3). -/
def State.pagesBound (s : State) : Nat :=
  sumNat ((List.finRange 16).map fun i => match s.ring i with
    | some r => boundIn r.slots
    | none => 0)

/-! ## Channels -/

/-- The pair a channel belongs to (R161). -/
def pairOf (c : Fin 12) : Fin 6 := ⟨c.val / 2, by omega⟩

/-- The zone a role belongs to (R161). -/
def roleZone : Role → Option Zone
  | .z2l | .z2r => some .zone2
  | .unused | .none | .lfe => none
  | .fl | .fr | .c | .sl | .sr | .bl | .br | .tfl | .tfr | .tbl | .tbr | .sw => some .main

/-- The zone of a channel follows from its applied role (R161). -/
def Channel.zone (c : Channel) : Option Zone := roleZone c.applied.role

/-- The target settings: pending when present, applied otherwise (R161). -/
def Channel.target (c : Channel) : ChanSettings := c.pend.getD c.applied

/-- A pair whose channels cannot be heard (R167). -/
def pairSilenced : PairState → Bool
  | .protect | .recoverWait | .lockout => true
  | .normal | .softStart => false

/-- A channel is silent (R167). -/
def State.chanSilent (s : State) (c : Fin 12) : Bool :=
  let r := s.chan c
  (match r.zone with
   | none => true
   | some z => decide ((s.zone z).power = .standby) || decide ((s.zone z).ramp = -240))
    || pairSilenced (s.pair (pairOf c)).state || decide (r.ramp = -240)

/-- A role is held by a channel of the main zone's layout (R111). -/
def State.inLayout (s : State) (r : Role) : Bool :=
  r.isMainSpeaker && (List.finRange 12).any fun c => decide ((s.chan c).applied.role = r)

/-- A role is among the target roles (R168). -/
def State.inTargets (s : State) (r : Role) : Bool :=
  (List.finRange 12).any fun c => decide ((s.chan c).target.role = r)

/-- The layout: the speaker roles MAIN's channels hold, in the order of 11.6. -/
def layoutOrder : List Role := [.fl, .fr, .c, .sw, .sl, .sr, .bl, .br, .tfl, .tfr, .tbl, .tbr]

/-- The main zone's layout (R111). -/
def State.layout (s : State) : List Role := layoutOrder.filter s.inLayout

/-- A pair has the fault condition: its line asserted, or escalation in effect (R184). -/
def State.faultCondition (s : State) (line : Bool) : Bool := line || s.thermal.escalation

/-- The formats on which the matrix works: exactly two channels, FL and FR in either order (R112). -/
def Format.stereoPair (f : Format) : Bool := f.roles == [.fl, .fr] || f.roles == [.fr, .fl]

/-- The matrix is in effect for a mode and a format (R112). -/
def matrixOn (mode : DecodeMode) (f : Option Format) : Bool :=
  decide (mode ≠ .direct) && (match f with
    | some f => f.stereoPair
    | none => false)

/-! ## Block parts -/

/-- Make a part of the block, unless it has been made already. -/
def takePart (k : BlockPart) (f : State → State) (s : State) : State :=
  if k ∈ s.taken then s else let t := f s; { t with taken := k :: t.taken }

/-- A row for an event within a block (log 2). `before` makes the parts of the block that come before the unit's own and
are not made yet; when the event occurs in the state they leave, the unit's own part is made too, and otherwise nothing
happens (log 1). -/
def blockEvent (k : BlockPart) (before : State → State) (occurs : State → Bool) (f : State → State) (s : State) :
    State :=
  if k ∈ s.taken ∨ occurs (before s) = false then s
  else let t := f (before s); { t with taken := k :: t.taken }

end Sys2Proof.Machine
end

