-- ==== Sys2Proof/Machine/Paths.lean ====
section
/-! DEFINITION. The paths: format and FIFO (R91 to R93, R104), the rate tracker and the resampler's pace (R94 to R106),
and a path's part of an output block. -/

namespace Sys2Proof.Machine

open Sys2Proof

/-! ## Formats -/

/-- The nominal step of a rate: rounded to nearest, ties up (R96). -/
def nominalStep (r : Rate) : Nat := (2 * r.hz * 2 ^ 24 + 48000) / 96000

/-- The limit of the correction (R96). -/
def stepLimit (step0 : Nat) : Nat := step0 / 512

/-- Entry to PREFILL: the loop's values and the filter history start afresh, the FIFO is kept (R99). -/
def PathRec.enterPrefill (r : PathRec) : PathRec :=
  { r with
    tracker := { r.tracker with
      state := .prefill, integ := 0, phase := 0, corr := 0, gain := 0, slips := 0, ratchet := false, timer := 0
      step := r.tracker.step0 }
    history := []
    drained := false }

/-- The path record after adopting a format (R93): FIFO flushed, step and limit taken afresh, PREFILL. -/
def PathRec.adopt (r : PathRec) (f : Format) : PathRec :=
  { r with
    fifo := []
    format := some f
    formatPending := false
    held := none
    adoptedNow := true
    tracker := { r.tracker with
      step0 := some (nominalStep f.rate)
      cmax := some (stepLimit (nominalStep f.rate))
      overrun := false } }.enterPrefill

/-- The source index byte of a path's reports. -/
def PathRec.sourceByte (r : PathRec) : Byte := optByte (r.binding.map (·.val))

/-- The payload of a FORMAT report (11.3). -/
def formatPayload (p : PathId) (r : PathRec) (f : Format) : List Byte :=
  [BitVec.ofNat 8 p.code, r.sourceByte, BitVec.ofNat 8 f.roles.length, BitVec.ofNat 8 f.rate.code]
    ++ padTo 8 (f.roles.map fun x => BitVec.ofNat 8 x.code)

/-- The payload of a TRACKER report (11.3): the new state, and B, e, c, I, g of the tracker's last computed block, which
for LOCKED and SLIP is the block at which it arose (R108, log 20). -/
def trackerPayload (p : PathId) (r : PathRec) (cause : TrackerCause) (st : TrackerState) : List Byte :=
  let v := r.tracker.last
  [BitVec.ofNat 8 p.code, r.sourceByte, BitVec.ofNat 8 cause.code, BitVec.ofNat 8 st.code]
    ++ leBytes 2 v.b ++ leBytesInt 2 v.e ++ leBytesInt 4 v.c ++ leBytesInt 4 v.i ++ [BitVec.ofNat 8 v.g]

/-- Set the main zone's detector energies to 0 (R114). -/
def State.zeroEnergies (s : State) : State :=
  { s with mixer := { s.mixer with eL := 0, eR := 0, eM := 0, eS := 0 } }

/-- Set them to 0 when MAIN is attached to the path that adopts a format (R114). -/
def State.zeroEnergiesFor (s : State) (p : PathId) : State :=
  if s.attachedTo .main p then s.zeroEnergies else s

/-- A path adopts its held format (R93), and MAIN's energies are set to 0 at once (R114): old frames that it has yielded
in the block before are steered from energies of 0, the model's reading (log 37). -/
def State.adoptFormat (s : State) (p : PathId) : State :=
  match (s.path p).held with
  | none => s
  | some f =>
    let s1 := (s.setPath p ((s.path p).adopt f)).zeroEnergiesFor p
    s1.raise .format p.code (formatPayload p (s1.path p) f)

/-- A source hands its path a format (R92, R93). -/
def State.handFormat (s : State) (p : PathId) (f : Format) : State :=
  let r := s.path p
  if r.format = some f then s.setPath p { r with formatPending := false, held := none }
  else
    let s1 := s.setPath p { r with formatPending := true, held := some f }
    if r.fifo = [] ∨ r.format = none then s1.adoptFormat p else s1

/-! ## The tracker -/

/-- The source entry a path is bound to; a free path reads the power-on entry, which no rule then uses. -/
def State.pathSource (s : State) (p : PathId) : SourceEntry :=
  match (s.path p).binding with
  | some e => s.source e
  | none => SourceEntry.powerOn

/-- A retrigger (R101), with G and H of the source entry. That the slip count goes to 0 with the exit from TRACK is the
model's (log 52). -/
def Tracker.retrigger (t : Tracker) (g h : Nat) : Tracker :=
  match t.state with
  | .acquire => if t.ratchet then { t with timer := 256, gain := h } else { t with timer := 256, gain := g }
  | .track => { t with state := .acquire, timer := 256, ratchet := true, gain := h, slips := 0 }
  | .idle | .prefill | .hold | .sync => t

/-- A retrigger reaches a path's tracker (R101). -/
def State.retrigger (s : State) (p : PathId) : State :=
  let r := s.path p
  let e := s.pathSource p
  s.setPath p { r with tracker := r.tracker.retrigger e.gainG e.ratchetH }

/-- A group frame or a tuner frame arrives at a path (R91, R92, R104): discarded while a format change is pending,
dropped when the FIFO is full, else placed. The first drop of an episode is reported and retriggers. -/
def State.pushFrame (s : State) (p : PathId) (f : Frame) : State :=
  let r := s.path p
  if r.formatPending then s
  else if 2048 ≤ r.fifo.length then
    if r.tracker.overrun then s
    else
      let s1 := (s.setPath p { r with tracker := { r.tracker with overrun := true } }).retrigger p
      let r1 := s1.path p
      s1.raise .tracker p.code (trackerPayload p r1 .overrun r1.tracker.state)
  else s.setPath p { r with fifo := r.fifo ++ [f] }

/-- The loop of one block (R97): integral, correction and step from the error and the gains; these are the values of
the last computed block (R108). -/
def Tracker.loop (t : Tracker) (kp ki : Nat) : Tracker :=
  let integ := clampInt (-8388608) 8388607 (t.integ + t.err * (ki * 2 ^ t.gain : Nat))
  let lim : Int := (t.cmax.getD 0 : Nat)
  let corr := clampInt (-lim) lim (asr (t.err * (kp * 2 ^ t.gain : Nat) + integ) 4)
  { t with
    integ := integ, corr := corr, step := t.step0.map fun n : Nat => ((n : Int) + corr).toNat
    last := { t.last with c := corr, g := t.gain, i := integ } }

/-- Entry to ACQUIRE from PREFILL: a new acquisition (R100). -/
def Tracker.startAcquire (t : Tracker) (g h : Nat) : Tracker :=
  { t with state := .acquire, timer := 256, gain := g, ratchet := decide (g ≤ h) }

/-- Entry to SYNC (R106). -/
def Tracker.startSync (t : Tracker) : Tracker :=
  { t with
    state := .sync, step := some (2 ^ 24), corr := 0, gain := 0, integ := 0, phase := 0
    last := { t.last with c := 0, g := 0, i := 0 } }

/-- The acquire timer's checkpoints (R100). -/
def checkpoint (timer : Nat) : Bool :=
  timer == 224 || timer == 192 || timer == 160 || timer == 128 || timer == 96 || timer == 64 || timer == 32

/-- The error is within a bound. -/
def withinLock (e : Int) (w : Nat) : Bool := decide (e.natAbs ≤ w)

/-- The end of a block in ACQUIRE (R100): the timer falls; a checkpoint may halve the gains; at 0 the tracker enters
TRACK, where g is 0 and so at or below H: the ratchet is crossed at that moment at the latest. -/
def Tracker.acquireTick (t : Tracker) (h w : Nat) : Tracker :=
  let timer := t.timer - 1
  if timer = 0 then { t with timer := 0, state := .track, gain := 0, slips := 0, ratchet := true }
  else if checkpoint timer then
    let g := if withinLock t.err w then t.gain - 1 else t.gain
    { t with timer := timer, gain := g, ratchet := t.ratchet || decide (g ≤ h) }
  else { t with timer := timer }

/-- The slip test of a block in TRACK (R102). -/
def Tracker.slipTick (t : Tracker) (h w : Nat) : Tracker :=
  if withinLock t.err (4 * w) then { t with slips := 0 }
  else if 16 ≤ t.slips + 1 then { t with state := .acquire, timer := 256, ratchet := true, gain := h, slips := 0 }
  else { t with slips := t.slips + 1 }

/-! ## Consumption -/

/-- What the resampler's block leaves: phase, FIFO, filter history, the frames formed, and whether it found the FIFO
empty when it needed a frame (R98). -/
structure Consumed where
  phase   : Nat
  fifo    : List Frame
  history : List Frame
  out     : List Frame
  starved : Bool
  deriving DecidableEq, Repr

/-- Take input frames while the phase has reached 2^24; none when one is needed and the FIFO is empty (R98). The steps
of the part's rates take at most three frames, so four rounds always suffice. -/
def pullFrames : Nat → Nat → List Frame → List Frame → Option (Nat × List Frame × List Frame)
  | 0, ph, fifo, h => some (ph, fifo, h)
  | n + 1, ph, fifo, h =>
    if ph < 2 ^ 24 then some (ph, fifo, h)
    else
      match fifo with
      | [] => none
      | f :: fs => pullFrames n (ph - 2 ^ 24) fs ((f :: h).take Config.historyFrames)

/-- One output frame: for each channel a free value of the filter (R98, log 6), within the sample range. -/
def formFrame (n path chans : Nat) (h : List Frame) (ph j : Nat) : Frame :=
  (List.range chans).map fun c => saturate (Config.resample n path (h.map fun f => f.getD c 0) ph j)

/-- The resampler over the output frames that are left of a block (R98). `j` counts the frames formed. -/
def consume (n path chans step : Nat) : Nat → Nat → Nat → List Frame → List Frame → Consumed
  | 0, _, ph, fifo, h => { phase := ph, fifo := fifo, history := h, out := [], starved := false }
  | left + 1, j, ph, fifo, h =>
    match pullFrames 4 (ph + step) fifo h with
    | none => { phase := ph, fifo := [], history := h, out := [], starved := true }
    | some (ph1, fifo1, h1) =>
      let c := consume n path chans step left (j + 1) ph1 fifo1 h1
      { c with out := formFrame n path chans h1 ph1 j :: c.out }

/-- A block of silence: frames with every sample 0 (a missing sample reads as 0). -/
def silentBlock : List Frame := List.replicate 48 []

/-- Fill the frames formed in a block with silence to 48 (R98, R103, R105). -/
def fillBlock (out : List Frame) : List Frame := out ++ List.replicate (48 - out.length) []

/-- A path yields silence for a block. -/
def PathRec.yieldSilence (r : PathRec) : PathRec := { r with yielded := silentBlock, yieldFormat := r.format }

/-- An underrun (R103): PREFILL, and TRACKER with the values of the last computed block (R108). -/
def State.underrun (s : State) (p : PathId) : State :=
  let r := s.path p
  let s1 := s.setPath p r.enterPrefill
  s1.raise .tracker p.code (trackerPayload p r .underrun .prefill)

/-- The channel count of a path's format; 0 without one. -/
def PathRec.channels (r : PathRec) : Nat :=
  match r.format with
  | some f => f.roles.length
  | none => 0

/-- What the resampler's block gives a path, at the tracker's step (R98). -/
def State.consumption (s : State) (p : PathId) : Consumed :=
  let r := s.path p
  consume s.freeIdx p.code r.channels (r.tracker.step.getD 0) 48 0 r.tracker.phase r.fifo r.history

/-- The path record after a block's consumption: the rest of a block that ran short is silence, and an overrun episode
closes below 2048 frames (R98, R104). -/
def PathRec.consumed (r : PathRec) (c : Consumed) : PathRec :=
  { r with
    fifo := c.fifo
    history := c.history
    yielded := fillBlock c.out
    yieldFormat := r.format
    tracker := { r.tracker with
      phase := c.phase, overrun := r.tracker.overrun && decide (2048 ≤ c.fifo.length) } }

/-- The consumption of one block at the tracker's step, and what follows when the FIFO is found empty (R98). -/
def State.consumeBlock (s : State) (p : PathId) : State :=
  let r := s.path p
  let c := s.consumption p
  let r1 := r.consumed c
  let s1 := s.setPath p r1
  if c.starved = false then s1
  else if r.formatPending then s1.adoptFormat p
  else if r.tracker.state = .hold then s1.setPath p { r1 with drained := true }
  else s1.underrun p

/-- HOLD: no loop; the FIFO drains at the frozen step, and once it has run empty every block is silence (R105). -/
def State.holdBlock (s : State) (p : PathId) : State :=
  let r := s.path p
  if r.drained then s.setPath p r.yieldSilence else s.consumeBlock p

/-- A block in ACQUIRE (R97, R98, R100). -/
def State.acquireBlock (s : State) (p : PathId) : State :=
  let e := s.pathSource p
  let r := s.path p
  let s1 := (s.setPath p { r with tracker := r.tracker.loop e.kp e.ki }).consumeBlock p
  let r1 := s1.path p
  if r1.tracker.state = .acquire then
    let t := r1.tracker.acquireTick e.ratchetH e.lockW
    let s2 := s1.setPath p { r1 with tracker := t }
    if t.state = .track then s2.raise .tracker p.code (trackerPayload p r1 .locked .track) else s2
  else s1

/-- A block in TRACK (R97, R98, R102): the loop, the slip test, then the consumption. That the test comes before the
consumption is the model's choice (log 53). -/
def State.trackBlock (s : State) (p : PathId) : State :=
  let e := s.pathSource p
  let r := s.path p
  let t := (r.tracker.loop e.kp e.ki).slipTick e.ratchetH e.lockW
  let r1 := { r with tracker := t }
  let s1 := s.setPath p r1
  let s2 := if t.state = .acquire then s1.raise .tracker p.code (trackerPayload p r1 .slip .acquire) else s1
  s2.consumeBlock p

/-- The target fill: 96 for a tuner path, else the entry's T (R95, R99). -/
def State.fillTarget (s : State) (p : PathId) : Nat :=
  if s.pathKind p = .tuner then 96 else (s.pathSource p).fillT

/-- The error of a block (R95). -/
def State.blockError (s : State) (p : PathId) : Int :=
  clampInt (-1024) 1023 ((s.buffered p : Int) - (s.fillTarget p : Int))

/-- PREFILL can be left: a format, the fill reached and the source present (R99). -/
def State.prefillLeaves (s : State) (p : PathId) : Bool :=
  (s.path p).format.isSome && decide (s.fillTarget p ≤ s.buffered p) && s.present p

/-- The tracker's block, from its state (R99 to R106), after B and e have been taken. HOLD keeps g as it stands when the
block begins: after a retrigger since the block before, that is the retriggered g, which R105's "as they stood at the
previous block" leaves open beside R101 (log 55). -/
def State.trackerBlock (s : State) (p : PathId) : State :=
  let r := s.path p
  let e := s.pathSource p
  match r.tracker.state with
  | .idle => s.setPath p r.yieldSilence
  | .prefill =>
    if s.prefillLeaves p = false then s.setPath p r.yieldSilence
    else if s.pathKind p = .tuner then (s.setPath p { r with tracker := r.tracker.startSync }).consumeBlock p
    else (s.setPath p { r with tracker := r.tracker.startAcquire e.gainG e.ratchetH }).acquireBlock p
  | .hold =>
    if s.present p then s.setPath p r.enterPrefill.yieldSilence
    else s.holdBlock p
  | .acquire =>
    if s.present p then s.acquireBlock p
    else (s.setPath p { r with tracker := { r.tracker with state := .hold } }).holdBlock p
  | .track =>
    if s.present p then s.trackBlock p
    else (s.setPath p { r with tracker := { r.tracker with state := .hold } }).holdBlock p
  | .sync =>
    if s.present p then s.consumeBlock p
    else (s.setPath p { r with tracker := { r.tracker with state := .hold } }).holdBlock p

/-- The handover count of the window that feeds a path rises, and the idle condition is tested (R39). -/
def State.countHandover (s : State) (p : PathId) : State :=
  match s.feeding p with
  | none => s
  | some w =>
    match s.ring w with
    | none => s
    | some r =>
      let n := r.handoverCount + 1
      let idle := r.idle || (decide (100 ≤ n) && decide (s.buffered p = 0))
      s.setRing w (some { r with handoverCount := n, idle := idle })

/-- B and e of the block are taken (R95), and with them the values the block reports unless the loop moves them (R108).
Every block of a bound path counts as a computed block here, one in PREFILL or HOLD that runs no loop too: the five values
are then B and e as taken, and c, I and g as they stand. R108 does not say so; it is the model's choice (log 20). -/
def State.takeB (s : State) (p : PathId) : State :=
  let r := s.path p
  let t := r.tracker
  s.setPath p { r with
    adoptedNow := false
    tracker := { t with
      err := s.blockError p
      last := { b := s.buffered p, e := s.blockError p, c := t.corr, g := t.gain, i := t.integ } } }

/-- A format change is pending and every attached zone is silent (R93). -/
def State.silentAdoption (s : State) (p : PathId) : Bool := (s.path p).formatPending && s.attachedSilent p

/-- A path's part of an output block (R39, R93, R95 to R106, R110): a path that adopts while its zones are silent is in
PREFILL and yields silence for the block; a free path yields silence. -/
def State.pathBlock (s : State) (p : PathId) : State :=
  match (s.path p).binding with
  | none =>
    let r := s.path p
    s.setPath p { r with yielded := silentBlock, yieldFormat := none, adoptedNow := false }
  | some _ =>
    let s1 := (s.countHandover p).takeB p
    if s1.silentAdoption p then
      let s2 := s1.adoptFormat p
      s2.setPath p (s2.path p).yieldSilence
    else s1.trackerBlock p

/-! ## The events of a path's block (log 2), on the state in which its part begins -/

/-- FORMAT_ADOPTION occurs at the coming block: a pending format is adopted, by silence or by an empty FIFO (R93). -/
def State.adoptionOccurs (s : State) (p : PathId) : Bool :=
  (s.path p).formatPending && ((s.pathBlock p).path p).adoptedNow

/-- PREFILL_EXIT occurs: the tracker is in PREFILL, adopts nothing and can leave (R99). -/
def State.prefillExitOccurs (s : State) (p : PathId) : Bool :=
  let s1 := (s.countHandover p).takeB p
  decide ((s.path p).tracker.state = .prefill) && !s1.silentAdoption p && s1.prefillLeaves p

/-- GAIN_CHECK occurs: the block in ACQUIRE ends at a checkpoint with the error within W (R100). -/
def State.gainCheckOccurs (s : State) (p : PathId) : Bool :=
  let t := ((s.pathBlock p).path p).tracker
  decide ((s.path p).tracker.state = .acquire) && decide (t.state = .acquire) && checkpoint t.timer
    && withinLock t.err (s.pathSource p).lockW

/-- ACQUIRE_LOCK occurs: the block in ACQUIRE ends with the timer at 0 (R100). -/
def State.acquireLockOccurs (s : State) (p : PathId) : Bool :=
  decide ((s.path p).tracker.state = .acquire) && decide (((s.pathBlock p).path p).tracker.state = .track)

/-- SLIP occurs: the block in TRACK raises the slip count to 16 (R102). -/
def State.slipOccurs (s : State) (p : PathId) : Bool :=
  let s1 := (s.countHandover p).takeB p
  let t := (s1.path p).tracker
  decide (t.state = .track) && !s1.silentAdoption p && s1.present p && decide (16 ≤ t.slips + 1)
    && !withinLock t.err (4 * (s.pathSource p).lockW)

/-- HOLD_ENTRY occurs: the source of a running tracker is found not present (R105). -/
def State.holdEntryOccurs (s : State) (p : PathId) : Bool :=
  let s1 := (s.countHandover p).takeB p
  trackerReady (s.path p).tracker.state && (s.path p).binding.isSome && !s1.silentAdoption p && !s1.present p

/-- HOLD_EXIT occurs: the source is present again in HOLD (R105). -/
def State.holdExitOccurs (s : State) (p : PathId) : Bool :=
  let s1 := (s.countHandover p).takeB p
  decide ((s.path p).tracker.state = .hold) && !s1.silentAdoption p && s1.present p

end Sys2Proof.Machine
end

