-- ==== Sys2Proof/Machine/Intake.lean ====
section
/-! DEFINITION. The intake unit: capture into shadow pages (R30, R31, R34), handover and sealing (R32, R33), returns
(R35), unpacking (R36, R37), flushing (R40) and which path a window feeds (R29). -/

namespace Sys2Proof.Machine

open Sys2Proof

/-! ## Slot records -/

/-- A record of a freshly defined window (R28). R28 gives its state, flag, mark and counts; that its parse outcome is OK and
its sealed length 0 is the model's choice (log 59). -/
def SlotRec.fresh : SlotRec :=
  { state := .empty, late := false, skip := false, page := none, len := 0, outcome := .ok, good := 0, moved := 0 }

/-- A ring of a freshly defined window, feeding no path yet (R6, R28). -/
def Ring.fresh (count : Nat) : Ring :=
  { slots := List.replicate count SlotRec.fresh, unpackPos := 0, handoverCount := 0, feeds := none, idle := false }

/-- The slot is part-owned in the part's view (R28). -/
def SlotState.partOwned : SlotState → Bool
  | .sealed | .unpacking | .returning => true
  | .empty | .filling | .missed => false

/-- The record of a slot; a place outside the ring reads as fresh. -/
def Ring.slot (r : Ring) (i : Nat) : SlotRec := r.slots.getD i SlotRec.fresh

/-- Put a slot record in its place. -/
def Ring.setSlot (r : Ring) (i : Nat) (x : SlotRec) : Ring := { r with slots := listSet r.slots i x }

/-- The position after a slot. -/
def Ring.after (r : Ring) (i : Nat) : Nat := (i + 1) % r.slots.length

/-- The unpacker clears the mark of each skipped slot it arrives at and advances past it, at most once round the ring
(R36). -/
def Ring.advanceSkips : Nat → Ring → Ring
  | 0, r => r
  | n + 1, r =>
    let x := r.slot r.unpackPos
    if x.skip && (!x.state.partOwned || decide (x.state = .returning)) then
      Ring.advanceSkips n { r.setSlot r.unpackPos { x with skip := false } with unpackPos := r.after r.unpackPos }
    else r

/-- The unpacker of the path a window feeds arrives at the unpack position (R36); with no path there is none. -/
def Ring.arrive (r : Ring) : Ring :=
  match r.feeds with
  | none => r
  | some _ => Ring.advanceSkips r.slots.length r

/-! ## Returns -/

/-- The slot size of a window. -/
def Window.slotSize : Window → Nat
  | .stream _ size _ => size
  | .tap _ size _ => size
  | .free | .anchor _ | .mirror _ => 0

/-- The slot word the part writes in a stream or tap slot (11.4): owner HOST, status, flags, zero, payload length,
frame count. -/
def slotWord (status : StreamStatus) (late gap : Bool) (len frames : Nat) : List Byte :=
  [0, BitVec.ofNat 8 status.code, flagByte late + (if gap then 2 else 0), 0] ++ leBytes 2 len ++ leBytes 2 frames

/-- The oldest waiting slot return enters the injection queue when there is a place (R10, R35). -/
def State.placeReturn (s : State) : State :=
  match s.intakeWait with
  | [] => s
  | (w, i) :: rest =>
    if s.room = false then s
    else
      match s.ring w with
      | none => { s with intakeWait := rest }
      | some r =>
        let x := r.slot i
        ({ s with intakeWait := rest }).enqueue
          { write := fullWrite ((s.window w).base + (s.window w).slotSize * i)
              (slotWord x.outcome x.late false x.len x.moved)
            origin := .stream w i }

/-- A slot enters RETURNING (R35): its page is freed, it is marked when it is not at the unpack position, the position
advances when it is there, and its return is placed behind the returns that wait. -/
def State.enterReturning (s : State) (w : Fin 16) (i : Nat) (status : StreamStatus) (len : Nat) : State :=
  match s.ring w with
  | none => s
  | some r =>
    let x := r.slot i
    let atPos := decide (i = r.unpackPos)
    let r1 := r.setSlot i
      { x with state := .returning, page := none, outcome := status, len := len, skip := x.skip || !atPos }
    let r2 := if atPos then ({ r1 with unpackPos := r.after i }).arrive else r1
    let s1 := { s.setRing w (some r2) with intakeWait := s.intakeWait ++ [(w, i)] }
    if s.intakeWait = [] then s1.placeReturn else s1

/-- The return of a slot has been issued: EMPTY and host-owned, counts and late flag cleared, skip mark kept (R13,
R35). That its parse outcome and sealed length are then those of a fresh record is the model's choice (log 59). -/
def State.slotReturned (s : State) (w : Fin 16) (i : Nat) : State :=
  match s.ring w with
  | none => s
  | some r => s.setRing w (some (r.setSlot i { SlotRec.fresh with skip := (r.slot i).skip }))

/-! ## Capture and handover -/

/-- Captured bytes other than the owner byte reach a slot (R30, R31). -/
def State.captureInto (s : State) (w : Fin 16) (r : Ring) (i : Nat) (bytes : List (Nat × Byte)) : State :=
  let x := r.slot i
  match x.state with
  | .empty =>
    if r.feeds.isNone then s
    else if s.pagesBound < 32 then
      s.setRing w (some (r.setSlot i { x with state := .filling, page := some (memStore bytes []) }))
    else s.setRing w (some (r.setSlot i { x with state := .missed }))
  | .filling => s.setRing w (some (r.setSlot i { x with page := x.page.map (memStore bytes) }))
  | .missed | .sealed | .unpacking | .returning => s

/-- Seal a FILLING slot of a window that feeds a path (R33). -/
def State.sealSlot (s : State) (w : Fin 16) (r : Ring) (i : Nat) : State :=
  let x := r.slot i
  let page := x.page.getD []
  let len := leNat (memBytes page 4 2)
  if len = 0 then s.enterReturning w i .ok 0
  else if (s.window w).slotSize - 16 < len then s.enterReturning w i .badLength len
  else
    let p := parseSlot page len
    let outcome := if p.2 then StreamStatus.ok else StreamStatus.badFrame
    let s1 := s.setRing w (some (r.setSlot i
      { x with state := .sealed, len := len, outcome := outcome, good := goodFrames p.1, moved := 0 }))
    if goodFrames p.1 = 0 then s1.enterReturning w i .badFrame len else s1

/-- A handover of a slot the part sees as host-owned (R32). -/
def State.streamHandover (s : State) (w : Fin 16) (i : Nat) : State :=
  match s.ring w with
  | none => s
  | some r0 =>
    let r := { r0 with handoverCount := 0, idle := false }
    let s1 := s.setRing w (some r)
    let x := r.slot i
    match x.state with
    | .empty => if r.feeds.isSome then s1.enterReturning w i .emptySlot 0 else s1.enterReturning w i .flushed 0
    | .missed => s1.enterReturning w i .missed 0
    | .filling =>
      if r.feeds.isSome then s1.sealSlot w r i
      else s1.enterReturning w i .flushed (leNat (memBytes (x.page.getD []) 4 2))
    | .sealed | .unpacking | .returning => s1

/-- An observed write into a STREAM window (R8, R9, R30, R32, R34): bytes other than the owner byte first, then the
owner byte; a write into a part-owned slot is late and nothing else. -/
def State.observeStream (s : State) (w : Fin 16) (lw : LinkWrite) : State :=
  match s.ring w with
  | none => s
  | some r =>
    let base := (s.window w).base
    let size := (s.window w).slotSize
    let i := (lw.addr - base) / size
    let x := r.slot i
    if x.state.partOwned then s.setRing w (some (r.setSlot i { x with late := true }))
    else
      let got := (capturedOf lw).map fun ab => (ab.1 - base - size * i, ab.2)
      let bytes := got.filter fun ab => decide (ab.1 ≠ 0)
      let s1 := if bytes.isEmpty then s else s.captureInto w r i bytes
      match got.find? fun ab => decide (ab.1 = 0) with
      | none => s1
      | some (_, b) => if b = 1 then s1.streamHandover w i else s1

/-! ## Unpacking -/

/-- Move the next audio frame of the slot at the unpack position into the path FIFO (R36). -/
def State.moveFrame (s : State) (p : PathId) (w : Fin 16) (i : Nat) (f : Frame) : State :=
  match s.ring w with
  | none => s
  | some r =>
    let x := r.slot i
    let pr := s.path p
    let s1 := s.setPath p { pr with fifo := pr.fifo ++ [f] }
    let s2 := s1.setRing w (some (r.setSlot i { x with state := .unpacking, skip := false, moved := x.moved + 1 }))
    if x.moved + 1 = x.good then s2.enterReturning w i x.outcome x.len else s2

/-- The unpacker can move a frame: a SEALED or UNPACKING slot at its position, room in the FIFO and no format change
pending (R36). -/
def State.unpackReady (s : State) (p : PathId) (r : Ring) : Bool :=
  let x := r.slot r.unpackPos
  (decide (x.state = .sealed) || decide (x.state = .unpacking)) && decide ((s.path p).fifo.length < 2048)
    && !(s.path p).formatPending

/-- One step of the unpacker of a path (R36, R37): at the start of a carriage frame whose format differs it hands the
format over, and goes on only when the path adopted it at once; otherwise it moves one frame. -/
def State.unpackStep (s : State) (p : PathId) : State :=
  match s.feeding p with
  | none => s
  | some w =>
    match s.ring w with
    | none => s
    | some r0 =>
      let r := r0.arrive
      let s0 := s.setRing w (some r)
      if s.unpackReady p r = false then s0
      else
        let x := r.slot r.unpackPos
        let page := x.page.getD []
        match locateFrame (parseSlot page x.len).1 x.moved with
        | none => s0
        | some (c, k) =>
          let s1 := if k = 0 then s0.handFormat p c.format else s0
          if (s1.path p).formatPending then s1
          else s1.moveFrame p w r.unpackPos (c.frame page k)

/-! ## Feeding and flushing -/

/-- A path is bound to a STREAM entry that names a window (R29). -/
def State.namesWindow (s : State) (p : PathId) (w : Fin 16) : Bool :=
  match (s.path p).binding with
  | none => false
  | some e => decide ((s.source e).kind = .stream) && decide ((s.source e).window = some w)

/-- The path a window feeds when it has none: the one bound first of those whose entry names it (R29). -/
def State.feedChoice (s : State) (w : Fin 16) : Option PathId :=
  if s.namesWindow s.bindFirst w then some s.bindFirst
  else if s.namesWindow s.bindFirst.other w then some s.bindFirst.other
  else none

/-- A window starts to feed a path: the handover count is 0 and the source present (R29, R39). -/
def State.startFeeding (s : State) (w : Fin 16) (p : PathId) : State :=
  match s.ring w with
  | none => s
  | some r =>
    s.setRing w (some ({ r with feeds := some p, handoverCount := 0, idle := false }).arrive)

/-- A window that feeds no path starts to feed the one R29 gives it, if any. -/
def State.feedIfNamed (s : State) (w : Fin 16) : State :=
  match s.ring w with
  | none => s
  | some r =>
    if r.feeds.isSome then s
    else
      match s.feedChoice w with
      | none => s
      | some p => s.startFeeding w p

/-- The slots to flush, in ring order from a position: those SEALED or UNPACKING (R40). -/
def flushList (r : Ring) : Nat → Nat → List Nat
  | 0, _ => []
  | n + 1, i =>
    let rest := flushList r n (r.after i)
    if (r.slot i).state = .sealed ∨ (r.slot i).state = .unpacking then i :: rest else rest

/-- Put slots into RETURNING with status FLUSHED and the frame count they have reached, pages freed (R40). -/
def flushSlots : List Nat → Ring → Ring
  | [], r => r
  | i :: is, r =>
    flushSlots is (r.setSlot i { r.slot i with state := .returning, page := none, outcome := .flushed })

/-- The position after the last slot flushed, or the position as it stands (R40). -/
def flushPos (r : Ring) : Nat :=
  match (flushList r r.slots.length r.unpackPos).getLast? with
  | none => r.unpackPos
  | some i => r.after i

/-- Place waiting returns while there is room, at most `n` of them. -/
def State.placeReturns : Nat → State → State
  | 0, s => s
  | n + 1, s => State.placeReturns n s.placeReturn

/-- The binding of a path to a window's source ends: the window is flushed and then feeds the other path or none
(R29, R40). -/
def State.flushWindow (s : State) (w : Fin 16) : State :=
  match s.ring w with
  | none => s
  | some r =>
    let is := flushList r r.slots.length r.unpackPos
    let r1 := flushSlots is r
    let r2 := { r1 with
      unpackPos := flushPos r
      slots := r1.slots.map fun x => { x with skip := false }
      feeds := none }
    let s1 := { s.setRing w (some r2) with intakeWait := s.intakeWait ++ is.map fun i => (w, i) }
    let s2 := if s.intakeWait = [] then s1.placeReturns is.length else s1
    s2.feedIfNamed w

/-- The queued return of a discarded window is issued without touching the new window's views (R6). -/
def orphanStream (w : Fin 16) (i : Injected) : Injected :=
  match i.origin with
  | .stream v _ => if v = w then { i with origin := .orphan } else i
  | .command _ | .report _ | .tapClose _ | .tapData _ | .sect | .orphan => i

/-- An old STREAM window is discarded (R6): records and pages gone, waiting returns discarded, queued ones issued. -/
def State.discardRing (s : State) (w : Fin 16) : State :=
  { s.setRing w none with
    intakeWait := s.intakeWait.filter fun x => decide (x.1 ≠ w)
    link := { s.link with injq := s.link.injq.map (orphanStream w) } }

end Sys2Proof.Machine
end

