-- ==== Sys2Proof/Machine/Tap.lean ====
section
/-! DEFINITION. The tap unit: offers (R43), the placing of a block's frames (R44), closing writes (R45), unbinding (R47).
-/

namespace Sys2Proof.Machine

open Sys2Proof

/-- A tap slot's capacity in frames (R42). -/
def tapCapacity (size : Nat) : Nat := (size - 32) / 8

/-- A slot of a freshly defined TAP window (R6). -/
def TapSlot.fresh : TapSlot := { view := .hostOwned, late := false, count := 0 }

/-- The tap's record of a slot. -/
def Tap.slot (t : Tap) (i : Nat) : TapSlot := t.slots.getD i TapSlot.fresh

/-- Put a tap slot record in its place. -/
def Tap.setSlot (t : Tap) (i : Nat) (x : TapSlot) : Tap := { t with slots := listSet t.slots i x }

/-- The slot after a slot of the TAP window. -/
def Tap.after (t : Tap) (i : Nat) : Nat := (i + 1) % t.slots.length

/-- The bytes of delivered frames: FL then FR, each sign-extended to 32 bits (R44). -/
def tapBytes : List (Sample × Sample) → List Byte
  | [] => []
  | (l, r) :: fs => leBytesInt 4 l ++ leBytesInt 4 r ++ tapBytes fs

/-- The carriage frame header of a tap slot: 48 000 Hz, FL and FR, `n` frames (R45, 11.4). -/
def tapHeader (n : Nat) : List Byte :=
  let h : List Byte := [0xC7, 0x5A, 2, 2] ++ leBytes 2 n ++ [1, 2, 0, 0, 0, 0, 0, 0, 0]
  h ++ [BitVec.ofNat 8 (headerSum h)]

/-- The closing write of a slot: offsets 0 to 31, the host bytes 8 to 15 left out of its mask (R45, R199). -/
def tapCloseWrite (addr : Nat) (status : StreamStatus) (late gap : Bool) (n : Nat) : LinkWrite :=
  { addr := addr
    data := slotWord status late gap (if n = 0 then 0 else 16 + 8 * n) n ++ List.replicate 8 0 ++ tapHeader n
    mask := List.replicate 8 true ++ List.replicate 8 false ++ List.replicate 16 true }

/-- Place a tap write in the injection queue; a closing write carries GAP and LATE as they stand now (R45). -/
def State.placeTapItem (s : State) (it : TapItem) : State :=
  match s.tapWindow with
  | none => s
  | some (_, base, size, _) =>
    match it with
    | .data slot first frames =>
      s.enqueue { write := fullWrite (base + size * slot + 32 + 8 * first) (tapBytes frames), origin := .tapData slot }
    | .close slot n status gapAfter =>
      let s1 := s.enqueue
        { write := tapCloseWrite (base + size * slot) status (s.tap.slot slot).late s.tap.gapPending n
          origin := .tapClose slot }
      { s1 with tap := { s1.tap with gapPending := gapAfter } }

/-- How many frames the next data write of a slot takes: within one aligned 64-byte block and the capacity (R44). R44
leaves open how large each write is within these bounds: the model takes as many frames as the block, the capacity and
the hold buffer allow (log 67). -/
def tapChunk (count cap avail : Nat) : Nat := min (8 - (4 + count) % 8) (min (cap - count) avail)

/-- The tap writes frames into a slot while it is OFFERED or FILLING (R44). -/
def TapSlot.takes (x : TapSlot) : Bool := decide (x.view = .offered) || decide (x.view = .filling)

/-- The slot at the fill position has taken `k` frames of the hold buffer: it closes at its capacity, and, when the
hold buffer is exhausted with the close pending flag set, with the frames it holds. Frames that are left when the next
slot takes none are dropped. A drop sets the gap pending flag once the slot's closing write has been placed (R44,
log 32). R44 does not say what becomes of the close pending flag at such a drop: the model clears it (log 64). A slot
becomes FILLING here, when its first data write is placed, and is OFFERED while its frames still wait (log 64). -/
def Tap.tookFrames (t : Tap) (cap k : Nat) : Tap :=
  let x := t.slot t.fillPos
  let n := x.count + k
  let hold := t.hold.drop k
  let ends := t.closePending && hold.isEmpty
  if n = cap ∨ ends then
    let u := t.setSlot t.fillPos { x with view := .closing, count := n }
    let dropped := !hold.isEmpty && !(u.slot (t.after t.fillPos)).takes
    { u with
      hold := if dropped then [] else hold
      fillPos := t.after t.fillPos
      closePending := t.closePending && !ends && !dropped
      outbox := t.outbox ++ [TapItem.close t.fillPos n .ok (ends || dropped)] }
  else
    { t.setSlot t.fillPos { x with view := .filling, count := n } with hold := hold }

/-- The gap pending flag is set when the last waiting closing write has been placed; at once when none waits (R44,
log 32). -/
def Tap.markGap (t : Tap) : Tap :=
  match t.outbox.getLast? with
  | some (.close slot n status _) => { t with outbox := t.outbox.dropLast ++ [.close slot n status true] }
  | some (.data _ _ _) | none => { t with gapPending := true }

/-- One move of the tap: its oldest waiting write, or the next frames of the hold buffer, or their dropping at a slot
that is not offered (R44), which clears the close pending flag (log 64). The flag says whether anything could be
done. -/
def State.tapMove (s : State) : State × Bool :=
  match s.tap.outbox with
  | it :: rest =>
    if s.room = false then (s, false)
    else (({ s with tap := { s.tap with outbox := rest } }).placeTapItem it, true)
  | [] =>
    match s.tap.hold, s.tap.binding, s.tapWindow with
    | _ :: _, some _, some (_, _, size, _) =>
      let t := s.tap
      let x := t.slot t.fillPos
      if x.takes then
        if s.room = false then (s, false)
        else
          let k := tapChunk x.count (tapCapacity size) t.hold.length
          let s1 := s.placeTapItem (.data t.fillPos x.count (t.hold.take k))
          ({ s1 with tap := t.tookFrames (tapCapacity size) k }, true)
      else
        ({ s with tap := { t with hold := [], closePending := false, gapPending := true } }, true)
    | _, _, _ => (s, false)

/-- Moves of the tap while there is room, at most `n`. -/
def State.tapPump : Nat → State → State
  | 0, s => s
  | n + 1, s => if s.tapMove.2 then State.tapPump n s.tapMove.1 else s

/-- The tap takes a block's 48 frames while it is bound (R44): dropped whole when the hold buffer still holds frames,
and when the slot at the fill position takes none. -/
def State.tapBlock (s : State) (frames : List (Sample × Sample)) : State :=
  match s.tap.binding with
  | none => s
  | some _ =>
    if s.tap.hold.isEmpty = false then { s with tap := { s.tap with closePending := true } }
    else if (s.tap.slot s.tap.fillPos).takes then State.tapPump 64 { s with tap := { s.tap with hold := frames } }
    else
      let s1 := State.tapPump 64 s
      { s1 with tap := s1.tap.markGap }

/-- The writes of an UNBIND_TAP are all queued once nothing waits: its return may be placed (R15, R47, log 47). -/
def State.endUnbinding (s : State) : State :=
  if s.tap.outbox.isEmpty then { s with tap := { s.tap with unbinding := false } } else s

/-- An observed write into the TAP window (R43): an offer of a HOST_OWNED slot, or a late write. An offer while the tap
is not bound is returned at once; where its write finds room it may be the last that a return of UNBIND_TAP waits for
(R15, log 47). -/
def State.observeTap (s : State) (w : Fin 16) (lw : LinkWrite) : State :=
  match s.tapWindow with
  | none => s
  | some (_, base, size, _) =>
    let i := (lw.addr - base) / size
    let x := s.tap.slot i
    if x.view ≠ .hostOwned then { s with tap := s.tap.setSlot i { x with late := true } }
    else
      match (capturedOf lw).find? fun ab => decide (ab.1 = base + size * i) with
      | none => s
      | some (_, b) =>
        if b ≠ 1 then s
        else
          match s.tap.binding with
          | some (v, _) =>
            if v = w then { s with tap := s.tap.setSlot i { x with view := .offered, count := 0 } } else s
          | none =>
            State.endUnbinding <| State.tapPump 64 { s with tap :=
              { s.tap.setSlot i { x with view := .closing, count := 0 } with
                outbox := s.tap.outbox ++ [TapItem.close i 0 .flushed false] } }

/-- The closing write of a slot has been issued: HOST_OWNED, late flag cleared (R43, R45). -/
def State.tapReturned (s : State) (i : Nat) : State := { s with tap := s.tap.setSlot i TapSlot.fresh }

/-- The data writes that carry frames into a slot from a count on, each within one 64-byte block (R44, R47). -/
def tapDataItems (slot : Nat) : Nat → Nat → Nat → List (Sample × Sample) → List TapItem
  | 0, _, _, _ => []
  | n + 1, count, cap, frames =>
    if frames.isEmpty ∨ cap ≤ count then []
    else
      let k := tapChunk count cap frames.length
      .data slot count (frames.take k) :: tapDataItems slot n (count + k) cap (frames.drop k)

/-- The slots from a position on, once round the ring. -/
def ringOrder (count start : Nat) : List Nat := (List.range count).map fun k => (start + k) % count

/-- UNBIND_TAP closes one slot in its turn (R47): OK with the frames it holds, or FLUSHED when it is offered and
holds none. -/
def Tap.closeForUnbind (i : Nat) (t : Tap) : Tap :=
  let x := t.slot i
  if x.view = .filling then
    { t.setSlot i { x with view := .closing } with outbox := t.outbox ++ [TapItem.close i x.count .ok false] }
  else if x.view = .offered then
    { t.setSlot i { x with view := .closing, count := 0 } with outbox := t.outbox ++ [TapItem.close i 0 .flushed false] }
  else t

/-- The hold buffer's frames go into their slot if it is still FILLING (R47). At a slot whose first data write still
waits, and which the model keeps OFFERED, they are dropped and it is returned FLUSHED (log 64). -/
def Tap.flushHold (t : Tap) (cap : Nat) : Tap :=
  let x := t.slot t.fillPos
  if x.view = .filling then
    { t.setSlot t.fillPos { x with count := min cap (x.count + t.hold.length) } with
      hold := []
      outbox := t.outbox ++ tapDataItems t.fillPos 48 x.count cap t.hold }
  else { t with hold := [] }

/-- Unbind the tap (R47): it stops taking frames, its slots are closed in ring order from the fill position, and the
binding is removed; the writes that do not fit wait, and the command's return with them. The close pending flag is
cleared and sets no gap pending flag (log 46). -/
def State.unbind (s : State) : State :=
  match s.tapWindow with
  | none => { s with tap := { s.tap with binding := none } }
  | some (_, _, size, count) =>
    let t0 := s.tap.flushHold (tapCapacity size)
    let t1 := (ringOrder count t0.fillPos).foldl (fun t i => t.closeForUnbind i) t0
    let s1 := State.tapPump 64 { s with tap := { t1 with binding := none, closePending := false } }
    { s1 with tap := { s1.tap with unbinding := !s1.tap.outbox.isEmpty } }

/-- The queued return of a discarded TAP window is issued without touching the new window's views (R6). -/
def orphanTap (i : Injected) : Injected :=
  match i.origin with
  | .tapClose _ | .tapData _ => { i with origin := .orphan }
  | .command _ | .report _ | .stream _ _ | .sect | .orphan => i

/-- An old TAP window is discarded (R6): unbound, waiting returns and data discarded, queued writes issued. R6 names the
fill position and the slot views; that the pending flags are cleared with them is the model's choice (log 45). -/
def State.discardTap (s : State) : State :=
  { s with tap := Tap.powerOn, link := { s.link with injq := s.link.injq.map orphanTap } }

end Sys2Proof.Machine
end

