-- ==== Sys2Proof/Machine/Lanes.lean ====
section
/-! DEFINITION. The lane receiver (chapter 3): realign requests, alignment, groups and deskew, running in DATA, the
source table's changes, and a lane's part of an output block. -/

namespace Sys2Proof.Machine

open Sys2Proof

/-! ## One lane -/

/-- The deskew buffer, the skew count and the started flag are cleared (R50, R58, R62). -/
def LaneRec.clearDeskew (r : LaneRec) : LaneRec := { r with skew := 0, started := false, buffer := [] }

/-- Entry to HUNT: everything R50 names is cleared, the error count, settings and realign request are kept. -/
def LaneRec.toHunt (r : LaneRec) : LaneRec :=
  { r with
    state := .hunt, syncRun := 0, copies := 0, firstCopy := none, config := none, skew := 0, started := false
    buffer := [] }

/-- Entry to SYNCED: the copies are discarded and the received configuration is cleared (R52, R53, R55, R57). That the
sync run is 0 then is the model's choice (log 61). -/
def LaneRec.toSynced (r : LaneRec) : LaneRec :=
  { r with state := .synced, syncRun := 0, copies := 0, firstCopy := none, config := none }.clearDeskew

/-- Disabling: DISABLED, the realign request deasserted, the received configuration cleared (R63). -/
def LaneRec.toDisabled (r : LaneRec) : LaneRec :=
  { r.toHunt with state := .disabled, enable := false, realign := none }

/-- The realign request is asserted with a remaining count of 32 (R51). -/
def LaneRec.askRealign (r : LaneRec) : LaneRec := { r with realign := some 32 }

/-- Every frame takes 1 from the remaining count, and the line is deasserted when it reaches 0 (R51). -/
def LaneRec.countRealign (r : LaneRec) : LaneRec :=
  { r with realign := match r.realign with
      | none => none
      | some n => if n ≤ 1 then none else some (n - 1) }

/-- The error count rises by 1 and stays at 255 (R50). -/
def LaneRec.addError (r : LaneRec) : LaneRec := { r with errors := min 255 (r.errors + 1) }

/-- A broken preamble: the error count rises, the realign request is asserted, the lane goes to HUNT (R53). -/
def LaneRec.breakPreamble (r : LaneRec) : LaneRec := r.addError.askRealign.toHunt

/-- What an errored or FILL frame enters the deskew buffer as (R61). -/
def LaneRec.replacementFrame (r : LaneRec) : Sample × Sample := if r.replacement then r.lastGood else (0, 0)

/-- A LANE_STATE report of a lane (R65, 11.3). -/
def State.laneReport (s : State) (l : Fin 4) (cause : LaneCause) : State :=
  let r := s.lane l
  s.raise .laneState l.val
    [BitVec.ofNat 8 l.val, BitVec.ofNat 8 r.state.code, BitVec.ofNat 8 cause.code, BitVec.ofNat 8 r.errors,
      optByte ((s.entryOfLane l).map (·.val)), optByte (r.config.map (·.group))]

/-- LANE_STATE for each lane of a list, in list order, with one cause (R60, R62). -/
def State.laneReports (s : State) (ls : List (Fin 4)) (cause : LaneCause) : State :=
  forEach (fun l t => t.laneReport l cause) ls s

/-- Change each lane of a list. -/
def State.mapLanes (s : State) (ls : List (Fin 4)) (f : LaneRec → LaneRec) : State :=
  forEach (fun l t => t.setLane l (f (t.lane l))) ls s

/-! ## Groups -/

/-- The first position of an element in a list. -/
def posOf (l : Fin 4) : List (Fin 4) → Nat
  | [] => 0
  | x :: xs => if x = l then 0 else posOf l xs + 1

/-- The state a lane with a completed preamble takes from the source table (R54). -/
def State.placedState (s : State) (l : Fin 4) (cfg : LaneConfig) : LaneState :=
  match s.entryOfLane l with
  | none => .aligned
  | some e =>
    let list := (s.source e).lanes
    if cfg.count = list.length ∧ cfg.index = posOf l list then .aligned else .mismatch

/-- The roles of a group's format: the two roles of each lane, a source role that stands at an earlier channel carried
as NONE (R58). -/
def groupRoles : List Role → List Role → List Role
  | _, [] => []
  | seen, r :: rs => (if r ≠ .none ∧ r ∈ seen then Role.none else r) :: groupRoles (r :: seen) rs

/-- The received configuration of a lane; absent reads as a record of zeros, which no rule then uses. -/
def State.laneConfig (s : State) (l : Fin 4) : LaneConfig :=
  (s.lane l).config.getD
    { group := 0, index := 0, count := 0, rate := .r48000, width := 24, role1 := .none, role2 := .none }

/-- The format of a group (R58). -/
def State.groupFormat (s : State) (ls : List (Fin 4)) : Format :=
  { rate := match ls with
      | l :: _ => (s.laneConfig l).rate
      | [] => .r48000
    roles := groupRoles [] (ls.flatMap fun l => [(s.laneConfig l).role1, (s.laneConfig l).role2]) }

/-- A lane of a group differs from the first lane in group id or rate code (R58). -/
def State.differsFromFirst (s : State) (ls : List (Fin 4)) (l : Fin 4) : Bool :=
  match ls with
  | [] => false
  | f :: _ => decide ((s.laneConfig l).group ≠ (s.laneConfig f).group) || decide ((s.laneConfig l).rate ≠ (s.laneConfig f).rate)

/-- A FORMING group all of whose lanes are ALIGNED compares them with its first lane (R58). R58 gives the MISMATCH reports
of several lanes no order; the model raises them in the order of the lane list (log 25). -/
def State.groupCompare (s : State) (e : Fin 12) : State :=
  match s.group e with
  | none => s
  | some g =>
    let ls := (s.source e).lanes
    if g.stage ≠ .forming ∨ (ls.all fun l => decide ((s.lane l).state = .aligned)) = false then s
    else
      let bad := ls.filter (s.differsFromFirst ls)
      if bad = [] then
        s.setGroup e (some { stage := .measuring, format := some (s.groupFormat ls), opened := false })
      else forEach (fun l t => (t.setLane l { t.lane l with state := .mismatch }).laneReport l .mismatch) bad s

/-- The group of a lane, if it is in a LANE_GROUP entry: entry and record. -/
def State.groupOfLane (s : State) (l : Fin 4) : Option (Fin 12 × GroupRec) :=
  match s.entryOfLane l with
  | none => none
  | some e => (s.group e).map fun g => (e, g)

/-- A group record in FORMING (03 3.4). -/
def GroupRec.forming : GroupRec := { stage := .forming, format := none, opened := false }

/-- A group returns to FORMING: its lanes' deskew state and its opened flag are cleared (R58, R62). R58 says so of the
flag on the return from MEASURING and at the next entry to it; that the flag of a group that leaves DATA is cleared at
once too is the model's reading (log 30). -/
def State.groupReform (s : State) (e : Fin 12) : State :=
  (s.mapLanes (s.source e).lanes LaneRec.clearDeskew).setGroup e (some GroupRec.forming)

/-- A lane leaves ALIGNED while its group is measuring: the group returns to FORMING (R58). -/
def State.leaveMeasuring (s : State) (l : Fin 4) : State :=
  match s.groupOfLane l with
  | some (e, g) => if g.stage = .measuring then s.groupReform e else s
  | none => s

/-- The lane's preamble has completed: it is placed (R54) and, when it is the last of a FORMING group, the group
compares (R58). That no copies are held any more then is the model's choice (log 61). -/
def State.placeLane (s : State) (l : Fin 4) (cfg : LaneConfig) : State :=
  let st := s.placedState l cfg
  let s1 := s.setLane l { s.lane l with state := st, config := some cfg, copies := 0, firstCopy := none }
  if st = .mismatch then s1.laneReport l .mismatch
  else
    match s1.entryOfLane l with
    | none => s1
    | some e => s1.groupCompare e

/-! ## Leaving DATA -/

/-- The lanes of a group leave DATA (R62): the lane concerned goes where its event sends it, the others go to HUNT with
the realign request asserted, the group returns to FORMING, and each lane is reported with the cause. -/
def State.leaveData (s : State) (e : Fin 12) (l : Fin 4) (concerned : LaneRec → LaneRec) (cause : LaneCause) : State :=
  let ls := (s.source e).lanes
  let s1 := s.mapLanes (ls.filter fun x => decide (x ≠ l)) fun r => r.askRealign.toHunt
  let s2 := s1.setLane l (concerned (s1.lane l))
  (s2.groupReform e).laneReports ls cause

/-- The lane concerned of most events goes to HUNT with the realign request asserted (R62). -/
def LaneRec.fallToHunt (r : LaneRec) : LaneRec := r.askRealign.toHunt

/-- A lane in DATA takes its group out of DATA (R62). -/
def State.dropGroup (s : State) (l : Fin 4) (concerned : LaneRec → LaneRec) (cause : LaneCause) : State :=
  match s.groupOfLane l with
  | none => s
  | some (e, _) => s.leaveData e l concerned cause

/-! ## Running -/

/-- The oldest frame of a lane's buffer. -/
def LaneRec.oldest (r : LaneRec) : Sample × Sample := r.buffer.headD (0, 0)

/-- Form group frames while every lane's buffer holds a frame (R60); at most `n` of them. -/
def State.formFrames (e : Fin 12) : Nat → State → State
  | 0, s => s
  | n + 1, s =>
    let ls := (s.source e).lanes
    if (ls.all fun l => !(s.lane l).buffer.isEmpty) = false ∨ ls = [] then s
    else
      let frame : Frame := ls.flatMap fun l => [(s.lane l).oldest.1, (s.lane l).oldest.2]
      let s1 := s.mapLanes ls fun r => { r with buffer := r.buffer.drop 1 }
      let s2 := match s1.boundPath e with
        | none => s1
        | some p => s1.pushFrame p frame
      State.formFrames e n s2

/-- The group enters DATA (R60): counts cleared, RUNNING, JOINED for each lane, the format handed to the bound path,
which rejoins at once when it was tracking (R101), then the group frames the buffers give. R60 fixes no order between the
JOINED reports and the FORMAT report of a format that is adopted at once; the JOINED reports come first here (log 25). -/
def State.enterData (s : State) (e : Fin 12) (g : GroupRec) : State :=
  let ls := (s.source e).lanes
  let s1 := s.mapLanes ls fun r => { r with state := .data, errors := 0, goodRun := 0, lastGood := (0, 0) }
  let s2 := (s1.setGroup e (some { g with stage := .running })).laneReports ls .joined
  let s3 := match s2.boundPath e, g.format with
    | some p, some f => (s2.handFormat p f).retrigger p
    | _, _ => s2
  State.formFrames e 17 s3

/-- The measurement fails (R59): every lane asserts its request and goes to HUNT, FORMING, DESKEW for each lane. -/
def State.failMeasure (s : State) (e : Fin 12) : State :=
  let ls := (s.source e).lanes
  ((s.mapLanes ls LaneRec.fallToHunt).groupReform e).laneReports ls .deskew

/-- The measurement succeeds when every lane has started (R59). -/
def State.measureDone (s : State) (e : Fin 12) (g : GroupRec) : State :=
  if (s.source e).lanes.all fun l => (s.lane l).started then s.enterData e g else s

/-- A lane starts with its first DATA frame: the frame enters its buffer (R59). -/
def LaneRec.start (r : LaneRec) (f : Sample × Sample) : LaneRec := { r with started := true, buffer := r.buffer ++ [f] }

/-! ## A frame, by the lane's state -/

/-- A SYNC frame in ALIGNED: SYNCED, and a measuring group returns to FORMING (R57, R59). -/
def State.syncAligned (s : State) (l : Fin 4) : State :=
  (s.leaveMeasuring l).setLane l ((s.leaveMeasuring l).lane l).toSynced

/-- A frame in MEASURING (R59); a SYNC frame comes before the buffer and skew limits (log 30). -/
def State.measureFrame (s : State) (l : Fin 4) (e : Fin 12) (g : GroupRec) (k : FrameKind) (f : LaneFrame) : State :=
  let r := s.lane l
  let two := frameSamples f r.config
  if k = .sync then s.syncAligned l
  else if g.opened = false then
    if k = .data then
      let g1 := { g with opened := true }
      ((s.setGroup e (some g1)).setLane l { (r.start two) with skew := 0 }).measureDone e g1
    else s
  else if r.started = false then
    if k = .data then (s.setLane l (r.start two)).measureDone e g
    else if 9 ≤ r.skew + 1 then s.failMeasure e
    else s.setLane l { r with skew := r.skew + 1 }
  else if 16 ≤ r.buffer.length then s.failMeasure e
  else s.setLane l { r with buffer := r.buffer ++ [if k = .data then two else (0, 0)] }

/-- A frame in ALIGNED (R54, R57, R59). -/
def State.alignedFrame (s : State) (l : Fin 4) (k : FrameKind) (f : LaneFrame) : State :=
  match s.groupOfLane l with
  | none => if k = .sync then s.syncAligned l else s
  | some (e, g) =>
    if g.stage = .measuring then s.measureFrame l e g k f
    else if k = .sync then s.syncAligned l
    else if k = .data then (s.setLane l (s.lane l).fallToHunt).laneReport l .early
    else s

/-- A frame enters the deskew buffer of a lane in DATA; at 16 frames it is a drift (R60). -/
def State.enterBuffer (s : State) (l : Fin 4) (f : Sample × Sample) : State :=
  let r := s.lane l
  if 16 ≤ r.buffer.length then s.dropGroup l LaneRec.fallToHunt .deskew
  else
    let s1 := s.setLane l { r with buffer := r.buffer ++ [f] }
    match s1.entryOfLane l with
    | none => s1
    | some e => State.formFrames e 17 s1

/-- A good DATA frame: the run rises; at 4096 it starts again and takes 1 from the error count (R61). -/
def LaneRec.goodFrame (r : LaneRec) (two : Sample × Sample) : LaneRec :=
  if r.goodRun + 1 = 4096 then { r with goodRun := 0, errors := r.errors - 1, lastGood := two }
  else { r with goodRun := r.goodRun + 1, lastGood := two }

/-- A counted error in DATA (R61). -/
def LaneRec.countError (r : LaneRec) : LaneRec := { r.addError with goodRun := 0 }

/-- A frame in DATA (R61). -/
def State.dataFrame (s : State) (l : Fin 4) (k : FrameKind) (f : LaneFrame) : State :=
  let r := s.lane l
  match k with
  | .data =>
    let two := frameSamples f r.config
    (s.setLane l (r.goodFrame two)).enterBuffer l two
  | .fill => s.enterBuffer l r.replacementFrame
  | .sync => (s.setLane l r.countError).dropGroup l LaneRec.toSynced .sync
  | .errored | .preamble =>
    let r1 := r.countError
    let s1 := s.setLane l r1
    if r1.threshold ≤ r1.errors then s1.dropGroup l LaneRec.fallToHunt .threshold
    else s1.enterBuffer l r1.replacementFrame

/-- A frame in HUNT (R52). -/
def LaneRec.huntFrame (r : LaneRec) (k : FrameKind) : LaneRec :=
  if k = .sync then (if r.syncRun + 1 = 4 then r.toSynced else { r with syncRun := r.syncRun + 1 })
  else { r with syncRun := 0 }

/-- A PREAMBLE frame in SYNCED or PREAMBLE: its copy is gathered, completes the preamble, or breaks it (R52, R53). -/
def State.preambleFrame (s : State) (l : Fin 4) (f : LaneFrame) : State :=
  let r := s.lane l
  match frameCopy f with
  | none => s.setLane l r.breakPreamble
  | some c =>
    match r.firstCopy with
    | none => s.setLane l { r with state := .preamble, copies := 1, firstCopy := some c }
    | some c0 =>
      if c ≠ c0 then s.setLane l r.breakPreamble
      else if r.copies + 1 = 4 then s.placeLane l c
      else s.setLane l { r with copies := r.copies + 1 }

/-- A frame is handled by the lane's state (R52 to R61). -/
def State.frameByState (s : State) (l : Fin 4) (k : FrameKind) (f : LaneFrame) : State :=
  let r := s.lane l
  match r.state with
  | .disabled => s
  | .hunt => s.setLane l (r.huntFrame k)
  | .synced =>
    match k with
    | .sync | .fill | .errored => s
    | .data => s.setLane l r.askRealign
    | .preamble => s.preambleFrame l f
  | .preamble =>
    match k with
    | .sync => s.setLane l r.toSynced
    | .fill | .errored | .data => s.setLane l r.breakPreamble
    | .preamble => s.preambleFrame l f
  | .aligned => s.alignedFrame l k f
  | .data => s.dataFrame l k f
  | .mismatch => if k = .sync then s.setLane l r.toSynced else s

/-- A lane frame arrives (R49): on an enabled lane it counts for the silence count (R56) and for the realign request
(R51), and is handled by the lane's state. On a disabled lane it has no effect. -/
def State.receiveFrame (s : State) (l : Fin 4) (f : LaneFrame) : State :=
  let r := s.lane l
  if r.enable = false then s
  else (s.setLane l { r.countRealign with arrived := true }).frameByState l (frameKind f) f

/-- LANE_FRAME (R49). -/
def execLaneFrame (l : Fin 4) (f : LaneFrame) (s : State) : Host.Outcome State Fault Refusal :=
  .next (s.receiveFrame l f)

/-- REALIGN_DEASSERT (R51): the remaining count of a request at 1 reaches 0, and the line is deasserted. As a row of its
own it takes that last 1 and brings no frame, so it does not count as an arrival (log 48). -/
def execRealignDeassert (l : Fin 4) (s : State) : Host.Outcome State Fault Refusal :=
  .next (if (s.lane l).realign = some 1 then s.setLane l (s.lane l).countRealign else s)

/-! ## A lane's part of a block -/

/-- A lane suffers a loss (R56). -/
def State.laneLost (s : State) (l : Fin 4) : State :=
  match (s.lane l).state with
  | .synced | .preamble => (s.setLane l (s.lane l).toHunt).laneReport l .loss
  | .aligned => ((s.leaveMeasuring l).setLane l ((s.leaveMeasuring l).lane l).toHunt).laneReport l .loss
  | .data => s.dropGroup l LaneRec.fallToHunt .loss
  | .hunt | .mismatch | .disabled => s

/-- A lane's part of an output block: its silence count, and the loss when it reaches 4 (R56). -/
def State.laneBlock (s : State) (l : Fin 4) : State :=
  let r := s.lane l
  if r.arrived then s.setLane l { r with silence := 0, arrived := false }
  else if 4 ≤ r.silence then s
  else
    let s1 := s.setLane l { r with silence := r.silence + 1 }
    if r.silence + 1 = 4 then s1.laneLost l else s1

/-- LANE_LOSS occurs at the coming block: its silence count reaches 4 (R56). -/
def State.laneLossOccurs (l : Fin 4) (s : State) : Bool :=
  decide ((s.lane l).arrived = false) && decide ((s.lane l).silence = 3)

/-! ## Changes -/

/-- The setting of SET_LANE's enable acts by the lane's state (R63). -/
def State.enableLane (s : State) (l : Fin 4) (on : Bool) : State :=
  let r := s.lane l
  if on = r.enable then s
  else if on then s.setLane l { r.toHunt with enable := true, errors := 0, goodRun := 0, silence := 0 }
  else if r.state = .data then s.dropGroup l LaneRec.toDisabled .disabled
  else
    let s1 := if r.state = .aligned then s.leaveMeasuring l else s
    (s1.setLane l (s1.lane l).toDisabled).laneReport l .disabled

/-- A lane is re-evaluated after a change of the source table (R64). -/
def State.replaceLane (s : State) (l : Fin 4) : State :=
  let r := s.lane l
  match r.state with
  | .aligned | .data | .mismatch => s.setLane l { r with state := s.placedState l (s.laneConfig l) }
  | .disabled | .hunt | .synced | .preamble => s

/-- A lane stands in ALIGNED, DATA or MISMATCH. -/
def LaneRec.placed (r : LaneRec) : Bool :=
  decide (r.state = .aligned) || decide (r.state = .data) || decide (r.state = .mismatch)

/-- The lane list of an entry has changed from `old` (R64): the table already holds the new entry. REDEFINED is
reported for each lane of a group that was RUNNING, then MISMATCH for each lane placed there. R64 gives the reports no
order among the lanes; the model takes the old list's order, then that of the lanes the new list adds (log 25). -/
def State.lanesChanged (s : State) (e : Fin 12) (old : List (Fin 4)) : State :=
  let new := (s.source e).lanes
  let both := old ++ new.filter fun l => decide (l ∉ old)
  let running : Bool := match s.group e with
    | some g => decide (g.stage = .running)
    | none => false
  let record := if (s.source e).kind = .laneGroup then some GroupRec.forming else none
  let mism := both.filter fun l => (s.lane l).placed && decide (s.placedState l (s.laneConfig l) = .mismatch)
  let s1 := (s.mapLanes old LaneRec.clearDeskew).setGroup e record
  let s2 := forEach (fun l t => t.replaceLane l) both s1
  let s3 := if running then s2.laneReports old .redefined else s2
  let s4 := s3.laneReports mism .mismatch
  s4.groupCompare e

/-- RESTART for a lane (R66). -/
def LaneRec.restart (r : LaneRec) : LaneRec :=
  if r.enable then { r.toHunt with errors := 0, goodRun := 0, silence := 0, realign := none }
  else { r with realign := none }

/-- RESTART for the lane receiver (R66). R66 names a group's stage and format; that its opened flag is cleared with them is
the model's reading (log 30). -/
def State.restartLanes (s : State) : State :=
  { s.mapLanes (List.finRange 4) LaneRec.restart with
    groups := s.groups.map fun g => g.map fun _ => GroupRec.forming }

end Sys2Proof.Machine
end

