-- ==== Sys2Proof/Machine/Tuner.lean ====
section
/-! DEFINITION. The tuner unit (chapters 7 and 8): the control line, tunes, candidate tests, seek and scan, the station
list, the pilot, the blend and the amplitude check, and the tuner's part of an output block. -/

namespace Sys2Proof.Machine

open Sys2Proof

/-! ## Band grids (R131, R135) -/

/-- The low edge of a band. -/
def Region.low (r : Region) : Band → Nat
  | .fm => 87500
  | .am => if r.amGrid = 10 then 520 else 522

/-- The high edge of a band. -/
def Region.high (_ : Region) : Band → Nat
  | .fm => 108000
  | .am => 1710

/-- The step of a band's grid. -/
def Region.step (r : Region) : Band → Nat
  | .fm => r.fmStep
  | .am => r.amGrid

/-- The highest grid point of a band. -/
def Region.top (r : Region) (b : Band) : Nat := r.low b + (r.high b - r.low b) / r.step b * r.step b

/-- A frequency resolved into a grid point: clamped into its band's range, then rounded to the nearest grid point, a
tie going to the lower (R135). -/
def Region.resolve (r : Region) (b : Band) (f : Nat) : Nat :=
  let x := clampNat (r.low b) (r.high b) f
  let k := (x - r.low b) / r.step b
  let rest := (x - r.low b) % r.step b
  min (r.top b) (r.low b + (if r.step b < 2 * rest then k + 1 else k) * r.step b)

/-- The clamp changes a frequency (R135). -/
def Region.clamps (r : Region) (b : Band) (f : Nat) : Bool := decide (clampNat (r.low b) (r.high b) f ≠ f)

/-- The grid point adjacent to one in a direction, wrapping at the ends (R136, R149). -/
def Region.adjacent (r : Region) (b : Band) (f : Nat) : Direction → Nat
  | .up => if r.top b < f + r.step b then r.low b else f + r.step b
  | .down => if f < r.low b + r.step b then r.top b else f - r.step b

/-! ## The tuner record -/

/-- The states in which bursts are used (R129, R139, R142, R143). -/
def tunerActive : TunerState → Bool
  | .tuning | .tuned | .seeking | .scanning => true
  | .idle | .feFault => false

/-- The pilot becomes ABSENT with both runs at 0, and its period counter is held at 0 (R140, R141). -/
def Tuner.clearPilot (t : Tuner) : Tuner := { t with pilot := .absent, inRun := 0, missRun := 0, pilotCount := 0 }

/-- b and the blend timer are 0 (R142). -/
def Tuner.clearBlend (t : Tuner) : Tuner := { t with blend := 0, blendTimer := 0 }

/-- The number of error marks in the amplitude history (R143). -/
def Tuner.ampErrors (t : Tuner) : Nat := (t.ampHistory.filter id).length

/-- A request is sent: it is the open transaction, with its timer at 2 (R127). -/
def Tuner.send (t : Tuner) (q : FeRequest) : Tuner :=
  { t with openTx := some { request := q, timer := 2, retried := false }, ctlSent := some q }

/-- A SET_TUNE is needed: it waits while a transaction is open; else IDENTIFY goes first while the front end is not
identified (R127, R128). -/
def Tuner.needSetTune (t : Tuner) (b : Band) (f : Nat) : Tuner :=
  match t.openTx with
  | some _ => { t with waiting := some (b, f) }
  | none => if t.identified then t.send (.setTune b f) else { t.send .identify with waiting := some (b, f) }

/-- Step 1 of a tune or a candidate test: band and frequency, pilot, blend and amplitude history, SET_TUNE (R137,
R146). The settle count is 0 from here on and not only from the settle wait on (log 62). -/
def Tuner.startAt (t : Tuner) (st : TunerState) (b : Band) (f : Nat) : Tuner :=
  (({ t with
    state := st, band := b, freq := f, phase := .sending, settleCount := 0, ampHistory := [] } : Tuner).clearPilot.clearBlend).needSetTune
      b f

/-- The settle limit (R137). -/
def settleLimit : Band → Nat
  | .fm => 10
  | .am => 30

/-- The number of dwell blocks (R147). -/
def dwellBlocks : Band → Nat
  | .fm => 8
  | .am => 16

/-! ## Reports (R144, R160) -/

/-- A RADIO_STATE report (R144, 11.3). -/
def State.radioReport (s : State) (cause : RadioCause) : State :=
  let t := s.tuner
  s.raise .radioState 0
    ([BitVec.ofNat 8 cause.code, BitVec.ofNat 8 t.state.code, BitVec.ofNat 8 t.band.code,
        optByte (s.owner.map (·.code))]
      ++ leBytes 4 t.freq
      ++ [BitVec.ofNat 8 t.pilot.code, BitVec.ofNat 8 t.blend, BitVec.ofNat 8 t.blendTarget, BitVec.ofNat 8 t.level]
      ++ leBytesInt 1 t.offset
      ++ [BitVec.ofNat 8 t.ampErrors, flagByte t.identified, t.identity])

/-- The flags of a radio completion: CLAMPED, UNSETTLED, fault (11.3). -/
def radioFlags (clamped unsettled fault : Bool) : Byte :=
  flagByte clamped + (if unsettled then 2 else 0) + (if fault then 4 else 0)

/-- The payload of a radio completion (R144, R160, 11.3): counts and start for a SCAN only. -/
def radioDone (t : Tuner) (op : OpRecord) (res : CmdResult) (flags : Byte) (level : Nat) : List Byte :=
  [BitVec.ofNat 8 res.code, BitVec.ofNat 8 op.kind.code, BitVec.ofNat 8 t.band.code, flags] ++ leBytes 4 t.freq
    ++ [BitVec.ofNat 8 level]
    ++ (if op.kind = .scan then
          leBytes 2 op.found ++ leBytes 2 op.dropped ++ [BitVec.ofNat 8 op.startBand.code] ++ leBytes 4 op.startFreq
        else [])

/-- The operation in progress completes, and its record is cleared (R130, R134, R137, R138). -/
def State.endOp (s : State) (res : CmdResult) (flags : Byte) (level : Nat) : State :=
  match s.tuner.op with
  | none => s
  | some op =>
    { s with tuner := { s.tuner with op := none } }.raiseDone op.tag (radioDone s.tuner op res flags level)

/-- The operation in progress completes ABORTED when it has a tag, and its record is cleared. -/
def State.abortOp (s : State) (fault : Bool) : State := s.endOp .aborted (radioFlags false false fault) s.tuner.level

/-! ## Transitions -/

/-- Entry to FE_FAULT (R130). That the settle count is 0 is the model's choice (log 62). -/
def State.feFault (s : State) : State :=
  let s1 := s.abortOp true
  let t := { s1.tuner with
    state := .feFault, openTx := none, waiting := none, identified := false, phase := .none, silence := 0
    settleCount := 0 }
  { s1 with tuner := t.clearPilot.clearBlend }.radioReport .feFault

/-- The record of a tuner that has gone to IDLE, from a scan at its start band and frequency (R134, R145). That the
settle count is 0 is the model's choice (log 62). -/
def Tuner.toIdle (t : Tuner) : Tuner :=
  let back := match t.op with
    | some op => if op.kind = Operation.scan then (op.startBand, op.startFreq) else (t.band, t.freq)
    | none => (t.band, t.freq)
  ({ t with
    state := .idle, band := back.1, freq := back.2, openTx := none, waiting := none, phase := .none, settleCount := 0
    silence := 0, ampHistory := [] } : Tuner).clearPilot.clearBlend

/-- No zone remains attached (R134). -/
def State.tunerIdle (s : State) : State :=
  let t := s.tuner.toIdle
  let s1 := s.abortOp false
  { s1 with tuner := { t with op := none } }.radioReport .idle

/-- RESTART for the tuner (R145): as IDLE, with b_t at 0 and no RADIO_STATE. -/
def State.restartTuner (s : State) : State :=
  let t := s.tuner.toIdle
  let s1 := s.abortOp false
  { s1 with tuner := { t with op := none, blendTarget := 0 } }

/-- A tune begins (R137, step 1). -/
def State.tuneTo (s : State) (b : Band) (f : Nat) : State := { s with tuner := s.tuner.startAt .tuning b f }

/-- A candidate test begins (R146). -/
def State.testAt (s : State) (b : Band) (f : Nat) : State := { s with tuner := s.tuner.startAt s.tuner.state b f }

/-- The end of a tune (R137, step 4; R149, R151): TUNED, the completion of a tagged operation, RADIO_STATE. -/
def State.endTune (s : State) (unsettled : Bool) : State :=
  let t := { s.tuner with state := .tuned, phase := .none }
  let clamped := match t.op with
    | some op => op.clamped
    | none => false
  let res := match t.op with
    | some op => if op.kind = .seek then CmdResult.none else CmdResult.ok
    | none => CmdResult.ok
  ({ s with tuner := t }.endOp res (radioFlags clamped unsettled false) t.level).radioReport .tuned

/-- The band and frequency to tune back to (R149, R151). -/
def State.tuneBack (s : State) (op : OpRecord) : State := s.tuneTo op.startBand op.startFreq

/-- The seek or scan goes on to its next point, or tunes back (R149, R151). -/
def State.nextPoint (s : State) : State :=
  let t := s.tuner
  match t.op with
  | none => s
  | some op =>
    if op.kind = .scan then
      if s.region.top t.band ≤ t.freq then s.tuneBack op else s.testAt t.band (t.freq + s.region.step t.band)
    else
      let f := s.region.adjacent t.band t.freq op.dir
      if f = op.startFreq then s.tuneBack op else s.testAt t.band f

/-! ## The station list (R153 to R155) -/

/-- The order of the list: FM before AM, then frequency (R153). -/
def Station.before (x y : Station) : Bool :=
  if x.band = y.band then decide (x.freq < y.freq) else decide (x.band.code < y.band.code)

/-- Insert a station in order. -/
def insertStation (x : Station) : List Station → List Station
  | [] => [x]
  | y :: ys => if x.before y then x :: y :: ys else y :: insertStation x ys

/-- The weakest entry of a band: the lowest level, and of several the lowest frequency (R154). The list is in order of
frequency, so the first of a level is the lowest. -/
def weakest (b : Band) : List Station → Option Station
  | [] => none
  | y :: ys =>
    if y.band ≠ b then weakest b ys
    else
      match weakest b ys with
      | none => some y
      | some w => if w.level < y.level then some w else some y

/-- Two stations are at the same band and frequency. -/
def Station.same (x y : Station) : Bool := decide (x.band = y.band) && decide (x.freq = y.freq)

/-- Two stations of a band stand one grid step apart. -/
def Station.adjacentTo (step : Nat) (x y : Station) : Bool :=
  decide (x.band = y.band) && (decide (x.freq = y.freq + step) || decide (y.freq = x.freq + step))

/-- Insert a candidate (R154): the list after it, and whether a station was dropped. -/
def insertCandidate (step : Nat) (x : Station) (list : List Station) : List Station × Bool :=
  let same := list.filter x.same
  let near := list.filter (x.adjacentTo step)
  if same ≠ [] then
    (list.map fun y => if x.same y && decide (y.level < x.level)
      then { y with level := x.level, stereo := x.stereo, label := x.label } else y, false)
  else if near ≠ [] then
    if near.all fun y => decide (y.level < x.level) then
      (insertStation x (list.filter fun y => !x.adjacentTo step y), false)
    else (list, false)
  else if 64 ≤ list.length then
    match weakest x.band list with
    | none => (list, true)
    | some w =>
      if w.level < x.level then (insertStation x (list.filter fun y => !w.same y), true) else (list, true)
  else (insertStation x list, false)

/-- The label a candidate takes: that of the lowest-indexed used preset at its band and frequency (R154). -/
def State.presetLabel (s : State) (b : Band) (f : Nat) : Option (List Byte) :=
  match (s.presets.toList.filterMap id).find? fun p => decide (p.band = b) && decide (p.freq = f) with
  | none => none
  | some p => p.label

/-! ## The candidate test (R147) -/

/-- A dwell block's sums (R147). -/
def Dwell.add (d : Dwell) (t : Tuner) (ampError : Bool) : Dwell :=
  { blocks := d.blocks + 1
    levelSum := d.levelSum + t.level
    offsetSum := d.offsetSum + t.offset
    errors := d.errors + (if ampError then 1 else 0)
    stereo := d.stereo || decide (t.pilot = .present) }

/-- The mean level (R147). -/
def Dwell.meanLevel (d : Dwell) : Nat := d.levelSum / d.blocks

/-- The mean offset, truncated toward zero (R147). -/
def Dwell.meanOffset (d : Dwell) : Int := d.offsetSum.tdiv d.blocks

/-- The point passes (R147). -/
def Region.passes (r : Region) (b : Band) (d : Dwell) : Bool :=
  decide ((match b with
    | .fm => r.fmLevel
    | .am => r.amLevel) ≤ d.meanLevel)
  && decide (d.meanOffset.natAbs ≤ (match b with
    | .fm => r.fmOffset
    | .am => r.amOffset))
  && decide (d.errors < r.errK)

/-- A scan counts a point tested, with PROGRESS at each multiple of 32 (R151). -/
def State.countTested (s : State) : State :=
  match s.tuner.op with
  | none => s
  | some op =>
    if op.kind ≠ .scan then s
    else
      let s1 := { s with tuner := { s.tuner with op := some { op with tested := op.tested + 1 } } }
      if (op.tested + 1) % 32 = 0 then s1.radioReport .progress else s1

/-- A point of a scan passes: found count, insertion, dropped count (R151, R154). -/
def State.takeCandidate (s : State) (d : Dwell) : State :=
  match s.tuner.op with
  | none => s
  | some op =>
    let t := s.tuner
    let x : Station :=
      { band := t.band, freq := t.freq, level := d.meanLevel
        stereo := d.stereo && decide (t.band = .fm), label := s.presetLabel t.band t.freq }
    let r := insertCandidate (s.region.step t.band) x s.stations
    let op1 := { op with found := op.found + 1, dropped := op.dropped + (if r.2 then 1 else 0) }
    { s with stations := r.1, tuner := { t with op := some op1 } }

/-- A seek ends with FOUND at the end of the dwell (R149). -/
def State.seekFound (s : State) (d : Dwell) : State :=
  ({ s with tuner := { s.tuner with state := .tuned, phase := .none } }.endOp .found (radioFlags false false false)
    d.meanLevel).radioReport .tuned

/-- The end of a dwell (R147, R149, R151): a seek that passes is done; otherwise the next test begins at the next
block (log 19). -/
def State.endDwell (s : State) (d : Dwell) : State :=
  let pass := s.region.passes s.tuner.band d
  let wait (s : State) : State := { s with tuner := { s.tuner with phase := .advance } }
  match s.tuner.op with
  | none => s
  | some op =>
    if op.kind = .scan then wait (if pass then s.takeCandidate d else s).countTested
    else if pass then s.seekFound d
    else wait s

/-- The settle wait has ended settled (R137, R146). -/
def State.settled (s : State) : State :=
  if s.tuner.state = .tuning then s.endTune false
  else { s with tuner := { s.tuner with phase := .dwell, dwell := Dwell.start } }

/-- The settle wait has ended at its limit (R137, R146). -/
def State.unsettled (s : State) : State :=
  if s.tuner.state = .tuning then s.endTune true else s.countTested.nextPoint

/-! ## Events from the front end -/

/-- The bytes of a request on the control line (R201): IDENTIFY alone, SET_TUNE with the band code and the frequency. -/
def FeRequest.bytes : FeRequest → List Byte
  | .identify => [1]
  | .setTune b f => [2, BitVec.ofNat 8 b.code] ++ leBytes 4 f

/-- The request byte, which an acknowledgement echoes (R201): the first of the request's bytes. -/
def FeRequest.byte (q : FeRequest) : Byte := argByte q.bytes 0

/-- The bytes last sent on the control line (R127, R201). -/
def Tuner.controlLine (t : Tuner) : List Byte :=
  match t.ctlSent with
  | none => []
  | some q => q.bytes

/-- The open transaction completes (R127, R128): the waiting request is sent, or the settle wait begins. -/
def Tuner.complete (t : Tuner) (q : FeRequest) (identity : Byte) : Tuner :=
  let t1 := match q with
    | .identify => { t with openTx := none, identified := true, identity := identity }
    | .setTune _ _ => { t with openTx := none }
  match t1.waiting with
  | some (b, f) => { t1 with waiting := none }.send (.setTune b f)
  | none =>
    match q with
    | .identify => t1
    | .setTune _ _ => if t1.phase = .sending then { t1 with phase := .settling, settleCount := 0 } else t1

/-- An acknowledgement arrives (R127, R201): ignored when no transaction is open or its byte is another request's. -/
def Tuner.acknowledge (t : Tuner) (request identity : Byte) : Tuner :=
  match t.openTx with
  | none => t
  | some x => if request = x.request.byte then t.complete x.request identity else t

/-- FE_ACKNOWLEDGEMENT (R127, R128, R201). -/
def execFeAcknowledgement (request identity : Byte) (s : State) : Host.Outcome State Fault Refusal :=
  .next { s with tuner := s.tuner.acknowledge request identity }

/-- A status record arrives (R129, R137, R146); that of a short burst counts as not arrived (R201). R201 says nothing of a
record that comes in a block with no burst at all: it counts as arrived, the model's reading (log 31). -/
def State.statusRecord (s : State) (settled : Bool) (level : Nat) (offset : Int) : State :=
  if s.tuner.burst = .short then s
  else
    let s1 := { s with tuner := { s.tuner with level := level, offset := offset, statusArrived := true } }
    if settled && decide (s.tuner.phase = .settling) then s1.settled else s1

/-- FE_STATUS_RECORD (R129). -/
def execFeStatusRecord (settled : Bool) (level : BitVec 7) (offset : BitVec 8) (s : State) :
    Host.Outcome State Fault Refusal :=
  .next (s.statusRecord settled level.toNat offset.toInt)

/-- A burst arrives (R129, R201): one shorter than 192 pairs is no burst in any state, and its status record will not
count; a full one is not used in IDLE and FE_FAULT. -/
def Tuner.takeBurst (t : Tuner) (ps : List (BitVec 16 × BitVec 16)) : Tuner :=
  if ps.length < 192 then { t with burst := .short }
  else if tunerActive t.state = false then { t with burst := .none }
  else { t with burst := .full ps }

/-- FE_BURST (R201). -/
def execFeBurst (ps : List (BitVec 16 × BitVec 16)) (s : State) : Host.Outcome State Fault Refusal :=
  .next { s with tuner := s.tuner.takeBurst ps }

/-! ## The pilot (R140, R141) -/

/-- The pilot period counter runs (R140): FM, not tuning, the settle wait of the present tune ended. -/
def Tuner.pilotRuns (t : Tuner) : Bool :=
  decide (t.band = .fm)
    && (decide (t.state = .tuned)
      || ((decide (t.state = .seeking) || decide (t.state = .scanning))
        && (decide (t.phase = .dwell) || decide (t.phase = .advance))))

/-- A capture is in-window (R140). -/
def inWindow (ticks : Nat) : Bool := decide (640 ≤ ticks) && decide (ticks ≤ 653)

/-- A capture moves the runs and the pilot state (R141). -/
def Tuner.capture (t : Tuner) (ticks : Nat) : Tuner :=
  if inWindow ticks then
    let n := min 16 (t.inRun + 1)
    { t with pilotCount := 0, inRun := n, missRun := 0, pilot := if n = 16 then .present else t.pilot }
  else
    let n := min 4 (t.missRun + 1)
    { t with pilotCount := 0, missRun := n, inRun := 0, pilot := if n = 4 then .absent else t.pilot }

/-- The counter captures a count, and a change of pilot state is reported (R140, R141). -/
def State.pilotCapture (s : State) (ticks : Nat) : State :=
  if s.tuner.pilotRuns = false then s
  else
    let t := s.tuner.capture ticks
    let s1 := { s with tuner := t }
    if t.pilot = s.tuner.pilot then s1 else s1.radioReport .pilot

/-- PILOT_CAPTURE (R140): a zero crossing `ticks` ticks on; a count of 1000 or more was captured as 1000. -/
def execPilotCapture (ticks : Nat) (s : State) : Host.Outcome State Fault Refusal :=
  .next (s.pilotCapture (min 1000 (s.tuner.pilotCount + ticks)))

/-- PILOT_TIMEOUT (R140): the counter reaches 1000 with no crossing, a miss. -/
def execPilotTimeout (s : State) : Host.Outcome State Fault Refusal := .next (s.pilotCapture 1000)

/-! ## The tuner's part of a block -/

/-- The acknowledgement timer's block (R127): the request is sent again, or the transaction fails. -/
def State.ackBlock (s : State) : State :=
  match s.tuner.openTx with
  | none => s
  | some x =>
    if 1 < x.timer then { s with tuner := { s.tuner with openTx := some { x with timer := x.timer - 1 } } }
    else if x.retried then s.feFault
    else
      { s with tuner :=
        { s.tuner with openTx := some { x with timer := 2, retried := true }, ctlSent := some x.request } }

/-- The status silence count's block (R129). -/
def State.silenceBlock (s : State) : State :=
  let t := s.tuner
  if tunerActive t.state = false then { s with tuner := { t with silence := 0 } }
  else if t.statusArrived then { s with tuner := { t with silence := 0 } }
  else if 5 ≤ t.silence + 1 then { s with tuner := { t with silence := 5 } }.feFault
  else { s with tuner := { t with silence := t.silence + 1 } }

/-- One baseband pair's part of the amplitude sum (R143). -/
def pairPower (p : BitVec 16 × BitVec 16) : Nat := (p.1.toInt * p.1.toInt + p.2.toInt * p.2.toInt).toNat / 65536

/-- The block's baseband pairs; none when its burst did not arrive. -/
def Tuner.pairsOf (t : Tuner) : List (BitVec 16 × BitVec 16) :=
  match t.burst with
  | .full ps => ps
  | .none | .short => []

/-- The block is an amplitude error block (R143). -/
def State.ampError (s : State) : Bool :=
  let a := sumNat (s.tuner.pairsOf.map pairPower)
  decide (s.region.ampHigh < a) || decide (a < s.region.ampLow)

/-- The block's mark enters the amplitude history (R143). -/
def State.ampBlock (s : State) : State :=
  { s with tuner := { s.tuner with ampHistory := (s.ampError :: s.tuner.ampHistory).take 8 } }

/-- The blend target (R142). -/
def State.blendTarget (s : State) : Nat :=
  let t := s.tuner
  let r := s.region
  if t.pilot = .absent ∨ r.forcedMono = true ∨ t.band = .am then 0
  else if t.level ≤ r.blendLo then 0
  else if r.blendHi ≤ t.level then 16
  else 16 * (t.level - r.blendLo) / (r.blendHi - r.blendLo)

/-- b moves 1 toward its target. -/
def stepBlend (b target : Nat) : Nat := if b < target then b + 1 else if target < b then b - 1 else b

/-- The blend's block (R142). -/
def State.blendBlock (s : State) : State :=
  let t := { s.tuner with blendTarget := s.blendTarget }
  if tunerActive t.state = false then { s with tuner := t }
  else if t.blendTimer + 1 = 8 then
    { s with tuner := { t with blendTimer := 0, blend := stepBlend t.blend t.blendTarget } }
  else { s with tuner := { t with blendTimer := t.blendTimer + 1 } }

/-- One blended frame (R139, R142): the demodulator's values are free values (log 8). -/
def blendFrame (b : Nat) (m side : Sample) : Frame :=
  let d := asr ((b : Int) * side) 4
  [saturate (m + d), saturate (m - d)]

/-- The blended frames of a block (R139, R142). -/
def State.tunerFrames (s : State) : List Frame :=
  let t := s.tuner
  (List.range 48).map fun j =>
    blendFrame t.blend (saturate (Config.demodMid s.freeIdx t.band.code t.pairsOf j))
      (if t.band = .fm then saturate (Config.demodSide s.freeIdx t.pairsOf j) else 0)

/-- A TUNED tuner places its frames in the FIFO of the path bound to it (R139). -/
def State.deliverFrames (s : State) : State :=
  if s.tuner.state ≠ .tuned then s
  else
    match s.tunerPath with
    | none => s
    | some p => forEach (fun f t => t.pushFrame p f) s.tunerFrames s

/-- Where the tune or test stands moves on at a block (R137, R146, R147, log 19). -/
def State.phaseBlock (s : State) : State :=
  let t := s.tuner
  match t.phase with
  | .none | .sending => s
  | .settling =>
    let s1 := { s with tuner := { t with settleCount := t.settleCount + 1 } }
    if settleLimit t.band ≤ t.settleCount + 1 then s1.unsettled else s1
  | .dwell =>
    let d := t.dwell.add t s.ampError
    let s1 := { s with tuner := { t with dwell := d } }
    if dwellBlocks t.band ≤ d.blocks then s1.endDwell d else s1
  | .advance => s.nextPoint

/-- What the sample lane brought since the last block has been used (R129, R139). -/
def State.laneUsed (s : State) : State := { s with tuner := { s.tuner with burst := .none, statusArrived := false } }

/-- The tuner's part of an output block: the amplitude check, the blend, the frames of a tuner that is TUNED as the block
begins, then the timers of the line and of the lane, then the settle wait, the dwell or the next test. The spec gives the
tuner's own steps no order; this one is the model's choice (log 54): a block at which the tuner leaves TUNED has placed its
frames, one at which the settle limit makes it TUNED places none, and a status silence of 5 goes before a settle limit. -/
def State.tunerBlock (s : State) : State :=
  let s1 := (if tunerActive s.tuner.state then s.ampBlock else s).blendBlock
  s1.deliverFrames.ackBlock.silenceBlock.phaseBlock.laneUsed

/-- ACK_TIMEOUT occurs: the acknowledgement timer reaches 0 at the coming block (R127). -/
def State.ackTimeoutOccurs (s : State) : Bool :=
  match s.tuner.openTx with
  | none => false
  | some x => decide (x.timer ≤ 1)

/-- STATUS_SILENCE occurs: the silence count reaches 5 at the coming block (R129). -/
def State.statusSilenceOccurs (s : State) : Bool :=
  tunerActive s.tuner.state && !s.tuner.statusArrived && decide (5 ≤ s.tuner.silence + 1)

/-- SETTLE_LIMIT occurs: the settle count reaches its limit at the coming block (R137). -/
def State.settleLimitOccurs (s : State) : Bool :=
  decide (s.tuner.phase = .settling) && decide (settleLimit s.tuner.band ≤ s.tuner.settleCount + 1)

/-- DWELL_END occurs: the coming block is the last of the dwell (R147). -/
def State.dwellEndOccurs (s : State) : Bool :=
  decide (s.tuner.phase = .dwell) && decide (dwellBlocks s.tuner.band ≤ s.tuner.dwell.blocks + 1)

/-- BLEND_STEP occurs: the blend timer reaches 8 at the coming block (R142). -/
def State.blendStepOccurs (s : State) : Bool := tunerActive s.tuner.state && decide (s.tuner.blendTimer + 1 = 8)

end Sys2Proof.Machine
end

