-- ==== Sys2Proof/Machine/Zones.lean ====
section
/-! DEFINITION. The zone controller (chapter 4): binding and attachment, the switch protocol, power and sleep, and a
zone's part of an output block. -/

namespace Sys2Proof.Machine

open Sys2Proof

/-! ## Reports (R88) -/

/-- The tuner owner flag of a zone. -/
def State.ownsTuner (s : State) (z : Zone) : Bool := decide (s.owner = some z)

/-- A ZONE_STATE report (R88, 11.3). -/
def State.zoneReport (s : State) (z : Zone) : State :=
  let r := s.zone z
  s.raise .zoneState z.code
    ([BitVec.ofNat 8 z.code, BitVec.ofNat 8 r.power.code, BitVec.ofNat 8 r.switch.code,
        optByte (r.selection.map (·.val)), optByte (r.attached.map PathId.code), flagByte r.mute]
      ++ leBytesInt 2 r.masterTarget ++ leBytesInt 2 r.ramp ++ [flagByte (s.ownsTuner z)])

/-- COMMAND_DONE of a zone's switch, naming the zone, its pending target and its path (R83, R84, 11.3). -/
def State.switchDone (s : State) (z : Zone) (res : CmdResult) : State :=
  let r := s.zone z
  s.raiseDone r.tag
    [BitVec.ofNat 8 res.code, BitVec.ofNat 8 Operation.switch.code, BitVec.ofNat 8 z.code, 0,
      optByte (r.target.map (·.val)), optByte (r.attached.map PathId.code)]

/-! ## Attaching (R71, R73, R134) -/

/-- The format the tuner unit hands its path (R92, R139). -/
def tunerFormat : Format := { rate := .r48000, roles := [.fl, .fr] }

/-- A zone becomes the tuner's owner, and the tuner unit is told (R73, R134). -/
def State.setOwner (s : State) (z : Zone) : State := { s with owner := some z }.radioReport .owner

/-- What binding a path tells the source's block (R71). -/
def State.tellBound (s : State) (p : PathId) (e : Fin 12) : State :=
  match (s.source e).kind with
  | .none => s
  | .laneGroup =>
    match s.group e with
    | some { stage := .running, format := some f, opened := _ } => s.handFormat p f
    | _ => s
  | .stream =>
    match (s.source e).window with
    | none => s
    | some w => s.feedIfNamed w
  | .tuner => (s.handFormat p tunerFormat).tuneTo s.tuner.band s.tuner.freq

/-- Bind a free path to a source (R71, R99): the tracker enters PREFILL, and the source's block is told. -/
def State.bindPath (s : State) (p : PathId) (e : Fin 12) : State :=
  let first := if (s.path p.other).binding.isSome then p.other else p
  let s1 := { s with bindFirst := first }.setPath p { PathRec.free with binding := some e }.enterPrefill
  s1.tellBound p e

/-- The path a zone binds: P0 when it is free, otherwise P1 (R71). -/
def State.freePath (s : State) : PathId := if s.pathZero.binding = none then .p0 else .p1

/-- The attached path of a zone is set; MAIN's detector energies start from 0 (R114). -/
def State.joinPath (s : State) (z : Zone) (p : PathId) : State :=
  let s1 := s.setZone z { s.zone z with attached := some p }
  if z = .main then s1.zeroEnergies else s1

/-- A zone attaches to a source (R71), and takes tuner ownership when the tuner has no owner (R73). -/
def State.attach (s : State) (z : Zone) (e : Fin 12) : State :=
  let s1 := match s.boundPath e with
    | some p => s.joinPath z p
    | none => (s.joinPath z s.freePath).bindPath s.freePath e
  if (s1.source e).kind = .tuner ∧ s1.owner = none then s1.setOwner z else s1

/-! ## Detaching (R72, R73, R134) -/

/-- A path is released (R72). -/
def State.releasePath (s : State) (p : PathId) : State :=
  let kind := s.pathKind p
  let fed := s.feeding p
  let s1 := { s with bindFirst := p.other }.setPath p PathRec.free
  match kind with
  | .none | .laneGroup => s1
  | .stream =>
    match fed with
    | none => s1
    | some w => s1.flushWindow w
  | .tuner => { s1 with owner := none }.tunerIdle

/-- A zone detaches from its path (R72): the path is released when no other zone is attached; the tuner's ownership
passes to a zone that is (R73). -/
def State.detach (s : State) (z : Zone) : State :=
  match (s.zone z).attached with
  | none => s
  | some p =>
    let s1 := s.setZone z { s.zone z with attached := none }
    if s1.attachedTo z.other p then
      if s1.pathKind p = .tuner ∧ s1.owner = some z then s1.setOwner z.other else s1
    else s1.releasePath p

/-! ## The switch (R81 to R84) -/

/-- A switch completes (R83). -/
def State.completeSwitch (s : State) (z : Zone) : State :=
  let r := s.zone z
  let s1 := s.setZone z { r with switch := .idle, waitCount := 0 }
  let s2 := ((s1.setZone z { s1.zone z with target := none, tag := none }).zoneReport z)
  s2.raiseDone r.tag
    [BitVec.ofNat 8 CmdResult.ok.code, BitVec.ofNat 8 Operation.switch.code, BitVec.ofNat 8 z.code, 0,
      optByte (r.target.map (·.val)), optByte (r.attached.map PathId.code)]

/-- FADE_IN begins; with mute on the switch completes on entry (R83). -/
def State.startFadeIn (s : State) (z : Zone) : State :=
  let s1 := s.setZone z { s.zone z with switch := .fadeIn }
  if (s.zone z).mute then s1.completeSwitch z else s1

/-- The attached path is ready and has no format change pending (R82). -/
def State.waitEnds (s : State) (z : Zone) : Bool :=
  match (s.zone z).attached with
  | none => false
  | some p => s.pathReady p && !(s.path p).formatPending

/-- WAIT_READY is entered with its wait count at 0, and ends on entry when it can (R81, R82). -/
def State.startWait (s : State) (z : Zone) : State :=
  let s1 := s.setZone z { s.zone z with switch := .waitReady, waitCount := 0 }
  if s1.waitEnds z then s1.startFadeIn z else s1

/-- The FADE_OUT stage ends (R81). -/
def State.endFadeOut (s : State) (z : Zone) : State :=
  match (s.zone z).target with
  | none => s
  | some e =>
    let stays := match (s.zone z).attached with
      | none => false
      | some p => decide (s.boundPath e = some p)
    (if stays then s else (s.detach z).attach z e).startWait z

/-- A switch enters FADE_OUT toward a source, which ends at once when r_z is -240 (R80, R81, R85). -/
def State.startSwitch (s : State) (z : Zone) (e : Fin 12) (tag : Option Nat) : State :=
  let s1 := s.setZone z
    { s.zone z with selection := some e, target := some e, tag := tag, waitCount := 0, switch := .fadeOut }
  if (s.zone z).ramp = -240 then s1.endFadeOut z else s1

/-- A switch in progress is aborted by power or sleep (R84): COMMAND_DONE, then IDLE. R84 does not name the wait count,
which the model sets to 0 (log 49). -/
def State.abortSwitch (s : State) (z : Zone) : State :=
  let s1 := if (s.zone z).switch = .idle then s else s.switchDone z .aborted
  s1.setZone z { s1.zone z with switch := .idle, target := none, tag := none, waitCount := 0 }

/-! ## Power (R85, R86) -/

/-- A zone in GOING_STANDBY whose r_z is -240 detaches and enters STANDBY (R86). -/
def State.enterStandby (s : State) (z : Zone) : State :=
  let s1 := s.detach z
  (s1.setZone z { s1.zone z with power := .standby }).zoneReport z

/-- A zone that is ON goes to GOING_STANDBY (R86), up to its report. R86 stops the minute counter; that it is then 0 is
the model's choice (log 49). -/
def State.goStandby (s : State) (z : Zone) : State :=
  let s1 := s.abortSwitch z
  (s1.setZone z { s1.zone z with sleep := 0, minute := 0, power := .goingStandby }).zoneReport z

/-- GOING_STANDBY ends at once when r_z is -240 (R86). -/
def State.standbyIfSilent (s : State) (z : Zone) : State :=
  if (s.zone z).power = .goingStandby ∧ (s.zone z).ramp = -240 then s.enterStandby z else s

/-- A zone is powered on (R85). -/
def State.powerZone (s : State) (z : Zone) : State :=
  let r := s.zone z
  if r.power = .on then s
  else
    let s1 := (s.setZone z { r with power := .on }).zoneReport z
    match r.selection with
    | none => s1
    | some e =>
      if r.power = .goingStandby ∧ r.attached.isSome = true ∧ s.boundPath e = r.attached then s1
      else s1.startSwitch z e none

/-! ## A zone's part of a block -/

/-- The master current moves 2 steps and r_z by the ramp rate (R76, R77). -/
def State.zoneMoved (s : State) (z : Zone) : ZoneRec :=
  let r := s.zone z
  { r with
    masterCurrent := moveToward r.masterTarget 2 r.masterCurrent
    ramp := moveToward (s.rampTarget z) r.rampRate r.ramp }

/-- The stage of the switch at a block, after the ramp (R81 to R83). -/
def State.switchBlock (s : State) (z : Zone) : State :=
  let r := s.zone z
  match r.switch with
  | .idle => s
  | .fadeOut => if r.ramp = -240 then s.endFadeOut z else s
  | .waitReady =>
    if s.waitEnds z then s.startFadeIn z
    else
      let n := min 2000 (r.waitCount + 1)
      let s1 := s.setZone z { r with waitCount := n }
      if n = 2000 ∧ r.waitCount ≠ 2000 then
        s1.raise .sourceAbsent z.code
          [BitVec.ofNat 8 z.code, optByte (r.target.map (·.val)),
            BitVec.ofNat 8 (match r.target with
              | some e => (s.source e).kind.code
              | none => 0)]
      else s1
  | .fadeIn => if r.ramp = 0 ∨ r.mute = true then s.completeSwitch z else s

/-- The sleep countdown at a block (R87). -/
def State.sleepBlock (s : State) (z : Zone) : State :=
  let r := s.zone z
  if r.power ≠ .on ∨ r.sleep = 0 then s
  else if 1 < r.minute then s.setZone z { r with minute := r.minute - 1 }
  else if 1 < r.sleep then s.setZone z { r with minute := 60000, sleep := r.sleep - 1 }
  else ((s.goStandby z).raise .sleepExpired z.code [BitVec.ofNat 8 z.code]).standbyIfSilent z

/-- A zone's part of an output block: volume and ramp, the switch, GOING_STANDBY, sleep. R87 gives no order to a switch
that would complete in the block in which sleep expires; the model lets it complete first (log 50). -/
def State.zoneBlock (s : State) (z : Zone) : State :=
  (((s.setZone z (s.zoneMoved z)).switchBlock z).standbyIfSilent z).sleepBlock z

/-- FADE_OUT_END occurs: the ramp reaches -240 in FADE_OUT at the coming block (R81). -/
def State.fadeOutEndOccurs (z : Zone) (s : State) : Bool :=
  decide ((s.zone z).switch = .fadeOut) && decide ((s.zoneMoved z).ramp = -240)

/-- WAIT_READY_END occurs: the attached path is ready with no change pending (R82). -/
def State.waitReadyEndOccurs (z : Zone) (s : State) : Bool :=
  decide ((s.zone z).switch = .waitReady) && s.waitEnds z

/-- SOURCE_ABSENT occurs: the wait count reaches 2000 at the coming block (R82). -/
def State.sourceAbsentOccurs (z : Zone) (s : State) : Bool :=
  decide ((s.zone z).switch = .waitReady) && !s.waitEnds z && decide ((s.zone z).waitCount = 1999)

/-- SWITCH_COMPLETE occurs: r_z reaches 0 in FADE_IN at the coming block, or mute is on (R83). -/
def State.switchCompleteOccurs (z : Zone) (s : State) : Bool :=
  decide ((s.zone z).switch = .fadeIn) && (decide ((s.zoneMoved z).ramp = 0) || (s.zone z).mute)

/-- GOING_STANDBY_END occurs: r_z reaches -240 at the coming block (R86). -/
def State.goingStandbyEndOccurs (z : Zone) (s : State) : Bool :=
  decide ((s.zone z).power = .goingStandby) && decide ((s.zoneMoved z).ramp = -240)

/-- SLEEP_MINUTE occurs: the minute counter reaches 0 at the coming block (R87). -/
def State.sleepMinuteOccurs (z : Zone) (s : State) : Bool :=
  decide ((s.zone z).power = .on) && decide ((s.zone z).sleep ≠ 0) && decide ((s.zone z).minute ≤ 1)

/-! ## The intake's steps of their own (chapter 2) -/

/-- UNPACK_FRAME (R36, R37): one step of the unpacker of a path. -/
def execUnpackFrame (p : PathId) (s : State) : Host.Outcome State Fault Refusal := .next (s.unpackStep p)

/-- The idle condition of a window that feeds a path is met (R39). -/
def State.idleOccurs (s : State) (w : Fin 16) : Bool :=
  match s.ring w with
  | none => false
  | some r =>
    match r.feeds with
    | none => false
    | some p => !r.idle && decide (100 ≤ r.handoverCount) && decide (s.buffered p = 0)

/-- STREAM_IDLE (R39): the count has reached 100 and B is 0, so the source becomes not present. -/
def execStreamIdle (w : Fin 16) (s : State) : Host.Outcome State Fault Refusal :=
  .next (if s.idleOccurs w then
      match s.ring w with
      | none => s
      | some r => s.setRing w (some { r with idle := true })
    else s)

/-! ## RESTART (R89, R90) -/

/-- RESTART for a zone: the switch is aborted and its path is left (R90). -/
def State.restartZone (s : State) (z : Zone) : State :=
  let s1 := if (s.zone z).switch = .idle then s else s.switchDone z .aborted
  let r := s1.zone z
  s1.setZone z
    { r with
      power := .standby, switch := .idle, target := none, tag := none, waitCount := 0, attached := none
      masterCurrent := r.masterTarget, ramp := -240, sleep := 0, minute := 0 }

/-- RESTART for a path: released, its source told, with no report (R89, R109). The tuner takes its restart state of its
own (R145). -/
def State.restartPath (s : State) (p : PathId) : State :=
  let fed := s.feeding p
  let s1 := { s with bindFirst := p.other }.setPath p PathRec.free
  match fed with
  | none => s1
  | some w => s1.flushWindow w

end Sys2Proof.Machine
end

