-- ==== Sys2Proof/Machine/Outputs.lean ====
section
/-! DEFINITION. The output unit's settings: the delay pool (R169), change groups (R164 to R168), the channel ramp
(R176, R177) and the limiter (R178, R179). What a channel plays in a block stands in Sound.lean. -/

namespace Sys2Proof.Machine

open Sys2Proof

/-! ## The delay pool (R169) -/

/-- The target zone of a channel (R161). -/
def Channel.targetZone (c : Channel) : Option Zone := roleZone c.target.role

/-- The AV delay of a channel's zone; 0 when it has none. -/
def State.avOf (s : State) : Option Zone → Nat
  | none => 0
  | some z => (s.zone z).avDelay

/-- The applied allocation, which is the total delay (R169, R170). -/
def Channel.appliedAlloc (c : Channel) : Nat := if c.applied.role = .unused then 0 else c.applied.delay + c.appliedAv

/-- The target allocation (R169). -/
def State.targetAlloc (s : State) (t : ChanSettings) : Nat :=
  if t.role = .unused then 0 else t.delay + s.avOf (roleZone t.role)

/-- The claim of a channel (R169). -/
def State.claim (s : State) (c : Fin 12) : Nat := max (s.chan c).appliedAlloc (s.targetAlloc (s.chan c).target)

/-- The sum of the claims (R169). -/
def State.claims (s : State) : Nat := sumNat ((List.finRange 12).map s.claim)

/-- The pool check on the state a command would leave with its pending settings given and no group applied yet (R169):
the applied allocation of a channel whose group is to apply at once still counts in its claim, the model's choice
(log 69). -/
def State.poolFits (s : State) : Bool := decide (s.claims ≤ 131072)

/-! ## Change groups (R166 to R168) -/

/-- The channels that wait in a group. -/
def State.groupMembers (s : State) (g : Fin 12) : List (Fin 12) :=
  (List.finRange 12).filter fun c => decide ((s.chan c).group = some g)

/-- Every channel of a group is silent (R167). -/
def State.groupSilent (s : State) (g : Fin 12) : Bool := (s.groupMembers g).all s.chanSilent

/-- Samples of zero. -/
def zeros (n : Nat) : List Sample := List.replicate n 0

/-- A channel applies its pending settings (R167). -/
def State.applyChannel (s : State) (c : Fin 12) : State :=
  let r := s.chan c
  let t := r.target
  let r1 := { r with applied := t, appliedAv := if t.role = Role.unused then 0 else s.avOf (roleZone t.role) }
  s.setChan c
    { r1 with
      pend := none
      group := none
      reconfig := false
      ramp := -240
      line := if r1.appliedAlloc = r.appliedAlloc ∧ t.role = r.applied.role then r.line else zeros r1.appliedAlloc
      crossover := if t.role = r.applied.role ∧ t.size = r.applied.size then r.crossover else CrossoverState.cleared }

/-- A group applies (R167). -/
def State.applyGroup (s : State) (g : Fin 12) : State := forEach (fun c t => t.applyChannel c) (s.groupMembers g) s

/-- A channel that can be heard receives RECONFIG (R166). -/
def State.markReconfig (s : State) (c : Fin 12) : State :=
  if s.chanSilent c then s else s.setChan c { s.chan c with reconfig := true }

/-- A channel's pending settings are its target settings, or those given it. -/
def State.givePending (s : State) (c : Fin 12) (t : ChanSettings) : State := s.setChan c { s.chan c with pend := some t }

/-- The applied roles of the main zone include SW. -/
def State.swApplied (s : State) : Bool := (List.finRange 12).any fun c => decide ((s.chan c).applied.role = .sw)

/-- The target roles of the main zone include SW. -/
def State.swTarget (s : State) : Bool := (List.finRange 12).any fun c => decide ((s.chan c).target.role = .sw)

/-- The channels that join a group because SW enters or leaves the layout (R168). -/
def State.swJoiners (s : State) : List (Fin 12) :=
  if s.swApplied = s.swTarget then []
  else
    (List.finRange 12).filter fun c =>
      let t := (s.chan c).target
      decide (roleZone t.role = some .main) && decide (t.size = .small) && decide (t.role ≠ .sw)

/-- The channels of the group that forms around some channels: these, those that join under R168, and the members of
every group that holds one of them (R166). R168's second point is read literally: while the applied and the target roles
of the main zone differ in SW, the channels it names join every group that forms, a group of the other zone's channels too,
which then waits with them though its own channels are silent; so does that of a SET_CHANNEL on an UNUSED channel, which
R165 calls applied at once (log 60). -/
def State.mergedGroup (s : State) (cs : List (Fin 12)) : List (Fin 12) :=
  let base := cs ++ s.swJoiners
  (List.finRange 12).filter fun c =>
    decide (c ∈ base) ||
      (match (s.chan c).group with
       | none => false
       | some g => base.any fun b => decide ((s.chan b).group = some g))

/-- A change group forms of channels whose pending settings stand already (R166, R168): it applies at once when every
channel is silent, and otherwise waits. -/
def State.formGroup (s : State) (cs : List (Fin 12)) : State :=
  match s.mergedGroup cs with
  | [] => s
  | g :: rest =>
    let s1 := forEach
      (fun c t => t.setChan c { t.chan c with pend := some (t.chan c).target, group := some g }) (g :: rest) s
    if s1.groupSilent g then s1.applyGroup g else forEach (fun c t => t.markReconfig c) (g :: rest) s1

/-- A waiting group at a block: it applies when every channel is silent, else channels that are heard receive RECONFIG
(R166, R167). -/
def State.groupBlock (s : State) (g : Fin 12) : State :=
  if (s.groupMembers g).isEmpty then s
  else if s.groupSilent g then s.applyGroup g
  else forEach (fun c t => t.markReconfig c) (s.groupMembers g) s

/-! ## The channel ramp (R176, R177) -/

/-- The ramp reasons of a channel are not empty. -/
def Channel.held (c : Channel) : Bool := c.reconfig || c.protect

/-- A channel's ramp at a block (R176); `hold` while the thermal line is asserted. A channel whose flag is set and whose
r_ch is 0 already, while its pair's other channel still ramps, keeps its soft-start count as it stands: R176 does not say
whether it goes on counting (log 57). -/
def Channel.rampStep (c : Channel) (hold : Bool) : Channel :=
  if c.held then { c with ramp := moveToward (-240) 8 c.ramp }
  else if c.softStart then
    if c.ramp = 0 ∨ hold = true then c
    else if c.softCount + 1 = 4 then { c with softCount := 0, ramp := moveToward 0 1 c.ramp }
    else { c with softCount := c.softCount + 1 }
  else { c with ramp := moveToward 0 8 c.ramp }

/-- A channel ramp's part of a block; the thermal line is that of the block's sample (R176, R184). -/
def State.rampBlock (s : State) (c : Fin 12) : State := s.setChan c ((s.chan c).rampStep s.thermal.lastLine)

/-- The two channels of a pair (R161). -/
def pairChannels (n : Fin 6) : List (Fin 12) := [⟨2 * n.val, by omega⟩, ⟨2 * n.val + 1, by omega⟩]

/-- The protect request on a channel (R177). -/
def Channel.protectNow (c : Channel) : Channel :=
  { c with ramp := -240, protect := true, softStart := false, softCount := 0 }

/-- The soft start request on a channel (R177). -/
def Channel.softStartNow (c : Channel) : Channel := { c with protect := false, softStart := true, softCount := 0 }

/-- Change both channels of a pair. -/
def State.mapPair (s : State) (n : Fin 6) (f : Channel → Channel) : State :=
  forEach (fun c t => t.setChan c (f (t.chan c))) (pairChannels n) s

/-- Both channels of a pair have the soft-start flag set and r_ch at 0 (R177). -/
def State.softStartDone (s : State) (n : Fin 6) : Bool :=
  (pairChannels n).all fun c => (s.chan c).softStart && decide ((s.chan c).ramp = 0)

/-! ## The limiter (R178, R179) -/

/-- The ceiling level of a channel's zone; none for a channel with no zone, which is not limited (R178). -/
def State.ceilingLevel (s : State) (c : Fin 12) : Option Nat := (s.chan c).zone.map fun z => levelAt (s.zone z).ceiling

/-- A fall of Lr that is due acts at the start of the next block, and the release count is set to 0 (R178, log 17). -/
def Channel.applyDue (c : Channel) : Channel :=
  if c.lrDue = 0 then c else { c with lr := max (c.lr - c.lrDue) (-48), lrDue := 0, release := 0 }

/-- The limiter's part of a block, given the block peak (R178, R179). -/
def Channel.limit (c : Channel) (level : Option Nat) (peak : Nat) : Channel :=
  match level with
  | none => c
  | some v =>
    if v < peak then { c with lrDue := limiterFall peak v, release := 0 }
    else if c.release + 1 = 16 then { c with release := 0, lr := if c.lr < 0 then c.lr + 1 else c.lr }
    else { c with release := c.release + 1 }

/-- The limiter of a channel at a block. -/
def State.limitBlock (s : State) (c : Fin 12) (peak : Nat) : State :=
  s.setChan c ((s.chan c).limit (s.ceilingLevel c) peak)

/-- The limiter's part of a block reads the peak of the block just played (R175, R178). -/
def State.limitPart (s : State) (c : Fin 12) : State := s.limitBlock c (s.chan c).blockPeak

/-- LIMITER_RELEASE occurs: the peak does not exceed the ceiling level, and the release count reaches 16 (R179). -/
def State.limiterReleaseOccurs (c : Fin 12) (s : State) : Bool :=
  match s.ceilingLevel c with
  | none => false
  | some v => decide ((s.chan c).blockPeak ≤ v) && decide ((s.chan c).release + 1 = 16)

end Sys2Proof.Machine
end

