-- ==== Sys2Proof/Machine/Protection.lean ====
section
/-! DEFINITION. The protection unit (chapter 10): the thermal record, the pair records, and their parts of an output
block. -/

namespace Sys2Proof.Machine

open Sys2Proof

/-! ## Reports (R195) -/

/-- A PROTECT_STATE report (R195, 11.3). -/
def State.protectReport (s : State) (n : Fin 6) : State :=
  let r := s.pair n
  s.raise .protectState n.val
    [BitVec.ofNat 8 n.val, BitVec.ofNat 8 r.state.code, optByte (r.cause.map ProtectCause.code), BitVec.ofNat 8 r.used,
      BitVec.ofNat 8 r.limit, BitVec.ofNat 8 r.detect, flagByte r.lastLine]

/-- A THERMAL report (R195, 11.3). -/
def State.thermalReport (s : State) : State :=
  let r := s.thermal
  s.raise .thermal 0
    ([flagByte r.warning, flagByte r.escalation] ++ leBytesInt 1 r.t ++ leBytesInt 1 r.tTarget ++ [flagByte r.lastLine])

/-! ## The thermal record (R193, R194) -/

/-- t at a block: the timer rises while t differs from its target, and t moves at 8 (R193). -/
def Thermal.moveT (r : Thermal) : Thermal :=
  if r.t = r.tTarget then { r with tTimer := 0 }
  else if r.tTimer + 1 = 8 then { r with tTimer := 0, t := moveToward r.tTarget 1 r.t }
  else { r with tTimer := r.tTimer + 1 }

/-- The runs at a block (R193). -/
def Thermal.countRuns (r : Thermal) (line : Bool) : Thermal :=
  if line then { r with assertedRun := min 30000 (r.assertedRun + 1), deassertedRun := 0, lastLine := true }
  else { r with deassertedRun := min 6000 (r.deassertedRun + 1), assertedRun := 0, lastLine := false }

/-- A change of the t target sets the timer to 0 (R193). -/
def Thermal.aim (r : Thermal) (target : Int) : Thermal :=
  if r.tTarget = target then r else { r with tTarget := target, tTimer := 0 }

/-- The warning at a block (R193). -/
def Thermal.warn (r : Thermal) : Thermal :=
  if r.assertedRun = 100 ∧ r.warning = false then { r with warning := true }.aim (-12)
  else if r.deassertedRun = 6000 ∧ r.warning = true then { r with warning := false }.aim 0
  else r

/-- Escalation at a block (R194). -/
def Thermal.escalate (r : Thermal) : Thermal :=
  if r.assertedRun = 30000 ∧ r.escalation = false then { r with escalation := true }
  else if r.deassertedRun = 6000 ∧ r.escalation = true then { r with escalation := false }
  else r

/-- The thermal record at a block, with the line as sampled (R193, R194). -/
def Thermal.block (r : Thermal) (line : Bool) : Thermal := ((r.moveT.countRuns line).warn).escalate

/-- The thermal record's part of an output block: one THERMAL when the warning or escalation changes (R195). -/
def State.thermalBlock (s : State) (line : Bool) : State :=
  let r := s.thermal.block line
  let s1 := { s with thermal := r, pins := { s.pins with therm := line } }
  if r.warning = s.thermal.warning ∧ r.escalation = s.thermal.escalation then s1 else s1.thermalReport

/-- The warning is set at the coming block if its sample is asserted (R193). -/
def Thermal.warningOccurs (r : Thermal) : Bool := decide (r.assertedRun = 99) && !r.warning

/-- The warning is cleared at the coming block if its sample is deasserted (R193). -/
def Thermal.clearOccurs (r : Thermal) : Bool := decide (r.deassertedRun = 5999) && r.warning

/-- Escalation is set at the coming block if its sample is asserted (R194). -/
def Thermal.escalationOccurs (r : Thermal) : Bool := decide (r.assertedRun = 29999) && !r.escalation

/-- t moves at the coming block (R193). -/
def Thermal.stepOccurs (r : Thermal) : Bool := decide (r.t ≠ r.tTarget) && decide (r.tTimer + 1 = 8)

/-! ## The pairs (R184 to R190) -/

/-- The cause of an entry to PROTECT (R185). -/
def protectCause (line : Bool) : ProtectCause := if line then .line else .thermal

/-- A pair enters PROTECT from NORMAL or SOFT_START (R185). -/
def State.enterProtect (s : State) (n : Fin 6) (line : Bool) : State :=
  let s1 := s.setPair n
    { s.pair n with state := .protect, cause := some (protectCause line), asserted := 0, normalRun := 0 }
  (s1.mapPair n Channel.protectNow).protectReport n

/-- A pair enters SOFT_START (R188). -/
def State.enterSoftStart (s : State) (n : Fin 6) (r : Pair) : State :=
  (s.setPair n { r with state := .softStart, asserted := 0 }).mapPair n Channel.softStartNow

/-- The clear counter runs out (R187). -/
def State.recoverExpiry (s : State) (n : Fin 6) : State :=
  let r := { s.pair n with clear := 0 }
  if r.used < r.limit then s.enterSoftStart n { r with used := r.used + 1 }
  else (s.setPair n { r with state := .lockout, asserted := 0 }).protectReport n

/-- A NORMAL or SOFT_START pair's counters at a block (R184, R189). The normal run is counted before the entry to PROTECT is
tested: where both fall on one block, retries used is 0 at that entry and in its report. R185 and R189 give the two no
order; this one is the model's choice (log 58). -/
def Pair.count (r : Pair) (cond : Bool) : Pair :=
  let r1 := { r with asserted := if cond then min 64 (r.asserted + 1) else 0 }
  if r.state ≠ .normal then r1
  else
    let n := min 60000 (r.normalRun + 1)
    { r1 with normalRun := n, used := if n = 60000 ∧ r.normalRun ≠ 60000 then 0 else r.used }

/-- A pair's part of an output block, with its line as sampled (R184 to R190). -/
def State.pairBlock (s : State) (n : Fin 6) (line : Bool) : State :=
  let r := { s.pair n with lastLine := line }
  let cond := s.faultCondition line
  match r.state with
  | .normal | .softStart =>
    let r1 := r.count cond
    let s1 := s.setPair n r1
    if cond && decide (r1.detect ≤ r1.asserted) then s1.enterProtect n line else s1
  | .protect =>
    if cond then s.setPair n r
    else s.setPair n { r with state := .recoverWait, clear := 500, asserted := 0 }
  | .recoverWait =>
    if cond then s.setPair n { r with state := .protect, clear := 0, cause := some (protectCause line) }
    else if r.clear ≤ 1 then (s.setPair n r).recoverExpiry n
    else s.setPair n { r with clear := r.clear - 1 }
  | .lockout => s.setPair n r

/-- The pair's fault line as seen, among the six (11.8). -/
def setLine (faults : BitVec 6) (n : Fin 6) (line : Bool) : BitVec 6 :=
  if line then faults ||| (1#6 <<< n.val) else faults &&& ~~~(1#6 <<< n.val)

/-- A pair's part of a block: its line is sampled and the pair acts on it (R184). -/
def State.pairPart (s : State) (n : Fin 6) (line : Bool) : State :=
  { s with pins := { s.pins with faults := setLine s.pins.faults n line } }.pairBlock n line

/-- The pair enters PROTECT (R185). -/
def Pair.protectOccurs (r : Pair) (cond : Bool) : Bool :=
  (decide (r.state = .normal) || decide (r.state = .softStart)) && cond && decide (r.detect ≤ min 64 (r.asserted + 1))

/-- The clear counter runs out (R187). -/
def Pair.expiryOccurs (r : Pair) (cond : Bool) : Bool :=
  decide (r.state = .recoverWait) && !cond && decide (r.clear ≤ 1)

/-- The normal run reaches 60 000 (R189). -/
def Pair.runOccurs (r : Pair) (_ : Bool) : Bool := decide (r.state = .normal) && decide (r.normalRun = 59999)

/-! ## The soft start (R176, R177, R188) -/

/-- The soft start of a pair ends (R177, R188): flags and counts cleared, NORMAL, PROTECT_STATE. -/
def State.endSoftStart (s : State) (n : Fin 6) : State :=
  let s1 := s.mapPair n fun c => { c with softStart := false, softCount := 0 }
  if (s.pair n).state = .softStart then
    (s1.setPair n { s1.pair n with state := .normal, normalRun := 0 }).protectReport n
  else s1

/-- The end of a pair's soft start at a block. -/
def State.softStartBlock (s : State) (n : Fin 6) : State := if s.softStartDone n then s.endSoftStart n else s

/-- The soft-start count of a channel reaches 4 at the coming block (R176). -/
def State.softCountOccurs (c : Fin 12) (s : State) : Bool :=
  let r := s.chan c
  r.softStart && !r.held && decide (r.ramp ≠ 0) && decide (r.softCount + 1 = 4) && !s.thermal.lastLine

/-! ## RESTART (R182, R196) -/

/-- RESTART for a pair (R196). -/
def Pair.restart (r : Pair) : Pair :=
  { r with
    state := if r.state = .lockout then .lockout else .normal
    asserted := 0, clear := 0, normalRun := 0 }

/-- RESTART for a channel, after the groups have applied and the pairs have taken their restart state (R182). -/
def State.restartChannel (s : State) (c : Fin 12) : State :=
  let r := s.chan c
  let locked := decide ((s.pair (pairOf c)).state ≠ .normal)
  let r1 := { r with appliedAv := if r.applied.role = Role.unused then 0 else s.avOf r.zone }
  s.setChan c
    { r1 with
      ramp := if locked then -240 else 0
      reconfig := false
      protect := r.protect && locked
      softStart := false
      softCount := 0
      lr := 0
      lrDue := 0
      release := 0
      crossover := CrossoverState.cleared
      line := zeros r1.appliedAlloc }

/-- RESTART for outputs and protection (R182, R196): waiting groups apply, pairs, then channels. -/
def State.restartOutputs (s : State) : State :=
  let s1 := forEach (fun g t => t.applyGroup g) (List.finRange 12) s
  let s2 := { s1 with pairs := s1.pairs.map Pair.restart }
  forEach (fun c t => t.restartChannel c) (List.finRange 12) s2

end Sys2Proof.Machine
end

