-- ==== Sys2Proof/Machine/Mixer.lean ====
section
/-! DEFINITION. The mixer (chapter 6): role signals, the matrix, the fold, the zone 2 downmix and the tap points. -/

namespace Sys2Proof.Machine

open Sys2Proof

/-! ## Role signals (R110) -/

/-- The twelve source roles, in code order (R197). -/
def sourceRoles : List Role := [.fl, .fr, .c, .lfe, .sl, .sr, .bl, .br, .tfl, .tfr, .tbl, .tbr]

/-- The sample a frame gives a role: that of the channel with the role, 0 when there is none (R110). -/
def roleSample : List Role → Frame → Role → Sample
  | [], _, _ => 0
  | r :: rs, f, x => if r = x then f.headD 0 else roleSample rs (f.drop 1) x

/-- The role signals of one frame: a sample for each role that is not silent by its place. -/
abbrev RoleFrame := List (Role × Sample)

/-- The sample of a role in a role frame; a role not listed is silent. -/
def RoleFrame.get : List (Role × Sample) → Role → Sample
  | [], _ => 0
  | (r, x) :: rs, q => if r = q then x else RoleFrame.get rs q

/-- The role signals of a frame of a format. -/
def roleFrame (roles : List Role) (f : Frame) : List (Role × Sample) := sourceRoles.map fun r => (r, roleSample roles f r)

/-- A block of silent role signals. -/
def silentRoles : List (List (Role × Sample)) := List.replicate 48 []

/-- The frames a path yields in the block, as role signals (R110). -/
def PathRec.roleFrames (p : PathRec) : List (List (Role × Sample)) :=
  match p.yieldFormat with
  | none => silentRoles
  | some f => (fillBlock p.yielded).map (roleFrame f.roles)

/-- The role signals of a zone's attached path; silence when there is none (R110). -/
def State.zoneRoles (s : State) (z : Zone) : List (List (Role × Sample)) :=
  match (s.zone z).attached with
  | none => silentRoles
  | some p => (s.path p).roleFrames

/-! ## The matrix (R112 to R118) -/

/-- The mid of a frame (R114). -/
def midOf (l r : Sample) : Sample := asr (l + r) 1

/-- The side of a frame (R114). -/
def sideOf (l r : Sample) : Sample := asr (l - r) 1

/-- A block energy: the sum over the block's frames of the square shifted right by 24 (R114). -/
def blockEnergy (xs : List Sample) : Nat := sumNat (xs.map fun x => (x * x).toNat / 2 ^ 24)

/-- How far a falling energy shifts its step (R115). -/
def fallShift : DecodeMode → Nat
  | .matrixMusic => 6
  | .direct | .matrixCinema => 4

/-- A detector energy moves toward its block energy (R115). -/
def moveEnergy (mode : DecodeMode) (e x : Nat) : Nat :=
  let d : Int := (x : Int) - e
  ((e : Int) + (if 0 < d then asr d 1 else asr d (fallShift mode))).toNat

/-- A steering value, truncating toward zero, 0 when the denominator is 0 (R116). -/
def steering (a b : Nat) : Int := if a + b = 0 then 0 else (((a : Int) - b) * 4096).tdiv (a + b)

/-- The centre gain (R117). -/
def gainC (mode : DecodeMode) (fb : Int) : Int :=
  match mode with
  | .matrixMusic => (max 0 fb).tdiv 2
  | .direct | .matrixCinema => max 0 fb

/-- The side cancellation gain (R117). -/
def gainD (fb : Int) : Int := max 0 (-fb)

/-- The surround gain (R117). -/
def gainS (fb : Int) : Int := gainD fb + asr (4096 - |fb|) 2

/-- The matrix on one frame (R118). -/
def matrixFrame (mode : DecodeMode) (fb lr : Int) (l r : Sample) : List (Role × Sample) :=
  let m := midOf l r
  let sd := sideOf l r
  let c := saturate (asr (gainC mode fb * m) 12)
  let d := saturate (asr (gainD fb * sd) 12)
  let ss := saturate (asr (gainS fb * sd) 12)
  [(.fl, saturate (l - c - d)), (.fr, saturate (r - c + d)), (.c, c),
    (.sl, saturate (asr (ss * (4096 + lr)) 13)), (.sr, saturate (-(asr (ss * (4096 - lr)) 13)))]

/-- The format of the frames MAIN's attached path yields, which R112 and the model take for the path's current format
(log 37); a path that MAIN's switch has bound after the paths' part of the block has yielded none, so the matrix is not in
effect in that block. -/
def State.mainFormat (s : State) : Option Format :=
  match s.zoneMain.attached with
  | none => none
  | some p => (s.path p).yieldFormat

/-- The detector and the steering values of a block with the matrix in effect (R114 to R116). -/
def Mixer.detect (x : Mixer) (mode : DecodeMode) (fs : List (List (Role × Sample))) : Mixer :=
  let ls := fs.map fun f => RoleFrame.get f .fl
  let rs := fs.map fun f => RoleFrame.get f .fr
  let ms := fs.map fun f => midOf (RoleFrame.get f .fl) (RoleFrame.get f .fr)
  let ss := fs.map fun f => sideOf (RoleFrame.get f .fl) (RoleFrame.get f .fr)
  let y := { x with
    eL := moveEnergy mode x.eL (blockEnergy ls)
    eR := moveEnergy mode x.eR (blockEnergy rs)
    eM := moveEnergy mode x.eM (blockEnergy ms)
    eS := moveEnergy mode x.eS (blockEnergy ss) }
  { y with matrix := true, fb := steering y.eM y.eS, lr := steering y.eL y.eR }

/-- The mixer in a block in which the matrix is not in effect (R114, R125). -/
def Mixer.plain (x : Mixer) : Mixer := { x with eL := 0, eR := 0, eM := 0, eS := 0, fb := 0, lr := 0, matrix := false }

/-- The mixer's part of a block: whether the matrix is in effect, its energies and steering values, the layout as read
(R111 to R116). -/
def State.mixBlock (s : State) : State :=
  let x := { s.mixer with layout := s.layout }
  let y := if matrixOn s.zoneMain.decode s.mainFormat then x.detect s.zoneMain.decode (s.zoneRoles .main) else x.plain
  { s with mixer := y }

/-- The energies start again from 0 after a block in which MAIN's path adopted a format (R114): what the block's old
frames have moved them to does not reach the new format's. That they are set to 0 a second time, after the adoption
itself has done so, is the model's reading (log 37). -/
def State.mixAfterAdoption (s : State) : State :=
  match s.zoneMain.attached with
  | none => s
  | some p => if (s.path p).adoptedNow then s.zeroEnergies else s

/-- The main zone's role signals after the matrix, if it is in effect (R118, R120). -/
def State.mainRoles (s : State) : List (List (Role × Sample)) :=
  if s.mixer.matrix then
    (s.zoneRoles .main).map fun f =>
      matrixFrame s.zoneMain.decode s.mixer.fb s.mixer.lr (RoleFrame.get f .fl) (RoleFrame.get f .fr)
  else s.zoneRoles .main

/-! ## The fold (R119 to R121) -/

/-- The fallbacks of a role without a speaker, in order; each step names the speakers it adds to, and whether at -6
steps (R120, R121). -/
def fallbacks : Role → List (List Role × Bool)
  | .c => [([.fl, .fr], true)]
  | .sl => [([.fl], true)]
  | .sr => [([.fr], true)]
  | .bl => [([.sl], false), ([.fl], true)]
  | .br => [([.sr], false), ([.fr], true)]
  | .tfl => [([.fl], true)]
  | .tfr => [([.fr], true)]
  | .tbl => [([.tfl], false), ([.sl], true), ([.fl], true)]
  | .tbr => [([.tfr], false), ([.sr], true), ([.fr], true)]
  | .lfe => [([.fl, .fr], false)]
  | .none | .fl | .fr | .sw | .z2l | .z2r | .unused => []

/-- The speakers that take a role's signal, and whether at -6 steps: those of its first fallback present (R120). -/
def foldStep (layout : List Role) : List (List Role × Bool) → List Role × Bool
  | [] => ([], false)
  | (rs, six) :: more =>
    let here := rs.filter fun r => decide (r ∈ layout)
    if here = [] then foldStep layout more else (here, six)

/-- The speakers a source role folds into: none when its own speaker is present, and none for LFE when SW is (R120,
R121). -/
def foldOf (layout : List Role) (r : Role) : List Role × Bool :=
  if r ∈ layout ∨ (r = .lfe ∧ Role.sw ∈ layout) then ([], false) else foldStep layout (fallbacks r)

/-- What one source role adds to a destination in one frame. -/
def contribution (layout : List Role) (f : List (Role × Sample)) (dest r : Role) : Int :=
  let t := foldOf layout r
  if dest ∈ t.1 then (if t.2 then minus6 (RoleFrame.get f r) else RoleFrame.get f r) else 0

/-- A destination signal in one frame: the own signal and every contribution, saturated once (R120). -/
def foldFrame (layout : List Role) (f : List (Role × Sample)) (dest : Role) : Sample :=
  saturate (RoleFrame.get f dest + sumInt (sourceRoles.map (contribution layout f dest)))

/-- The LFE feed of a block: the LFE signal, unscaled and unfolded (R121). -/
def State.lfeFeed (s : State) : List Sample := s.mainRoles.map fun f => RoleFrame.get f .lfe

/-! ## The zone 2 downmix (R122, R123) -/

/-- The downmix of one frame (R122). -/
def downmixFrame (f : List (Role × Sample)) : Sample × Sample :=
  let x (r : Role) : Int := minus6 (RoleFrame.get f r)
  (saturate (RoleFrame.get f .fl + x .c + x .sl + x .bl + x .tfl + x .tbl),
    saturate (RoleFrame.get f .fr + x .c + x .sr + x .br + x .tfr + x .tbr))

/-- A path is in a mono block by its tuner's band (R123). -/
def State.amPath (s : State) (p : PathId) : Bool := decide (s.pathKind p = .tuner) && decide (s.tuner.band = .am)

/-- A path's format has exactly one channel (R123). -/
def PathRec.oneChannel (p : PathRec) : Bool :=
  match p.yieldFormat with
  | none => false
  | some f => decide (f.roles.length = 1)

/-- The zone 2 downmix of a path's block (R122, R123). -/
def State.downmix (s : State) (p : PathId) : List (Sample × Sample) :=
  let r := s.path p
  if r.oneChannel then (fillBlock r.yielded).map fun f => (saturate (minus6 (f.headD 0)), saturate (minus6 (f.headD 0)))
  else if s.amPath p then
    r.roleFrames.map fun f =>
      let x := saturate (minus6 (midOf (RoleFrame.get f .fl) (RoleFrame.get f .fr)))
      (x, x)
  else r.roleFrames.map downmixFrame

/-- The downmix of a zone's attached path; 0 when there is none (R122, R124). -/
def State.zoneDownmix (s : State) (z : Zone) : List (Sample × Sample) :=
  match (s.zone z).attached with
  | none => List.replicate 48 (0, 0)
  | some p => s.downmix p

/-- The frames of a tap point (R124). -/
def State.tapPoint (s : State) : TapPoint → List (Sample × Sample)
  | .mainDownmix => s.zoneDownmix .main
  | .zone2Mix => s.zoneDownmix .zone2
  | .tuner =>
    match s.tunerPath with
    | none => List.replicate 48 (0, 0)
    | some p => (s.path p).roleFrames.map fun f => (RoleFrame.get f .fl, RoleFrame.get f .fr)

end Sys2Proof.Machine
end

