-- ==== Sys2Proof/Machine/Mirror.lean ====
section
/-! DEFINITION. The mirror (R23 to R25): the bytes of the six sections (11.6), their placing in the injection queue, and
the handover of the meters (R181). -/

namespace Sys2Proof.Machine

open Sys2Proof

/-! ## Records (11.6) -/

/-- The byte of a number. -/
def byteOf (n : Nat) : Byte := BitVec.ofNat 8 n

/-- The length byte of a label; absent is 0xFF (11.6). -/
def labelLen (l : Option (List Byte)) : Byte := optByte (l.map List.length)

/-- The eight bytes of a label. -/
def labelBytes (l : Option (List Byte)) : List Byte := padTo 8 (l.getD [])

/-- A meter channel record, from the values handed over (R181). -/
def meterRecord (m : MeterHold) (lr : Int) : List Byte :=
  padTo 8 ([byteOf (meterReading m.peak), flagByte m.clip] ++ leBytesInt 1 lr ++ [0] ++ leBytes 2 m.blocks)

/-- A zone record. R75 keeps a decode mode for MAIN only; byte 17 of ZONE2's record shows DIRECT (log 65). -/
def State.zoneRecord (s : State) (z : Zone) : List Byte :=
  let r := s.zone z
  padTo 32
    ([byteOf r.power.code, byteOf r.switch.code, optByte (r.selection.map (·.val)), optByte (r.target.map (·.val)),
        optByte (r.attached.map PathId.code), flagByte r.mute, byteOf r.rampRate, byteOf r.ceiling]
      ++ leBytesInt 2 r.masterTarget ++ leBytesInt 2 r.masterCurrent ++ leBytesInt 2 r.ramp ++ leBytes 2 r.avDelay
      ++ [byteOf r.sleep, byteOf r.decode.code, flagByte (s.ownsTuner z), 0] ++ leBytes 2 r.waitCount
      ++ leBytes 2 r.minute)

/-- The code of a path's attached-zone set (R197). -/
def State.attachedCode (s : State) (p : PathId) : Nat :=
  (if s.attachedTo .main p then 1 else 0) + (if s.attachedTo .zone2 p then 2 else 0)

/-- The format bytes of a path record: channel count, rate code; 0xFF for an absent format. -/
def formatHead (f : Option Format) : List Byte :=
  match f with
  | none => [0xFF, 0xFF]
  | some f => [byteOf f.roles.length, byteOf f.rate.code]

/-- The role bytes of a path record; 0xFF for an absent format. -/
def formatRoles (f : Option Format) : List Byte :=
  match f with
  | none => List.replicate 8 0xFF
  | some f => padTo 8 (f.roles.map fun r => byteOf r.code)

/-- A path record. -/
def State.pathRecord (s : State) (p : PathId) : List Byte :=
  let r := s.path p
  let t := r.tracker
  padTo 64
    ([r.sourceByte, byteOf (s.attachedCode p), byteOf t.state.code, flagByte r.format.isSome] ++ formatHead r.format
      ++ [flagByte r.formatPending, flagByte t.ratchet] ++ formatRoles r.format ++ leBytes 2 r.fifo.length
      ++ leBytes 2 (s.buffered p) ++ leBytesInt 2 t.err ++ [byteOf t.gain, 0] ++ leBytesInt 4 t.corr
      ++ leBytesInt 4 t.integ ++ leBytes 4 (t.step.getD 0) ++ leBytes 4 t.phase ++ leBytes 2 t.timer
      ++ [byteOf t.slips, flagByte t.overrun])

/-- A STREAM entry whose window index does not hold a STREAM window is unbound-window (R67). -/
def State.unboundWindow (s : State) (e : SourceEntry) : Bool :=
  decide (e.kind = .stream) && (match e.window with
    | none => true
    | some w => match s.window w with
      | .stream _ _ _ => false
      | .free | .anchor _ | .tap _ _ _ | .mirror _ => true)

/-- A source record. -/
def State.sourceRecord (s : State) (i : Fin 12) : List Byte :=
  let e := s.source i
  let lanes := e.lanes.map fun l => byteOf l.val
  [byteOf e.kind.code, optByte (e.window.map (·.val)), labelLen e.label, flagByte (s.unboundWindow e)]
    ++ labelBytes e.label ++ lanes ++ List.replicate (4 - lanes.length) 0xFF

/-- The mixer record. -/
def mixerRecord (x : Mixer) : List Byte :=
  padTo 24 ([flagByte x.matrix, 0] ++ leBytesInt 2 x.fb ++ leBytesInt 2 x.lr
    ++ layoutOrder.map fun r => flagByte (decide (r ∈ x.layout)))

/-- A lane record; an absent received configuration leaves its bytes at zero. -/
def laneRecord (r : LaneRec) : List Byte :=
  padTo 16
    ([flagByte r.enable, byteOf r.state.code, byteOf r.errors, byteOf r.threshold, flagByte r.replacement,
        flagByte r.realign.isSome, byteOf (r.realign.getD 0), byteOf r.silence, flagByte r.config.isSome]
      ++ (match r.config with
          | none => []
          | some c => [byteOf c.group, byteOf c.index, byteOf c.count, byteOf c.rate.code, byteOf c.width,
              byteOf c.role1.code, byteOf c.role2.code]))

/-- A pair record. -/
def pairRecord (r : Pair) : List Byte :=
  padTo 16
    ([byteOf r.state.code, byteOf r.detect, byteOf r.limit, byteOf r.used, optByte (r.cause.map ProtectCause.code),
        flagByte r.lastLine, byteOf r.asserted, 0] ++ leBytes 2 r.clear ++ leBytes 2 r.normalRun)

/-- The thermal record's bytes. -/
def thermalRecord (r : Thermal) : List Byte :=
  padTo 16
    ([flagByte r.warning, flagByte r.escalation] ++ leBytesInt 1 r.t ++ leBytesInt 1 r.tTarget
      ++ [byteOf r.tTimer, flagByte r.lastLine, 0, 0] ++ leBytes 2 r.assertedRun ++ leBytes 2 r.deassertedRun)

/-- A preset record: all zero when empty. -/
def presetRecord (p : Option Preset) : List Byte :=
  match p with
  | none => List.replicate 16 0
  | some p => [1, byteOf p.band.code, labelLen p.label, 0] ++ leBytes 4 p.freq ++ labelBytes p.label

/-- A station record. -/
def stationRecord (x : Station) : List Byte :=
  [byteOf x.band.code, flagByte x.stereo, byteOf x.level, labelLen x.label] ++ leBytes 4 x.freq ++ labelBytes x.label

/-- The tuner and region record. -/
def State.regionRecord (s : State) : List Byte :=
  let t := s.tuner
  let r := s.region
  padTo 32
    ([t.identity, flagByte t.identified, byteOf t.blend, byteOf t.blendTarget] ++ leBytes 2 r.fmStep
      ++ [byteOf r.amGrid, byteOf r.fmLevel, byteOf r.amLevel, byteOf r.fmOffset, byteOf r.amOffset, byteOf r.errK,
        byteOf r.blendLo, byteOf r.blendHi, flagByte r.forcedMono, byteOf s.stations.length]
      ++ leBytes 4 r.ampLow ++ leBytes 4 r.ampHigh)

/-! ## Sections (11.6) -/

/-- Where a section begins in the window (11.6). -/
def sectionStart : SnapSection → Nat
  | .meters => 0
  | .zonesPaths => 256
  | .lanes => 1024
  | .protection => 1280
  | .presets => 1536
  | .stations => 2560

/-- The length of a section's range (11.6). -/
def sectionLength : SnapSection → Nat
  | .meters => 256
  | .zonesPaths => 768
  | .lanes => 256
  | .protection => 256
  | .presets => 768
  | .stations => 1280

/-- The values the meter section shows: the sent copy that the handover has just made (R181). -/
def State.meterBody (s : State) : List Byte :=
  (List.finRange 12).flatMap fun c =>
    meterRecord (match s.out.sent with
      | none => { peak := 0, clip := false, blocks := 0 }
      | some v => getAt v c) (s.chan c).lr

/-- The body of a section, from offset 8 on (11.6). -/
def State.sectionBody (s : State) : SnapSection → List Byte
  | .meters => s.meterBody
  | .zonesPaths =>
    s.zoneRecord .main ++ s.zoneRecord .zone2 ++ s.pathRecord .p0 ++ s.pathRecord .p1
      ++ (List.finRange 12).flatMap s.sourceRecord ++ mixerRecord s.mixer
  | .lanes =>
    ((List.finRange 4).flatMap fun l => laneRecord (s.lane l))
      ++ (List.finRange 12).map fun e => optByte ((s.group e).map fun g => g.stage.code)
  | .protection => ((List.finRange 6).flatMap fun n => pairRecord (s.pair n)) ++ thermalRecord s.thermal
  | .presets => s.presets.toList.flatMap presetRecord
  | .stations => s.regionRecord ++ s.stations.flatMap stationRecord

/-- The whole of a section with its head and tail (R24, 11.6). -/
def sectionBytes (sect : SnapSection) (count : BitVec 16) (body : List Byte) : List Byte :=
  padTo (sectionLength sect - 8) (leBytes 2 count.toNat ++ [byteOf sect.code] ++ List.replicate 5 0 ++ body)
    ++ leBytes 2 count.toNat ++ List.replicate 6 0

/-- Cut a run of bytes into pieces at their offsets in the window. R24 keeps each write within one aligned 64-byte block,
the head first and the tail last; that the pieces are whole blocks in rising order of address is the model's choice
(log 44). -/
def cutPieces : Nat → Nat → List Byte → List (Nat × List Byte)
  | 0, _, _ => []
  | n + 1, off, bs => if bs.isEmpty then [] else (off, bs.take 64) :: cutPieces n (off + 64) (bs.drop 64)

/-- The place of a section among the write counts. -/
def sectionIndex : SnapSection → Fin 6
  | .meters => 0
  | .stations => 1
  | .presets => 2
  | .lanes => 3
  | .zonesPaths => 4
  | .protection => 5

/-! ## The meters (R180, R181) -/

/-- The held meter values of a channel. -/
def Channel.held3 (c : Channel) : MeterHold := { peak := c.heldPeak, clip := c.heldClip, blocks := c.heldBlocks }

/-- A handover: the held values of every channel move to the sent copy (R181). -/
def State.handMeters (s : State) : State :=
  { s with out := { s.out with
      sent := some (s.out.channels.map Channel.held3)
      channels := s.out.channels.map fun c => { c with heldPeak := 0, heldClip := false, heldBlocks := 0 } } }

/-- A discarded section's values are merged back into a channel's held values (R181). -/
def Channel.mergeBack (c : Channel) (m : MeterHold) : Channel :=
  { c with
    heldPeak := max c.heldPeak m.peak, heldClip := c.heldClip || m.clip
    heldBlocks := min 65535 (c.heldBlocks + m.blocks) }

/-- The sent copy is merged back (R181). -/
def State.mergeSent (s : State) : State :=
  match s.out.sent with
  | none => s
  | some v =>
    { s with out := { s.out with
        sent := none
        channels := Vector.ofFn fun i => (s.out.channels[i]).mergeBack v[i] } }

/-! ## Placing a section (R23, R24) -/

/-- The mirror discards the section it is placing (R6, R24, R27). -/
def State.dropSection (s : State) : State :=
  match s.mirror.job with
  | none => s
  | some j =>
    let s1 := { s with mirror := { s.mirror with job := none } }
    if j.sect = .meters then s1.mergeSent else s1

/-- The section's last write is in the queue: a meter section counts as written (R181). -/
def State.sectionDone (s : State) (sect : SnapSection) : State :=
  let s1 := { s with mirror := { s.mirror with job := none } }
  if sect = .meters then { s1 with out := { s1.out with sent := none } } else s1

/-- The mirror places the next write of its section, when there is room (R10, R24). -/
def State.mirrorMove (s : State) : State :=
  match s.mirror.job, s.mirrorBase with
  | none, _ => s
  | some _, none => s.dropSection
  | some j, some base =>
    match j.pieces with
    | [] => s.sectionDone j.sect
    | (off, bs) :: rest =>
      if s.room = false then s
      else
        let s1 := { s with mirror := { s.mirror with job := some { j with pieces := rest } } }.enqueue
          { write := fullWrite (base + off) bs, origin := .sect }
        if rest = [] then s1.sectionDone j.sect else s1

/-- Moves of the mirror, at most `n`; each does nothing when there is no room. -/
def State.mirrorPump : Nat → State → State
  | 0, s => s
  | n + 1, s => State.mirrorPump n s.mirrorMove

/-- The mirror begins a section (R24): the write count rises, the copy is taken as it stands, and its writes are placed
as far as there is room. -/
def State.beginSection (s : State) (sect : SnapSection) (periodic : Bool) : State :=
  let s0 := if sect = .meters then s.handMeters else s
  let count := getAt s0.mirror.counts (sectionIndex sect) + 1
  let bytes := sectionBytes sect count (s0.sectionBody sect)
  State.mirrorPump 20
    { s0 with mirror := { s0.mirror with
        counts := setAt s0.mirror.counts (sectionIndex sect) count
        job := some { sect := sect, pieces := cutPieces 20 (sectionStart sect) bytes, periodic := periodic } } }

/-- The end of a meter period: the section is handed over while the setting is on, a MIRROR window is defined and the
mirror is not placing an earlier section (R25, R181). -/
def State.meterPeriod (s : State) : State :=
  if s.mirror.metersOn = true ∧ s.mirrorBase.isSome = true ∧ s.mirror.job = none then s.beginSection .meters true else s

/-- The meter period count's part of a block (R181). -/
def State.meterBlock (s : State) : State :=
  let n := (s.out.meterPeriod + 1) % 100
  let s1 := { s with out := { s.out with meterPeriod := n } }
  if n = 0 then s1.meterPeriod else s1

end Sys2Proof.Machine
end

