-- ==== Sys2Proof/Machine/Sound.lean ====
section
/-! DEFINITION. What the channels play in a block (chapter 9): input, bass management, delay, gain, output and the held
meter values. -/

namespace Sys2Proof.Machine

open Sys2Proof

/-! ## Bass management (R172, R173) -/

/-- What a split channel's filters leave: both bands and the filter state (R172). -/
structure Split where
  high  : List Sample
  low   : List Int
  state : CrossoverState
  deriving DecidableEq, Repr

/-- One sample enters a band filter's history. -/
def pushHistory (x : Int) (xs : List Int) : List Int := (x :: xs).take Config.crossoverOrder

/-- The two band filters over the block (R172): both bands are free values (log 7), the high band saturated. -/
def splitFrames (n channel crossover : Nat) : CrossoverState → List Sample → Split
  | st, [] => { high := [], low := [], state := st }
  | st, x :: xs =>
    let lo := Config.lowBand n channel crossover st.inputs st.lows x
    let hi := Config.highBand n channel crossover st.inputs st.highs x
    let r := splitFrames n channel crossover
      { inputs := pushHistory x st.inputs, lows := pushHistory lo st.lows, highs := pushHistory hi st.highs } xs
    { high := saturate hi :: r.high, low := lo :: r.low, state := r.state }

/-- A channel is split (R172, R173). -/
def State.isSplit (s : State) (c : Fin 12) : Bool :=
  let r := s.chan c
  decide (Role.sw ∈ s.mixer.layout) && decide (r.zone = some .main) && decide (r.applied.size = .small)
    && decide (r.applied.role ≠ .sw)

/-- The destination signal of a channel's role in the block (R162, stage 1); an SW channel takes the subwoofer feed
instead. -/
def State.destination (s : State) (c : Fin 12) : List Sample :=
  let r := (s.chan c).applied.role
  match r with
  | .unused | .none | .lfe | .sw => zeros 48
  | .z2l => (s.zoneDownmix .zone2).map Prod.fst
  | .z2r => (s.zoneDownmix .zone2).map Prod.snd
  | .fl | .fr | .c | .sl | .sr | .bl | .br | .tfl | .tfr | .tbl | .tbr =>
    s.mainRoles.map fun f => foldFrame s.mixer.layout f r

/-- The bands of a channel's destination signal: a channel that is not split passes it whole and adds nothing to the
feed (R172, R173). -/
def State.bands (s : State) (c : Fin 12) : Split :=
  if s.isSplit c then splitFrames s.freeIdx c.val s.out.crossover (s.chan c).crossover (s.destination c)
  else { high := s.destination c, low := [], state := (s.chan c).crossover }

/-- Sum of one frame of the low bands. -/
def lowSum (j : Nat) (splits : List Split) : Int := sumInt (splits.map fun x => x.low.getD j 0)

/-- The subwoofer feed of the block (R172). -/
def State.subFeed (s : State) (splits : List Split) : List Sample :=
  let lfe := s.lfeFeed
  (List.range 48).map fun j => saturate (lowSum j splits + plus20 (lfe.getD j 0))

/-! ## Delay and gain (R170, R174, R175) -/

/-- The delay stage over the block: the frames that leave it and the line it keeps (R170). -/
def delayFrames (line xs : List Sample) : List Sample × List Sample :=
  let all := line ++ xs
  (all.take xs.length, all.drop xs.length)

/-- The input trim of the source a zone plays; 0 when it has no attached path (R174). -/
def State.inputTrim (s : State) (z : Zone) : Int :=
  match (s.zone z).attached with
  | none => 0
  | some p => (s.pathSource p).trim

/-- The clamped gain index of a channel; -240 when it has no zone (R174, R175). -/
def State.gainIndex (s : State) (c : Fin 12) : Int :=
  let r := s.chan c
  match r.zone with
  | none => -240
  | some z =>
    clampInt (-240) 24
      ((s.zone z).masterCurrent + r.trim + s.inputTrim z + (s.zone z).ramp + r.ramp + r.lr + s.thermal.t)

/-- A sample leaving the gain stage, after polarity and before saturation (R175). -/
def gainSample (n : Int) (pol : Polarity) (x : Sample) : Int :=
  match pol with
  | .normal => gainScale n x
  | .inverted => -(gainScale n x)

/-- The scaled samples of a channel's block; none when its output is 0 (R175). -/
def State.scaled (s : State) (c : Fin 12) (xs : List Sample) : List Int :=
  let n := s.gainIndex c
  if n = -240 ∨ s.chanSilent c = true then [] else xs.map (gainSample n (s.chan c).applied.polarity)

/-- The block peak (R175). -/
def peakOf : List Int → Nat
  | [] => 0
  | y :: ys => max y.natAbs (peakOf ys)

/-- A sample lies outside the sample range, so it is saturated (R175). -/
def clips (y : Int) : Bool := decide (saturate y ≠ y)

/-- A channel's meters at a block (R180). -/
def Channel.meter (c : Channel) (ys : List Int) : Channel :=
  { c with
    blockPeak := peakOf ys
    heldPeak := max c.heldPeak (peakOf ys)
    heldClip := c.heldClip || ys.any clips
    heldBlocks := min 65535 (c.heldBlocks + 1) }

/-- A channel's output in a block, from the signal that enters its delay stage (R162, stages 3 to 5), with its meters
and filter state. -/
def State.playChannel (s : State) (c : Fin 12) (xs : List Sample) (st : CrossoverState) : State :=
  let r := s.chan c
  let d := delayFrames r.line xs
  let ys := s.scaled c d.1
  let s1 := s.setChan c ({ r with line := d.2, crossover := st }.meter ys)
  let out := if ys.isEmpty then zeros 48 else ys.map saturate
  { s1 with out := { s1.out with samples := setAt s1.out.samples c out } }

/-- One frame of an output lane (R163, R201): 64 bits, the sample of the even channel sign-extended to 32 bits in the
first half, that of the odd channel in the last. -/
def laneWord (even odd : Sample) : BitVec 64 := BitVec.ofInt 32 even ++ BitVec.ofInt 32 odd

/-- The frames the last block put on output lane On, of channels 2n and 2n + 1 (R163, R201). -/
def OutputUnit.laneFrames (o : OutputUnit) (n : Fin 6) : List (BitVec 64) :=
  List.zipWith laneWord (getAt o.samples ⟨2 * n.val, by omega⟩) (getAt o.samples ⟨2 * n.val + 1, by omega⟩)

/-- The output stage of a block: every channel takes its input, is split or passed whole, and plays (R162). Each channel
reads the mixer's signals and its own record only. -/
def State.soundBlock (s : State) : State :=
  let splits := (List.finRange 12).map s.bands
  let feed := s.subFeed splits
  let entry (c : Fin 12) : List Sample :=
    if (s.chan c).applied.role = .sw then feed else (splits.getD c.val { high := [], low := [], state := CrossoverState.cleared }).high
  let filter (c : Fin 12) : CrossoverState :=
    (splits.getD c.val { high := [], low := [], state := CrossoverState.cleared }).state
  forEach (fun c t => t.playChannel c (entry c) (filter c)) (List.finRange 12) s

end Sys2Proof.Machine
end

