-- ==== Sys2Proof/Machine/Commands.lean ====
section
/-! DEFINITION. The commands of the command ring (11.2): what each one checks, does and returns. How a command is taken
and its return placed stands in Ring.lean. A long operation's tag is the index of slot next, which holds its command. -/

namespace Sys2Proof.Machine

open Sys2Proof

/-- What a command leaves: the state, its result and its result value (R16). -/
structure CmdOut where
  st  : State
  res : CmdResult
  val : Int
  deriving DecidableEq, Repr

/-- A command that is refused changes nothing (R16). -/
def refuse (s : State) (r : CmdResult) : CmdOut := { st := s, res := r, val := 0 }

/-- A command that is done, with its result value. -/
def done (s : State) (v : Int) : CmdOut := { st := s, res := .ok, val := v }

/-- A long operation that has begun (R17). -/
def accepted (s : State) : CmdOut := { st := s, res := .accepted, val := 0 }

/-- Done, or done with the applied value of the first clamped argument (R16). Each pair is an argument as given and as
applied, in the order of the command's rule. -/
def clampedOr (s : State) : List (Int × Int) → CmdOut
  | [] => done s 0
  | (given, applied) :: rest => if given = applied then clampedOr s rest else { st := s, res := .clamped, val := applied }

/-- The tag of a long operation: the index of the slot that carries it (R17). -/
def State.slotTag (s : State) : Option Nat := some s.cmd.next.val

/-! ## The memory path (chapter 1) -/

/-- NOP (R18). -/
def cmdNop (s : State) : CmdOut := done s 0

/-- An opcode that is not known (R16). -/
def cmdUnknown (s : State) : CmdOut := refuse s .unknown

/-- RESTART (R18): every unit takes its restart state (R41, R48, R66, R89, R90, R109, R126, R145, R182, R196). R126 names
the energies and the steering values; that the flag "matrix in effect" is then 0 until the next block is the model's choice
(log 56). -/
def cmdRestart (s : State) : CmdOut :=
  let s1 := (s.restartZone .main).restartZone .zone2
  let s2 := ({ s1 with owner := none }.restartPath .p0).restartPath .p1
  let s3 := s2.restartTuner.restartLanes.restartOutputs.zeroEnergies
  done { s3 with mixer := { s3.mixer with fb := 0, lr := 0, matrix := false } } 0

/-- The window a DEFINE_WINDOW asks for, by its kind code (11.2, R197). -/
def askedWindow (kind base size count : Nat) : Option Window :=
  if kind = 2 then some (.stream base size count)
  else if kind = 3 then some (.tap base size count)
  else if kind = 4 then some (.mirror base)
  else none

/-- The slot fields of a window are allowed (R5, check 4). -/
def Window.slotsOk : Window → Bool
  | .stream _ size count | .tap _ size count =>
    (decide (size = 512) || decide (size = 1024) || decide (size = 2048)) && decide (2 ≤ count) && decide (count ≤ 64)
  | .free | .anchor _ | .mirror _ => true

/-- The kind number of a window (R197). -/
def Window.kindCode : Window → Nat
  | .free => 0
  | .anchor _ => 1
  | .stream _ _ _ => 2
  | .tap _ _ _ => 3
  | .mirror _ => 4

/-- The limit of a kind (R4). -/
def kindLimit (kind : Nat) : Nat := if kind = 2 then 6 else 1

/-- How many windows of a kind stand at indices other than one (R5, check 5). -/
def State.windowsOfKind (s : State) (i : Fin 16) (kind : Nat) : Nat :=
  ((List.finRange 16).filter fun j => decide (j ≠ i) && decide ((s.window j).kindCode = kind)).length

/-- The index holds a STREAM window whose source is bound to a path, or a TAP window that is bound (R5, R7). -/
def State.windowInUse (s : State) (i : Fin 16) : Bool :=
  match s.window i with
  | .stream _ _ _ => s.namesWindow .p0 i || s.namesWindow .p1 i
  | .tap _ _ _ => s.tap.binding.isSome
  | .free | .anchor _ | .mirror _ => false

/-- Two windows meet (R4). -/
def Window.meets (a b : Window) : Bool := decide (a.base < b.base + b.length) && decide (b.base < a.base + a.length)

/-- A new range meets that of another defined window (R5, check 7). -/
def State.overlapsOther (s : State) (i : Fin 16) (w : Window) : Bool :=
  (List.finRange 16).any fun j => decide (j ≠ i) && w.meets (s.window j)

/-- The old window at an index is discarded as it stood (R6). -/
def State.discardWindow (s : State) (i : Fin 16) : State :=
  match s.window i with
  | .stream _ _ _ => s.discardRing i
  | .tap _ _ _ => s.discardTap
  | .mirror _ => s.dropSection
  | .free | .anchor _ => s

/-- A new window starts (R6, R28, R43): rings and slot views afresh; a STREAM window starts to feed a path whose entry
names it (R29), whose source is then present (R39). That this holds after a link reset too, of which R109 says that the
first handover makes the source present again, is the model's choice (log 16). -/
def State.startWindow (s : State) (i : Fin 16) (w : Window) : State :=
  let s1 := s.setWindow i w
  match w with
  | .stream _ _ count => (s1.setRing i (some (Ring.fresh count))).feedIfNamed i
  | .tap _ _ count => { s1 with tap := { Tap.powerOn with slots := List.replicate count TapSlot.fresh } }
  | .free | .anchor _ | .mirror _ => s1

/-- DEFINE_WINDOW (R5, R6). -/
def cmdDefineWindow (index kind slotCount : Byte) (slotSize : BitVec 16) (base : BitVec 32) (s : State) : CmdOut :=
  match fin16? index.toNat, askedWindow kind.toNat base.toNat slotSize.toNat slotCount.toNat with
  | none, _ => refuse s .badArg
  | some _, none => refuse s .badArg
  | some i, some w =>
    if i.val = 0 then refuse s .badArg
    else if base.toNat % 4096 ≠ 0 ∨ 2 ^ 32 < w.base + w.length then refuse s .badArg
    else if w.slotsOk = false then refuse s .badArg
    else if kindLimit kind.toNat < s.windowsOfKind i kind.toNat + 1 then refuse s .badArg
    else if s.windowInUse i then refuse s .inUse
    else if s.overlapsOther i w then refuse s .overlap
    else done ((s.discardWindow i).startWindow i w) w.length

/-- RELEASE_WINDOW (R7). -/
def cmdReleaseWindow (index : Byte) (s : State) : CmdOut :=
  match fin16? index.toNat with
  | none => refuse s .badArg
  | some i =>
    if i.val = 0 then refuse s .badArg
    else if s.windowInUse i then refuse s .inUse
    else done ((s.discardWindow i).setWindow i .free) 0

/-- SNAPSHOT (R23): the section is copied as it stands and its placing begins. -/
def cmdSnapshot (sect : Byte) (s : State) : CmdOut :=
  match s.mirrorBase, SnapSection.ofCode sect.toNat with
  | some _, some x =>
    let s1 := s.beginSection x false
    done s1 (getAt s1.mirror.counts (sectionIndex x)).toNat
  | none, _ => refuse s .badArg
  | some _, none => refuse s .badArg

/-- SET_METERS (R25). -/
def cmdSetMeters (on : Byte) (s : State) : CmdOut := done { s with mirror := { s.mirror with metersOn := onOff on } } 0

/-! ## The tap (chapter 2) -/

/-- BIND_TAP (R42). -/
def cmdBindTap (index point : Byte) (s : State) : CmdOut :=
  match fin16? index.toNat, TapPoint.ofCode point.toNat with
  | some i, some p =>
    match s.window i with
    | .tap _ size _ =>
      if s.tap.binding.isSome then refuse s .inUse
      else
        done { s with tap := { s.tap with binding := some (i, p), fillPos := 0, gapPending := false, closePending := false } }
          (tapCapacity size)
    | .free | .anchor _ | .stream _ _ _ | .mirror _ => refuse s .badArg
  | _, _ => refuse s .badArg

/-- UNBIND_TAP (R47). -/
def cmdUnbindTap (s : State) : CmdOut := done (if s.tap.binding.isSome then s.unbind else s) 0

/-! ## Lanes (chapter 3) -/

/-- SET_LANE (R63). -/
def cmdSetLane (lane enable threshold replacement : Byte) (s : State) : CmdOut :=
  match fin4? lane.toNat with
  | none => refuse s .badArg
  | some l =>
    let e := clampNat 1 255 threshold.toNat
    let s1 := s.setLane l { s.lane l with threshold := e, replacement := onOff replacement }
    clampedOr (s1.enableLane l (onOff enable)) [((threshold.toNat : Int), (e : Int))]

/-! ## Sources (chapter 4) -/

/-- The lanes an argument names; none when one is above 3 (R68). -/
def argLanes : List Byte → Option (List (Fin 4))
  | [] => some []
  | b :: bs =>
    match fin4? b.toNat, argLanes bs with
    | some l, some ls => some (l :: ls)
    | _, _ => none

/-- What a DEFINE_SOURCE names, by its kind (R68, check 4): a lane list, a window index, or nothing further; none when
malformed. -/
def sourceParts (kind : SourceKind) (a : SourceArgs) : Option (List (Fin 4) × Option (Fin 16)) :=
  match kind with
  | .none => none
  | .tuner => some ([], none)
  | .stream =>
    match fin16? a.window.toNat with
    | none => none
    | some w => if w.val = 0 then none else some ([], some w)
  | .laneGroup =>
    if a.laneCount.toNat < 1 ∨ 4 < a.laneCount.toNat then none
    else
      match argLanes (a.lanes.take a.laneCount.toNat) with
      | none => none
      | some ls => if ls.length = a.laneCount.toNat ∧ ls.Nodup then some (ls, none) else none

/-- A lane of a list stands in the lane list of another entry (R68, check 6). -/
def State.laneTaken (s : State) (e : Fin 12) (ls : List (Fin 4)) : Bool :=
  (List.finRange 12).any fun x => decide (x ≠ e) && ls.any fun l => (s.source x).lanes.contains l

/-- Another entry is of kind TUNER (R68, check 7). -/
def State.otherTuner (s : State) (e : Fin 12) : Bool :=
  (List.finRange 12).any fun x => decide (x ≠ e) && decide ((s.source x).kind = .tuner)

/-- The entry a DEFINE_SOURCE gives, its fields clamped (R68). -/
def sourceEntry (kind : SourceKind) (parts : List (Fin 4) × Option (Fin 16)) (a : SourceArgs)
    (label : Option (List Byte)) : SourceEntry :=
  let g := clampNat 0 7 a.gainG.toNat
  { kind := kind
    lanes := parts.1
    window := parts.2
    fillT := clampNat 96 2048 a.fillT.toNat
    kp := clampNat 1 255 a.kp.toNat
    ki := a.ki.toNat
    gainG := g
    ratchetH := clampNat 0 g a.ratchetH.toNat
    lockW := clampNat 1 64 a.lockW.toNat
    trim := clampInt (-24) 24 a.trim.toInt
    label := label }

/-- The fields as given and as applied, in the order T, Kp, Ki, G, H, W, input trim (R68). -/
def sourceClamps (a : SourceArgs) (r : SourceEntry) : List (Int × Int) :=
  [((a.fillT.toNat : Int), (r.fillT : Int)), ((a.kp.toNat : Int), (r.kp : Int)), ((a.ki.toNat : Int), (r.ki : Int)),
    ((a.gainG.toNat : Int), (r.gainG : Int)), ((a.ratchetH.toNat : Int), (r.ratchetH : Int)),
    ((a.lockW.toNat : Int), (r.lockW : Int)), (a.trim.toInt, r.trim)]

/-- A source entry takes a new content, and the lane receiver acts when its lane list changes (R64, R68, R69). -/
def State.putSource (s : State) (e : Fin 12) (r : SourceEntry) : State :=
  let old := (s.source e).lanes
  let s1 := s.setSource e r
  if old = r.lanes then s1 else s1.lanesChanged e old

/-- DEFINE_SOURCE (R68). -/
def cmdDefineSource (entry : Byte) (a : SourceArgs) (s : State) : CmdOut :=
  match fin12? entry.toNat, SourceKind.ofCode a.kind.toNat with
  | none, _ => refuse s .badArg
  | some _, none => refuse s .badArg
  | some e, some k =>
    if k = .none then refuse s .badArg
    else if (s.boundPath e).isSome then refuse s .inUse
    else
      match sourceParts k a, decodeLabel a.label with
      | none, _ => refuse s .badArg
      | some _, none => refuse s .badArg
      | some parts, some label =>
        if s.laneTaken e parts.1 then refuse s .inUse
        else if k = .tuner ∧ s.otherTuner e = true then refuse s .inUse
        else
          let r := sourceEntry k parts a label
          clampedOr (s.putSource e r) (sourceClamps a r)

/-- A zone holds an entry as the target of its switch, or as its selection while not in STANDBY (R69). -/
def State.zoneUses (s : State) (z : Zone) (e : Fin 12) : Bool :=
  decide ((s.zone z).target = some e) || (decide ((s.zone z).selection = some e) && decide ((s.zone z).power ≠ .standby))

/-- A zone that records an entry as its selection has none (R69). -/
def State.forgetSelection (s : State) (z : Zone) (e : Fin 12) : State :=
  if (s.zone z).selection = some e then s.setZone z { s.zone z with selection := none } else s

/-- CLEAR_SOURCE (R69). -/
def cmdClearSource (entry : Byte) (s : State) : CmdOut :=
  match fin12? entry.toNat with
  | none => refuse s .badArg
  | some e =>
    if (s.boundPath e).isSome ∨ s.zoneUses .main e = true ∨ s.zoneUses .zone2 e = true then refuse s .inUse
    else done (((s.putSource e SourceEntry.powerOn).forgetSelection .main e).forgetSelection .zone2 e) 0

/-! ## Zones (chapter 4) -/

/-- A zone command names its zone; another value is refused before any other check (R75, R198). -/
def withZone (zone : Byte) (s : State) (f : Zone → CmdOut) : CmdOut :=
  match Zone.ofCode zone.toNat with
  | none => refuse s .badArg
  | some z => f z

/-- SELECT_SOURCE in a zone that is ON (R80). -/
def State.selectOn (s : State) (z : Zone) (e : Fin 12) : CmdOut :=
  let r := s.zone z
  if r.switch = .idle then
    if r.selection = some e then done s 0 else accepted (s.startSwitch z e s.slotTag)
  else
    let s1 := s.switchDone z .aborted
    let r1 := s1.zone z
    if r.target = some e then accepted (s1.setZone z { r1 with tag := s.slotTag })
    else if r.switch = .fadeOut then
      accepted (s1.setZone z { r1 with selection := some e, target := some e, tag := s.slotTag })
    else accepted (s1.startSwitch z e s.slotTag)

/-- SELECT_SOURCE (R80). -/
def cmdSelectSource (zone source : Byte) (s : State) : CmdOut :=
  withZone zone s fun z =>
    match fin12? source.toNat with
    | none => refuse s .badArg
    | some e =>
      if (s.source e).kind = .none then refuse s .badArg
      else if (s.zone z).power = .on then s.selectOn z e
      else done (s.setZone z { s.zone z with selection := some e }) 0

/-- ZONE_POWER ON (R85). -/
def cmdZonePowerOn (zone : Byte) (s : State) : CmdOut := withZone zone s fun z => done (s.powerZone z) 0

/-- ZONE_POWER STANDBY (R86). -/
def cmdZonePowerStandby (zone : Byte) (s : State) : CmdOut :=
  withZone zone s fun z => done (if (s.zone z).power = .on then (s.goStandby z).standbyIfSilent z else s) 0

/-- ZONE_POWER as the ring carries it (R85, R86, R198): a power request above 1 is refused. -/
def cmdZonePower (zone request : Byte) (s : State) : CmdOut :=
  if request = 1 then cmdZonePowerOn zone s
  else if request = 0 then cmdZonePowerStandby zone s
  else refuse s .badArg

/-- MUTE (R78). -/
def cmdMute (zone on : Byte) (s : State) : CmdOut :=
  withZone zone s fun z =>
    if (s.zone z).mute = onOff on then done s 0
    else done ((s.setZone z { s.zone z with mute := onOff on }).zoneReport z) 0

/-- SET_VOLUME (R77). -/
def cmdSetVolume (zone : Byte) (level : BitVec 16) (s : State) : CmdOut :=
  withZone zone s fun z =>
    let v := clampInt (-192) 24 level.toInt
    clampedOr (s.setZone z { s.zone z with masterTarget := v }) [(level.toInt, v)]

/-- The channels whose applied AV delay differs from their target zone's (R168). -/
def State.avChannels (s : State) (z : Zone) : List (Fin 12) :=
  (List.finRange 12).filter fun c =>
    decide ((s.chan c).targetZone = some z) && decide ((s.chan c).appliedAv ≠ (s.zone z).avDelay)

/-- A zone's new AV delay reaches its channels through a change group (R168). R79 applies a change for a zone in
STANDBY at once; where a channel of the zone is to come from the other zone and still sounds there, R166 makes the group
wait for it, and the model waits (log 60). -/
def State.spreadAv (s : State) (z : Zone) : State :=
  if s.avChannels z = [] then s
  else s.formGroup (s.avChannels z)

/-- SET_ZONE (R79). -/
def cmdSetZone (zone rampRate : Byte) (avDelay : BitVec 16) (ceiling : Byte) (s : State) : CmdOut :=
  withZone zone s fun z =>
    let rate := clampRampRate rampRate.toNat
    let av := clampNat 0 9600 avDelay.toNat
    let ceil := clampNat 0 24 ceiling.toNat
    let s1 := s.setZone z { s.zone z with rampRate := rate, avDelay := av, ceiling := ceil }
    if s1.poolFits = false then refuse s .noRoom
    else
      clampedOr (if (s.zone z).avDelay = av then s1 else s1.spreadAv z)
        [((rampRate.toNat : Int), (rate : Int)), ((avDelay.toNat : Int), (av : Int)), ((ceiling.toNat : Int), (ceil : Int))]

/-- SET_SLEEP (R87). -/
def cmdSetSleep (zone minutes : Byte) (s : State) : CmdOut :=
  withZone zone s fun z =>
    if (s.zone z).power ≠ .on then refuse s .busy
    else
      let m := clampNat 0 120 minutes.toNat
      clampedOr (s.setZone z { s.zone z with sleep := m, minute := if m = 0 then 0 else 60000 })
        [((minutes.toNat : Int), (m : Int))]

/-- RETRACK (R107). -/
def cmdRetrack (zone : Byte) (s : State) : CmdOut :=
  withZone zone s fun z =>
    match (s.zone z).attached with
    | none => done s 0
    | some p =>
      let st := (s.path p).tracker.state
      if st = .acquire ∨ st = .track then done (s.retrigger p) 1 else done s 0

/-- SET_DECODE (R113). -/
def cmdSetDecode (zone mode : Byte) (s : State) : CmdOut :=
  withZone zone s fun z =>
    match z, DecodeMode.ofCode mode.toNat with
    | .zone2, _ => refuse s .badArg
    | .main, none => refuse s .badArg
    | .main, some m =>
      let fmt := match s.zoneMain.attached with
        | none => none
        | some p => (s.path p).format
      let v : Int := if matrixOn m fmt then 1 else 0
      if s.zoneMain.decode = m then done s v
      else done ({ s with zoneMain := { s.zoneMain with decode := m } }.zeroEnergies) v

/-! ## The radio (chapters 7 and 8) -/

/-- The zone and ownership check of the radio commands (R74). -/
def withOwner (zone : Byte) (s : State) (f : CmdOut) : CmdOut :=
  withZone zone s fun z => if s.owner = some z then f else refuse s .notOwner

/-- A new operation record, replacing the operation in progress, which completes ABORTED (R136, R148, R150). Its
direction is that of a STEP or SEEK; the commands without one, TUNE, RECALL_PRESET and SCAN, write up (log 63). -/
def State.beginOp (s : State) (kind : Operation) (dir : Direction) (clamped : Bool) : State :=
  let s1 := s.abortOp false
  let op : OpRecord :=
    { kind := kind, dir := dir, startBand := s1.tuner.band, startFreq := s1.tuner.freq, tag := s.slotTag
      clamped := clamped, found := 0, dropped := 0, tested := 0 }
  { s1 with tuner := { s1.tuner with op := some op } }

/-- TUNE (R136). The record's direction is up, which no rule reads (log 63). -/
def cmdTune (zone band : Byte) (freq : BitVec 32) (s : State) : CmdOut :=
  withOwner zone s
    (match Band.ofCode band.toNat with
      | none => refuse s .badArg
      | some b =>
        accepted ((s.beginOp .tune .up (s.region.clamps b freq.toNat)).tuneTo b (s.region.resolve b freq.toNat)))

/-- STEP (R136). -/
def cmdStep (zone dir : Byte) (s : State) : CmdOut :=
  withOwner zone s
    (match Direction.ofCode dir.toNat with
      | none => refuse s .badArg
      | some d =>
        accepted ((s.beginOp .step d false).tuneTo s.tuner.band (s.region.adjacent s.tuner.band s.tuner.freq d)))

/-- A seek or scan runs (R148). -/
def State.searching (s : State) : Bool :=
  decide (s.tuner.state = .seeking) || decide (s.tuner.state = .scanning) ||
    (decide (s.tuner.state = .tuning) &&
      (match s.tuner.op with
       | none => false
       | some op => decide (op.kind = .seek) || decide (op.kind = .scan)))

/-- SEEK (R148). -/
def cmdSeek (zone dir : Byte) (s : State) : CmdOut :=
  withOwner zone s
    (match Direction.ofCode dir.toNat with
      | none => refuse s .badArg
      | some d =>
        if s.searching then refuse s .busy
        else
          let s1 := s.beginOp .seek d false
          let t := s1.tuner
          accepted { s1 with tuner := t.startAt .seeking t.band (s.region.adjacent t.band t.freq d) })

/-- The station list without a band's entries (R132, R150, R155). -/
def dropBand (b : Band) (xs : List Station) : List Station := xs.filter fun x => decide (x.band ≠ b)

/-- SCAN (R150). The record's direction is up, which no rule reads (log 63). -/
def cmdScan (zone band : Byte) (s : State) : CmdOut :=
  withOwner zone s
    (match Band.ofCode band.toNat with
      | none => refuse s .badArg
      | some b =>
        if s.searching then refuse s .busy
        else
          let s1 := s.beginOp .scan .up false
          let t := s1.tuner.startAt .scanning b (s.region.low b)
          accepted { s1 with stations := dropBand b s1.stations, tuner := t })

/-- ABORT_RADIO (R138, R152). -/
def cmdAbortRadio (s : State) : CmdOut :=
  let t := s.tuner
  match t.state with
  | .idle | .tuned | .feFault => done s 0
  | .tuning => done (s.abortOp false) 0
  | .seeking =>
    let s1 := s.abortOp false
    if t.phase = .dwell ∨ t.phase = .advance then
      done ({ s1 with tuner := { s1.tuner with state := .tuned, phase := .none } }.radioReport .tuned) 0
    else done { s1 with tuner := { s1.tuner with state := .tuning } } 0
  | .scanning =>
    match t.op with
    | none => done s 0
    | some op => done ((s.abortOp false).tuneBack op) 0

/-- The region settings a SET_REGION gives, clamped (R132). -/
def regionOf (a : RegionArgs) : Region :=
  { fmStep := a.fmStep.toNat
    amGrid := a.amGrid.toNat
    fmLevel := clampNat 0 127 a.fmLevel.toNat
    amLevel := clampNat 0 127 a.amLevel.toNat
    fmOffset := clampNat 0 127 a.fmOffset.toNat
    amOffset := clampNat 0 127 a.amOffset.toNat
    ampLow := clampNat 0 6291455 a.ampLow.toNat
    ampHigh := clampNat 1 6291456 a.ampHigh.toNat
    errK := clampNat 1 8 a.errK.toNat
    blendLo := clampNat 0 126 a.blendLo.toNat
    blendHi := clampNat 1 127 a.blendHi.toNat
    forcedMono := onOff a.forcedMono }

/-- The clamped fields in the order of the table of R131. -/
def regionClamps (a : RegionArgs) (r : Region) : List (Int × Int) :=
  [((a.fmLevel.toNat : Int), (r.fmLevel : Int)), ((a.amLevel.toNat : Int), (r.amLevel : Int)),
    ((a.fmOffset.toNat : Int), (r.fmOffset : Int)), ((a.amOffset.toNat : Int), (r.amOffset : Int)),
    ((a.ampLow.toNat : Int), (r.ampLow : Int)), ((a.ampHigh.toNat : Int), (r.ampHigh : Int)),
    ((a.errK.toNat : Int), (r.errK : Int)), ((a.blendLo.toNat : Int), (r.blendLo : Int)),
    ((a.blendHi.toNat : Int), (r.blendHi : Int))]

/-- The FM step and the AM grid of a SET_REGION are allowed (R132, check 1). -/
def regionGridOk (a : RegionArgs) : Bool :=
  (decide (a.fmStep.toNat = 50) || decide (a.fmStep.toNat = 100) || decide (a.fmStep.toNat = 200))
    && (decide (a.amGrid.toNat = 9) || decide (a.amGrid.toNat = 10))

/-- A change of a band's grid deletes its station list entries (R132). -/
def State.gridStations (s : State) (r : Region) : List Station :=
  let xs := if r.fmStep = s.region.fmStep then s.stations else dropBand .fm s.stations
  if r.amGrid = s.region.amGrid then xs else dropBand .am xs

/-- The settings are taken (R132): the stations of a changed grid go, and the tuner's frequency moves to the new grid,
with an untagged tune when it is TUNED. -/
def State.takeRegion (s : State) (r : Region) : State :=
  let b := s.tuner.band
  let f := if r.step b = s.region.step b then s.tuner.freq else r.resolve b s.tuner.freq
  let s1 := { s with region := r, stations := s.gridStations r }
  if f = s.tuner.freq then s1
  else if s.tuner.state = .tuned then (s1.tuneTo b f).radioReport .region
  else { s1 with tuner := { s1.tuner with freq := f } }.radioReport .region

/-- SET_REGION (R132). -/
def cmdSetRegion (a : RegionArgs) (s : State) : CmdOut :=
  let r := regionOf a
  let moves := decide (r.fmStep ≠ s.region.fmStep) || decide (r.amGrid ≠ s.region.amGrid)
  let tuning := decide (s.tuner.state = .tuning) || decide (s.tuner.state = .seeking) || decide (s.tuner.state = .scanning)
  if regionGridOk a = false then refuse s .badArg
  else if a.blendHi.toNat ≤ a.blendLo.toNat ∨ a.ampHigh.toNat ≤ a.ampLow.toNat then refuse s .badArg
  else if moves && tuning then refuse s .busy
  else if r.blendHi ≤ r.blendLo ∨ r.ampHigh ≤ r.ampLow then refuse s .badArg
  else clampedOr (s.takeRegion r) (regionClamps a r)

/-- CLEAR_STATIONS (R155). -/
def cmdClearStations (selector : Byte) (s : State) : CmdOut :=
  match StationSelector.ofCode selector.toNat with
  | none => refuse s .badArg
  | some x =>
    let kept := match x with
      | .fm => dropBand .fm s.stations
      | .am => dropBand .am s.stations
      | .all => []
    done { s with stations := kept } ((s.stations.length : Int) - kept.length)

/-- The label a STORE_PRESET leaves: the given one, else the old one of the same band and frequency (R157). -/
def storedLabel (old : Option Preset) (b : Band) (f : Nat) (given : Option (List Byte)) : Option (List Byte) :=
  match given with
  | some l => some l
  | none =>
    match old with
    | none => none
    | some p => if p.band = b ∧ p.freq = f then p.label else none

/-- A preset entry is written. -/
def State.setPreset (s : State) (i : Fin 40) (p : Option Preset) : State := { s with presets := setAt s.presets i p }

/-- STORE_PRESET (R157). -/
def cmdStorePreset (index : Byte) (label : LabelArg) (s : State) : CmdOut :=
  match fin40? index.toNat, decodeLabel label with
  | none, _ => refuse s .badArg
  | some _, none => refuse s .badArg
  | some i, some l =>
    let t := s.tuner
    match t.state with
    | .tuning | .seeking | .scanning => refuse s .busy
    | .tuned | .idle | .feFault =>
      done (s.setPreset i (some { band := t.band, freq := t.freq, label := storedLabel (getAt s.presets i) t.band t.freq l }))
        t.freq

/-- SET_PRESET (R158). -/
def cmdSetPreset (index band : Byte) (freq : BitVec 32) (label : LabelArg) (s : State) : CmdOut :=
  match fin40? index.toNat, Band.ofCode band.toNat, decodeLabel label with
  | some i, some b, some l =>
    if s.region.clamps b freq.toNat then refuse s .badArg
    else done (s.setPreset i (some { band := b, freq := freq.toNat, label := l })) 0
  | _, _, _ => refuse s .badArg

/-- CLEAR_PRESET (R158). -/
def cmdClearPreset (index : Byte) (s : State) : CmdOut :=
  match fin40? index.toNat with
  | none => refuse s .badArg
  | some i => done (s.setPreset i none) 0

/-- RECALL_PRESET (R159). The record's direction is up, which no rule reads (log 63). -/
def cmdRecallPreset (zone index : Byte) (s : State) : CmdOut :=
  withOwner zone s
    (match fin40? index.toNat with
      | none => refuse s .badArg
      | some i =>
        match getAt s.presets i with
        | none => refuse s .empty
        | some p =>
          accepted ((s.beginOp .recall .up (s.region.clamps p.band p.freq)).tuneTo p.band
            (s.region.resolve p.band p.freq)))

/-! ## Outputs (chapter 9) -/

/-- The channel that holds a role as its target role, other than one (R164). -/
def State.roleHolder (s : State) (c : Fin 12) (r : Role) : Option (Fin 12) :=
  if r = .sw ∨ r = .unused then none
  else (List.finRange 12).find? fun x => decide (x ≠ c) && decide ((s.chan x).target.role = r)

/-- The channels, other than one, that have a role applied; none for SW and UNUSED, which any number may hold (R161). One
that is not the role's holder waits to give it up. -/
def State.roleKeepers (s : State) (c : Fin 12) (r : Role) : List (Fin 12) :=
  if r = .sw ∨ r = .unused then []
  else (List.finRange 12).filter fun x => decide (x ≠ c) && decide ((s.chan x).applied.role = r)

/-- The state with the pending settings an ASSIGN_OUTPUT gives (R164), and the channels whose group forms: those it gives
them to, and a channel that still has the role applied, with the pending settings it waits with. So the role is never
held by two channels (R161); that this channel's group joins, and the command is not refused or held back otherwise, is
the model's choice (log 66). -/
def State.assigned (s : State) (c : Fin 12) (r : Role) : State × List (Fin 12) :=
  let s1 := s.givePending c { (s.chan c).target with role := r }
  match s.roleHolder c r with
  | none => (s1, c :: s.roleKeepers c r)
  | some x => (s1.givePending x { (s.chan x).target with role := .unused }, c :: x :: s.roleKeepers c r)

/-- ASSIGN_OUTPUT (R164). A silent channel waits with a channel that still has the role applied and can be heard (R161,
log 66). The pool is checked before a group that is silent applies, with the allocations applied until then, the model's
choice (log 69). -/
def cmdAssignOutput (channel role : Byte) (s : State) : CmdOut :=
  match fin12? channel.toNat, Role.ofCode role.toNat with
  | some c, some r =>
    if r.isOutput = false then refuse s .badArg
    else if (s.chan c).target.role = r then done s 0
    else
      let a := s.assigned c r
      if a.1.poolFits = false then refuse s .noRoom
      else
        let t := a.1.formGroup a.2
        done t (if (t.chan c).group = none then 0 else 1)
  | _, _ => refuse s .badArg

/-- SET_CHANNEL (R165). The pool is checked before a silent group applies (log 69). -/
def cmdSetChannel (channel : Byte) (trim : BitVec 8) (delay : BitVec 16) (polarity size : Byte) (s : State) : CmdOut :=
  match fin12? channel.toNat, Polarity.ofCode polarity.toNat, SpeakerSize.ofCode size.toNat with
  | some c, some pol, some sz =>
    let tr := clampInt (-24) 24 trim.toInt
    let d := clampNat 0 1440 delay.toNat
    let old := (s.chan c).target
    let new : ChanSettings := { role := old.role, delay := d, polarity := pol, size := sz }
    let clamps : List (Int × Int) := [(trim.toInt, tr), ((delay.toNat : Int), (d : Int))]
    let s1 := s.givePending c new
    if s1.poolFits = false then refuse s .noRoom
    else if new = old then clampedOr (s.setChan c { s.chan c with trim := tr }) clamps
    else clampedOr ((s1.setChan c { s1.chan c with trim := tr }).formGroup [c]) clamps
  | _, _, _ => refuse s .badArg

/-- SET_BASS (R171): the applied crossover is the result value. That it is so also when it is the present one, where R171
says only OK with no change, is the model's reading (log 33). -/
def cmdSetBass (hz : Byte) (s : State) : CmdOut :=
  if hz.toNat ∉ [40, 60, 80, 90, 100, 120, 150] then refuse s .badArg
  else done { s with out := { s.out with crossover := hz.toNat } } hz.toNat

/-! ## Protection (chapter 10) -/

/-- CLEAR_FAULT (R191): the fault lines at their present level stand in `pins`. -/
def cmdClearFault (pair : Byte) (s : State) : CmdOut :=
  match fin6? pair.toNat with
  | none => refuse s .badArg
  | some n =>
    let r := s.pair n
    match r.state with
    | .normal | .softStart => done s 0
    | .protect | .recoverWait | .lockout =>
      if s.faultCondition (s.pins.faults.getLsbD n.val) then refuse s .faultPresent
      else done (s.enterSoftStart n { r with used := 0, clear := 0 }) 1

/-- SET_PROTECT (R192). -/
def cmdSetProtect (pair detect retry : Byte) (s : State) : CmdOut :=
  match fin6? pair.toNat with
  | none => refuse s .badArg
  | some n =>
    let d := clampDetect detect.toNat
    let l := clampNat 0 3 retry.toNat
    clampedOr (s.setPair n { s.pair n with detect := d, limit := l })
      [((detect.toNat : Int), (d : Int)), ((retry.toNat : Int), (l : Int))]

end Sys2Proof.Machine
end

