-- ==== Sys2Proof/WellFormed.lean ====
section
/-! DEFINITION. Which commands can be written: the limits a type does not carry. -/

namespace Sys2Proof

/-- A request the memory link can carry: 8 to 64 bytes, a multiple of 8, within one aligned 64-byte block and within the 32-bit address space (01, 1.1). -/
def Request.wf (r : Request) : Bool :=
  decide (8 ≤ r.len) && decide (r.len ≤ 64) && decide (r.len % 8 = 0)
    && decide (r.addr % 64 + r.len ≤ 64) && decide (r.addr + r.len ≤ 2 ^ 32)
    && (match r with
        | .read _ _ => true
        | .write w => decide (w.mask.length = w.data.length))

/-- A label argument holds eight character bytes (11.2). -/
def LabelArg.wf (l : LabelArg) : Bool := decide (l.chars.length = 8)

/-- The opcodes of the table of 11.2. -/
def knownOpcodes : List Nat :=
  [0x00, 0x01, 0x02, 0x03, 0x04, 0x05, 0x08, 0x09, 0x10, 0x11, 0x12]
    ++ [0x18, 0x19, 0x1A, 0x1B, 0x1C, 0x1D, 0x1E, 0x1F, 0x20, 0x21, 0x22, 0x23, 0x24, 0x25, 0x26]
    ++ [0x28, 0x29, 0x2A, 0x2B, 0x30, 0x31, 0x32, 0x38, 0x39]

/-- A command that can be sent. Every value of an argument byte is well formed: the rules say what each one does. -/
def Instr.wf : Instr → Bool
  | .hostRequestAccept r => r.wf
  | .dramResponse d => decide (d.length ≤ 64)
  | .defineSource _ a => decide (a.lanes.length = 4) && a.label.wf
  | .storePreset _ l => l.wf
  | .setPreset _ _ _ l => l.wf
  | .unknownOpcode op _ => decide (op.toNat ∉ knownOpcodes)
  | .feBurst ps => decide (ps.length ≤ 192)
  | .pilotCapture n => decide (n ≤ 1000)
  | .powerOn _ | .linkReset | .requestForward | .injectedWriteIssue | .starvationHold | .producerEnqueue _
  | .takeCommand _ | .reportWrite | .nop | .restart | .defineWindow _ _ _ _ _ | .releaseWindow _ | .snapshot _
  | .setMeters _ | .bindTap _ _ | .unbindTap | .setLane _ _ _ _ | .clearSource _ | .selectSource _ _
  | .zonePowerOn _ | .zonePowerStandby _ | .mute _ _ | .setVolume _ _ | .setZone _ _ _ _ | .setSleep _ _
  | .retrack _ | .setDecode _ _ | .tune _ _ _ | .step _ _ | .seek _ _ | .scan _ _ | .abortRadio | .setRegion _
  | .clearStations _ | .clearPreset _ | .recallPreset _ _ | .assignOutput _ _ | .setChannel _ _ _ _ _ | .setBass _
  | .clearFault _ _ | .setProtect _ _ _ | .unpackFrame _ | .streamIdle _ | .outputBlock _ _ | .laneLoss _
  | .realignDeassert _ | .laneFrame _ _ | .fadeOutEnd _ | .waitReadyEnd _ | .sourceAbsent _ | .switchComplete _
  | .goingStandbyEnd _ | .sleepMinute _ | .formatAdoption _ | .prefillExit _ | .gainCheck _ | .acquireLock _
  | .slip _ | .holdEntry _ | .holdExit _ | .changeGroupApply _ | .softStartCount _ _ | .softStartEnd _
  | .limiterRelease _ _ | .meterPeriodEnd | .protectEntry _ _ _ | .recoverWaitExpiry _ _ _ | .normalRunExpiry _ _ _
  | .thermalWarningSet | .thermalClear | .escalationSet | .thermalStep _ | .feAcknowledgement _ _ | .ackTimeout
  | .feStatusRecord _ _ _ | .statusSilence | .settleLimit | .dwellEnd | .pilotTimeout | .blendStep => true

end Sys2Proof
end

