-- ==== Sys2Proof/Machine/Ring.lean ====
section
/-! DEFINITION. The command unit (R14 to R16): when a command can be taken, its return, the decoding of a slot (R198),
and the steps of the producers of injected writes (R10, R19). -/

namespace Sys2Proof.Machine

open Sys2Proof

/-! ## Taking and returning (R15, R16) -/

/-- The mirror is still placing a section that a SNAPSHOT asked for (R15, R23). -/
def State.snapshotPlacing (s : State) : Bool :=
  match s.mirror.job with
  | none => false
  | some j => !j.periodic

/-- A condition of R15 other than the slot's owner holds the command unit back. -/
def State.commandHeld (s : State) : Bool :=
  s.cmd.ret.isSome || decide (6 ≤ s.rep.queue.length) || s.snapshotPlacing || s.tap.unbinding

/-- The command unit places its return when it may and there is room, and only then advances next (R10, R15, R16). The
return of SNAPSHOT waits for its section, that of UNBIND_TAP for the tap's last write. -/
def State.placeCommandReturn (s : State) : State :=
  match s.cmd.ret with
  | none => s
  | some r =>
    if s.room = false ∨ s.snapshotPlacing = true ∨ s.tap.unbinding = true then s
    else
      let s1 := s.enqueue { write := fullWrite (s.anchorBase + 64 * r.slot.val) r.bytes, origin := .command r.slot }
      { s1 with cmd := { s1.cmd with ret := none, next := next64 s1.cmd.next } }

/-- The slot word a return writes (R16, 11.2): owner HOST, opcode, target, result, result value. -/
def returnWord (opcode target : Byte) (o : CmdOut) : List Byte :=
  [0, opcode, target, BitVec.ofNat 8 o.res.code] ++ leBytesInt 4 o.val

/-- A command that has acted is returned (R15). -/
def State.returnCommand (o : CmdOut) (opcode target : Byte) : State :=
  let s := o.st
  { s with cmd := { s.cmd with ret := some { slot := s.cmd.next, bytes := returnWord opcode target o } } }.placeCommandReturn

/-! ## Decoding a slot (R198, 11.2) -/

/-- The SOURCE arguments of a slot. -/
def sourceArgs (args : List Byte) : SourceArgs :=
  { kind := argByte args 0, laneCount := argByte args 1, lanes := (args.drop 2).take 4, window := argByte args 6
    fillT := argU16 args 8, kp := argByte args 10, ki := argByte args 11, gainG := argByte args 12
    ratchetH := argByte args 13, lockW := argByte args 14, trim := argByte args 15, label := labelAt args 16 }

/-- The REGION arguments of a slot. -/
def regionArgs (args : List Byte) : RegionArgs :=
  { fmStep := argU16 args 0, amGrid := argByte args 2, fmLevel := argByte args 3, amLevel := argByte args 4
    fmOffset := argByte args 5, amOffset := argByte args 6, errK := argByte args 7, ampLow := argU32 args 8
    ampHigh := argU32 args 12, blendLo := argByte args 16, blendHi := argByte args 17, forcedMono := argByte args 18 }

/-- The command a taken slot holds, by its opcode, target and arguments (R198, 11.2). -/
def runOpcode (opcode : Nat) (target : Byte) (args : List Byte) (s : State) : CmdOut :=
  let a := argByte args
  match opcode with
  | 0x00 => cmdNop s
  | 0x01 => cmdRestart s
  | 0x02 => cmdDefineWindow target (a 0) (a 1) (argU16 args 2) (argU32 args 4) s
  | 0x03 => cmdReleaseWindow target s
  | 0x04 => cmdSnapshot target s
  | 0x05 => cmdSetMeters (a 0) s
  | 0x08 => cmdBindTap target (a 0) s
  | 0x09 => cmdUnbindTap s
  | 0x10 => cmdSetLane target (a 0) (a 1) (a 2) s
  | 0x11 => cmdDefineSource target (sourceArgs args) s
  | 0x12 => cmdClearSource target s
  | 0x18 => cmdSelectSource target (a 0) s
  | 0x19 => cmdZonePower target (a 0) s
  | 0x1A => cmdMute target (a 0) s
  | 0x1B => cmdSetVolume target (argU16 args 0) s
  | 0x1C => cmdSetZone target (a 0) (argU16 args 2) (a 4) s
  | 0x1D => cmdSetSleep target (a 0) s
  | 0x1E => cmdRetrack target s
  | 0x1F => cmdSetDecode target (a 0) s
  | 0x20 => cmdTune target (a 0) (argU32 args 4) s
  | 0x21 => cmdStep target (a 0) s
  | 0x22 => cmdSeek target (a 0) s
  | 0x23 => cmdScan target (a 0) s
  | 0x24 => cmdAbortRadio s
  | 0x25 => cmdSetRegion (regionArgs args) s
  | 0x26 => cmdClearStations (a 0) s
  | 0x28 => cmdStorePreset target (labelAt args 0) s
  | 0x29 => cmdSetPreset target (a 0) (argU32 args 4) (labelAt args 8) s
  | 0x2A => cmdClearPreset target s
  | 0x2B => cmdRecallPreset target (a 0) s
  | 0x30 => cmdAssignOutput target (a 0) s
  | 0x31 => cmdSetChannel target (a 0) (argU16 args 2) (a 4) (a 5) s
  | 0x32 => cmdSetBass (a 0) s
  | 0x38 => cmdClearFault target s
  | 0x39 => cmdSetProtect target (a 0) (a 1) s
  | _ => cmdUnknown s

/-- The bytes of slot next in the shadow. -/
def State.slotBytes (s : State) : List Byte := memBytes s.cmd.shadow (64 * s.cmd.next.val) 64

/-- A SNAPSHOT is not taken while the mirror is placing a periodic meter section (R15, R23). -/
def State.snapshotHeld (s : State) (opcode : Nat) : Bool := decide (opcode = 0x04) && s.mirror.job.isSome

/-- The command unit takes slot next (R15): its command acts and its return is made. Nothing happens while a condition
of R15 does not hold. -/
def State.takeCommand (s : State) : State :=
  let b := s.slotBytes
  let opcode := argByte b 1
  if getAt s.cmd.part s.cmd.next = false ∨ s.commandHeld = true ∨ s.snapshotHeld opcode.toNat = true then s
  else State.returnCommand (runOpcode opcode.toNat (argByte b 2) (b.drop 8) s) opcode (argByte b 2)

/-- TAKE_COMMAND (R15), with the fault lines at their present level, which CLEAR_FAULT reads (R191). -/
def execTakeCommand (faults : BitVec 6) (s : State) : Host.Outcome State Fault Refusal :=
  .next ({ s with pins := { s.pins with faults := faults } }.takeCommand)

/-! ## The commands as rows of their own (log 5) -/

/-- The addressed bytes of a slot other than its owner byte. -/
def addressed : Nat → List Byte → List (Nat × Byte)
  | _, [] => []
  | a, b :: bs => (a, b) :: addressed (a + 1) bs

/-- The host hands slot next over with a command in it (R14): its bytes stand in the shadow and it is part-owned. -/
def State.handOver (s : State) (opcode target : Byte) (args : List Byte) : State :=
  let bytes := [opcode, target, 0, 0, 0, 0, 0] ++ padTo 56 args
  { s with cmd := { s.cmd with
      shadow := memStore (addressed (64 * s.cmd.next.val + 1) bytes) s.cmd.shadow
      part := setAt s.cmd.part s.cmd.next true } }

/-- A command of the ring as a row of its own (log 5): the host hands slot next over with the command, and the command is
taken at once. Where slot next is part-owned already, so that the shadow ignores the host's bytes (R14), or a condition
of R15 does not hold, the row is not this step and nothing happens: the row is discarded, not kept waiting. -/
def State.runHost (s : State) (opcode : Nat) (target : Byte) (args : List Byte) (cmd : State → CmdOut) : State :=
  if getAt s.cmd.part s.cmd.next = true ∨ s.commandHeld = true ∨ s.snapshotHeld opcode = true then s
  else
    State.returnCommand (cmd (s.handOver (BitVec.ofNat 8 opcode) target args)) (BitVec.ofNat 8 opcode) target

/-- The nine argument bytes of a label. -/
def labelArgBytes (l : LabelArg) : List Byte := l.len :: l.chars

/-- NOP (R18). -/
def execNop (s : State) : Host.Outcome State Fault Refusal := .next (s.runHost 0x00 0 [] cmdNop)

/-- RESTART (R18). -/
def execRestart (s : State) : Host.Outcome State Fault Refusal := .next (s.runHost 0x01 0 [] cmdRestart)

/-- DEFINE_WINDOW (R5). -/
def execDefineWindow (index kind slotCount : Byte) (slotSize : BitVec 16) (base : BitVec 32) (s : State) :
    Host.Outcome State Fault Refusal :=
  .next (s.runHost 0x02 index ([kind, slotCount] ++ leBytes 2 slotSize.toNat ++ leBytes 4 base.toNat)
    (cmdDefineWindow index kind slotCount slotSize base))

/-- RELEASE_WINDOW (R7). -/
def execReleaseWindow (index : Byte) (s : State) : Host.Outcome State Fault Refusal :=
  .next (s.runHost 0x03 index [] (cmdReleaseWindow index))

/-- SNAPSHOT (R23). -/
def execSnapshot (sect : Byte) (s : State) : Host.Outcome State Fault Refusal :=
  .next (s.runHost 0x04 sect [] (cmdSnapshot sect))

/-- SET_METERS (R25). -/
def execSetMeters (on : Byte) (s : State) : Host.Outcome State Fault Refusal :=
  .next (s.runHost 0x05 0 [on] (cmdSetMeters on))

/-- BIND_TAP (R42). -/
def execBindTap (index point : Byte) (s : State) : Host.Outcome State Fault Refusal :=
  .next (s.runHost 0x08 index [point] (cmdBindTap index point))

/-- UNBIND_TAP (R47). -/
def execUnbindTap (s : State) : Host.Outcome State Fault Refusal := .next (s.runHost 0x09 0 [] cmdUnbindTap)

/-- SET_LANE (R63). -/
def execSetLane (lane enable threshold replacement : Byte) (s : State) : Host.Outcome State Fault Refusal :=
  .next (s.runHost 0x10 lane [enable, threshold, replacement] (cmdSetLane lane enable threshold replacement))

/-- DEFINE_SOURCE (R68). -/
def execDefineSource (entry : Byte) (a : SourceArgs) (s : State) : Host.Outcome State Fault Refusal :=
  .next (s.runHost 0x11 entry
    ([a.kind, a.laneCount] ++ a.lanes ++ [a.window, 0] ++ leBytes 2 a.fillT.toNat
      ++ [a.kp, a.ki, a.gainG, a.ratchetH, a.lockW, a.trim] ++ labelArgBytes a.label)
    (cmdDefineSource entry a))

/-- CLEAR_SOURCE (R69). -/
def execClearSource (entry : Byte) (s : State) : Host.Outcome State Fault Refusal :=
  .next (s.runHost 0x12 entry [] (cmdClearSource entry))

/-- SELECT_SOURCE (R80). -/
def execSelectSource (zone source : Byte) (s : State) : Host.Outcome State Fault Refusal :=
  .next (s.runHost 0x18 zone [source] (cmdSelectSource zone source))

/-- ZONE_POWER ON (R85). -/
def execZonePowerOn (zone : Byte) (s : State) : Host.Outcome State Fault Refusal :=
  .next (s.runHost 0x19 zone [1] (cmdZonePowerOn zone))

/-- ZONE_POWER STANDBY (R86). -/
def execZonePowerStandby (zone : Byte) (s : State) : Host.Outcome State Fault Refusal :=
  .next (s.runHost 0x19 zone [0] (cmdZonePowerStandby zone))

/-- MUTE (R78). -/
def execMute (zone on : Byte) (s : State) : Host.Outcome State Fault Refusal :=
  .next (s.runHost 0x1A zone [on] (cmdMute zone on))

/-- SET_VOLUME (R77). -/
def execSetVolume (zone : Byte) (level : BitVec 16) (s : State) : Host.Outcome State Fault Refusal :=
  .next (s.runHost 0x1B zone (leBytes 2 level.toNat) (cmdSetVolume zone level))

/-- SET_ZONE (R79). -/
def execSetZone (zone rampRate : Byte) (avDelay : BitVec 16) (ceiling : Byte) (s : State) :
    Host.Outcome State Fault Refusal :=
  .next (s.runHost 0x1C zone ([rampRate, 0] ++ leBytes 2 avDelay.toNat ++ [ceiling])
    (cmdSetZone zone rampRate avDelay ceiling))

/-- SET_SLEEP (R87). -/
def execSetSleep (zone minutes : Byte) (s : State) : Host.Outcome State Fault Refusal :=
  .next (s.runHost 0x1D zone [minutes] (cmdSetSleep zone minutes))

/-- RETRACK (R107). -/
def execRetrack (zone : Byte) (s : State) : Host.Outcome State Fault Refusal :=
  .next (s.runHost 0x1E zone [] (cmdRetrack zone))

/-- SET_DECODE (R113). -/
def execSetDecode (zone mode : Byte) (s : State) : Host.Outcome State Fault Refusal :=
  .next (s.runHost 0x1F zone [mode] (cmdSetDecode zone mode))

/-- TUNE (R136). -/
def execTune (zone band : Byte) (freq : BitVec 32) (s : State) : Host.Outcome State Fault Refusal :=
  .next (s.runHost 0x20 zone ([band, 0, 0, 0] ++ leBytes 4 freq.toNat) (cmdTune zone band freq))

/-- STEP (R136). -/
def execStep (zone dir : Byte) (s : State) : Host.Outcome State Fault Refusal :=
  .next (s.runHost 0x21 zone [dir] (cmdStep zone dir))

/-- SEEK (R148). -/
def execSeek (zone dir : Byte) (s : State) : Host.Outcome State Fault Refusal :=
  .next (s.runHost 0x22 zone [dir] (cmdSeek zone dir))

/-- SCAN (R150). -/
def execScan (zone band : Byte) (s : State) : Host.Outcome State Fault Refusal :=
  .next (s.runHost 0x23 zone [band] (cmdScan zone band))

/-- ABORT_RADIO (R138). -/
def execAbortRadio (s : State) : Host.Outcome State Fault Refusal := .next (s.runHost 0x24 0 [] cmdAbortRadio)

/-- SET_REGION (R132). -/
def execSetRegion (a : RegionArgs) (s : State) : Host.Outcome State Fault Refusal :=
  .next (s.runHost 0x25 0
    (leBytes 2 a.fmStep.toNat ++ [a.amGrid, a.fmLevel, a.amLevel, a.fmOffset, a.amOffset, a.errK]
      ++ leBytes 4 a.ampLow.toNat ++ leBytes 4 a.ampHigh.toNat ++ [a.blendLo, a.blendHi, a.forcedMono])
    (cmdSetRegion a))

/-- CLEAR_STATIONS (R155). -/
def execClearStations (selector : Byte) (s : State) : Host.Outcome State Fault Refusal :=
  .next (s.runHost 0x26 0 [selector] (cmdClearStations selector))

/-- STORE_PRESET (R157). -/
def execStorePreset (index : Byte) (label : LabelArg) (s : State) : Host.Outcome State Fault Refusal :=
  .next (s.runHost 0x28 index (labelArgBytes label) (cmdStorePreset index label))

/-- SET_PRESET (R158). -/
def execSetPreset (index band : Byte) (freq : BitVec 32) (label : LabelArg) (s : State) :
    Host.Outcome State Fault Refusal :=
  .next (s.runHost 0x29 index ([band, 0, 0, 0] ++ leBytes 4 freq.toNat ++ labelArgBytes label)
    (cmdSetPreset index band freq label))

/-- CLEAR_PRESET (R158). -/
def execClearPreset (index : Byte) (s : State) : Host.Outcome State Fault Refusal :=
  .next (s.runHost 0x2A index [] (cmdClearPreset index))

/-- RECALL_PRESET (R159). -/
def execRecallPreset (zone index : Byte) (s : State) : Host.Outcome State Fault Refusal :=
  .next (s.runHost 0x2B zone [index] (cmdRecallPreset zone index))

/-- ASSIGN_OUTPUT (R164). -/
def execAssignOutput (channel role : Byte) (s : State) : Host.Outcome State Fault Refusal :=
  .next (s.runHost 0x30 channel [role] (cmdAssignOutput channel role))

/-- SET_CHANNEL (R165). -/
def execSetChannel (channel : Byte) (trim : BitVec 8) (delay : BitVec 16) (polarity size : Byte) (s : State) :
    Host.Outcome State Fault Refusal :=
  .next (s.runHost 0x31 channel ([trim, 0] ++ leBytes 2 delay.toNat ++ [polarity, size])
    (cmdSetChannel channel trim delay polarity size))

/-- SET_BASS (R171). -/
def execSetBass (hz : Byte) (s : State) : Host.Outcome State Fault Refusal := .next (s.runHost 0x32 0 [hz] (cmdSetBass hz))

/-- CLEAR_FAULT (R191), with the fault lines at their present level. -/
def execClearFault (pair : Byte) (faults : BitVec 6) (s : State) : Host.Outcome State Fault Refusal :=
  .next ({ s with pins := { s.pins with faults := faults } }.runHost 0x38 pair [] (cmdClearFault pair))

/-- SET_PROTECT (R192). -/
def execSetProtect (pair detect retry : Byte) (s : State) : Host.Outcome State Fault Refusal :=
  .next (s.runHost 0x39 pair [detect, retry] (cmdSetProtect pair detect retry))

/-- UNKNOWN_OPCODE (R16): an opcode that is in the table of 11.2 is not this row's, and nothing happens. -/
def execUnknownOpcode (opcode target : Byte) (s : State) : Host.Outcome State Fault Refusal :=
  .next (if opcode.toNat ∈ knownOpcodes then s else s.runHost opcode.toNat target [] cmdUnknown)

/-! ## Producers (R10, R19) -/

/-- REPORT_WRITE (R19): the oldest pending report is written when entry w is free and the queue has a place. -/
def execReportWrite (s : State) : Host.Outcome State Fault Refusal := .next s.writePending

/-- The tap unit's step at a free place (R10, R44, R45, R47): its next write; when none is left, the return of an
UNBIND_TAP may be placed. That the return also waits for closing writes of slots offered meanwhile is the model's choice
(log 47). -/
def State.tapEnqueue (s : State) : State :=
  let s1 := s.tapMove.1
  if s1.tap.unbinding && s1.tap.outbox.isEmpty then
    s1.endUnbinding.placeCommandReturn
  else s1

/-- The mirror's step at a free place (R10, R24): its next write; when it was the last that a SNAPSHOT asked for, the
command's return may be placed. -/
def State.mirrorEnqueue (s : State) : State :=
  let s1 := s.mirrorMove
  if s1.mirror.job = none then s1.placeCommandReturn else s1

/-- PRODUCER_ENQUEUE (R10): the producer named takes the free place, if it waits for one. -/
def execProducerEnqueue (p : Producer) (s : State) : Host.Outcome State Fault Refusal :=
  .next (match p with
    | .command => s.placeCommandReturn
    | .report => s.writePending
    | .intake => s.placeReturn
    | .tap => s.tapEnqueue
    | .mirror => s.mirrorEnqueue)

end Sys2Proof.Machine
end

