-- ==== Sys2Proof/Machine/Link.lean ====
section
/-! DEFINITION. The pass-through port and the M-side arbiter (R1, R2, R8 to R14, R20), link reset (R27) and power-on
(R26). -/

namespace Sys2Proof.Machine

open Sys2Proof

/-! ## Acceptance and holds (R2, R11, R12) -/

/-- A starvation hold is due: the forward count has reached 32 and the queue is not empty (R11). -/
def State.starvationDue (s : State) : Bool := decide (32 ≤ s.link.forwardCount) && !s.link.injq.isEmpty

/-- The part withholds acceptance (R2): a starvation hold is due or runs, or the overlap rule holds the next request,
which is not accepted before its hold ends. -/
def State.acceptHeld (s : State) : Bool :=
  s.starvationDue || decide (0 < s.link.starve) || decide (0 < s.link.overlapLeft)

/-- A request overlaps a queued write: their address ranges meet (R12, log 11). -/
def overlapsWrite (r : Request) (i : Injected) : Bool :=
  decide (r.addr < i.write.addr + i.write.data.length) && decide (i.write.addr < r.addr + r.len)

/-- How many queued writes are to issue before a request: up to and including the last that overlaps it (R12). -/
def overlapCount (r : Request) : List Injected → Nat
  | [] => 0
  | i :: is =>
    let n := overlapCount r is
    if n = 0 then (if overlapsWrite r i then 1 else 0) else n + 1

/-- The longest waiting request becomes the next to be forwarded, be it held by a starvation hold or not: the overlap
rule looks at the queue as it stands at that moment, before the request is accepted, and later joiners do not count
(R12). -/
def State.countOverlap (s : State) : State :=
  match s.link.waiting with
  | [] => s
  | r :: _ => { s with link := { s.link with overlapLeft := overlapCount r s.link.injq } }

/-- The waiting request is accepted when nothing holds the P side, and so when its hold ends (R2). -/
def State.acceptWaiting (s : State) : State :=
  if s.link.slot.isSome || s.acceptHeld then s
  else
    match s.link.waiting with
    | [] => s
    | r :: rs => { s with link := { s.link with waiting := rs, slot := some r } }

/-- The host presents a request (R2): behind the accepted one and those that wait already it only waits; with none ahead
of it, it is the next to be forwarded (log 10). -/
def State.presentRequest (s : State) (r : Request) : State :=
  let s1 := { s with link := { s.link with waiting := s.link.waiting ++ [r] } }
  (if s.link.slot = none ∧ s.link.waiting = [] then s1.countOverlap else s1).acceptWaiting

/-- HOST_REQUEST_ACCEPT (R2): a request the link cannot carry is a fault (log 14); a request that is held waits. -/
def execHostRequestAccept (r : Request) (s : State) : Host.Outcome State Fault Refusal :=
  if r.wf then .next (s.presentRequest r) else .fault .malformedRequest

/-! ## Observation (R8, R9, R14, R20) -/

/-- An observed write to the command ring (R14): into a host-owned slot the bytes other than the owner byte are copied,
then owner PART hands the slot over; into a part-owned slot it is ignored. -/
def State.observeCommand (s : State) (got : List (Nat × Byte)) (i : Fin 64) : State :=
  if getAt s.cmd.part i then s
  else
    let bytes := got.filter fun ab => decide (ab.1 ≠ 64 * i.val)
    let owner := got.find? fun ab => decide (ab.1 = 64 * i.val)
    let s1 := { s with cmd := { s.cmd with shadow := memStore bytes s.cmd.shadow } }
    match owner with
    | some (_, b) => if b = 1 then { s1 with cmd := { s1.cmd with part := setAt s1.cmd.part i true } } else s1
    | none => s1

/-- An observed write to the report ring (R20): owner PART frees a host-owned entry; owner bytes act in address order
(R9). -/
def State.observeReport (s : State) : List (Nat × Byte) → State
  | [] => s
  | (a, b) :: rest =>
    let s1 :=
      if a % 32 = 0 ∧ b = 1 then
        { s with rep := { s.rep with
            entryHost := setAt s.rep.entryHost ⟨a / 32 % 128, Nat.mod_lt _ (by decide)⟩ false } }
      else s
    s1.observeReport rest

/-- An observed write into the anchor, at its offsets (R3, R8). -/
def State.observeAnchor (s : State) (w : LinkWrite) : State :=
  let off := w.addr - s.anchorBase
  let got := (capturedOf w).map fun ab => (ab.1 - s.anchorBase, ab.2)
  if off < 4096 then s.observeCommand got ⟨off / 64 % 64, Nat.mod_lt _ (by decide)⟩
  else s.observeReport (got.map fun ab => (ab.1 - 4096, ab.2))

/-- A forwarded write is observed by the unit that owns its range (R8). -/
def State.observe (s : State) (w : LinkWrite) : State :=
  match s.windowAt w.addr with
  | none => s
  | some i =>
    match s.window i with
    | .anchor _ => s.observeAnchor w
    | .stream _ _ _ => s.observeStream i w
    | .tap _ _ _ => s.observeTap i w
    | .free | .mirror _ => s

/-! ## Forwarding (R1, R11) -/

/-- The accepted request may be forwarded: nothing holds the P side (R2, R11, R12). -/
def State.mayForward (s : State) : Bool := !s.acceptHeld

/-- A request goes to the M side unchanged (R1), and the forward count rises when the queue waits too (R11). -/
def State.putForward (s : State) (r : Request) : State :=
  { s with link := { s.link with
      slot := none
      mSide := some r
      inFlight := s.link.inFlight ++ [.host r]
      forwardCount := if s.link.injq.isEmpty then s.link.forwardCount else s.link.forwardCount + 1 } }

/-- Only writes are observed (R8). -/
def State.observeRequest (s : State) : Request → State
  | .read _ _ => s
  | .write w => s.observe w

/-- REQUEST_FORWARD (R1, R8, R11): the accepted request is forwarded when nothing holds it, and observed; the request
behind it becomes the next to be forwarded (R12). -/
def execRequestForward (s : State) : Host.Outcome State Fault Refusal :=
  .next (match s.link.slot with
    | none => s
    | some r => if s.mayForward then ((s.putForward r).observeRequest r).countOverlap.acceptWaiting else s)

/-- What a response answers (R1): a host request's is passed back unchanged, an injected write's is absorbed, and one of
a request discarded by link reset too (R27). -/
def State.passBack (s : State) (data : List Byte) : InFlight → State
  | .host r => { s with link := { s.link with pSide := some { request := r, data := data } } }
  | .discarded _ | .injected _ => s

/-- DRAM_RESPONSE (R1): the answer to the oldest request in flight. -/
def execDramResponse (data : List Byte) (s : State) : Host.Outcome State Fault Refusal :=
  .next (match s.link.inFlight with
    | [] => s
    | x :: rest => { s with link := { s.link with inFlight := rest } }.passBack data x)

/-! ## Issuing (R10 to R13) -/

/-- A slot or entry becomes host-owned when the write that carries owner HOST is issued (R13). -/
def State.issued (s : State) : Origin → State
  | .command i => { s with cmd := { s.cmd with part := setAt s.cmd.part i false } }
  | .report e => { s with rep := { s.rep with entryHost := setAt s.rep.entryHost e true } }
  | .stream w i => s.slotReturned w i
  | .tapClose i => s.tapReturned i
  | .tapData _ | .sect | .orphan => s

/-- The arbiter issues the queue head: no request waits, or an overlap or starvation hold asks for it (R11, R12). A
starvation hold that is due starts before another write is issued. -/
def State.mayIssue (s : State) : Bool :=
  decide (0 < s.link.starve) || (!s.starvationDue && (s.link.slot.isNone || decide (0 < s.link.overlapLeft)))

/-- The counts after a write has left the queue, with `rest` still in it (R11, R12): an empty queue sets the forward
count to 0, and so does the end of a starvation hold. R12 lets the count stand while writes are issued for the overlap
rule; that an issue for it that empties the queue sets the count to 0 too, as R11 says of every one, is the model's
choice (log 68). -/
def Link.afterIssue (l : Link) (rest : List Injected) : Link :=
  { l with
    injq := rest
    overlapLeft := l.overlapLeft - 1
    starve := if rest.isEmpty then 0 else l.starve - 1
    forwardCount := if rest.isEmpty ∨ l.starve = 1 then 0 else l.forwardCount }

/-- A queued write is put on the M side whole (R10, R12). -/
def State.putInjected (s : State) (i : Injected) (rest : List Injected) : State :=
  let l := s.link.afterIssue rest
  { s with link := { l with
      mSide := some (.write i.write)
      inFlight := l.inFlight ++ [InFlight.injected i.write] } }

/-- INJECTED_WRITE_ISSUE (R10, R13): the head is issued whole on the M side. -/
def execInjectedWriteIssue (s : State) : Host.Outcome State Fault Refusal :=
  .next (match s.link.injq with
    | [] => s
    | i :: rest =>
      if s.mayIssue = false then s
      else
        ((s.putInjected i rest).issued i.origin).acceptWaiting)

/-- STARVATION_HOLD (R11): the hold starts, for four writes or until the queue is empty. -/
def execStarvationHold (s : State) : Host.Outcome State Fault Refusal :=
  .next (if s.starvationDue && decide (s.link.starve = 0) then { s with link := { s.link with starve := 4 } } else s)

/-! ## Resets (R26, R27) -/

/-- What stands on the M side after a link reset: the responses of forwarded requests will be discarded (R27). -/
def InFlight.afterReset : InFlight → InFlight
  | .host r => .discarded r
  | .discarded r => .discarded r
  | .injected w => .injected w

/-- The link after a link reset (R27). R27 does not say what the two sides show then: that the last response shown on
the P side goes, and the last request put on the M side stays, is the model's choice (log 12). -/
def Link.reset (l : Link) : Link := { Link.powerOn with inFlight := l.inFlight.map InFlight.afterReset, mSide := l.mSide }

/-- A window is released whatever its binding (R27). -/
def State.freeWindow (s : State) (i : Fin 16) : State := (s.discardWindow i).setWindow i .free

/-- The tag of an outstanding switch becomes none (R27, R84). R90's table calls the tag kept at link reset: the model
follows R27 and R84 (log 51). -/
def State.dropSwitchTag (s : State) (z : Zone) : State := s.setZone z { s.zone z with tag := none }

/-- The tag of an outstanding radio operation becomes none (R27, R145). -/
def Tuner.dropTag (t : Tuner) : Tuner := { t with op := t.op.map fun op => { op with tag := none } }

/-- Link reset (R27). The paths are kept as they stand (R109): one bound to a STREAM source finds it not present while its
entry names no window (R39). -/
def State.linkReset (s : State) : State :=
  let s1 := { s with link := s.link.reset, intakeWait := [], cmd := CommandUnit.powerOn, rep := ReportUnit.powerOn }
  let s2 := forEach (fun i t => t.freeWindow i) ((List.finRange 16).filter fun i => decide (i.val ≠ 0)) s1
  let s3 := (s2.dropSection.dropSwitchTag .main).dropSwitchTag .zone2
  { s3 with tuner := s3.tuner.dropTag, tap := Tap.powerOn }

/-- LINK_RESET (R27). -/
def execLinkReset (s : State) : Host.Outcome State Fault Refusal := .next s.linkReset

/-- POWER_ON (R26, R3): the straps are latched and every unit takes its power-on state. The queue of waiting commands
and the free-value counter are the model's own and are kept. -/
def execPowerOn (straps : BitVec 4) (s : State) : Host.Outcome State Fault Refusal :=
  .next { State.powerOn straps with pending := s.pending, freeIdx := s.freeIdx }

end Sys2Proof.Machine
end

