-- ==== Sys2Proof/Machine/Block.lean ====
section
/-! DEFINITION. The output block (00_scope 3.1, R162), as a row of stages in the order of log 3. Each stage begins with
all stages before it, and a part that an earlier row of the same block has made is not made again (log 2). -/

namespace Sys2Proof.Machine

open Sys2Proof

/-- The block has begun: the block counter has risen (00_scope 3.1, R19, log 15). -/
def State.begun (s : State) : State := takePart .begin (fun t => { t with block := t.block + 1 }) s

/-- The block after the lanes' parts. -/
def State.lanesMade (s : State) : State :=
  forEach (fun l => takePart (.lane l) fun t => t.laneBlock l) (List.finRange 4) s.begun

/-- The block after the paths' parts. -/
def State.pathsMade (s : State) : State :=
  takePart (.path .p1) (fun t => t.pathBlock .p1) (takePart (.path .p0) (fun t => t.pathBlock .p0) s.lanesMade)

/-- The block after the tuner's part. Its frames are placed after the trackers have taken B (R139). -/
def State.tunerMade (s : State) : State := takePart .tuner State.tunerBlock s.pathsMade

/-- The block after the zones' parts. -/
def State.zonesMade (s : State) : State :=
  takePart (.zone .zone2) (fun t => t.zoneBlock .zone2)
    (takePart (.zone .main) (fun t => t.zoneBlock .main) s.tunerMade)

/-- The block after the thermal record's part, with the thermal line as the block samples it (R184, R193). -/
def State.thermalMade (s : State) (therm : Bool) : State :=
  takePart .thermal (fun t => t.thermalBlock therm) s.zonesMade

/-- The block after the channel ramps (R176). -/
def State.rampsMade (s : State) (therm : Bool) : State :=
  forEach (fun c => takePart (.ramp c) fun t => t.rampBlock c) (List.finRange 12) (s.thermalMade therm)

/-- The block after the pairs' parts, with the fault lines as the block samples them (R184). -/
def State.pairsMade (s : State) (faults : BitVec 6) (therm : Bool) : State :=
  forEach (fun n => takePart (.pair n) fun t => t.pairPart n (faults.getLsbD n.val)) (List.finRange 6)
    (s.rampsMade therm)

/-- The block after the ends of soft starts (R177, R188). -/
def State.startsMade (s : State) (faults : BitVec 6) (therm : Bool) : State :=
  forEach (fun n t => t.softStartBlock n) (List.finRange 6) (s.pairsMade faults therm)

/-- The block after the change groups (R166, R167). -/
def State.groupsMade (s : State) (faults : BitVec 6) (therm : Bool) : State :=
  forEach (fun g t => t.groupBlock g) (List.finRange 12) (s.startsMade faults therm)

/-- The falls of Lr that are due, the mix, and what the channels play (R162, R178). -/
def State.soundPart (s : State) : State :=
  (forEach (fun c t => t.setChan c (t.chan c).applyDue) (List.finRange 12) s).mixBlock.soundBlock

/-- The block after the playing of the channels. -/
def State.soundMade (s : State) (faults : BitVec 6) (therm : Bool) : State :=
  takePart .sound State.soundPart (s.groupsMade faults therm)

/-- The block after the limiter (R178, R179). -/
def State.limiterMade (s : State) (faults : BitVec 6) (therm : Bool) : State :=
  forEach (fun c => takePart (.limiter c) fun t => t.limitPart c) (List.finRange 12) (s.soundMade faults therm)

/-- The tap takes the frames of its point (R44, R124). -/
def State.tapPart (s : State) : State :=
  match s.tap.binding with
  | none => s
  | some (_, point) => s.tapBlock (s.tapPoint point)

/-- The block after the tap's part. -/
def State.tapMade (s : State) (faults : BitVec 6) (therm : Bool) : State :=
  takePart .tap State.tapPart (s.limiterMade faults therm)

/-- The block after the meter period count (R181). -/
def State.metersMade (s : State) (faults : BitVec 6) (therm : Bool) : State :=
  takePart .meters State.meterBlock (s.tapMade faults therm)

/-- The block ends: the next block's free values are others, and its parts are all to be made. -/
def State.endBlock (s : State) : State := { s.mixAfterAdoption with freeIdx := s.freeIdx + 1, taken := [] }

/-- One output block, or what is left of it: the lines are those it samples (R184). -/
def State.outputBlock (s : State) (faults : BitVec 6) (therm : Bool) : State :=
  (({ s with pins := { faults := faults, therm := therm } }).metersMade faults therm).endBlock

/-- OUTPUT_BLOCK (R162), with the fault lines and the thermal line as the block samples them. -/
def execOutputBlock (faults : BitVec 6) (therm : Bool) (s : State) : Host.Outcome State Fault Refusal :=
  .next (s.outputBlock faults therm)

end Sys2Proof.Machine
end

