-- ==== Sys2Proof/Machine/Events.lean ====
section
/-! DEFINITION. The rows for the events within an output block (log 2). Each makes the stages of the block that come
before the unit's own part and, when its event occurs then, the unit's part, with the reports stamped as that block's;
when it does not occur nothing happens. Parts of one stage can be made in any order. -/

namespace Sys2Proof.Machine

open Sys2Proof

/-! ## Lanes, paths and the tuner -/

/-- LANE_LOSS (R56), as a step of its own (log 2). -/
def execLaneLoss (l : Fin 4) (s : State) : Host.Outcome State Fault Refusal :=
  .next (blockEvent (.lane l) State.begun (State.laneLossOccurs l) (fun t => t.laneBlock l) s)

/-- A path's event: the lanes' parts come before the path's. -/
def pathEvent (p : PathId) (occurs : State → PathId → Bool) (s : State) : State :=
  blockEvent (.path p) State.lanesMade (fun t => occurs t p) (fun t => t.pathBlock p) s

/-- FORMAT_ADOPTION (R93), as a step of its own (log 2). -/
def execFormatAdoption (p : PathId) (s : State) : Host.Outcome State Fault Refusal :=
  .next (pathEvent p State.adoptionOccurs s)

/-- PREFILL_EXIT (R99), as a step of its own (log 2). -/
def execPrefillExit (p : PathId) (s : State) : Host.Outcome State Fault Refusal :=
  .next (pathEvent p State.prefillExitOccurs s)

/-- GAIN_CHECK (R100), as a step of its own (log 2). -/
def execGainCheck (p : PathId) (s : State) : Host.Outcome State Fault Refusal :=
  .next (pathEvent p State.gainCheckOccurs s)

/-- ACQUIRE_LOCK (R100), as a step of its own (log 2). -/
def execAcquireLock (p : PathId) (s : State) : Host.Outcome State Fault Refusal :=
  .next (pathEvent p State.acquireLockOccurs s)

/-- SLIP (R102), as a step of its own (log 2). -/
def execSlip (p : PathId) (s : State) : Host.Outcome State Fault Refusal := .next (pathEvent p State.slipOccurs s)

/-- HOLD_ENTRY (R105), as a step of its own (log 2). -/
def execHoldEntry (p : PathId) (s : State) : Host.Outcome State Fault Refusal :=
  .next (pathEvent p State.holdEntryOccurs s)

/-- HOLD_EXIT (R105), as a step of its own (log 2). -/
def execHoldExit (p : PathId) (s : State) : Host.Outcome State Fault Refusal :=
  .next (pathEvent p State.holdExitOccurs s)

/-- A tuner's event: the paths' parts come before the tuner's, whose frames count after B has been taken (R139). -/
def tunerEvent (occurs : State → Bool) (s : State) : State :=
  blockEvent .tuner State.pathsMade occurs State.tunerBlock s

/-- ACK_TIMEOUT (R127), as a step of its own (log 2). -/
def execAckTimeout (s : State) : Host.Outcome State Fault Refusal := .next (tunerEvent State.ackTimeoutOccurs s)

/-- STATUS_SILENCE (R129), as a step of its own (log 2). -/
def execStatusSilence (s : State) : Host.Outcome State Fault Refusal := .next (tunerEvent State.statusSilenceOccurs s)

/-- SETTLE_LIMIT (R137), as a step of its own (log 2). -/
def execSettleLimit (s : State) : Host.Outcome State Fault Refusal := .next (tunerEvent State.settleLimitOccurs s)

/-- DWELL_END (R147), as a step of its own (log 2). -/
def execDwellEnd (s : State) : Host.Outcome State Fault Refusal := .next (tunerEvent State.dwellEndOccurs s)

/-- BLEND_STEP (R142), as a step of its own (log 2). -/
def execBlendStep (s : State) : Host.Outcome State Fault Refusal := .next (tunerEvent State.blendStepOccurs s)

/-! ## Zones -/

/-- A zone's event: the tuner's part comes before the zone's, so that a setting at a block follows that block's rise of a
count (R142). -/
def zoneEvent (z : Zone) (occurs : State → Bool) (s : State) : State :=
  blockEvent (.zone z) State.tunerMade occurs (fun t => t.zoneBlock z) s

/-- FADE_OUT_END (R81), as a step of its own (log 2). -/
def execFadeOutEnd (z : Zone) (s : State) : Host.Outcome State Fault Refusal :=
  .next (zoneEvent z (State.fadeOutEndOccurs z) s)

/-- WAIT_READY_END (R82), as a step of its own (log 2). -/
def execWaitReadyEnd (z : Zone) (s : State) : Host.Outcome State Fault Refusal :=
  .next (zoneEvent z (State.waitReadyEndOccurs z) s)

/-- SOURCE_ABSENT (R82), as a step of its own (log 2). -/
def execSourceAbsent (z : Zone) (s : State) : Host.Outcome State Fault Refusal :=
  .next (zoneEvent z (State.sourceAbsentOccurs z) s)

/-- SWITCH_COMPLETE (R83), as a step of its own (log 2). -/
def execSwitchComplete (z : Zone) (s : State) : Host.Outcome State Fault Refusal :=
  .next (zoneEvent z (State.switchCompleteOccurs z) s)

/-- GOING_STANDBY_END (R86), as a step of its own (log 2). -/
def execGoingStandbyEnd (z : Zone) (s : State) : Host.Outcome State Fault Refusal :=
  .next (zoneEvent z (State.goingStandbyEndOccurs z) s)

/-- SLEEP_MINUTE (R87), as a step of its own (log 2). -/
def execSleepMinute (z : Zone) (s : State) : Host.Outcome State Fault Refusal :=
  .next (zoneEvent z (State.sleepMinuteOccurs z) s)

/-! ## The thermal record and the pairs -/

/-- A thermal event, with the line as that block samples it. -/
def thermalEvent (line : Bool) (occurs : Thermal → Bool) (s : State) : State :=
  blockEvent .thermal State.zonesMade (fun t => occurs t.thermal) (fun t => t.thermalBlock line) s

/-- THERMAL_WARNING_SET (R193), as a step of its own with the line asserted (log 2). -/
def execThermalWarningSet (s : State) : Host.Outcome State Fault Refusal :=
  .next (thermalEvent true Thermal.warningOccurs s)

/-- THERMAL_CLEAR (R193, R194), as a step of its own with the line deasserted (log 2). -/
def execThermalClear (s : State) : Host.Outcome State Fault Refusal :=
  .next (thermalEvent false Thermal.clearOccurs s)

/-- ESCALATION_SET (R194), as a step of its own with the line asserted (log 2). -/
def execEscalationSet (s : State) : Host.Outcome State Fault Refusal :=
  .next (thermalEvent true Thermal.escalationOccurs s)

/-- THERMAL_STEP (R193), as a step of its own with the line as sampled (log 2). -/
def execThermalStep (therm : Bool) (s : State) : Host.Outcome State Fault Refusal :=
  .next (thermalEvent therm Thermal.stepOccurs s)

/-- A pair's event: the channel ramps come before the pairs. `occurs` reads the pair and whether it has the fault
condition. -/
def pairEvent (n : Fin 6) (line therm : Bool) (occurs : Pair → Bool → Bool) (s : State) : State :=
  blockEvent (.pair n) (fun t => t.rampsMade therm) (fun t => occurs (t.pair n) (t.faultCondition line))
    (fun t => t.pairPart n line) s

/-- PROTECT_ENTRY (R185), as a step of its own (log 2). -/
def execProtectEntry (n : Fin 6) (line therm : Bool) (s : State) : Host.Outcome State Fault Refusal :=
  .next (pairEvent n line therm Pair.protectOccurs s)

/-- RECOVER_WAIT_EXPIRY (R187), as a step of its own (log 2). -/
def execRecoverWaitExpiry (n : Fin 6) (line therm : Bool) (s : State) : Host.Outcome State Fault Refusal :=
  .next (pairEvent n line therm Pair.expiryOccurs s)

/-- NORMAL_RUN_EXPIRY (R189), as a step of its own (log 2). -/
def execNormalRunExpiry (n : Fin 6) (line therm : Bool) (s : State) : Host.Outcome State Fault Refusal :=
  .next (pairEvent n line therm Pair.runOccurs s)

/-! ## The channels -/

/-- SOFT_START_COUNT (R176), as a step of its own (log 2): the thermal record comes before the ramps, since an asserted
line holds the rise. -/
def execSoftStartCount (c : Fin 12) (therm : Bool) (s : State) : Host.Outcome State Fault Refusal :=
  .next (blockEvent (.ramp c) (fun t => t.thermalMade therm) (State.softCountOccurs c) (fun t => t.rampBlock c) s)

/-- SOFT_START_END (R177, R188), as a step of its own: both channels have reached r_ch 0 once the ramps have moved. The
pairs' counts need not have been made, so that either order of an end and a count can be commanded (log 28). -/
def execSoftStartEnd (u : PairLine) (s : State) : Host.Outcome State Fault Refusal :=
  .next (let b := s.rampsMade u.therm
    if b.softStartDone u.pair then b.endSoftStart u.pair else s)

/-- CHANGE_GROUP_APPLY (R167), as a step of its own (log 2): the group of the channel applies when every channel of it is
silent once the ramps, the pairs and the soft starts have had their part. -/
def execChangeGroupApply (u : ChannelLines) (s : State) : Host.Outcome State Fault Refusal :=
  .next (let b := s.startsMade u.lines.faults u.lines.therm
    match (b.chan u.channel).group with
    | none => s
    | some g => if b.groupSilent g then b.applyGroup g else s)

/-- LIMITER_RELEASE (R179), as a step of its own (log 2): the gain stage comes before the limiter, which reads its block
peak. -/
def execLimiterRelease (c : Fin 12) (lines : Lines) (s : State) : Host.Outcome State Fault Refusal :=
  .next (blockEvent (.limiter c) (fun t => t.soundMade lines.faults lines.therm) (State.limiterReleaseOccurs c)
    (fun t => t.limitPart c) s)

/-- METER_PERIOD_END (R181), as a step of its own (log 2): the meter period count wraps, after everything the meters
read. It carries no levels: a line that no row of the block has sampled yet stands as last seen. -/
def execMeterPeriodEnd (s : State) : Host.Outcome State Fault Refusal :=
  .next (blockEvent .meters (fun t => t.tapMade s.pins.faults s.pins.therm) (fun t => decide (t.out.meterPeriod = 99))
    State.meterBlock s)

end Sys2Proof.Machine
end

