-- ==== Sys2Proof/Machine/Dispatch.lean ====
section
/-! DEFINITION. The dispatch of a command to its meaning, one arm per constructor of Instr. -/

namespace Sys2Proof.Machine

open Sys2Proof

def exec (i : Instr) (s : State) : Host.Outcome State Fault Refusal :=
  match i with
  | .powerOn straps => Sys2Proof.Machine.execPowerOn straps s
  | .linkReset => Sys2Proof.Machine.execLinkReset s
  | .hostRequestAccept r => Sys2Proof.Machine.execHostRequestAccept r s
  | .requestForward => Sys2Proof.Machine.execRequestForward s
  | .dramResponse data => Sys2Proof.Machine.execDramResponse data s
  | .injectedWriteIssue => Sys2Proof.Machine.execInjectedWriteIssue s
  | .starvationHold => Sys2Proof.Machine.execStarvationHold s
  | .producerEnqueue p => Sys2Proof.Machine.execProducerEnqueue p s
  | .takeCommand faults => Sys2Proof.Machine.execTakeCommand faults s
  | .reportWrite => Sys2Proof.Machine.execReportWrite s
  | .nop => Sys2Proof.Machine.execNop s
  | .restart => Sys2Proof.Machine.execRestart s
  | .defineWindow index kind slotCount slotSize base => Sys2Proof.Machine.execDefineWindow index kind slotCount slotSize base s
  | .releaseWindow index => Sys2Proof.Machine.execReleaseWindow index s
  | .snapshot sect => Sys2Proof.Machine.execSnapshot sect s
  | .setMeters onOff => Sys2Proof.Machine.execSetMeters onOff s
  | .bindTap index point => Sys2Proof.Machine.execBindTap index point s
  | .unbindTap => Sys2Proof.Machine.execUnbindTap s
  | .setLane lane enable threshold replacement => Sys2Proof.Machine.execSetLane lane enable threshold replacement s
  | .defineSource entry a => Sys2Proof.Machine.execDefineSource entry a s
  | .clearSource entry => Sys2Proof.Machine.execClearSource entry s
  | .selectSource zone source => Sys2Proof.Machine.execSelectSource zone source s
  | .zonePowerOn zone => Sys2Proof.Machine.execZonePowerOn zone s
  | .zonePowerStandby zone => Sys2Proof.Machine.execZonePowerStandby zone s
  | .mute zone onOff => Sys2Proof.Machine.execMute zone onOff s
  | .setVolume zone level => Sys2Proof.Machine.execSetVolume zone level s
  | .setZone zone rampRate avDelay ceiling => Sys2Proof.Machine.execSetZone zone rampRate avDelay ceiling s
  | .setSleep zone minutes => Sys2Proof.Machine.execSetSleep zone minutes s
  | .retrack zone => Sys2Proof.Machine.execRetrack zone s
  | .setDecode zone mode => Sys2Proof.Machine.execSetDecode zone mode s
  | .tune zone band freq => Sys2Proof.Machine.execTune zone band freq s
  | .step zone dir => Sys2Proof.Machine.execStep zone dir s
  | .seek zone dir => Sys2Proof.Machine.execSeek zone dir s
  | .scan zone band => Sys2Proof.Machine.execScan zone band s
  | .abortRadio => Sys2Proof.Machine.execAbortRadio s
  | .setRegion a => Sys2Proof.Machine.execSetRegion a s
  | .clearStations selector => Sys2Proof.Machine.execClearStations selector s
  | .storePreset index label => Sys2Proof.Machine.execStorePreset index label s
  | .setPreset index band freq label => Sys2Proof.Machine.execSetPreset index band freq label s
  | .clearPreset index => Sys2Proof.Machine.execClearPreset index s
  | .recallPreset zone index => Sys2Proof.Machine.execRecallPreset zone index s
  | .assignOutput channel role => Sys2Proof.Machine.execAssignOutput channel role s
  | .setChannel channel trim delay polarity size => Sys2Proof.Machine.execSetChannel channel trim delay polarity size s
  | .setBass hz => Sys2Proof.Machine.execSetBass hz s
  | .clearFault pair faults => Sys2Proof.Machine.execClearFault pair faults s
  | .setProtect pair detect retry => Sys2Proof.Machine.execSetProtect pair detect retry s
  | .unknownOpcode opcode target => Sys2Proof.Machine.execUnknownOpcode opcode target s
  | .unpackFrame path => Sys2Proof.Machine.execUnpackFrame path s
  | .streamIdle window => Sys2Proof.Machine.execStreamIdle window s
  | .outputBlock faults therm => Sys2Proof.Machine.execOutputBlock faults therm s
  | .laneLoss lane => Sys2Proof.Machine.execLaneLoss lane s
  | .realignDeassert lane => Sys2Proof.Machine.execRealignDeassert lane s
  | .laneFrame lane f => Sys2Proof.Machine.execLaneFrame lane f s
  | .fadeOutEnd zone => Sys2Proof.Machine.execFadeOutEnd zone s
  | .waitReadyEnd zone => Sys2Proof.Machine.execWaitReadyEnd zone s
  | .sourceAbsent zone => Sys2Proof.Machine.execSourceAbsent zone s
  | .switchComplete zone => Sys2Proof.Machine.execSwitchComplete zone s
  | .goingStandbyEnd zone => Sys2Proof.Machine.execGoingStandbyEnd zone s
  | .sleepMinute zone => Sys2Proof.Machine.execSleepMinute zone s
  | .formatAdoption path => Sys2Proof.Machine.execFormatAdoption path s
  | .prefillExit path => Sys2Proof.Machine.execPrefillExit path s
  | .gainCheck path => Sys2Proof.Machine.execGainCheck path s
  | .acquireLock path => Sys2Proof.Machine.execAcquireLock path s
  | .slip path => Sys2Proof.Machine.execSlip path s
  | .holdEntry path => Sys2Proof.Machine.execHoldEntry path s
  | .holdExit path => Sys2Proof.Machine.execHoldExit path s
  | .changeGroupApply unit => Sys2Proof.Machine.execChangeGroupApply unit s
  | .softStartCount channel therm => Sys2Proof.Machine.execSoftStartCount channel therm s
  | .softStartEnd unit => Sys2Proof.Machine.execSoftStartEnd unit s
  | .limiterRelease channel lines => Sys2Proof.Machine.execLimiterRelease channel lines s
  | .meterPeriodEnd => Sys2Proof.Machine.execMeterPeriodEnd s
  | .protectEntry pair line therm => Sys2Proof.Machine.execProtectEntry pair line therm s
  | .recoverWaitExpiry pair line therm => Sys2Proof.Machine.execRecoverWaitExpiry pair line therm s
  | .normalRunExpiry pair line therm => Sys2Proof.Machine.execNormalRunExpiry pair line therm s
  | .thermalWarningSet => Sys2Proof.Machine.execThermalWarningSet s
  | .thermalClear => Sys2Proof.Machine.execThermalClear s
  | .escalationSet => Sys2Proof.Machine.execEscalationSet s
  | .thermalStep therm => Sys2Proof.Machine.execThermalStep therm s
  | .feAcknowledgement request identity => Sys2Proof.Machine.execFeAcknowledgement request identity s
  | .ackTimeout => Sys2Proof.Machine.execAckTimeout s
  | .feStatusRecord settled level offset => Sys2Proof.Machine.execFeStatusRecord settled level offset s
  | .feBurst pairs => Sys2Proof.Machine.execFeBurst pairs s
  | .statusSilence => Sys2Proof.Machine.execStatusSilence s
  | .settleLimit => Sys2Proof.Machine.execSettleLimit s
  | .dwellEnd => Sys2Proof.Machine.execDwellEnd s
  | .pilotCapture ticks => Sys2Proof.Machine.execPilotCapture ticks s
  | .pilotTimeout => Sys2Proof.Machine.execPilotTimeout s
  | .blendStep => Sys2Proof.Machine.execBlendStep s

end Sys2Proof.Machine
end

