-- ==== Sys2Proof/Safety.lean ====
section
/-! DEFINITION. What the claims speak of: the invariants of the part, and when and how a command of the ring is
answered. -/

namespace Sys2Proof.Machine

open Sys2Proof

/-! ## Invariants -/

/-- A slot record's shadow page, if one is bound, is in canonical form. -/
def SlotRec.pageOk (x : SlotRec) : Bool :=
  match x.page with
  | none => true
  | some m => memWf m

/-- Every shadow page bound to a slot is in canonical form. -/
def State.PagesOk (s : State) : Prop :=
  ∀ i r, s.ring i = some r → ∀ x ∈ r.slots, x.pageOk = true

/-- The memory path's invariant: the command shadow is in canonical form, the injection queue holds at most 16 writes
(R10), the pending queue at most 8 reports (R21) and when full at most one RADIO_STATE (R144), the forward count is at
most 32 (R11), no accepted request is held by the overlap rule (R2), and window 0 is the anchor (R3). -/
structure State.MemoryInv (s : State) : Prop where
  shadow  : memWf s.cmd.shadow = true
  injq    : s.link.injq.length ≤ 16
  pending : s.rep.queue.length ≤ 8
  radio   : s.rep.queue.length = 8 → radioCount s.rep.queue ≤ 1
  forward : s.link.forwardCount ≤ 32
  slot    : s.link.slot.isSome = true → s.link.overlapLeft = 0
  anchor  : s.window 0 = .anchor s.anchorBase

/-- A zone's levels lie in their ranges: r_z in -240 to 0 (R76), the master level in -192 to +24 (R77), the limiter
ceiling in 0 to 24 (R79). -/
structure ZoneRec.LevelsOk (r : ZoneRec) : Prop where
  rampLow     : -240 ≤ r.ramp
  rampHigh    : r.ramp ≤ 0
  targetLow   : -192 ≤ r.masterTarget
  targetHigh  : r.masterTarget ≤ 24
  currentLow  : -192 ≤ r.masterCurrent
  currentHigh : r.masterCurrent ≤ 24
  ceiling     : r.ceiling ≤ 24

/-- A channel's levels lie in their ranges: r_ch in -240 to 0 (R176), Lr in -48 to 0 (R178), trim in -24 to +24
(R165). -/
structure Channel.LevelsOk (c : Channel) : Prop where
  rampLow  : -240 ≤ c.ramp
  rampHigh : c.ramp ≤ 0
  lrLow    : -48 ≤ c.lr
  lrHigh   : c.lr ≤ 0
  trimLow  : -24 ≤ c.trim
  trimHigh : c.trim ≤ 24

/-- The level invariant: every term of the gain sum of R174 stays in its range, with what those terms move toward: the
zone's levels (R75, R76, R77, R79), the input trim of every source entry (R67, R68), the channel's levels (R165, R176, R178)
and the thermal component (R193). -/
structure State.LevelInv (s : State) : Prop where
  zones       : ∀ z, (s.zone z).LevelsOk
  trims       : ∀ e, -24 ≤ (s.source e).trim ∧ (s.source e).trim ≤ 24
  channels    : ∀ c, (s.chan c).LevelsOk
  thermalLow  : -12 ≤ s.thermal.t
  thermalHigh : s.thermal.t ≤ 0
  target      : s.thermal.tTarget = -12 ∨ s.thermal.tTarget = 0

/-- A tracker's values lie in the bounds of R94: |c| at most Cmax (0 without a format), I in 24 bits, g at most 7, F
below 2^24. The nominal step is at most that of 96 kHz and Cmax its 512th (R96), and the step is below three frames
(R98). -/
structure Tracker.BoundsOk (t : Tracker) : Prop where
  corr      : t.corr.natAbs ≤ t.cmax.getD 0
  integLow  : -8388608 ≤ t.integ
  integHigh : t.integ ≤ 8388607
  gain      : t.gain ≤ 7
  phase     : t.phase < 2 ^ 24
  nominal   : ∀ n, t.step0 = some n → n ≤ 2 ^ 25 ∧ t.cmax = some (n / 512)
  step      : ∀ n, t.step = some n → n < 3 * 2 ^ 24

/-- The tracker invariant (R94), with the limits of the source entries it rests on (R67, R68): H at most G, G at most
7. -/
structure State.TrackerInv (s : State) : Prop where
  trackers : ∀ p, (s.path p).tracker.BoundsOk
  entries  : ∀ e, (s.source e).ratchetH ≤ (s.source e).gainG ∧ (s.source e).gainG ≤ 7

/-- A role that any number of channels may hold (R161). -/
abbrev SharedRole (r : Role) : Prop := r = .sw ∨ r = .unused

/-- The roles invariant (R161): among the target roles, and among the applied roles, each role other than SW and UNUSED
is held by at most one channel. A channel that is to take such a role while another still has it applied waits with it in
one change group, so that it takes the role when the other gives it up (the model's way to keep R161, log 66). -/
structure State.RolesInv (s : State) : Prop where
  targets : ∀ c d, c ≠ d → (s.chan c).target.role = (s.chan d).target.role → SharedRole (s.chan c).target.role
  applied : ∀ c d, c ≠ d → (s.chan c).applied.role = (s.chan d).applied.role → SharedRole (s.chan c).applied.role
  waiting : ∀ c d, c ≠ d → (s.chan c).target.role = (s.chan d).applied.role →
    SharedRole (s.chan c).target.role ∨ ∃ g, (s.chan c).group = some g ∧ (s.chan d).group = some g

/-! ## Records -/

/-- The bytes of a record of `n` bytes from a position on: each field at its offset, in rising order, and zero in every
byte that has none (11.6). -/
def recordOf (n : Nat) : Nat → List (Nat × List Byte) → List Byte
  | pos, [] => List.replicate (n - pos) 0
  | pos, (off, bs) :: fields => List.replicate (off - pos) 0 ++ bs ++ recordOf n (off + bs.length) fields

/-! ## Commands of the ring -/

/-- The conditions of R15 but for the owner of slot next: no return waits for a place, fewer than 6 reports are pending,
no section that a SNAPSHOT asked for is being placed, none at all when slot next holds a SNAPSHOT, and UNBIND_TAP is not
in progress. -/
def State.UnitReady (s : State) (opcode : Nat) : Prop :=
  s.cmd.ret = none ∧ s.rep.queue.length < 6 ∧ s.tap.unbinding = false
    ∧ ∀ j, s.mirror.job = some j → j.periodic = true ∧ opcode ≠ 0x04

/-- A row of the command ring stands for the handover of slot next and the taking of its command (log 5): slot next is
host-owned in the part's view, so that it can be handed over (R14), and the other conditions of R15 hold. -/
def State.CommandReady (s : State) (opcode : Nat) : Prop :=
  getAt s.cmd.part s.cmd.next = false ∧ s.UnitReady opcode

/-- What is left when the command in slot next has acted with a result: slot next carries the command (log 5), the
command's effect `f` has taken place, and its return is made (R15, R16). -/
def State.answered (s : State) (opcode target : Byte) (args : List Byte) (res : CmdResult) (val : Int)
    (f : State → State) : State :=
  State.returnCommand { st := f (s.handOver opcode target args), res := res, val := val } opcode target

/-- A command that is refused, or that changes nothing. -/
def State.answeredOnly (s : State) (opcode target : Byte) (args : List Byte) (res : CmdResult) (val : Int) : State :=
  s.answered opcode target args res val id

/-- The return write of slot next (R16): one 8-byte write of the slot word at the slot, which carries owner HOST, the
opcode, the target, the result and the result value. -/
def State.returnWrite (s : State) (opcode target : Byte) (res : CmdResult) (val : Int) : Injected :=
  { write :=
      { addr := s.strap.toNat * 16777216 + 64 * s.cmd.next.val
        data := [0, opcode, target, BitVec.ofNat 8 res.code] ++ leBytesInt 4 val
        mask := [true, true, true, true, true, true, true, true] }
    origin := .command s.cmd.next }

/-- The first of a list of arguments, each as given and as applied, that was clamped: its applied value. -/
def firstClamped : List (Int × Int) → Option Int
  | [] => none
  | (given, applied) :: rest => if given = applied then firstClamped rest else some applied

/-- The result of a command that clamps: CLAMPED with the applied value of the first clamped argument, or OK and 0
(R16). -/
def clampResult (args : List (Int × Int)) : CmdResult × Int :=
  match firstClamped args with
  | none => (.ok, 0)
  | some v => (.clamped, v)

/-- The outcome of the seven checks of R5, in their order. -/
def State.defineWindowResult (s : State) (index kind base size count : Nat) : CmdResult :=
  let length := if kind = 4 then 8192 else size * count
  if index < 1 ∨ 15 < index then .badArg
  else if kind ≠ 2 ∧ kind ≠ 3 ∧ kind ≠ 4 then .badArg
  else if base % 4096 ≠ 0 ∨ 2 ^ 32 < base + length then .badArg
  else if kind ≠ 4 ∧ ((size ≠ 512 ∧ size ≠ 1024 ∧ size ≠ 2048) ∨ count < 2 ∨ 64 < count) then .badArg
  else if (if kind = 2 then 6 else 1)
      < ((List.finRange 16).filter fun j => decide (j.val ≠ index) && decide ((s.window j).kindCode = kind)).length + 1
    then .badArg
  else if (List.finRange 16).any (fun j => decide (j.val = index) && s.windowInUse j) then .inUse
  else if (List.finRange 16).any (fun j => decide (j.val ≠ index) && decide (base < (s.window j).base + (s.window j).length)
      && decide ((s.window j).base < base + length)) then .overlap
  else .ok

/-- The opcode of a row that is a command of the ring (11.2); TAKE_COMMAND and the part's own steps are none. -/
def ringOpcode : Instr → Option Nat
  | .nop => some 0x00
  | .restart => some 0x01
  | .defineWindow _ _ _ _ _ => some 0x02
  | .releaseWindow _ => some 0x03
  | .snapshot _ => some 0x04
  | .setMeters _ => some 0x05
  | .bindTap _ _ => some 0x08
  | .unbindTap => some 0x09
  | .setLane _ _ _ _ => some 0x10
  | .defineSource _ _ => some 0x11
  | .clearSource _ => some 0x12
  | .selectSource _ _ => some 0x18
  | .zonePowerOn _ | .zonePowerStandby _ => some 0x19
  | .mute _ _ => some 0x1A
  | .setVolume _ _ => some 0x1B
  | .setZone _ _ _ _ => some 0x1C
  | .setSleep _ _ => some 0x1D
  | .retrack _ => some 0x1E
  | .setDecode _ _ => some 0x1F
  | .tune _ _ _ => some 0x20
  | .step _ _ => some 0x21
  | .seek _ _ => some 0x22
  | .scan _ _ => some 0x23
  | .abortRadio => some 0x24
  | .setRegion _ => some 0x25
  | .clearStations _ => some 0x26
  | .storePreset _ _ => some 0x28
  | .setPreset _ _ _ _ => some 0x29
  | .clearPreset _ => some 0x2A
  | .recallPreset _ _ => some 0x2B
  | .assignOutput _ _ => some 0x30
  | .setChannel _ _ _ _ _ => some 0x31
  | .setBass _ => some 0x32
  | .clearFault _ _ => some 0x38
  | .setProtect _ _ _ => some 0x39
  | .unknownOpcode op _ => if op.toNat ∈ knownOpcodes then none else some op.toNat
  | .powerOn _ | .linkReset | .hostRequestAccept _ | .requestForward | .dramResponse _ | .injectedWriteIssue
  | .starvationHold | .producerEnqueue _ | .takeCommand _ | .reportWrite | .unpackFrame _ | .streamIdle _
  | .outputBlock _ _ | .laneLoss _ | .realignDeassert _ | .laneFrame _ _ | .fadeOutEnd _ | .waitReadyEnd _
  | .sourceAbsent _ | .switchComplete _ | .goingStandbyEnd _ | .sleepMinute _ | .formatAdoption _ | .prefillExit _
  | .gainCheck _ | .acquireLock _ | .slip _ | .holdEntry _ | .holdExit _ | .changeGroupApply _ | .softStartCount _ _
  | .softStartEnd _ | .limiterRelease _ _ | .meterPeriodEnd | .protectEntry _ _ _ | .recoverWaitExpiry _ _ _
  | .normalRunExpiry _ _ _ | .thermalWarningSet | .thermalClear | .escalationSet | .thermalStep _
  | .feAcknowledgement _ _ | .ackTimeout | .feStatusRecord _ _ _ | .feBurst _ | .statusSilence | .settleLimit
  | .dwellEnd | .pilotCapture _ | .pilotTimeout | .blendStep => none

/-- A row that names a zone by a byte, with its opcode and arguments (R75, 11.2). -/
def zoneRow : Instr → Option (Byte × List Byte)
  | .selectSource z x => some (z, [x])
  | .zonePowerOn z => some (z, [1])
  | .zonePowerStandby z => some (z, [0])
  | .mute z x => some (z, [x])
  | .setVolume z v => some (z, leBytes 2 v.toNat)
  | .setZone z r d c => some (z, [r, 0] ++ leBytes 2 d.toNat ++ [c])
  | .setSleep z m => some (z, [m])
  | .retrack z => some (z, [])
  | .setDecode z m => some (z, [m])
  | .tune z b f => some (z, [b, 0, 0, 0] ++ leBytes 4 f.toNat)
  | .step z d => some (z, [d])
  | .seek z d => some (z, [d])
  | .scan z b => some (z, [b])
  | .recallPreset z i => some (z, [i])
  | .powerOn _ | .linkReset | .hostRequestAccept _ | .requestForward | .dramResponse _ | .injectedWriteIssue
  | .starvationHold | .producerEnqueue _ | .takeCommand _ | .reportWrite | .nop | .restart | .defineWindow _ _ _ _ _
  | .releaseWindow _ | .snapshot _ | .setMeters _ | .bindTap _ _ | .unbindTap | .setLane _ _ _ _ | .defineSource _ _
  | .clearSource _ | .abortRadio | .setRegion _ | .clearStations _ | .storePreset _ _ | .setPreset _ _ _ _
  | .clearPreset _ | .assignOutput _ _ | .setChannel _ _ _ _ _ | .setBass _ | .clearFault _ _ | .setProtect _ _ _
  | .unknownOpcode _ _ | .unpackFrame _ | .streamIdle _ | .outputBlock _ _ | .laneLoss _ | .realignDeassert _
  | .laneFrame _ _ | .fadeOutEnd _ | .waitReadyEnd _ | .sourceAbsent _ | .switchComplete _ | .goingStandbyEnd _
  | .sleepMinute _ | .formatAdoption _ | .prefillExit _ | .gainCheck _ | .acquireLock _ | .slip _ | .holdEntry _
  | .holdExit _ | .changeGroupApply _ | .softStartCount _ _ | .softStartEnd _ | .limiterRelease _ _ | .meterPeriodEnd
  | .protectEntry _ _ _ | .recoverWaitExpiry _ _ _ | .normalRunExpiry _ _ _ | .thermalWarningSet | .thermalClear
  | .escalationSet | .thermalStep _ | .feAcknowledgement _ _ | .ackTimeout | .feStatusRecord _ _ _ | .feBurst _
  | .statusSilence | .settleLimit | .dwellEnd | .pilotCapture _ | .pilotTimeout | .blendStep => none

end Sys2Proof.Machine
end

