-- ==== Sys2Proof/Certificates/Slice0/Obligations.lean ====
section
/-! DEFINITION. The statements about the model, one proposition each. OBLIGATIONS.json lists them with the rules they
rest on. -/

open Sys2Proof Sys2Proof.Machine

/-! ## The queue of commands -/

/-- One step takes the command at the front of the queue and runs it on the state with the queue's rest. With no
command waiting the part idles (the model's choice, log 4). -/
def Obligations.StepRunsFrontCommand : Prop :=
  (∀ (s : State) (c : Instr) (rest : List Instr),
    step { s with pending := c :: rest } = exec c { s with pending := rest })
  ∧ (∀ s : State, s.pending = [] → step s = .next s)

/-! ## Invariants -/

/-- Every step keeps the memory path's invariant. Two of its clauses rest on choices of the model: how a full pending
queue comes to keep at most one RADIO_STATE (R144, log 43), and that the port holds one accepted request, which the
overlap rule does not hold (R2, log 10). -/
def Obligations.StepKeepsMemoryInvariant : Prop :=
  ∀ s t : State, s.MemoryInv → step s = .next t → t.MemoryInv

/-- Every step keeps every term of R174's gain sum in its range, and what they move toward: the zones' ramp and master
levels, the limiter ceiling (R79), the input trims (R67, R68), the channels' ramp, Lr and trim, the thermal component. -/
def Obligations.StepKeepsLevels : Prop :=
  ∀ s t : State, s.LevelInv → step s = .next t → t.LevelInv

/-- Every step keeps the trackers within the bounds of R94, their steps within those of R96 and R98. -/
def Obligations.StepKeepsTrackerBounds : Prop :=
  ∀ s t : State, s.TrackerInv → step s = .next t → t.TrackerInv

/-- The part right after reset meets these three invariants, and the roles invariant (R161; its third clause is the
model's way to keep R161, log 66). -/
def Obligations.ResetMeetsInvariants : Prop :=
  State.reset.MemoryInv ∧ State.reset.LevelInv ∧ State.reset.TrackerInv ∧ State.reset.RolesInv

/-! ## Power-on and link reset -/

/-- POWER_ON: the memory path starts in the state of R26, with the straps latched and window 0 at A x 16 MiB. -/
def Obligations.PowerOnMemoryPath : Prop :=
  ∀ (a : BitVec 4) (s : State), ∃ t, exec (.powerOn a) s = .next t
    ∧ t.strap = a ∧ t.window 0 = .anchor (a.toNat * 16777216) ∧ (∀ i, i ≠ 0 → t.window i = .free)
    ∧ t.link.injq = [] ∧ t.link.forwardCount = 0
    ∧ t.link.slot = none ∧ t.link.waiting = [] ∧ t.acceptHeld = false
    ∧ (∀ i, getAt t.cmd.part i = false) ∧ (∀ x, memRead t.cmd.shadow x = 0) ∧ t.cmd.next = 0
    ∧ t.rep.w = 0 ∧ (∀ e, getAt t.rep.entryHost e = false) ∧ t.rep.queue = [] ∧ t.rep.overrun = false
    ∧ t.notifyLine = false ∧ (∀ k, getAt t.mirror.counts k = 0) ∧ t.mirror.metersOn = false ∧ t.block = 0

/-- POWER_ON: the audio side's records, each whole: the zones (R75, R90), the free paths with their trackers (R70, R94,
R109), the sources (R67), the lanes with no group record (R50, R66), no ring (R41), the tap (R48), the mixer (R126), the
tuner (R133, R145), the region settings (R131), no station and no preset (R160), the channels and the output unit (R161,
R171, R181, R182), the pairs (R183, R196) and the thermal record (R193). Where the spec gives a field no power-on value the
model names one. Log 14: of a path B, e, c, g and I of its last computed block and the frames, format and adoption of
the block; which path was bound first; whether a frame has come on a lane; the tap's fill position and slots; the mixer's
flag and layout; of the tuner the phase of a tune, the dwell's sums, what the sample lane brought and the last request
sent; of a channel the peak of the last block; the samples last put on the output lanes. The others: the fall of Lr that is due
(log 17), the thermal line's last level and the pins (log 13), no part of a block made ahead (log 2). -/
def Obligations.PowerOnAudioSide : Prop :=
  ∀ (a : BitVec 4) (s : State), ∃ t, exec (.powerOn a) s = .next t
    ∧ (∀ z, t.zone z
        = { power := .standby, selection := none, switch := .idle, target := none, tag := none, waitCount := 0
            attached := none, masterTarget := -80, masterCurrent := -80, mute := false, rampRate := 8, ramp := -240
            avDelay := 0, ceiling := 1, sleep := 0, minute := 0, decode := .direct })
    ∧ (∀ p, t.path p
        = { binding := none, fifo := [], format := none, formatPending := false, held := none, history := []
            drained := false, yielded := [], yieldFormat := none, adoptedNow := false
            tracker :=
              { state := .idle, step0 := none, cmax := none, integ := 0, corr := 0, step := none, phase := 0, gain := 0
                timer := 0, ratchet := false, slips := 0, overrun := false, err := 0
                last := { b := 0, e := 0, c := 0, g := 0, i := 0 } } })
    ∧ t.bindFirst = .p0 ∧ t.owner = none
    ∧ (∀ e, t.source e
        = { kind := .none, lanes := [], window := none, fillT := 960, kp := 64, ki := 2, gainG := 7, ratchetH := 3
            lockW := 8, trim := 0, label := none })
    ∧ (∀ l, t.lane l
        = { enable := false, state := .disabled, errors := 0, threshold := 16, replacement := true, goodRun := 0
            lastGood := (0, 0), syncRun := 0, copies := 0, firstCopy := none, config := none, silence := 0
            arrived := false, realign := none, skew := 0, started := false, buffer := [] })
    ∧ (∀ e, t.group e = none) ∧ (∀ i, t.ring i = none) ∧ t.intakeWait = []
    ∧ t.tap = { binding := none, fillPos := 0, gapPending := false, closePending := false, hold := [], slots := []
                outbox := [], unbinding := false }
    ∧ t.mixer = { eL := 0, eR := 0, eM := 0, eS := 0, fb := 0, lr := 0, matrix := false, layout := [] }
    ∧ t.tuner
        = { state := .idle, band := .fm, freq := 87500, identified := false, identity := 0, openTx := none
            waiting := none, phase := .none, settleCount := 0, silence := 0, level := 0, offset := 0, pilot := .absent
            inRun := 0, missRun := 0, pilotCount := 0, blend := 0, blendTarget := 0, blendTimer := 0, ampHistory := []
            op := none, burst := .none, statusArrived := false, ctlSent := none
            dwell := { blocks := 0, levelSum := 0, offsetSum := 0, errors := 0, stereo := false } }
    ∧ t.region = { fmStep := 100, amGrid := 9, fmLevel := 30, amLevel := 40, fmOffset := 10, amOffset := 2
                   ampLow := 20000, ampHigh := 5000000, errK := 3, blendLo := 20, blendHi := 40, forcedMono := false }
    ∧ t.stations = [] ∧ (∀ i, getAt t.presets i = none)
    ∧ (∀ c, t.chan c
        = { applied := { role := .unused, delay := 0, polarity := .normal, size := .large }, trim := 0, appliedAv := 0
            pend := none, group := none, ramp := 0, reconfig := false, protect := false, softStart := false
            softCount := 0, lr := 0, lrDue := 0, release := 0, heldPeak := 0, heldClip := false, heldBlocks := 0
            blockPeak := 0, crossover := { inputs := [], lows := [], highs := [] }, line := [] })
    ∧ t.out.crossover = 80 ∧ t.out.meterPeriod = 0 ∧ t.out.sent = none ∧ (∀ c, getAt t.out.samples c = [])
    ∧ (∀ n, t.pair n
        = { state := .normal, detect := 4, limit := 3, used := 0, asserted := 0, clear := 0, normalRun := 0
            cause := none, lastLine := false })
    ∧ t.thermal = { assertedRun := 0, deassertedRun := 0, warning := false, escalation := false, t := 0, tTarget := 0
                    tTimer := 0, lastLine := false }
    ∧ t.pins = { faults := 0, therm := false } ∧ t.taken = []

/-- LINK_RESET (R27): queue, rings of the anchor and windows are emptied, the slot records and pages of every STREAM
window are gone (R6, R41), tags become none, and the anchor, the write counts, the meter setting, the block counter and
the audio side's own records are kept: lanes, groups, paths with their trackers (R109), sources, mixer, tuner, region, stations, presets, outputs and
protection; only a meter section that was being placed goes back into the held values (R24, R181). The model's own
choices here: the response last shown on the P side goes and the M side stays (log 12), the requests not yet accepted
are discarded too (log 10), the tap takes its whole power-on state, fill position and all (log 14), and the tag of a
switch becomes none, as R27 and R84 say and the table of R90 does not (log 51). -/
def Obligations.LinkResetClearsMemoryPath : Prop :=
  ∀ s : State, ∃ t, exec .linkReset s = .next t
    ∧ t.link.slot = none ∧ t.link.waiting = [] ∧ t.link.overlapLeft = 0 ∧ t.link.starve = 0 ∧ t.link.injq = []
    ∧ t.link.forwardCount = 0 ∧ t.link.pSide = none ∧ (∀ x ∈ t.link.inFlight, ∀ r, x ≠ .host r)
    ∧ t.link.inFlight.length = s.link.inFlight.length
    ∧ t.intakeWait = [] ∧ t.cmd.ret = none ∧ t.mirror.job = none ∧ t.tap = Tap.powerOn
    ∧ (∀ i, i ≠ 0 → t.window i = .free) ∧ t.window 0 = s.window 0 ∧ t.strap = s.strap
    ∧ (∀ i, i ≠ 0 → (∃ b n c, s.window i = .stream b n c) → t.ring i = none)
    ∧ (∀ i, (∀ b n c, s.window i ≠ .stream b n c) → t.ring i = s.ring i)
    ∧ (∀ i, getAt t.cmd.part i = false) ∧ t.cmd.shadow = [] ∧ t.cmd.next = 0
    ∧ t.rep.queue = [] ∧ t.rep.overrun = false ∧ t.rep.w = 0 ∧ t.notifyLine = false
    ∧ (∀ z, t.zone z = { s.zone z with tag := none })
    ∧ t.tuner = { s.tuner with op := s.tuner.op.map fun op => { op with tag := none } }
    ∧ t.mirror.counts = s.mirror.counts ∧ t.mirror.metersOn = s.mirror.metersOn ∧ t.block = s.block
    ∧ (∀ p, t.path p = s.path p)
    ∧ (∀ p e w b n c, (s.path p).binding = some e → (s.source e).kind = .stream → (s.source e).window = some w →
        w ≠ 0 → s.window w = .stream b n c → t.present p = false)
    ∧ t.lanes = s.lanes ∧ t.sources = s.sources ∧ t.pairs = s.pairs
    ∧ t.thermal = s.thermal ∧ t.presets = s.presets ∧ t.stations = s.stations
    ∧ t.groups = s.groups ∧ t.mixer = s.mixer ∧ t.region = s.region ∧ t.owner = s.owner ∧ t.bindFirst = s.bindFirst
    ∧ t.pins = s.pins ∧ t.link.mSide = s.link.mSide ∧ t.pending = s.pending ∧ t.freeIdx = s.freeIdx ∧ t.taken = s.taken
    ∧ (((∀ j, s.mirror.job = some j → j.sect ≠ .meters) ∨ s.out.sent = none) → t.out = s.out)
    ∧ (∀ j m, s.mirror.job = some j → j.sect = .meters → s.out.sent = some m →
        t.out = { s.out with sent := none, channels := t.out.channels }
        ∧ ∀ c, t.chan c = { s.chan c with
          heldPeak := max (s.chan c).heldPeak (getAt m c).peak
          heldClip := (s.chan c).heldClip || (getAt m c).clip
          heldBlocks := min 65535 ((s.chan c).heldBlocks + (getAt m c).blocks) })

/-! ## The link and the arbiter -/

/-- HOST_REQUEST_ACCEPT (R2, R11, R12). When nothing holds the P side the longest waiting request is accepted. While a
starvation hold is due or runs, the overlap rule holds the request, or an accepted request waits, the new request is not
accepted and waits. A request with none before it is the next to be forwarded from that moment on, and the overlap rule
looks at the queue as it stands then (R12), so that both holds can stand at once: it counts the queued writes up to and
including the last that the request overlaps. The model's choices and inferences here: that the port takes one request
at a time, so that one is held merely because another stands in the slot (log 10); that two accesses overlap when their
address ranges meet, whatever their masks (log 11); the fault for a request the memory link cannot carry (log 14). -/
def Obligations.RequestIsAccepted : Prop :=
  (∀ (s : State) (r q : Request) (qs : List Request),
    r.wf = true → s.link.slot = none → s.link.starve = 0 → (s.link.forwardCount < 32 ∨ s.link.injq = []) →
    (if s.link.waiting = [] then overlapCount r s.link.injq else s.link.overlapLeft) = 0 →
    s.link.waiting ++ [r] = q :: qs →
    exec (.hostRequestAccept r) s
      = .next { s with link := { s.link with waiting := qs, slot := some q, overlapLeft := 0 } })
  ∧ (∀ (s : State) (r : Request), r.wf = true →
    let n := if s.link.slot = none ∧ s.link.waiting = [] then overlapCount r s.link.injq else s.link.overlapLeft
    (s.link.slot ≠ none ∨ 0 < s.link.starve ∨ (32 ≤ s.link.forwardCount ∧ s.link.injq ≠ []) ∨ 0 < n) →
    exec (.hostRequestAccept r) s
      = .next { s with link := { s.link with waiting := s.link.waiting ++ [r], overlapLeft := n } })
  ∧ (∀ (s : State) (r : Request), r.wf = false → exec (.hostRequestAccept r) s = .fault .malformedRequest)
  ∧ (∀ (i : Injected) (a n : Nat), overlapsWrite (.read a n) i = true ↔
      a < i.write.addr + i.write.data.length ∧ i.write.addr < a + n)
  ∧ (∀ (i : Injected) (w : LinkWrite), overlapsWrite (.write w) i = true ↔
      w.addr < i.write.addr + i.write.data.length ∧ i.write.addr < w.addr + w.data.length)
  ∧ (∀ (r : Request) (is : List Injected), (∀ i ∈ is, overlapsWrite r i = false) → overlapCount r is = 0)
  ∧ (∀ (r : Request) (a b : List Injected) (i : Injected), overlapsWrite r i = true →
      (∀ x ∈ b, overlapsWrite r x = false) → overlapCount r (a ++ i :: b) = a.length + 1)

/-- REQUEST_FORWARD (R1, R8, R11): a request that nothing holds goes to the M side unchanged and is then observed; the
forward count rises when the queue waits too. The request behind it is the next to be forwarded: the overlap rule looks
at the queue for it (R12), and it is accepted when nothing holds it (R2), else later, when its hold ends. A read, and a
write outside every window, is not observed. While the P side is held nothing is forwarded (R11, R12).
STARVATION_HOLD (R11): a hold of four writes starts when the forward count has reached 32 and the queue is not empty.
DRAM_RESPONSE (R1, R27): the oldest request in flight is answered; a host request's response is passed back to the P
side unchanged, an injected write's and a discarded request's is absorbed. The model's own here: a hold counts four
whatever the queue's length, and one that is due holds forwarding before its row has come (log 38); the row with no
request standing changes nothing (log 1); the answers come in one order for host and injected requests together (log
12). -/
def Obligations.RequestIsForwarded : Prop :=
  (∀ (s : State) (r : Request), s.link.slot = some r → s.link.overlapLeft = 0 → s.link.starve = 0 →
    (s.link.forwardCount < 32 ∨ s.link.injq = []) →
    exec .requestForward s
      = .next (State.acceptWaiting (State.countOverlap
          (State.observeRequest
            { s with link := { s.link with
                slot := none
                mSide := some r
                inFlight := s.link.inFlight ++ [.host r]
                forwardCount := if s.link.injq = [] then s.link.forwardCount else s.link.forwardCount + 1 } } r))))
  ∧ (∀ (u : State) (q : Request) (qs : List Request), u.link.waiting = q :: qs →
      u.countOverlap = { u with link := { u.link with overlapLeft := overlapCount q u.link.injq } })
  ∧ (∀ u : State, u.link.waiting = [] → u.countOverlap = u)
  ∧ (∀ (u : State) (q : Request) (qs : List Request), u.link.slot = none → u.link.waiting = q :: qs →
      u.link.overlapLeft = 0 → u.link.starve = 0 → (u.link.forwardCount < 32 ∨ u.link.injq = []) →
      u.acceptWaiting = { u with link := { u.link with waiting := qs, slot := some q } })
  ∧ (∀ u : State, (u.link.slot ≠ none ∨ u.link.waiting = [] ∨ 0 < u.link.overlapLeft ∨ 0 < u.link.starve
        ∨ (32 ≤ u.link.forwardCount ∧ u.link.injq ≠ [])) → u.acceptWaiting = u)
  ∧ (∀ (u : State) (a n : Nat), u.observeRequest (.read a n) = u)
  ∧ (∀ (u : State) (w : LinkWrite), u.windowAt w.addr = none → u.observeRequest (.write w) = u)
  ∧ (∀ s : State,
    (0 < s.link.overlapLeft ∨ 0 < s.link.starve ∨ (32 ≤ s.link.forwardCount ∧ s.link.injq ≠ []) ∨ s.link.slot = none) →
    exec .requestForward s = .next s)
  ∧ (∀ s : State, 32 ≤ s.link.forwardCount → s.link.injq ≠ [] → s.link.starve = 0 →
    exec .starvationHold s = .next { s with link := { s.link with starve := 4 } })
  ∧ (∀ (s : State) (data : List Byte) (x : InFlight) (rest : List InFlight), s.link.inFlight = x :: rest →
    exec (.dramResponse data) s
      = .next { s with link := { s.link with
          inFlight := rest
          pSide := match x with
            | .host r => some { request := r, data := data }
            | .discarded _ | .injected _ => s.link.pSide } })

/-- INJECTED_WRITE_ISSUE (R10 to R13): the queue head goes to the M side whole; the slot or entry that its owner byte
hands back becomes host-owned then; the counts move, and the waiting request is accepted when nothing holds it. That an
issue for the overlap rule that empties the queue sets the forward count to 0 (R11), which R12 lets stand during such
issues, is the model's choice (log 68). -/
def Obligations.HeadIsIssued : Prop :=
  (∀ (s : State) (i : Injected) (rest : List Injected), s.link.injq = i :: rest →
    (0 < s.link.starve ∨ (s.link.forwardCount < 32 ∧ (s.link.slot = none ∨ 0 < s.link.overlapLeft))) →
    exec .injectedWriteIssue s
      = .next (State.acceptWaiting
          (State.issued
            { s with link := { s.link with
                injq := rest
                overlapLeft := s.link.overlapLeft - 1
                starve := if rest = [] then 0 else s.link.starve - 1
                forwardCount := if rest = [] ∨ s.link.starve = 1 then 0 else s.link.forwardCount
                mSide := some (.write i.write)
                inFlight := s.link.inFlight ++ [.injected i.write] } } i.origin)))
  ∧ (∀ (u : State) (k : Fin 64),
      u.issued (.command k) = { u with cmd := { u.cmd with part := setAt u.cmd.part k false } })
  ∧ (∀ (u : State) (e : Fin 128),
      u.issued (.report e) = { u with rep := { u.rep with entryHost := setAt u.rep.entryHost e true } })

/-- What a report entry holds (11.3): owner HOST, the kind, the overrun marker, the tag or 0xFF, the block stamp, four
zeros and the payload, filled with zeros to 20 bytes. A report arises (R19): it is written into entry w when nothing is
pending, the entry is free and the queue has a place, and else joins the pending reports, of which the unit holds 8
(R21); FullPendingQueue says what the join that makes them 8 leaves (R144). What the reports of a zone (R88), a lane
(R65), a pair and the thermal record (R195) and the completion of a switch (R83, R84) carry; those of paths and of the
tuner stand with their events. An operation whose tag is none raises no completion (R17). -/
def Obligations.ReportsAreWritten : Prop :=
  (∀ (r : Report) (overrun : Bool), r.payload.length ≤ 20 →
    r.bytes overrun = [0, BitVec.ofNat 8 r.kind.code, if overrun = true then 1 else 0,
        match r.tag with
          | none => 0xFF
          | some t => BitVec.ofNat 8 t]
      ++ leBytes 4 r.stamp.toNat ++ [0, 0, 0, 0] ++ r.payload ++ List.replicate (20 - r.payload.length) 0)
  ∧ (∀ k : ReportKind, (k.code, k.isState) = (match k with
      | .commandDone => (1, false)
      | .zoneState => (2, true)
      | .laneState => (3, true)
      | .tracker => (4, true)
      | .radioState => (5, true)
      | .protectState => (6, true)
      | .thermal => (7, true)
      | .sourceAbsent => (8, false)
      | .sleepExpired => (9, false)
      | .format => (10, false)))
  ∧ (∀ (s : State) (k : ReportKind) (unit : Nat) (payload : List Byte),
    s.raise k unit payload = s.post { kind := k, unit := unit, tag := none, stamp := s.block, payload := payload })
  ∧ (∀ (s : State) (payload : List Byte), s.raiseDone none payload = s
    ∧ ∀ tag, s.raiseDone (some tag) payload
      = s.post { kind := .commandDone, unit := 0, tag := some tag, stamp := s.block, payload := payload })
  ∧ (∀ (s : State) (r : Report),
    let free := getAt s.rep.entryHost s.rep.w = false ∧ s.link.injq.length < 16
    (s.rep.queue = [] → free → s.post r = { s with
      link := { s.link with injq := s.link.injq ++
        [{ write := fullWrite (s.strap.toNat * 16777216 + 4096 + 32 * s.rep.w.val) (r.bytes s.rep.overrun)
           origin := .report s.rep.w }] }
      rep := { s.rep with w := next128 s.rep.w, overrun := false } })
    ∧ ((s.rep.queue ≠ [] ∨ ¬ free) → s.rep.queue.length < 7 →
      s.post r = { s with rep := { s.rep with queue := s.rep.queue ++ [r] } })
    ∧ ((s.rep.queue ≠ [] ∨ ¬ free) → 7 ≤ s.rep.queue.length → s.post r = { s with rep := s.rep.pend r }))
  ∧ (∀ (s : State) (z : Zone),
    let r := s.zone z
    s.zoneReport z = s.raise .zoneState z.code
      ([BitVec.ofNat 8 z.code, BitVec.ofNat 8 r.power.code, BitVec.ofNat 8 r.switch.code,
          optByte (r.selection.map fun e => e.val), optByte (r.attached.map fun p => p.code), flagByte r.mute]
        ++ leBytesInt 2 r.masterTarget ++ leBytesInt 2 r.ramp ++ [if s.owner = some z then 1 else 0])
    ∧ ∀ res : CmdResult, s.switchDone z res = s.raiseDone r.tag
      [BitVec.ofNat 8 res.code, BitVec.ofNat 8 Operation.switch.code, BitVec.ofNat 8 z.code, 0,
        optByte (r.target.map fun e => e.val), optByte (r.attached.map fun p => p.code)])
  ∧ (∀ (s : State) (l : Fin 4) (cause : LaneCause),
    let r := s.lane l
    s.laneReport l cause = s.raise .laneState l.val
      [BitVec.ofNat 8 l.val, BitVec.ofNat 8 r.state.code, BitVec.ofNat 8 cause.code, BitVec.ofNat 8 r.errors,
        optByte ((s.entryOfLane l).map fun e => e.val), optByte (r.config.map fun c => c.group)])
  ∧ (∀ (s : State) (ls : List (Fin 4)) (l : Fin 4) (cause : LaneCause),
    s.laneReports [] cause = s ∧ s.laneReports (l :: ls) cause = (s.laneReport l cause).laneReports ls cause)
  ∧ (∀ (s : State) (n : Fin 6),
    let r := s.pair n
    s.protectReport n = s.raise .protectState n.val
      [BitVec.ofNat 8 n.val, BitVec.ofNat 8 r.state.code, optByte (r.cause.map fun c => c.code), BitVec.ofNat 8 r.used,
        BitVec.ofNat 8 r.limit, BitVec.ofNat 8 r.detect, flagByte r.lastLine])
  ∧ (∀ s : State,
    let r := s.thermal
    s.thermalReport = s.raise .thermal 0
      ([flagByte r.warning, flagByte r.escalation] ++ leBytesInt 1 r.t ++ leBytesInt 1 r.tTarget ++ [flagByte r.lastLine]))
  ∧ (Operation.switch.code, CmdResult.ok.code, CmdResult.aborted.code, CmdResult.found.code, CmdResult.none.code)
      = (0, 0, 12, 13, 14)

/-- REPORT_WRITE, and PRODUCER_ENQUEUE of the report unit (R19, R22): the oldest pending report is written into entry w
when it is free and the queue has a place; w advances and the overrun marker is carried and cleared. Otherwise nothing
happens. -/
def Obligations.PendingReportIsWritten : Prop :=
  (∀ (s : State) (r : Report) (rs : List Report),
    s.rep.queue = r :: rs → getAt s.rep.entryHost s.rep.w = false → s.link.injq.length < 16 →
    ∃ t, exec .reportWrite s = .next t ∧ exec (.producerEnqueue .report) s = .next t
      ∧ t = { s with
          link := { s.link with injq := s.link.injq ++
            [{ write := fullWrite (s.anchorBase + 4096 + 32 * s.rep.w.val) (r.bytes s.rep.overrun)
               origin := .report s.rep.w }] }
          rep := { s.rep with queue := rs, w := next128 s.rep.w, overrun := false } })
  ∧ (∀ s : State, (s.rep.queue = [] ∨ getAt s.rep.entryHost s.rep.w = true ∨ 16 ≤ s.link.injq.length) →
    exec .reportWrite s = .next s)

/-- A report that arises with the pending queue full of 8 (R21, R22): a state report replaces the pending one of its
kind and unit, and is dropped when there is none; a completion displaces the newest report that is no completion; any
other report is dropped. A drop sets the overrun marker, and a replacement does not. The model's choices (log 43): of
several pending reports of the kind and unit the newest is replaced; and the report that makes the queue full joins its
tail, upon which only the newest of its RADIO_STATE reports stays, in its place (R144), the marker unchanged. -/
def Obligations.FullPendingQueue : Prop :=
  (∀ (u : ReportUnit) (r : Report), u.queue.length = 8 →
    (r.kind.isState = true → ∀ a b q, u.queue = a ++ q :: b → q.kind = r.kind → q.unit = r.unit →
        (∀ x ∈ b, ¬ (x.kind = r.kind ∧ x.unit = r.unit)) → u.pend r = { u with queue := a ++ r :: b })
    ∧ (r.kind.isState = true → (∀ x ∈ u.queue, ¬ (x.kind = r.kind ∧ x.unit = r.unit)) →
        u.pend r = { u with overrun := true })
    ∧ (r.kind = .commandDone → ∀ a b q, u.queue = a ++ q :: b → q.kind ≠ .commandDone →
        (∀ x ∈ b, x.kind = .commandDone) → u.pend r = { u with queue := a ++ b ++ [r], overrun := true })
    ∧ (r.kind = .commandDone → (∀ x ∈ u.queue, x.kind = .commandDone) → u.pend r = { u with overrun := true })
    ∧ (r.kind.isState = false → r.kind ≠ .commandDone → u.pend r = { u with overrun := true }))
  ∧ (∀ (u : ReportUnit) (r : Report), u.queue.length = 7 →
    ((∀ x ∈ u.queue ++ [r], x.kind ≠ .radioState) → u.pend r = { u with queue := u.queue ++ [r] })
    ∧ (∀ a b q, u.queue ++ [r] = a ++ q :: b → q.kind = .radioState → (∀ x ∈ b, x.kind ≠ .radioState) →
        u.pend r = { u with queue := a.filter (fun x => decide (x.kind ≠ .radioState)) ++ q :: b }))

/-- PRODUCER_ENQUEUE of the other four producers (R10): the command unit places its return and only then advances next;
the intake unit places its oldest waiting return; the mirror makes its next move, and so does the tap: a waiting write,
else the next frames of its hold buffer (R44), as TapBinding spells tapMove. With the queue full nothing changes. -/
def Obligations.ProducersTakeTheFreePlace : Prop :=
  (∀ (s : State) (r : CmdReturn), s.cmd.ret = some r → s.link.injq.length < 16 → s.snapshotPlacing = false →
    s.tap.unbinding = false →
    exec (.producerEnqueue .command) s
      = .next { s with
          cmd := { s.cmd with ret := none, next := next64 s.cmd.next }
          link := { s.link with injq := s.link.injq ++
            [{ write := fullWrite (s.anchorBase + 64 * r.slot.val) r.bytes, origin := .command r.slot }] } })
  ∧ (∀ (s : State) (w : Fin 16) (i : Nat) (rest : List (Fin 16 × Nat)) (r : Ring),
    s.intakeWait = (w, i) :: rest → s.ring w = some r → s.link.injq.length < 16 →
    exec (.producerEnqueue .intake) s
      = .next { s with
          intakeWait := rest
          link := { s.link with injq := s.link.injq ++
            [{ write := fullWrite ((s.window w).base + (s.window w).slotSize * i)
                 (slotWord (r.slot i).outcome (r.slot i).late false (r.slot i).len (r.slot i).moved)
               origin := .stream w i }] } })
  ∧ (∀ (s : State) (it : TapItem) (rest : List TapItem), s.tap.outbox = it :: rest → s.link.injq.length < 16 →
    s.tap.unbinding = false →
    exec (.producerEnqueue .tap) s = .next (({ s with tap := { s.tap with outbox := rest } }).placeTapItem it))
  ∧ (∀ s : State, s.tap.unbinding = false → exec (.producerEnqueue .tap) s = .next s.tapMove.1)
  ∧ (∀ (s : State) (j : MirrorJob) (base off : Nat) (bs : List Byte) (p : Nat × List Byte)
      (rest : List (Nat × List Byte)),
    s.mirror.job = some j → s.mirrorBase = some base → j.pieces = (off, bs) :: p :: rest → s.link.injq.length < 16 →
    exec (.producerEnqueue .mirror) s
      = .next { s with
          mirror := { s.mirror with job := some { j with pieces := p :: rest } }
          link := { s.link with injq := s.link.injq ++
            [{ write := fullWrite (base + off) bs, origin := .sect }] } })
  ∧ (∀ (s : State) (p : Producer), 16 ≤ s.link.injq.length → s.tap.unbinding = false → s.mirrorBase ≠ none →
    (∀ j, s.mirror.job = some j → j.pieces ≠ []) → (p = .tap → s.tap.outbox ≠ [] ∨ s.tap.hold = []
      ∨ (s.tap.slot s.tap.fillPos).view = .offered ∨ (s.tap.slot s.tap.fillPos).view = .filling) →
    exec (.producerEnqueue p) s = .next s)

/-! ## The command ring -/

/-- An observed write into the command ring (R9, R14): into a host-owned slot the captured bytes other than the owner
byte reach the shadow, and owner PART hands the slot over; a part-owned slot ignores it. TAKE_COMMAND (R15, R198): slot
next is taken when it is part-owned and the other conditions of R15 hold; the command its bytes hold acts and is
returned. Otherwise only the fault lines are seen at their present level: that the row carries them, and that they are
seen also when nothing is taken, is the model's choice (logs 5 and 13). -/
def Obligations.SlotIsHandedOverAndTaken : Prop :=
  (∀ (s : State) (got : List (Nat × Byte)) (i : Fin 64),
    (getAt s.cmd.part i = true → s.observeCommand got i = s)
    ∧ (getAt s.cmd.part i = false →
        s.observeCommand got i
          = { s with cmd := { s.cmd with
              shadow := memStore (got.filter fun ab => decide (ab.1 ≠ 64 * i.val)) s.cmd.shadow
              part := if (got.find? fun ab => decide (ab.1 = 64 * i.val)).map Prod.snd = some 1
                then setAt s.cmd.part i true else s.cmd.part } }))
  ∧ (∀ (s : State) (faults : BitVec 6),
    let u := { s with pins := { s.pins with faults := faults } }
    let b := memBytes s.cmd.shadow (64 * s.cmd.next.val) 64
    (getAt s.cmd.part s.cmd.next = true → s.UnitReady (argByte b 1).toNat →
      exec (.takeCommand faults) s
        = .next (State.returnCommand (runOpcode (argByte b 1).toNat (argByte b 2) (b.drop 8) u) (argByte b 1)
            (argByte b 2)))
    ∧ ((getAt s.cmd.part s.cmd.next = false ∨ ¬ s.UnitReady (argByte b 1).toNat) →
      exec (.takeCommand faults) s = .next u))

/-- The command a slot holds (R198, 11.2). Handing slot next over puts the opcode, the target, five bytes that are not
read and the arguments, filled with zeros, into the shadow (log 5). A taken slot runs, by its opcode, what the row of
that name runs, with the arguments at their offsets; bytes beyond them are not read, a target only where the opcode has
one. ZONE_POWER is ON for 1, STANDBY for 0, and is refused with BAD_ARG above 1. An opcode outside the table gives
UNKNOWN (R16). A field of 16 or 32 bits stands with its low byte first (R197), and a label is a length, with 8
characters. -/
def Obligations.SlotHoldsItsCommand : Prop :=
  (∀ (s : State) (op target : Byte) (args : List Byte), args.length ≤ 56 → memWf s.cmd.shadow = true →
    memBytes (s.handOver op target args).cmd.shadow (64 * s.cmd.next.val + 1) 63
        = [op, target, 0, 0, 0, 0, 0] ++ args ++ List.replicate (56 - args.length) 0
    ∧ getAt (s.handOver op target args).cmd.part s.cmd.next = true)
  ∧ (∀ (s : State) (t : Byte) (x : List Byte), x.length = 56 →
    let a (k : Nat) : Byte := x.getD k 0
    let h (k : Nat) : BitVec 16 := argU16 x k
    let w (k : Nat) : BitVec 32 := argU32 x k
    let label (k : Nat) : LabelArg := labelAt x k
    let labelBytes (k : Nat) : List Byte := (label k).len :: (label k).chars
    let same (op : Byte) (target : Byte) (sent : List Byte) (c : Instr) : Prop := s.CommandReady op.toNat →
      exec c s = .next (State.returnCommand (runOpcode op.toNat t x (s.handOver op target sent)) op target)
    let src := sourceArgs x
    let reg := regionArgs x
    same 0x00 0 [] .nop
    ∧ same 0x01 0 [] .restart
    ∧ same 0x02 t ([a 0, a 1] ++ leBytes 2 (h 2).toNat ++ leBytes 4 (w 4).toNat) (.defineWindow t (a 0) (a 1) (h 2) (w 4))
    ∧ same 0x03 t [] (.releaseWindow t)
    ∧ same 0x04 t [] (.snapshot t)
    ∧ same 0x05 0 [a 0] (.setMeters (a 0))
    ∧ same 0x08 t [a 0] (.bindTap t (a 0))
    ∧ same 0x09 0 [] .unbindTap
    ∧ same 0x10 t [a 0, a 1, a 2] (.setLane t (a 0) (a 1) (a 2))
    ∧ same 0x11 t
        ([src.kind, src.laneCount] ++ src.lanes ++ [src.window, 0] ++ leBytes 2 src.fillT.toNat
          ++ [src.kp, src.ki, src.gainG, src.ratchetH, src.lockW, src.trim] ++ labelBytes 16)
        (.defineSource t src)
    ∧ same 0x12 t [] (.clearSource t)
    ∧ same 0x18 t [a 0] (.selectSource t (a 0))
    ∧ (a 0 = 1 → same 0x19 t [1] (.zonePowerOn t))
    ∧ (a 0 = 0 → same 0x19 t [0] (.zonePowerStandby t))
    ∧ same 0x1A t [a 0] (.mute t (a 0))
    ∧ same 0x1B t (leBytes 2 (h 0).toNat) (.setVolume t (h 0))
    ∧ same 0x1C t ([a 0, 0] ++ leBytes 2 (h 2).toNat ++ [a 4]) (.setZone t (a 0) (h 2) (a 4))
    ∧ same 0x1D t [a 0] (.setSleep t (a 0))
    ∧ same 0x1E t [] (.retrack t)
    ∧ same 0x1F t [a 0] (.setDecode t (a 0))
    ∧ same 0x20 t ([a 0, 0, 0, 0] ++ leBytes 4 (w 4).toNat) (.tune t (a 0) (w 4))
    ∧ same 0x21 t [a 0] (.step t (a 0))
    ∧ same 0x22 t [a 0] (.seek t (a 0))
    ∧ same 0x23 t [a 0] (.scan t (a 0))
    ∧ same 0x24 0 [] .abortRadio
    ∧ same 0x25 0
        (leBytes 2 reg.fmStep.toNat
          ++ [reg.amGrid, reg.fmLevel, reg.amLevel, reg.fmOffset, reg.amOffset, reg.errK]
          ++ leBytes 4 reg.ampLow.toNat ++ leBytes 4 reg.ampHigh.toNat ++ [reg.blendLo, reg.blendHi, reg.forcedMono])
        (.setRegion reg)
    ∧ same 0x26 0 [a 0] (.clearStations (a 0))
    ∧ same 0x28 t (labelBytes 0) (.storePreset t (label 0))
    ∧ same 0x29 t ([a 0, 0, 0, 0] ++ leBytes 4 (w 4).toNat ++ labelBytes 8) (.setPreset t (a 0) (w 4) (label 8))
    ∧ same 0x2A t [] (.clearPreset t)
    ∧ same 0x2B t [a 0] (.recallPreset t (a 0))
    ∧ same 0x30 t [a 0] (.assignOutput t (a 0))
    ∧ same 0x31 t ([a 0, 0] ++ leBytes 2 (h 2).toNat ++ [a 4, a 5]) (.setChannel t (a 0) (h 2) (a 4) (a 5))
    ∧ same 0x32 0 [a 0] (.setBass (a 0))
    ∧ same 0x38 t [] (.clearFault t s.pins.faults)
    ∧ same 0x39 t [a 0, a 1] (.setProtect t (a 0) (a 1))
    ∧ src = { kind := a 0, laneCount := a 1, lanes := [a 2, a 3, a 4, a 5], window := a 6, fillT := h 8, kp := a 10
              ki := a 11, gainG := a 12, ratchetH := a 13, lockW := a 14, trim := a 15, label := label 16 }
    ∧ reg = { fmStep := h 0, amGrid := a 2, fmLevel := a 3, amLevel := a 4, fmOffset := a 5, amOffset := a 6
              errK := a 7, ampLow := w 8, ampHigh := w 12, blendLo := a 16, blendHi := a 17, forcedMono := a 18 })
  ∧ (∀ (x : List Byte) (k : Nat), k + 9 ≤ x.length →
    let a (j : Nat) : Nat := (x.getD (k + j) 0).toNat
    (argU16 x k).toNat = a 0 + 256 * a 1
    ∧ (argU32 x k).toNat = a 0 + 256 * a 1 + 65536 * a 2 + 16777216 * a 3
    ∧ labelAt x k = { len := x.getD k 0, chars := [x.getD (k + 1) 0, x.getD (k + 2) 0, x.getD (k + 3) 0
                      , x.getD (k + 4) 0, x.getD (k + 5) 0, x.getD (k + 6) 0, x.getD (k + 7) 0, x.getD (k + 8) 0] })
  ∧ (∀ l : LabelArg,
    (l.len.toNat ≤ 8 → decodeLabel l = some (some (l.chars.take l.len.toNat)))
    ∧ (l.len.toNat = 255 → decodeLabel l = some none)
    ∧ (8 < l.len.toNat → l.len.toNat ≠ 255 → decodeLabel l = none))
  ∧ (∀ (u : State) (op : Nat) (t : Byte) (x : List Byte),
    (op ∉ knownOpcodes → runOpcode op t x u = { st := u, res := .unknown, val := 0 })
    ∧ (1 < (x.getD 0 0).toNat → runOpcode 0x19 t x u = { st := u, res := .badArg, val := 0 }))

/-- A refused command changes nothing but the command unit: slot next carries it (the model's choice for a row of its
own, log 5), its return (owner HOST, opcode, target, result, result value) enters the injection queue when there is a
place and waits otherwise, and only then next advances (R15, R16). NOP returns OK and has no other effect; an opcode
the part does not know returns UNKNOWN and has no other effect (R16, R18). A row that is a command of the ring stands
for the handover of slot next and its taking together (the model's choice, log 5). When slot next is part-owned already
(R14), or another condition of R15 does not hold, the row changes nothing, but that CLEAR_FAULT has brought the fault
lines' present level; and it is discarded, not kept waiting: a step takes it from the queue of commands. -/
def Obligations.CommandsThatChangeNothing : Prop :=
  (∀ (s : State) (op target : Byte) (args : List Byte) (res : CmdResult) (val : Int), s.CommandReady op.toNat →
    (s.link.injq.length < 16 →
      s.answeredOnly op target args res val
        = { s with
            link := { s.link with injq := s.link.injq ++ [s.returnWrite op target res val] }
            cmd := { (s.handOver op target args).cmd with ret := none, next := next64 s.cmd.next } })
    ∧ (16 ≤ s.link.injq.length →
      s.answeredOnly op target args res val
        = { s with cmd := { (s.handOver op target args).cmd with
            ret := some { slot := s.cmd.next
                          bytes := [0, op, target, BitVec.ofNat 8 res.code] ++ leBytesInt 4 val } } }))
  ∧ (∀ s : State, s.CommandReady 0x00 → exec .nop s = .next (s.answeredOnly 0x00 0 [] .ok 0))
  ∧ (∀ (s : State) (op target : Byte), op.toNat ∉ knownOpcodes → s.CommandReady op.toNat →
      exec (.unknownOpcode op target) s = .next (s.answeredOnly op target [] .unknown 0))
  ∧ (∀ (c : Instr) (s : State) (op : Nat) (rest : List Instr), ringOpcode c = some op → ¬ s.CommandReady op →
    ((∀ pair faults, c ≠ .clearFault pair faults) →
      exec c s = .next s ∧ step { s with pending := c :: rest } = .next { s with pending := rest })
    ∧ (∀ pair faults, c = .clearFault pair faults →
      exec c s = .next { s with pins := { s.pins with faults := faults } }
      ∧ step { s with pending := c :: rest }
          = .next { s with pending := rest, pins := { s.pins with faults := faults } }))

/-- A zone command that names no zone is refused with BAD_ARG before any other check (R75, R198). TUNE, STEP, SEEK,
SCAN and RECALL_PRESET from a zone that is not the tuner's owner are refused with NOT_OWNER, and the tuner is not
disturbed (R74). -/
def Obligations.ZoneCommandsAreRefused : Prop :=
  (∀ (c : Instr) (s : State) (op : Nat) (zone : Byte) (args : List Byte),
    ringOpcode c = some op → zoneRow c = some (zone, args) → Zone.ofCode zone.toNat = none → s.CommandReady op →
    exec c s = .next (s.answeredOnly (BitVec.ofNat 8 op) zone args .badArg 0))
  ∧ (∀ (s : State) (zone : Byte) (z : Zone), Zone.ofCode zone.toNat = some z → s.owner ≠ some z →
    (∀ b f, s.CommandReady 0x20 → exec (.tune zone b f) s
      = .next (s.answeredOnly 0x20 zone ([b, 0, 0, 0] ++ leBytes 4 f.toNat) .notOwner 0))
    ∧ (∀ d, s.CommandReady 0x21 → exec (.step zone d) s = .next (s.answeredOnly 0x21 zone [d] .notOwner 0))
    ∧ (∀ d, s.CommandReady 0x22 → exec (.seek zone d) s = .next (s.answeredOnly 0x22 zone [d] .notOwner 0))
    ∧ (∀ b, s.CommandReady 0x23 → exec (.scan zone b) s = .next (s.answeredOnly 0x23 zone [b] .notOwner 0))
    ∧ (∀ i, s.CommandReady 0x2B → exec (.recallPreset zone i) s = .next (s.answeredOnly 0x2B zone [i] .notOwner 0)))

/-- An observed write outside the command ring (R8, R9). Into the report ring, owner PART frees an entry, and the
notify line stands while an entry is host-owned (R20). Into a STREAM window: a part-owned slot takes a late write and
nothing else (R34); else the bytes but the owner byte are captured by the slot's state (R30, R31), and owner PART then
hands the slot over (R32), which returns it at once or seals it (R33). A slot that enters RETURNING frees its page, is
marked or passed by the unpack position, and its return waits its turn (R35). Which carriage frames of a page are good,
and how many frames they hold (R33), stands in UnpackerAndIdle. Into a TAP window: an offer, a late write, or FLUSHED
while unbound (R43); when that leaves no write of the tap waiting, a return of UNBIND_TAP that waited for them may be
placed from then on (R15, log 47). A slot whose last write is issued is the host's again (R13, R35, R45); that its
record then holds the parse outcome OK and the sealed length 0 is the model's choice (log 59). -/
def Obligations.WindowWritesAreObserved : Prop :=
  (∀ (s : State) (w : LinkWrite) (i : Fin 16), s.windowAt w.addr = some i →
    let off := w.addr - s.anchorBase
    let got := (capturedOf w).map fun ab => (ab.1 - s.anchorBase, ab.2)
    (∀ b, s.window i = .anchor b → s.observeRequest (.write w)
      = if off < 4096 then s.observeCommand got ⟨off / 64 % 64, Nat.mod_lt _ (by decide)⟩
        else s.observeReport (got.map fun ab => (ab.1 - 4096, ab.2)))
    ∧ (∀ b n c, s.window i = .stream b n c → s.observeRequest (.write w) = s.observeStream i w)
    ∧ (∀ b n c, s.window i = .tap b n c → s.observeRequest (.write w) = s.observeTap i w)
    ∧ ((s.window i = .free ∨ ∃ b, s.window i = .mirror b) → s.observeRequest (.write w) = s))
  ∧ (∀ (s : State) (got : List (Nat × Byte)), (∀ ab ∈ got, ab.1 < 4096) →
    ∃ v : Vector Bool 128, s.observeReport got = { s with rep := { s.rep with entryHost := v } }
      ∧ ∀ e : Fin 128, getAt v e = if (32 * e.val, (1 : Byte)) ∈ got then false else getAt s.rep.entryHost e)
  ∧ (∀ s : State, s.notifyLine = true ↔ ∃ e, getAt s.rep.entryHost e = true)
  ∧ (∀ (s : State) (i : Fin 16) (w : LinkWrite) (r : Ring), s.ring i = some r →
    let size := (s.window i).slotSize
    let k := (w.addr - (s.window i).base) / size
    let x := r.slot k
    let got := (capturedOf w).map fun ab => (ab.1 - (s.window i).base - size * k, ab.2)
    let bytes := got.filter fun ab => decide (ab.1 ≠ 0)
    let kept := if bytes = [] then s else s.captureInto i r k bytes
    ((x.state = .sealed ∨ x.state = .unpacking ∨ x.state = .returning) →
      s.observeStream i w = s.setRing i (some (r.setSlot k { x with late := true })))
    ∧ ((x.state = .empty ∨ x.state = .filling ∨ x.state = .missed) →
      s.observeStream i w
        = if (got.find? fun ab => decide (ab.1 = 0)).map Prod.snd = some 1 then kept.streamHandover i k else kept))
  ∧ (∀ (s : State) (i : Fin 16) (r : Ring) (k : Nat) (bytes : List (Nat × Byte)),
    let x := r.slot k
    let leaves (y : SlotRec) : Prop := s.captureInto i r k bytes = s.setRing i (some (r.setSlot k y))
    (x.state = .empty → r.feeds = none → s.captureInto i r k bytes = s)
    ∧ (x.state = .empty → r.feeds ≠ none → s.pagesBound < 32 →
        leaves { x with state := .filling, page := some (memStore bytes []) })
    ∧ (x.state = .empty → r.feeds ≠ none → 32 ≤ s.pagesBound → leaves { x with state := .missed })
    ∧ (x.state = .filling → leaves { x with page := x.page.map (memStore bytes) })
    ∧ (x.state = .missed → s.captureInto i r k bytes = s))
  ∧ (∀ (s : State) (i : Fin 16) (k : Nat) (r : Ring), s.ring i = some r →
    let q := { r with handoverCount := 0, idle := false }
    let u := s.setRing i (some q)
    let x := r.slot k
    let page := x.page.getD []
    let len := leNat (memBytes page 4 2)
    let cap := (s.window i).slotSize - 16
    let returns (status : StreamStatus) (n : Nat) : Prop := s.streamHandover i k = u.enterReturning i k status n
    (x.state = .empty → r.feeds ≠ none → returns .emptySlot 0)
    ∧ (x.state = .empty → r.feeds = none → returns .flushed 0)
    ∧ (x.state = .missed → returns .missed 0)
    ∧ (x.state = .filling → r.feeds = none → returns .flushed len)
    ∧ (x.state = .filling → r.feeds ≠ none → len = 0 → returns .ok 0)
    ∧ (x.state = .filling → r.feeds ≠ none → cap < len → returns .badLength len)
    ∧ (x.state = .filling → r.feeds ≠ none → 0 < len → len ≤ cap →
        let p := parseSlot page len
        let good := goodFrames p.1
        let v := u.setRing i (some (q.setSlot k
          { x with state := .sealed, len := len, outcome := if p.2 = true then .ok else .badFrame, good := good
                   moved := 0 }))
        (good ≠ 0 → s.streamHandover i k = v)
        ∧ (good = 0 → s.streamHandover i k = v.enterReturning i k .badFrame len)))
  ∧ (∀ (s : State) (i : Fin 16) (k : Nat) (status : StreamStatus) (len : Nat) (r : Ring), s.ring i = some r →
    let y : SlotRec :=
      { r.slot k with state := .returning, page := none, outcome := status, len := len
                      skip := (r.slot k).skip || decide (k ≠ r.unpackPos) }
    let q := if k = r.unpackPos then ({ r.setSlot k y with unpackPos := (k + 1) % r.slots.length }).arrive
      else r.setSlot k y
    let v := { s.setRing i (some q) with intakeWait := s.intakeWait ++ [(i, k)] }
    s.enterReturning i k status len = if s.intakeWait = [] then v.placeReturn else v)
  ∧ (∀ s : State, exec (.producerEnqueue .intake) s = .next s.placeReturn)
  ∧ (∀ (s : State) (i : Fin 16) (k : Nat) (r : Ring), s.ring i = some r →
    s.issued (.stream i k) = s.setRing i (some (r.setSlot k
      { state := .empty, late := false, skip := (r.slot k).skip, page := none, len := 0, outcome := .ok, good := 0
        moved := 0 })))
  ∧ (∀ (s : State) (i v : Fin 16) (w : LinkWrite) (b n c : Nat), s.tapWindow = some (v, b, n, c) →
    let k := (w.addr - b) / n
    let x := s.tap.slot k
    let owner := ((capturedOf w).find? fun ab => decide (ab.1 = b + n * k)).map Prod.snd
    (x.view ≠ .hostOwned → s.observeTap i w = { s with tap := s.tap.setSlot k { x with late := true } })
    ∧ (x.view = .hostOwned → owner ≠ some 1 → s.observeTap i w = s)
    ∧ (∀ p, x.view = .hostOwned → owner = some 1 → s.tap.binding = some (i, p) →
        s.observeTap i w = { s with tap := s.tap.setSlot k { x with view := .offered, count := 0 } })
    ∧ (x.view = .hostOwned → owner = some 1 → s.tap.binding = none →
        s.observeTap i w =
          (let v := State.tapPump 64 { s with tap :=
             { s.tap.setSlot k { x with view := .closing, count := 0 } with
               outbox := s.tap.outbox ++ [.close k 0 .flushed false] } }
           { v with tap := { v.tap with unbinding := v.tap.unbinding && !v.tap.outbox.isEmpty } })))
  ∧ (∀ (s : State) (k : Nat),
    s.issued (.tapClose k) = { s with tap := s.tap.setSlot k { view := .hostOwned, late := false, count := 0 } })

/-- The rings of the STREAM windows. The slot word of a return, with the LATE flag (R35, 11.4), and the order in which
returns enter the queue (R10, R35). Arriving at a slot that carries a skip mark and is host-owned or RETURNING, the
unpacker clears the mark and passes on (R36). A flush (R40) puts every SEALED or UNPACKING slot into RETURNING with
FLUSHED and the frames it has moved, in ring order from the unpack position, and moves the position behind the last of
them; it clears the marks, leaves FILLING, MISSED and EMPTY slots as they are, and the window then feeds the path that
R29 gives it, if any. A window that starts to feed a path keeps its records and its position, with the handover count 0
and the source present (R29, R39); a path whose entry names a window that already feeds another waits for it. -/
def Obligations.RingPositions : Prop :=
  (∀ (status : StreamStatus) (late gap : Bool) (len frames : Nat),
    let code : Byte := match status with
      | .ok => 0
      | .emptySlot => 1
      | .missed => 2
      | .badLength => 3
      | .badFrame => 4
      | .flushed => 5
    let flags : Byte := (if late = true then 1 else 0) + (if gap = true then 2 else 0)
    slotWord status late gap len frames = [0, code, flags, 0] ++ leBytes 2 len ++ leBytes 2 frames)
  ∧ (∀ n size base : Nat, (Window.stream n size base).slotSize = size ∧ (Window.tap n size base).slotSize = size)
  ∧ (∀ (r : Ring) (i j : Nat) (x : SlotRec),
    r.setSlot i x = { r with slots := (r.setSlot i x).slots } ∧ (r.setSlot i x).slots.length = r.slots.length
    ∧ (r.setSlot i x).slot j = if j = i ∧ i < r.slots.length then x else r.slot j)
  ∧ (∀ s : State, s.intakeWait = [] → s.placeReturn = s)
  ∧ (∀ s : State, 16 ≤ s.link.injq.length → s.placeReturn = s)
  ∧ (∀ (s : State) (w : Fin 16) (i : Nat) (rest : List (Fin 16 × Nat)) (r : Ring),
    s.intakeWait = (w, i) :: rest → s.ring w = some r → s.link.injq.length < 16 →
    s.placeReturn = { s with
      intakeWait := rest
      link := { s.link with injq := s.link.injq ++
        [{ write := fullWrite ((s.window w).base + (s.window w).slotSize * i)
             (slotWord (r.slot i).outcome (r.slot i).late false (r.slot i).len (r.slot i).moved)
           origin := .stream w i }] } })
  ∧ (∀ (n : Nat) (s : State),
    State.placeReturns 0 s = s ∧ State.placeReturns (n + 1) s = State.placeReturns n s.placeReturn)
  ∧ (∀ (n : Nat) (r : Ring),
    let x := r.slot r.unpackPos
    let passes := x.skip = true ∧ x.state ∈ [SlotState.empty, .filling, .missed, .returning]
    (r.feeds = none → r.arrive = r) ∧ (r.feeds ≠ none → r.arrive = Ring.advanceSkips r.slots.length r)
    ∧ Ring.advanceSkips 0 r = r
    ∧ (¬ passes → Ring.advanceSkips (n + 1) r = r)
    ∧ (passes → Ring.advanceSkips (n + 1) r = Ring.advanceSkips n
        { r.setSlot r.unpackPos { x with skip := false } with unpackPos := (r.unpackPos + 1) % r.slots.length }))
  ∧ (∀ (s : State) (w : Fin 16),
    (s.ring w = none → s.flushWindow w = s ∧ s.feedIfNamed w = s)
    ∧ (∀ r, s.ring w = some r → r.unpackPos < r.slots.length →
        let n := r.slots.length
        let caught (j : Nat) : Prop := (r.slot j).state = .sealed ∨ (r.slot j).state = .unpacking
        let is := flushList r n r.unpackPos
        is.Sublist ((List.range n).map fun k => (r.unpackPos + k) % n)
        ∧ (∀ j, j ∈ is ↔ j < n ∧ caught j)
        ∧ (is = [] → flushPos r = r.unpackPos)
        ∧ (∀ i, is.getLast? = some i → flushPos r = (i + 1) % n)
        ∧ ∃ q : Ring, q.feeds = none ∧ q.unpackPos = flushPos r ∧ q.handoverCount = r.handoverCount ∧ q.idle = r.idle
          ∧ q.slots.length = n
          ∧ (∀ j, j < n → q.slot j = (if (r.slot j).state = .sealed ∨ (r.slot j).state = .unpacking then
                { r.slot j with state := .returning, page := none, outcome := .flushed, skip := false }
              else { r.slot j with skip := false }))
          ∧ (let v : State :=
               { s.setRing w (some q) with intakeWait := s.intakeWait ++ is.map fun i => (w, i) }
             s.flushWindow w
               = (if s.intakeWait = [] then State.placeReturns is.length v else v).feedIfNamed w)))
  ∧ (∀ (s : State) (w : Fin 16) (r : Ring), s.ring w = some r →
    let names (p : PathId) : Prop := ∃ e, (s.path p).binding = some e ∧ (s.source e).kind = .stream
      ∧ (s.source e).window = some w
    let feeds (p : PathId) : State :=
      s.setRing w (some (Ring.arrive { r with feeds := some p, handoverCount := 0, idle := false }))
    (r.feeds ≠ none → s.feedIfNamed w = s)
    ∧ (r.feeds = none → (∀ p, ¬ names p) → s.feedIfNamed w = s)
    ∧ (r.feeds = none → names s.bindFirst → s.feedIfNamed w = feeds s.bindFirst)
    ∧ (r.feeds = none → ¬ names s.bindFirst → names s.bindFirst.other → s.feedIfNamed w = feeds s.bindFirst.other))

/-! ## The commands of the memory path and the tap -/

/-- RESTART (R18) completes with OK. What is outstanding completes ABORTED before it: the switch in progress of MAIN,
then that of ZONE2 (R90), and behind the returns of flushed slots the radio operation (R145), each with the report that
ReportsAreWritten and OwnerTunes spell, none without a tag (R17); no other report is raised (R90, R145). The flush is
that of RingPositions, for P0's window and then for P1's: the slots it catches return FLUSHED with their frames moved, in
ring order from the unpack position; those that find no place, or returns waiting before them, wait behind those (R35,
R40). The return then enters the injection queue behind all that stands there, or waits when the queue is full (R15,
R16). Every unit takes its restart state: zones and paths (R89, R90, R109), the tap kept (R48), lanes and groups (R66),
tuner (R145: IDLE at the kept band and frequency, or back at the start of a scan, with runs, counts, blend and
blend timer 0), mixer (R126), channels (R182), pairs (R196). The memory path, the tables and the thermal record are
kept. The clause on the slots is about windows whose path is bound to the entry that names them; that on a ring also
wants no other path named to take it over. The model's own here: the order of the completions (log 27), a group's opened
flag is cleared (log 30), a lane keeps its last good frame and what has
arrived and the tuner its last level, offset and request (log 35), no phase of a tune (log 14), a channel's fall of Lr
that is due goes (log 17), the values of a free path that the spec does not give are those of log 14, and the flag
"matrix in effect" is 0 (log 56). -/
def Obligations.RestartTakesRestartState : Prop :=
  ∀ s : State, s.CommandReady 0x01 → ∃ t, exec .restart s = .next t
    ∧ (let aborts (z : Zone) (u : State) : State :=
        if (s.zone z).switch = .idle then u else u.switchDone z .aborted
      let ends (p : PathId) (u : State) : State :=
        let v := { u with bindFirst := p.other }.setPath p PathRec.free
        match u.feeding p with
        | none => v
        | some w => v.flushWindow w
      let b := aborts .zone2 (aborts .main s)
      let c := ends .p1 (ends .p0 b)
      let d := c.abortOp false
      let caught (p : PathId) : List ((Fin 16 × Nat) × SlotRec) :=
        match s.feeding p with
        | none => []
        | some w =>
          match s.ring w with
          | none => []
          | some r => (flushList r r.slots.length r.unpackPos).map fun i => ((w, i), r.slot i)
      let all := caught .p0 ++ caught .p1
      let k := if s.intakeWait = [] then 16 - b.link.injq.length else 0
      t.rep = d.rep ∧ t.rings = c.rings ∧ t.intakeWait = c.intakeWait
      ∧ ((∀ p w r, s.feeding p = some w → s.ring w = some r →
            s.namesWindow p w = true ∧ r.unpackPos < r.slots.length) →
          c.link = { b.link with injq := b.link.injq ++ (all.take k).map fun x =>
            { write := fullWrite ((s.window x.1.1).base + (s.window x.1.1).slotSize * x.1.2)
                (slotWord .flushed x.2.late false x.2.len x.2.moved)
              origin := .stream x.1.1 x.1.2 } }
          ∧ t.intakeWait = s.intakeWait ++ (all.drop k).map Prod.fst)
      ∧ (d.link.injq.length < 16 →
          t.link = { d.link with injq := d.link.injq ++ [s.returnWrite 0x01 0 .ok 0] }
          ∧ t.cmd = { (s.handOver 0x01 0 []).cmd with ret := none, next := next64 s.cmd.next })
      ∧ (16 ≤ d.link.injq.length →
          t.link = d.link
          ∧ t.cmd = { (s.handOver 0x01 0 []).cmd with
              ret := some { slot := s.cmd.next, bytes := [0, 1, 0, 0, 0, 0, 0, 0] } }))
    ∧ (∀ z, t.zone z = { s.zone z with
        power := .standby, switch := .idle, target := none, tag := none, waitCount := 0, attached := none
        masterCurrent := (s.zone z).masterTarget, ramp := -240, sleep := 0, minute := 0 })
    ∧ (∀ p, t.path p = PathRec.free) ∧ t.owner = none
    ∧ (∀ p w r, s.feeding p = some w → s.ring w = some r → r.unpackPos < r.slots.length → s.namesWindow p w = true →
        (s.namesWindow p.other w = false ∨ s.feeding p.other = none) →
        ∃ q, t.ring w = some q ∧ q.feeds = none ∧ q.unpackPos = flushPos r ∧ q.slots.length = r.slots.length
          ∧ ∀ j, j < r.slots.length → q.slot j =
              (if (r.slot j).state = .sealed ∨ (r.slot j).state = .unpacking then
                { r.slot j with state := .returning, page := none, outcome := .flushed, skip := false }
              else { r.slot j with skip := false }))
    ∧ t.tap = s.tap
    ∧ (∀ l, t.lane l = (if (s.lane l).enable = true then
          { s.lane l with
            state := .hunt, syncRun := 0, copies := 0, firstCopy := none, config := none, skew := 0, started := false
            buffer := [], errors := 0, goodRun := 0, silence := 0, realign := none }
        else { s.lane l with realign := none }))
    ∧ (∀ e, t.group e = (s.group e).map fun _ => { stage := .forming, format := none, opened := false })
    ∧ (∀ c, let r := s.chan c
        let w := if r.group = none then r.applied else r.pend.getD r.applied
        let av := match roleZone w.role with
          | none => 0
          | some z => (s.zone z).avDelay
        let locked := decide ((s.pair (pairOf c)).state = .lockout)
        t.chan c = { r with
          applied := w, appliedAv := av, pend := if r.group = none then r.pend else none, group := none
          ramp := if locked = true then -240 else 0, reconfig := false, protect := r.protect && locked
          softStart := false, softCount := 0, lr := 0, lrDue := 0, release := 0
          crossover := { inputs := [], lows := [], highs := [] }
          line := List.replicate (if w.role = .unused then 0 else w.delay + av) 0 })
    ∧ (∀ n, t.pair n = { s.pair n with
        state := if (s.pair n).state = .lockout then .lockout else .normal
        asserted := 0, clear := 0, normalRun := 0 })
    ∧ (∀ (b : Band) (f : Nat),
      (∀ op, s.tuner.op = some op → op.kind = .scan → b = op.startBand ∧ f = op.startFreq) →
      ((∀ op, s.tuner.op = some op → op.kind ≠ .scan) → b = s.tuner.band ∧ f = s.tuner.freq) →
      t.tuner = { s.tuner with
        state := .idle, band := b, freq := f, openTx := none, waiting := none, phase := .none, settleCount := 0
        silence := 0, ampHistory := [], pilot := .absent, inRun := 0, missRun := 0, pilotCount := 0, blend := 0
        blendTarget := 0, blendTimer := 0, op := none })
    ∧ t.mixer.eL = 0 ∧ t.mixer.eR = 0 ∧ t.mixer.eM = 0 ∧ t.mixer.eS = 0 ∧ t.mixer.fb = 0 ∧ t.mixer.lr = 0
    ∧ t.mixer.matrix = false
    ∧ t.windows = s.windows ∧ t.strap = s.strap ∧ t.sources = s.sources ∧ t.region = s.region
    ∧ t.stations = s.stations ∧ t.presets = s.presets ∧ t.thermal = s.thermal ∧ t.block = s.block
    ∧ t.link.forwardCount = s.link.forwardCount ∧ t.mirror = s.mirror ∧ t.out.crossover = s.out.crossover

/-- DEFINE_WINDOW (R5, R6): refused at the first of the seven checks that fails; otherwise the old window is discarded
(what that does, and when a window is in use, stands in ReleaseWindowFrees), the entry takes the new window, and the
result value is its length. A new STREAM window starts with every slot EMPTY, no flag, mark or page, counts 0 and
unpack position 0 (R28), and feeds the path bound first of those whose entry names it (R29), its source present (R39),
after a link reset too, of which R109 says that the first handover makes it present again (the model's choice, log 16).
A new TAP window starts with every slot HOST_OWNED and no late flag (R6); that the tap is then at its power-on values, its
pending flags clear, is the model's choice (log 45), and so are the parse outcome OK and the sealed length 0 of an
EMPTY slot (log 59). -/
def Obligations.DefineWindowChecks : Prop :=
  (∀ (s : State) (index kind count : Byte) (size : BitVec 16) (base : BitVec 32), s.CommandReady 0x02 →
    let args := [kind, count] ++ leBytes 2 size.toNat ++ leBytes 4 base.toNat
    let res := s.defineWindowResult index.toNat kind.toNat base.toNat size.toNat count.toNat
    (res ≠ .ok →
      exec (.defineWindow index kind count size base) s = .next (s.answeredOnly 0x02 index args res 0))
    ∧ (∀ (i : Fin 16) (w : Window), res = .ok → i.val = index.toNat →
        w = (if kind = 2 then Window.stream base.toNat size.toNat count.toNat
          else if kind = 3 then Window.tap base.toNat size.toNat count.toNat else Window.mirror base.toNat) →
        exec (.defineWindow index kind count size base) s
          = .next (s.answered 0x02 index args .ok w.length fun u => (u.discardWindow i).startWindow i w)))
  ∧ (∀ (u : State) (i j : Fin 16) (w : Window),
      ((u.discardWindow i).startWindow i w).window j = if i = j then w else u.window j)
  ∧ (∀ (u : State) (i : Fin 16) (b n c : Nat),
    let names (p : PathId) : Prop :=
      ∃ e, (u.path p).binding = some e ∧ (u.source e).kind = .stream ∧ (u.source e).window = some i
    let v := u.startWindow i (.stream b n c)
    (∀ j, j ≠ i → v.ring j = u.ring j) ∧ v.tap = u.tap ∧ v.mirror = u.mirror ∧ v.link = u.link
    ∧ v.intakeWait = u.intakeWait
    ∧ (∀ p, v.path p = u.path p)
    ∧ ∃ r : Ring, v.ring i = some r
      ∧ r.slots = List.replicate c
          { state := .empty, late := false, skip := false, page := none, len := 0, outcome := .ok, good := 0, moved := 0 }
      ∧ r.unpackPos = 0 ∧ r.handoverCount = 0
      ∧ (names u.bindFirst → r.feeds = some u.bindFirst)
      ∧ (¬ names u.bindFirst → names u.bindFirst.other → r.feeds = some u.bindFirst.other)
      ∧ (¬ names u.bindFirst → ¬ names u.bindFirst.other → r.feeds = none)
      ∧ r.idle = false
      ∧ (∀ p, r.feeds = some p → v.present p = true))
  ∧ (∀ (u : State) (i : Fin 16) (b n c : Nat),
    u.startWindow i (.tap b n c) = { u.setWindow i (.tap b n c) with tap :=
      { binding := none, fillPos := 0, gapPending := false, closePending := false, hold := []
        slots := List.replicate c { view := .hostOwned, late := false, count := 0 }, outbox := [], unbinding := false } }
    ∧ u.startWindow i (.mirror b) = u.setWindow i (.mirror b))

/-- RELEASE_WINDOW (R7): index 0 or above 15 is refused with BAD_ARG, a window in use with IN_USE; otherwise the entry
becomes FREE, the old window is discarded, and the command returns OK. What discarding does (R6): a STREAM window loses
its slot records and frees its pages, its waiting returns are discarded, and those in the injection queue are issued
without touching any slot; a TAP window is unbound, its slot views and waiting writes discarded, with its pending flags
cleared (the model's choice, log 45); a MIRROR window loses the writes of the section being placed, and a meter
section's values go back into the held values (R181) at once (the model's reading, log 21). A window is in use (R5, R7)
when it is a STREAM window whose index a STREAM entry bound to a path names, or a TAP window while the tap is bound. -/
def Obligations.ReleaseWindowFrees : Prop :=
  (∀ (s : State) (i : Fin 16), s.windowInUse i = true ↔
    ((∃ b n c, s.window i = .stream b n c)
        ∧ ∃ p e, (s.path p).binding = some e ∧ (s.source e).kind = .stream ∧ (s.source e).window = some i)
    ∨ ((∃ b n c, s.window i = .tap b n c) ∧ s.tap.binding ≠ none))
  ∧ ∀ (s : State) (index : Byte), s.CommandReady 0x03 →
    ((index.toNat = 0 ∨ 15 < index.toNat) →
      exec (.releaseWindow index) s = .next (s.answeredOnly 0x03 index [] .badArg 0))
    ∧ (∀ i : Fin 16, i.val = index.toNat → i ≠ 0 → s.windowInUse i = true →
        exec (.releaseWindow index) s = .next (s.answeredOnly 0x03 index [] .inUse 0))
    ∧ (∀ i : Fin 16, i.val = index.toNat → i ≠ 0 → s.windowInUse i = false →
        exec (.releaseWindow index) s
          = .next (s.answered 0x03 index [] .ok 0 fun u => (u.discardWindow i).setWindow i .free))
    ∧ (∀ (u : State) (i : Fin 16),
      let orphan (mine : Origin → Bool) : Link := { u.link with
        injq := u.link.injq.map fun x => if mine x.origin = true then { x with origin := .orphan } else x }
      ((u.window i = .free ∨ ∃ b, u.window i = .anchor b) → u.discardWindow i = u)
      ∧ (∀ b n c, u.window i = .stream b n c →
          u.discardWindow i = { u.setRing i none with
            intakeWait := u.intakeWait.filter fun x => decide (x.1 ≠ i)
            link := orphan fun o => match o with
              | .stream j _ => decide (j = i)
              | .command _ | .report _ | .tapClose _ | .tapData _ | .sect | .orphan => false }
          ∧ ∀ r, u.ring i = some r →
              (u.discardWindow i).pagesBound + (r.slots.filter fun x => x.page.isSome).length = u.pagesBound)
      ∧ (∀ b n c, u.window i = .tap b n c →
          u.discardWindow i = { u with
            tap := { binding := none, fillPos := 0, gapPending := false, closePending := false, hold := [], slots := []
                     outbox := [], unbinding := false }
            link := orphan fun o => match o with
              | .tapClose _ | .tapData _ => true
              | .command _ | .report _ | .stream _ _ | .sect | .orphan => false })
      ∧ (∀ b, u.window i = .mirror b →
          let v := u.discardWindow i
          v.mirror = { u.mirror with job := none } ∧ v.link = u.link
          ∧ ((∀ j, u.mirror.job = some j → j.sect ≠ .meters) → v.out = u.out)
          ∧ (∀ j m, u.mirror.job = some j → j.sect = .meters → u.out.sent = some m →
              v.out.sent = none ∧ ∀ c, v.chan c = { u.chan c with
                heldPeak := max (u.chan c).heldPeak (getAt m c).peak
                heldClip := (u.chan c).heldClip || (getAt m c).clip
                heldBlocks := min 65535 ((u.chan c).heldBlocks + (getAt m c).blocks) })))

/-- SNAPSHOT (R23, R24): refused with BAD_ARG without a MIRROR window or for no section; otherwise the section begins,
its write count rises by 1 modulo 2^16 and is the result value. SET_METERS (R25) sets the meter setting and returns OK.
A section's bytes (11.6): the head with the write count and the section code, the body, zeros, and the tail with the
count, within the section's range; the body holds its records in the order of the table, each with its fields at their
offsets and zero elsewhere. Each write lies within one aligned 64-byte block; that the writes are the whole blocks in
rising order is the model's choice (log 44). The meter section shows what a handover of the held values leaves in the
sent copy, which goes when the last write is in the queue (R181); the return of a SNAPSHOT follows that write. The
model's readings and choices: what stands for an absent step, window index or source index (log 29); B as it stands when
the section is taken (log 26); the decode mode that ZONE2's record shows (log 65). -/
def Obligations.SnapshotAndMeters : Prop :=
  (∀ (s : State) (sect : Byte), s.CommandReady 0x04 → (s.mirrorBase = none ∨ SnapSection.ofCode sect.toNat = none) →
    exec (.snapshot sect) s = .next (s.answeredOnly 0x04 sect [] .badArg 0))
  ∧ (∀ (s : State) (sect : Byte) (x : SnapSection), s.CommandReady 0x04 → s.mirrorBase ≠ none →
    SnapSection.ofCode sect.toNat = some x →
    exec (.snapshot sect) s
      = .next (s.answered 0x04 sect [] .ok (getAt s.mirror.counts (sectionIndex x) + 1).toNat fun u =>
          u.beginSection x false))
  ∧ (∀ (u : State) (x y : SnapSection) (p : Bool), getAt (u.beginSection x p).mirror.counts (sectionIndex y)
      = if x = y then getAt u.mirror.counts (sectionIndex x) + 1 else getAt u.mirror.counts (sectionIndex y))
  ∧ (∀ (s : State) (on : Byte), s.CommandReady 0x05 →
    exec (.setMeters on) s
      = .next (s.answered 0x05 0 [on] .ok 0 fun u =>
          { u with mirror := { u.mirror with metersOn := decide (on ≠ 0) } }))
  ∧ (∀ (u : State) (x : SnapSection) (p : Bool),
    let count := getAt u.mirror.counts (sectionIndex x) + 1
    ∃ v : State,
    let all := cutPieces 20 (sectionStart x) (sectionBytes x count (v.sectionBody x))
    u.beginSection x p = State.mirrorPump 20 { v with mirror := { u.mirror with
      counts := setAt u.mirror.counts (sectionIndex x) count
      job := some { sect := x, pieces := all, periodic := p } } }
    ∧ v = { u with out := v.out }
    ∧ (x ≠ .meters → v = u)
    ∧ (x = .meters → (∀ c, v.chan c = { u.chan c with heldPeak := 0, heldClip := false, heldBlocks := 0 })
        ∧ ∃ m, v.out.sent = some m ∧ ∀ c, getAt m c
            = { peak := (u.chan c).heldPeak, clip := (u.chan c).heldClip, blocks := (u.chan c).heldBlocks }))
  ∧ (∀ (n : Nat) (s : State), State.mirrorPump 0 s = s ∧ State.mirrorPump (n + 1) s = State.mirrorPump n s.mirrorMove)
  ∧ (∀ (s : State) (j : MirrorJob) (base off : Nat) (bs : List Byte) (rest : List (Nat × List Byte)),
    s.mirror.job = some j → s.mirrorBase = some base → j.pieces = (off, bs) :: rest →
    let put : State := { s with link := { s.link with injq := s.link.injq ++
      [{ write := fullWrite (base + off) bs, origin := .sect }] } }
    let left : State := { put with mirror := { s.mirror with job := some { j with pieces := rest } } }
    let done : State := { put with
      mirror := { s.mirror with job := none }
      out := { s.out with sent := if j.sect = .meters then none else s.out.sent } }
    (16 ≤ s.link.injq.length → s.mirrorMove = s)
    ∧ (s.link.injq.length < 16 → rest ≠ [] → s.mirrorMove = left)
    ∧ (s.link.injq.length < 16 → rest = [] → s.mirrorMove = done
        ∧ exec (.producerEnqueue .mirror) s = exec (.producerEnqueue .command) done))
  ∧ (∀ (k off i : Nat) (bs : List Byte), bs.length ≤ 64 * k →
    (cutPieces k off bs)[i]? =
      if 64 * i < bs.length then some (off + 64 * i, (bs.drop (64 * i)).take 64) else none)
  ∧ (∀ x : SnapSection, (x.code, sectionStart x, sectionLength x) =
    (match x with
      | .meters => (0, 0x0000, 0x0100)
      | .stations => (1, 0x0A00, 0x0500)
      | .presets => (2, 0x0600, 0x0300)
      | .lanes => (3, 0x0400, 0x0100)
      | .zonesPaths => (4, 0x0100, 0x0300)
      | .protection => (5, 0x0500, 0x0100)))
  ∧ (∀ (x : SnapSection) (count : BitVec 16) (body : List Byte), body.length ≤ sectionLength x - 16 →
    sectionBytes x count body = leBytes 2 count.toNat ++ [BitVec.ofNat 8 x.code, 0, 0, 0, 0, 0] ++ body
      ++ List.replicate (sectionLength x - 16 - body.length) 0 ++ leBytes 2 count.toNat ++ [0, 0, 0, 0, 0, 0])
  ∧ (∀ u : State,
    u.sectionBody .zonesPaths = u.zoneRecord .main ++ u.zoneRecord .zone2 ++ u.pathRecord .p0 ++ u.pathRecord .p1
        ++ (List.finRange 12).flatMap u.sourceRecord ++ mixerRecord u.mixer
    ∧ u.sectionBody .lanes = ((List.finRange 4).flatMap fun l => laneRecord (u.lane l))
        ++ (List.finRange 12).map (fun e => match u.group e with
            | none => 0xFF
            | some g => BitVec.ofNat 8 g.stage.code)
    ∧ u.sectionBody .protection = ((List.finRange 6).flatMap fun n => pairRecord (u.pair n)) ++ thermalRecord u.thermal
    ∧ u.sectionBody .presets = (List.finRange 40).flatMap (fun i => presetRecord (getAt u.presets i))
    ∧ u.sectionBody .stations = u.regionRecord ++ u.stations.flatMap stationRecord
    ∧ ∀ m, u.out.sent = some m →
        u.sectionBody .meters = (List.finRange 12).flatMap fun c => meterRecord (getAt m c) (u.chan c).lr)
  ∧ (∀ (m : MeterHold) (lr : Int), meterRecord m lr = recordOf 8 0
    [(0, [BitVec.ofNat 8 (meterReading m.peak)]), (1, [flagByte m.clip]), (2, leBytesInt 1 lr), (4, leBytes 2 m.blocks)])
  ∧ (∀ (u : State) (z : Zone),
    let r := u.zone z
    u.zoneRecord z = recordOf 32 0
      [(0, [BitVec.ofNat 8 r.power.code]), (1, [BitVec.ofNat 8 r.switch.code]),
        (2, [optByte (r.selection.map fun e => e.val)]), (3, [optByte (r.target.map fun e => e.val)]),
        (4, [optByte (r.attached.map fun p => p.code)]), (5, [flagByte r.mute]), (6, [BitVec.ofNat 8 r.rampRate]),
        (7, [BitVec.ofNat 8 r.ceiling]), (8, leBytesInt 2 r.masterTarget), (10, leBytesInt 2 r.masterCurrent),
        (12, leBytesInt 2 r.ramp), (14, leBytes 2 r.avDelay), (16, [BitVec.ofNat 8 r.sleep]),
        (17, [BitVec.ofNat 8 r.decode.code]), (18, [flagByte (decide (u.owner = some z))]),
        (20, leBytes 2 r.waitCount), (22, leBytes 2 r.minute)])
  ∧ (∀ (u : State) (p : PathId), (∀ f, (u.path p).format = some f → f.roles.length ≤ 8) →
    let r := u.path p
    let x := r.tracker
    let zones : Nat := (if (u.zone .main).attached = some p then 1 else 0)
      + (if (u.zone .zone2).attached = some p then 2 else 0)
    let format : List Byte × List Byte := match r.format with
      | none => ([0xFF, 0xFF], List.replicate 8 0xFF)
      | some f => ([BitVec.ofNat 8 f.roles.length, BitVec.ofNat 8 f.rate.code],
          f.roles.map (fun y => BitVec.ofNat 8 y.code) ++ List.replicate (8 - f.roles.length) 0)
    u.pathRecord p = recordOf 64 0
      [(0, [optByte (r.binding.map fun e => e.val)]), (1, [BitVec.ofNat 8 zones]), (2, [BitVec.ofNat 8 x.state.code]),
        (3, [flagByte r.format.isSome]), (4, format.1), (6, [flagByte r.formatPending]), (7, [flagByte x.ratchet]),
        (8, format.2), (16, leBytes 2 r.fifo.length), (18, leBytes 2 (u.buffered p)), (20, leBytesInt 2 x.err),
        (22, [BitVec.ofNat 8 x.gain]), (24, leBytesInt 4 x.corr), (28, leBytesInt 4 x.integ),
        (32, leBytes 4 (x.step.getD 0)), (36, leBytes 4 x.phase), (40, leBytes 2 x.timer),
        (42, [BitVec.ofNat 8 x.slips]), (43, [flagByte x.overrun])])
  ∧ (∀ (u : State) (i : Fin 12),
    let e := u.source i
    let label := e.label.getD []
    let unbound : Prop := e.kind = .stream ∧ ∀ w, e.window = some w → ∀ b n c, u.window w ≠ .stream b n c
    ∃ flag : Bool, (flag = true ↔ unbound) ∧ u.sourceRecord i = recordOf 16 0
      [(0, [BitVec.ofNat 8 e.kind.code]), (1, [optByte (e.window.map fun w => w.val)]),
        (2, [optByte (e.label.map List.length)]), (3, [flagByte flag]), (4, label),
        (12, e.lanes.map (fun l => BitVec.ofNat 8 l.val) ++ List.replicate (4 - e.lanes.length) 0xFF)])
  ∧ (∀ x : Mixer, mixerRecord x = recordOf 24 0
    [(0, [flagByte x.matrix]), (2, leBytesInt 2 x.fb), (4, leBytesInt 2 x.lr),
      (6, [Role.fl, .fr, .c, .sw, .sl, .sr, .bl, .br, .tfl, .tfr, .tbl, .tbr].map fun r =>
        flagByte (decide (r ∈ x.layout)))])
  ∧ (∀ r : LaneRec, laneRecord r = recordOf 16 0
    ([(0, [flagByte r.enable]), (1, [BitVec.ofNat 8 r.state.code]), (2, [BitVec.ofNat 8 r.errors]),
        (3, [BitVec.ofNat 8 r.threshold]), (4, [flagByte r.replacement]), (5, [flagByte r.realign.isSome]),
        (6, [BitVec.ofNat 8 (r.realign.getD 0)]), (7, [BitVec.ofNat 8 r.silence]), (8, [flagByte r.config.isSome])]
      ++ match r.config with
          | none => []
          | some c => [(9, [BitVec.ofNat 8 c.group]), (10, [BitVec.ofNat 8 c.index]), (11, [BitVec.ofNat 8 c.count]),
              (12, [BitVec.ofNat 8 c.rate.code]), (13, [BitVec.ofNat 8 c.width]), (14, [BitVec.ofNat 8 c.role1.code]),
              (15, [BitVec.ofNat 8 c.role2.code])]))
  ∧ (∀ r : Pair, pairRecord r = recordOf 16 0
    [(0, [BitVec.ofNat 8 r.state.code]), (1, [BitVec.ofNat 8 r.detect]), (2, [BitVec.ofNat 8 r.limit]),
      (3, [BitVec.ofNat 8 r.used]), (4, [optByte (r.cause.map fun x => x.code)]), (5, [flagByte r.lastLine]),
      (6, [BitVec.ofNat 8 r.asserted]), (8, leBytes 2 r.clear), (10, leBytes 2 r.normalRun)])
  ∧ (∀ r : Thermal, thermalRecord r = recordOf 16 0
    [(0, [flagByte r.warning]), (1, [flagByte r.escalation]), (2, leBytesInt 1 r.t), (3, leBytesInt 1 r.tTarget),
      (4, [BitVec.ofNat 8 r.tTimer]), (5, [flagByte r.lastLine]), (8, leBytes 2 r.assertedRun),
      (10, leBytes 2 r.deassertedRun)])
  ∧ (presetRecord none = recordOf 16 0 []
    ∧ ∀ p : Preset, presetRecord (some p) = recordOf 16 0
        [(0, [1]), (1, [BitVec.ofNat 8 p.band.code]), (2, [optByte (p.label.map List.length)]), (4, leBytes 4 p.freq),
          (8, p.label.getD [])])
  ∧ (∀ x : Station, stationRecord x = recordOf 16 0
    [(0, [BitVec.ofNat 8 x.band.code]), (1, [flagByte x.stereo]), (2, [BitVec.ofNat 8 x.level]),
      (3, [optByte (x.label.map List.length)]), (4, leBytes 4 x.freq), (8, x.label.getD [])])
  ∧ (∀ u : State,
    let t := u.tuner
    let r := u.region
    u.regionRecord = recordOf 32 0
      [(0, [t.identity]), (1, [flagByte t.identified]), (2, [BitVec.ofNat 8 t.blend]), (3, [BitVec.ofNat 8 t.blendTarget]),
        (4, leBytes 2 r.fmStep), (6, [BitVec.ofNat 8 r.amGrid]), (7, [BitVec.ofNat 8 r.fmLevel]),
        (8, [BitVec.ofNat 8 r.amLevel]), (9, [BitVec.ofNat 8 r.fmOffset]), (10, [BitVec.ofNat 8 r.amOffset]),
        (11, [BitVec.ofNat 8 r.errK]), (12, [BitVec.ofNat 8 r.blendLo]), (13, [BitVec.ofNat 8 r.blendHi]),
        (14, [flagByte r.forcedMono]), (15, [BitVec.ofNat 8 u.stations.length]), (16, leBytes 4 r.ampLow),
        (20, leBytes 4 r.ampHigh)])

/-- BIND_TAP (R42): BAD_ARG for an index that holds no TAP window or an unknown point, IN_USE when the tap is bound;
otherwise bound at fill position 0 with both pending flags clear, and the slot capacity as the result value. UNBIND_TAP
(R47) returns OK with no change when the tap is not bound, and else unbinds it: the held frames go into their slot if
it is FILLING, up to its capacity, and are dropped otherwise; the slots that are FILLING or OFFERED close in ring order
from the fill position, OK with the frames they hold or FLUSHED, and the binding is removed. That the close pending
flag is cleared then, with no gap pending flag for it, is the model's choice (log 46), and so is that the return waits
for the closing writes of slots offered meanwhile (log 47). A bound tap places the 48 frames of a block (R44): they go
into the slot at the fill position, each data write within one 64-byte block; a slot that is full, or whose hold buffer
runs empty with the close pending flag set, is closed; a block that finds frames held is dropped whole, and frames that
find the slot not offered are dropped with the gap pending flag. The closing write is that of R45. How large each data
write is within its block is the model's choice (log 67). When the flag is set
for frames dropped behind a slot that has just closed is the model's reading (log 32); that a drop clears the close
pending flag, and that a slot is OFFERED until its first data write is placed, are its choices (log 64). -/
def Obligations.TapBinding : Prop :=
  (∀ (s : State) (index point : Byte), s.CommandReady 0x08 →
    ((TapPoint.ofCode point.toNat = none ∨ ∀ i : Fin 16, i.val = index.toNat → ∀ b n c, s.window i ≠ .tap b n c) →
      exec (.bindTap index point) s = .next (s.answeredOnly 0x08 index [point] .badArg 0))
    ∧ (∀ (i : Fin 16) (p : TapPoint) (b n c : Nat), i.val = index.toNat → TapPoint.ofCode point.toNat = some p →
        s.window i = .tap b n c →
        (s.tap.binding ≠ none →
          exec (.bindTap index point) s = .next (s.answeredOnly 0x08 index [point] .inUse 0))
        ∧ (s.tap.binding = none →
          exec (.bindTap index point) s
            = .next (s.answered 0x08 index [point] .ok ((n - 32) / 8 : Nat) fun u =>
                { u with tap := { u.tap with
                    binding := some (i, p), fillPos := 0, gapPending := false, closePending := false } }))))
  ∧ (∀ s : State, s.CommandReady 0x09 →
    (s.tap.binding = none → exec .unbindTap s = .next (s.answeredOnly 0x09 0 [] .ok 0))
    ∧ (s.tap.binding ≠ none → exec .unbindTap s = .next (s.answered 0x09 0 [] .ok 0 State.unbind)))
  ∧ (∀ u : State, (u.unbind).tap.binding = none)
  ∧ (∀ (u : State) (w : Fin 16) (b n c : Nat), u.tapWindow = some (w, b, n, c) → u.tap.slots.length = c →
    u.tap.fillPos < c →
    let x := u.tap.slot u.tap.fillPos
    let cap := (n - 32) / 8
    let holds (j : Nat) : Nat :=
      if j = u.tap.fillPos then min cap (x.count + u.tap.hold.length) else (u.tap.slot j).count
    ∃ t : Tap,
      u.unbind =
        (let v := State.tapPump 64 { u with tap := t }
         { v with tap := { v.tap with unbinding := !v.tap.outbox.isEmpty } })
      ∧ t.binding = none ∧ t.hold = [] ∧ t.closePending = false ∧ t.gapPending = u.tap.gapPending
      ∧ t.slots.length = c
      ∧ (∀ j, j < c → t.slot j =
          (match (u.tap.slot j).view with
            | .filling => { u.tap.slot j with view := .closing, count := holds j }
            | .offered => { u.tap.slot j with view := .closing, count := 0 }
            | .hostOwned | .closing => u.tap.slot j))
      ∧ t.outbox = u.tap.outbox
          ++ (if x.view = .filling then tapDataItems u.tap.fillPos 48 x.count cap u.tap.hold else [])
          ++ (List.range c).flatMap fun k =>
              let j := (u.tap.fillPos + k) % c
              match (u.tap.slot j).view with
              | .filling => [TapItem.close j (holds j) .ok false]
              | .offered => [TapItem.close j 0 .flushed false]
              | .hostOwned | .closing => [])
  ∧ (∀ (i k m cap : Nat) (fs : List (Sample × Sample)),
    let q := min (8 - (4 + m) % 8) (min (cap - m) fs.length)
    ((fs = [] ∨ cap ≤ m) → tapDataItems i (k + 1) m cap fs = [])
    ∧ (fs ≠ [] → m < cap →
      tapDataItems i (k + 1) m cap fs = .data i m (fs.take q) :: tapDataItems i k (m + q) cap (fs.drop q)))
  ∧ (∀ (s : State) (w : Fin 16) (b n c i m : Nat) (fs : List (Sample × Sample)), s.tapWindow = some (w, b, n, c) →
    s.placeTapItem (.data i m fs) = { s with link := { s.link with injq := s.link.injq ++
      [{ write := fullWrite (b + n * i + 32 + 8 * m) (tapBytes fs), origin := .tapData i }] } })
  ∧ (∀ (s : State) (it : TapItem) (rest : List TapItem), s.tap.outbox = it :: rest → s.link.injq.length < 16 →
    s.tap.unbinding = true →
    let v := ({ s with tap := { s.tap with outbox := rest } }).placeTapItem it
    (rest = [] → exec (.producerEnqueue .tap) s
      = exec (.producerEnqueue .command) { v with tap := { v.tap with unbinding := false } })
    ∧ (rest ≠ [] → exec (.producerEnqueue .tap) s = .next v))
  ∧ (∀ (s : State) (frames : List (Sample × Sample)),
    let x := s.tap.slot s.tap.fillPos
    (s.tap.binding = none → s.tapBlock frames = s)
    ∧ (s.tap.binding ≠ none → s.tap.hold ≠ [] →
        s.tapBlock frames = { s with tap := { s.tap with closePending := true } })
    ∧ (s.tap.binding ≠ none → s.tap.hold = [] → (x.view = .offered ∨ x.view = .filling) →
        s.tapBlock frames = State.tapPump 64 { s with tap := { s.tap with hold := frames } })
    ∧ (s.tap.binding ≠ none → s.tap.hold = [] → (x.view = .hostOwned ∨ x.view = .closing) → s.tap.outbox = [] →
        s.tapBlock frames = { s with tap := { s.tap with gapPending := true } }))
  ∧ (∀ (n : Nat) (s : State),
    State.tapPump 0 s = s
    ∧ State.tapPump (n + 1) s = if s.tapMove.2 = true then State.tapPump n s.tapMove.1 else s)
  ∧ (∀ s : State,
    let x := s.tap.slot s.tap.fillPos
    (∀ it rest, s.tap.outbox = it :: rest →
      s.tapMove = if s.link.injq.length < 16 then (({ s with tap := { s.tap with outbox := rest } }).placeTapItem it, true)
        else (s, false))
    ∧ (s.tap.outbox = [] → s.tap.hold = [] → s.tapMove = (s, false))
    ∧ (∀ (v w : Fin 16) (p : TapPoint) (b n c : Nat), s.tap.outbox = [] → s.tap.hold ≠ [] →
        s.tap.binding = some (v, p) → s.tapWindow = some (w, b, n, c) →
        let cap := (n - 32) / 8
        let k := min (8 - (4 + x.count) % 8) (min (cap - x.count) s.tap.hold.length)
        ((x.view = .offered ∨ x.view = .filling) → 16 ≤ s.link.injq.length → s.tapMove = (s, false))
        ∧ ((x.view = .offered ∨ x.view = .filling) → s.link.injq.length < 16 →
            s.tapMove =
              ({ s with
                  link := { s.link with injq := s.link.injq ++
                    [{ write := fullWrite (b + n * s.tap.fillPos + 32 + 8 * x.count) (tapBytes (s.tap.hold.take k))
                       origin := .tapData s.tap.fillPos }] }
                  tap := s.tap.tookFrames cap k }, true))
        ∧ ((x.view = .hostOwned ∨ x.view = .closing) →
            s.tapMove =
              ({ s with tap := { s.tap with hold := [], closePending := false, gapPending := true } }, true))))
  ∧ (∀ (t : Tap) (cap k : Nat),
    let x := t.slot t.fillPos
    let m := x.count + k
    let left := t.hold.drop k
    let after := (t.fillPos + 1) % t.slots.length
    let u := t.setSlot t.fillPos { x with view := .closing, count := m }
    (m ≠ cap → (t.closePending = false ∨ left ≠ []) →
      t.tookFrames cap k = { t.setSlot t.fillPos { x with view := .filling, count := m } with hold := left })
    ∧ ((m = cap ∨ t.closePending = true) → left = [] →
      t.tookFrames cap k = { u with
        hold := [], fillPos := after, closePending := false
        outbox := t.outbox ++ [.close t.fillPos m .ok t.closePending] })
    ∧ (m = cap → left ≠ [] → ((u.slot after).view = .offered ∨ (u.slot after).view = .filling) →
      t.tookFrames cap k = { u with
        hold := left, fillPos := after, outbox := t.outbox ++ [.close t.fillPos m .ok false] })
    ∧ (m = cap → left ≠ [] → ((u.slot after).view = .hostOwned ∨ (u.slot after).view = .closing) →
      t.tookFrames cap k = { u with
        hold := [], fillPos := after, closePending := false
        outbox := t.outbox ++ [.close t.fillPos m .ok true] }))
  ∧ (∀ (l r : Sample) (fs : List (Sample × Sample)),
    tapBytes [] = [] ∧ tapBytes ((l, r) :: fs) = leBytesInt 4 l ++ leBytesInt 4 r ++ tapBytes fs)
  ∧ (∀ (s : State) (w : Fin 16) (b n c k m : Nat) (status : StreamStatus) (gapAfter : Bool),
    s.tapWindow = some (w, b, n, c) →
    let h : List Byte := [0xC7, 0x5A, 2, 2] ++ leBytes 2 m ++ [1, 2, 0, 0, 0, 0, 0, 0, 0]
    let flags : Byte := flagByte (s.tap.slot k).late + (if s.tap.gapPending = true then 2 else 0)
    s.placeTapItem (.close k m status gapAfter)
      = { s with
          link := { s.link with injq := s.link.injq ++
            [{ write :=
                { addr := b + n * k
                  data := [0, BitVec.ofNat 8 status.code, flags, 0] ++ leBytes 2 (if m = 0 then 0 else 16 + 8 * m)
                    ++ leBytes 2 m ++ List.replicate 8 0 ++ (h ++ [BitVec.ofNat 8 (headerSum h)])
                  mask := List.replicate 8 true ++ List.replicate 8 false ++ List.replicate 16 true }
               origin := .tapClose k }] }
          tap := { s.tap with gapPending := gapAfter } })

/-! ## Lanes and sources -/

/-- SET_LANE (R63): a lane above 3 is refused with BAD_ARG; E is clamped into 1 to 255 and returned with CLAMPED; E and
the replacement setting are taken, then the enable setting acts by the lane's state. Disabling a lane in DATA takes its
group out of DATA (R62), with LANE_STATE for each of its lanes; disabling one in ALIGNED takes a measuring group back
to FORMING (R58). R63 names the realign request and the received configuration; that a disabled lane's run, copies,
skew, flag and buffer are cleared with them, and a group's opened flag when it leaves DATA, is the model's reading
(log 30). -/
def Obligations.SetLane : Prop :=
  (∀ (s : State) (lane en e rep : Byte), s.CommandReady 0x10 → 3 < lane.toNat →
    exec (.setLane lane en e rep) s = .next (s.answeredOnly 0x10 lane [en, e, rep] .badArg 0))
  ∧ (∀ (s : State) (lane en e rep : Byte) (l : Fin 4), s.CommandReady 0x10 → l.val = lane.toNat →
    exec (.setLane lane en e rep) s
      = .next (s.answered 0x10 lane [en, e, rep] (if e = 0 then .clamped else .ok) (if e = 0 then 1 else 0) fun u =>
          (u.setLane l { u.lane l with
            threshold := if e = 0 then 1 else e.toNat, replacement := decide (rep ≠ 0) }).enableLane l
              (decide (en ≠ 0))))
  ∧ (∀ (u : State) (l : Fin 4) (on : Bool),
      ((u.lane l).enable = on → u.enableLane l on = u)
      ∧ ((u.lane l).enable = false → on = true →
          u.enableLane l on = u.setLane l { u.lane l with
            enable := true, state := .hunt, errors := 0, goodRun := 0, silence := 0, syncRun := 0, copies := 0
            firstCopy := none, config := none, skew := 0, started := false, buffer := [] })
      ∧ ((u.lane l).enable = true → on = false →
          let off : LaneRec := { u.lane l with
            enable := false, state := .disabled, realign := none, syncRun := 0, copies := 0
            firstCopy := none, config := none, skew := 0, started := false, buffer := [] }
          let forming : Option GroupRec := some { stage := .forming, format := none, opened := false }
          ((u.lane l).state ≠ .data →
              ((u.lane l).state ≠ .aligned ∨ ∀ e g, u.groupOfLane l = some (e, g) → g.stage ≠ .measuring) →
            u.enableLane l on = (u.setLane l off).laneReport l .disabled)
          ∧ (∀ e g, (u.lane l).state = .aligned → u.groupOfLane l = some (e, g) → g.stage = .measuring →
            ∃ v : State, u.enableLane l on = v.laneReport l .disabled ∧ v.rep = u.rep ∧ v.lane l = off
              ∧ v.group e = forming
              ∧ ∀ x ∈ (u.source e).lanes, x ≠ l →
                  v.lane x = { u.lane x with skew := 0, started := false, buffer := [] })
          ∧ (∀ e g, (u.lane l).state = .data → u.groupOfLane l = some (e, g) →
            ∃ v : State, u.enableLane l on = v.laneReports (u.source e).lanes .disabled ∧ v.rep = u.rep
              ∧ v.lane l = off ∧ v.group e = forming
              ∧ ∀ x ∈ (u.source e).lanes, x ≠ l →
                  v.lane x = { u.lane x with
                    realign := some 32, state := .hunt, syncRun := 0, copies := 0, firstCopy := none, config := none
                    skew := 0, started := false, buffer := [] })))

/-- DEFINE_SOURCE (R68): the checks in their order, then the fields clamped, with the first clamped field in the order
T, Kp, Ki, G, H, W, input trim as the result value. Check 4: a lane list of 1 to 4 lanes, each 0 to 3, no lane twice,
or a window index of 1 to 15. Check 6: a lane of the list stands in the list of another entry; check 7: another entry is
of kind TUNER. What putting the entry in its place does to the lanes stands in ClearSource (R64). -/
def Obligations.DefineSource : Prop :=
  (∀ (s : State) (e : Fin 12) (ls : List (Fin 4)),
    (s.laneTaken e ls = true ↔ ∃ x, x ≠ e ∧ ∃ l ∈ ls, l ∈ (s.source x).lanes)
    ∧ (s.otherTuner e = true ↔ ∃ x, x ≠ e ∧ (s.source x).kind = .tuner))
  ∧ (∀ a : SourceArgs,
    let n := a.laneCount.toNat
    sourceParts .tuner a = some ([], none)
    ∧ ((a.window = 0 ∨ 15 < a.window.toNat) → sourceParts .stream a = none)
    ∧ (∀ w : Fin 16, w.val = a.window.toNat → w ≠ 0 → sourceParts .stream a = some ([], some w))
    ∧ ((n = 0 ∨ 4 < n ∨ (∃ b ∈ a.lanes.take n, 3 < b.toNat) ∨ ¬ (a.lanes.take n).Nodup) →
        sourceParts .laneGroup a = none)
    ∧ (∀ ls : List (Fin 4), 1 ≤ n → n ≤ 4 → ls.length = n → ls.Nodup →
        (a.lanes.take n).map BitVec.toNat = ls.map Fin.val → sourceParts .laneGroup a = some (ls, none)))
  ∧ ∀ (s : State) (entry : Byte) (a : SourceArgs), s.CommandReady 0x11 →
    let args := [a.kind, a.laneCount] ++ a.lanes ++ [a.window, 0] ++ leBytes 2 a.fillT.toNat
      ++ [a.kp, a.ki, a.gainG, a.ratchetH, a.lockW, a.trim] ++ (a.label.len :: a.label.chars)
    let refused (r : CmdResult) : Prop := exec (.defineSource entry a) s = .next (s.answeredOnly 0x11 entry args r 0)
    (11 < entry.toNat → refused .badArg)
    ∧ (entry.toNat ≤ 11 → (a.kind = 0 ∨ 3 < a.kind.toNat) → refused .badArg)
    ∧ (∀ (e : Fin 12) (k : SourceKind), e.val = entry.toNat → SourceKind.ofCode a.kind.toNat = some k → k ≠ .none →
        (s.boundPath e ≠ none → refused .inUse)
        ∧ (s.boundPath e = none →
            (Sys2Proof.Machine.sourceParts k a = none → refused .badArg)
            ∧ (∀ parts, Sys2Proof.Machine.sourceParts k a = some parts →
                (decodeLabel a.label = none → refused .badArg)
                ∧ (∀ label, decodeLabel a.label = some label →
                    ((s.laneTaken e parts.1 = true ∨ (k = .tuner ∧ s.otherTuner e = true)) → refused .inUse)
                    ∧ (s.laneTaken e parts.1 = false → ¬ (k = .tuner ∧ s.otherTuner e = true) →
                        let g := min 7 a.gainG.toNat
                        let r : SourceEntry :=
                          { kind := k, lanes := parts.1, window := parts.2
                            fillT := max 96 (min 2048 a.fillT.toNat), kp := max 1 a.kp.toNat, ki := a.ki.toNat
                            gainG := g, ratchetH := min g a.ratchetH.toNat, lockW := max 1 (min 64 a.lockW.toNat)
                            trim := max (-24) (min 24 a.trim.toInt), label := label }
                        let c := clampResult
                          [((a.fillT.toNat : Int), (r.fillT : Int)), ((a.kp.toNat : Int), (r.kp : Int)),
                            ((a.ki.toNat : Int), (r.ki : Int)), ((a.gainG.toNat : Int), (r.gainG : Int)),
                            ((a.ratchetH.toNat : Int), (r.ratchetH : Int)), ((a.lockW.toNat : Int), (r.lockW : Int)),
                            (a.trim.toInt, r.trim)]
                        exec (.defineSource entry a) s
                          = .next (s.answered 0x11 entry args c.1 c.2 fun u => u.putSource e r))))))

/-- CLEAR_SOURCE (R69): BAD_ARG above 11; IN_USE for an entry bound to a path, the pending target of a switch, or the
selection of a zone not in STANDBY; otherwise the entry takes its power-on values, a zone that records it as its
selection has none afterwards while the other zone keeps its own, nothing else of a zone changes by it, and the command
returns OK. Putting an entry's new content in its place, here and in DEFINE_SOURCE,
makes the lane receiver act when the lane list changes (R64): a RUNNING group is reported REDEFINED and its lanes'
deskew state is cleared (R62), each lane of either list that has been placed is placed again against the new table
(R54) and reported if it disagrees, the group record of the new list starts in FORMING, one of a list that is gone is
deleted, and a group whose lanes are all ALIGNED compares at once (R58). The order of the reports among the lanes is
the model's choice (log 25). -/
def Obligations.ClearSource : Prop :=
  (∀ (u : State) (e : Fin 12) (r : SourceEntry),
    let old := (u.source e).lanes
    let w := u.setSource e r
    let both := old ++ r.lanes.filter fun l => decide (l ∉ old)
    let placed (l : Fin 4) : Prop := (u.lane l).state = .aligned ∨ (u.lane l).state = .data ∨ (u.lane l).state = .mismatch
    let place (l : Fin 4) : LaneState :=
      match w.entryOfLane l with
      | none => .aligned
      | some x =>
        if (u.laneConfig l).count = (w.source x).lanes.length ∧ (u.laneConfig l).index = posOf l (w.source x).lanes
        then .aligned else .mismatch
    let running : Bool := (u.group e).any fun g => decide (g.stage = .running)
    (old = r.lanes → u.putSource e r = w)
    ∧ (old ≠ r.lanes → ∃ v : State,
        u.putSource e r
          = ((if running = true then v.laneReports old .redefined else v).laneReports
              (both.filter fun l => decide (placed l ∧ place l = .mismatch)) .mismatch).groupCompare e
        ∧ v = { w with lanes := v.lanes, groups := v.groups }
        ∧ v.group e = (if r.kind = .laneGroup then some { stage := .forming, format := none, opened := false } else none)
        ∧ (∀ x, x ≠ e → v.group x = u.group x)
        ∧ ∀ l,
          let y := u.lane l
          v.lane l =
            (let z : LaneRec := if l ∈ old then { y with skew := 0, started := false, buffer := [] } else y
             if l ∈ both ∧ placed l then { z with state := place l } else z)))
  ∧ (∀ (u : State) (e : Fin 12),
    let v := (u.forgetSelection .main e).forgetSelection .zone2 e
    v = { u with zoneMain := v.zoneMain, zoneTwo := v.zoneTwo }
    ∧ ∀ z,
      ((u.zone z).selection = some e → v.zone z = { u.zone z with selection := none })
      ∧ ((u.zone z).selection ≠ some e → v.zone z = u.zone z))
  ∧ ∀ (s : State) (entry : Byte), s.CommandReady 0x12 →
    (11 < entry.toNat → exec (.clearSource entry) s = .next (s.answeredOnly 0x12 entry [] .badArg 0))
    ∧ (∀ e : Fin 12, e.val = entry.toNat →
        let used := s.boundPath e ≠ none ∨ ∃ z, (s.zone z).target = some e
          ∨ ((s.zone z).selection = some e ∧ (s.zone z).power ≠ .standby)
        (used → exec (.clearSource entry) s = .next (s.answeredOnly 0x12 entry [] .inUse 0))
        ∧ (¬ used → exec (.clearSource entry) s
            = .next (s.answered 0x12 entry [] .ok 0 fun u =>
                ((u.putSource e SourceEntry.powerOn).forgetSelection .main e).forgetSelection .zone2 e)))

/-- SELECT_SOURCE (R80): the rows of its table, with a FADE_OUT that is silent already ending at once (R81), and
BAD_ARG for an index above 11 or an entry of kind NONE. -/
def Obligations.SelectSource : Prop :=
  ∀ (s : State) (zone source : Byte) (z : Zone), s.CommandReady 0x18 → Zone.ofCode zone.toNat = some z →
    let r := s.zone z
    let tag := some s.cmd.next.val
    let gives (res : CmdResult) (f : State → State) : Prop :=
      exec (.selectSource zone source) s = .next (s.answered 0x18 zone [source] res 0 f)
    (11 < source.toNat → gives .badArg id)
    ∧ (∀ e : Fin 12, e.val = source.toNat →
        ((s.source e).kind = .none → gives .badArg id)
        ∧ ((s.source e).kind ≠ .none →
            (r.power ≠ .on → gives .ok fun u => u.setZone z { r with selection := some e })
            ∧ (r.power = .on → r.switch = .idle → r.selection = some e → gives .ok id)
            ∧ (r.power = .on → r.switch = .idle → r.selection ≠ some e → r.ramp ≠ -240 →
                gives .accepted fun u => u.setZone z
                  { r with selection := some e, target := some e, tag := tag, waitCount := 0, switch := .fadeOut })
            ∧ (r.power = .on → r.switch = .idle → r.selection ≠ some e → r.ramp = -240 →
                gives .accepted fun u => (u.setZone z
                  { r with selection := some e, target := some e, tag := tag, waitCount := 0
                           switch := .fadeOut }).endFadeOut z)
            ∧ (r.power = .on → r.switch ≠ .idle → r.target = some e →
                gives .accepted fun u => (u.switchDone z .aborted).setZone z { r with tag := tag })
            ∧ (r.power = .on → r.switch = .fadeOut → r.target ≠ some e →
                gives .accepted fun u => (u.switchDone z .aborted).setZone z
                  { r with selection := some e, target := some e, tag := tag })
            ∧ (r.power = .on → (r.switch = .waitReady ∨ r.switch = .fadeIn) → r.target ≠ some e → r.ramp ≠ -240 →
                gives .accepted fun u => (u.switchDone z .aborted).setZone z
                  { r with selection := some e, target := some e, tag := tag, waitCount := 0
                           switch := .fadeOut })
            ∧ (r.power = .on → (r.switch = .waitReady ∨ r.switch = .fadeIn) → r.target ≠ some e → r.ramp = -240 →
                gives .accepted fun u => ((u.switchDone z .aborted).setZone z
                  { r with selection := some e, target := some e, tag := tag, waitCount := 0
                           switch := .fadeOut }).endFadeOut z)))

/-! ## Zones -/

/-- Attaching (R71, R73): a zone joins the path bound to the source, or binds P0 if it is free and else P1, and takes
an unowned tuner. Binding starts a path in PREFILL and tells the source's block; a format handed over is adopted at
once by a path without one or with an empty FIFO, and else held (R92, R93). Detaching (R72, R73): the path is released
when no other zone is on it, its window flushed, the tuner sent to IDLE (R134), and else the tuner's owner passes on.
The switch (R81 to R83): the end of FADE_OUT keeps the path or moves the zone, and WAIT_READY and FADE_IN end on entry
when they can. MAIN's energies start from 0 at attachment and adoption (R114; that the old frames of the block of an
adoption are steered from 0 too is the model's reading, log 37). That every change of owner raises
RADIO_STATE OWNER, the first too, is the model's reading (log 18); what a record at IDLE keeps after an aborted scan is
log 31, and its settle count of 0 log 62. -/
def Obligations.AttachAndSwitch : Prop :=
  (∀ (s : State) (z : Zone) (e : Fin 12) (p : PathId),
    (s.boundPath e = some p ↔ (s.path p).binding = some e ∧ (p = .p1 → s.pathZero.binding ≠ some e))
    ∧ (s.pathZero.binding = none → s.freePath = .p0) ∧ (s.pathZero.binding ≠ none → s.freePath = .p1)
    ∧ (let v := s.setZone z { s.zone z with attached := some p }
       (z = .main → s.joinPath z p = { v with mixer := { v.mixer with eL := 0, eR := 0, eM := 0, eS := 0 } })
       ∧ (z = .zone2 → s.joinPath z p = v))
    ∧ (let v := match s.boundPath e with
         | some q => s.joinPath z q
         | none => (s.joinPath z s.freePath).bindPath s.freePath e
       (((v.source e).kind = .tuner ∧ v.owner = none) → s.attach z e = v.setOwner z)
       ∧ (¬ ((v.source e).kind = .tuner ∧ v.owner = none) → s.attach z e = v))
    ∧ s.setOwner z = State.radioReport { s with owner := some z } .owner)
  ∧ (∀ (s : State) (p : PathId) (e : Fin 12),
    let bound : State := { s with bindFirst := if (s.path p.other).binding = none then p else p.other }
    s.bindPath p e = (bound.setPath p { PathRec.free with
      binding := some e, tracker := { Tracker.free with state := .prefill } }).tellBound p e)
  ∧ (∀ (s : State) (p : PathId) (e : Fin 12),
    let src := s.source e
    (src.kind = .none → s.tellBound p e = s)
    ∧ (∀ g f, src.kind = .laneGroup → s.group e = some g → g.stage = .running → g.format = some f →
        s.tellBound p e = s.handFormat p f)
    ∧ (src.kind = .laneGroup → (∀ g, s.group e = some g → g.stage ≠ .running ∨ g.format = none) → s.tellBound p e = s)
    ∧ (src.kind = .stream → src.window = none → s.tellBound p e = s)
    ∧ (∀ w, src.kind = .stream → src.window = some w → s.tellBound p e = s.feedIfNamed w)
    ∧ (src.kind = .tuner → s.tellBound p e
        = (s.handFormat p { rate := .r48000, roles := [.fl, .fr] }).tuneTo s.tuner.band s.tuner.freq))
  ∧ (∀ (s : State) (p : PathId) (f : Format),
    let r := s.path p
    let v := s.setPath p { r with formatPending := true, held := some f }
    (r.format = some f → s.handFormat p f = s.setPath p { r with formatPending := false, held := none })
    ∧ (r.format ≠ some f → (r.fifo = [] ∨ r.format = none) → s.handFormat p f = v.adoptFormat p)
    ∧ (r.format ≠ some f → r.fifo ≠ [] → r.format ≠ none → s.handFormat p f = v))
  ∧ (∀ (s : State) (p : PathId) (f : Format), (s.path p).held = some f →
    let r := s.path p
    let step := nominalStep f.rate
    let v := s.setPath p { r with
      fifo := [], format := some f, formatPending := false, held := none, history := [], drained := false
      adoptedNow := true
      tracker := { r.tracker with
        state := .prefill, step0 := some step, cmax := some (step / 512), step := some step, integ := 0, phase := 0
        corr := 0, gain := 0, slips := 0, ratchet := false, timer := 0, overrun := false } }
    let w := if s.zoneMain.attached = some p then { v with mixer := { v.mixer with eL := 0, eR := 0, eM := 0, eS := 0 } }
      else v
    s.adoptFormat p = w.raise .format p.code
      ([BitVec.ofNat 8 p.code, optByte (r.binding.map fun e => e.val), BitVec.ofNat 8 f.roles.length,
          BitVec.ofNat 8 f.rate.code]
        ++ f.roles.map (fun x => BitVec.ofNat 8 x.code) ++ List.replicate (8 - f.roles.length) 0))
  ∧ (∀ (s : State) (z : Zone),
    let v := s.setZone z { s.zone z with attached := none }
    ((s.zone z).attached = none → s.detach z = s)
    ∧ (∀ p, (s.zone z).attached = some p → (s.zone z.other).attached = some p →
        ((s.pathKind p = .tuner ∧ s.owner = some z) → s.detach z = v.setOwner z.other)
        ∧ (¬ (s.pathKind p = .tuner ∧ s.owner = some z) → s.detach z = v))
    ∧ (∀ p, (s.zone z).attached = some p → (s.zone z.other).attached ≠ some p → s.detach z = v.releasePath p))
  ∧ (∀ (s : State) (p : PathId),
    let v := ({ s with bindFirst := p.other }).setPath p PathRec.free
    ((s.pathKind p = .none ∨ s.pathKind p = .laneGroup) → s.releasePath p = v)
    ∧ (∀ w, s.pathKind p = .stream → s.feeding p = some w → s.releasePath p = v.flushWindow w)
    ∧ (s.pathKind p = .stream → s.feeding p = none → s.releasePath p = v)
    ∧ (s.pathKind p = .tuner → s.releasePath p = State.tunerIdle { v with owner := none }))
  ∧ (∀ (s : State) (b : Band) (f : Nat),
    let t := s.tuner
    (∀ op, t.op = some op → op.kind = .scan → b = op.startBand ∧ f = op.startFreq) →
    ((t.op = none ∨ ∃ op, t.op = some op ∧ op.kind ≠ .scan) → b = t.band ∧ f = t.freq) →
    s.tunerIdle = State.radioReport
      { s.abortOp false with tuner := { t with
          state := .idle, band := b, freq := f, openTx := none, waiting := none, phase := .none, settleCount := 0
          silence := 0, ampHistory := [], pilot := .absent, inRun := 0, missRun := 0, pilotCount := 0, blend := 0
          blendTimer := 0, op := none } } .idle)
  ∧ (∀ (s : State) (z : Zone),
    let r := s.zone z
    (r.target = none → s.endFadeOut z = s)
    ∧ (∀ e p, r.target = some e → r.attached = some p → s.boundPath e = some p → s.endFadeOut z = s.startWait z)
    ∧ (∀ e, r.target = some e → (∀ p, r.attached = some p → s.boundPath e ≠ some p) →
        s.endFadeOut z = ((s.detach z).attach z e).startWait z))
  ∧ (∀ (s : State) (z : Zone),
    let r := s.zone z
    let ready := ∃ p, r.attached = some p ∧ (s.path p).formatPending = false
      ∧ ((s.path p).tracker.state = .acquire ∨ (s.path p).tracker.state = .track ∨ (s.path p).tracker.state = .sync)
    (¬ ready → s.startWait z = s.setZone z { r with switch := .waitReady, waitCount := 0 })
    ∧ (ready → r.mute = false → s.startWait z = s.setZone z { r with switch := .fadeIn, waitCount := 0 })
    ∧ (ready → r.mute = true → s.startWait z
        = ((s.setZone z { r with switch := .idle, waitCount := 0, target := none, tag := none }).zoneReport z).raiseDone
          r.tag
          [0, 0, BitVec.ofNat 8 z.code, 0, optByte (r.target.map fun e => e.val), optByte (r.attached.map fun p => p.code)]))
  ∧ (∀ (s : State) (z : Zone) (e : Fin 12) (tag : Option Nat),
    let v := s.setZone z
      { s.zone z with selection := some e, target := some e, tag := tag, waitCount := 0, switch := .fadeOut }
    ((s.zone z).ramp = -240 → s.startSwitch z e tag = v.endFadeOut z)
    ∧ ((s.zone z).ramp ≠ -240 → s.startSwitch z e tag = v))
  ∧ (∀ (s : State) (z : Zone),
    let v := s.detach z
    s.enterStandby z = (v.setZone z { v.zone z with power := .standby }).zoneReport z)

/-- ZONE_POWER ON and STANDBY (R85, R86): what each does in each power state, and OK in every case. That an abort by
power is reported with COMMAND_DONE and then with exactly one ZONE_STATE is the model's reading (log 34); that the
minute counter and the wait count are then 0 is its choice (log 49). -/
def Obligations.ZonePower : Prop :=
  ∀ (s : State) (zone : Byte) (z : Zone), s.CommandReady 0x19 → Zone.ofCode zone.toNat = some z →
    let r := s.zone z
    let on (f : State → State) : Prop := exec (.zonePowerOn zone) s = .next (s.answered 0x19 zone [1] .ok 0 f)
    let off (f : State → State) : Prop := exec (.zonePowerStandby zone) s = .next (s.answered 0x19 zone [0] .ok 0 f)
    (r.power = .on → on id)
    ∧ (r.power ≠ .on → r.selection = none → on fun u => (u.setZone z { r with power := .on }).zoneReport z)
    ∧ (∀ e, r.power = .standby → r.selection = some e →
        on fun u => ((u.setZone z { r with power := .on }).zoneReport z).startSwitch z e none)
    ∧ (∀ e p, r.power = .goingStandby → r.selection = some e → r.attached = some p → s.boundPath e = some p →
        on fun u => (u.setZone z { r with power := .on }).zoneReport z)
    ∧ (∀ e, r.power = .goingStandby → r.selection = some e → (r.attached = none ∨ s.boundPath e ≠ r.attached) →
        on fun u => ((u.setZone z { r with power := .on }).zoneReport z).startSwitch z e none)
    ∧ (r.power ≠ .on → off id)
    ∧ (r.power = .on → r.ramp ≠ -240 →
        off fun u => ((if r.switch = .idle then u else u.switchDone z .aborted).setZone z
          { r with switch := .idle, target := none, tag := none, waitCount := 0, sleep := 0, minute := 0
                   power := .goingStandby }).zoneReport z)
    ∧ (r.power = .on → r.ramp = -240 →
        off fun u => (((if r.switch = .idle then u else u.switchDone z .aborted).setZone z
          { r with switch := .idle, target := none, tag := none, waitCount := 0, sleep := 0, minute := 0
                   power := .goingStandby }).zoneReport z).enterStandby z)

/-- MUTE (R78) and SET_VOLUME (R77): mute is set and a change of it raises ZONE_STATE; the level, clamped into -192 to
+24, becomes the master target at once, and CLAMPED returns the applied level. SET_ZONE (R79): each setting is clamped,
NO_ROOM when the delay pool would be exceeded, and otherwise all three are taken with the first clamped one returned; a
new AV delay reaches the zone's channels as ChangeGroups states, in STANDBY too, where a channel that has still to leave
the other zone makes it wait (the model's choice, log 60). SET_SLEEP (R87): BUSY in a zone not ON, else the
minutes, at most 120. Nothing else of the zone changes. -/
def Obligations.ZoneSettings : Prop :=
  (∀ (s : State) (zone on : Byte) (z : Zone), s.CommandReady 0x1A → Zone.ofCode zone.toNat = some z →
    exec (.mute zone on) s
      = .next (s.answered 0x1A zone [on] .ok 0 fun u =>
          if (s.zone z).mute = decide (on ≠ 0) then u
          else (u.setZone z { s.zone z with mute := decide (on ≠ 0) }).zoneReport z))
  ∧ (∀ (s : State) (zone : Byte) (level : BitVec 16) (z : Zone), s.CommandReady 0x1B →
    Zone.ofCode zone.toNat = some z →
    let v := max (-192) (min 24 level.toInt)
    exec (.setVolume zone level) s
      = .next (s.answered 0x1B zone (leBytes 2 level.toNat) (if v = level.toInt then .ok else .clamped)
          (if v = level.toInt then 0 else v) fun u => u.setZone z { s.zone z with masterTarget := v }))
  ∧ (∀ (s : State) (zone rate ceil : Byte) (av : BitVec 16) (z : Zone), s.CommandReady 0x1C →
    Zone.ofCode zone.toNat = some z →
    let n := rate.toNat
    let rr := if n ≤ 1 then 1 else if n ≤ 3 then 2 else if n ≤ 7 then 4 else if n ≤ 15 then 8 else 16
    let d := min 9600 av.toNat
    let c := min 24 ceil.toNat
    let args := [rate, 0] ++ leBytes 2 av.toNat ++ [ceil]
    let set (u : State) := u.setZone z { s.zone z with rampRate := rr, avDelay := d, ceiling := c }
    let res := clampResult [((n : Nat), (rr : Nat)), ((av.toNat : Nat), (d : Nat)), ((ceil.toNat : Nat), (c : Nat))]
    ((set s).poolFits = false →
      exec (.setZone zone rate av ceil) s = .next (s.answeredOnly 0x1C zone args .noRoom 0))
    ∧ ((set s).poolFits = true →
      exec (.setZone zone rate av ceil) s
        = .next (s.answered 0x1C zone args res.1 res.2 fun u =>
            if (s.zone z).avDelay = d then set u else (set u).spreadAv z)))
  ∧ (∀ (s : State) (zone m : Byte) (z : Zone), s.CommandReady 0x1D → Zone.ofCode zone.toNat = some z →
    ((s.zone z).power ≠ .on → exec (.setSleep zone m) s = .next (s.answeredOnly 0x1D zone [m] .busy 0))
    ∧ ((s.zone z).power = .on →
      exec (.setSleep zone m) s
        = .next (s.answered 0x1D zone [m] (if m.toNat ≤ 120 then .ok else .clamped)
            (if m.toNat ≤ 120 then 0 else 120) fun u =>
              u.setZone z { s.zone z with sleep := min 120 m.toNat, minute := if m = 0 then 0 else 60000 })))

/-- RETRACK (R107), by the retrigger of R101: a zone other than MAIN and ZONE2 is refused with BAD_ARG; a tracker in
ACQUIRE or TRACK is retriggered and the result value is 1; in every other case nothing changes and it is 0. A retrigger
keeps I, F, c and the step, and with the ratchet crossed takes g to H. That the slip count is 0 after a retrigger from
TRACK is the model's choice (log 52). SET_DECODE (R112, R113): ZONE2 and a mode that is none of the three are refused
with BAD_ARG; a new mode is taken with the four energies set to 0 (R114); the result value says whether the matrix is
in effect under it. That it says so too for the mode that is present already is the model's reading (log 33). -/
def Obligations.RetrackAndDecode : Prop :=
  (∀ (s : State) (zone : Byte), s.CommandReady 0x1E → 1 < zone.toNat →
    exec (.retrack zone) s = .next (s.answeredOnly 0x1E zone [] .badArg 0))
  ∧ (∀ (s : State) (zone : Byte) (z : Zone), s.CommandReady 0x1E → Zone.ofCode zone.toNat = some z →
    ((∀ p, (s.zone z).attached = some p →
        (s.path p).tracker.state ≠ .acquire ∧ (s.path p).tracker.state ≠ .track) →
      exec (.retrack zone) s = .next (s.answeredOnly 0x1E zone [] .ok 0))
    ∧ (∀ (p : PathId) (e : Fin 12), (s.zone z).attached = some p → (s.path p).binding = some e →
        let t := (s.path p).tracker
        (t.state = .acquire → t.ratchet = false →
          exec (.retrack zone) s = .next (s.answered 0x1E zone [] .ok 1 fun u =>
            u.setPath p { s.path p with tracker := { t with timer := 256, gain := (s.source e).gainG } }))
        ∧ (t.state = .acquire → t.ratchet = true →
          exec (.retrack zone) s = .next (s.answered 0x1E zone [] .ok 1 fun u =>
            u.setPath p { s.path p with tracker := { t with timer := 256, gain := (s.source e).ratchetH } }))
        ∧ (t.state = .track →
          exec (.retrack zone) s = .next (s.answered 0x1E zone [] .ok 1 fun u =>
            u.setPath p { s.path p with tracker :=
              { t with state := .acquire, timer := 256, ratchet := true, gain := (s.source e).ratchetH
                       slips := 0 } }))))
  ∧ (∀ (s : State) (mode : Byte), s.CommandReady 0x1F →
    exec (.setDecode 1 mode) s = .next (s.answeredOnly 0x1F 1 [mode] .badArg 0))
  ∧ (∀ (s : State) (mode : Byte), s.CommandReady 0x1F → 2 < mode.toNat →
    exec (.setDecode 0 mode) s = .next (s.answeredOnly 0x1F 0 [mode] .badArg 0))
  ∧ (∀ (s : State) (mode : Byte) (m : DecodeMode), s.CommandReady 0x1F → DecodeMode.ofCode mode.toNat = some m →
    ∃ v : Int,
      (v = 1 ↔ m ≠ .direct ∧ ∃ p f, s.zoneMain.attached = some p ∧ (s.path p).format = some f
        ∧ (f.roles = [.fl, .fr] ∨ f.roles = [.fr, .fl]))
      ∧ (v = 0 ∨ v = 1)
      ∧ exec (.setDecode 0 mode) s = .next (s.answered 0x1F 0 [mode] .ok v fun u =>
          if s.zoneMain.decode = m then u
          else { u with
            zoneMain := { s.zoneMain with decode := m }
            mixer := { u.mixer with eL := 0, eR := 0, eM := 0, eS := 0 } }))

/-! ## The radio -/

/-- TUNE, STEP and RECALL_PRESET from the owner (R136, R159): ACCEPTED, the operation in progress completes ABORTED, a
new operation record is made, and the tune begins; an empty preset is refused with EMPTY. The ABORTED completion
carries the operation, the band and frequency, the last level, and for a SCAN its counts and start (R144, R160); an
operation without a tag raises none (R17). A tune, and in SEEK and SCAN a candidate test (R137, R146), takes the band
and frequency, clears pilot, blend and amplitude history, and sends SET_TUNE with the acknowledgement timer at 2
(R127); it waits while a transaction is open, and behind an IDENTIFY that is sent in its place while the front end is
not identified (R128). The model's own: the ABORTED completion carries no flag, the last level and the frequency that the
record holds (log 31); the settle count is 0 from the start of a tune or test (log 62); the direction of a TUNE or a
RECALL is up (log 63). -/
def Obligations.OwnerTunes : Prop :=
  (∀ (s : State) (zone b : Byte) (z : Zone) (f : BitVec 32), Zone.ofCode zone.toNat = some z → s.owner = some z →
    s.CommandReady 0x20 →
    let args := [b, 0, 0, 0] ++ leBytes 4 f.toNat
    (Band.ofCode b.toNat = none → exec (.tune zone b f) s = .next (s.answeredOnly 0x20 zone args .badArg 0))
    ∧ (∀ band, Band.ofCode b.toNat = some band →
        exec (.tune zone b f) s = .next (s.answered 0x20 zone args .accepted 0 fun u =>
          (u.beginOp .tune .up (s.region.clamps band f.toNat)).tuneTo band (s.region.resolve band f.toNat))))
  ∧ (∀ (s : State) (zone d : Byte) (z : Zone), Zone.ofCode zone.toNat = some z → s.owner = some z →
    s.CommandReady 0x21 →
    (Direction.ofCode d.toNat = none → exec (.step zone d) s = .next (s.answeredOnly 0x21 zone [d] .badArg 0))
    ∧ (∀ dir, Direction.ofCode d.toNat = some dir →
        exec (.step zone d) s = .next (s.answered 0x21 zone [d] .accepted 0 fun u =>
          (u.beginOp .step dir false).tuneTo s.tuner.band (s.region.adjacent s.tuner.band s.tuner.freq dir))))
  ∧ (∀ (s : State) (zone i : Byte) (z : Zone), Zone.ofCode zone.toNat = some z → s.owner = some z →
    s.CommandReady 0x2B →
    (39 < i.toNat → exec (.recallPreset zone i) s = .next (s.answeredOnly 0x2B zone [i] .badArg 0))
    ∧ (∀ k : Fin 40, k.val = i.toNat →
        (getAt s.presets k = none → exec (.recallPreset zone i) s = .next (s.answeredOnly 0x2B zone [i] .empty 0))
        ∧ (∀ p, getAt s.presets k = some p →
            exec (.recallPreset zone i) s = .next (s.answered 0x2B zone [i] .accepted 0 fun u =>
              (u.beginOp .recall .up (s.region.clamps p.band p.freq)).tuneTo p.band
                (s.region.resolve p.band p.freq)))))
  ∧ (∀ (u : State) (k : Operation) (d : Direction) (c : Bool),
      let op : OpRecord :=
        { kind := k, dir := d, startBand := u.tuner.band, startFreq := u.tuner.freq, tag := some u.cmd.next.val
          clamped := c, found := 0, dropped := 0, tested := 0 }
      (u.beginOp k d c).tuner = { u.tuner with op := some op }
      ∧ u.beginOp k d c = { u.abortOp false with tuner := { u.tuner with op := some op } })
  ∧ (∀ (u : State) (fault : Bool),
      (u.tuner.op = none → u.abortOp fault = u)
      ∧ (∀ op, u.tuner.op = some op →
          let v : State := { u with tuner := { u.tuner with op := none } }
          let payload : List Byte :=
            [12, BitVec.ofNat 8 op.kind.code, BitVec.ofNat 8 u.tuner.band.code, if fault = true then 4 else 0]
              ++ leBytes 4 u.tuner.freq ++ [BitVec.ofNat 8 u.tuner.level]
              ++ (if op.kind = .scan then
                    leBytes 2 op.found ++ leBytes 2 op.dropped ++ [BitVec.ofNat 8 op.startBand.code]
                      ++ leBytes 4 op.startFreq
                  else [])
          (op.tag = none → u.abortOp fault = v)
          ∧ (∀ tag, op.tag = some tag → u.abortOp fault
              = v.post { kind := .commandDone, unit := 0, tag := some tag, stamp := u.block, payload := payload })))
  ∧ (∀ (u : State) (b : Band) (f : Nat),
      let t := (u.tuneTo b f).tuner
      t.state = .tuning ∧ t.band = b ∧ t.freq = f ∧ t.pilot = .absent ∧ t.inRun = 0 ∧ t.missRun = 0 ∧ t.blend = 0
        ∧ t.blendTimer = 0 ∧ t.ampHistory = [] ∧ t.op = u.tuner.op
        ∧ u.tuneTo b f = { u with tuner := u.tuner.startAt .tuning b f })
  ∧ (∀ (t : Tuner) (st : TunerState) (b : Band) (f : Nat),
      let x : Tuner := { t with
        state := st, band := b, freq := f, phase := .sending, settleCount := 0, pilot := .absent, inRun := 0
        missRun := 0, pilotCount := 0, blend := 0, blendTimer := 0, ampHistory := [] }
      let sent (q : FeRequest) : Tuner :=
        { x with openTx := some { request := q, timer := 2, retried := false }, ctlSent := some q }
      (t.openTx ≠ none → t.startAt st b f = { x with waiting := some (b, f) })
      ∧ (t.openTx = none → t.identified = true → t.startAt st b f = sent (.setTune b f))
      ∧ (t.openTx = none → t.identified = false →
          t.startAt st b f = { sent .identify with waiting := some (b, f) }))

/-- SEEK and SCAN from the owner (R148, R150): BUSY while a seek or scan runs, else ACCEPTED, a new operation record
and the first candidate test; SCAN deletes its band's entries first. A seek or scan runs in SEEKING and SCANNING, and in
TUNING under a record of kind SEEK or SCAN, on the way back of either (R148). What a new record does to the operation
it replaces, and what a test's start sends, stand in OwnerTunes (R136, R146). That the direction of a SCAN is up is the
model's choice (log 63). -/
def Obligations.OwnerSeeksAndScans : Prop :=
  (∀ s : State, s.searching = true ↔
    s.tuner.state = .seeking ∨ s.tuner.state = .scanning
    ∨ (s.tuner.state = .tuning ∧ ∃ op, s.tuner.op = some op ∧ (op.kind = .seek ∨ op.kind = .scan)))
  ∧ (∀ (s : State) (zone d : Byte) (z : Zone), Zone.ofCode zone.toNat = some z → s.owner = some z → s.CommandReady 0x22 →
    (Direction.ofCode d.toNat = none → exec (.seek zone d) s = .next (s.answeredOnly 0x22 zone [d] .badArg 0))
    ∧ (∀ dir, Direction.ofCode d.toNat = some dir →
        (s.searching = true → exec (.seek zone d) s = .next (s.answeredOnly 0x22 zone [d] .busy 0))
        ∧ (s.searching = false →
            exec (.seek zone d) s = .next (s.answered 0x22 zone [d] .accepted 0 fun u =>
              let v := u.beginOp .seek dir false
              let f := s.region.adjacent s.tuner.band s.tuner.freq dir
              { v with tuner := v.tuner.startAt .seeking s.tuner.band f }))))
  ∧ (∀ (s : State) (zone b : Byte) (z : Zone), Zone.ofCode zone.toNat = some z → s.owner = some z → s.CommandReady 0x23 →
    (Band.ofCode b.toNat = none → exec (.scan zone b) s = .next (s.answeredOnly 0x23 zone [b] .badArg 0))
    ∧ (∀ band, Band.ofCode b.toNat = some band →
        (s.searching = true → exec (.scan zone b) s = .next (s.answeredOnly 0x23 zone [b] .busy 0))
        ∧ (s.searching = false →
            exec (.scan zone b) s = .next (s.answered 0x23 zone [b] .accepted 0 fun u =>
              let v := u.beginOp .scan .up false
              { v with
                stations := s.stations.filter fun x => decide (x.band ≠ band)
                tuner := v.tuner.startAt .scanning band (s.region.low band) }))))

/-- ABORT_RADIO (R138, R152) returns OK in every state: no change in IDLE, TUNED and FE_FAULT; in TUNING the operation
completes ABORTED and the tune goes on; a seek ends where it stands, and a scan tunes back to its start. That a seek
between a dwell and its next point ends as in the dwell is the model's reading (log 19). -/
def Obligations.AbortRadio : Prop :=
  ∀ s : State, s.CommandReady 0x24 →
    let gives (f : State → State) : Prop := exec .abortRadio s = .next (s.answered 0x24 0 [] .ok 0 f)
    ((s.tuner.state = .idle ∨ s.tuner.state = .tuned ∨ s.tuner.state = .feFault) → gives id)
    ∧ (s.tuner.state = .tuning → s.tuner.op = none → gives id)
    ∧ (s.tuner.state = .tuning → gives fun u => u.abortOp false)
    ∧ (s.tuner.state = .seeking → s.tuner.phase ≠ .dwell → s.tuner.phase ≠ .advance →
        gives fun u =>
          let v := u.abortOp false
          { v with tuner := { v.tuner with state := .tuning } })
    ∧ (s.tuner.state = .seeking → (s.tuner.phase = .dwell ∨ s.tuner.phase = .advance) →
        gives fun u =>
          let v := u.abortOp false
          ({ v with tuner := { v.tuner with state := .tuned, phase := .none } }).radioReport .tuned)
    ∧ (∀ op, s.tuner.state = .scanning → s.tuner.op = some op →
        gives fun u => (u.abortOp false).tuneTo op.startBand op.startFreq)

/-- SET_REGION (R131, R132): BAD_ARG for a grid or a pair of thresholds that is not allowed, BUSY for a change of grid
while tuning, seeking or scanning; otherwise every setting is taken and the first clamped one returned. A band whose
grid changes loses its station entries; the tuner's frequency is rounded onto its band's new grid, and when that moves
it, a tuner that is TUNED begins an untagged tune there and any other takes the frequency, with RADIO_STATE REGION.
That the report of a TUNED tuner comes after the tune has begun, and shows TUNING, is the model's reading (log 31). The
fields of RADIO_STATE (R144). -/
def Obligations.SetRegion : Prop :=
  ∀ (s : State) (a : RegionArgs), s.CommandReady 0x25 →
    let args := leBytes 2 a.fmStep.toNat ++ [a.amGrid, a.fmLevel, a.amLevel, a.fmOffset, a.amOffset, a.errK]
      ++ leBytes 4 a.ampLow.toNat ++ leBytes 4 a.ampHigh.toNat ++ [a.blendLo, a.blendHi, a.forcedMono]
    let refused (r : CmdResult) : Prop := exec (.setRegion a) s = .next (s.answeredOnly 0x25 0 args r 0)
    let gridOk := (a.fmStep.toNat = 50 ∨ a.fmStep.toNat = 100 ∨ a.fmStep.toNat = 200)
      ∧ (a.amGrid.toNat = 9 ∨ a.amGrid.toNat = 10)
    let pairsOk := a.blendLo.toNat < a.blendHi.toNat ∧ a.ampLow.toNat < a.ampHigh.toNat
    let busy := (a.fmStep.toNat ≠ s.region.fmStep ∨ a.amGrid.toNat ≠ s.region.amGrid)
      ∧ (s.tuner.state = .tuning ∨ s.tuner.state = .seeking ∨ s.tuner.state = .scanning)
    let r : Region :=
      { fmStep := a.fmStep.toNat, amGrid := a.amGrid.toNat
        fmLevel := min 127 a.fmLevel.toNat, amLevel := min 127 a.amLevel.toNat
        fmOffset := min 127 a.fmOffset.toNat, amOffset := min 127 a.amOffset.toNat
        ampLow := min 6291455 a.ampLow.toNat, ampHigh := max 1 (min 6291456 a.ampHigh.toNat)
        errK := max 1 (min 8 a.errK.toNat), blendLo := min 126 a.blendLo.toNat
        blendHi := max 1 (min 127 a.blendHi.toNat), forcedMono := decide (a.forcedMono ≠ 0) }
    let c := clampResult
      [((a.fmLevel.toNat : Int), (r.fmLevel : Int)), ((a.amLevel.toNat : Int), (r.amLevel : Int)),
        ((a.fmOffset.toNat : Int), (r.fmOffset : Int)), ((a.amOffset.toNat : Int), (r.amOffset : Int)),
        ((a.ampLow.toNat : Int), (r.ampLow : Int)), ((a.ampHigh.toNat : Int), (r.ampHigh : Int)),
        ((a.errK.toNat : Int), (r.errK : Int)), ((a.blendLo.toNat : Int), (r.blendLo : Int)),
        ((a.blendHi.toNat : Int), (r.blendHi : Int))]
    (¬ gridOk → refused .badArg)
    ∧ (gridOk → ¬ pairsOk → refused .badArg)
    ∧ (gridOk → pairsOk → busy → refused .busy)
    ∧ (gridOk → pairsOk → ¬ busy → (r.blendHi ≤ r.blendLo ∨ r.ampHigh ≤ r.ampLow) → refused .badArg)
    ∧ (gridOk → pairsOk → ¬ busy → r.blendLo < r.blendHi → r.ampLow < r.ampHigh →
        exec (.setRegion a) s = .next (s.answered 0x25 0 args c.1 c.2 fun u => u.takeRegion r))
    ∧ (∀ (u : State) (q : Region),
        let b := u.tuner.band
        let kept (x : Station) : Bool := match x.band with
          | .fm => decide (q.fmStep = u.region.fmStep)
          | .am => decide (q.amGrid = u.region.amGrid)
        let f := if q.step b = u.region.step b then u.tuner.freq else q.resolve b u.tuner.freq
        let v : State := { u with region := q, stations := u.stations.filter kept }
        (f = u.tuner.freq → u.takeRegion q = v)
        ∧ (f ≠ u.tuner.freq → u.tuner.state = .tuned → u.takeRegion q = (v.tuneTo b f).radioReport .region)
        ∧ (f ≠ u.tuner.freq → u.tuner.state ≠ .tuned →
            u.takeRegion q = ({ v with tuner := { v.tuner with freq := f } }).radioReport .region))
    ∧ (∀ (u : State) (cause : RadioCause),
        let x := u.tuner
        u.radioReport cause = u.raise .radioState 0
          ([BitVec.ofNat 8 cause.code, BitVec.ofNat 8 x.state.code, BitVec.ofNat 8 x.band.code,
              optByte (u.owner.map fun z => z.code)]
            ++ leBytes 4 x.freq
            ++ [BitVec.ofNat 8 x.pilot.code, BitVec.ofNat 8 x.blend, BitVec.ofNat 8 x.blendTarget, BitVec.ofNat 8 x.level]
            ++ leBytesInt 1 x.offset
            ++ [BitVec.ofNat 8 (x.ampHistory.filter fun m => m).length, flagByte x.identified, x.identity]))

/-- CLEAR_STATIONS (R155) deletes the entries of the band named, or all, and returns their number; any other selector
is refused with BAD_ARG. STORE_PRESET (R157), SET_PRESET and CLEAR_PRESET (R158): their checks, results and the entry
they leave. Nothing else changes. -/
def Obligations.StationsAndPresets : Prop :=
  (∀ (s : State) (sel : Byte), s.CommandReady 0x26 →
    (2 < sel.toNat → exec (.clearStations sel) s = .next (s.answeredOnly 0x26 0 [sel] .badArg 0))
    ∧ (sel = 2 → exec (.clearStations sel) s
        = .next (s.answered 0x26 0 [sel] .ok s.stations.length fun u => { u with stations := [] }))
    ∧ (∀ b, sel = (if b = Band.fm then 0 else 1) → exec (.clearStations sel) s
        = .next (s.answered 0x26 0 [sel] .ok (s.stations.filter fun x => decide (x.band = b)).length fun u =>
            { u with stations := s.stations.filter fun x => decide (x.band ≠ b) })))
  ∧ (∀ (s : State) (index : Byte) (label : LabelArg), s.CommandReady 0x28 →
    let args := label.len :: label.chars
    ((39 < index.toNat ∨ decodeLabel label = none) →
      exec (.storePreset index label) s = .next (s.answeredOnly 0x28 index args .badArg 0))
    ∧ (∀ (i : Fin 40) (given : Option (List Byte)), i.val = index.toNat → decodeLabel label = some given →
        ((s.tuner.state = .tuning ∨ s.tuner.state = .seeking ∨ s.tuner.state = .scanning) →
          exec (.storePreset index label) s = .next (s.answeredOnly 0x28 index args .busy 0))
        ∧ ((s.tuner.state = .tuned ∨ s.tuner.state = .idle ∨ s.tuner.state = .feFault) →
          ∃ l : Option (List Byte),
            (given ≠ none → l = given)
            ∧ (given = none → ∀ p, getAt s.presets i = some p → p.band = s.tuner.band → p.freq = s.tuner.freq →
                l = p.label)
            ∧ (given = none → (∀ p, getAt s.presets i = some p → p.band ≠ s.tuner.band ∨ p.freq ≠ s.tuner.freq) →
                l = none)
            ∧ exec (.storePreset index label) s = .next (s.answered 0x28 index args .ok s.tuner.freq fun u =>
                let p : Preset := { band := s.tuner.band, freq := s.tuner.freq, label := l }
                { u with presets := setAt s.presets i (some p) }))))
  ∧ (∀ (s : State) (index b : Byte) (f : BitVec 32) (label : LabelArg), s.CommandReady 0x29 →
    let args := [b, 0, 0, 0] ++ leBytes 4 f.toNat ++ (label.len :: label.chars)
    ((39 < index.toNat ∨ Band.ofCode b.toNat = none ∨ decodeLabel label = none
        ∨ ∃ band, Band.ofCode b.toNat = some band
            ∧ (f.toNat < s.region.low band ∨ s.region.high band < f.toNat)) →
      exec (.setPreset index b f label) s = .next (s.answeredOnly 0x29 index args .badArg 0))
    ∧ (∀ (i : Fin 40) (band : Band) (l : Option (List Byte)), i.val = index.toNat → Band.ofCode b.toNat = some band →
        decodeLabel label = some l → s.region.low band ≤ f.toNat → f.toNat ≤ s.region.high band →
        exec (.setPreset index b f label) s = .next (s.answered 0x29 index args .ok 0 fun u =>
          { u with presets := setAt s.presets i (some { band := band, freq := f.toNat, label := l }) })))
  ∧ (∀ (s : State) (index : Byte), s.CommandReady 0x2A →
    (39 < index.toNat → exec (.clearPreset index) s = .next (s.answeredOnly 0x2A index [] .badArg 0))
    ∧ (∀ i : Fin 40, i.val = index.toNat →
        exec (.clearPreset index) s = .next (s.answered 0x2A index [] .ok 0 fun u =>
          { u with presets := setAt s.presets i none })))

/-- The grids of the bands (R131): low edge, step, highest grid point and number of grid points, with the high edges at
108 000 and 1710 kHz; the adjacent grid point in a direction wraps at the ends (R136, R149). A frequency asked for is
resolved into a grid point (R135): inside the band, on the grid, and no other grid point of the band is nearer to the
clamped frequency, a tie going to the lower. -/
def Obligations.FrequencyIsResolved : Prop :=
  (∀ (r : Region) (b : Band) (low step top count : Nat),
    (b = .fm ∧ r.fmStep = 50 ∧ (low, step, top, count) = (87500, 50, 108000, 411))
    ∨ (b = .fm ∧ r.fmStep = 100 ∧ (low, step, top, count) = (87500, 100, 108000, 206))
    ∨ (b = .fm ∧ r.fmStep = 200 ∧ (low, step, top, count) = (87500, 200, 107900, 103))
    ∨ (b = .am ∧ r.amGrid = 9 ∧ (low, step, top, count) = (522, 9, 1710, 133))
    ∨ (b = .am ∧ r.amGrid = 10 ∧ (low, step, top, count) = (520, 10, 1710, 120)) →
    r.low b = low ∧ r.step b = step ∧ r.top b = top ∧ top = low + (count - 1) * step
    ∧ r.high b = (if b = .fm then 108000 else 1710)
    ∧ (∀ k, low + k * step ≤ r.high b ↔ k < count)
    ∧ ∀ f, r.adjacent b f .up = (if top < f + step then low else f + step)
        ∧ r.adjacent b f .down = (if f < low + step then top else f - step))
  ∧ ∀ (r : Region) (b : Band) (f : Nat),
    (r.fmStep = 50 ∨ r.fmStep = 100 ∨ r.fmStep = 200) → (r.amGrid = 9 ∨ r.amGrid = 10) →
    let x := max (r.low b) (min (r.high b) f)
    let g := r.resolve b f
    (∃ k, g = r.low b + k * r.step b) ∧ g ≤ r.high b
    ∧ (∀ k, r.low b + k * r.step b ≤ r.high b →
        let h := r.low b + k * r.step b
        ((g : Int) - x).natAbs < ((h : Int) - x).natAbs ∨ (((g : Int) - x).natAbs = ((h : Int) - x).natAbs ∧ g ≤ h))
    ∧ (r.clamps b f = true ↔ (f < r.low b ∨ r.high b < f))

/-- A candidate of a scan is inserted by the four steps of R154, in a list as R153 keeps it: in strict order, with no
two entries of a band one grid step apart. An entry of its frequency keeps the stronger of the two; else adjacent
entries all give way to it when it is stronger than each, and it is dropped otherwise; else a full list gives up the
weakest entry of the band, of several the one of the lowest frequency, when the candidate is stronger, and the flag
says that a station was dropped; else it is inserted. The list that is left is again as R153 keeps it. Of two stations,
one of FM stands before one of AM, and within a band the lower frequency; two are the same at one band and frequency,
and adjacent in one band a grid step apart (R153). -/
def Obligations.CandidateIsInserted : Prop :=
  (∀ (x y : Station) (step : Nat),
    (x.before y = true ↔ (x.band = .fm ∧ y.band = .am) ∨ (x.band = y.band ∧ x.freq < y.freq))
    ∧ (x.same y = true ↔ x.band = y.band ∧ x.freq = y.freq)
    ∧ (x.adjacentTo step y = true ↔ x.band = y.band ∧ (x.freq = y.freq + step ∨ y.freq = x.freq + step)))
  ∧ (∀ (x : Station) (list : List Station), (insertStation x list).Perm (x :: list))
  ∧ (∀ (grid : Band → Nat) (x : Station) (list : List Station), (∀ b, 0 < grid b) →
    list.Pairwise (fun y z => y.before z = true) →
    (∀ y ∈ list, ∀ z ∈ list, y.adjacentTo (grid y.band) z = false) → list.length ≤ 64 →
    let step := grid x.band
    let fresh := ∀ y ∈ list, x.same y = false
    let apart := ∀ y ∈ list, x.adjacentTo step y = false
    let res := insertCandidate step x list
    (∀ y ∈ list, x.same y = true →
      (x.level ≤ y.level → res = (list, false))
      ∧ (y.level < x.level → res =
          (list.map fun z => if z = y then { y with level := x.level, stereo := x.stereo, label := x.label } else z,
            false)))
    ∧ (fresh → ∀ y ∈ list, x.adjacentTo step y = true → x.level ≤ y.level → res = (list, false))
    ∧ (fresh → ¬ apart → (∀ y ∈ list, x.adjacentTo step y = true → y.level < x.level) →
        res = (insertStation x (list.filter fun y => !x.adjacentTo step y), false))
    ∧ (fresh → apart → list.length < 64 → res = (insertStation x list, false))
    ∧ (fresh → apart → list.length = 64 → (∀ y ∈ list, y.band ≠ x.band) → res = (list, true))
    ∧ (fresh → apart → list.length = 64 → ∀ w ∈ list, w.band = x.band →
        (∀ y ∈ list, y.band = x.band → w.level < y.level ∨ (w.level = y.level ∧ w.freq ≤ y.freq)) →
        (x.level ≤ w.level → res = (list, true))
        ∧ (w.level < x.level → res = (insertStation x (list.filter fun y => decide (y ≠ w)), true)))
    ∧ res.1.Pairwise (fun y z => y.before z = true) ∧ (∀ y ∈ res.1, ∀ z ∈ res.1, y.adjacentTo (grid y.band) z = false)
    ∧ res.1.length ≤ 64)

/-- How tunes and searches end. An operation completes once, with its result, kind, band and flags, the frequency and
the level, and for a SCAN its counts and start (R144, R160). A tune ends TUNED with OK, or NONE for a seek that has
come back to its start, CLAMPED and UNSETTLED where they hold (R135, R137, R149); a settled record ends it (R146).
FE_FAULT aborts with the fault flag (R130). The means of a dwell, the offset's truncated toward zero, and what passes
(R147); a seek that passes ends FOUND with the mean level (R149); a scan counts what it finds and drops, and the points
it tests, PROGRESS at each multiple of 32 (R151, R154). The next point, or the way back (R149, R151), is taken a block
after the dwell: the model's reading (log 19); so are the fault flag alone in the ABORTED completion of a FE_FAULT, which
keeps the amplitude history (log 31), and the settle count 0 there (log 62). The edges, the step and the highest grid
point of a band stand in FrequencyIsResolved (R131). -/
def Obligations.TunesAndSearchesEnd : Prop :=
  (∀ (s : State) (res : CmdResult) (flags : Byte) (level : Nat),
    let t := s.tuner
    (t.op = none → s.endOp res flags level = s)
    ∧ (∀ op, t.op = some op → s.endOp res flags level
        = State.raiseDone { s with tuner := { t with op := none } } op.tag
          ([BitVec.ofNat 8 res.code, BitVec.ofNat 8 op.kind.code, BitVec.ofNat 8 t.band.code, flags] ++ leBytes 4 t.freq
            ++ [BitVec.ofNat 8 level]
            ++ (if op.kind = .scan then
                  leBytes 2 op.found ++ leBytes 2 op.dropped ++ [BitVec.ofNat 8 op.startBand.code]
                    ++ leBytes 4 op.startFreq
                else []))))
  ∧ (∀ (s : State) (unsettled : Bool),
    let t := s.tuner
    let v : State := { s with tuner := { t with state := .tuned, phase := .none } }
    let un : Byte := if unsettled = true then 2 else 0
    (t.op = none → s.endTune unsettled = v.radioReport .tuned)
    ∧ (∀ op, t.op = some op →
        s.endTune unsettled = (v.endOp (if op.kind = .seek then .none else .ok)
          ((if op.clamped = true then 1 else 0) + un) t.level).radioReport .tuned)
    ∧ (t.state = .tuning → s.settled = s.endTune false ∧ s.unsettled = s.endTune true)
    ∧ (t.state ≠ .tuning → s.settled = { s with tuner := { t with
          phase := .dwell, dwell := { blocks := 0, levelSum := 0, offsetSum := 0, errors := 0, stereo := false } } }
        ∧ s.unsettled = s.countTested.nextPoint))
  ∧ (∀ s : State,
    let v := s.endOp .aborted 4 s.tuner.level
    s.feFault = State.radioReport { v with tuner := { s.tuner with
      state := .feFault, openTx := none, waiting := none, identified := false, phase := .none, silence := 0
      settleCount := 0, pilot := .absent, inRun := 0, missRun := 0, pilotCount := 0, blend := 0, blendTimer := 0
      op := none } } .feFault
    ∧ s.abortOp true = v ∧ s.abortOp false = s.endOp .aborted 0 s.tuner.level)
  ∧ (∀ (s : State) (op : OpRecord), s.tuner.op = some op →
    let t := s.tuner
    let r := s.region
    let back := s.tuneTo op.startBand op.startFreq
    let test (f : Nat) : State := { s with tuner := t.startAt t.state t.band f }
    let next := match op.dir with
      | .up => if r.top t.band < t.freq + r.step t.band then r.low t.band else t.freq + r.step t.band
      | .down => if t.freq < r.low t.band + r.step t.band then r.top t.band else t.freq - r.step t.band
    (op.kind = .scan → r.top t.band ≤ t.freq → s.nextPoint = back)
    ∧ (op.kind = .scan → t.freq < r.top t.band → s.nextPoint = test (t.freq + r.step t.band))
    ∧ (op.kind ≠ .scan → next = op.startFreq → s.nextPoint = back)
    ∧ (op.kind ≠ .scan → next ≠ op.startFreq → s.nextPoint = test next))
  ∧ (∀ (s : State) (op : OpRecord), s.tuner.op = some op →
    let u : State := { s with tuner := { s.tuner with op := some { op with tested := op.tested + 1 } } }
    (op.kind ≠ .scan → s.countTested = s)
    ∧ (op.kind = .scan → (op.tested + 1) % 32 ≠ 0 → s.countTested = u)
    ∧ (op.kind = .scan → (op.tested + 1) % 32 = 0 → s.countTested = u.radioReport .progress))
  ∧ (∀ s : State, s.tuner.op = none → s.nextPoint = s ∧ s.countTested = s)
  ∧ (∀ (r : Region) (b : Band) (d : Dwell),
    d.meanLevel = d.levelSum / d.blocks ∧ d.meanOffset = d.offsetSum.tdiv d.blocks
    ∧ (r.passes b d = true ↔ (if b = .fm then r.fmLevel else r.amLevel) ≤ d.meanLevel
        ∧ d.meanOffset.natAbs ≤ (if b = .fm then r.fmOffset else r.amOffset) ∧ d.errors < r.errK))
  ∧ (∀ (s : State) (d : Dwell) (op : OpRecord), s.tuner.op = some op →
    let t := s.tuner
    let pass := s.region.passes t.band d
    let waits (u : State) : State := { u with tuner := { u.tuner with phase := .advance } }
    let x : Station :=
      { band := t.band, freq := t.freq, level := d.levelSum / d.blocks, stereo := d.stereo && decide (t.band = .fm)
        label := s.presetLabel t.band t.freq }
    let l := insertCandidate (s.region.step t.band) x s.stations
    let found : State := { s with stations := l.1, tuner := { t with op := some { op with
      found := op.found + 1, dropped := op.dropped + (if l.2 = true then 1 else 0) } } }
    (op.kind = .scan → pass = true → s.endDwell d = waits found.countTested)
    ∧ (op.kind = .scan → pass = false → s.endDwell d = waits s.countTested)
    ∧ (op.kind ≠ .scan → pass = true → s.endDwell d
        = (State.endOp { s with tuner := { t with state := .tuned, phase := .none } } .found 0
            (d.levelSum / d.blocks)).radioReport .tuned)
    ∧ (op.kind ≠ .scan → pass = false → s.endDwell d = waits s))
  ∧ (∀ (s : State) (b : Band) (f : Nat),
    (∀ (k : Fin 40) (p : Preset), getAt s.presets k = some p → p.band = b → p.freq = f →
      (∀ (j : Fin 40) (q : Preset), j < k → getAt s.presets j = some q → ¬ (q.band = b ∧ q.freq = f)) →
      s.presetLabel b f = p.label)
    ∧ ((∀ (k : Fin 40) (p : Preset), getAt s.presets k = some p → ¬ (p.band = b ∧ p.freq = f)) →
      s.presetLabel b f = none))

/-! ## The outputs and the protection unit: commands -/

/-- ASSIGN_OUTPUT (R164): BAD_ARG for a channel above 11 or a role that is not one of the fifteen; nothing for the role
the channel has; NO_ROOM when the pool would be exceeded; otherwise the pending settings are given, to the channel that
gives the role up as well, and a change group forms. SET_CHANNEL (R165) likewise. SET_BASS (R171): BAD_ARG for a value
that is none of the seven; otherwise the crossover is taken and returned, also when it is the present one (that it is returned then is the
model's reading, log 33). What group forms stands in ChangeGroups; that of an UNUSED channel may wait with others (the model's choice, log 60). A role moves
from the channel whose target it is. A channel that still has it applied and waits to give it up joins the group with the
settings it waits with, the model's way to keep R161 (log 66): ASSIGN_OUTPUT and SET_CHANNEL keep the roles invariant,
whose first two clauses are R161's sentence. -/
def Obligations.OutputSettings : Prop :=
  (∀ (s : State) (channel role : Byte), s.CommandReady 0x30 →
    let gives (res : CmdResult) (v : Int) (f : State → State) : Prop :=
      exec (.assignOutput channel role) s = .next (s.answered 0x30 channel [role] res v f)
    ((11 < channel.toNat ∨ ∀ r, Role.ofCode role.toNat = some r → r.isOutput = false) → gives .badArg 0 id)
    ∧ (∀ (c : Fin 12) (r : Role), c.val = channel.toNat → Role.ofCode role.toNat = some r → r.isOutput = true →
        let set (u : State) := u.setChan c { s.chan c with pend := some { (s.chan c).target with role := r } }
        let h := s.handOver 0x30 channel [role]
        let keepers := (List.finRange 12).filter fun y =>
          decide (y ≠ c ∧ (s.chan y).applied.role = r ∧ r ≠ .sw ∧ r ≠ .unused)
        ((s.chan c).target.role = r → gives .ok 0 id)
        ∧ ((s.chan c).target.role ≠ r → (r = .sw ∨ r = .unused ∨ ∀ x, x ≠ c → (s.chan x).target.role ≠ r) →
            ((set s).poolFits = false → gives .noRoom 0 id)
            ∧ ((set s).poolFits = true →
                gives .ok (if (((set h).formGroup (c :: keepers)).chan c).group = none then 0 else 1)
                  fun u => (set u).formGroup (c :: keepers)))
        ∧ (∀ x, (s.chan c).target.role ≠ r → r ≠ .sw → r ≠ .unused → x ≠ c → (s.chan x).target.role = r →
            (∀ y, y ≠ c → (s.chan y).target.role = r → y = x) →
            let two (u : State) :=
              (set u).setChan x { s.chan x with pend := some { (s.chan x).target with role := .unused } }
            ((two s).poolFits = false → gives .noRoom 0 id)
            ∧ ((two s).poolFits = true →
                gives .ok (if (((two h).formGroup (c :: x :: keepers)).chan c).group = none then 0 else 1)
                  fun u => (two u).formGroup (c :: x :: keepers)))))
  ∧ (∀ (s : State) (channel trim : Byte) (delay : BitVec 16) (polarity size : Byte), s.CommandReady 0x31 →
    let gives (res : CmdResult) (v : Int) (f : State → State) : Prop :=
      exec (.setChannel channel trim delay polarity size) s
        = .next (s.answered 0x31 channel ([trim, 0] ++ leBytes 2 delay.toNat ++ [polarity, size]) res v f)
    ((11 < channel.toNat ∨ Polarity.ofCode polarity.toNat = none ∨ SpeakerSize.ofCode size.toNat = none) →
      gives .badArg 0 id)
    ∧ (∀ (c : Fin 12) (pol : Polarity) (sz : SpeakerSize), c.val = channel.toNat →
        Polarity.ofCode polarity.toNat = some pol → SpeakerSize.ofCode size.toNat = some sz →
        let tr := max (-24) (min 24 trim.toInt)
        let d := min 1440 delay.toNat
        let res := clampResult [(trim.toInt, tr), ((delay.toNat : Int), (d : Int))]
        let new : ChanSettings := { role := (s.chan c).target.role, delay := d, polarity := pol, size := sz }
        ((s.setChan c { s.chan c with pend := some new }).poolFits = false → gives .noRoom 0 id)
        ∧ ((s.setChan c { s.chan c with pend := some new }).poolFits = true →
            (new = (s.chan c).target → gives res.1 res.2 fun u => u.setChan c { s.chan c with trim := tr })
            ∧ (new ≠ (s.chan c).target →
                gives res.1 res.2 fun u =>
                  (u.setChan c { s.chan c with pend := some new, trim := tr }).formGroup [c]))))
  ∧ (∀ (s : State) (hz : Byte), s.CommandReady 0x32 →
    let gives (res : CmdResult) (v : Int) (f : State → State) : Prop :=
      exec (.setBass hz) s = .next (s.answered 0x32 0 [hz] res v f)
    (hz.toNat ∉ [40, 60, 80, 90, 100, 120, 150] → gives .badArg 0 id)
    ∧ (hz.toNat ∈ [40, 60, 80, 90, 100, 120, 150] → s.out.crossover = hz.toNat → gives .ok hz.toNat id)
    ∧ (hz.toNat ∈ [40, 60, 80, 90, 100, 120, 150] → s.out.crossover ≠ hz.toNat →
        gives .ok hz.toNat fun u => { u with out := { u.out with crossover := hz.toNat } }))
  ∧ (∀ (i : Instr) (s t : State), (∃ channel role, i = .assignOutput channel role)
      ∨ (∃ channel trim delay polarity size, i = .setChannel channel trim delay polarity size) →
    s.RolesInv → exec i s = .next t → t.RolesInv)

/-- Change groups (R166 to R168) and the delay pool (R169). A command's channels, those that join because SW enters or
leaves the layout (R168), and the members of every group that holds one of them make one group, known by its lowest
channel: with all of them silent it applies at once, and else it waits, a channel that is heard receiving RECONFIG. A
new AV delay reaches the channels of its zone that do not have it yet. The pool check adds the claims of all channels;
that a command's check comes before a silent group applies is the model's choice (log 69).
That a group formed while SW enters or leaves the layout takes the MAIN channels that R168 names with it, though its
own are silent (R79 in STANDBY, R165 on an UNUSED channel), is the model's choice, and so is that the AV delay of a zone
in STANDBY waits for a channel that is to join the zone and still sounds in the other (log 60). A group that forms,
applies or waits keeps the roles invariant (R161, with what the model adds to keep it, log 66). -/
def Obligations.ChangeGroups : Prop :=
  (∀ (s : State) (c : Fin 12),
    let r := s.chan c
    r.target = r.pend.getD r.applied
    ∧ (s.chanSilent c = true ↔
        roleZone r.applied.role = none
        ∨ (∃ z, roleZone r.applied.role = some z ∧ ((s.zone z).power = .standby ∨ (s.zone z).ramp = -240))
        ∨ (s.pair (pairOf c)).state ∈ [PairState.protect, .recoverWait, .lockout] ∨ r.ramp = -240)
    ∧ (s.chanSilent c = true → s.markReconfig c = s)
    ∧ (s.chanSilent c = false → s.markReconfig c = s.setChan c { r with reconfig := true })
    ∧ (∀ g, c ∈ s.groupMembers g ↔ r.group = some g))
  ∧ (∀ (s : State) (g : Fin 12), s.groupSilent g = true ↔ ∀ c, (s.chan c).group = some g → s.chanSilent c = true)
  ∧ (∀ x : Role, roleZone x = (match x with
      | .z2l | .z2r => some .zone2
      | .unused | .none | .lfe => none
      | .fl | .fr | .c | .sl | .sr | .bl | .br | .tfl | .tfr | .tbl | .tbr | .sw => some .main))
  ∧ (∀ (s : State) (cs : List (Fin 12)),
    let swMoves := ¬ ((∃ d, (s.chan d).applied.role = .sw) ↔ ∃ d, (s.chan d).target.role = .sw)
    let joins (c : Fin 12) : Prop := swMoves ∧ roleZone (s.chan c).target.role = some .main
      ∧ (s.chan c).target.size = .small ∧ (s.chan c).target.role ≠ .sw
    let new (c : Fin 12) : Prop := c ∈ cs ∨ joins c
    (s.mergedGroup cs).Pairwise (fun a b => a < b)
    ∧ (∀ c, c ∈ s.mergedGroup cs ↔ new c ∨ ∃ g b, (s.chan c).group = some g ∧ (s.chan b).group = some g ∧ new b)
    ∧ (s.mergedGroup cs = [] → s.formGroup cs = s)
    ∧ (∀ g rest, s.mergedGroup cs = g :: rest →
        ∃ v : State, v = { s with out := { s.out with channels := v.out.channels } }
          ∧ (∀ c, v.chan c = (if c ∈ g :: rest then
              { s.chan c with pend := some (s.chan c).target, group := some g } else s.chan c))
          ∧ (v.groupSilent g = true → s.formGroup cs = v.applyGroup g)
          ∧ (v.groupSilent g = false → ∃ t : State, s.formGroup cs = t
              ∧ t = { v with out := { v.out with channels := t.out.channels } }
              ∧ ∀ c, t.chan c = (if c ∈ g :: rest ∧ v.chanSilent c = false then { v.chan c with reconfig := true }
                  else v.chan c))))
  ∧ (∀ (s : State) (g : Fin 12),
    let empty := ∀ c, (s.chan c).group ≠ some g
    (empty → s.groupBlock g = s)
    ∧ (¬ empty → s.groupSilent g = true → s.groupBlock g = s.applyGroup g)
    ∧ (¬ empty → s.groupSilent g = false → ∃ t : State, s.groupBlock g = t
        ∧ t = { s with out := { s.out with channels := t.out.channels } }
        ∧ ∀ c, t.chan c = (if (s.chan c).group = some g ∧ s.chanSilent c = false then { s.chan c with reconfig := true }
            else s.chan c)))
  ∧ (∀ (s : State) (z : Zone),
    (∀ c, c ∈ s.avChannels z ↔ roleZone (s.chan c).target.role = some z ∧ (s.chan c).appliedAv ≠ (s.zone z).avDelay)
    ∧ (s.avChannels z = [] → s.spreadAv z = s) ∧ (s.avChannels z ≠ [] → s.spreadAv z = s.formGroup (s.avChannels z)))
  ∧ (∀ (s : State) (c : Fin 12),
    let r := s.chan c
    let applied := if r.applied.role = .unused then 0 else r.applied.delay + r.appliedAv
    let target := if r.target.role = .unused then 0 else r.target.delay
      + (match roleZone r.target.role with
        | none => 0
        | some z => (s.zone z).avDelay)
    s.claim c = max applied target)
  ∧ (∀ s : State, s.poolFits = true ↔
    s.claim 0 + s.claim 1 + s.claim 2 + s.claim 3 + s.claim 4 + s.claim 5 + s.claim 6 + s.claim 7 + s.claim 8 + s.claim 9
      + s.claim 10 + s.claim 11 ≤ 131072)
  ∧ (∀ s : State, s.RolesInv → (∀ cs, (s.formGroup cs).RolesInv) ∧ ∀ g, (s.applyGroup g).RolesInv ∧ (s.groupBlock g).RolesInv)

/-- CLEAR_FAULT (R191), the fault lines read at their present level: BAD_ARG above 5; no change in NORMAL and
SOFT_START; FAULT_PRESENT while the pair has the fault condition; otherwise SOFT_START with retries used and the clear
counter at 0. SET_PROTECT (R192): the values are clamped and taken, and the first clamped one returned. That the row of
CLEAR_FAULT brings the lines' level, and that the part has seen it also where the command is refused or changes
nothing, is the model's choice (logs 5 and 13). -/
def Obligations.ProtectionCommands : Prop :=
  (∀ (s : State) (pair : Byte) (faults : BitVec 6), s.CommandReady 0x38 →
    let v := { s with pins := { s.pins with faults := faults } }
    let gives (res : CmdResult) (x : Int) (f : State → State) : Prop :=
      exec (.clearFault pair faults) s = .next (v.answered 0x38 pair [] res x f)
    (5 < pair.toNat → gives .badArg 0 id)
    ∧ (∀ n : Fin 6, n.val = pair.toNat →
        let r := s.pair n
        let stopped := r.state = .protect ∨ r.state = .recoverWait ∨ r.state = .lockout
        let cond := faults.getLsbD n.val = true ∨ s.thermal.escalation = true
        ((r.state = .normal ∨ r.state = .softStart) → gives .ok 0 id)
        ∧ (stopped → cond → gives .faultPresent 0 id)
        ∧ (stopped → ¬ cond → gives .ok 1 fun u =>
            (u.setPair n { r with state := .softStart, used := 0, clear := 0, asserted := 0 }).mapPair n fun c =>
              { c with protect := false, softStart := true, softCount := 0 })))
  ∧ (∀ (s : State) (pair detect retry : Byte), s.CommandReady 0x39 →
    (5 < pair.toNat →
      exec (.setProtect pair detect retry) s = .next (s.answeredOnly 0x39 pair [detect, retry] .badArg 0))
    ∧ (∀ n : Fin 6, n.val = pair.toNat →
        ∃ d ∈ [1, 2, 3, 4, 8, 16, 32, 64],
          (detect = 0 → d = 1) ∧ (detect ≠ 0 → d ≤ detect.toNat)
          ∧ (∀ m ∈ [1, 2, 3, 4, 8, 16, 32, 64], m ≤ detect.toNat → m ≤ d)
          ∧ (let l := min 3 retry.toNat
             let res := clampResult [((detect.toNat : Int), (d : Int)), ((retry.toNat : Int), (l : Int))]
             exec (.setProtect pair detect retry) s
               = .next (s.answered 0x39 pair [detect, retry] res.1 res.2 fun u =>
                   u.setPair n { s.pair n with detect := d, limit := l }))))

/-! ## The part's own steps: intake and lanes -/

/-- UNPACK_FRAME (R36, R37): with no window feeding the path, or no slot ready at the unpack position, no frame moves;
a frame of the path's format moves into the FIFO, and the last good frame of a slot sends the slot back; a carriage
frame of another format hands its format over first, which the path adopts at once when its FIFO is empty or it has
none, and while it stays pending no frame moves. STREAM_IDLE (R39): the source becomes not present when 100 handover
counts have passed and nothing is buffered; that B is tested as it stands when the row comes is the model's reading
(log 26). Which carriage frames of a page are good (R33): the five checks, on the header's bytes; a payload of at most
2032 bytes, the capacity of the largest slot, is read from one to the next up to the first that fails, its outcome OK
when they end at its end (that the model's rounds suffice for it is log 42). Their audio frames are the slot's good
frames; which carriage frame holds the next, and the samples taken from its words (R36). -/
def Obligations.UnpackerAndIdle : Prop :=
  (∀ (page : Mem) (off stop : Nat) (c : Carriage),
    let b (k : Nat) : Byte := memRead page (off + k)
    let n (k : Nat) : Nat := (b k).toNat
    let chans := c.format.roles.length
    parseCarriage page off stop = some c ↔
      (b 0 = 0xC7 ∧ b 1 = 0x5A)
      ∧ n 15 = (n 0 + n 1 + n 2 + n 3 + n 4 + n 5 + n 6 + n 7 + n 8 + n 9 + n 10 + n 11 + n 12 + n 13 + n 14) % 256
      ∧ (1 ≤ n 2 ∧ n 2 ≤ 8) ∧ n 3 = c.format.rate.code ∧ (1 ≤ c.frames ∧ c.frames ≤ 256)
      ∧ c.frames = n 4 + 256 * n 5
      ∧ chans = n 2 ∧ c.format.roles.Nodup
      ∧ (∀ j r, c.format.roles[j]? = some r → r.code = n (6 + j)
          ∧ r ∈ [Role.fl, .fr, .c, .lfe, .sl, .sr, .bl, .br, .tfl, .tfr, .tbl, .tbr])
      ∧ (∀ j, chans ≤ j → j < 8 → n (6 + j) = 0)
      ∧ c.start = off + 16 ∧ off + 16 + 4 * chans * c.frames ≤ stop)
  ∧ (∀ (page : Mem) (len : Nat), len ≤ 2032 →
    let cs := (parseSlot page len).1
    let after (k : Nat) : Nat := 16 + ((cs.take k).map fun c => 16 + 4 * c.format.roles.length * c.frames).sum
    (∀ k c, cs[k]? = some c → parseCarriage page (after k) (16 + len) = some c)
    ∧ ((parseSlot page len).2 = true ↔ after cs.length = 16 + len)
    ∧ parseCarriage page (after cs.length) (16 + len) = none)
  ∧ (∀ (cs : List Carriage) (m k : Nat) (c : Carriage),
    goodFrames cs = (cs.map fun x => x.frames).sum
    ∧ (locateFrame cs m = some (c, k) ↔
        ∃ i, cs[i]? = some c ∧ k < c.frames ∧ m = ((cs.take i).map fun x => x.frames).sum + k))
  ∧ (∀ (c : Carriage) (page : Mem) (k : Nat),
    let chans := c.format.roles.length
    (c.frame page k).length = chans
    ∧ ∀ j, j < chans →
      let n (i : Nat) : Nat := (memRead page (c.start + 4 * (chans * k + j) + i)).toNat
      let v := n 0 + 256 * n 1 + 65536 * n 2
      (c.frame page k)[j]? = some (if v < 8388608 then (v : Int) else (v : Int) - 16777216))
  ∧ (∀ (s : State) (p : PathId), s.feeding p = none → exec (.unpackFrame p) s = .next s)
  ∧ (∀ (s : State) (p : PathId) (w : Fin 16) (r : Ring), s.feeding p = some w → s.ring w = some r →
    let a := r.arrive
    let x := a.slot a.unpackPos
    let ready := (x.state = .sealed ∨ x.state = .unpacking) ∧ (s.path p).fifo.length < 2048
      ∧ (s.path p).formatPending = false
    (¬ ready → exec (.unpackFrame p) s = .next (s.setRing w (some a)))
    ∧ (∀ (c : Carriage) (k : Nat), ready →
        locateFrame (parseSlot (x.page.getD []) x.len).1 x.moved = some (c, k) →
        let f := c.frame (x.page.getD []) k
        let g : PathRec := { s.path p with
          fifo := (s.path p).fifo ++ [f], held := if k = 0 then none else (s.path p).held }
        let slot : SlotRec := { x with state := .unpacking, skip := false, moved := x.moved + 1 }
        ((k ≠ 0 ∨ (s.path p).format = some c.format) → ∃ t, exec (.unpackFrame p) s = .next t ∧ t.path p = g
          ∧ (x.moved + 1 ≠ x.good → t = (s.setPath p g).setRing w (some (a.setSlot a.unpackPos slot)))
          ∧ (x.moved + 1 = x.good →
              t = ((s.setPath p g).setRing w (some (a.setSlot a.unpackPos slot))).enterReturning w a.unpackPos
                x.outcome x.len))
        ∧ (k = 0 → (s.path p).format ≠ some c.format → ((s.path p).fifo = [] ∨ (s.path p).format = none) →
            ∃ t, exec (.unpackFrame p) s = .next t ∧ (t.path p).format = some c.format ∧ (t.path p).fifo = [f]
              ∧ (t.path p).formatPending = false ∧ (t.path p).held = none ∧ (t.path p).tracker.state = .prefill)
        ∧ (k = 0 → (s.path p).format ≠ none → (s.path p).format ≠ some c.format → (s.path p).fifo ≠ [] →
            exec (.unpackFrame p) s = .next ((s.setRing w (some a)).setPath p
              { s.path p with formatPending := true, held := some c.format }))))
  ∧ (∀ (s : State) (w : Fin 16) (r : Ring) (p : PathId), s.ring w = some r → r.feeds = some p →
    (100 ≤ r.handoverCount → s.buffered p = 0 → r.idle = false →
      exec (.streamIdle w) s = .next (s.setRing w (some { r with idle := true })))
    ∧ ((r.handoverCount < 100 ∨ 0 < s.buffered p ∨ r.idle = true) → exec (.streamIdle w) s = .next s))

/-- LANE_FRAME (R49 to R53, R62), LANE_LOSS (R56) and REALIGN_DEASSERT (R51): what a frame does on a lane that is
disabled or in HUNT, SYNCED, PREAMBLE and MISMATCH (a first copy that is not valid breaks the preamble too), and the
error that takes a group out of DATA (its opened flag cleared at once, log 30); the group's own work stands in GroupWork. What a loss does in each state. The
model's own here: LANE_LOSS is the lane's part of the coming block, made ahead of it and marked in taken, and stamped
as that block's (log 2); the realign count is taken before the frame acts (log 30); REALIGN_DEASSERT as a row of its own
brings no frame (log 48); the sync run is 0 in SYNCED (log 61). -/
def Obligations.LaneEvents : Prop :=
  (∀ (s : State) (l : Fin 4) (f : LaneFrame), (s.lane l).enable = false → exec (.laneFrame l f) s = .next s)
  ∧ (∀ (s : State) (l : Fin 4) (f : LaneFrame), (s.lane l).enable = true →
    let left : Option Nat := match (s.lane l).realign with
      | none => none
      | some n => if n ≤ 1 then none else some (n - 1)
    let r : LaneRec := { s.lane l with realign := left, arrived := true }
    let k := frameKind f
    let hunt (x : LaneRec) : LaneRec :=
      { x with state := .hunt, syncRun := 0, copies := 0, firstCopy := none, config := none, skew := 0
               started := false, buffer := [] }
    let synced (x : LaneRec) : LaneRec := { hunt x with state := .synced }
    let leaves (x : LaneRec) : Prop := exec (.laneFrame l f) s = .next (s.setLane l x)
    (r.state = .hunt → k ≠ .sync → leaves { r with syncRun := 0 })
    ∧ (r.state = .hunt → k = .sync → r.syncRun ≠ 3 → leaves { r with syncRun := r.syncRun + 1 })
    ∧ (r.state = .hunt → k = .sync → r.syncRun = 3 → leaves (synced r))
    ∧ (r.state = .synced → (k = .sync ∨ k = .fill ∨ k = .errored) → leaves r)
    ∧ (r.state = .synced → k = .data → leaves { r with realign := some 32 })
    ∧ (∀ c, r.state = .synced → k = .preamble → frameCopy f = some c → r.firstCopy = none →
        leaves { r with state := .preamble, copies := 1, firstCopy := some c })
    ∧ (r.state = .synced → k = .preamble → frameCopy f = none →
        leaves (hunt { r with errors := min 255 (r.errors + 1), realign := some 32 }))
    ∧ (r.state = .preamble → k = .sync → leaves (synced r))
    ∧ (r.state = .preamble → (k = .fill ∨ k = .errored ∨ k = .data) →
        leaves (hunt { r with errors := min 255 (r.errors + 1), realign := some 32 }))
    ∧ (r.state = .preamble → k = .preamble → (frameCopy f = none ∨ ∃ c d, frameCopy f = some c
          ∧ r.firstCopy = some d ∧ c ≠ d) →
        leaves (hunt { r with errors := min 255 (r.errors + 1), realign := some 32 }))
    ∧ (∀ c, r.state = .preamble → k = .preamble → frameCopy f = some c → r.firstCopy = some c → r.copies ≠ 3 →
        leaves { r with copies := r.copies + 1 })
    ∧ (r.state = .mismatch → k ≠ .sync → leaves r)
    ∧ (r.state = .mismatch → k = .sync → leaves (synced r))
    ∧ (∀ e g, r.state = .data → (k = .errored ∨ k = .preamble) → s.groupOfLane l = some (e, g) →
        r.threshold ≤ min 255 (r.errors + 1) →
        ∃ t, exec (.laneFrame l f) s = .next t ∧ (t.lane l).errors = min 255 (r.errors + 1)
          ∧ t.group e = some { stage := .forming, format := none, opened := false }
          ∧ ∀ x ∈ (s.source e).lanes, (t.lane x).state = .hunt ∧ (t.lane x).realign = some 32
              ∧ (t.lane x).buffer = []))
  ∧ (∀ (s : State) (l : Fin 4), BlockPart.lane l ∉ s.taken →
    let b := s.begun
    let r := s.lane l
    let lost : LaneRec := { r with
      silence := 4, state := .hunt, syncRun := 0, copies := 0, firstCopy := none, config := none, skew := 0
      started := false, buffer := [] }
    let forming : Option GroupRec := some { stage := .forming, format := none, opened := false }
    ((r.arrived = true ∨ r.silence ≠ 3) → exec (.laneLoss l) s = .next s)
    ∧ (r.arrived = false → r.silence = 3 → (r.state = .hunt ∨ r.state = .mismatch ∨ r.state = .disabled) →
        exec (.laneLoss l) s = .next { b.setLane l { r with silence := 4 } with taken := .lane l :: b.taken })
    ∧ (r.arrived = false → r.silence = 3 → (r.state = .synced ∨ r.state = .preamble
          ∨ (r.state = .aligned ∧ ∀ e g, s.groupOfLane l = some (e, g) → g.stage ≠ .measuring)) →
        exec (.laneLoss l) s = .next { (b.setLane l lost).laneReport l .loss with taken := .lane l :: b.taken })
    ∧ (∀ e g, r.arrived = false → r.silence = 3 → r.state = .aligned → s.groupOfLane l = some (e, g) →
        g.stage = .measuring →
        ∃ v : State, exec (.laneLoss l) s = .next { v.laneReport l .loss with taken := .lane l :: b.taken }
          ∧ v.rep = s.rep ∧ v.block = b.block ∧ v.lane l = lost ∧ v.group e = forming
          ∧ ∀ x ∈ (s.source e).lanes, x ≠ l → v.lane x = { s.lane x with skew := 0, started := false, buffer := [] })
    ∧ (∀ e g, r.arrived = false → r.silence = 3 → r.state = .data → s.groupOfLane l = some (e, g) →
        ∃ v : State, exec (.laneLoss l) s
            = .next { v.laneReports (s.source e).lanes .loss with taken := .lane l :: b.taken }
          ∧ v.rep = s.rep ∧ v.block = b.block ∧ v.lane l = { lost with realign := some 32 } ∧ v.group e = forming
          ∧ ∀ x ∈ (s.source e).lanes, x ≠ l → v.lane x = { s.lane x with
              realign := some 32, state := .hunt, syncRun := 0, copies := 0, firstCopy := none, config := none
              skew := 0, started := false, buffer := [] }))
  ∧ (∀ (s : State) (l : Fin 4),
    ((s.lane l).realign = some 1 →
      exec (.realignDeassert l) s = .next (s.setLane l { s.lane l with realign := none }))
    ∧ ((s.lane l).realign ≠ some 1 → exec (.realignDeassert l) s = .next s))
  ∧ (∀ (f : LaneFrame) (cfg : Option LaneConfig),
    let byte (x : BitVec 24) (k : Nat) : Byte := BitVec.ofNat 8 (x.toNat / 256 ^ k)
    let xor := f.marker ^^^ byte f.fieldA 0 ^^^ byte f.fieldA 1 ^^^ byte f.fieldA 2 ^^^ byte f.fieldB 0
      ^^^ byte f.fieldB 1 ^^^ byte f.fieldB 2
    let good := f.symbolsValid = true ∧ (f.marker ∈ [0x3C, 0xB5, 0x6A, 0xD3]) ∧ f.parity = xor
    let a := f.fieldA.toNat
    let b := f.fieldB.toNat
    let group := a % 16
    let index := a / 16 % 16
    let count := a / 256 % 16
    let rate := a / 4096 % 16
    let width := a / 65536
    let role1 := b % 256
    let role2 := b / 256 % 256
    let w := match cfg with
      | some c => c.width
      | none => 24
    let sample (x : BitVec 24) : Sample := (BitVec.ofNat 24 (x.toNat / 2 ^ (24 - w) * 2 ^ (24 - w))).toInt
    (¬ good → frameKind f = .errored)
    ∧ (good → frameKind f = (if f.marker = 0x3C then .fill else if f.marker = 0xB5 then .sync
        else if f.marker = 0x6A then .preamble else .data))
    ∧ (∀ c, frameCopy f = some c ↔
        b / 65536 = (group + index + count + rate + width + role1 + role2) % 256 ∧ group ≤ 3 ∧ 1 ≤ count ∧ count ≤ 4
        ∧ index < count ∧ (width = 16 ∨ width = 20 ∨ width = 24) ∧ role1 ≤ 12 ∧ role2 ≤ 12 ∧ (role1 ≠ role2 ∨ role1 = 0)
        ∧ c.group = group ∧ c.index = index ∧ c.count = count ∧ c.rate.code = rate ∧ c.width = width
        ∧ c.role1.code = role1 ∧ c.role2.code = role2)
    ∧ frameSamples f cfg = (sample f.fieldA, sample f.fieldB))

/-- A lane's frames in its group (R54, R57 to R62), the realign count taken first (log 30). The fourth equal copy
places the lane, which then holds no copies (log 61, as the sync run of 0 in SYNCED), and the last lane of a group makes
it compare: it begins to measure, with the group's format, or the lanes that differ go to MISMATCH, reported in lane-list order (the model's choice, log 25). In ALIGNED a group is
opened by its first DATA frame, each lane starts with its own, a lane that falls 9 frames behind or buffers more than
16 makes the measurement fail, and when all have started the group enters DATA, reports JOINED and hands its format on
(R60, R92); a bound path that tracks then rejoins at once (R101, R105). In DATA each frame or its replacement enters
the lane's buffer, a good run of 4096 takes 1 from the error count, a full buffer is a drift and a SYNC frame ends the
run, and a group frame is formed while every buffer holds one. A group that leaves DATA has its opened flag cleared at once
(the model's reading, log 30). The clauses of a SYNC frame are the model's reading too (log 30): in MEASURING it wins over
a full deskew buffer and a skew count about to reach 9, though R59's failure test is met too; in DATA it wins over E at its threshold and over the full
buffer, where R60 and R61 would also give DESKEW or THRESHOLD as the cause; and a lane that goes to SYNCED out of
MEASURING has its deskew state cleared, where R58 names only the lanes that stay ALIGNED. A frame that arrives at a path enters its FIFO (R91), is
discarded while a format change is pending (R92), and is dropped at 2048 frames: the first drop of an episode raises
TRACKER OVERRUN with the values of the last computed block (which blocks count is log 20) and retriggers the tracker,
in TRACK with the slip count at 0 (log 52); further drops do nothing (R104). -/
def Obligations.GroupWork : Prop :=
  (∀ (s : State) (l : Fin 4) (f : LaneFrame), (s.lane l).enable = true →
    let left : Option Nat := match (s.lane l).realign with
      | none => none
      | some n => if n ≤ 1 then none else some (n - 1)
    let r : LaneRec := { s.lane l with realign := left, arrived := true }
    let k := frameKind f
    let two := frameSamples f r.config
    let hunt (x : LaneRec) : LaneRec :=
      { x with state := .hunt, syncRun := 0, copies := 0, firstCopy := none, config := none, skew := 0
               started := false, buffer := [] }
    let synced (x : LaneRec) : LaneRec := { hunt x with state := .synced }
    let forming : Option GroupRec := some { stage := .forming, format := none, opened := false }
    let gives (t : State) : Prop := exec (.laneFrame l f) s = .next t
    let leaves (x : LaneRec) : Prop := gives (s.setLane l x)
    let falls (e : Fin 12) (mine : LaneRec) (cause : LaneCause) : Prop :=
      ∃ v : State, gives (v.laneReports (s.source e).lanes cause) ∧ v.rep = s.rep ∧ v.group e = forming ∧ v.lane l = mine
        ∧ ∀ x ∈ (s.source e).lanes, x ≠ l → v.lane x = hunt { s.lane x with realign := some 32 }
    (∀ c, r.state = .preamble → k = .preamble → frameCopy f = some c → r.firstCopy = some c → r.copies = 3 →
      let y : LaneRec := { r with config := some c, copies := 0, firstCopy := none }
      (s.entryOfLane l = none → leaves { y with state := .aligned })
      ∧ (∀ e, s.entryOfLane l = some e →
          let list := (s.source e).lanes
          ((c.count = list.length ∧ c.index = posOf l list) →
            gives ((s.setLane l { y with state := .aligned }).groupCompare e))
          ∧ (¬ (c.count = list.length ∧ c.index = posOf l list) →
            gives ((s.setLane l { y with state := .mismatch }).laneReport l .mismatch))))
    ∧ (r.state = .aligned → s.groupOfLane l = none →
        (k = .sync → leaves (synced r)) ∧ (k ≠ .sync → leaves r))
    ∧ (∀ e g, r.state = .aligned → s.groupOfLane l = some (e, g) → g.stage ≠ .measuring →
        (k = .sync → leaves (synced r))
        ∧ (k = .data → gives ((s.setLane l (hunt { r with realign := some 32 })).laneReport l .early))
        ∧ (k ≠ .sync → k ≠ .data → leaves r))
    ∧ (∀ e g, r.state = .aligned → s.groupOfLane l = some (e, g) → g.stage = .measuring →
        let fails := falls e (hunt { r with realign := some 32 }) .deskew
        (k = .sync → ∃ t, gives t ∧ t.rep = s.rep ∧ t.lane l = synced r ∧ t.group e = forming
          ∧ ∀ x ∈ (s.source e).lanes, x ≠ l → t.lane x = { s.lane x with skew := 0, started := false, buffer := [] })
        ∧ (k ≠ .sync → k ≠ .data → g.opened = false → leaves r)
        ∧ (k = .data → g.opened = false →
            gives (((s.setGroup e (some { g with opened := true })).setLane l
              { r with started := true, buffer := r.buffer ++ [two], skew := 0 }).measureDone e { g with opened := true }))
        ∧ (k = .data → g.opened = true → r.started = false →
            gives ((s.setLane l { r with started := true, buffer := r.buffer ++ [two] }).measureDone e g))
        ∧ (k ≠ .sync → k ≠ .data → g.opened = true → r.started = false →
            (r.skew < 8 → leaves { r with skew := r.skew + 1 }) ∧ (8 ≤ r.skew → fails))
        ∧ (k ≠ .sync → g.opened = true → r.started = true →
            (r.buffer.length < 16 → leaves { r with buffer := r.buffer ++ [if k = .data then two else (0, 0)] })
            ∧ (16 ≤ r.buffer.length → fails)))
    ∧ (∀ e g, r.state = .data → s.groupOfLane l = some (e, g) →
        let put : Sample × Sample := if r.replacement = true then r.lastGood else (0, 0)
        let err : LaneRec := { r with errors := min 255 (r.errors + 1), goodRun := 0 }
        let enters (x : LaneRec) (two : Sample × Sample) : Prop :=
          (x.buffer.length < 16 → gives (State.formFrames e 17 (s.setLane l { x with buffer := x.buffer ++ [two] })))
          ∧ (16 ≤ x.buffer.length → falls e (hunt { x with realign := some 32 }) .deskew)
        (k = .data → enters
          { r with
            goodRun := if r.goodRun = 4095 then 0 else r.goodRun + 1
            errors := if r.goodRun = 4095 then r.errors - 1 else r.errors
            lastGood := two } two)
        ∧ (k = .fill → enters r put)
        ∧ ((k = .errored ∨ k = .preamble) → min 255 (r.errors + 1) < r.threshold → enters err put)
        ∧ ((k = .errored ∨ k = .preamble) → r.threshold ≤ min 255 (r.errors + 1) →
            falls e (hunt { err with realign := some 32 }) .threshold)
        ∧ (k = .sync → falls e (synced err) .sync)))
  ∧ (∀ (v : State) (e : Fin 12) (g : GroupRec), v.group e = some g →
    let list := (v.source e).lanes
    let differs (y x : Fin 4) : Prop :=
      (v.laneConfig x).group ≠ (v.laneConfig y).group ∨ (v.laneConfig x).rate ≠ (v.laneConfig y).rate
    ((g.stage ≠ .forming ∨ ∃ x ∈ list, (v.lane x).state ≠ .aligned) → v.groupCompare e = v)
    ∧ (∀ y ys, g.stage = .forming → (∀ x ∈ list, (v.lane x).state = .aligned) → list = y :: ys →
        ((∀ x ∈ list, ¬ differs y x) →
          v.groupCompare e = v.setGroup e (some
            { stage := .measuring, opened := false
              format := some
                { rate := (v.laneConfig y).rate
                  roles := groupRoles [] (list.flatMap fun x => [(v.laneConfig x).role1, (v.laneConfig x).role2]) } }))
        ∧ (∀ bad, bad ≠ [] → (∀ x, x ∈ bad ↔ x ∈ list ∧ differs y x) → bad.Sublist list → list.Nodup →
          v.groupCompare e
            = forEach (fun x t => (t.setLane x { t.lane x with state := .mismatch }).laneReport x .mismatch) bad v)))
  ∧ (∀ (seen rs : List Role) (r : Role),
    groupRoles seen [] = []
    ∧ groupRoles seen (r :: rs) = (if r ≠ .none ∧ r ∈ seen then Role.none else r) :: groupRoles (r :: seen) rs)
  ∧ (∀ (v : State) (e : Fin 12) (g : GroupRec),
    let list := (v.source e).lanes
    ((∃ x ∈ list, (v.lane x).started = false) → v.measureDone e g = v)
    ∧ ((∀ x ∈ list, (v.lane x).started = true) →
        ∃ w : State, w.rep = v.rep ∧ w.group e = some { g with stage := .running }
          ∧ (∀ x ∈ list, w.lane x = { v.lane x with state := .data, errors := 0, goodRun := 0, lastGood := (0, 0) })
          ∧ (v.boundPath e = none → v.measureDone e g = State.formFrames e 17 (w.laneReports list .joined))
          ∧ (∀ p f, v.boundPath e = some p → g.format = some f →
              v.measureDone e g
                = State.formFrames e 17 (((w.laneReports list .joined).handFormat p f).retrigger p))))
  ∧ (∀ (v : State) (e : Fin 12) (n : Nat),
    let list := (v.source e).lanes
    ((list = [] ∨ ∃ x ∈ list, (v.lane x).buffer = []) → State.formFrames e n v = v)
    ∧ (list ≠ [] → (∀ x ∈ list, (v.lane x).buffer ≠ []) →
        let frame : Frame := list.flatMap fun x =>
          [((v.lane x).buffer.headD (0, 0)).1, ((v.lane x).buffer.headD (0, 0)).2]
        let w := v.mapLanes list fun r => { r with buffer := r.buffer.drop 1 }
        (v.boundPath e = none → State.formFrames e (n + 1) v = State.formFrames e n w)
        ∧ (∀ p, v.boundPath e = some p →
            State.formFrames e (n + 1) v = State.formFrames e n (w.pushFrame p frame))))
  ∧ (∀ (v : State) (p : PathId) (frame : Frame),
    let r := v.path p
    let x := r.tracker
    let full := r.formatPending = false ∧ 2048 ≤ r.fifo.length
    (r.formatPending = true → v.pushFrame p frame = v)
    ∧ (r.formatPending = false → r.fifo.length < 2048 →
        v.pushFrame p frame = v.setPath p { r with fifo := r.fifo ++ [frame] })
    ∧ (full → x.overrun = true → v.pushFrame p frame = v)
    ∧ (∀ e, full → x.overrun = false → r.binding = some e →
        let drops (y : Tracker) : Prop :=
          v.pushFrame p frame = (v.setPath p { r with tracker := y }).raise .tracker p.code
            ([BitVec.ofNat 8 p.code, BitVec.ofNat 8 e.val, 3, BitVec.ofNat 8 y.state.code]
              ++ leBytes 2 x.last.b ++ leBytesInt 2 x.last.e ++ leBytesInt 4 x.last.c ++ leBytesInt 4 x.last.i
              ++ [BitVec.ofNat 8 x.last.g])
        (x.state = .acquire → x.ratchet = false →
          drops { x with overrun := true, timer := 256, gain := (v.source e).gainG })
        ∧ (x.state = .acquire → x.ratchet = true →
          drops { x with overrun := true, timer := 256, gain := (v.source e).ratchetH })
        ∧ (x.state = .track →
          drops { x with
            overrun := true, state := .acquire, timer := 256, ratchet := true, gain := (v.source e).ratchetH
            slips := 0 })
        ∧ (x.state ≠ .acquire → x.state ≠ .track → drops { x with overrun := true })))

/-! ## The part's own steps: the output block -/

/-- OUTPUT_BLOCK (R162, R184): the block counter rises by 1 unless a row made ahead has begun the block, the free-value
counter rises by 1, the lines are those sampled, no part is left taken. The thermal record, the meter period count and
the samples put out are those of their units' parts unless made ahead, on the block as its earlier stages leave it;
every sample lies in the 24-bit range. The command unit, the window table, the region, the presets, the crossover and
the commands that wait are unchanged. That the counter rises first is the model's reading (log 15), the parts made
ahead and their marks are its choice (log 2), the free-value counter (log 9) and the lines held in State (log 13) are
its own. What every part does stands in BlockStages, PathAndLaneParts and ZoneAndOutputParts. -/
def Obligations.OutputBlockAdvances : Prop :=
  ∀ (s : State) (faults : BitVec 6) (therm : Bool), ∃ t, exec (.outputBlock faults therm) s = .next t
    ∧ t.block = (if BlockPart.begin ∈ s.taken then s.block else s.block + 1)
    ∧ t.freeIdx = s.freeIdx + 1 ∧ t.taken = [] ∧ t.pins.faults = faults ∧ t.pins.therm = therm
    ∧ (BlockPart.thermal ∉ s.taken → t.thermal = s.thermal.block therm)
    ∧ (BlockPart.meters ∉ s.taken → t.out.meterPeriod = (s.out.meterPeriod + 1) % 100)
    ∧ (BlockPart.sound ∉ s.taken →
        let b := State.groupsMade { s with pins := { faults := faults, therm := therm } } faults therm
        t.out.samples = b.soundPart.out.samples
        ∧ ∀ c, ∀ x ∈ getAt t.out.samples c, -8388608 ≤ x ∧ x ≤ 8388607)
    ∧ t.cmd = s.cmd ∧ t.windows = s.windows ∧ t.strap = s.strap ∧ t.region = s.region ∧ t.presets = s.presets
    ∧ t.out.crossover = s.out.crossover ∧ t.pending = s.pending

/-- An output block is its parts in the order of log 3, each made once in a block: a part that an event row has made
ahead is marked and left out (log 2). The counter rises first (log 15); lanes, paths, tuner and zones come before the
thermal record, the channel ramps, the pairs, the ends of soft starts and the change groups, then the falls of Lr that
are due (log 17), the mix and the playing, the limiter, the tap and the meters; then MAIN's energies start again after
an adoption (R114; this second start from 0 in one block is the model's reading, log 37). An event row makes, when its event occurs, the part of its unit on what the stages before it leave,
and else nothing. What the parts do stands in PathAndLaneParts and ZoneAndOutputParts. No stage after the zones'
changes zones, paths, tuner, lanes or rings, and none after the soft starts' changes the pairs. -/
def Obligations.BlockStages : Prop :=
  (∀ (k : BlockPart) (f : State → State) (s : State),
    (k ∈ s.taken → takePart k f s = s) ∧ (k ∉ s.taken → takePart k f s = { f s with taken := k :: (f s).taken }))
  ∧ (∀ (n : Nat) (f : Fin n → State → State) (c : Fin n) (cs : List (Fin n)) (s : State),
    forEach f [] s = s ∧ forEach f (c :: cs) s = forEach f cs (f c s))
  ∧ (∀ s : State,
    s.begun = takePart .begin (fun t => { t with block := t.block + 1 }) s
    ∧ s.lanesMade = takePart (.lane 3) (fun t => t.laneBlock 3) (takePart (.lane 2) (fun t => t.laneBlock 2)
        (takePart (.lane 1) (fun t => t.laneBlock 1) (takePart (.lane 0) (fun t => t.laneBlock 0) s.begun)))
    ∧ s.pathsMade = takePart (.path .p1) (fun t => t.pathBlock .p1)
        (takePart (.path .p0) (fun t => t.pathBlock .p0) s.lanesMade)
    ∧ s.tunerMade = takePart .tuner State.tunerBlock s.pathsMade
    ∧ s.zonesMade = takePart (.zone .zone2) (fun t => t.zoneBlock .zone2)
        (takePart (.zone .main) (fun t => t.zoneBlock .main) s.tunerMade))
  ∧ (∀ (s : State) (faults : BitVec 6) (therm : Bool),
    s.thermalMade therm = takePart .thermal (fun t => t.thermalBlock therm) s.zonesMade
    ∧ s.rampsMade therm = forEach (fun c => takePart (.ramp c) fun t => t.rampBlock c) (List.finRange 12)
        (s.thermalMade therm)
    ∧ s.pairsMade faults therm = forEach (fun n => takePart (.pair n) fun t => t.pairPart n (faults.getLsbD n.val))
        (List.finRange 6) (s.rampsMade therm)
    ∧ s.startsMade faults therm = forEach (fun n t => t.softStartBlock n) (List.finRange 6) (s.pairsMade faults therm)
    ∧ s.groupsMade faults therm = forEach (fun g t => t.groupBlock g) (List.finRange 12) (s.startsMade faults therm)
    ∧ s.soundMade faults therm = takePart .sound State.soundPart (s.groupsMade faults therm)
    ∧ s.limiterMade faults therm = forEach (fun c => takePart (.limiter c) fun t => t.limitPart c) (List.finRange 12)
        (s.soundMade faults therm)
    ∧ s.tapMade faults therm = takePart .tap State.tapPart (s.limiterMade faults therm)
    ∧ s.metersMade faults therm = takePart .meters State.meterBlock (s.tapMade faults therm))
  ∧ (∀ s : State,
    s.soundPart = State.soundBlock
      (State.mixBlock (forEach (fun c t => t.setChan c (t.chan c).applyDue) (List.finRange 12) s)))
  ∧ (∀ s : State,
    (s.tap.binding = none → s.tapPart = s) ∧ ∀ i point, s.tap.binding = some (i, point) →
      s.tapPart = s.tapBlock (s.tapPoint point))
  ∧ (∀ (s : State) (faults : BitVec 6) (therm : Bool),
    let x : State := { s with pins := { faults := faults, therm := therm } }
    let b := x.metersMade faults therm
    let adopted := ∃ p, b.zoneMain.attached = some p ∧ (b.path p).adoptedNow = true
    ∃ t, exec (.outputBlock faults therm) s = .next t
      ∧ t = { b with
          mixer := if adopted then { b.mixer with eL := 0, eR := 0, eM := 0, eS := 0 } else b.mixer
          freeIdx := b.freeIdx + 1, taken := [] }
      ∧ t.zoneMain = x.zonesMade.zoneMain ∧ t.zoneTwo = x.zonesMade.zoneTwo ∧ t.owner = x.zonesMade.owner
      ∧ t.pathZero = x.zonesMade.pathZero ∧ t.pathOne = x.zonesMade.pathOne ∧ t.tuner = x.zonesMade.tuner
      ∧ t.lanes = x.zonesMade.lanes ∧ t.groups = x.zonesMade.groups ∧ t.rings = x.zonesMade.rings
      ∧ t.stations = x.zonesMade.stations ∧ t.sources = s.sources
      ∧ t.pairs = (x.startsMade faults therm).pairs)
  ∧ (∀ s : State,
    let row (c : Instr) (k : BlockPart) (b : State) (f : State → State) : Prop :=
      (k ∈ s.taken → exec c s = .next s)
      ∧ (k ∉ s.taken → exec c s = .next s ∨ exec c s = .next { f b with taken := k :: (f b).taken })
    let path (c : PathId → Instr) : Prop := ∀ p, row (c p) (.path p) s.lanesMade fun t => t.pathBlock p
    let tuner (c : Instr) : Prop := row c .tuner s.pathsMade State.tunerBlock
    let zone (c : Zone → Instr) : Prop := ∀ z, row (c z) (.zone z) s.tunerMade fun t => t.zoneBlock z
    let thermal (c : Instr) (line : Bool) : Prop := row c .thermal s.zonesMade fun t => t.thermalBlock line
    let pair (c : Fin 6 → Bool → Bool → Instr) : Prop :=
      ∀ n line therm, row (c n line therm) (.pair n) (s.rampsMade therm) fun t => t.pairPart n line
    (∀ l, row (.laneLoss l) (.lane l) s.begun fun t => t.laneBlock l)
    ∧ path .formatAdoption ∧ path .prefillExit ∧ path .gainCheck ∧ path .acquireLock ∧ path .slip ∧ path .holdEntry
    ∧ path .holdExit ∧ tuner .ackTimeout ∧ tuner .statusSilence ∧ tuner .settleLimit ∧ tuner .dwellEnd
    ∧ tuner .blendStep ∧ zone .fadeOutEnd ∧ zone .waitReadyEnd ∧ zone .sourceAbsent ∧ zone .switchComplete
    ∧ zone .goingStandbyEnd ∧ zone .sleepMinute ∧ thermal .thermalWarningSet true ∧ thermal .thermalClear false
    ∧ thermal .escalationSet true ∧ (∀ line, thermal (.thermalStep line) line) ∧ pair .protectEntry
    ∧ pair .recoverWaitExpiry ∧ pair .normalRunExpiry
    ∧ (∀ c therm, row (.softStartCount c therm) (.ramp c) (s.thermalMade therm) fun t => t.rampBlock c)
    ∧ (∀ c lines, row (.limiterRelease c lines) (.limiter c) (s.soundMade lines.faults lines.therm)
        fun t => t.limitPart c)
    ∧ row .meterPeriodEnd .meters (s.tapMade s.pins.faults s.pins.therm) State.meterBlock)

/-- The parts of a block before the zones'. A lane counts the blocks of silence, and is lost at the fourth (R56). A
path that is free or adopts in silence yields silence (R93, R110); the count of a stream rises (R39), B and e are taken
(R95); PREFILL ends with T frames of a source that is present (R99), ACQUIRE and TRACK run the loop (R97, R98), the
acquire timer (R100) or the slip test (R102), HOLD drains (R105), and SYNC consumes (R106). The tuner: the amplitude
check (R143), the blend (R142), the frames of a tuner that is TUNED (R139), the acknowledgement timer (R127), the
silence count (R129), the settle wait (R137, R146) and the dwell (R147). B is the FIFO fill (R95), and with a window that
feeds the path, as one of a STREAM source does, also that window's sealed run, by its slots from the unpack position on
(R38). A source is present: a lane group RUNNING (R62), a stream whose window feeds the path and has not met the idle
condition (R39), a tuner TUNED (R105, R106). The model's own: the values that a block without a loop reports (log 20), a
HOLD run empty stays silent (log 22), PREFILL silent in the block after HOLD (log 23), B of the idle test as the block
finds it (log 26), b_t formed in every state of the tuner (log 31), the slip test before the consumption (log 53), the
tuner's order (log 54), a next point a block after the dwell (log 19). -/
def Obligations.PathAndLaneParts : Prop :=
  (∀ (s : State) (p : PathId),
    let fill := (s.path p).fifo.length
    let feeds (w : Fin 16) : Prop := ∃ r, s.ring w = some r ∧ r.feeds = some p
    ((∀ w, ¬ feeds w) → s.feeding p = none ∧ s.buffered p = fill)
    ∧ (∀ w r, s.ring w = some r → r.feeds = some p → (∀ v, v ≠ w → ¬ feeds v) →
        s.feeding p = some w ∧ s.buffered p = fill + sealedRun r.slots r.slots.length r.unpackPos))
  ∧ (∀ (r : Ring) (n i : Nat), i < r.slots.length →
    let x := r.slot i
    let rest := sealedRun r.slots n ((i + 1) % r.slots.length)
    let run := sealedRun r.slots (n + 1) i
    sealedRun r.slots 0 i = 0
    ∧ (x.state = .unpacking → run = x.good - x.moved + rest)
    ∧ (x.state = .sealed → run = x.good + rest)
    ∧ (x.state ∈ [SlotState.empty, .filling, .missed, .returning] →
        (x.skip = true → run = rest) ∧ (x.skip = false → run = 0)))
  ∧ (∀ (s : State) (p : PathId),
    ((s.path p).binding = none → s.present p = false)
    ∧ ∀ e, (s.path p).binding = some e →
      ((s.source e).kind = .none → s.present p = false)
      ∧ ((s.source e).kind = .laneGroup → (s.present p = true ↔ ∃ g, s.group e = some g ∧ g.stage = .running))
      ∧ ((s.source e).kind = .stream → (s.present p = true ↔ ∃ w r, (s.source e).window = some w ∧ s.ring w = some r
          ∧ r.feeds = some p ∧ r.idle = false))
      ∧ ((s.source e).kind = .tuner → (s.present p = true ↔ s.tuner.state = .tuned)))
  ∧ (∀ (s : State) (l : Fin 4),
    let r := s.lane l
    (r.arrived = true → s.laneBlock l = s.setLane l { r with silence := 0, arrived := false })
    ∧ (r.arrived = false → r.silence < 3 → s.laneBlock l = s.setLane l { r with silence := r.silence + 1 })
    ∧ (r.arrived = false → r.silence = 3 → s.laneBlock l = (s.setLane l { r with silence := 4 }).laneLost l)
    ∧ (r.arrived = false → 4 ≤ r.silence → s.laneBlock l = s))
  ∧ (∀ (s : State) (p : PathId),
    let r := s.path p
    let u := (s.countHandover p).takeB p
    let silent := r.formatPending = true ∧ ∀ z, (s.zone z).attached = some p → (s.zone z).ramp = -240
    (r.binding = none →
      s.pathBlock p = s.setPath p { r with yielded := List.replicate 48 [], yieldFormat := none, adoptedNow := false })
    ∧ (r.binding ≠ none → silent →
      s.pathBlock p = (u.adoptFormat p).setPath p { (u.adoptFormat p).path p with
        yielded := List.replicate 48 [], yieldFormat := ((u.adoptFormat p).path p).format })
    ∧ (r.binding ≠ none → ¬ silent → s.pathBlock p = u.trackerBlock p))
  ∧ (∀ (s : State) (p : PathId),
    (s.feeding p = none → s.countHandover p = s)
    ∧ (∀ w r, s.feeding p = some w → s.ring w = some r →
      s.countHandover p = s.setRing w (some { r with
        handoverCount := r.handoverCount + 1
        idle := r.idle || (decide (99 ≤ r.handoverCount) && decide (s.buffered p = 0)) })))
  ∧ (∀ (s : State) (p : PathId) (i : Fin 12), (s.path p).binding = some i →
    let r := s.path p
    let x := r.tracker
    let target := if (s.source i).kind = .tuner then 96 else (s.source i).fillT
    let e := max (-1024) (min 1023 ((s.buffered p : Int) - (target : Int)))
    s.takeB p = s.setPath p { r with
      adoptedNow := false
      tracker := { x with err := e, last := { b := s.buffered p, e := e, c := x.corr, g := x.gain, i := x.integ } } })
  ∧ (∀ (s : State) (p : PathId) (i : Fin 12), (s.path p).binding = some i →
    let r := s.path p
    let x := r.tracker
    let src := s.source i
    let yields (q : PathRec) : PathRec := { q with yielded := List.replicate 48 [], yieldFormat := q.format }
    let puts (q : PathRec) : State := s.setPath p q
    let hold : State := puts { r with tracker := { x with state := .hold } }
    let target := if src.kind = .tuner then 96 else src.fillT
    let leaves := r.format ≠ none ∧ target ≤ s.buffered p ∧ s.present p = true
    (x.state = .idle → s.trackerBlock p = puts (yields r))
    ∧ (x.state = .prefill → ¬ leaves → s.trackerBlock p = puts (yields r))
    ∧ (x.state = .prefill → leaves → src.kind = .tuner →
        s.trackerBlock p = (puts { r with tracker := { x with
          state := .sync, step := some (2 ^ 24), corr := 0, gain := 0, integ := 0, phase := 0
          last := { x.last with c := 0, g := 0, i := 0 } } }).consumeBlock p)
    ∧ (x.state = .prefill → leaves → src.kind ≠ .tuner →
        s.trackerBlock p = (puts { r with tracker := { x with
          state := .acquire, timer := 256, gain := src.gainG
          ratchet := decide (src.gainG ≤ src.ratchetH) } }).acquireBlock p)
    ∧ (x.state = .hold → s.present p = true → s.trackerBlock p = puts (yields { r with
        history := [], drained := false
        tracker := { x with
          state := .prefill, integ := 0, phase := 0, corr := 0, gain := 0, slips := 0, ratchet := false, timer := 0
          step := x.step0 } }))
    ∧ (x.state = .hold → s.present p = false → s.trackerBlock p = s.holdBlock p)
    ∧ ((x.state = .acquire ∨ x.state = .track ∨ x.state = .sync) → s.present p = false →
        s.trackerBlock p = hold.holdBlock p)
    ∧ (x.state = .acquire → s.present p = true → s.trackerBlock p = s.acquireBlock p)
    ∧ (x.state = .track → s.present p = true → s.trackerBlock p = s.trackBlock p)
    ∧ (x.state = .sync → s.present p = true → s.trackerBlock p = s.consumeBlock p)
    ∧ (r.drained = true → s.holdBlock p = puts (yields r))
    ∧ (r.drained = false → s.holdBlock p = s.consumeBlock p)
    ∧ (let y := x.loop src.kp src.ki
       let v := (puts { r with tracker := y }).consumeBlock p
       let z := (v.path p).tracker
       let timer := z.timer - 1
       let ends (t : Tracker) : State := v.setPath p { v.path p with tracker := t }
       (z.state ≠ .acquire → s.acquireBlock p = v)
       ∧ (z.state = .acquire → timer = 0 →
          s.acquireBlock p = (ends { z with timer := 0, state := .track, gain := 0, slips := 0, ratchet := true }).raise
            .tracker p.code (trackerPayload p (v.path p) .locked .track))
       ∧ (z.state = .acquire → timer ∉ [0, 224, 192, 160, 128, 96, 64, 32] →
          s.acquireBlock p = ends { z with timer := timer })
       ∧ (z.state = .acquire → timer ∈ [224, 192, 160, 128, 96, 64, 32] →
          let g := if z.err.natAbs ≤ src.lockW then z.gain - 1 else z.gain
          s.acquireBlock p = ends { z with
            timer := timer, gain := g, ratchet := z.ratchet || decide (g ≤ src.ratchetH) })
       ∧ (x.state = .track → x.err.natAbs ≤ 4 * src.lockW →
          s.trackBlock p = (puts { r with tracker := { y with slips := 0 } }).consumeBlock p)
       ∧ (x.state = .track → 4 * src.lockW < x.err.natAbs → x.slips < 15 →
          s.trackBlock p = (puts { r with tracker := { y with slips := x.slips + 1 } }).consumeBlock p)
       ∧ (x.state = .track → 4 * src.lockW < x.err.natAbs → 15 ≤ x.slips →
          let q : PathRec := { r with tracker := { y with
            state := .acquire, timer := 256, ratchet := true, gain := src.ratchetH, slips := 0 } }
          s.trackBlock p
            = ((puts q).raise .tracker p.code (trackerPayload p q .slip .acquire)).consumeBlock p)))
  ∧ (∀ (p : PathId) (r : PathRec) (cause : TrackerCause) (st : TrackerState),
    let v := r.tracker.last
    trackerPayload p r cause st
      = [BitVec.ofNat 8 p.code, optByte (r.binding.map fun e => e.val), BitVec.ofNat 8 cause.code,
          BitVec.ofNat 8 st.code]
        ++ leBytes 2 v.b ++ leBytesInt 2 v.e ++ leBytesInt 4 v.c ++ leBytesInt 4 v.i ++ [BitVec.ofNat 8 v.g])
  ∧ (∀ s : State,
    let t := s.tuner
    let active := t.state = .tuning ∨ t.state = .tuned ∨ t.state = .seeking ∨ t.state = .scanning
    let sum := sumNat (t.pairsOf.map fun q => (q.1.toInt * q.1.toInt + q.2.toInt * q.2.toInt).toNat / 65536)
    let silence (n : Nat) : State := { s with tuner := { t with silence := n } }
    (s.ampError = true ↔ s.region.ampHigh < sum ∨ sum < s.region.ampLow)
    ∧ (active → s.tunerBlock
        = (State.blendBlock { s with tuner := { t with
            ampHistory := (s.ampError :: t.ampHistory).take 8 } }).deliverFrames.ackBlock.silenceBlock.phaseBlock.laneUsed)
    ∧ (¬ active → s.tunerBlock = s.blendBlock.deliverFrames.ackBlock.silenceBlock.phaseBlock.laneUsed)
    ∧ s.laneUsed = { s with tuner := { t with burst := .none, statusArrived := false } }
    ∧ ((¬ active ∨ t.statusArrived = true) → s.silenceBlock = silence 0)
    ∧ (active → t.statusArrived = false → t.silence < 4 → s.silenceBlock = silence (t.silence + 1))
    ∧ (active → t.statusArrived = false → 4 ≤ t.silence → s.silenceBlock = (silence 5).feFault)
    ∧ (t.openTx = none → s.ackBlock = s)
    ∧ (∀ x, t.openTx = some x →
        (1 < x.timer → s.ackBlock = { s with tuner := { t with openTx := some { x with timer := x.timer - 1 } } })
        ∧ (x.timer ≤ 1 → x.retried = true → s.ackBlock = s.feFault)
        ∧ (x.timer ≤ 1 → x.retried = false → s.ackBlock = { s with tuner := { t with
            openTx := some { x with timer := 2, retried := true }, ctlSent := some x.request } }))
    ∧ ((t.phase = .none ∨ t.phase = .sending) → s.phaseBlock = s)
    ∧ (t.phase = .settling →
        let u : State := { s with tuner := { t with settleCount := t.settleCount + 1 } }
        let limit := if t.band = .fm then 10 else 30
        (t.settleCount + 1 < limit → s.phaseBlock = u) ∧ (limit ≤ t.settleCount + 1 → s.phaseBlock = u.unsettled))
    ∧ (t.phase = .dwell →
        let d : Dwell :=
          { blocks := t.dwell.blocks + 1, levelSum := t.dwell.levelSum + t.level
            offsetSum := t.dwell.offsetSum + t.offset, errors := t.dwell.errors + (if s.ampError = true then 1 else 0)
            stereo := t.dwell.stereo || decide (t.pilot = .present) }
        let u : State := { s with tuner := { t with dwell := d } }
        let limit := if t.band = .fm then 8 else 16
        (d.blocks < limit → s.phaseBlock = u) ∧ (limit ≤ d.blocks → s.phaseBlock = u.endDwell d))
    ∧ (t.phase = .advance → s.phaseBlock = s.nextPoint)
    ∧ (t.state ≠ .tuned → s.deliverFrames = s)
    ∧ (t.state = .tuned → s.tunerPath = none → s.deliverFrames = s)
    ∧ (∀ p, t.state = .tuned → s.tunerPath = some p →
        s.deliverFrames = forEach (fun f v => v.pushFrame p f) s.tunerFrames s)
    ∧ (let target := if t.pilot = .absent ∨ s.region.forcedMono = true ∨ t.band = .am then 0
         else if t.level ≤ s.region.blendLo then 0
         else if s.region.blendHi ≤ t.level then 16
         else 16 * (t.level - s.region.blendLo) / (s.region.blendHi - s.region.blendLo)
       let x : Tuner := { t with blendTarget := target }
       let b := if t.blend < target then t.blend + 1 else if target < t.blend then t.blend - 1 else t.blend
       (¬ active → s.blendBlock = { s with tuner := x })
       ∧ (active → t.blendTimer ≠ 7 → s.blendBlock = { s with tuner := { x with blendTimer := t.blendTimer + 1 } })
       ∧ (active → t.blendTimer = 7 → s.blendBlock = { s with tuner := { x with blendTimer := 0, blend := b } })))

/-- The parts of a block from the zones on. A zone: the volume and the ramp move (R76, R77), then the stage of the
switch (R81 to R83), the end of GOING_STANDBY (R86) and the sleep countdown (R87). The thermal record: t, the runs, the
warning and escalation, one THERMAL at a change (R193, R194, R195). A channel's ramp (R176), a pair by its state (R184
to R190), the end of a soft start (R177, R188), the meter period (R181). The limiter, the sound and the tap stand in
ChannelSound and TapBinding. The model's own: the wait count and the minute counter are 0 after an abort (log 49), a
switch completes before sleep expires (log 50), a pair's run is counted before its entry to PROTECT (log 58), a
soft-start count stands still at r_ch 0 (log 57), a switch that sleep aborts raises one ZONE_STATE (log 34). -/
def Obligations.ZoneAndOutputParts : Prop :=
  (∀ target step x : Int,
    moveToward target step x = if x < target then min target (x + step) else max target (x - step))
  ∧ (∀ (s : State) (z : Zone),
    let r := s.zone z
    let ready := ∃ p, r.attached = some p ∧ (s.path p).formatPending = false
      ∧ ((s.path p).tracker.state = .acquire ∨ (s.path p).tracker.state = .track ∨ (s.path p).tracker.state = .sync)
    let up := r.switch ≠ .fadeOut ∧ r.switch ≠ .waitReady ∧ r.power = .on ∧ r.mute = false ∧ ready
    let part (target : Int) : Prop := s.zoneBlock z
      = State.sleepBlock (State.standbyIfSilent (State.switchBlock (s.setZone z { r with
          masterCurrent := moveToward r.masterTarget 2 r.masterCurrent
          ramp := moveToward target r.rampRate r.ramp }) z) z) z
    let done := ((s.setZone z { r with switch := .idle, waitCount := 0, target := none, tag := none }).zoneReport
        z).raiseDone r.tag
      [0, 0, BitVec.ofNat 8 z.code, 0, optByte (r.target.map fun e => e.val), optByte (r.attached.map fun p => p.code)]
    let kind := match r.target with
      | some e => (s.source e).kind.code
      | none => 0
    (up → part 0) ∧ (¬ up → part (-240))
    ∧ (r.switch = .idle → s.switchBlock z = s)
    ∧ (r.switch = .fadeOut → r.ramp = -240 → s.switchBlock z = s.endFadeOut z)
    ∧ (r.switch = .fadeOut → r.ramp ≠ -240 → s.switchBlock z = s)
    ∧ (r.switch = .waitReady → ready → r.mute = false → s.switchBlock z = s.setZone z { r with switch := .fadeIn })
    ∧ (r.switch = .waitReady → ready → r.mute = true → s.switchBlock z = done)
    ∧ (r.switch = .waitReady → ¬ ready → (r.waitCount < 1999 ∨ r.waitCount = 2000) →
        s.switchBlock z = s.setZone z { r with waitCount := min 2000 (r.waitCount + 1) })
    ∧ (r.switch = .waitReady → ¬ ready → r.waitCount = 1999 →
        s.switchBlock z = (s.setZone z { r with waitCount := 2000 }).raise .sourceAbsent z.code
          [BitVec.ofNat 8 z.code, optByte (r.target.map fun e => e.val), BitVec.ofNat 8 kind])
    ∧ (r.switch = .fadeIn → (r.ramp = 0 ∨ r.mute = true) → s.switchBlock z = done)
    ∧ (r.switch = .fadeIn → r.ramp ≠ 0 → r.mute = false → s.switchBlock z = s)
    ∧ ((r.power = .goingStandby ∧ r.ramp = -240) → s.standbyIfSilent z = s.enterStandby z)
    ∧ (¬ (r.power = .goingStandby ∧ r.ramp = -240) → s.standbyIfSilent z = s)
    ∧ ((r.power ≠ .on ∨ r.sleep = 0) → s.sleepBlock z = s)
    ∧ (r.power = .on → r.sleep ≠ 0 → 1 < r.minute → s.sleepBlock z = s.setZone z { r with minute := r.minute - 1 })
    ∧ (r.power = .on → 1 < r.sleep → r.minute ≤ 1 →
        s.sleepBlock z = s.setZone z { r with minute := 60000, sleep := r.sleep - 1 })
    ∧ (r.power = .on → r.sleep = 1 → r.minute ≤ 1 →
        let w := if r.switch = .idle then s else s.switchDone z .aborted
        let u := ((w.setZone z { r with
            switch := .idle, target := none, tag := none, waitCount := 0, sleep := 0, minute := 0
            power := .goingStandby }).zoneReport z).raise .sleepExpired z.code [BitVec.ofNat 8 z.code]
        (r.ramp = -240 → s.sleepBlock z = u.enterStandby z) ∧ (r.ramp ≠ -240 → s.sleepBlock z = u)))
  ∧ (∀ (s : State) (line : Bool),
    let r := s.thermal
    let a := if line = true then min 30000 (r.assertedRun + 1) else 0
    let d := if line = true then 0 else min 6000 (r.deassertedRun + 1)
    let warns := a = 100 ∧ r.warning = false
    let clears := d = 6000 ∧ r.warning = true
    let target := if warns then -12 else if clears then 0 else r.tTarget
    let steps := r.t ≠ r.tTarget ∧ r.tTimer = 7
    let x : Thermal :=
      { assertedRun := a, deassertedRun := d, lastLine := line
        warning := if warns then true else if clears then false else r.warning
        escalation := if a = 30000 ∧ r.escalation = false then true else if d = 6000 then false else r.escalation
        t := if steps then moveToward r.tTarget 1 r.t else r.t
        tTarget := target
        tTimer := if target ≠ r.tTarget ∨ r.t = r.tTarget ∨ r.tTimer = 7 then 0 else r.tTimer + 1 }
    let v : State := { s with thermal := x, pins := { s.pins with therm := line } }
    ((x.warning = r.warning ∧ x.escalation = r.escalation) → s.thermalBlock line = v)
    ∧ (¬ (x.warning = r.warning ∧ x.escalation = r.escalation) → s.thermalBlock line = v.thermalReport))
  ∧ (∀ (s : State) (c : Fin 12),
    let r := s.chan c
    let gives (x : Channel) : Prop := s.rampBlock c = s.setChan c x
    let held := r.reconfig = true ∨ r.protect = true
    (held → gives { r with ramp := moveToward (-240) 8 r.ramp })
    ∧ (¬ held → r.softStart = false → gives { r with ramp := moveToward 0 8 r.ramp })
    ∧ (¬ held → r.softStart = true → (r.ramp = 0 ∨ s.thermal.lastLine = true) → gives r)
    ∧ (¬ held → r.softStart = true → r.ramp ≠ 0 → s.thermal.lastLine = false → r.softCount ≠ 3 →
        gives { r with softCount := r.softCount + 1 })
    ∧ (¬ held → r.softStart = true → r.ramp ≠ 0 → s.thermal.lastLine = false → r.softCount = 3 →
        gives { r with softCount := 0, ramp := moveToward 0 1 r.ramp }))
  ∧ (∀ (s : State) (n : Fin 6) (f : Channel → Channel) (r : Channel),
    (∃ t : State, s.mapPair n f = t ∧ t = { s with out := { s.out with channels := t.out.channels } }
      ∧ ∀ c, t.chan c = if c.val / 2 = n.val then f (s.chan c) else s.chan c)
    ∧ r.protectNow = { r with ramp := -240, protect := true, softStart := false, softCount := 0 }
    ∧ r.softStartNow = { r with protect := false, softStart := true, softCount := 0 })
  ∧ (∀ (s : State) (n : Fin 6) (line : Bool), ∃ faults : BitVec 6,
    (∀ k : Fin 6, faults.getLsbD k.val = if k = n then line else s.pins.faults.getLsbD k.val)
    ∧ (let u : State := { s with pins := { s.pins with faults := faults } }
      let r : Pair := { s.pair n with lastLine := line }
      let cond := line = true ∨ s.thermal.escalation = true
      let cause : Option ProtectCause := some (if line = true then .line else .thermal)
      let gives (t : State) : Prop := s.pairPart n line = t
      let k := if cond then min 64 (r.asserted + 1) else 0
      let y : Pair := if r.state = .normal then { r with
          asserted := k, normalRun := min 60000 (r.normalRun + 1)
          used := if 59999 ≤ r.normalRun ∧ r.normalRun ≠ 60000 then 0 else r.used } else { r with asserted := k }
      let runs := r.state = .normal ∨ r.state = .softStart
      (runs → cond → r.detect ≤ k → gives (State.protectReport (State.mapPair
        (u.setPair n { y with state := .protect, cause := cause, asserted := 0, normalRun := 0 }) n Channel.protectNow) n))
      ∧ (runs → (¬ cond ∨ k < r.detect) → gives (u.setPair n y))
      ∧ (r.state = .protect → cond → gives (u.setPair n r))
      ∧ (r.state = .protect → ¬ cond → gives (u.setPair n { r with state := .recoverWait, clear := 500, asserted := 0 }))
      ∧ (r.state = .recoverWait → cond → gives (u.setPair n { r with state := .protect, clear := 0, cause := cause }))
      ∧ (r.state = .recoverWait → ¬ cond → 1 < r.clear → gives (u.setPair n { r with clear := r.clear - 1 }))
      ∧ (r.state = .recoverWait → ¬ cond → r.clear ≤ 1 → r.used < r.limit → gives (State.mapPair
          (u.setPair n { r with state := .softStart, used := r.used + 1, clear := 0, asserted := 0 }) n
          Channel.softStartNow))
      ∧ (r.state = .recoverWait → ¬ cond → r.clear ≤ 1 → r.limit ≤ r.used →
          gives ((u.setPair n { r with state := .lockout, clear := 0, asserted := 0 }).protectReport n))
      ∧ (r.state = .lockout → gives (u.setPair n r))))
  ∧ (∀ (s : State) (n : Fin 6),
    let both := ∀ c, c.val / 2 = n.val → (s.chan c).softStart = true ∧ (s.chan c).ramp = 0
    let v := s.mapPair n fun c => { c with softStart := false, softCount := 0 }
    (¬ both → s.softStartBlock n = s)
    ∧ (both → (s.pair n).state ≠ .softStart → s.softStartBlock n = v)
    ∧ (both → (s.pair n).state = .softStart →
        s.softStartBlock n = (v.setPair n { s.pair n with state := .normal, normalRun := 0 }).protectReport n))
  ∧ (∀ s : State,
    let u : State := { s with out := { s.out with meterPeriod := (s.out.meterPeriod + 1) % 100 } }
    let handed := (s.out.meterPeriod + 1) % 100 = 0 ∧ s.mirror.metersOn = true ∧ s.mirrorBase ≠ none
      ∧ s.mirror.job = none
    (handed → s.meterBlock = u.beginSection .meters true) ∧ (¬ handed → s.meterBlock = u))

/-- The mixer's signals. The layout is the speaker roles the applied roles hold (R111). A frame gives a role the sample
of its channel, else 0; a zone reads the frames of its attached path, filled with silence to 48, and 48 frames with every
role at 0 when it has none or the path has yielded none of a format (R110). With the matrix in effect (R112) the energies move toward the block's, at half or by
their fall shift, and the steering values follow (R114 to R116), and each frame leaves five signals (R117, R118); with
it not in effect the energies and steering values are 0. A destination takes its own signal and those of the roles
without a speaker that fall to it, saturated once (R119, R120), the LFE signal unscaled where no SW stands (R121). The
zone 2 downmix, the mono blocks (R122, R123) and the tap points (R124). Where R112 and R123 say the path's current
format, the model reads that of the frames the path has yielded in the block, which differs in a block of adoption or
binding (log 37). -/
def Obligations.MixerSignals : Prop :=
  (∀ (s : State) (r : Role), r ∈ s.layout ↔
    r ∈ [Role.fl, .fr, .c, .sw, .sl, .sr, .bl, .br, .tfl, .tfr, .tbl, .tbr] ∧ ∃ c, (s.chan c).applied.role = r)
  ∧ (∀ (roles : List Role) (f : Frame) (r : Role),
    r ∈ [Role.fl, .fr, .c, .lfe, .sl, .sr, .bl, .br, .tfl, .tfr, .tbl, .tbr] →
    (r ∉ roles → RoleFrame.get (roleFrame roles f) r = 0)
    ∧ (∀ i, roles[i]? = some r → (∀ j, j < i → roles[j]? ≠ some r) →
        RoleFrame.get (roleFrame roles f) r = f.getD i 0))
  ∧ (∀ (roles : List Role) (r : Role), RoleFrame.get (roleFrame roles []) r = 0)
  ∧ (∀ fs : List Frame, fillBlock fs = fs ++ List.replicate (48 - fs.length) [])
  ∧ (∀ x : PathRec,
    let silent (fs : List (List (Role × Sample))) : Prop := fs.length = 48 ∧ ∀ f ∈ fs, ∀ r, RoleFrame.get f r = 0
    (x.yieldFormat = none → silent x.roleFrames)
    ∧ (∀ g, x.yieldFormat = some g → x.roleFrames = (fillBlock x.yielded).map (roleFrame g.roles))
    ∧ ∀ (s : State) (z : Zone),
      ((s.zone z).attached = none → silent (s.zoneRoles z))
      ∧ ∀ p, (s.zone z).attached = some p → s.zoneRoles z = (s.path p).roleFrames)
  ∧ (∀ s : State,
    (s.zoneMain.decode = .direct ∨ ∀ p f, s.zoneMain.attached = some p → (s.path p).yieldFormat = some f →
        f.roles ≠ [.fl, .fr] ∧ f.roles ≠ [.fr, .fl]) →
    s.mixBlock = { s with mixer :=
      { eL := 0, eR := 0, eM := 0, eS := 0, fb := 0, lr := 0, matrix := false, layout := s.layout } })
  ∧ (∀ (s : State) (p : PathId) (f : Format), s.zoneMain.decode ≠ .direct → s.zoneMain.attached = some p →
    (s.path p).yieldFormat = some f → (f.roles = [.fl, .fr] ∨ f.roles = [.fr, .fl]) →
    let fs := (s.path p).roleFrames
    let energy (g : List (Role × Sample) → Int) : Nat := sumNat (fs.map fun x => (g x * g x).toNat / 2 ^ 24)
    let left (x : List (Role × Sample)) : Int := RoleFrame.get x .fl
    let right (x : List (Role × Sample)) : Int := RoleFrame.get x .fr
    let moved (e x : Nat) : Nat :=
      ((e : Int) + ((x : Int) - e) / (if e < x then 2 else if s.zoneMain.decode = .matrixMusic then 64 else 16)).toNat
    let steer (a b : Nat) : Int := if a + b = 0 then 0 else (((a : Int) - b) * 4096).tdiv (a + b)
    let eL := moved s.mixer.eL (energy left)
    let eR := moved s.mixer.eR (energy right)
    let eM := moved s.mixer.eM (energy fun x => (left x + right x) / 2)
    let eS := moved s.mixer.eS (energy fun x => (left x - right x) / 2)
    s.mixBlock = { s with mixer :=
      { eL := eL, eR := eR, eM := eM, eS := eS, fb := steer eM eS, lr := steer eL eR, matrix := true
        layout := s.layout } })
  ∧ (∀ s : State,
    (s.mixer.matrix = false → s.mainRoles = s.zoneRoles .main)
    ∧ (s.mixer.matrix = true → s.mainRoles = (s.zoneRoles .main).map fun f =>
        matrixFrame s.zoneMain.decode s.mixer.fb s.mixer.lr (RoleFrame.get f .fl) (RoleFrame.get f .fr))
    ∧ s.lfeFeed = s.mainRoles.map fun f => RoleFrame.get f .lfe)
  ∧ (∀ (mode : DecodeMode) (fb lr : Int) (l r : Sample),
    let gC := if mode = .matrixMusic then (max 0 fb).tdiv 2 else max 0 fb
    let gD := max 0 (-fb)
    let gS := gD + (4096 - |fb|) / 4
    let c := saturate (gC * ((l + r) / 2) / 4096)
    let d := saturate (gD * ((l - r) / 2) / 4096)
    let ss := saturate (gS * ((l - r) / 2) / 4096)
    matrixFrame mode fb lr l r
      = [(.fl, saturate (l - c - d)), (.fr, saturate (r - c + d)), (.c, c),
          (.sl, saturate (ss * (4096 + lr) / 8192)), (.sr, saturate (-(ss * (4096 - lr) / 8192)))])
  ∧ (∀ (L : List Role) (f : List (Role × Sample)), Role.lfe ∉ L →
    let x (r : Role) : Int := RoleFrame.get f r
    let h (r : Role) : Int := (x r * 5931642 + 4194304) / 8388608
    let out (r : Role) : Bool := decide (r ∉ L)
    let add (p : Bool) (v : Int) : Int := if p = true then v else 0
    (∀ r ∈ [Role.c, .bl, .br, .tbl, .tbr], r ∈ L → foldFrame L f r = saturate (x r))
    ∧ (.fl ∈ L → foldFrame L f .fl = saturate (x .fl + add (out .c) (h .c) + add (out .sl) (h .sl)
        + add (out .bl && out .sl) (h .bl) + add (out .tfl) (h .tfl)
        + add (out .tbl && out .tfl && out .sl) (h .tbl) + add (out .sw) (x .lfe)))
    ∧ (.fr ∈ L → foldFrame L f .fr = saturate (x .fr + add (out .c) (h .c) + add (out .sr) (h .sr)
        + add (out .br && out .sr) (h .br) + add (out .tfr) (h .tfr)
        + add (out .tbr && out .tfr && out .sr) (h .tbr) + add (out .sw) (x .lfe)))
    ∧ (.sl ∈ L → foldFrame L f .sl = saturate (x .sl + add (out .bl) (x .bl) + add (out .tbl && out .tfl) (h .tbl)))
    ∧ (.sr ∈ L → foldFrame L f .sr = saturate (x .sr + add (out .br) (x .br) + add (out .tbr && out .tfr) (h .tbr)))
    ∧ (.tfl ∈ L → foldFrame L f .tfl = saturate (x .tfl + add (out .tbl) (x .tbl)))
    ∧ (.tfr ∈ L → foldFrame L f .tfr = saturate (x .tfr + add (out .tbr) (x .tbr))))
  ∧ (∀ (s : State) (p : PathId),
    let h (v : Int) : Int := (v * 5931642 + 4194304) / 8388608
    let mono := ∃ f, (s.path p).yieldFormat = some f ∧ f.roles.length = 1
    let am := s.pathKind p = .tuner ∧ s.tuner.band = .am
    (mono → s.downmix p = (fillBlock (s.path p).yielded).map fun f =>
      (saturate (h (f.headD 0)), saturate (h (f.headD 0))))
    ∧ (¬ mono → am → s.downmix p = (s.path p).roleFrames.map fun f =>
        let v := saturate (h ((RoleFrame.get f .fl + RoleFrame.get f .fr) / 2))
        (v, v))
    ∧ (¬ mono → ¬ am → s.downmix p = (s.path p).roleFrames.map fun f =>
        let x (r : Role) : Int := RoleFrame.get f r
        (saturate (x .fl + h (x .c) + h (x .sl) + h (x .bl) + h (x .tfl) + h (x .tbl)),
          saturate (x .fr + h (x .c) + h (x .sr) + h (x .br) + h (x .tfr) + h (x .tbr))))
    ∧ (s.zoneMain.attached = some p → s.tapPoint .mainDownmix = s.downmix p)
    ∧ (s.zoneTwo.attached = some p → s.tapPoint .zone2Mix = s.downmix p)
    ∧ (s.tunerPath = some p → s.tapPoint .tuner
        = (s.path p).roleFrames.map fun f => (RoleFrame.get f .fl, RoleFrame.get f .fr)))
  ∧ (∀ s : State,
    (s.zoneMain.attached = none → s.tapPoint .mainDownmix = List.replicate 48 (0, 0))
    ∧ (s.zoneTwo.attached = none → s.tapPoint .zone2Mix = List.replicate 48 (0, 0))
    ∧ (s.tunerPath = none → s.tapPoint .tuner = List.replicate 48 (0, 0)))

/-- What a channel plays in a block (R162), from its entry signal: the destination signal, or for an SW channel the
subwoofer feed (R172). The signal passes the delay line (R170); its samples are scaled at the channel's gain index
(R174) by the mantissas of R175, or 0 at -240 and on a silent channel; the block peak and the meters read them before
saturation (R175, R180). The limiter reads the block peak: a fall by the least d that brings it to the ceiling level,
due at the next block (R178; when it acts is the model's reading, log 17), or a step of the release count (R179). An
output lane carries two channels in 64-bit frames (R163, R201). The crossover bands and the resampled frames are free
values (logs 6, 7). -/
def Obligations.ChannelSound : Prop :=
  (∀ (s : State) (c : Fin 12),
    let splits := (List.finRange 12).map s.bands
    let entry := if (s.chan c).applied.role = .sw then s.subFeed splits else (s.bands c).high
    getAt s.soundBlock.out.samples c = getAt (s.playChannel c entry (s.bands c).state).out.samples c
    ∧ s.soundBlock.chan c = (s.playChannel c entry (s.bands c).state).chan c)
  ∧ (∀ (s : State) (c : Fin 12),
    let r := s.chan c
    let split := Role.sw ∈ s.mixer.layout ∧ r.zone = some .main ∧ r.applied.size = .small ∧ r.applied.role ≠ .sw
    (¬ split → s.bands c = { high := s.destination c, low := [], state := r.crossover })
    ∧ (r.applied.role = .z2l → s.destination c = (s.zoneDownmix .zone2).map Prod.fst)
    ∧ (r.applied.role = .z2r → s.destination c = (s.zoneDownmix .zone2).map Prod.snd)
    ∧ (r.applied.role = .unused → s.destination c = List.replicate 48 0)
    ∧ (r.applied.role ∈ [Role.fl, .fr, .c, .sl, .sr, .bl, .br, .tfl, .tfr, .tbl, .tbr] →
        s.destination c = s.mainRoles.map fun f => foldFrame s.mixer.layout f r.applied.role))
  ∧ (∀ (s : State) (splits : List Split),
    s.subFeed splits = (List.range 48).map fun j =>
      saturate (sumInt (splits.map fun x => x.low.getD j 0) + (s.lfeFeed.getD j 0 * 6658043 + 1048576) / 2097152))
  ∧ (∀ (s : State) (c : Fin 12),
    let r := s.chan c
    (r.zone = none → s.gainIndex c = -240)
    ∧ (∀ z trim, r.zone = some z →
        (trim = match (s.zone z).attached with
          | none => 0
          | some p => match (s.path p).binding with
            | none => 0
            | some e => (s.source e).trim) →
        s.gainIndex c
          = max (-240) (min 24
              ((s.zone z).masterCurrent + r.trim + trim + (s.zone z).ramp + r.ramp + r.lr + s.thermal.t)))
    ∧ (s.chanSilent c = true ↔
        r.zone = none ∨ (∃ z, r.zone = some z ∧ ((s.zone z).power = .standby ∨ (s.zone z).ramp = -240))
        ∨ (s.pair (pairOf c)).state ∈ [PairState.protect, .recoverWait, .lockout] ∨ r.ramp = -240))
  ∧ (∀ (n q : Int) (k : Nat) (x : Int), -240 ≤ n → n ≤ 24 → k ≤ 11 → n = 12 * q - k →
    let table : List Int := [8388608, 7917792, 7473400, 7053950, 6658043, 6284355, 5931642, 5598724, 5284492, 4987896,
      4707947, 4443710]
    gainScale n x = (x * table.getD k 0 + 2 ^ ((23 - q).toNat - 1)) / 2 ^ (23 - q).toNat)
  ∧ (∀ (s : State) (c : Fin 12) (xs : List Sample) (st : CrossoverState),
    let r := s.chan c
    let n := s.gainIndex c
    let all := r.line ++ xs
    let scaled (x : Int) : Int := if r.applied.polarity = .normal then gainScale n x else -(gainScale n x)
    let ys := if n = -240 ∨ s.chanSilent c = true then [] else (all.take xs.length).map scaled
    let t := s.playChannel c xs st
    getAt t.out.samples c = (if ys = [] then List.replicate 48 0 else ys.map saturate)
    ∧ t.chan c = { r with
        line := all.drop xs.length, crossover := st, blockPeak := peakOf ys, heldPeak := max r.heldPeak (peakOf ys)
        heldClip := r.heldClip || ys.any fun y => decide (saturate y ≠ y), heldBlocks := min 65535 (r.heldBlocks + 1) }
    ∧ ∀ d, d ≠ c → t.chan d = s.chan d ∧ getAt t.out.samples d = getAt s.out.samples d)
  ∧ (∀ ys : List Int, (∀ y ∈ ys, y.natAbs ≤ peakOf ys) ∧ (peakOf ys = 0 ∨ ∃ y ∈ ys, peakOf ys = y.natAbs))
  ∧ (∀ d peak : Nat, d ≤ 24 → peak ≤ 33554432 →
    let level := levelAt d
    (level : Int) = gainScale (-(d : Int)) 8388607
    ∧ (level < peak →
        let n := limiterFall peak level
        1 ≤ n ∧ gainScale (-(n : Int)) peak ≤ level
        ∧ ∀ m : Nat, 1 ≤ m → m < n → (level : Int) < gainScale (-(m : Int)) peak))
  ∧ (∀ (s : State) (c : Fin 12),
    let r := s.chan c
    (r.zone = none → s.limitPart c = s)
    ∧ (∀ z, r.zone = some z →
        let level := levelAt (s.zone z).ceiling
        (level < r.blockPeak →
          s.limitPart c = s.setChan c { r with lrDue := limiterFall r.blockPeak level, release := 0 })
        ∧ (r.blockPeak ≤ level → r.release = 15 →
          s.limitPart c = s.setChan c { r with release := 0, lr := if r.lr < 0 then r.lr + 1 else r.lr })
        ∧ (r.blockPeak ≤ level → r.release ≠ 15 →
          s.limitPart c = s.setChan c { r with release := r.release + 1 })))
  ∧ (∀ r : Channel, (r.lrDue = 0 → r.applyDue = r)
    ∧ (r.lrDue ≠ 0 → r.applyDue = { r with lr := max (r.lr - r.lrDue) (-48), lrDue := 0, release := 0 }))
  ∧ (∀ a b : Sample, -8388608 ≤ a → a ≤ 8388607 → -8388608 ≤ b → b ≤ 8388607 →
    ((laneWord a b).extractLsb' 32 32).toInt = a ∧ ((laneWord a b).extractLsb' 0 32).toInt = b)
  ∧ (∀ (o : OutputUnit) (n : Fin 6) (j : Nat) (a b : Sample),
    (getAt o.samples ⟨2 * n.val, by omega⟩)[j]? = some a → (getAt o.samples ⟨2 * n.val + 1, by omega⟩)[j]? = some b →
    (o.laneFrames n)[j]? = some (laneWord a b))

/-! ## The part's own steps: zones -/

/-- The six events of a zone (R76, R77, R81 to R83, R86, R87), each a step of its own in its block: the parts of the
block before the zone's are made, and the zone's with it, and marked (the model's choice, log 2). The levels move as at
any block; then the event acts, its report stamped as that block's. That the minute counter and the wait count are 0
after a power-down is log 49; that the switch goes before the sleep countdown is log 50. -/
def Obligations.ZoneEvents : Prop :=
  ∀ (s : State) (z : Zone), BlockPart.zone z ∉ s.taken →
    let b := s.tunerMade
    let r := b.zone z
    let m := { r with
      masterCurrent := moveToward r.masterTarget 2 r.masterCurrent
      ramp := moveToward (b.rampTarget z) r.rampRate r.ramp }
    let done (c : Instr) (u : State) : Prop := exec c s = .next { u with taken := .zone z :: u.taken }
    let awake := r.power = .on ∧ (r.sleep = 0 ∨ 1 < r.minute)
    let m1 := if r.sleep = 0 then m else { m with minute := r.minute - 1 }
    (∀ p e, awake → r.switch = .fadeOut → m.ramp = -240 → r.target = some e → r.attached = some p →
        b.boundPath e = some p → (b.pathReady p = false ∨ (b.path p).formatPending = true) →
        done (.fadeOutEnd z) (b.setZone z { m1 with switch := .waitReady, waitCount := 0 }))
    ∧ (∀ e, awake → r.switch = .fadeOut → m.ramp = -240 → r.target = some e →
        ∃ t, exec (.fadeOutEnd z) s = .next t ∧ (t.zone z).switch ≠ .fadeOut ∧ (t.zone z).ramp = -240
          ∧ (t.zone z).waitCount = 0 ∧ ∃ p, (t.zone z).attached = some p ∧ (t.path p).binding = some e)
    ∧ (∀ p, awake → r.switch = .waitReady → r.attached = some p → b.pathReady p = true →
        (b.path p).formatPending = false → r.mute = false →
        done (.waitReadyEnd z) (b.setZone z { m1 with switch := .fadeIn }))
    ∧ (∀ p, awake → r.switch = .waitReady → r.attached = some p → b.pathReady p = true →
        (b.path p).formatPending = false → r.mute = true →
        ∃ t, exec (.waitReadyEnd z) s = .next t ∧ (t.zone z).switch = .idle ∧ (t.zone z).target = none
          ∧ (t.zone z).tag = none ∧ (t.zone z).waitCount = 0 ∧ (t.zone z).attached = some p)
    ∧ (awake → r.switch = .waitReady → r.waitCount = 1999 →
        (∀ p, r.attached = some p → b.pathReady p = false ∨ (b.path p).formatPending = true) → r.sleep = 0 →
        done (.sourceAbsent z) ((b.setZone z { m with waitCount := 2000 }).raise .sourceAbsent z.code
          [BitVec.ofNat 8 z.code, optByte (r.target.map (·.val)),
            BitVec.ofNat 8 (match r.target with
              | some e => (b.source e).kind.code
              | none => 0)]))
    ∧ (∀ tag, r.power = .on → r.sleep = 0 → r.switch = .fadeIn → (m.ramp = 0 ∨ r.mute = true) → r.tag = some tag →
        done (.switchComplete z)
          (((b.setZone z { m with switch := .idle, waitCount := 0, target := none, tag := none }).zoneReport
              z).raiseDone (some tag)
            [BitVec.ofNat 8 CmdResult.ok.code, BitVec.ofNat 8 Operation.switch.code, BitVec.ofNat 8 z.code, 0,
              optByte (r.target.map (·.val)), optByte (r.attached.map PathId.code)]))
    ∧ (r.power = .on → r.sleep = 0 → r.switch = .fadeIn → (m.ramp = 0 ∨ r.mute = true) → r.tag = none →
        done (.switchComplete z)
          ((b.setZone z { m with switch := .idle, waitCount := 0, target := none, tag := none }).zoneReport z))
    ∧ (r.power = .goingStandby → r.switch = .idle → m.ramp = -240 → r.attached = none →
        done (.goingStandbyEnd z) ((b.setZone z { m with power := .standby }).zoneReport z))
    ∧ (∀ p, r.power = .goingStandby → r.switch = .idle → m.ramp = -240 → r.attached = some p →
        ∃ t, exec (.goingStandbyEnd z) s = .next t ∧ (t.zone z).power = .standby ∧ (t.zone z).attached = none
          ∧ (t.zone z).ramp = -240 ∧ (t.zone z).selection = r.selection ∧ (t.zone z).mute = r.mute
          ∧ (t.zone z).masterTarget = r.masterTarget ∧ ((t.zone z.other).attached ≠ some p → t.path p = PathRec.free))
    ∧ (r.power = .on → r.switch = .idle → 1 < r.sleep → r.minute ≤ 1 →
        done (.sleepMinute z) (b.setZone z { m with minute := 60000, sleep := r.sleep - 1 }))
    ∧ (r.power = .on → r.sleep = 1 → r.minute ≤ 1 →
        ∃ t, exec (.sleepMinute z) s = .next t ∧ (t.zone z).power ≠ .on ∧ (t.zone z).sleep = 0
          ∧ (t.zone z).minute = 0 ∧ (t.zone z).switch = .idle ∧ (t.zone z).target = none)
    ∧ (r.power = .on → r.switch = .idle → r.sleep = 1 → r.minute ≤ 1 → m.ramp ≠ -240 →
        done (.sleepMinute z)
          (((b.setZone z { m with
              sleep := 0, minute := 0, power := .goingStandby, target := none, tag := none
              waitCount := 0 }).zoneReport z).raise .sleepExpired z.code [BitVec.ofNat 8 z.code]))

/-! ## The part's own steps: paths -/

/-- The loop of a block (R97), its consumption (R98), and the steps of a path's tracker at its events (R93, R99, R100,
R102, R105, R106), each a step of its own in its block: the lanes' parts are made before it, and the path's with it,
and marked (the model's choice, log 2). The nominal step and its limit by the rate (R96). Consumption takes N =
floor((F + 48 x step) / 2^24) frames; a block that runs short fills with silence and adopts a pending format, drains in
HOLD, or is an underrun (R103), which reports the values of the last computed block (R108; which blocks count is log
20). PREFILL_EXIT and SLIP speak of a tracker in the bounds of StepKeepsTrackerBounds with three frames for each output
frame in the FIFO (R98), so that the block does not run short; GAIN_CHECK and ACQUIRE_LOCK (R100) of one with the N
frames that its block takes, at a timer about to reach a checkpoint with |e| within W, or about to reach 0; at another
timer, or with |e| above W at a checkpoint, the row changes nothing. HOLD keeps g as it stands (log 55). The model's
readings: HOLD_EXIT leaves PREFILL and a silent block, its exit tested from the next block on, and FORMAT_ADOPTION by
silence likewise (log 23); the slip test comes before the consumption (log 53). B and the presence of a source stand in
PathAndLaneParts. -/
def Obligations.PathEvents : Prop :=
  (∀ (t : Tracker) (kp ki n c : Nat), t.step0 = some n → t.cmax = some c →
    let integ := max (-8388608) (min 8388607 (t.integ + t.err * (ki * 2 ^ t.gain : Nat)))
    let corr := max (-(c : Int)) (min c ((t.err * (kp * 2 ^ t.gain : Nat) + integ) / 16))
    t.loop kp ki = { t with
      integ := integ, corr := corr, step := some ((n : Int) + corr).toNat
      last := { t.last with c := corr, g := t.gain, i := integ } })
  ∧ (∀ (s : State) (p : PathId) (m : Nat),
    let r := s.path p
    let x := r.tracker
    let total := x.phase + 48 * m
    x.step = some m → x.phase < 2 ^ 24 → m < 3 * 2 ^ 24 →
    (total / 2 ^ 24 ≤ r.fifo.length → ∃ q : PathRec, s.consumeBlock p = s.setPath p q ∧ q.yielded.length = 48
      ∧ q = { r with
        fifo := r.fifo.drop (total / 2 ^ 24), history := q.history, yielded := q.yielded, yieldFormat := r.format
        tracker := { x with
          phase := total % 2 ^ 24
          overrun := x.overrun && decide (2048 ≤ r.fifo.length - total / 2 ^ 24) } })
    ∧ (r.fifo.length < total / 2 ^ 24 → ∃ (q : PathRec) (k : Nat), k < 48
      ∧ (x.phase + k * m) / 2 ^ 24 ≤ r.fifo.length ∧ r.fifo.length < (x.phase + (k + 1) * m) / 2 ^ 24
      ∧ q.yielded.length = 48 ∧ q.yielded.drop k = List.replicate (48 - k) []
      ∧ q = { r with
        fifo := [], history := q.history, yielded := q.yielded, yieldFormat := r.format
        tracker := { x with phase := q.tracker.phase, overrun := false } }
      ∧ (r.formatPending = true → s.consumeBlock p = (s.setPath p q).adoptFormat p)
      ∧ (r.formatPending = false → x.state = .hold → s.consumeBlock p = s.setPath p { q with drained := true })
      ∧ (r.formatPending = false → x.state ≠ .hold →
        s.consumeBlock p = (s.setPath p { q with
            history := [], drained := false
            tracker := { q.tracker with
              state := .prefill, integ := 0, phase := 0, corr := 0, gain := 0, slips := 0, ratchet := false, timer := 0
              step := x.step0 } }).raise .tracker p.code
          ([BitVec.ofNat 8 p.code, optByte (r.binding.map fun i => i.val), 2, 1]
            ++ leBytes 2 x.last.b ++ leBytesInt 2 x.last.e ++ leBytesInt 4 x.last.c ++ leBytesInt 4 x.last.i
            ++ [BitVec.ofNat 8 x.last.g]))))
  ∧ (∀ (s : State) (p : PathId) (f : Format), BlockPart.path p ∉ s.taken →
    let b := s.lanesMade
    (b.path p).binding ≠ none → (b.path p).formatPending = true → b.attachedSilent p = true →
    (b.path p).held = some f →
    ∃ t, exec (.formatAdoption p) s = .next t ∧ (t.path p).format = some f ∧ (t.path p).fifo = []
      ∧ (t.path p).formatPending = false ∧ (t.path p).held = none ∧ (t.path p).tracker.state = .prefill
      ∧ (t.path p).tracker.step0 = some (nominalStep f.rate)
      ∧ (t.path p).tracker.cmax = some (nominalStep f.rate / 512))
  ∧ (∀ (s : State) (p : PathId) (e : Fin 12), BlockPart.path p ∉ s.taken →
    let b := s.lanesMade
    (b.path p).binding = some e →
    let u := (b.countHandover p).takeB p
    let x := (b.path p).tracker
    let err := max (-1024) (min 1023 ((u.buffered p : Int) - (u.fillTarget p : Int)))
    let silent := (b.path p).formatPending = true ∧ b.attachedSilent p = true
    let src := b.source e
    let integ (g : Nat) : Int := max (-8388608) (min 8388607 (x.integ + err * (src.ki * 2 ^ g : Nat)))
    let corr (g c : Nat) : Int := max (-(c : Int)) (min c ((err * (src.kp * 2 ^ g : Nat) + integ g) / 16))
    (x.state = .prefill → ¬ silent → u.present p = true → (b.path p).format ≠ none → src.kind = .tuner →
        u.fillTarget p ≤ u.buffered p → 48 ≤ (b.path p).fifo.length →
      ∃ t, exec (.prefillExit p) s = .next t ∧ (t.path p).tracker.state = .sync
        ∧ (t.path p).tracker.step = some (2 ^ 24) ∧ (t.path p).tracker.corr = 0 ∧ (t.path p).tracker.gain = 0
        ∧ (t.path p).tracker.integ = 0 ∧ (t.path p).tracker.phase = 0
        ∧ (t.path p).fifo = (b.path p).fifo.drop 48)
    ∧ (∀ n c, x.state = .prefill → ¬ silent → u.present p = true → (b.path p).format ≠ none → src.kind ≠ .tuner →
        u.fillTarget p ≤ u.buffered p → x.BoundsOk → x.step0 = some n → x.cmax = some c →
        144 ≤ (b.path p).fifo.length →
      ∃ t, exec (.prefillExit p) s = .next t ∧ (t.path p).tracker.state = .acquire
        ∧ (t.path p).tracker.timer = 255 ∧ (t.path p).tracker.gain = src.gainG
        ∧ ((t.path p).tracker.ratchet = true ↔ src.gainG ≤ src.ratchetH) ∧ (t.path p).tracker.err = err
        ∧ (t.path p).tracker.integ = integ src.gainG ∧ (t.path p).tracker.corr = corr src.gainG c
        ∧ (t.path p).tracker.step = some ((n : Int) + corr src.gainG c).toNat)
    ∧ (∀ n c, x.state = .acquire → ¬ silent → u.present p = true → x.BoundsOk → x.step0 = some n → x.cmax = some c →
        let m := ((n : Int) + corr x.gain c).toNat
        let total := x.phase + 48 * m
        total / 2 ^ 24 ≤ (b.path p).fifo.length →
        let ran (t : State) : Prop := (t.path p).tracker.err = err ∧ (t.path p).tracker.integ = integ x.gain
          ∧ (t.path p).tracker.corr = corr x.gain c ∧ (t.path p).tracker.step = some m
          ∧ (t.path p).tracker.phase = total % 2 ^ 24 ∧ (t.path p).fifo = (b.path p).fifo.drop (total / 2 ^ 24)
        (x.timer ∈ [225, 193, 161, 129, 97, 65, 33] → err.natAbs ≤ src.lockW →
          ∃ t, exec (.gainCheck p) s = .next t ∧ ran t ∧ (t.path p).tracker.state = .acquire
            ∧ (t.path p).tracker.timer = x.timer - 1 ∧ (t.path p).tracker.gain = x.gain - 1
            ∧ ((t.path p).tracker.ratchet = true ↔ x.ratchet = true ∨ x.gain - 1 ≤ src.ratchetH))
        ∧ (x.timer ≤ 1 →
          ∃ t, exec (.acquireLock p) s = .next t ∧ ran t ∧ (t.path p).tracker.state = .track
            ∧ (t.path p).tracker.gain = 0 ∧ (t.path p).tracker.ratchet = true ∧ (t.path p).tracker.slips = 0
            ∧ (t.path p).tracker.timer = 0))
    ∧ (((b.path p).formatPending = true → (b.path p).held ≠ none) →
        (x.state ≠ .acquire ∨ x.timer ∉ [225, 193, 161, 129, 97, 65, 33] ∨ src.lockW < err.natAbs) →
        exec (.gainCheck p) s = .next s)
    ∧ ((x.state ≠ .acquire ∨ 1 < x.timer) → exec (.acquireLock p) s = .next s)
    ∧ (∀ n c, x.state = .track → ¬ silent → u.present p = true → 15 ≤ x.slips → 4 * src.lockW < err.natAbs →
        x.BoundsOk → x.step0 = some n → x.cmax = some c → 144 ≤ (b.path p).fifo.length →
      ∃ t, exec (.slip p) s = .next t ∧ (t.path p).tracker.state = .acquire
        ∧ (t.path p).tracker.timer = 256 ∧ (t.path p).tracker.ratchet = true
        ∧ (t.path p).tracker.gain = src.ratchetH ∧ (t.path p).tracker.slips = 0
        ∧ (t.path p).tracker.integ = integ x.gain ∧ (t.path p).tracker.corr = corr x.gain c
        ∧ (t.path p).tracker.step = some ((n : Int) + corr x.gain c).toNat)
    ∧ ((x.state = .acquire ∨ x.state = .track ∨ x.state = .sync) → (b.path p).formatPending = false →
        u.present p = false →
      ∃ t, exec (.holdEntry p) s = .next t ∧ (t.path p).tracker.state = .hold
        ∧ (t.path p).tracker.integ = x.integ ∧ (t.path p).tracker.corr = x.corr
        ∧ (t.path p).tracker.step = x.step ∧ (t.path p).tracker.gain = x.gain)
    ∧ (x.state = .hold → ¬ silent → u.present p = true →
      ∃ t, exec (.holdExit p) s = .next t ∧ (t.path p).tracker.state = .prefill ∧ (t.path p).tracker.integ = 0
        ∧ (t.path p).tracker.phase = 0 ∧ (t.path p).tracker.corr = 0 ∧ (t.path p).tracker.gain = 0
        ∧ (t.path p).tracker.ratchet = false ∧ (t.path p).tracker.timer = 0
        ∧ (t.path p).fifo = (b.path p).fifo ∧ (t.path p).yielded = List.replicate 48 []))
  ∧ (∀ r : Rate, nominalStep r = (2 * r.hz * 2 ^ 24 + 48000) / 96000
    ∧ (r.hz, nominalStep r, nominalStep r / 512) = (match r with
      | .r32000 => (32000, 11184811, 21845)
      | .r44100 => (44100, 15414067, 30105)
      | .r48000 => (48000, 16777216, 32768)
      | .r88200 => (88200, 30828134, 60211)
      | .r96000 => (96000, 33554432, 65536)))

/-! ## The part's own steps: channels -/

/-- CHANGE_GROUP_APPLY (R166, R167), SOFT_START_COUNT (R176), SOFT_START_END (R177, R188), LIMITER_RELEASE (R179) and
METER_PERIOD_END (R181), each on the block as the stages before its unit leave it, which the row makes, and the lines
as last seen at METER_PERIOD_END (the model's choices, log 2). A change group that applies gives every channel of it
its target settings, and no other channel; the delay line is zeros when the total delay or the role changed, the
crossover starts afresh when the role or the size did. A fall of Lr is due at the next block (log 17), the held meter
values are handed over at the end of the period (log 21), and a soft-start count stands still at r_ch 0 (log 57). -/
def Obligations.ChannelEvents : Prop :=
  (∀ (s : State) (c : Fin 12) (lines : Lines),
    let b := s.startsMade lines.faults lines.therm
    ((b.chan c).group = none → exec (.changeGroupApply ⟨c, lines⟩) s = .next s)
    ∧ (∀ g, (b.chan c).group = some g →
        (b.groupSilent g = true → exec (.changeGroupApply ⟨c, lines⟩) s = .next (b.applyGroup g))
        ∧ (b.groupSilent g = false → exec (.changeGroupApply ⟨c, lines⟩) s = .next s)))
  ∧ (∀ (s : State) (c : Fin 12),
    let r := s.chan c
    let av := match roleZone r.target.role with
      | none => 0
      | some z => (s.zone z).avDelay
    let before := if r.applied.role = .unused then 0 else r.applied.delay + r.appliedAv
    let after := if r.target.role = .unused then 0 else r.target.delay + av
    s.applyChannel c = s.setChan c { r with
      applied := r.target, appliedAv := av, pend := none, group := none, ramp := -240, reconfig := false
      line := if after = before ∧ r.target.role = r.applied.role then r.line else List.replicate after 0
      crossover := if r.target.role = r.applied.role ∧ r.target.size = r.applied.size then r.crossover
        else { inputs := [], lows := [], highs := [] } })
  ∧ (∀ (s : State) (g c : Fin 12),
    let r := s.chan c
    let t := s.applyGroup g
    (r.group ≠ some g → t.chan c = r)
    ∧ (r.group = some g → t.chan c = (s.applyChannel c).chan c ∧ (t.chan c).applied = r.target
        ∧ (t.chan c).pend = none ∧ (t.chan c).group = none ∧ (t.chan c).ramp = -240 ∧ (t.chan c).reconfig = false))
  ∧ (∀ (s : State) (c : Fin 12) (therm : Bool), BlockPart.ramp c ∉ s.taken →
    let b := s.thermalMade therm
    let r := b.chan c
    (r.softStart = true → r.reconfig = false → r.protect = false → r.ramp < 0 → r.softCount = 3 →
      b.thermal.lastLine = false →
      exec (.softStartCount c therm) s
        = .next { b.setChan c { r with softCount := 0, ramp := r.ramp + 1 } with taken := .ramp c :: b.taken })
    ∧ ((r.softStart = false ∨ r.softCount ≠ 3 ∨ b.thermal.lastLine = true) →
      exec (.softStartCount c therm) s = .next s))
  ∧ (∀ (s : State) (n : Fin 6) (therm : Bool),
    let b := s.rampsMade therm
    let both := ∀ c, c.val / 2 = n.val → (b.chan c).softStart = true ∧ (b.chan c).ramp = 0
    let clear := b.mapPair n fun c => { c with softStart := false, softCount := 0 }
    (both → (b.pair n).state = .softStart →
      exec (.softStartEnd ⟨n, therm⟩) s
        = .next ((clear.setPair n { b.pair n with state := .normal, normalRun := 0 }).protectReport n))
    ∧ (both → (b.pair n).state ≠ .softStart → exec (.softStartEnd ⟨n, therm⟩) s = .next clear)
    ∧ (¬ both → exec (.softStartEnd ⟨n, therm⟩) s = .next s))
  ∧ (∀ (s : State) (c : Fin 12) (lines : Lines), BlockPart.limiter c ∉ s.taken →
    let b := s.soundMade lines.faults lines.therm
    let r := b.chan c
    (∀ z, r.zone = some z → r.blockPeak ≤ levelAt (b.zone z).ceiling → r.release = 15 →
      exec (.limiterRelease c lines) s
        = .next { b.setChan c { r with release := 0, lr := if r.lr < 0 then r.lr + 1 else r.lr } with
            taken := .limiter c :: b.taken })
    ∧ ((r.release ≠ 15 ∨ ∀ z, r.zone = some z → levelAt (b.zone z).ceiling < r.blockPeak) →
      exec (.limiterRelease c lines) s = .next s))
  ∧ (∀ s : State, BlockPart.meters ∉ s.taken →
    let b := s.tapMade s.pins.faults s.pins.therm
    let u := { b with out := { b.out with meterPeriod := 0 } }
    (b.out.meterPeriod ≠ 99 → exec .meterPeriodEnd s = .next s)
    ∧ (b.out.meterPeriod = 99 → (b.mirror.metersOn = false ∨ b.mirrorBase = none ∨ b.mirror.job ≠ none) →
      exec .meterPeriodEnd s = .next { u with taken := .meters :: b.taken })
    ∧ (b.out.meterPeriod = 99 → b.mirror.metersOn = true → b.mirrorBase ≠ none → b.mirror.job = none →
      ∃ t, exec .meterPeriodEnd s = .next t ∧ t.out.meterPeriod = 0
        ∧ (∀ c, (t.chan c).heldPeak = 0 ∧ (t.chan c).heldClip = false ∧ (t.chan c).heldBlocks = 0)
        ∧ getAt t.mirror.counts 0 = getAt b.mirror.counts 0 + 1 ∧ t.taken = .meters :: b.taken))

/-! ## The part's own steps: protection -/

/-- PROTECT_ENTRY (R185), RECOVER_WAIT_EXPIRY (R187), NORMAL_RUN_EXPIRY (R189), THERMAL_WARNING_SET, THERMAL_CLEAR
(R193, R194), ESCALATION_SET (R194) and THERMAL_STEP (R193), each a step of its own in its block, on the block as the
stages before its unit leave it, which the row makes (the model's choice, logs 2 and 3). Retries used stands at an
entry to PROTECT (R185), but that a normal run which ends at the same block is counted first is the model's choice (log
58). -/
def Obligations.ProtectionEvents : Prop :=
  (∀ (s : State) (n : Fin 6) (line therm : Bool), BlockPart.pair n ∉ s.taken →
    let b := s.rampsMade therm
    let r := b.pair n
    let cond := line = true ∨ b.thermal.escalation = true
    ((r.state = .normal ∨ r.state = .softStart) → cond → r.detect ≤ min 64 (r.asserted + 1) →
      ∃ t, exec (.protectEntry n line therm) s = .next t ∧ (t.pair n).state = .protect
        ∧ (t.pair n).cause = some (if line = true then .line else .thermal) ∧ (t.pair n).asserted = 0
        ∧ (t.pair n).normalRun = 0 ∧ (t.pair n).lastLine = line
        ∧ ((r.state = .softStart ∨ r.normalRun < 59999) → (t.pair n).used = r.used)
        ∧ (r.state = .normal → r.normalRun = 59999 → (t.pair n).used = 0)
        ∧ (∀ c, c.val / 2 = n.val → (t.chan c).ramp = -240 ∧ (t.chan c).protect = true
            ∧ (t.chan c).softStart = false ∧ (t.chan c).softCount = 0)
        ∧ (∀ c, c.val / 2 ≠ n.val → t.chan c = b.chan c) ∧ (∀ m, m ≠ n → t.pair m = b.pair m))
    ∧ (r.state = .recoverWait → ¬ cond → r.clear ≤ 1 → r.used < r.limit →
      ∃ t, exec (.recoverWaitExpiry n line therm) s = .next t
        ∧ t.pair n = { r with state := .softStart, used := r.used + 1, clear := 0, asserted := 0, lastLine := line }
        ∧ (∀ c, c.val / 2 = n.val → (t.chan c).protect = false ∧ (t.chan c).softStart = true
            ∧ (t.chan c).softCount = 0)
        ∧ (∀ m, m ≠ n → t.pair m = b.pair m))
    ∧ (r.state = .recoverWait → ¬ cond → r.clear ≤ 1 → r.limit ≤ r.used →
      ∃ t, exec (.recoverWaitExpiry n line therm) s = .next t
        ∧ t.pair n = { r with state := .lockout, clear := 0, asserted := 0, lastLine := line }
        ∧ (∀ m, m ≠ n → t.pair m = b.pair m))
    ∧ (r.state = .normal → ¬ cond → r.normalRun = 59999 →
      ∃ t, exec (.normalRunExpiry n line therm) s = .next t
        ∧ t.pair n = { r with normalRun := 60000, used := 0, asserted := 0, lastLine := line }
        ∧ (∀ m, m ≠ n → t.pair m = b.pair m)))
  ∧ (∀ s : State, BlockPart.thermal ∉ s.taken →
    let b := s.zonesMade
    let r := b.thermal
    let same (t : State) : Prop := t.pairs = b.pairs ∧ t.out = b.out ∧ t.zoneMain = b.zoneMain
      ∧ t.zoneTwo = b.zoneTwo ∧ t.tuner = b.tuner ∧ t.taken = .thermal :: b.taken
    (r.assertedRun = 99 → r.warning = false → r.tTarget = 0 →
      ∃ t, exec .thermalWarningSet s = .next t ∧ t.thermal.warning = true ∧ t.thermal.tTarget = -12
        ∧ t.thermal.tTimer = 0 ∧ t.thermal.assertedRun = 100 ∧ t.thermal.deassertedRun = 0
        ∧ t.thermal.escalation = r.escalation ∧ same t)
    ∧ (r.deassertedRun = 5999 → r.warning = true →
      ∃ t, exec .thermalClear s = .next t ∧ t.thermal.warning = false ∧ t.thermal.escalation = false
        ∧ t.thermal.tTarget = 0 ∧ t.thermal.assertedRun = 0 ∧ t.thermal.deassertedRun = 6000 ∧ same t)
    ∧ (r.assertedRun = 29999 → r.escalation = false →
      ∃ t, exec .escalationSet s = .next t ∧ t.thermal.escalation = true ∧ t.thermal.assertedRun = 30000
        ∧ t.thermal.warning = r.warning ∧ same t)
    ∧ (∀ therm, r.t ≠ r.tTarget → r.tTimer = 7 →
      ∃ t, exec (.thermalStep therm) s = .next t ∧ t.thermal.tTimer = 0
        ∧ t.thermal.t = (if r.tTarget < r.t then r.t - 1 else r.t + 1) ∧ same t))

/-! ## The part's own steps: the front end -/

/-- FE_ACKNOWLEDGEMENT (R127, R128, R201): ignored with no transaction open or for another request; otherwise the
transaction completes and the request that waits is sent. The bytes of a request on the control line (R201).
FE_STATUS_RECORD and FE_BURST (R129, R201): a short burst is no burst in any state, and its record counts as not
arrived, while one that comes with no burst at all counts as arrived (the model's reading, log 31); a settled record ends a tune, as TunesAndSearchesEnd states. PILOT_CAPTURE and PILOT_TIMEOUT (R140, R141):
in-window counts of 640 to 653 build toward PRESENT at 16, misses toward ABSENT at 4, and a change of the pilot is
reported. That the row carries a tick count, and that the timeout is a capture of 1000, is the model's form (log 24);
that the counter runs between a dwell and the next point is its reading (log 19). -/
def Obligations.FrontEndArrivals : Prop :=
  (∀ (s : State) (request identity : Byte),
    let t := s.tuner
    let leaves (x : Tuner) : Prop := exec (.feAcknowledgement request identity) s = .next { s with tuner := x }
    (t.openTx = none → leaves t)
    ∧ (∀ x, t.openTx = some x →
        (∀ b f, x.request = .setTune b f → request ≠ 2 → leaves t)
        ∧ (x.request = .identify → request ≠ 1 → leaves t)
        ∧ (x.request = .identify → request = 1 → t.waiting = none →
            leaves { t with openTx := none, identified := true, identity := identity })
        ∧ (∀ b f, x.request = .identify → request = 1 → t.waiting = some (b, f) →
            leaves { t with
              identified := true, identity := identity, waiting := none, ctlSent := some (.setTune b f)
              openTx := some { request := .setTune b f, timer := 2, retried := false } })
        ∧ (∀ b f c g, x.request = .setTune b f → request = 2 → t.waiting = some (c, g) →
            leaves { t with
              waiting := none, ctlSent := some (.setTune c g)
              openTx := some { request := .setTune c g, timer := 2, retried := false } })
        ∧ (∀ b f, x.request = .setTune b f → request = 2 → t.waiting = none →
            leaves (if t.phase = .sending then { t with openTx := none, phase := .settling, settleCount := 0 }
              else { t with openTx := none }))))
  ∧ (∀ (s : State) (settled : Bool) (level : BitVec 7) (offset : BitVec 8),
    let put (u : Tuner) : Tuner := { u with level := level.toNat, offset := offset.toInt, statusArrived := true }
    (s.tuner.burst = .short → exec (.feStatusRecord settled level offset) s = .next s)
    ∧ (s.tuner.burst ≠ .short → (settled = false ∨ s.tuner.phase ≠ .settling) →
        exec (.feStatusRecord settled level offset) s = .next { s with tuner := put s.tuner })
    ∧ (s.tuner.burst ≠ .short → settled = true → s.tuner.phase = .settling → s.tuner.state ≠ .tuning →
        exec (.feStatusRecord settled level offset) s
          = .next { s with tuner := { put s.tuner with phase := .dwell, dwell := Dwell.start } })
    ∧ (s.tuner.burst ≠ .short → settled = true → s.tuner.phase = .settling → s.tuner.state = .tuning →
        exec (.feStatusRecord settled level offset) s = .next (State.endTune { s with tuner := put s.tuner } false)
        ∧ (s.tuner.op = none → exec (.feStatusRecord settled level offset) s
          = .next (({ s with tuner := { put s.tuner with state := .tuned, phase := .none } }).radioReport .tuned))))
  ∧ (∀ (s : State) (ps : List (BitVec 16 × BitVec 16)),
    let leaves (b : Burst) : Prop := exec (.feBurst ps) s = .next { s with tuner := { s.tuner with burst := b } }
    (ps.length < 192 → leaves .short)
    ∧ (192 ≤ ps.length → (s.tuner.state = .idle ∨ s.tuner.state = .feFault) → leaves .none)
    ∧ (192 ≤ ps.length → s.tuner.state ≠ .idle → s.tuner.state ≠ .feFault → leaves (.full ps)))
  ∧ (∀ (b : Band) (f : Nat),
    FeRequest.identify.bytes = [1]
    ∧ (FeRequest.setTune b f).bytes = [2, if b = .fm then 0 else 1] ++ leBytes 4 f)
  ∧ (∀ t : Tuner, (t.ctlSent = none → t.controlLine = []) ∧ ∀ q, t.ctlSent = some q → t.controlLine = q.bytes)
  ∧ (∀ (s : State) (n : Nat),
    let t := s.tuner
    let runs := t.band = .fm ∧ (t.state = .tuned
      ∨ ((t.state = .seeking ∨ t.state = .scanning) ∧ (t.phase = .dwell ∨ t.phase = .advance)))
    let c := min 1000 (t.pilotCount + n)
    let put (u : State) (x : Tuner) : State :=
      if x.pilot = t.pilot then { u with tuner := x } else ({ u with tuner := x }).radioReport .pilot
    let hit : Tuner := { t with
      pilotCount := 0, inRun := min 16 (t.inRun + 1), missRun := 0
      pilot := if 15 ≤ t.inRun then .present else t.pilot }
    let miss : Tuner := { t with
      pilotCount := 0, missRun := min 4 (t.missRun + 1), inRun := 0
      pilot := if 3 ≤ t.missRun then .absent else t.pilot }
    (¬ runs → exec (.pilotCapture n) s = .next s ∧ exec .pilotTimeout s = .next s)
    ∧ (runs → 640 ≤ c → c ≤ 653 → exec (.pilotCapture n) s = .next (put s hit))
    ∧ (runs → (c < 640 ∨ 653 < c) → exec (.pilotCapture n) s = .next (put s miss))
    ∧ (runs → exec .pilotTimeout s = .next (put s miss)))

/-- ACK_TIMEOUT (R127, R130), STATUS_SILENCE (R129, R130), SETTLE_LIMIT (R137), DWELL_END (R147, R149, R151) and
BLEND_STEP (R142: every 8 blocks b moves 1 toward its target), each a step of its own in its block: the lanes' and
paths' parts are made before it, and the tuner's with it, and marked (the model's choice, log 2). A tuner that falls
silent while TUNED has placed the 48 frames of that block (R139), and a status silence of 5 goes before a settle limit
of its block: the order of the tuner's own steps is the model's choice (log 54). The frames are M and S blended by the
block's b (R142), S shifted once for both channels and 0 in AM (R139); M and S themselves are free values (log 8). That a dwell that does not end the
seek or scan waits for the next block, at which its next point is taken (PathAndLaneParts, TunesAndSearchesEnd), and
that the point after a settle limit is taken in the same block, are the model's readings (log 19). -/
def Obligations.FrontEndTimers : Prop :=
  ∀ s : State, BlockPart.tuner ∉ s.taken →
    let b := s.pathsMade
    let x := b.tuner
    let active := x.state = .tuning ∨ x.state = .tuned ∨ x.state = .seeking ∨ x.state = .scanning
    let heard := x.statusArrived = true ∨ x.silence < 4 ∨ ¬ active
    let failed (t : State) : Prop := t.tuner.state = .feFault ∧ t.tuner.openTx = none ∧ t.tuner.waiting = none
      ∧ t.tuner.identified = false ∧ t.tuner.op = none ∧ t.tuner.pilot = .absent ∧ t.tuner.blend = 0
      ∧ t.tuner.phase = .none
    let d := x.dwell.add x b.ampError
    (∀ q, x.openTx = some q → q.timer ≤ 1 → q.retried = false → heard →
      ∃ t, exec .ackTimeout s = .next t ∧ t.tuner.openTx = some { q with timer := 2, retried := true })
    ∧ (∀ q, x.openTx = some q → q.timer ≤ 1 → q.retried = true →
      ∃ t, exec .ackTimeout s = .next t ∧ failed t)
    ∧ (active → x.statusArrived = false → 4 ≤ x.silence →
      ∃ t, exec .statusSilence s = .next t ∧ failed t
        ∧ ∀ p, x.state = .tuned → b.tunerPath = some p → (b.path p).formatPending = false →
          (b.path p).fifo.length ≤ 2000 → (t.path p).fifo = (b.path p).fifo ++ State.tunerFrames (State.blendBlock
            { b with tuner := { x with ampHistory := (b.ampError :: x.ampHistory).take 8 } }))
    ∧ (∀ u : State,
      (∀ ps, u.tuner.burst = .full ps → u.tuner.pairsOf = ps)
      ∧ (u.tuner.burst = .none ∨ u.tuner.burst = .short → u.tuner.pairsOf = [])
      ∧ u.tunerFrames = (List.range 48).map fun j =>
          let m := saturate (Config.demodMid u.freeIdx u.tuner.band.code u.tuner.pairsOf j)
          let side := if u.tuner.band = .fm then saturate (Config.demodSide u.freeIdx u.tuner.pairsOf j) else 0
          let d := (u.tuner.blend : Int) * side / 16
          [saturate (m + d), saturate (m - d)])
    ∧ (x.state = .tuning → x.phase = .settling → x.openTx = none → heard →
      settleLimit x.band ≤ x.settleCount + 1 →
      ∃ t, exec .settleLimit s = .next t ∧ t.tuner.state = .tuned ∧ t.tuner.phase = .none ∧ t.tuner.op = none
        ∧ t.tuner.band = x.band ∧ t.tuner.freq = x.freq)
    ∧ (∀ op, (x.state = .seeking ∨ x.state = .scanning) → x.phase = .settling → x.openTx = none → heard →
      x.op = some op → op.kind = .seek → settleLimit x.band ≤ x.settleCount + 1 →
      ∃ t, exec .settleLimit s = .next t ∧ t.tuner.phase = .sending
        ∧ (b.region.adjacent x.band x.freq op.dir ≠ op.startFreq →
            t.tuner.state = x.state ∧ t.tuner.band = x.band
              ∧ t.tuner.freq = b.region.adjacent x.band x.freq op.dir)
        ∧ (b.region.adjacent x.band x.freq op.dir = op.startFreq →
            t.tuner.state = .tuning ∧ t.tuner.band = op.startBand ∧ t.tuner.freq = op.startFreq))
    ∧ (∀ op, (x.state = .seeking ∨ x.state = .scanning) → x.phase = .settling → x.openTx = none → heard →
      x.op = some op → op.kind = .scan → settleLimit x.band ≤ x.settleCount + 1 →
      ∃ t, exec .settleLimit s = .next t ∧ t.tuner.phase = .sending
        ∧ t.tuner.op = some { op with tested := op.tested + 1 } ∧ t.stations = b.stations
        ∧ (x.freq < b.region.top x.band →
            t.tuner.state = x.state ∧ t.tuner.band = x.band ∧ t.tuner.freq = x.freq + b.region.step x.band)
        ∧ (b.region.top x.band ≤ x.freq →
            t.tuner.state = .tuning ∧ t.tuner.band = op.startBand ∧ t.tuner.freq = op.startFreq))
    ∧ (∀ k : Band, settleLimit k = (if k = .fm then 10 else 30) ∧ dwellBlocks k = (if k = .fm then 8 else 16))
    ∧ (∀ op, x.state = .seeking → x.phase = .dwell → x.openTx = none → heard → x.op = some op → op.kind = .seek →
      dwellBlocks x.band ≤ x.dwell.blocks + 1 →
      ∃ t, exec .dwellEnd s = .next t ∧ t.tuner.freq = x.freq ∧ t.stations = b.stations
        ∧ (b.region.passes x.band d = true → t.tuner.state = .tuned ∧ t.tuner.phase = .none ∧ t.tuner.op = none)
        ∧ (b.region.passes x.band d = false → t.tuner.state = .seeking ∧ t.tuner.phase = .advance
            ∧ t.tuner.op = some op))
    ∧ (∀ op, x.state = .scanning → x.phase = .dwell → x.openTx = none → heard → x.op = some op → op.kind = .scan →
      dwellBlocks x.band ≤ x.dwell.blocks + 1 →
      ∃ t, exec .dwellEnd s = .next t ∧ t.tuner.state = .scanning ∧ t.tuner.phase = .advance
        ∧ (b.region.passes x.band d = false → t.tuner.op = some { op with tested := op.tested + 1 }
            ∧ t.stations = b.stations)
        ∧ (b.region.passes x.band d = true →
            let v : Station :=
              { band := x.band, freq := x.freq, level := d.levelSum / d.blocks
                stereo := d.stereo && decide (x.band = .fm), label := b.presetLabel x.band x.freq }
            let l := insertCandidate (b.region.step x.band) v b.stations
            t.stations = l.1
            ∧ t.tuner.op = some { op with
                found := op.found + 1, dropped := op.dropped + (if l.2 = true then 1 else 0)
                tested := op.tested + 1 }))
    ∧ (let r := b.region
      let target := if x.pilot = .absent ∨ r.forcedMono = true ∨ x.band = .am then 0
        else if x.level ≤ r.blendLo then 0
        else if r.blendHi ≤ x.level then 16
        else 16 * (x.level - r.blendLo) / (r.blendHi - r.blendLo)
      active → x.blendTimer = 7 → x.openTx = none → heard → (x.phase = .none ∨ x.phase = .sending) →
      ∃ t, exec .blendStep s = .next t ∧ t.tuner.blendTimer = 0 ∧ t.tuner.blendTarget = target
        ∧ t.tuner.blend
          = (if x.blend < target then x.blend + 1 else if target < x.blend then x.blend - 1 else x.blend)
        ∧ t.tuner.state = x.state ∧ t.tuner.pilot = x.pilot ∧ t.region = b.region ∧ t.stations = b.stations)
end

