-- ==== Sys2Proof/Laws/State.lean ====
section
/-! SUPPORT. What each update of a piece of State changes and keeps: one lemma per field per update, and what a read
gives after a write. No later proof needs to unfold a record update. -/

namespace Sys2Proof.Machine

open Sys2Proof

/-! ## Tables -/

/-- A table entry that was written reads as written. -/
@[simp] theorem getAt_setAt_same {α : Type} {n : Nat} (v : Vector α n) (i : Fin n) (x : α) :
    getAt (setAt v i x) i = x := by
  simp [getAt, setAt]

/-- A table entry other than the written one reads as before. -/
theorem getAt_setAt_other {α : Type} {n : Nat} (v : Vector α n) (i j : Fin n) (x : α) (h : i ≠ j) :
    getAt (setAt v i x) j = getAt v j := by
  have hv : i.val ≠ j.val := fun hv => h (Fin.ext hv)
  simp [getAt, setAt, hv]

/-- A table entry after a write. -/
theorem getAt_setAt {α : Type} {n : Nat} (v : Vector α n) (i j : Fin n) (x : α) :
    getAt (setAt v i x) j = if i = j then x else getAt v j := by
  by_cases h : i = j
  · subst h; simp
  · simp [h, getAt_setAt_other v i j x h]

/-- Writing a table entry twice leaves the second. -/
@[simp] theorem setAt_setAt {α : Type} {n : Nat} (v : Vector α n) (i : Fin n) (x y : α) :
    setAt (setAt v i x) i y = setAt v i y := by
  apply Vector.ext
  intro j hj
  by_cases h : i.val = j <;> simp [setAt, h]

/-- Writing back what stands changes nothing. -/
@[simp] theorem setAt_getAt {α : Type} {n : Nat} (v : Vector α n) (i : Fin n) : setAt v i (getAt v i) = v := by
  apply Vector.ext
  intro j hj
  by_cases h : i.val = j
  · subst h; simp [setAt, getAt]
  · simp [setAt, h]

/-- The outcome of a step is its state. -/
@[simp] theorem next_inj (s t : State) :
    (Host.Outcome.next s : Host.Outcome State Fault Refusal) = .next t ↔ s = t :=
  ⟨fun h => by injection h, fun h => by rw [h]⟩

/-! ## setLane -/

@[simp] theorem State.setLane_pending (s : State) (l : Fin 4) (r : LaneRec) : (s.setLane l r).pending = s.pending := rfl
@[simp] theorem State.setLane_strap (s : State) (l : Fin 4) (r : LaneRec) : (s.setLane l r).strap = s.strap := rfl
@[simp] theorem State.setLane_windows (s : State) (l : Fin 4) (r : LaneRec) : (s.setLane l r).windows = s.windows := rfl
@[simp] theorem State.setLane_link (s : State) (l : Fin 4) (r : LaneRec) : (s.setLane l r).link = s.link := rfl
@[simp] theorem State.setLane_cmd (s : State) (l : Fin 4) (r : LaneRec) : (s.setLane l r).cmd = s.cmd := rfl
@[simp] theorem State.setLane_rep (s : State) (l : Fin 4) (r : LaneRec) : (s.setLane l r).rep = s.rep := rfl
@[simp] theorem State.setLane_mirror (s : State) (l : Fin 4) (r : LaneRec) : (s.setLane l r).mirror = s.mirror := rfl
@[simp] theorem State.setLane_block (s : State) (l : Fin 4) (r : LaneRec) : (s.setLane l r).block = s.block := rfl
@[simp] theorem State.setLane_rings (s : State) (l : Fin 4) (r : LaneRec) : (s.setLane l r).rings = s.rings := rfl
@[simp] theorem State.setLane_intakeWait (s : State) (l : Fin 4) (r : LaneRec) : (s.setLane l r).intakeWait = s.intakeWait := rfl
@[simp] theorem State.setLane_tap (s : State) (l : Fin 4) (r : LaneRec) : (s.setLane l r).tap = s.tap := rfl
@[simp] theorem State.setLane_groups (s : State) (l : Fin 4) (r : LaneRec) : (s.setLane l r).groups = s.groups := rfl
@[simp] theorem State.setLane_sources (s : State) (l : Fin 4) (r : LaneRec) : (s.setLane l r).sources = s.sources := rfl
@[simp] theorem State.setLane_zoneMain (s : State) (l : Fin 4) (r : LaneRec) : (s.setLane l r).zoneMain = s.zoneMain := rfl
@[simp] theorem State.setLane_zoneTwo (s : State) (l : Fin 4) (r : LaneRec) : (s.setLane l r).zoneTwo = s.zoneTwo := rfl
@[simp] theorem State.setLane_pathZero (s : State) (l : Fin 4) (r : LaneRec) : (s.setLane l r).pathZero = s.pathZero := rfl
@[simp] theorem State.setLane_pathOne (s : State) (l : Fin 4) (r : LaneRec) : (s.setLane l r).pathOne = s.pathOne := rfl
@[simp] theorem State.setLane_bindFirst (s : State) (l : Fin 4) (r : LaneRec) : (s.setLane l r).bindFirst = s.bindFirst := rfl
@[simp] theorem State.setLane_owner (s : State) (l : Fin 4) (r : LaneRec) : (s.setLane l r).owner = s.owner := rfl
@[simp] theorem State.setLane_mixer (s : State) (l : Fin 4) (r : LaneRec) : (s.setLane l r).mixer = s.mixer := rfl
@[simp] theorem State.setLane_tuner (s : State) (l : Fin 4) (r : LaneRec) : (s.setLane l r).tuner = s.tuner := rfl
@[simp] theorem State.setLane_region (s : State) (l : Fin 4) (r : LaneRec) : (s.setLane l r).region = s.region := rfl
@[simp] theorem State.setLane_stations (s : State) (l : Fin 4) (r : LaneRec) : (s.setLane l r).stations = s.stations := rfl
@[simp] theorem State.setLane_presets (s : State) (l : Fin 4) (r : LaneRec) : (s.setLane l r).presets = s.presets := rfl
@[simp] theorem State.setLane_out (s : State) (l : Fin 4) (r : LaneRec) : (s.setLane l r).out = s.out := rfl
@[simp] theorem State.setLane_pairs (s : State) (l : Fin 4) (r : LaneRec) : (s.setLane l r).pairs = s.pairs := rfl
@[simp] theorem State.setLane_thermal (s : State) (l : Fin 4) (r : LaneRec) : (s.setLane l r).thermal = s.thermal := rfl
@[simp] theorem State.setLane_pins (s : State) (l : Fin 4) (r : LaneRec) : (s.setLane l r).pins = s.pins := rfl
@[simp] theorem State.setLane_freeIdx (s : State) (l : Fin 4) (r : LaneRec) : (s.setLane l r).freeIdx = s.freeIdx := rfl
@[simp] theorem State.setLane_taken (s : State) (l : Fin 4) (r : LaneRec) : (s.setLane l r).taken = s.taken := rfl

/-! ## setGroup -/

@[simp] theorem State.setGroup_pending (s : State) (e : Fin 12) (g : Option GroupRec) : (s.setGroup e g).pending = s.pending := rfl
@[simp] theorem State.setGroup_strap (s : State) (e : Fin 12) (g : Option GroupRec) : (s.setGroup e g).strap = s.strap := rfl
@[simp] theorem State.setGroup_windows (s : State) (e : Fin 12) (g : Option GroupRec) : (s.setGroup e g).windows = s.windows := rfl
@[simp] theorem State.setGroup_link (s : State) (e : Fin 12) (g : Option GroupRec) : (s.setGroup e g).link = s.link := rfl
@[simp] theorem State.setGroup_cmd (s : State) (e : Fin 12) (g : Option GroupRec) : (s.setGroup e g).cmd = s.cmd := rfl
@[simp] theorem State.setGroup_rep (s : State) (e : Fin 12) (g : Option GroupRec) : (s.setGroup e g).rep = s.rep := rfl
@[simp] theorem State.setGroup_mirror (s : State) (e : Fin 12) (g : Option GroupRec) : (s.setGroup e g).mirror = s.mirror := rfl
@[simp] theorem State.setGroup_block (s : State) (e : Fin 12) (g : Option GroupRec) : (s.setGroup e g).block = s.block := rfl
@[simp] theorem State.setGroup_rings (s : State) (e : Fin 12) (g : Option GroupRec) : (s.setGroup e g).rings = s.rings := rfl
@[simp] theorem State.setGroup_intakeWait (s : State) (e : Fin 12) (g : Option GroupRec) : (s.setGroup e g).intakeWait = s.intakeWait := rfl
@[simp] theorem State.setGroup_tap (s : State) (e : Fin 12) (g : Option GroupRec) : (s.setGroup e g).tap = s.tap := rfl
@[simp] theorem State.setGroup_lanes (s : State) (e : Fin 12) (g : Option GroupRec) : (s.setGroup e g).lanes = s.lanes := rfl
@[simp] theorem State.setGroup_sources (s : State) (e : Fin 12) (g : Option GroupRec) : (s.setGroup e g).sources = s.sources := rfl
@[simp] theorem State.setGroup_zoneMain (s : State) (e : Fin 12) (g : Option GroupRec) : (s.setGroup e g).zoneMain = s.zoneMain := rfl
@[simp] theorem State.setGroup_zoneTwo (s : State) (e : Fin 12) (g : Option GroupRec) : (s.setGroup e g).zoneTwo = s.zoneTwo := rfl
@[simp] theorem State.setGroup_pathZero (s : State) (e : Fin 12) (g : Option GroupRec) : (s.setGroup e g).pathZero = s.pathZero := rfl
@[simp] theorem State.setGroup_pathOne (s : State) (e : Fin 12) (g : Option GroupRec) : (s.setGroup e g).pathOne = s.pathOne := rfl
@[simp] theorem State.setGroup_bindFirst (s : State) (e : Fin 12) (g : Option GroupRec) : (s.setGroup e g).bindFirst = s.bindFirst := rfl
@[simp] theorem State.setGroup_owner (s : State) (e : Fin 12) (g : Option GroupRec) : (s.setGroup e g).owner = s.owner := rfl
@[simp] theorem State.setGroup_mixer (s : State) (e : Fin 12) (g : Option GroupRec) : (s.setGroup e g).mixer = s.mixer := rfl
@[simp] theorem State.setGroup_tuner (s : State) (e : Fin 12) (g : Option GroupRec) : (s.setGroup e g).tuner = s.tuner := rfl
@[simp] theorem State.setGroup_region (s : State) (e : Fin 12) (g : Option GroupRec) : (s.setGroup e g).region = s.region := rfl
@[simp] theorem State.setGroup_stations (s : State) (e : Fin 12) (g : Option GroupRec) : (s.setGroup e g).stations = s.stations := rfl
@[simp] theorem State.setGroup_presets (s : State) (e : Fin 12) (g : Option GroupRec) : (s.setGroup e g).presets = s.presets := rfl
@[simp] theorem State.setGroup_out (s : State) (e : Fin 12) (g : Option GroupRec) : (s.setGroup e g).out = s.out := rfl
@[simp] theorem State.setGroup_pairs (s : State) (e : Fin 12) (g : Option GroupRec) : (s.setGroup e g).pairs = s.pairs := rfl
@[simp] theorem State.setGroup_thermal (s : State) (e : Fin 12) (g : Option GroupRec) : (s.setGroup e g).thermal = s.thermal := rfl
@[simp] theorem State.setGroup_pins (s : State) (e : Fin 12) (g : Option GroupRec) : (s.setGroup e g).pins = s.pins := rfl
@[simp] theorem State.setGroup_freeIdx (s : State) (e : Fin 12) (g : Option GroupRec) : (s.setGroup e g).freeIdx = s.freeIdx := rfl
@[simp] theorem State.setGroup_taken (s : State) (e : Fin 12) (g : Option GroupRec) : (s.setGroup e g).taken = s.taken := rfl

/-! ## setSource -/

@[simp] theorem State.setSource_pending (s : State) (e : Fin 12) (r : SourceEntry) : (s.setSource e r).pending = s.pending := rfl
@[simp] theorem State.setSource_strap (s : State) (e : Fin 12) (r : SourceEntry) : (s.setSource e r).strap = s.strap := rfl
@[simp] theorem State.setSource_windows (s : State) (e : Fin 12) (r : SourceEntry) : (s.setSource e r).windows = s.windows := rfl
@[simp] theorem State.setSource_link (s : State) (e : Fin 12) (r : SourceEntry) : (s.setSource e r).link = s.link := rfl
@[simp] theorem State.setSource_cmd (s : State) (e : Fin 12) (r : SourceEntry) : (s.setSource e r).cmd = s.cmd := rfl
@[simp] theorem State.setSource_rep (s : State) (e : Fin 12) (r : SourceEntry) : (s.setSource e r).rep = s.rep := rfl
@[simp] theorem State.setSource_mirror (s : State) (e : Fin 12) (r : SourceEntry) : (s.setSource e r).mirror = s.mirror := rfl
@[simp] theorem State.setSource_block (s : State) (e : Fin 12) (r : SourceEntry) : (s.setSource e r).block = s.block := rfl
@[simp] theorem State.setSource_rings (s : State) (e : Fin 12) (r : SourceEntry) : (s.setSource e r).rings = s.rings := rfl
@[simp] theorem State.setSource_intakeWait (s : State) (e : Fin 12) (r : SourceEntry) : (s.setSource e r).intakeWait = s.intakeWait := rfl
@[simp] theorem State.setSource_tap (s : State) (e : Fin 12) (r : SourceEntry) : (s.setSource e r).tap = s.tap := rfl
@[simp] theorem State.setSource_lanes (s : State) (e : Fin 12) (r : SourceEntry) : (s.setSource e r).lanes = s.lanes := rfl
@[simp] theorem State.setSource_groups (s : State) (e : Fin 12) (r : SourceEntry) : (s.setSource e r).groups = s.groups := rfl
@[simp] theorem State.setSource_zoneMain (s : State) (e : Fin 12) (r : SourceEntry) : (s.setSource e r).zoneMain = s.zoneMain := rfl
@[simp] theorem State.setSource_zoneTwo (s : State) (e : Fin 12) (r : SourceEntry) : (s.setSource e r).zoneTwo = s.zoneTwo := rfl
@[simp] theorem State.setSource_pathZero (s : State) (e : Fin 12) (r : SourceEntry) : (s.setSource e r).pathZero = s.pathZero := rfl
@[simp] theorem State.setSource_pathOne (s : State) (e : Fin 12) (r : SourceEntry) : (s.setSource e r).pathOne = s.pathOne := rfl
@[simp] theorem State.setSource_bindFirst (s : State) (e : Fin 12) (r : SourceEntry) : (s.setSource e r).bindFirst = s.bindFirst := rfl
@[simp] theorem State.setSource_owner (s : State) (e : Fin 12) (r : SourceEntry) : (s.setSource e r).owner = s.owner := rfl
@[simp] theorem State.setSource_mixer (s : State) (e : Fin 12) (r : SourceEntry) : (s.setSource e r).mixer = s.mixer := rfl
@[simp] theorem State.setSource_tuner (s : State) (e : Fin 12) (r : SourceEntry) : (s.setSource e r).tuner = s.tuner := rfl
@[simp] theorem State.setSource_region (s : State) (e : Fin 12) (r : SourceEntry) : (s.setSource e r).region = s.region := rfl
@[simp] theorem State.setSource_stations (s : State) (e : Fin 12) (r : SourceEntry) : (s.setSource e r).stations = s.stations := rfl
@[simp] theorem State.setSource_presets (s : State) (e : Fin 12) (r : SourceEntry) : (s.setSource e r).presets = s.presets := rfl
@[simp] theorem State.setSource_out (s : State) (e : Fin 12) (r : SourceEntry) : (s.setSource e r).out = s.out := rfl
@[simp] theorem State.setSource_pairs (s : State) (e : Fin 12) (r : SourceEntry) : (s.setSource e r).pairs = s.pairs := rfl
@[simp] theorem State.setSource_thermal (s : State) (e : Fin 12) (r : SourceEntry) : (s.setSource e r).thermal = s.thermal := rfl
@[simp] theorem State.setSource_pins (s : State) (e : Fin 12) (r : SourceEntry) : (s.setSource e r).pins = s.pins := rfl
@[simp] theorem State.setSource_freeIdx (s : State) (e : Fin 12) (r : SourceEntry) : (s.setSource e r).freeIdx = s.freeIdx := rfl
@[simp] theorem State.setSource_taken (s : State) (e : Fin 12) (r : SourceEntry) : (s.setSource e r).taken = s.taken := rfl

/-! ## setChan -/

@[simp] theorem State.setChan_pending (s : State) (c : Fin 12) (r : Channel) : (s.setChan c r).pending = s.pending := rfl
@[simp] theorem State.setChan_strap (s : State) (c : Fin 12) (r : Channel) : (s.setChan c r).strap = s.strap := rfl
@[simp] theorem State.setChan_windows (s : State) (c : Fin 12) (r : Channel) : (s.setChan c r).windows = s.windows := rfl
@[simp] theorem State.setChan_link (s : State) (c : Fin 12) (r : Channel) : (s.setChan c r).link = s.link := rfl
@[simp] theorem State.setChan_cmd (s : State) (c : Fin 12) (r : Channel) : (s.setChan c r).cmd = s.cmd := rfl
@[simp] theorem State.setChan_rep (s : State) (c : Fin 12) (r : Channel) : (s.setChan c r).rep = s.rep := rfl
@[simp] theorem State.setChan_mirror (s : State) (c : Fin 12) (r : Channel) : (s.setChan c r).mirror = s.mirror := rfl
@[simp] theorem State.setChan_block (s : State) (c : Fin 12) (r : Channel) : (s.setChan c r).block = s.block := rfl
@[simp] theorem State.setChan_rings (s : State) (c : Fin 12) (r : Channel) : (s.setChan c r).rings = s.rings := rfl
@[simp] theorem State.setChan_intakeWait (s : State) (c : Fin 12) (r : Channel) : (s.setChan c r).intakeWait = s.intakeWait := rfl
@[simp] theorem State.setChan_tap (s : State) (c : Fin 12) (r : Channel) : (s.setChan c r).tap = s.tap := rfl
@[simp] theorem State.setChan_lanes (s : State) (c : Fin 12) (r : Channel) : (s.setChan c r).lanes = s.lanes := rfl
@[simp] theorem State.setChan_groups (s : State) (c : Fin 12) (r : Channel) : (s.setChan c r).groups = s.groups := rfl
@[simp] theorem State.setChan_sources (s : State) (c : Fin 12) (r : Channel) : (s.setChan c r).sources = s.sources := rfl
@[simp] theorem State.setChan_zoneMain (s : State) (c : Fin 12) (r : Channel) : (s.setChan c r).zoneMain = s.zoneMain := rfl
@[simp] theorem State.setChan_zoneTwo (s : State) (c : Fin 12) (r : Channel) : (s.setChan c r).zoneTwo = s.zoneTwo := rfl
@[simp] theorem State.setChan_pathZero (s : State) (c : Fin 12) (r : Channel) : (s.setChan c r).pathZero = s.pathZero := rfl
@[simp] theorem State.setChan_pathOne (s : State) (c : Fin 12) (r : Channel) : (s.setChan c r).pathOne = s.pathOne := rfl
@[simp] theorem State.setChan_bindFirst (s : State) (c : Fin 12) (r : Channel) : (s.setChan c r).bindFirst = s.bindFirst := rfl
@[simp] theorem State.setChan_owner (s : State) (c : Fin 12) (r : Channel) : (s.setChan c r).owner = s.owner := rfl
@[simp] theorem State.setChan_mixer (s : State) (c : Fin 12) (r : Channel) : (s.setChan c r).mixer = s.mixer := rfl
@[simp] theorem State.setChan_tuner (s : State) (c : Fin 12) (r : Channel) : (s.setChan c r).tuner = s.tuner := rfl
@[simp] theorem State.setChan_region (s : State) (c : Fin 12) (r : Channel) : (s.setChan c r).region = s.region := rfl
@[simp] theorem State.setChan_stations (s : State) (c : Fin 12) (r : Channel) : (s.setChan c r).stations = s.stations := rfl
@[simp] theorem State.setChan_presets (s : State) (c : Fin 12) (r : Channel) : (s.setChan c r).presets = s.presets := rfl
@[simp] theorem State.setChan_pairs (s : State) (c : Fin 12) (r : Channel) : (s.setChan c r).pairs = s.pairs := rfl
@[simp] theorem State.setChan_thermal (s : State) (c : Fin 12) (r : Channel) : (s.setChan c r).thermal = s.thermal := rfl
@[simp] theorem State.setChan_pins (s : State) (c : Fin 12) (r : Channel) : (s.setChan c r).pins = s.pins := rfl
@[simp] theorem State.setChan_freeIdx (s : State) (c : Fin 12) (r : Channel) : (s.setChan c r).freeIdx = s.freeIdx := rfl
@[simp] theorem State.setChan_taken (s : State) (c : Fin 12) (r : Channel) : (s.setChan c r).taken = s.taken := rfl

/-! ## setPair -/

@[simp] theorem State.setPair_pending (s : State) (n : Fin 6) (r : Pair) : (s.setPair n r).pending = s.pending := rfl
@[simp] theorem State.setPair_strap (s : State) (n : Fin 6) (r : Pair) : (s.setPair n r).strap = s.strap := rfl
@[simp] theorem State.setPair_windows (s : State) (n : Fin 6) (r : Pair) : (s.setPair n r).windows = s.windows := rfl
@[simp] theorem State.setPair_link (s : State) (n : Fin 6) (r : Pair) : (s.setPair n r).link = s.link := rfl
@[simp] theorem State.setPair_cmd (s : State) (n : Fin 6) (r : Pair) : (s.setPair n r).cmd = s.cmd := rfl
@[simp] theorem State.setPair_rep (s : State) (n : Fin 6) (r : Pair) : (s.setPair n r).rep = s.rep := rfl
@[simp] theorem State.setPair_mirror (s : State) (n : Fin 6) (r : Pair) : (s.setPair n r).mirror = s.mirror := rfl
@[simp] theorem State.setPair_block (s : State) (n : Fin 6) (r : Pair) : (s.setPair n r).block = s.block := rfl
@[simp] theorem State.setPair_rings (s : State) (n : Fin 6) (r : Pair) : (s.setPair n r).rings = s.rings := rfl
@[simp] theorem State.setPair_intakeWait (s : State) (n : Fin 6) (r : Pair) : (s.setPair n r).intakeWait = s.intakeWait := rfl
@[simp] theorem State.setPair_tap (s : State) (n : Fin 6) (r : Pair) : (s.setPair n r).tap = s.tap := rfl
@[simp] theorem State.setPair_lanes (s : State) (n : Fin 6) (r : Pair) : (s.setPair n r).lanes = s.lanes := rfl
@[simp] theorem State.setPair_groups (s : State) (n : Fin 6) (r : Pair) : (s.setPair n r).groups = s.groups := rfl
@[simp] theorem State.setPair_sources (s : State) (n : Fin 6) (r : Pair) : (s.setPair n r).sources = s.sources := rfl
@[simp] theorem State.setPair_zoneMain (s : State) (n : Fin 6) (r : Pair) : (s.setPair n r).zoneMain = s.zoneMain := rfl
@[simp] theorem State.setPair_zoneTwo (s : State) (n : Fin 6) (r : Pair) : (s.setPair n r).zoneTwo = s.zoneTwo := rfl
@[simp] theorem State.setPair_pathZero (s : State) (n : Fin 6) (r : Pair) : (s.setPair n r).pathZero = s.pathZero := rfl
@[simp] theorem State.setPair_pathOne (s : State) (n : Fin 6) (r : Pair) : (s.setPair n r).pathOne = s.pathOne := rfl
@[simp] theorem State.setPair_bindFirst (s : State) (n : Fin 6) (r : Pair) : (s.setPair n r).bindFirst = s.bindFirst := rfl
@[simp] theorem State.setPair_owner (s : State) (n : Fin 6) (r : Pair) : (s.setPair n r).owner = s.owner := rfl
@[simp] theorem State.setPair_mixer (s : State) (n : Fin 6) (r : Pair) : (s.setPair n r).mixer = s.mixer := rfl
@[simp] theorem State.setPair_tuner (s : State) (n : Fin 6) (r : Pair) : (s.setPair n r).tuner = s.tuner := rfl
@[simp] theorem State.setPair_region (s : State) (n : Fin 6) (r : Pair) : (s.setPair n r).region = s.region := rfl
@[simp] theorem State.setPair_stations (s : State) (n : Fin 6) (r : Pair) : (s.setPair n r).stations = s.stations := rfl
@[simp] theorem State.setPair_presets (s : State) (n : Fin 6) (r : Pair) : (s.setPair n r).presets = s.presets := rfl
@[simp] theorem State.setPair_out (s : State) (n : Fin 6) (r : Pair) : (s.setPair n r).out = s.out := rfl
@[simp] theorem State.setPair_thermal (s : State) (n : Fin 6) (r : Pair) : (s.setPair n r).thermal = s.thermal := rfl
@[simp] theorem State.setPair_pins (s : State) (n : Fin 6) (r : Pair) : (s.setPair n r).pins = s.pins := rfl
@[simp] theorem State.setPair_freeIdx (s : State) (n : Fin 6) (r : Pair) : (s.setPair n r).freeIdx = s.freeIdx := rfl
@[simp] theorem State.setPair_taken (s : State) (n : Fin 6) (r : Pair) : (s.setPair n r).taken = s.taken := rfl

/-! ## setRing -/

@[simp] theorem State.setRing_pending (s : State) (i : Fin 16) (r : Option Ring) : (s.setRing i r).pending = s.pending := rfl
@[simp] theorem State.setRing_strap (s : State) (i : Fin 16) (r : Option Ring) : (s.setRing i r).strap = s.strap := rfl
@[simp] theorem State.setRing_windows (s : State) (i : Fin 16) (r : Option Ring) : (s.setRing i r).windows = s.windows := rfl
@[simp] theorem State.setRing_link (s : State) (i : Fin 16) (r : Option Ring) : (s.setRing i r).link = s.link := rfl
@[simp] theorem State.setRing_cmd (s : State) (i : Fin 16) (r : Option Ring) : (s.setRing i r).cmd = s.cmd := rfl
@[simp] theorem State.setRing_rep (s : State) (i : Fin 16) (r : Option Ring) : (s.setRing i r).rep = s.rep := rfl
@[simp] theorem State.setRing_mirror (s : State) (i : Fin 16) (r : Option Ring) : (s.setRing i r).mirror = s.mirror := rfl
@[simp] theorem State.setRing_block (s : State) (i : Fin 16) (r : Option Ring) : (s.setRing i r).block = s.block := rfl
@[simp] theorem State.setRing_intakeWait (s : State) (i : Fin 16) (r : Option Ring) : (s.setRing i r).intakeWait = s.intakeWait := rfl
@[simp] theorem State.setRing_tap (s : State) (i : Fin 16) (r : Option Ring) : (s.setRing i r).tap = s.tap := rfl
@[simp] theorem State.setRing_lanes (s : State) (i : Fin 16) (r : Option Ring) : (s.setRing i r).lanes = s.lanes := rfl
@[simp] theorem State.setRing_groups (s : State) (i : Fin 16) (r : Option Ring) : (s.setRing i r).groups = s.groups := rfl
@[simp] theorem State.setRing_sources (s : State) (i : Fin 16) (r : Option Ring) : (s.setRing i r).sources = s.sources := rfl
@[simp] theorem State.setRing_zoneMain (s : State) (i : Fin 16) (r : Option Ring) : (s.setRing i r).zoneMain = s.zoneMain := rfl
@[simp] theorem State.setRing_zoneTwo (s : State) (i : Fin 16) (r : Option Ring) : (s.setRing i r).zoneTwo = s.zoneTwo := rfl
@[simp] theorem State.setRing_pathZero (s : State) (i : Fin 16) (r : Option Ring) : (s.setRing i r).pathZero = s.pathZero := rfl
@[simp] theorem State.setRing_pathOne (s : State) (i : Fin 16) (r : Option Ring) : (s.setRing i r).pathOne = s.pathOne := rfl
@[simp] theorem State.setRing_bindFirst (s : State) (i : Fin 16) (r : Option Ring) : (s.setRing i r).bindFirst = s.bindFirst := rfl
@[simp] theorem State.setRing_owner (s : State) (i : Fin 16) (r : Option Ring) : (s.setRing i r).owner = s.owner := rfl
@[simp] theorem State.setRing_mixer (s : State) (i : Fin 16) (r : Option Ring) : (s.setRing i r).mixer = s.mixer := rfl
@[simp] theorem State.setRing_tuner (s : State) (i : Fin 16) (r : Option Ring) : (s.setRing i r).tuner = s.tuner := rfl
@[simp] theorem State.setRing_region (s : State) (i : Fin 16) (r : Option Ring) : (s.setRing i r).region = s.region := rfl
@[simp] theorem State.setRing_stations (s : State) (i : Fin 16) (r : Option Ring) : (s.setRing i r).stations = s.stations := rfl
@[simp] theorem State.setRing_presets (s : State) (i : Fin 16) (r : Option Ring) : (s.setRing i r).presets = s.presets := rfl
@[simp] theorem State.setRing_out (s : State) (i : Fin 16) (r : Option Ring) : (s.setRing i r).out = s.out := rfl
@[simp] theorem State.setRing_pairs (s : State) (i : Fin 16) (r : Option Ring) : (s.setRing i r).pairs = s.pairs := rfl
@[simp] theorem State.setRing_thermal (s : State) (i : Fin 16) (r : Option Ring) : (s.setRing i r).thermal = s.thermal := rfl
@[simp] theorem State.setRing_pins (s : State) (i : Fin 16) (r : Option Ring) : (s.setRing i r).pins = s.pins := rfl
@[simp] theorem State.setRing_freeIdx (s : State) (i : Fin 16) (r : Option Ring) : (s.setRing i r).freeIdx = s.freeIdx := rfl
@[simp] theorem State.setRing_taken (s : State) (i : Fin 16) (r : Option Ring) : (s.setRing i r).taken = s.taken := rfl

/-! ## setWindow -/

@[simp] theorem State.setWindow_pending (s : State) (i : Fin 16) (w : Window) : (s.setWindow i w).pending = s.pending := rfl
@[simp] theorem State.setWindow_strap (s : State) (i : Fin 16) (w : Window) : (s.setWindow i w).strap = s.strap := rfl
@[simp] theorem State.setWindow_link (s : State) (i : Fin 16) (w : Window) : (s.setWindow i w).link = s.link := rfl
@[simp] theorem State.setWindow_cmd (s : State) (i : Fin 16) (w : Window) : (s.setWindow i w).cmd = s.cmd := rfl
@[simp] theorem State.setWindow_rep (s : State) (i : Fin 16) (w : Window) : (s.setWindow i w).rep = s.rep := rfl
@[simp] theorem State.setWindow_mirror (s : State) (i : Fin 16) (w : Window) : (s.setWindow i w).mirror = s.mirror := rfl
@[simp] theorem State.setWindow_block (s : State) (i : Fin 16) (w : Window) : (s.setWindow i w).block = s.block := rfl
@[simp] theorem State.setWindow_rings (s : State) (i : Fin 16) (w : Window) : (s.setWindow i w).rings = s.rings := rfl
@[simp] theorem State.setWindow_intakeWait (s : State) (i : Fin 16) (w : Window) : (s.setWindow i w).intakeWait = s.intakeWait := rfl
@[simp] theorem State.setWindow_tap (s : State) (i : Fin 16) (w : Window) : (s.setWindow i w).tap = s.tap := rfl
@[simp] theorem State.setWindow_lanes (s : State) (i : Fin 16) (w : Window) : (s.setWindow i w).lanes = s.lanes := rfl
@[simp] theorem State.setWindow_groups (s : State) (i : Fin 16) (w : Window) : (s.setWindow i w).groups = s.groups := rfl
@[simp] theorem State.setWindow_sources (s : State) (i : Fin 16) (w : Window) : (s.setWindow i w).sources = s.sources := rfl
@[simp] theorem State.setWindow_zoneMain (s : State) (i : Fin 16) (w : Window) : (s.setWindow i w).zoneMain = s.zoneMain := rfl
@[simp] theorem State.setWindow_zoneTwo (s : State) (i : Fin 16) (w : Window) : (s.setWindow i w).zoneTwo = s.zoneTwo := rfl
@[simp] theorem State.setWindow_pathZero (s : State) (i : Fin 16) (w : Window) : (s.setWindow i w).pathZero = s.pathZero := rfl
@[simp] theorem State.setWindow_pathOne (s : State) (i : Fin 16) (w : Window) : (s.setWindow i w).pathOne = s.pathOne := rfl
@[simp] theorem State.setWindow_bindFirst (s : State) (i : Fin 16) (w : Window) : (s.setWindow i w).bindFirst = s.bindFirst := rfl
@[simp] theorem State.setWindow_owner (s : State) (i : Fin 16) (w : Window) : (s.setWindow i w).owner = s.owner := rfl
@[simp] theorem State.setWindow_mixer (s : State) (i : Fin 16) (w : Window) : (s.setWindow i w).mixer = s.mixer := rfl
@[simp] theorem State.setWindow_tuner (s : State) (i : Fin 16) (w : Window) : (s.setWindow i w).tuner = s.tuner := rfl
@[simp] theorem State.setWindow_region (s : State) (i : Fin 16) (w : Window) : (s.setWindow i w).region = s.region := rfl
@[simp] theorem State.setWindow_stations (s : State) (i : Fin 16) (w : Window) : (s.setWindow i w).stations = s.stations := rfl
@[simp] theorem State.setWindow_presets (s : State) (i : Fin 16) (w : Window) : (s.setWindow i w).presets = s.presets := rfl
@[simp] theorem State.setWindow_out (s : State) (i : Fin 16) (w : Window) : (s.setWindow i w).out = s.out := rfl
@[simp] theorem State.setWindow_pairs (s : State) (i : Fin 16) (w : Window) : (s.setWindow i w).pairs = s.pairs := rfl
@[simp] theorem State.setWindow_thermal (s : State) (i : Fin 16) (w : Window) : (s.setWindow i w).thermal = s.thermal := rfl
@[simp] theorem State.setWindow_pins (s : State) (i : Fin 16) (w : Window) : (s.setWindow i w).pins = s.pins := rfl
@[simp] theorem State.setWindow_freeIdx (s : State) (i : Fin 16) (w : Window) : (s.setWindow i w).freeIdx = s.freeIdx := rfl
@[simp] theorem State.setWindow_taken (s : State) (i : Fin 16) (w : Window) : (s.setWindow i w).taken = s.taken := rfl

/-! ## enqueue -/

@[simp] theorem State.enqueue_pending (s : State) (i : Injected) : (s.enqueue i).pending = s.pending := rfl
@[simp] theorem State.enqueue_strap (s : State) (i : Injected) : (s.enqueue i).strap = s.strap := rfl
@[simp] theorem State.enqueue_windows (s : State) (i : Injected) : (s.enqueue i).windows = s.windows := rfl
@[simp] theorem State.enqueue_cmd (s : State) (i : Injected) : (s.enqueue i).cmd = s.cmd := rfl
@[simp] theorem State.enqueue_rep (s : State) (i : Injected) : (s.enqueue i).rep = s.rep := rfl
@[simp] theorem State.enqueue_mirror (s : State) (i : Injected) : (s.enqueue i).mirror = s.mirror := rfl
@[simp] theorem State.enqueue_block (s : State) (i : Injected) : (s.enqueue i).block = s.block := rfl
@[simp] theorem State.enqueue_rings (s : State) (i : Injected) : (s.enqueue i).rings = s.rings := rfl
@[simp] theorem State.enqueue_intakeWait (s : State) (i : Injected) : (s.enqueue i).intakeWait = s.intakeWait := rfl
@[simp] theorem State.enqueue_tap (s : State) (i : Injected) : (s.enqueue i).tap = s.tap := rfl
@[simp] theorem State.enqueue_lanes (s : State) (i : Injected) : (s.enqueue i).lanes = s.lanes := rfl
@[simp] theorem State.enqueue_groups (s : State) (i : Injected) : (s.enqueue i).groups = s.groups := rfl
@[simp] theorem State.enqueue_sources (s : State) (i : Injected) : (s.enqueue i).sources = s.sources := rfl
@[simp] theorem State.enqueue_zoneMain (s : State) (i : Injected) : (s.enqueue i).zoneMain = s.zoneMain := rfl
@[simp] theorem State.enqueue_zoneTwo (s : State) (i : Injected) : (s.enqueue i).zoneTwo = s.zoneTwo := rfl
@[simp] theorem State.enqueue_pathZero (s : State) (i : Injected) : (s.enqueue i).pathZero = s.pathZero := rfl
@[simp] theorem State.enqueue_pathOne (s : State) (i : Injected) : (s.enqueue i).pathOne = s.pathOne := rfl
@[simp] theorem State.enqueue_bindFirst (s : State) (i : Injected) : (s.enqueue i).bindFirst = s.bindFirst := rfl
@[simp] theorem State.enqueue_owner (s : State) (i : Injected) : (s.enqueue i).owner = s.owner := rfl
@[simp] theorem State.enqueue_mixer (s : State) (i : Injected) : (s.enqueue i).mixer = s.mixer := rfl
@[simp] theorem State.enqueue_tuner (s : State) (i : Injected) : (s.enqueue i).tuner = s.tuner := rfl
@[simp] theorem State.enqueue_region (s : State) (i : Injected) : (s.enqueue i).region = s.region := rfl
@[simp] theorem State.enqueue_stations (s : State) (i : Injected) : (s.enqueue i).stations = s.stations := rfl
@[simp] theorem State.enqueue_presets (s : State) (i : Injected) : (s.enqueue i).presets = s.presets := rfl
@[simp] theorem State.enqueue_out (s : State) (i : Injected) : (s.enqueue i).out = s.out := rfl
@[simp] theorem State.enqueue_pairs (s : State) (i : Injected) : (s.enqueue i).pairs = s.pairs := rfl
@[simp] theorem State.enqueue_thermal (s : State) (i : Injected) : (s.enqueue i).thermal = s.thermal := rfl
@[simp] theorem State.enqueue_pins (s : State) (i : Injected) : (s.enqueue i).pins = s.pins := rfl
@[simp] theorem State.enqueue_freeIdx (s : State) (i : Injected) : (s.enqueue i).freeIdx = s.freeIdx := rfl
@[simp] theorem State.enqueue_taken (s : State) (i : Injected) : (s.enqueue i).taken = s.taken := rfl

/-! ## setPreset -/

@[simp] theorem State.setPreset_pending (s : State) (i : Fin 40) (p : Option Preset) : (s.setPreset i p).pending = s.pending := rfl
@[simp] theorem State.setPreset_strap (s : State) (i : Fin 40) (p : Option Preset) : (s.setPreset i p).strap = s.strap := rfl
@[simp] theorem State.setPreset_windows (s : State) (i : Fin 40) (p : Option Preset) : (s.setPreset i p).windows = s.windows := rfl
@[simp] theorem State.setPreset_link (s : State) (i : Fin 40) (p : Option Preset) : (s.setPreset i p).link = s.link := rfl
@[simp] theorem State.setPreset_cmd (s : State) (i : Fin 40) (p : Option Preset) : (s.setPreset i p).cmd = s.cmd := rfl
@[simp] theorem State.setPreset_rep (s : State) (i : Fin 40) (p : Option Preset) : (s.setPreset i p).rep = s.rep := rfl
@[simp] theorem State.setPreset_mirror (s : State) (i : Fin 40) (p : Option Preset) : (s.setPreset i p).mirror = s.mirror := rfl
@[simp] theorem State.setPreset_block (s : State) (i : Fin 40) (p : Option Preset) : (s.setPreset i p).block = s.block := rfl
@[simp] theorem State.setPreset_rings (s : State) (i : Fin 40) (p : Option Preset) : (s.setPreset i p).rings = s.rings := rfl
@[simp] theorem State.setPreset_intakeWait (s : State) (i : Fin 40) (p : Option Preset) : (s.setPreset i p).intakeWait = s.intakeWait := rfl
@[simp] theorem State.setPreset_tap (s : State) (i : Fin 40) (p : Option Preset) : (s.setPreset i p).tap = s.tap := rfl
@[simp] theorem State.setPreset_lanes (s : State) (i : Fin 40) (p : Option Preset) : (s.setPreset i p).lanes = s.lanes := rfl
@[simp] theorem State.setPreset_groups (s : State) (i : Fin 40) (p : Option Preset) : (s.setPreset i p).groups = s.groups := rfl
@[simp] theorem State.setPreset_sources (s : State) (i : Fin 40) (p : Option Preset) : (s.setPreset i p).sources = s.sources := rfl
@[simp] theorem State.setPreset_zoneMain (s : State) (i : Fin 40) (p : Option Preset) : (s.setPreset i p).zoneMain = s.zoneMain := rfl
@[simp] theorem State.setPreset_zoneTwo (s : State) (i : Fin 40) (p : Option Preset) : (s.setPreset i p).zoneTwo = s.zoneTwo := rfl
@[simp] theorem State.setPreset_pathZero (s : State) (i : Fin 40) (p : Option Preset) : (s.setPreset i p).pathZero = s.pathZero := rfl
@[simp] theorem State.setPreset_pathOne (s : State) (i : Fin 40) (p : Option Preset) : (s.setPreset i p).pathOne = s.pathOne := rfl
@[simp] theorem State.setPreset_bindFirst (s : State) (i : Fin 40) (p : Option Preset) : (s.setPreset i p).bindFirst = s.bindFirst := rfl
@[simp] theorem State.setPreset_owner (s : State) (i : Fin 40) (p : Option Preset) : (s.setPreset i p).owner = s.owner := rfl
@[simp] theorem State.setPreset_mixer (s : State) (i : Fin 40) (p : Option Preset) : (s.setPreset i p).mixer = s.mixer := rfl
@[simp] theorem State.setPreset_tuner (s : State) (i : Fin 40) (p : Option Preset) : (s.setPreset i p).tuner = s.tuner := rfl
@[simp] theorem State.setPreset_region (s : State) (i : Fin 40) (p : Option Preset) : (s.setPreset i p).region = s.region := rfl
@[simp] theorem State.setPreset_stations (s : State) (i : Fin 40) (p : Option Preset) : (s.setPreset i p).stations = s.stations := rfl
@[simp] theorem State.setPreset_out (s : State) (i : Fin 40) (p : Option Preset) : (s.setPreset i p).out = s.out := rfl
@[simp] theorem State.setPreset_pairs (s : State) (i : Fin 40) (p : Option Preset) : (s.setPreset i p).pairs = s.pairs := rfl
@[simp] theorem State.setPreset_thermal (s : State) (i : Fin 40) (p : Option Preset) : (s.setPreset i p).thermal = s.thermal := rfl
@[simp] theorem State.setPreset_pins (s : State) (i : Fin 40) (p : Option Preset) : (s.setPreset i p).pins = s.pins := rfl
@[simp] theorem State.setPreset_freeIdx (s : State) (i : Fin 40) (p : Option Preset) : (s.setPreset i p).freeIdx = s.freeIdx := rfl
@[simp] theorem State.setPreset_taken (s : State) (i : Fin 40) (p : Option Preset) : (s.setPreset i p).taken = s.taken := rfl

/-! ## setZone -/

@[simp] theorem State.setZone_pending (s : State) (z : Zone) (r : ZoneRec) : (s.setZone z r).pending = s.pending := by cases z <;> rfl
@[simp] theorem State.setZone_strap (s : State) (z : Zone) (r : ZoneRec) : (s.setZone z r).strap = s.strap := by cases z <;> rfl
@[simp] theorem State.setZone_windows (s : State) (z : Zone) (r : ZoneRec) : (s.setZone z r).windows = s.windows := by cases z <;> rfl
@[simp] theorem State.setZone_link (s : State) (z : Zone) (r : ZoneRec) : (s.setZone z r).link = s.link := by cases z <;> rfl
@[simp] theorem State.setZone_cmd (s : State) (z : Zone) (r : ZoneRec) : (s.setZone z r).cmd = s.cmd := by cases z <;> rfl
@[simp] theorem State.setZone_rep (s : State) (z : Zone) (r : ZoneRec) : (s.setZone z r).rep = s.rep := by cases z <;> rfl
@[simp] theorem State.setZone_mirror (s : State) (z : Zone) (r : ZoneRec) : (s.setZone z r).mirror = s.mirror := by cases z <;> rfl
@[simp] theorem State.setZone_block (s : State) (z : Zone) (r : ZoneRec) : (s.setZone z r).block = s.block := by cases z <;> rfl
@[simp] theorem State.setZone_rings (s : State) (z : Zone) (r : ZoneRec) : (s.setZone z r).rings = s.rings := by cases z <;> rfl
@[simp] theorem State.setZone_intakeWait (s : State) (z : Zone) (r : ZoneRec) : (s.setZone z r).intakeWait = s.intakeWait := by cases z <;> rfl
@[simp] theorem State.setZone_tap (s : State) (z : Zone) (r : ZoneRec) : (s.setZone z r).tap = s.tap := by cases z <;> rfl
@[simp] theorem State.setZone_lanes (s : State) (z : Zone) (r : ZoneRec) : (s.setZone z r).lanes = s.lanes := by cases z <;> rfl
@[simp] theorem State.setZone_groups (s : State) (z : Zone) (r : ZoneRec) : (s.setZone z r).groups = s.groups := by cases z <;> rfl
@[simp] theorem State.setZone_sources (s : State) (z : Zone) (r : ZoneRec) : (s.setZone z r).sources = s.sources := by cases z <;> rfl
@[simp] theorem State.setZone_pathZero (s : State) (z : Zone) (r : ZoneRec) : (s.setZone z r).pathZero = s.pathZero := by cases z <;> rfl
@[simp] theorem State.setZone_pathOne (s : State) (z : Zone) (r : ZoneRec) : (s.setZone z r).pathOne = s.pathOne := by cases z <;> rfl
@[simp] theorem State.setZone_bindFirst (s : State) (z : Zone) (r : ZoneRec) : (s.setZone z r).bindFirst = s.bindFirst := by cases z <;> rfl
@[simp] theorem State.setZone_owner (s : State) (z : Zone) (r : ZoneRec) : (s.setZone z r).owner = s.owner := by cases z <;> rfl
@[simp] theorem State.setZone_mixer (s : State) (z : Zone) (r : ZoneRec) : (s.setZone z r).mixer = s.mixer := by cases z <;> rfl
@[simp] theorem State.setZone_tuner (s : State) (z : Zone) (r : ZoneRec) : (s.setZone z r).tuner = s.tuner := by cases z <;> rfl
@[simp] theorem State.setZone_region (s : State) (z : Zone) (r : ZoneRec) : (s.setZone z r).region = s.region := by cases z <;> rfl
@[simp] theorem State.setZone_stations (s : State) (z : Zone) (r : ZoneRec) : (s.setZone z r).stations = s.stations := by cases z <;> rfl
@[simp] theorem State.setZone_presets (s : State) (z : Zone) (r : ZoneRec) : (s.setZone z r).presets = s.presets := by cases z <;> rfl
@[simp] theorem State.setZone_out (s : State) (z : Zone) (r : ZoneRec) : (s.setZone z r).out = s.out := by cases z <;> rfl
@[simp] theorem State.setZone_pairs (s : State) (z : Zone) (r : ZoneRec) : (s.setZone z r).pairs = s.pairs := by cases z <;> rfl
@[simp] theorem State.setZone_thermal (s : State) (z : Zone) (r : ZoneRec) : (s.setZone z r).thermal = s.thermal := by cases z <;> rfl
@[simp] theorem State.setZone_pins (s : State) (z : Zone) (r : ZoneRec) : (s.setZone z r).pins = s.pins := by cases z <;> rfl
@[simp] theorem State.setZone_freeIdx (s : State) (z : Zone) (r : ZoneRec) : (s.setZone z r).freeIdx = s.freeIdx := by cases z <;> rfl
@[simp] theorem State.setZone_taken (s : State) (z : Zone) (r : ZoneRec) : (s.setZone z r).taken = s.taken := by cases z <;> rfl

/-! ## setPath -/

@[simp] theorem State.setPath_pending (s : State) (p : PathId) (r : PathRec) : (s.setPath p r).pending = s.pending := by cases p <;> rfl
@[simp] theorem State.setPath_strap (s : State) (p : PathId) (r : PathRec) : (s.setPath p r).strap = s.strap := by cases p <;> rfl
@[simp] theorem State.setPath_windows (s : State) (p : PathId) (r : PathRec) : (s.setPath p r).windows = s.windows := by cases p <;> rfl
@[simp] theorem State.setPath_link (s : State) (p : PathId) (r : PathRec) : (s.setPath p r).link = s.link := by cases p <;> rfl
@[simp] theorem State.setPath_cmd (s : State) (p : PathId) (r : PathRec) : (s.setPath p r).cmd = s.cmd := by cases p <;> rfl
@[simp] theorem State.setPath_rep (s : State) (p : PathId) (r : PathRec) : (s.setPath p r).rep = s.rep := by cases p <;> rfl
@[simp] theorem State.setPath_mirror (s : State) (p : PathId) (r : PathRec) : (s.setPath p r).mirror = s.mirror := by cases p <;> rfl
@[simp] theorem State.setPath_block (s : State) (p : PathId) (r : PathRec) : (s.setPath p r).block = s.block := by cases p <;> rfl
@[simp] theorem State.setPath_rings (s : State) (p : PathId) (r : PathRec) : (s.setPath p r).rings = s.rings := by cases p <;> rfl
@[simp] theorem State.setPath_intakeWait (s : State) (p : PathId) (r : PathRec) : (s.setPath p r).intakeWait = s.intakeWait := by cases p <;> rfl
@[simp] theorem State.setPath_tap (s : State) (p : PathId) (r : PathRec) : (s.setPath p r).tap = s.tap := by cases p <;> rfl
@[simp] theorem State.setPath_lanes (s : State) (p : PathId) (r : PathRec) : (s.setPath p r).lanes = s.lanes := by cases p <;> rfl
@[simp] theorem State.setPath_groups (s : State) (p : PathId) (r : PathRec) : (s.setPath p r).groups = s.groups := by cases p <;> rfl
@[simp] theorem State.setPath_sources (s : State) (p : PathId) (r : PathRec) : (s.setPath p r).sources = s.sources := by cases p <;> rfl
@[simp] theorem State.setPath_zoneMain (s : State) (p : PathId) (r : PathRec) : (s.setPath p r).zoneMain = s.zoneMain := by cases p <;> rfl
@[simp] theorem State.setPath_zoneTwo (s : State) (p : PathId) (r : PathRec) : (s.setPath p r).zoneTwo = s.zoneTwo := by cases p <;> rfl
@[simp] theorem State.setPath_bindFirst (s : State) (p : PathId) (r : PathRec) : (s.setPath p r).bindFirst = s.bindFirst := by cases p <;> rfl
@[simp] theorem State.setPath_owner (s : State) (p : PathId) (r : PathRec) : (s.setPath p r).owner = s.owner := by cases p <;> rfl
@[simp] theorem State.setPath_mixer (s : State) (p : PathId) (r : PathRec) : (s.setPath p r).mixer = s.mixer := by cases p <;> rfl
@[simp] theorem State.setPath_tuner (s : State) (p : PathId) (r : PathRec) : (s.setPath p r).tuner = s.tuner := by cases p <;> rfl
@[simp] theorem State.setPath_region (s : State) (p : PathId) (r : PathRec) : (s.setPath p r).region = s.region := by cases p <;> rfl
@[simp] theorem State.setPath_stations (s : State) (p : PathId) (r : PathRec) : (s.setPath p r).stations = s.stations := by cases p <;> rfl
@[simp] theorem State.setPath_presets (s : State) (p : PathId) (r : PathRec) : (s.setPath p r).presets = s.presets := by cases p <;> rfl
@[simp] theorem State.setPath_out (s : State) (p : PathId) (r : PathRec) : (s.setPath p r).out = s.out := by cases p <;> rfl
@[simp] theorem State.setPath_pairs (s : State) (p : PathId) (r : PathRec) : (s.setPath p r).pairs = s.pairs := by cases p <;> rfl
@[simp] theorem State.setPath_thermal (s : State) (p : PathId) (r : PathRec) : (s.setPath p r).thermal = s.thermal := by cases p <;> rfl
@[simp] theorem State.setPath_pins (s : State) (p : PathId) (r : PathRec) : (s.setPath p r).pins = s.pins := by cases p <;> rfl
@[simp] theorem State.setPath_freeIdx (s : State) (p : PathId) (r : PathRec) : (s.setPath p r).freeIdx = s.freeIdx := by cases p <;> rfl
@[simp] theorem State.setPath_taken (s : State) (p : PathId) (r : PathRec) : (s.setPath p r).taken = s.taken := by cases p <;> rfl

/-! ## Reads after writes -/

/-- A zone record that was put in its place is read back. -/
@[simp] theorem State.zone_setZone_same (s : State) (z : Zone) (r : ZoneRec) : (s.setZone z r).zone z = r := by
  cases z <;> rfl

/-- The other zone's record is kept. -/
@[simp] theorem State.zone_setZone_other (s : State) (z : Zone) (r : ZoneRec) :
    (s.setZone z r).zone z.other = s.zone z.other := by
  cases z <;> rfl

/-- A zone's record after a zone record was put in its place. -/
theorem State.zone_setZone (s : State) (z y : Zone) (r : ZoneRec) :
    (s.setZone z r).zone y = if z = y then r else s.zone y := by
  cases z <;> cases y <;> rfl

/-- A path record that was put in its place is read back. -/
@[simp] theorem State.path_setPath_same (s : State) (p : PathId) (r : PathRec) : (s.setPath p r).path p = r := by
  cases p <;> rfl

/-- The other path's record is kept. -/
@[simp] theorem State.path_setPath_other (s : State) (p : PathId) (r : PathRec) :
    (s.setPath p r).path p.other = s.path p.other := by
  cases p <;> rfl

/-- A path's record after a path record was put in its place. -/
theorem State.path_setPath (s : State) (p q : PathId) (r : PathRec) :
    (s.setPath p r).path q = if p = q then r else s.path q := by
  cases p <;> cases q <;> rfl

/-- Putting a path record in its place keeps the zones. -/
@[simp] theorem State.zone_setPath (s : State) (z : Zone) (p : PathId) (r : PathRec) :
    (s.setPath p r).zone z = s.zone z := by
  cases p <;> rfl

/-- Putting a zone record in its place keeps the paths. -/
@[simp] theorem State.path_setZone (s : State) (z : Zone) (p : PathId) (r : ZoneRec) :
    (s.setZone z r).path p = s.path p := by
  cases z <;> rfl

/-- Writing a zone record twice leaves the second. -/
@[simp] theorem State.setZone_setZone (s : State) (z : Zone) (r q : ZoneRec) :
    (s.setZone z r).setZone z q = s.setZone z q := by
  cases z <;> rfl

/-- Writing a path record twice leaves the second. -/
@[simp] theorem State.setPath_setPath (s : State) (p : PathId) (r q : PathRec) :
    (s.setPath p r).setPath p q = s.setPath p q := by
  cases p <;> rfl

/-- Writing a lane record twice leaves the second. -/
@[simp] theorem State.setLane_setLane (s : State) (l : Fin 4) (r q : LaneRec) :
    (s.setLane l r).setLane l q = s.setLane l q := by
  simp [State.setLane]

/-- Writing a group record twice leaves the second. -/
@[simp] theorem State.setGroup_setGroup (s : State) (e : Fin 12) (g h : Option GroupRec) :
    (s.setGroup e g).setGroup e h = s.setGroup e h := by
  simp [State.setGroup]

/-- Writing a source entry twice leaves the second. -/
@[simp] theorem State.setSource_setSource (s : State) (e : Fin 12) (r q : SourceEntry) :
    (s.setSource e r).setSource e q = s.setSource e q := by
  simp [State.setSource]

/-- Writing a channel record twice leaves the second. -/
@[simp] theorem State.setChan_setChan (s : State) (c : Fin 12) (r q : Channel) :
    (s.setChan c r).setChan c q = s.setChan c q := by
  simp [State.setChan]

/-- Writing a pair record twice leaves the second. -/
@[simp] theorem State.setPair_setPair (s : State) (n : Fin 6) (r q : Pair) :
    (s.setPair n r).setPair n q = s.setPair n q := by
  simp [State.setPair]

/-- Writing a ring twice leaves the second. -/
@[simp] theorem State.setRing_setRing (s : State) (i : Fin 16) (r q : Option Ring) :
    (s.setRing i r).setRing i q = s.setRing i q := by
  simp [State.setRing]

/-- Writing a window twice leaves the second. -/
@[simp] theorem State.setWindow_setWindow (s : State) (i : Fin 16) (w v : Window) :
    (s.setWindow i w).setWindow i v = s.setWindow i v := by
  simp [State.setWindow]

/-- A lane record that was put in its place is read back. -/
@[simp] theorem State.lane_setLane_same (s : State) (l : Fin 4) (r : LaneRec) : (s.setLane l r).lane l = r :=
  getAt_setAt_same s.lanes l r

/-- A lane's record after a lane record was put in its place. -/
theorem State.lane_setLane (s : State) (l k : Fin 4) (r : LaneRec) :
    (s.setLane l r).lane k = if l = k then r else s.lane k :=
  getAt_setAt s.lanes l k r

/-- A group record that was put in its place is read back. -/
@[simp] theorem State.group_setGroup_same (s : State) (e : Fin 12) (g : Option GroupRec) :
    (s.setGroup e g).group e = g :=
  getAt_setAt_same s.groups e g

/-- A group record after a group record was put in its place. -/
theorem State.group_setGroup (s : State) (e x : Fin 12) (g : Option GroupRec) :
    (s.setGroup e g).group x = if e = x then g else s.group x :=
  getAt_setAt s.groups e x g

/-- A source entry that was put in its place is read back. -/
@[simp] theorem State.source_setSource_same (s : State) (e : Fin 12) (r : SourceEntry) :
    (s.setSource e r).source e = r :=
  getAt_setAt_same s.sources e r

/-- A channel record that was put in its place is read back. -/
@[simp] theorem State.chan_setChan_same (s : State) (c : Fin 12) (r : Channel) : (s.setChan c r).chan c = r :=
  getAt_setAt_same s.out.channels c r

/-- A channel's record after a channel record was put in its place. -/
theorem State.chan_setChan (s : State) (c d : Fin 12) (r : Channel) :
    (s.setChan c r).chan d = if c = d then r else s.chan d :=
  getAt_setAt s.out.channels c d r

/-- A pair record that was put in its place is read back. -/
@[simp] theorem State.pair_setPair_same (s : State) (n : Fin 6) (r : Pair) : (s.setPair n r).pair n = r :=
  getAt_setAt_same s.pairs n r

/-- A pair's record after a pair record was put in its place. -/
theorem State.pair_setPair (s : State) (n m : Fin 6) (r : Pair) :
    (s.setPair n r).pair m = if n = m then r else s.pair m :=
  getAt_setAt s.pairs n m r

/-- A ring that was put in its place is read back. -/
@[simp] theorem State.ring_setRing_same (s : State) (i : Fin 16) (r : Option Ring) : (s.setRing i r).ring i = r :=
  getAt_setAt_same s.rings i r

/-- A ring after a ring was put in its place. -/
theorem State.ring_setRing (s : State) (i j : Fin 16) (r : Option Ring) :
    (s.setRing i r).ring j = if i = j then r else s.ring j :=
  getAt_setAt s.rings i j r

/-- A window that was put in its place is read back. -/
@[simp] theorem State.window_setWindow_same (s : State) (i : Fin 16) (w : Window) :
    (s.setWindow i w).window i = w :=
  getAt_setAt_same s.windows i w

/-- Writing a channel record keeps every field of the output unit but the channels. -/
@[simp] theorem State.setChan_out_crossover (s : State) (c : Fin 12) (r : Channel) :
    (s.setChan c r).out.crossover = s.out.crossover := rfl

@[simp] theorem State.setChan_out_meterPeriod (s : State) (c : Fin 12) (r : Channel) :
    (s.setChan c r).out.meterPeriod = s.out.meterPeriod := rfl

@[simp] theorem State.setChan_out_sent (s : State) (c : Fin 12) (r : Channel) :
    (s.setChan c r).out.sent = s.out.sent := rfl

@[simp] theorem State.setChan_out_samples (s : State) (c : Fin 12) (r : Channel) :
    (s.setChan c r).out.samples = s.out.samples := rfl

/-- Placing a write in the injection queue lengthens it by one and keeps the rest of the link. -/
@[simp] theorem State.enqueue_injq (s : State) (i : Injected) : (s.enqueue i).link.injq = s.link.injq ++ [i] := rfl

@[simp] theorem State.enqueue_forwardCount (s : State) (i : Injected) :
    (s.enqueue i).link.forwardCount = s.link.forwardCount := rfl

@[simp] theorem State.enqueue_slot (s : State) (i : Injected) : (s.enqueue i).link.slot = s.link.slot := rfl

@[simp] theorem State.enqueue_inFlight (s : State) (i : Injected) :
    (s.enqueue i).link.inFlight = s.link.inFlight := rfl

end Sys2Proof.Machine
end

