-- ==== Sys2Proof/Laws/Memory.lean ====
section
/-! SUPPORT. The byte memories: writing keeps the canonical form, and a read gives what was last written. -/

namespace Sys2Proof.Machine

open Sys2Proof

/-- A canonical memory is canonical from any lower address. -/
theorem memWfFrom_mono {lo hi : Nat} {m : Mem} (hle : lo ≤ hi) (h : memWfFrom hi m = true) :
    memWfFrom lo m = true := by
  cases m with
  | nil => rfl
  | cons kv m =>
    simp only [memWfFrom, Bool.and_eq_true, decide_eq_true_eq] at h ⊢
    exact ⟨⟨by omega, h.1.2⟩, h.2⟩

/-- Writing a byte keeps the canonical form from an address at or below the one written. -/
theorem memWfFrom_memWrite (m : Mem) (lo a : Nat) (b : Byte) (hle : lo ≤ a) (h : memWfFrom lo m = true) :
    memWfFrom lo (memWrite m a b) = true := by
  induction m generalizing lo with
  | nil =>
    unfold memWrite
    by_cases hb : b = 0
    · rw [if_pos hb]; rfl
    · rw [if_neg hb]
      simp only [memWfFrom, Bool.and_eq_true, decide_eq_true_eq, and_true]
      exact ⟨hle, hb⟩
  | cons kv m ih =>
    obtain ⟨k, v⟩ := kv
    have h0 := h
    simp only [memWfFrom, Bool.and_eq_true, decide_eq_true_eq] at h
    obtain ⟨⟨hk, hv⟩, hm⟩ := h
    unfold memWrite
    by_cases h1 : a < k
    · rw [if_pos h1]
      by_cases hb : b = 0
      · rw [if_pos hb]; exact h0
      · rw [if_neg hb]
        simp only [memWfFrom, Bool.and_eq_true, decide_eq_true_eq]
        exact ⟨⟨hle, hb⟩, ⟨by omega, hv⟩, hm⟩
    · rw [if_neg h1]
      by_cases h2 : a = k
      · rw [if_pos h2]
        by_cases hb : b = 0
        · rw [if_pos hb]; exact memWfFrom_mono (by omega) hm
        · rw [if_neg hb]
          simp only [memWfFrom, Bool.and_eq_true, decide_eq_true_eq]
          exact ⟨⟨hle, hb⟩, by rw [h2]; exact hm⟩
      · rw [if_neg h2]
        simp only [memWfFrom, Bool.and_eq_true, decide_eq_true_eq]
        exact ⟨⟨hk, hv⟩, ih (k + 1) (by omega) hm⟩

/-- Writing a byte keeps the canonical form. -/
theorem memWf_memWrite (m : Mem) (a : Nat) (b : Byte) (h : memWf m = true) : memWf (memWrite m a b) = true :=
  memWfFrom_memWrite m 0 a b (Nat.zero_le a) h

/-- Storing bytes keeps the canonical form. -/
theorem memWf_memStore (bs : List (Nat × Byte)) (m : Mem) (h : memWf m = true) : memWf (memStore bs m) = true := by
  induction bs generalizing m with
  | nil => exact h
  | cons ab bs ih => exact ih _ (memWf_memWrite m ab.1 ab.2 h)

/-- The empty memory is canonical. -/
theorem memWf_nil : memWf [] = true := rfl

/-- Below its first address a canonical memory reads as zero. -/
theorem memRead_below (m : Mem) (lo a : Nat) (h : memWfFrom lo m = true) (ha : a < lo) : memRead m a = 0 := by
  induction m generalizing lo with
  | nil => rfl
  | cons kv m ih =>
    obtain ⟨k, v⟩ := kv
    simp only [memWfFrom, Bool.and_eq_true, decide_eq_true_eq] at h
    have hne : a ≠ k := by omega
    simp only [memRead, if_neg hne]
    exact ih (k + 1) h.2 (by omega)

/-- A read after a write gives the byte written at its address and what was there elsewhere. -/
theorem memRead_memWrite_from (m : Mem) (lo a c : Nat) (b : Byte) (h : memWfFrom lo m = true) :
    memRead (memWrite m a b) c = if c = a then b else memRead m c := by
  induction m generalizing lo with
  | nil =>
    unfold memWrite
    by_cases hb : b = 0
    · rw [if_pos hb, hb]
      by_cases hc : c = a
      · rw [if_pos hc]; rfl
      · rw [if_neg hc]
    · rw [if_neg hb]; rfl
  | cons kv m ih =>
    obtain ⟨k, v⟩ := kv
    simp only [memWfFrom, Bool.and_eq_true, decide_eq_true_eq] at h
    obtain ⟨⟨hk, hv⟩, hm⟩ := h
    unfold memWrite
    by_cases h1 : a < k
    · rw [if_pos h1]
      by_cases hb : b = 0
      · rw [if_pos hb]
        by_cases hc : c = a
        · rw [if_pos hc, hb]
          have hne : c ≠ k := by omega
          simp only [memRead, if_neg hne]
          exact memRead_below m (k + 1) c hm (by omega)
        · rw [if_neg hc]
      · rw [if_neg hb]; rfl
    · rw [if_neg h1]
      by_cases h2 : a = k
      · rw [if_pos h2]
        subst h2
        by_cases hb : b = 0
        · rw [if_pos hb]
          by_cases hc : c = a
          · rw [if_pos hc, hc, hb]
            exact memRead_below m (a + 1) a hm (by omega)
          · rw [if_neg hc]
            simp only [memRead, if_neg hc]
        · rw [if_neg hb]
          by_cases hc : c = a
          · simp only [memRead, if_pos hc]
          · simp only [memRead, if_neg hc]
      · rw [if_neg h2]
        simp only [memRead]
        by_cases hck : c = k
        · have hne : c ≠ a := by omega
          rw [if_pos hck, if_pos hck, if_neg hne]
        · rw [if_neg hck, if_neg hck, ih (k + 1) hm]

/-- A read after a write in a canonical memory. -/
theorem memRead_memWrite (m : Mem) (a c : Nat) (b : Byte) (h : memWf m = true) :
    memRead (memWrite m a b) c = if c = a then b else memRead m c :=
  memRead_memWrite_from m 0 a c b h

end Sys2Proof.Machine
end

