-- ==== Sys2Proof/Laws/Reports.lean ====
section
/-! SUPPORT. Posting reports (R19, R21, R22): what it changes, and that the two queues keep their limits. -/

namespace Sys2Proof.Machine

open Sys2Proof

/-- Posting a report changes the injection queue and the report unit, and nothing else. -/
theorem State.post_eq (s : State) (r : Report) :
    s.post r = { s with link := { s.link with injq := (s.post r).link.injq }, rep := (s.post r).rep } := by
  unfold State.post
  split_ifs <;> rfl

/-- Raising a report changes the injection queue and the report unit, and nothing else. -/
theorem State.raise_eq (s : State) (k : ReportKind) (u : Nat) (p : List Byte) :
    s.raise k u p
      = { s with link := { s.link with injq := (s.raise k u p).link.injq }, rep := (s.raise k u p).rep } :=
  s.post_eq _

/-- A completion whose tag is none is not raised (R17). -/
@[simp] theorem State.raiseDone_none (s : State) (p : List Byte) : s.raiseDone none p = s := rfl

/-- Raising a completion changes the injection queue and the report unit, and nothing else. -/
theorem State.raiseDone_eq (s : State) (t : Option Nat) (p : List Byte) :
    s.raiseDone t p
      = { s with link := { s.link with injq := (s.raiseDone t p).link.injq }, rep := (s.raiseDone t p).rep } := by
  cases t with
  | none => rfl
  | some _ => exact s.post_eq _

@[simp] theorem State.post_pending (s : State) (r : Report) : (s.post r).pending = s.pending := by rw [s.post_eq]
@[simp] theorem State.post_strap (s : State) (r : Report) : (s.post r).strap = s.strap := by rw [s.post_eq]
@[simp] theorem State.post_windows (s : State) (r : Report) : (s.post r).windows = s.windows := by rw [s.post_eq]
@[simp] theorem State.post_cmd (s : State) (r : Report) : (s.post r).cmd = s.cmd := by rw [s.post_eq]
@[simp] theorem State.post_mirror (s : State) (r : Report) : (s.post r).mirror = s.mirror := by rw [s.post_eq]
@[simp] theorem State.post_block (s : State) (r : Report) : (s.post r).block = s.block := by rw [s.post_eq]
@[simp] theorem State.post_rings (s : State) (r : Report) : (s.post r).rings = s.rings := by rw [s.post_eq]
@[simp] theorem State.post_intakeWait (s : State) (r : Report) : (s.post r).intakeWait = s.intakeWait := by rw [s.post_eq]
@[simp] theorem State.post_tap (s : State) (r : Report) : (s.post r).tap = s.tap := by rw [s.post_eq]
@[simp] theorem State.post_lanes (s : State) (r : Report) : (s.post r).lanes = s.lanes := by rw [s.post_eq]
@[simp] theorem State.post_groups (s : State) (r : Report) : (s.post r).groups = s.groups := by rw [s.post_eq]
@[simp] theorem State.post_sources (s : State) (r : Report) : (s.post r).sources = s.sources := by rw [s.post_eq]
@[simp] theorem State.post_zoneMain (s : State) (r : Report) : (s.post r).zoneMain = s.zoneMain := by rw [s.post_eq]
@[simp] theorem State.post_zoneTwo (s : State) (r : Report) : (s.post r).zoneTwo = s.zoneTwo := by rw [s.post_eq]
@[simp] theorem State.post_pathZero (s : State) (r : Report) : (s.post r).pathZero = s.pathZero := by rw [s.post_eq]
@[simp] theorem State.post_pathOne (s : State) (r : Report) : (s.post r).pathOne = s.pathOne := by rw [s.post_eq]
@[simp] theorem State.post_bindFirst (s : State) (r : Report) : (s.post r).bindFirst = s.bindFirst := by rw [s.post_eq]
@[simp] theorem State.post_owner (s : State) (r : Report) : (s.post r).owner = s.owner := by rw [s.post_eq]
@[simp] theorem State.post_mixer (s : State) (r : Report) : (s.post r).mixer = s.mixer := by rw [s.post_eq]
@[simp] theorem State.post_tuner (s : State) (r : Report) : (s.post r).tuner = s.tuner := by rw [s.post_eq]
@[simp] theorem State.post_region (s : State) (r : Report) : (s.post r).region = s.region := by rw [s.post_eq]
@[simp] theorem State.post_stations (s : State) (r : Report) : (s.post r).stations = s.stations := by rw [s.post_eq]
@[simp] theorem State.post_presets (s : State) (r : Report) : (s.post r).presets = s.presets := by rw [s.post_eq]
@[simp] theorem State.post_out (s : State) (r : Report) : (s.post r).out = s.out := by rw [s.post_eq]
@[simp] theorem State.post_pairs (s : State) (r : Report) : (s.post r).pairs = s.pairs := by rw [s.post_eq]
@[simp] theorem State.post_thermal (s : State) (r : Report) : (s.post r).thermal = s.thermal := by rw [s.post_eq]
@[simp] theorem State.post_pins (s : State) (r : Report) : (s.post r).pins = s.pins := by rw [s.post_eq]
@[simp] theorem State.post_freeIdx (s : State) (r : Report) : (s.post r).freeIdx = s.freeIdx := by rw [s.post_eq]
@[simp] theorem State.post_taken (s : State) (r : Report) : (s.post r).taken = s.taken := by rw [s.post_eq]

@[simp] theorem State.raise_pending (s : State) (k : ReportKind) (u : Nat) (p : List Byte) : (s.raise k u p).pending = s.pending := by rw [s.raise_eq]
@[simp] theorem State.raise_strap (s : State) (k : ReportKind) (u : Nat) (p : List Byte) : (s.raise k u p).strap = s.strap := by rw [s.raise_eq]
@[simp] theorem State.raise_windows (s : State) (k : ReportKind) (u : Nat) (p : List Byte) : (s.raise k u p).windows = s.windows := by rw [s.raise_eq]
@[simp] theorem State.raise_cmd (s : State) (k : ReportKind) (u : Nat) (p : List Byte) : (s.raise k u p).cmd = s.cmd := by rw [s.raise_eq]
@[simp] theorem State.raise_mirror (s : State) (k : ReportKind) (u : Nat) (p : List Byte) : (s.raise k u p).mirror = s.mirror := by rw [s.raise_eq]
@[simp] theorem State.raise_block (s : State) (k : ReportKind) (u : Nat) (p : List Byte) : (s.raise k u p).block = s.block := by rw [s.raise_eq]
@[simp] theorem State.raise_rings (s : State) (k : ReportKind) (u : Nat) (p : List Byte) : (s.raise k u p).rings = s.rings := by rw [s.raise_eq]
@[simp] theorem State.raise_intakeWait (s : State) (k : ReportKind) (u : Nat) (p : List Byte) : (s.raise k u p).intakeWait = s.intakeWait := by rw [s.raise_eq]
@[simp] theorem State.raise_tap (s : State) (k : ReportKind) (u : Nat) (p : List Byte) : (s.raise k u p).tap = s.tap := by rw [s.raise_eq]
@[simp] theorem State.raise_lanes (s : State) (k : ReportKind) (u : Nat) (p : List Byte) : (s.raise k u p).lanes = s.lanes := by rw [s.raise_eq]
@[simp] theorem State.raise_groups (s : State) (k : ReportKind) (u : Nat) (p : List Byte) : (s.raise k u p).groups = s.groups := by rw [s.raise_eq]
@[simp] theorem State.raise_sources (s : State) (k : ReportKind) (u : Nat) (p : List Byte) : (s.raise k u p).sources = s.sources := by rw [s.raise_eq]
@[simp] theorem State.raise_zoneMain (s : State) (k : ReportKind) (u : Nat) (p : List Byte) : (s.raise k u p).zoneMain = s.zoneMain := by rw [s.raise_eq]
@[simp] theorem State.raise_zoneTwo (s : State) (k : ReportKind) (u : Nat) (p : List Byte) : (s.raise k u p).zoneTwo = s.zoneTwo := by rw [s.raise_eq]
@[simp] theorem State.raise_pathZero (s : State) (k : ReportKind) (u : Nat) (p : List Byte) : (s.raise k u p).pathZero = s.pathZero := by rw [s.raise_eq]
@[simp] theorem State.raise_pathOne (s : State) (k : ReportKind) (u : Nat) (p : List Byte) : (s.raise k u p).pathOne = s.pathOne := by rw [s.raise_eq]
@[simp] theorem State.raise_bindFirst (s : State) (k : ReportKind) (u : Nat) (p : List Byte) : (s.raise k u p).bindFirst = s.bindFirst := by rw [s.raise_eq]
@[simp] theorem State.raise_owner (s : State) (k : ReportKind) (u : Nat) (p : List Byte) : (s.raise k u p).owner = s.owner := by rw [s.raise_eq]
@[simp] theorem State.raise_mixer (s : State) (k : ReportKind) (u : Nat) (p : List Byte) : (s.raise k u p).mixer = s.mixer := by rw [s.raise_eq]
@[simp] theorem State.raise_tuner (s : State) (k : ReportKind) (u : Nat) (p : List Byte) : (s.raise k u p).tuner = s.tuner := by rw [s.raise_eq]
@[simp] theorem State.raise_region (s : State) (k : ReportKind) (u : Nat) (p : List Byte) : (s.raise k u p).region = s.region := by rw [s.raise_eq]
@[simp] theorem State.raise_stations (s : State) (k : ReportKind) (u : Nat) (p : List Byte) : (s.raise k u p).stations = s.stations := by rw [s.raise_eq]
@[simp] theorem State.raise_presets (s : State) (k : ReportKind) (u : Nat) (p : List Byte) : (s.raise k u p).presets = s.presets := by rw [s.raise_eq]
@[simp] theorem State.raise_out (s : State) (k : ReportKind) (u : Nat) (p : List Byte) : (s.raise k u p).out = s.out := by rw [s.raise_eq]
@[simp] theorem State.raise_pairs (s : State) (k : ReportKind) (u : Nat) (p : List Byte) : (s.raise k u p).pairs = s.pairs := by rw [s.raise_eq]
@[simp] theorem State.raise_thermal (s : State) (k : ReportKind) (u : Nat) (p : List Byte) : (s.raise k u p).thermal = s.thermal := by rw [s.raise_eq]
@[simp] theorem State.raise_pins (s : State) (k : ReportKind) (u : Nat) (p : List Byte) : (s.raise k u p).pins = s.pins := by rw [s.raise_eq]
@[simp] theorem State.raise_freeIdx (s : State) (k : ReportKind) (u : Nat) (p : List Byte) : (s.raise k u p).freeIdx = s.freeIdx := by rw [s.raise_eq]
@[simp] theorem State.raise_taken (s : State) (k : ReportKind) (u : Nat) (p : List Byte) : (s.raise k u p).taken = s.taken := by rw [s.raise_eq]

/-- Raising a report keeps the path records. -/
@[simp] theorem State.raise_path (s : State) (k : ReportKind) (i : Nat) (pl : List Byte) (p : PathId) :
    (s.raise k i pl).path p = s.path p := by cases p <;> simp [State.path]

@[simp] theorem State.raiseDone_pending (s : State) (t : Option Nat) (p : List Byte) : (s.raiseDone t p).pending = s.pending := by rw [s.raiseDone_eq]
@[simp] theorem State.raiseDone_strap (s : State) (t : Option Nat) (p : List Byte) : (s.raiseDone t p).strap = s.strap := by rw [s.raiseDone_eq]
@[simp] theorem State.raiseDone_windows (s : State) (t : Option Nat) (p : List Byte) : (s.raiseDone t p).windows = s.windows := by rw [s.raiseDone_eq]
@[simp] theorem State.raiseDone_cmd (s : State) (t : Option Nat) (p : List Byte) : (s.raiseDone t p).cmd = s.cmd := by rw [s.raiseDone_eq]
@[simp] theorem State.raiseDone_mirror (s : State) (t : Option Nat) (p : List Byte) : (s.raiseDone t p).mirror = s.mirror := by rw [s.raiseDone_eq]
@[simp] theorem State.raiseDone_block (s : State) (t : Option Nat) (p : List Byte) : (s.raiseDone t p).block = s.block := by rw [s.raiseDone_eq]
@[simp] theorem State.raiseDone_rings (s : State) (t : Option Nat) (p : List Byte) : (s.raiseDone t p).rings = s.rings := by rw [s.raiseDone_eq]
@[simp] theorem State.raiseDone_intakeWait (s : State) (t : Option Nat) (p : List Byte) : (s.raiseDone t p).intakeWait = s.intakeWait := by rw [s.raiseDone_eq]
@[simp] theorem State.raiseDone_tap (s : State) (t : Option Nat) (p : List Byte) : (s.raiseDone t p).tap = s.tap := by rw [s.raiseDone_eq]
@[simp] theorem State.raiseDone_lanes (s : State) (t : Option Nat) (p : List Byte) : (s.raiseDone t p).lanes = s.lanes := by rw [s.raiseDone_eq]
@[simp] theorem State.raiseDone_groups (s : State) (t : Option Nat) (p : List Byte) : (s.raiseDone t p).groups = s.groups := by rw [s.raiseDone_eq]
@[simp] theorem State.raiseDone_sources (s : State) (t : Option Nat) (p : List Byte) : (s.raiseDone t p).sources = s.sources := by rw [s.raiseDone_eq]
@[simp] theorem State.raiseDone_zoneMain (s : State) (t : Option Nat) (p : List Byte) : (s.raiseDone t p).zoneMain = s.zoneMain := by rw [s.raiseDone_eq]
@[simp] theorem State.raiseDone_zoneTwo (s : State) (t : Option Nat) (p : List Byte) : (s.raiseDone t p).zoneTwo = s.zoneTwo := by rw [s.raiseDone_eq]
@[simp] theorem State.raiseDone_pathZero (s : State) (t : Option Nat) (p : List Byte) : (s.raiseDone t p).pathZero = s.pathZero := by rw [s.raiseDone_eq]
@[simp] theorem State.raiseDone_pathOne (s : State) (t : Option Nat) (p : List Byte) : (s.raiseDone t p).pathOne = s.pathOne := by rw [s.raiseDone_eq]
@[simp] theorem State.raiseDone_bindFirst (s : State) (t : Option Nat) (p : List Byte) : (s.raiseDone t p).bindFirst = s.bindFirst := by rw [s.raiseDone_eq]
@[simp] theorem State.raiseDone_owner (s : State) (t : Option Nat) (p : List Byte) : (s.raiseDone t p).owner = s.owner := by rw [s.raiseDone_eq]
@[simp] theorem State.raiseDone_mixer (s : State) (t : Option Nat) (p : List Byte) : (s.raiseDone t p).mixer = s.mixer := by rw [s.raiseDone_eq]
@[simp] theorem State.raiseDone_tuner (s : State) (t : Option Nat) (p : List Byte) : (s.raiseDone t p).tuner = s.tuner := by rw [s.raiseDone_eq]
@[simp] theorem State.raiseDone_region (s : State) (t : Option Nat) (p : List Byte) : (s.raiseDone t p).region = s.region := by rw [s.raiseDone_eq]
@[simp] theorem State.raiseDone_stations (s : State) (t : Option Nat) (p : List Byte) : (s.raiseDone t p).stations = s.stations := by rw [s.raiseDone_eq]
@[simp] theorem State.raiseDone_presets (s : State) (t : Option Nat) (p : List Byte) : (s.raiseDone t p).presets = s.presets := by rw [s.raiseDone_eq]
@[simp] theorem State.raiseDone_out (s : State) (t : Option Nat) (p : List Byte) : (s.raiseDone t p).out = s.out := by rw [s.raiseDone_eq]
@[simp] theorem State.raiseDone_pairs (s : State) (t : Option Nat) (p : List Byte) : (s.raiseDone t p).pairs = s.pairs := by rw [s.raiseDone_eq]
@[simp] theorem State.raiseDone_thermal (s : State) (t : Option Nat) (p : List Byte) : (s.raiseDone t p).thermal = s.thermal := by rw [s.raiseDone_eq]
@[simp] theorem State.raiseDone_pins (s : State) (t : Option Nat) (p : List Byte) : (s.raiseDone t p).pins = s.pins := by rw [s.raiseDone_eq]
@[simp] theorem State.raiseDone_freeIdx (s : State) (t : Option Nat) (p : List Byte) : (s.raiseDone t p).freeIdx = s.freeIdx := by rw [s.raiseDone_eq]
@[simp] theorem State.raiseDone_taken (s : State) (t : Option Nat) (p : List Byte) : (s.raiseDone t p).taken = s.taken := by rw [s.raiseDone_eq]

/-- The forward count does not change when a report is posted. -/
@[simp] theorem State.post_forwardCount (s : State) (r : Report) :
    (s.post r).link.forwardCount = s.link.forwardCount := by rw [s.post_eq]

/-- Replacing a pending report in its place keeps the length of the queue. -/
theorem replaceSame_length (r : Report) (qs ps : List Report) (h : replaceSame r qs = some ps) :
    ps.length = qs.length := by
  induction qs generalizing ps with
  | nil => simp [replaceSame] at h
  | cons q qs ih =>
    unfold replaceSame at h
    split_ifs at h
    · injection h with h; subst h; rfl
    · cases hq : replaceSame r qs with
      | none => simp [hq] at h
      | some os => simp [hq] at h; subst h; simp [ih os hq]

/-- Replacing the newest report of a kind and unit keeps the length of the queue. -/
theorem replaceNewestSame_length (r : Report) (qs ps : List Report) (h : replaceNewestSame r qs = some ps) :
    ps.length = qs.length := by
  unfold replaceNewestSame at h
  cases hq : replaceSame r qs.reverse with
  | none => simp [hq] at h
  | some os =>
    simp [hq] at h
    subst h
    simpa using replaceSame_length r _ _ hq

/-- The RADIO_STATE reports of a list, counted. -/
theorem radioCount_cons (q : Report) (qs : List Report) :
    radioCount (q :: qs) = (if q.kind = .radioState then 1 else 0) + radioCount qs := by
  unfold radioCount
  rw [List.countP_cons]
  by_cases h : q.kind = .radioState <;> simp [h]; omega

/-- Two runs of reports hold together the RADIO_STATE reports of each. -/
theorem radioCount_append (ps qs : List Report) : radioCount (ps ++ qs) = radioCount ps + radioCount qs :=
  List.countP_append

/-- The order of a list does not matter to its number of RADIO_STATE reports. -/
theorem radioCount_reverse (qs : List Report) : radioCount qs.reverse = radioCount qs := List.countP_reverse

/-- Leaving one RADIO_STATE in a queue does not lengthen it. -/
theorem oneRadio_length (qs : List Report) : (oneRadio qs).length ≤ qs.length := by
  induction qs with
  | nil => exact Nat.le_refl _
  | cons q qs ih =>
    unfold oneRadio
    split_ifs
    · exact Nat.le_succ_of_le ih
    · exact Nat.succ_le_succ ih

/-- At most one RADIO_STATE is left (R144). -/
theorem oneRadio_radioCount (qs : List Report) :
    radioCount (oneRadio qs) ≤ 1 ∧ (radioCount qs = 0 → radioCount (oneRadio qs) = 0) := by
  induction qs with
  | nil => exact ⟨Nat.zero_le _, fun h => h⟩
  | cons q qs ih =>
    unfold oneRadio
    by_cases hq : q.kind = .radioState
    · by_cases ha : qs.any (fun x => decide (x.kind = .radioState)) = true
      · rw [if_pos ⟨hq, ha⟩]
        exact ⟨ih.1, fun h => by rw [radioCount_cons, if_pos hq] at h; omega⟩
      · rw [if_neg (fun h => ha h.2)]
        have h0 : radioCount qs = 0 := by
          unfold radioCount
          rw [List.countP_eq_zero]
          intro x hx hd
          exact ha (List.any_eq_true.mpr ⟨x, hx, hd⟩)
        rw [radioCount_cons, if_pos hq, ih.2 h0]
        exact ⟨Nat.le_refl _, fun h => by rw [radioCount_cons, if_pos hq] at h; omega⟩
    · rw [if_neg (fun h => hq h.1), radioCount_cons, if_neg hq]
      refine ⟨by omega, fun h => ?_⟩
      rw [radioCount_cons, if_neg hq] at h
      have := ih.2 (by omega)
      omega

/-- Replacing a report by one of its kind keeps the number of RADIO_STATE reports. -/
theorem replaceSame_radioCount (r : Report) (qs ps : List Report) (h : replaceSame r qs = some ps) :
    radioCount ps = radioCount qs := by
  induction qs generalizing ps with
  | nil => simp [replaceSame] at h
  | cons q qs ih =>
    unfold replaceSame at h
    split_ifs at h with hk
    · injection h with h
      subst h
      rw [radioCount_cons, radioCount_cons, hk.1]
    · cases hq : replaceSame r qs with
      | none => simp [hq] at h
      | some os =>
        simp [hq] at h
        subst h
        rw [radioCount_cons, radioCount_cons, ih os hq]

/-- Dropping a report adds no RADIO_STATE. -/
theorem dropNonDone_radioCount (qs ps : List Report) (h : dropNonDone qs = some ps) :
    radioCount ps ≤ radioCount qs := by
  induction qs generalizing ps with
  | nil => simp [dropNonDone] at h
  | cons q qs ih =>
    unfold dropNonDone at h
    split_ifs at h
    · cases hq : dropNonDone qs with
      | none => simp [hq] at h
      | some os =>
        simp [hq] at h
        subst h
        have := ih os hq
        rw [radioCount_cons, radioCount_cons]
        omega
    · injection h with h
      subst h
      rw [radioCount_cons]
      omega

/-- Dropping a report shortens the queue by one. -/
theorem dropNonDone_length (qs ps : List Report) (h : dropNonDone qs = some ps) : ps.length + 1 = qs.length := by
  induction qs generalizing ps with
  | nil => simp [dropNonDone] at h
  | cons q qs ih =>
    unfold dropNonDone at h
    split_ifs at h
    · cases hq : dropNonDone qs with
      | none => simp [hq] at h
      | some os => simp [hq] at h; subst h; simp [ih os hq]
    · injection h with h; subst h; rfl

/-- Dropping the newest report that is no completion shortens the queue by one. -/
theorem dropNewestNonDone_length (qs ps : List Report) (h : dropNewestNonDone qs = some ps) :
    ps.length + 1 = qs.length := by
  unfold dropNewestNonDone at h
  cases hq : dropNonDone qs.reverse with
  | none => simp [hq] at h
  | some os =>
    simp [hq] at h
    subst h
    have := dropNonDone_length qs.reverse os hq
    simpa using this

/-- The pending queue never holds more than 8 reports (R21). -/
theorem ReportUnit.pend_length (u : ReportUnit) (r : Report) (h : u.queue.length ≤ 8) :
    (u.pend r).queue.length ≤ 8 := by
  unfold ReportUnit.pend
  split_ifs with h1 h2 h3 h4
  · simp; omega
  · refine Nat.le_trans (oneRadio_length _) ?_
    simp; omega
  · split
    · rename_i qs hq
      rw [show ({ u with queue := qs } : ReportUnit).queue = qs from rfl, replaceNewestSame_length r _ _ hq]
      exact h
    · exact h
  · split
    · rename_i qs hq
      have := dropNewestNonDone_length _ _ hq
      simp; omega
    · exact h
  · exact h

/-- A pending queue that holds 8 reports holds at most one RADIO_STATE, whatever arises (R144). -/
theorem ReportUnit.pend_radioCount (u : ReportUnit) (r : Report) (h : u.queue.length ≤ 8)
    (hr : u.queue.length = 8 → radioCount u.queue ≤ 1) :
    (u.pend r).queue.length = 8 → radioCount (u.pend r).queue ≤ 1 := by
  unfold ReportUnit.pend
  split_ifs with h1 h2 h3 h4
  · intro hl
    simp at hl
    omega
  · exact fun _ => (oneRadio_radioCount _).1
  · have h8 := hr (by omega)
    split
    · rename_i qs hq
      intro _
      show radioCount qs ≤ 1
      unfold replaceNewestSame at hq
      cases hs : replaceSame r u.queue.reverse with
      | none => simp [hs] at hq
      | some os =>
        simp [hs] at hq
        subst hq
        rw [radioCount_reverse, replaceSame_radioCount r _ _ hs, radioCount_reverse]
        exact h8
    · exact fun _ => h8
  · have h8 := hr (by omega)
    split
    · rename_i qs hq
      intro _
      show radioCount (qs ++ [r]) ≤ 1
      unfold dropNewestNonDone at hq
      cases hs : dropNonDone u.queue.reverse with
      | none => simp [hs] at hq
      | some os =>
        simp [hs] at hq
        subst hq
        have hd := dropNonDone_radioCount _ _ hs
        rw [radioCount_reverse] at hd
        have hz : radioCount [r] = 0 := by
          rw [radioCount_cons, h4]
          rfl
        rw [radioCount_append, radioCount_reverse, hz]
        omega
    · exact fun _ => h8
  · exact fun _ => hr (by omega)

/-- A report that can be written has a place in the injection queue (R19). -/
theorem State.room_of_canWrite (s : State) (h : s.canWriteReport = true) : s.link.injq.length < 16 := by
  unfold State.canWriteReport State.room at h
  simp at h
  exact h.2

/-- Posting keeps both limits: 16 writes and 8 reports (R10, R21). -/
theorem State.post_limits (s : State) (r : Report) (h : s.link.injq.length ≤ 16 ∧ s.rep.queue.length ≤ 8) :
    (s.post r).link.injq.length ≤ 16 ∧ (s.post r).rep.queue.length ≤ 8 := by
  unfold State.post
  split_ifs with hc
  · have := s.room_of_canWrite hc.2
    refine ⟨?_, ?_⟩
    · show (s.link.injq ++ [_]).length ≤ 16
      simp; omega
    · show s.rep.queue.length ≤ 8
      exact h.2
  · exact ⟨h.1, ReportUnit.pend_length _ _ h.2⟩

/-- Posting keeps at most one RADIO_STATE in a full pending queue (R144). -/
theorem State.post_radioCount (s : State) (r : Report) (h : s.rep.queue.length ≤ 8)
    (hr : s.rep.queue.length = 8 → radioCount s.rep.queue ≤ 1) :
    (s.post r).rep.queue.length = 8 → radioCount (s.post r).rep.queue ≤ 1 := by
  unfold State.post
  split_ifs
  · exact hr
  · exact ReportUnit.pend_radioCount _ _ h hr

end Sys2Proof.Machine
end

