-- ==== Sys2Proof/Laws/Block.lean ====
section
/-! SUPPORT. The parts of an output block (log 2): when a part is made and when not, what a row for an event within a
block does, and that the beginning of a block moves its counter only. -/

namespace Sys2Proof.Machine

open Sys2Proof

/-- A part that has been made is not made again. -/
theorem takePart_made (k : BlockPart) (f : State → State) (s : State) (h : k ∈ s.taken) : takePart k f s = s :=
  if_pos h

/-- A part that has not been made is made and recorded. -/
theorem takePart_open (k : BlockPart) (f : State → State) (s : State) (h : k ∉ s.taken) :
    takePart k f s = { f s with taken := k :: (f s).taken } :=
  if_neg h

/-- A row whose part has been made, or whose event does not occur, changes nothing. -/
theorem blockEvent_none (k : BlockPart) (before : State → State) (occurs : State → Bool) (f : State → State) (s : State)
    (h : k ∈ s.taken ∨ occurs (before s) = false) : blockEvent k before occurs f s = s :=
  if_pos h

/-- A row whose event occurs makes the stages before its part, then the part. -/
theorem blockEvent_occurs (k : BlockPart) (before : State → State) (occurs : State → Bool) (f : State → State)
    (s : State) (hk : k ∉ s.taken) (ho : occurs (before s) = true) :
    blockEvent k before occurs f s = { f (before s) with taken := k :: (f (before s)).taken } := by
  refine if_neg ?_
  rintro (h | h)
  · exact hk h
  · rw [ho] at h
    exact absurd h (by decide)

/-- The beginning of a block moves the block counter, once, and nothing else. -/
theorem State.begun_eq (s : State) :
    s.begun = { s with
      block := if BlockPart.begin ∈ s.taken then s.block else s.block + 1
      taken := if BlockPart.begin ∈ s.taken then s.taken else .begin :: s.taken } := by
  unfold State.begun takePart
  split_ifs <;> rfl

/-- An event row changes nothing of the part but through the stages it makes: where it makes none, all stands. -/
theorem blockEvent_cases (k : BlockPart) (before : State → State) (occurs : State → Bool) (f : State → State)
    (s : State) :
    blockEvent k before occurs f s = s
      ∨ blockEvent k before occurs f s = { f (before s) with taken := k :: (f (before s)).taken } := by
  unfold blockEvent
  split_ifs
  · exact Or.inl rfl
  · exact Or.inr rfl

/-- A path's event that occurs makes the path's part, on the block after the lanes' parts. -/
theorem pathEvent_next (s : State) (p : PathId) (occurs : State → PathId → Bool) (h : BlockPart.path p ∉ s.taken)
    (ho : occurs s.lanesMade p = true) :
    ∃ t, pathEvent p occurs s = t ∧ t.path p = (s.lanesMade.pathBlock p).path p := by
  refine ⟨_, blockEvent_occurs _ _ _ _ s h ho, ?_⟩
  generalize s.lanesMade.pathBlock p = u
  cases p <;> rfl

end Sys2Proof.Machine
end

