-- ==== Sys2Proof/Laws/Command.lean ====
section
/-! SUPPORT. Taking and returning a command of the ring (R14 to R16): when a row acts, and what its return does. -/

namespace Sys2Proof.Machine

open Sys2Proof

/-! ## The bytes a run of writes leaves -/

/-- A run of bytes stored from an address on leaves every byte below it as it was. -/
theorem memRead_addressed_below (bs : List Byte) (a c : Nat) (m : Mem) (h : memWf m = true) (hc : c < a) :
    memRead (memStore (addressed a bs) m) c = memRead m c := by
  induction bs generalizing a m with
  | nil => rfl
  | cons b bs ih =>
    simp only [addressed, memStore]
    rw [ih (a + 1) (memWrite m a b) (memWf_memWrite m a b h) (by omega), memRead_memWrite m a c b h, if_neg (by omega)]

/-- A run of bytes stored in a canonical memory is read back. -/
theorem memBytes_addressed (bs : List Byte) (a : Nat) (m : Mem) (h : memWf m = true) :
    memBytes (memStore (addressed a bs) m) a bs.length = bs := by
  induction bs generalizing a m with
  | nil => rfl
  | cons b bs ih =>
    simp only [addressed, memStore, List.length_cons, memBytes]
    rw [ih (a + 1) _ (memWf_memWrite m a b h), memRead_addressed_below bs (a + 1) a _ (memWf_memWrite m a b h) (by omega),
      memRead_memWrite m a a b h, if_pos rfl]

/-- The conditions of R15 but for the slot's owner hold exactly when nothing holds the command unit back. -/
theorem State.unitReady_iff (s : State) (opcode : Nat) :
    s.UnitReady opcode ↔ s.commandHeld = false ∧ s.snapshotHeld opcode = false := by
  unfold State.UnitReady State.commandHeld State.snapshotHeld State.snapshotPlacing
  cases hj : s.mirror.job with
  | none => simp [and_assoc]
  | some j => cases hp : j.periodic <;> simp [hp, and_assoc]

/-- A row of the command ring acts when slot next can be handed over and taken. -/
theorem State.runHost_ready (s : State) (opcode : Nat) (target : Byte) (args : List Byte) (cmd : State → CmdOut)
    (h : s.CommandReady opcode) :
    s.runHost opcode target args cmd
      = State.returnCommand (cmd (s.handOver (BitVec.ofNat 8 opcode) target args)) (BitVec.ofNat 8 opcode) target := by
  have hr := (s.unitReady_iff opcode).mp h.2
  unfold State.runHost
  simp [h.1, hr.1, hr.2]

/-- A row of the command ring does nothing when slot next is part-owned or a condition of R15 does not hold. -/
theorem State.runHost_waits (s : State) (opcode : Nat) (target : Byte) (args : List Byte) (cmd : State → CmdOut)
    (h : ¬ s.CommandReady opcode) : s.runHost opcode target args cmd = s := by
  unfold State.CommandReady at h
  rw [s.unitReady_iff opcode] at h
  unfold State.runHost
  refine if_pos ?_
  cases h1 : getAt s.cmd.part s.cmd.next with
  | true => exact Or.inl rfl
  | false =>
    cases h3 : s.commandHeld with
    | true => exact Or.inr (Or.inl rfl)
    | false =>
      cases h4 : s.snapshotHeld opcode with
      | true => exact Or.inr (Or.inr rfl)
      | false => exact absurd ⟨h1, h3, h4⟩ h

/-- Handing a command over touches the command unit only. -/
theorem State.handOver_eq (s : State) (opcode target : Byte) (args : List Byte) :
    s.handOver opcode target args
      = { s with cmd := { s.cmd with
            shadow := (s.handOver opcode target args).cmd.shadow
            part := (s.handOver opcode target args).cmd.part } } := rfl

/-- Handing a command over keeps slot next and the waiting return. -/
@[simp] theorem State.handOver_next (s : State) (o t : Byte) (a : List Byte) :
    (s.handOver o t a).cmd.next = s.cmd.next := by rw [s.handOver_eq]

@[simp] theorem State.handOver_ret (s : State) (o t : Byte) (a : List Byte) :
    (s.handOver o t a).cmd.ret = s.cmd.ret := by rw [s.handOver_eq]

@[simp] theorem State.handOver_pending (s : State) (o t : Byte) (a : List Byte) : (s.handOver o t a).pending = s.pending := by rw [s.handOver_eq]
@[simp] theorem State.handOver_strap (s : State) (o t : Byte) (a : List Byte) : (s.handOver o t a).strap = s.strap := by rw [s.handOver_eq]
@[simp] theorem State.handOver_windows (s : State) (o t : Byte) (a : List Byte) : (s.handOver o t a).windows = s.windows := by rw [s.handOver_eq]
@[simp] theorem State.handOver_link (s : State) (o t : Byte) (a : List Byte) : (s.handOver o t a).link = s.link := by rw [s.handOver_eq]
@[simp] theorem State.handOver_rep (s : State) (o t : Byte) (a : List Byte) : (s.handOver o t a).rep = s.rep := by rw [s.handOver_eq]
@[simp] theorem State.handOver_mirror (s : State) (o t : Byte) (a : List Byte) : (s.handOver o t a).mirror = s.mirror := by rw [s.handOver_eq]
@[simp] theorem State.handOver_block (s : State) (o t : Byte) (a : List Byte) : (s.handOver o t a).block = s.block := by rw [s.handOver_eq]
@[simp] theorem State.handOver_rings (s : State) (o t : Byte) (a : List Byte) : (s.handOver o t a).rings = s.rings := by rw [s.handOver_eq]
@[simp] theorem State.handOver_intakeWait (s : State) (o t : Byte) (a : List Byte) : (s.handOver o t a).intakeWait = s.intakeWait := by rw [s.handOver_eq]
@[simp] theorem State.handOver_tap (s : State) (o t : Byte) (a : List Byte) : (s.handOver o t a).tap = s.tap := by rw [s.handOver_eq]
@[simp] theorem State.handOver_lanes (s : State) (o t : Byte) (a : List Byte) : (s.handOver o t a).lanes = s.lanes := by rw [s.handOver_eq]
@[simp] theorem State.handOver_groups (s : State) (o t : Byte) (a : List Byte) : (s.handOver o t a).groups = s.groups := by rw [s.handOver_eq]
@[simp] theorem State.handOver_sources (s : State) (o t : Byte) (a : List Byte) : (s.handOver o t a).sources = s.sources := by rw [s.handOver_eq]
@[simp] theorem State.handOver_zoneMain (s : State) (o t : Byte) (a : List Byte) : (s.handOver o t a).zoneMain = s.zoneMain := by rw [s.handOver_eq]
@[simp] theorem State.handOver_zoneTwo (s : State) (o t : Byte) (a : List Byte) : (s.handOver o t a).zoneTwo = s.zoneTwo := by rw [s.handOver_eq]
@[simp] theorem State.handOver_pathZero (s : State) (o t : Byte) (a : List Byte) : (s.handOver o t a).pathZero = s.pathZero := by rw [s.handOver_eq]
@[simp] theorem State.handOver_pathOne (s : State) (o t : Byte) (a : List Byte) : (s.handOver o t a).pathOne = s.pathOne := by rw [s.handOver_eq]
@[simp] theorem State.handOver_bindFirst (s : State) (o t : Byte) (a : List Byte) : (s.handOver o t a).bindFirst = s.bindFirst := by rw [s.handOver_eq]
@[simp] theorem State.handOver_owner (s : State) (o t : Byte) (a : List Byte) : (s.handOver o t a).owner = s.owner := by rw [s.handOver_eq]
@[simp] theorem State.handOver_mixer (s : State) (o t : Byte) (a : List Byte) : (s.handOver o t a).mixer = s.mixer := by rw [s.handOver_eq]
@[simp] theorem State.handOver_tuner (s : State) (o t : Byte) (a : List Byte) : (s.handOver o t a).tuner = s.tuner := by rw [s.handOver_eq]
@[simp] theorem State.handOver_region (s : State) (o t : Byte) (a : List Byte) : (s.handOver o t a).region = s.region := by rw [s.handOver_eq]
@[simp] theorem State.handOver_stations (s : State) (o t : Byte) (a : List Byte) : (s.handOver o t a).stations = s.stations := by rw [s.handOver_eq]
@[simp] theorem State.handOver_presets (s : State) (o t : Byte) (a : List Byte) : (s.handOver o t a).presets = s.presets := by rw [s.handOver_eq]
@[simp] theorem State.handOver_out (s : State) (o t : Byte) (a : List Byte) : (s.handOver o t a).out = s.out := by rw [s.handOver_eq]
@[simp] theorem State.handOver_pairs (s : State) (o t : Byte) (a : List Byte) : (s.handOver o t a).pairs = s.pairs := by rw [s.handOver_eq]
@[simp] theorem State.handOver_thermal (s : State) (o t : Byte) (a : List Byte) : (s.handOver o t a).thermal = s.thermal := by rw [s.handOver_eq]
@[simp] theorem State.handOver_pins (s : State) (o t : Byte) (a : List Byte) : (s.handOver o t a).pins = s.pins := by rw [s.handOver_eq]
@[simp] theorem State.handOver_freeIdx (s : State) (o t : Byte) (a : List Byte) : (s.handOver o t a).freeIdx = s.freeIdx := by rw [s.handOver_eq]
@[simp] theorem State.handOver_taken (s : State) (o t : Byte) (a : List Byte) : (s.handOver o t a).taken = s.taken := by rw [s.handOver_eq]

/-- Reads of a zone, a path or a table entry do not see the handover. -/
@[simp] theorem State.handOver_zoneAt (s : State) (o t : Byte) (a : List Byte) (z : Zone) : (s.handOver o t a).zone z = s.zone z := by rw [s.handOver_eq]; cases z <;> rfl
@[simp] theorem State.handOver_pathAt (s : State) (o t : Byte) (a : List Byte) (p : PathId) : (s.handOver o t a).path p = s.path p := by rw [s.handOver_eq]; cases p <;> rfl
@[simp] theorem State.handOver_laneAt (s : State) (o t : Byte) (a : List Byte) (l : Fin 4) : (s.handOver o t a).lane l = s.lane l := by rw [s.handOver_eq]; rfl
@[simp] theorem State.handOver_groupAt (s : State) (o t : Byte) (a : List Byte) (e : Fin 12) : (s.handOver o t a).group e = s.group e := by rw [s.handOver_eq]; rfl
@[simp] theorem State.handOver_sourceAt (s : State) (o t : Byte) (a : List Byte) (e : Fin 12) : (s.handOver o t a).source e = s.source e := by rw [s.handOver_eq]; rfl
@[simp] theorem State.handOver_chanAt (s : State) (o t : Byte) (a : List Byte) (c : Fin 12) : (s.handOver o t a).chan c = s.chan c := by rw [s.handOver_eq]; rfl
@[simp] theorem State.handOver_pairAt (s : State) (o t : Byte) (a : List Byte) (n : Fin 6) : (s.handOver o t a).pair n = s.pair n := by rw [s.handOver_eq]; rfl
@[simp] theorem State.handOver_ringAt (s : State) (o t : Byte) (a : List Byte) (i : Fin 16) : (s.handOver o t a).ring i = s.ring i := by rw [s.handOver_eq]; rfl
@[simp] theorem State.handOver_windowAt (s : State) (o t : Byte) (a : List Byte) (i : Fin 16) : (s.handOver o t a).window i = s.window i := by rw [s.handOver_eq]; rfl

/-- After the handover slot next is part-owned. -/
theorem State.handOver_part (s : State) (opcode target : Byte) (args : List Byte) :
    getAt (s.handOver opcode target args).cmd.part s.cmd.next = true := by
  unfold State.handOver
  simp

/-- Handing a command over keeps the shadow in canonical form. -/
theorem State.handOver_shadow (s : State) (opcode target : Byte) (args : List Byte) (h : memWf s.cmd.shadow = true) :
    memWf (s.handOver opcode target args).cmd.shadow = true :=
  memWf_memStore _ _ h

/-- With a place in the queue the return enters it, and next advances (R15). -/
theorem State.returnCommand_room (o : CmdOut) (opcode target : Byte) (h : o.st.link.injq.length < 16)
    (hs : o.st.snapshotPlacing = false) (hu : o.st.tap.unbinding = false) :
    State.returnCommand o opcode target
      = { o.st with
          cmd := { o.st.cmd with ret := none, next := next64 o.st.cmd.next }
          link := { o.st.link with
            injq := o.st.link.injq ++
              [{ write := fullWrite (o.st.anchorBase + 64 * o.st.cmd.next.val) (returnWord opcode target o)
                 origin := .command o.st.cmd.next }] } } := by
  have hp : ∀ c : CommandUnit, State.snapshotPlacing { o.st with cmd := c } = false := fun _ => hs
  have hr : ∀ c : CommandUnit, State.room { o.st with cmd := c } = true := fun _ => by
    simp [State.room, h]
  unfold State.returnCommand State.placeCommandReturn
  simp [hr, hp, hu]
  rfl

/-- Without a place the unit holds the return, and next stays (R15). -/
theorem State.returnCommand_full (o : CmdOut) (opcode target : Byte)
    (h : 16 ≤ o.st.link.injq.length ∨ o.st.snapshotPlacing = true ∨ o.st.tap.unbinding = true) :
    State.returnCommand o opcode target
      = { o.st with cmd :=
          { o.st.cmd with ret := some { slot := o.st.cmd.next, bytes := returnWord opcode target o } } } := by
  unfold State.returnCommand State.placeCommandReturn
  simp only
  rw [if_pos]
  rcases h with h | h | h
  · left; simp [State.room]; exact h
  · right; left; exact h
  · right; right; exact h

end Sys2Proof.Machine
end

