-- ==== Sys2Proof/Laws/Conditions.lean ====
section
/-! SUPPORT. What the conditions that commands and blocks read say of the records they read: windows in use (R5, R7), lanes
and tuners of the source table (R68), a running seek or scan (R148), the presence of a source (R39, R62, R106), the order of
stations (R153) and the grids of the bands (R131). -/

namespace Sys2Proof.Machine

open Sys2Proof

/-- When a window is in use (R5, R7). -/
theorem State.windowInUse_iff (s : State) (i : Fin 16) : s.windowInUse i = true ↔
    ((∃ b n c, s.window i = .stream b n c)
        ∧ ∃ p e, (s.path p).binding = some e ∧ (s.source e).kind = .stream ∧ (s.source e).window = some i)
    ∨ ((∃ b n c, s.window i = .tap b n c) ∧ s.tap.binding ≠ none) := by
  have names : ∀ p, s.namesWindow p i = true ↔
      ∃ e, (s.path p).binding = some e ∧ (s.source e).kind = .stream ∧ (s.source e).window = some i := by
    intro p; unfold State.namesWindow
    cases (s.path p).binding <;> simp
  unfold State.windowInUse
  cases s.window i with
  | stream b n c =>
    simp only [Bool.or_eq_true, names]
    constructor
    · rintro (⟨e, h⟩ | ⟨e, h⟩)
      · exact .inl ⟨⟨b, n, c, rfl⟩, .p0, e, h⟩
      · exact .inl ⟨⟨b, n, c, rfl⟩, .p1, e, h⟩
    · rintro (⟨-, p, e, h⟩ | ⟨⟨_, _, _, h⟩, -⟩)
      · cases p
        · exact .inl ⟨e, h⟩
        · exact .inr ⟨e, h⟩
      · cases h
  | tap b n c => simp [Option.isSome_iff_ne_none]
  | free => simp
  | anchor b => simp
  | mirror b => simp

/-- Whether a lane of a list stands in the list of another entry (R68, check 6). -/
theorem State.laneTaken_iff (s : State) (e : Fin 12) (ls : List (Fin 4)) :
    s.laneTaken e ls = true ↔ ∃ x, x ≠ e ∧ ∃ l ∈ ls, l ∈ (s.source x).lanes := by
  simp [State.laneTaken, List.any_eq_true]

/-- Whether another entry is of kind TUNER (R68, check 7). -/
theorem State.otherTuner_iff (s : State) (e : Fin 12) :
    s.otherTuner e = true ↔ ∃ x, x ≠ e ∧ (s.source x).kind = .tuner := by
  simp [State.otherTuner, List.any_eq_true]

/-- When a seek or scan runs (R148). -/
theorem State.searching_iff (s : State) : s.searching = true ↔
    s.tuner.state = .seeking ∨ s.tuner.state = .scanning
    ∨ (s.tuner.state = .tuning ∧ ∃ op, s.tuner.op = some op ∧ (op.kind = .seek ∨ op.kind = .scan)) := by
  unfold State.searching
  cases s.tuner.op <;> simp [or_assoc]

/-- The source of a bound path is present: by the kind of its entry (R39, R62, R105, R106). -/
theorem State.present_cases (s : State) (p : PathId) :
    ((s.path p).binding = none → s.present p = false)
    ∧ ∀ e, (s.path p).binding = some e →
      ((s.source e).kind = .none → s.present p = false)
      ∧ ((s.source e).kind = .laneGroup → (s.present p = true ↔ ∃ g, s.group e = some g ∧ g.stage = .running))
      ∧ ((s.source e).kind = .stream → (s.present p = true ↔ ∃ w r, (s.source e).window = some w ∧ s.ring w = some r
          ∧ r.feeds = some p ∧ r.idle = false))
      ∧ ((s.source e).kind = .tuner → (s.present p = true ↔ s.tuner.state = .tuned)) := by
  unfold State.present
  refine ⟨fun h => by rw [h], fun e h => ⟨fun k => by simp only [h, k], fun k => ?_, fun k => ?_, fun k => ?_⟩⟩
  · simp only [h, k]; cases s.group e <;> simp
  · simp only [h, k]
    cases (s.source e).window with
    | none => simp
    | some w => cases hr : s.ring w <;> simp [hr]
  · simp only [h, k]; simp

/-- The order of two stations (R153). -/
theorem Station.before_iff (x y : Station) :
    x.before y = true ↔ (x.band = .fm ∧ y.band = .am) ∨ (x.band = y.band ∧ x.freq < y.freq) := by
  unfold Station.before
  cases x.band <;> cases y.band <;> simp [Band.code]

/-- Two stations at one place of the list (R153). -/
theorem Station.same_iff (x y : Station) : x.same y = true ↔ x.band = y.band ∧ x.freq = y.freq := by
  simp [Station.same]

/-- Two stations a grid step apart (R153). -/
theorem Station.adjacentTo_iff (step : Nat) (x y : Station) :
    x.adjacentTo step y = true ↔ x.band = y.band ∧ (x.freq = y.freq + step ∨ y.freq = x.freq + step) := by
  simp [Station.adjacentTo]

/-- The highest grid point of a band and the points adjacent to a point, from the band's edges and step (R131, R136, R149). -/
theorem Region.grid (r : Region) (b : Band) (lo hi st top : Nat) (h0 : r.low b = lo) (h1 : r.high b = hi)
    (h2 : r.step b = st) (ht : lo + (hi - lo) / st * st = top) :
    r.top b = top ∧ ∀ f, r.adjacent b f .up = (if top < f + st then lo else f + st)
      ∧ r.adjacent b f .down = (if f < lo + st then top else f - st) := by
  have e : r.top b = top := by unfold Region.top; rw [h0, h1, h2, ht]
  exact ⟨e, fun f => ⟨by simp only [Region.adjacent, e, h0, h2], by simp only [Region.adjacent, e, h0, h2]⟩⟩

end Sys2Proof.Machine
end

