-- ==== Sys2Proof/Laws/Tap.lean ====
section
/-! SUPPORT. The slots of the tap: reading a slot after one was put in its place, and what closing a run of slots at
UNBIND_TAP (R47) leaves. -/

namespace Sys2Proof.Machine

open Sys2Proof

/-- Setting a place of a list is the library's operation. -/
theorem listSet_eq {α : Type} (l : List α) (i : Nat) (x : α) : listSet l i x = l.set i x := by
  induction l generalizing i with
  | nil => rfl
  | cons a l ih =>
    cases i with
    | zero => rfl
    | succ i => simp [listSet, ih]

/-- A slot of the tap after a slot of the ring was put in its place. -/
theorem Tap.slot_setSlot (t : Tap) (i j : Nat) (x : TapSlot) (h : i < t.slots.length) :
    (t.setSlot i x).slot j = if i = j then x else t.slot j := by
  unfold Tap.slot Tap.setSlot
  simp only [listSet_eq, List.getD_eq_getElem?_getD, List.getElem?_set]
  by_cases hij : i = j
  · subst hij; simp [h]
  · simp [hij]

/-- Putting a slot back where it stands changes nothing. -/
theorem Tap.setSlot_slot (t : Tap) (i : Nat) (h : i < t.slots.length) : t.setSlot i (t.slot i) = t := by
  unfold Tap.setSlot Tap.slot
  rw [listSet_eq]
  have : t.slots.set i (t.slots.getD i TapSlot.fresh) = t.slots := by
    rw [List.getD_eq_getElem _ _ h]; simp
  rw [this]

/-- A slot as UNBIND_TAP leaves it (R47). -/
def TapSlot.unbound (x : TapSlot) : TapSlot :=
  match x.view with
  | .filling => { x with view := .closing }
  | .offered => { x with view := .closing, count := 0 }
  | .hostOwned | .closing => x

/-- The closing write UNBIND_TAP asks for a slot (R47). -/
def TapSlot.unboundItems (j : Nat) (x : TapSlot) : List TapItem :=
  match x.view with
  | .filling => [TapItem.close j x.count .ok false]
  | .offered => [TapItem.close j 0 .flushed false]
  | .hostOwned | .closing => []

/-- Closing one slot for UNBIND_TAP. -/
theorem Tap.closeForUnbind_eq (t : Tap) (i : Nat) (h : i < t.slots.length) :
    t.closeForUnbind i = { t.setSlot i (t.slot i).unbound with outbox := t.outbox ++ (t.slot i).unboundItems i } := by
  have hs := t.setSlot_slot i h
  unfold Tap.closeForUnbind TapSlot.unbound TapSlot.unboundItems
  simp only []
  generalize hx : t.slot i = x at hs ⊢
  have hs' : { t.setSlot i x with outbox := t.outbox } = t := hs
  obtain ⟨vw, lt, ct⟩ := x
  cases vw
  all_goals first
    | rfl
    | (simp only [reduceCtorEq, if_false, List.append_nil]; exact hs'.symm)

/-- Closing a run of slots for UNBIND_TAP: each is closed as it stood, and their writes stand in the order of the run. -/
theorem Tap.closeAll_spec (l : List Nat) (t : Tap) (hn : l.Nodup) (hl : ∀ i ∈ l, i < t.slots.length) :
    let u := l.foldl (fun t i => t.closeForUnbind i) t
    u.slots.length = t.slots.length ∧ u.hold = t.hold ∧ u.fillPos = t.fillPos ∧ u.gapPending = t.gapPending
      ∧ u.binding = t.binding ∧ u.unbinding = t.unbinding
      ∧ (∀ j, u.slot j = if j ∈ l then (t.slot j).unbound else t.slot j)
      ∧ u.outbox = t.outbox ++ l.flatMap fun j => (t.slot j).unboundItems j := by
  induction l generalizing t with
  | nil => simp
  | cons a l ih =>
    have ha := hl a (by simp)
    have e := t.closeForUnbind_eq a ha
    have hna := (List.nodup_cons.1 hn).1
    have hlen : (t.closeForUnbind a).slots.length = t.slots.length := by
      rw [e]; simp [Tap.setSlot, listSet_eq]
    have hslot : ∀ j, (t.closeForUnbind a).slot j = if a = j then (t.slot a).unbound else t.slot j := by
      intro j; rw [e]; exact t.slot_setSlot a j _ ha
    obtain ⟨h1, h2, h3, h4, h5, h6, h7, h8⟩ :=
      ih (t.closeForUnbind a) (List.nodup_cons.1 hn).2 fun i hi => by rw [hlen]; exact hl i (by simp [hi])
    refine ⟨by simpa [hlen] using h1, by rw [List.foldl_cons, h2, e]; rfl, by rw [List.foldl_cons, h3, e]; rfl,
      by rw [List.foldl_cons, h4, e]; rfl, by rw [List.foldl_cons, h5, e]; rfl,
      by rw [List.foldl_cons, h6, e]; rfl, ?_, ?_⟩
    · intro j
      rw [List.foldl_cons, h7 j, hslot j]
      by_cases hj : a = j
      · subst hj; simp [hna]
      · have : ¬ j = a := fun h => hj h.symm
        simp [hj, this]
    · rw [List.foldl_cons, h8]
      have : (l.flatMap fun j => ((t.closeForUnbind a).slot j).unboundItems j)
          = l.flatMap fun j => (t.slot j).unboundItems j := by
        apply List.flatMap_congr
        intro j hj
        rw [hslot j, if_neg (by rintro rfl; exact hna hj)]
      rw [this]
      conv_lhs => rw [e]
      simp

end Sys2Proof.Machine
end

