-- ==== Sys2Proof/Laws/Intake.lean ====
section
/-! SUPPORT. What the shared operations of the intake give: the carriage frames of a page and their samples (R33, R36), the
window that feeds a path and its sealed run (R29, R38). -/

namespace Sys2Proof.Machine

open Sys2Proof

/-! ## Carriage frames (R33, R36) -/

/-- A role's code, read back. -/
theorem Role.ofCode_iff (n : Nat) (r : Role) : Role.ofCode n = some r ↔ r.code = n := by
  constructor
  · intro h
    unfold Role.ofCode at h
    split at h <;> first | (cases h; rfl) | cases h
  · rintro rfl; cases r <;> rfl

/-- A rate's code, read back. -/
theorem Rate.ofCode_iff (n : Nat) (r : Rate) : Rate.ofCode n = some r ↔ r.code = n := by
  constructor
  · intro h
    unfold Rate.ofCode at h
    split at h <;> first | (cases h; rfl) | cases h
  · rintro rfl; cases r <;> rfl

/-- The roles of a channel map: one source role for each byte. -/
theorem mapRoles_iff (bs : List Byte) (rs : List Role) :
    mapRoles bs = some rs
      ↔ rs.length = bs.length ∧ ∀ j r, rs[j]? = some r → r.isSource = true ∧ r.code = (bs.getD j 0).toNat := by
  induction bs generalizing rs with
  | nil => cases rs <;> simp [mapRoles]
  | cons b bs ih =>
    have hb : mapRoles (b :: bs) = some rs
        ↔ ∃ r t, rs = r :: t ∧ r.isSource = true ∧ r.code = b.toNat ∧ mapRoles bs = some t := by
      simp only [mapRoles]
      constructor
      · intro h
        split at h
        · rename_i x hx
          split_ifs at h with hs
          obtain ⟨t, ht, rfl⟩ := Option.map_eq_some_iff.mp h
          exact ⟨x, t, rfl, hs, (Role.ofCode_iff _ _).mp hx, ht⟩
        · cases h
      · rintro ⟨r, t, rfl, hs, hc, ht⟩
        rw [(Role.ofCode_iff _ _).mpr hc]
        simp [hs, ht]
    rw [hb]
    constructor
    · rintro ⟨r, t, rfl, hs, hc, ht⟩
      obtain ⟨hl, hj⟩ := (ih t).mp ht
      refine ⟨by simp [hl], fun j x hx => ?_⟩
      cases j with
      | zero => cases hx; exact ⟨hs, hc⟩
      | succ j => exact hj j x hx
    · rintro ⟨hl, hj⟩
      cases rs with
      | nil => cases hl
      | cons r t =>
        obtain ⟨hs, hc⟩ := hj 0 r rfl
        exact ⟨r, t, rfl, hs, hc, (ih t).mpr ⟨by simpa using hl, fun j x hx => hj (j + 1) x hx⟩⟩

/-- The source roles, by name. -/
theorem Role.isSource_iff (r : Role) :
    r.isSource = true ↔ r ∈ [Role.fl, .fr, .c, .lfe, .sl, .sr, .bl, .br, .tfl, .tfr, .tbl, .tbr] := by
  cases r <;> decide

/-- A byte of a list whose front is cut off. -/
theorem getD_drop (xs : List Byte) (c j : Nat) : (xs.drop c).getD j 0 = xs.getD (c + j) 0 := by
  simp [List.getD_eq_getElem?_getD, List.getElem?_drop]

/-- A carriage frame stands at an offset exactly when the header's bytes and the length pass the five checks (R33). -/
theorem parseCarriage_iff (page : Mem) (off stop : Nat) (c : Carriage) :
    let b (k : Nat) : Byte := memRead page (off + k)
    let n (k : Nat) : Nat := (b k).toNat
    let chans := c.format.roles.length
    parseCarriage page off stop = some c ↔
      (b 0 = 0xC7 ∧ b 1 = 0x5A)
      ∧ n 15 = (n 0 + n 1 + n 2 + n 3 + n 4 + n 5 + n 6 + n 7 + n 8 + n 9 + n 10 + n 11 + n 12 + n 13 + n 14) % 256
      ∧ (1 ≤ n 2 ∧ n 2 ≤ 8) ∧ n 3 = c.format.rate.code ∧ (1 ≤ c.frames ∧ c.frames ≤ 256)
      ∧ c.frames = n 4 + 256 * n 5
      ∧ chans = n 2 ∧ c.format.roles.Nodup
      ∧ (∀ j r, c.format.roles[j]? = some r → r.code = n (6 + j)
          ∧ r ∈ [Role.fl, .fr, .c, .lfe, .sl, .sr, .bl, .br, .tfl, .tfr, .tbl, .tbr])
      ∧ (∀ j, chans ≤ j → j < 8 → n (6 + j) = 0)
      ∧ c.start = off + 16 ∧ off + 16 + 4 * chans * c.frames ≤ stop := by
  intro b n chans
  let map : List Byte := [b 6, b 7, b 8, b 9, b 10, b 11, b 12, b 13]
  have key : ∀ cc : Carriage, parseCarriage page off stop = some cc ↔
      off + 16 ≤ stop ∧ ∃ rate roles, Rate.ofCode (n 3) = some rate ∧ mapRoles (map.take (n 2)) = some roles
        ∧ (b 0 = 0xC7 ∧ b 1 = 0x5A
          ∧ n 15 = (n 0 + n 1 + n 2 + n 3 + n 4 + n 5 + n 6 + n 7 + n 8 + n 9 + n 10 + n 11 + n 12 + n 13 + n 14) % 256
          ∧ 1 ≤ n 2 ∧ n 2 ≤ 8 ∧ 1 ≤ n 4 + 256 * n 5 ∧ n 4 + 256 * n 5 ≤ 256 ∧ roles.Nodup
          ∧ (map.drop (n 2)).all (· == 0) = true ∧ off + 16 + 4 * n 2 * (n 4 + 256 * n 5) ≤ stop)
        ∧ cc = { format := { rate := rate, roles := roles }, start := off + 16, frames := n 4 + 256 * n 5 } := by
    intro cc
    have hsum : headerSum (memBytes page off 16)
        = (n 0 + n 1 + n 2 + n 3 + n 4 + n 5 + n 6 + n 7 + n 8 + n 9 + n 10 + n 11 + n 12 + n 13 + n 14) % 256 := by
      simp only [headerSum, memBytes, List.take, List.map, sumNat, n, b, Nat.add_assoc, Nat.reduceAdd, Nat.add_zero]
    have hn : leNat (((memBytes page off 16).drop 4).take 2) = n 4 + 256 * n 5 := by
      simp only [memBytes, List.drop, List.take, leNat, n, b, Nat.add_assoc, Nat.reduceAdd]; omega
    have hmap : ((memBytes page off 16).drop 6).take 8 = map := by
      simp only [memBytes, List.drop, List.take, map, b, Nat.add_assoc, Nat.reduceAdd]
    have h0 : argByte (memBytes page off 16) 0 = b 0 := rfl
    have h1 : argByte (memBytes page off 16) 1 = b 1 := rfl
    have h2 : argByte (memBytes page off 16) 2 = b 2 := rfl
    have h3 : argByte (memBytes page off 16) 3 = b 3 := rfl
    have h15 : argByte (memBytes page off 16) 15 = b 15 := rfl
    unfold parseCarriage
    simp only [hsum, hn, hmap, h0, h1, h2, h3, h15]
    constructor
    · intro h
      split_ifs at h with hs
      split at h
      · rename_i rate roles hr hm
        split_ifs at h with hc
        cases h
        exact ⟨by omega, rate, roles, hr, hm, hc, rfl⟩
      · cases h
    · rintro ⟨hs, rate, roles, hr, hm, hc, rfl⟩
      rw [if_neg (by omega)]
      simp only [hr, hm, n] at hc ⊢
      rw [if_pos hc]
  rw [key]
  constructor
  · rintro ⟨hs, rate, roles, hr, hm, ⟨c0, c1, c15, l2, u2, l4, u4, hd, hz, he⟩, rfl⟩
    obtain ⟨hl, hj⟩ := (mapRoles_iff _ _).mp hm
    have hlen : roles.length = n 2 := by rw [hl, List.length_take]; show min (n 2) 8 = n 2; omega
    refine ⟨⟨c0, c1⟩, c15, ⟨l2, u2⟩, ((Rate.ofCode_iff _ _).mp hr).symm, ⟨l4, u4⟩, rfl, hlen, hd, ?_, ?_, rfl, ?_⟩
    · intro j r hjr
      obtain ⟨h1, h2⟩ := hj j r hjr
      have hjl : j < n 2 := by rw [← hlen]; exact (List.getElem?_eq_some_iff.mp hjr).1
      refine ⟨?_, (Role.isSource_iff r).mp h1⟩
      rw [h2, List.getD_eq_getElem?_getD, List.getElem?_take, if_pos hjl]
      have : j = 0 ∨ j = 1 ∨ j = 2 ∨ j = 3 ∨ j = 4 ∨ j = 5 ∨ j = 6 ∨ j = 7 := by omega
      rcases this with rfl | rfl | rfl | rfl | rfl | rfl | rfl | rfl <;> rfl
    · intro j h1 h2
      have hin : (map.drop (n 2)).getD (j - n 2) 0 = 0 := by
        have hall := List.all_eq_true.mp hz
        rw [List.getD_eq_getElem?_getD]
        cases hx : (map.drop (n 2))[j - n 2]? with
        | none => rfl
        | some x => simpa using hall x (List.mem_of_getElem? hx)
      rw [getD_drop, show n 2 + (j - n 2) = j by simp only [chans] at h1; omega] at hin
      have : j = 0 ∨ j = 1 ∨ j = 2 ∨ j = 3 ∨ j = 4 ∨ j = 5 ∨ j = 6 ∨ j = 7 := by omega
      rcases this with rfl | rfl | rfl | rfl | rfl | rfl | rfl | rfl <;> exact congrArg BitVec.toNat hin
    · show off + 16 + 4 * roles.length * _ ≤ stop
      rw [hlen]; exact he
  · rintro ⟨⟨c0, c1⟩, c15, ⟨l2, u2⟩, hr, ⟨l4, u4⟩, hf, hlen, hd, hj, hz, hst, he⟩
    have hlen' : c.format.roles.length = n 2 := hlen
    refine ⟨by omega, c.format.rate, c.format.roles, (Rate.ofCode_iff _ _).mpr hr.symm, ?_,
      ⟨c0, c1, c15, l2, u2, ?_, ?_, hd, ?_, ?_⟩, ?_⟩
    · refine (mapRoles_iff _ _).mpr ⟨by rw [hlen', List.length_take]; show n 2 = min (n 2) 8; omega, fun j r hjr => ?_⟩
      obtain ⟨h1, h2⟩ := hj j r hjr
      have hjl : j < n 2 := by rw [← hlen']; exact (List.getElem?_eq_some_iff.mp hjr).1
      refine ⟨(Role.isSource_iff r).mpr h2, ?_⟩
      rw [h1, List.getD_eq_getElem?_getD, List.getElem?_take, if_pos hjl]
      have : j = 0 ∨ j = 1 ∨ j = 2 ∨ j = 3 ∨ j = 4 ∨ j = 5 ∨ j = 6 ∨ j = 7 := by omega
      rcases this with rfl | rfl | rfl | rfl | rfl | rfl | rfl | rfl <;> rfl
    · omega
    · omega
    · refine List.all_eq_true.mpr fun x hx => ?_
      obtain ⟨i, hi⟩ := List.getElem?_of_mem hx
      rw [List.getElem?_drop] at hi
      have hb : n 2 + i < 8 := (List.getElem?_eq_some_iff.mp hi).1
      have := hz (n 2 + i) (by simp only [chans, hlen']; omega) hb
      have hm : map[n 2 + i]? = some (b (6 + (n 2 + i))) := by
        generalize n 2 + i = j at hb
        have : j = 0 ∨ j = 1 ∨ j = 2 ∨ j = 3 ∨ j = 4 ∨ j = 5 ∨ j = 6 ∨ j = 7 := by omega
        rcases this with rfl | rfl | rfl | rfl | rfl | rfl | rfl | rfl <;> rfl
      rw [hm] at hi; cases hi
      simpa using BitVec.eq_of_toNat_eq (y := (0 : Byte)) this
    · rw [← hf, ← hlen']; exact he
    · rw [← hf, ← hst]

/-- The bytes of a carriage frame: 16 of header and 4 for each sample (R33). -/
def Carriage.size (c : Carriage) : Nat := 16 + 4 * c.format.roles.length * c.frames

/-- A payload with rounds enough is read from one carriage frame to the next up to the first that fails; it is OK when they
end at its end (R33). -/
theorem parsePayload_spec (n : Nat) (page : Mem) (off stop : Nat)
    (hs : ∀ o c, parseCarriage page o stop = some c →
      c.start = o + 16 ∧ 1 ≤ c.format.roles.length ∧ 1 ≤ c.frames ∧ o + c.size ≤ stop)
    (hle : off ≤ stop) (hn : stop - off < 20 * n) :
    let cs := (parsePayload n page off stop).1
    let after (k : Nat) : Nat := off + ((cs.take k).map Carriage.size).sum
    (∀ k c, cs[k]? = some c → parseCarriage page (after k) stop = some c)
    ∧ ((parsePayload n page off stop).2 = true ↔ after cs.length = stop)
    ∧ parseCarriage page (after cs.length) stop = none := by
  have hstop : parseCarriage page stop stop = none := by
    unfold parseCarriage; rw [if_pos (by omega)]
  induction n generalizing off with
  | zero => omega
  | succ n ih =>
    unfold parsePayload
    by_cases he : off = stop
    · subst he; simp [hstop]
    · rw [if_neg he]
      cases hc : parseCarriage page off stop with
      | none => simp [he, hc]
      | some c =>
        obtain ⟨h1, h2, h3, h4⟩ := hs off c hc
        have hsz : 20 ≤ c.size := by
          have : 1 * 1 ≤ c.format.roles.length * c.frames := Nat.mul_le_mul h2 h3
          unfold Carriage.size; rw [Nat.mul_assoc]; omega
        have hnext : c.start + 4 * c.format.roles.length * c.frames = off + c.size := by
          rw [h1]; unfold Carriage.size; omega
        simp only [hnext]
        obtain ⟨i1, i2, i3⟩ := ih (off + c.size) h4 (by omega)
        refine ⟨?_, ?_, ?_⟩
        · intro k d hk
          cases k with
          | zero => cases hk; simpa using hc
          | succ k => simpa [Nat.add_assoc] using i1 k d hk
        · simpa [Nat.add_assoc] using i2
        · simpa [Nat.add_assoc] using i3

/-- The sum of the model's own adder is that of the list. -/
theorem sumNat_eq_sum (xs : List Nat) : sumNat xs = xs.sum := by
  induction xs with
  | nil => rfl
  | cons x xs ih => rw [sumNat, ih, List.sum_cons]

/-- The good frames are the audio frames of the good carriage frames (R33). -/
theorem goodFrames_eq_sum (cs : List Carriage) : goodFrames cs = (cs.map fun c => c.frames).sum := sumNat_eq_sum _

/-- The next audio frame is the one at the count moved so far, over the good carriage frames in their order (R36). -/
theorem locateFrame_iff (cs : List Carriage) (m k : Nat) (c : Carriage) :
    locateFrame cs m = some (c, k)
      ↔ ∃ i, cs[i]? = some c ∧ k < c.frames ∧ m = ((cs.take i).map fun x => x.frames).sum + k := by
  induction cs generalizing m with
  | nil => simp [locateFrame]
  | cons d ds ih =>
    unfold locateFrame
    by_cases hm : m < d.frames
    · rw [if_pos hm]
      constructor
      · intro h; cases h
        exact ⟨0, rfl, hm, by simp⟩
      · rintro ⟨i, hi, hk, rfl⟩
        cases i with
        | zero => cases hi; simp
        | succ i => simp only [List.take_succ_cons, List.map_cons, List.sum_cons] at hm; omega
    · rw [if_neg hm, ih]
      constructor
      · rintro ⟨i, hi, hk, he⟩
        exact ⟨i + 1, hi, hk, by simp only [List.take_succ_cons, List.map_cons, List.sum_cons]; omega⟩
      · rintro ⟨i, hi, hk, he⟩
        cases i with
        | zero => cases hi; simp at he; omega
        | succ i =>
          simp only [List.take_succ_cons, List.map_cons, List.sum_cons] at he
          exact ⟨i, hi, hk, by omega⟩

/-- An audio frame has a sample for each channel. -/
theorem Carriage.frame_length (c : Carriage) (page : Mem) (k : Nat) :
    (c.frame page k).length = c.format.roles.length := by simp [Carriage.frame]

/-- A sample is the low three bytes of its word, as a signed number (R36). -/
theorem Carriage.frame_sample (c : Carriage) (page : Mem) (k j : Nat) (h : j < c.format.roles.length) :
    let chans := c.format.roles.length
      let n (i : Nat) : Nat := (memRead page (c.start + 4 * (chans * k + j) + i)).toNat
      let v := n 0 + 256 * n 1 + 65536 * n 2
      (c.frame page k)[j]? = some (if v < 8388608 then (v : Int) else (v : Int) - 16777216) := by
  intro chans n v
  have aux : ∀ w : Nat, w < 16777216 →
      (BitVec.ofNat 24 w).toInt = if w < 8388608 then (w : Int) else (w : Int) - 16777216 := by
    intro w hw
    rw [BitVec.toInt, BitVec.toNat_ofNat, Nat.mod_eq_of_lt (by omega)]
    split_ifs <;> omega
  have hv : v < 16777216 := by
    have := (memRead page (c.start + 4 * (chans * k + j) + 0)).isLt
    have := (memRead page (c.start + 4 * (chans * k + j) + 1)).isLt
    have := (memRead page (c.start + 4 * (chans * k + j) + 2)).isLt
    simp only [v, n]; omega
  have e : leNat (memBytes page (c.start + 4 * (chans * k + j)) 3) = v := by
    show n 0 + 256 * (n 1 + 256 * (n 2 + 256 * 0)) = n 0 + 256 * n 1 + 65536 * n 2
    omega
  simp only [Carriage.frame, List.getElem?_map, List.getElem?_range h, Option.map_some]
  congr 1
  show sampleAt page (c.start + 4 * (chans * k + j)) = _
  rw [sampleAt, e]
  exact aux v hv

/-! ## The window that feeds a path (R29, R38) -/

/-- No window feeds a path. -/
theorem State.feeding_none (s : State) (p : PathId) (h : ∀ w r, s.ring w = some r → r.feeds ≠ some p) :
    s.feeding p = none := by
  unfold State.feeding
  rw [List.find?_eq_none]
  intro w _
  cases hw : s.ring w with
  | none => simp
  | some r => simpa using h w r hw

/-- The one window that feeds a path. -/
theorem State.feeding_eq (s : State) (p : PathId) (w : Fin 16) (r : Ring) (hr : s.ring w = some r) (hf : r.feeds = some p)
    (ho : ∀ v, v ≠ w → ∀ q, s.ring v = some q → q.feeds ≠ some p) : s.feeding p = some w := by
  cases he : s.feeding p with
  | none =>
    unfold State.feeding at he
    rw [List.find?_eq_none] at he
    simpa [hr, hf] using he w (List.mem_finRange w)
  | some v =>
    have hv := List.find?_some he
    by_cases hvw : v = w
    · rw [hvw]
    · cases hq : s.ring v with
      | none => simp [hq] at hv
      | some q => exact absurd (by simpa [hq] using hv) (ho v hvw q hq)

/-- The sealed run from a position on, by that slot's state (R38). -/
theorem sealedRun_step (r : Ring) (n i : Nat) : i < r.slots.length →
    let x := r.slot i
    let rest := sealedRun r.slots n ((i + 1) % r.slots.length)
    let run := sealedRun r.slots (n + 1) i
    sealedRun r.slots 0 i = 0
    ∧ (x.state = .unpacking → run = x.good - x.moved + rest)
    ∧ (x.state = .sealed → run = x.good + rest)
    ∧ (x.state ∈ [SlotState.empty, .filling, .missed, .returning] →
        (x.skip = true → run = rest) ∧ (x.skip = false → run = 0)) := by
  intro hi x rest run
  have hx : r.slots[i]? = some x := by
    simp only [x, Ring.slot, List.getD_eq_getElem?_getD, List.getElem?_eq_getElem hi, Option.getD_some]
  refine ⟨rfl, fun h => by simp only [run, rest, sealedRun, hx, h], fun h => by simp only [run, rest, sealedRun, hx, h],
    fun h => ?_⟩
  have h' : x.state = .empty ∨ x.state = .filling ∨ x.state = .missed ∨ x.state = .returning := by simpa using h
  rcases h' with h | h | h | h <;>
    exact ⟨fun hs => by simp [run, rest, sealedRun, hx, h, hs], fun hs => by simp [run, sealedRun, hx, h, hs]⟩

/-! ## The flush (R40) and the returns of slots (R35) -/

/-- The slots a flush catches: SEALED or UNPACKING (R40). -/
def Ring.caught (r : Ring) (j : Nat) : Prop := (r.slot j).state = .sealed ∨ (r.slot j).state = .unpacking

/-- A slot that is caught is a slot of the ring. -/
theorem Ring.caught_lt (r : Ring) (j : Nat) (h : r.caught j) : j < r.slots.length := by
  by_contra hj
  unfold Ring.caught Ring.slot at h
  rw [List.getD_eq_getElem?_getD, List.getElem?_eq_none (by omega)] at h
  rcases h with h | h <;> cases h

/-- The slots of a flush: those caught, from a position on, once round the ring (R40). -/
theorem flushList_mem (r : Ring) (m i j : Nat) (hi : i < r.slots.length) :
    j ∈ flushList r m i ↔ r.caught j ∧ ∃ k, k < m ∧ j = (i + k) % r.slots.length := by
  induction m generalizing i with
  | zero => simp [flushList]
  | succ m ih =>
    have hn : r.after i < r.slots.length := Nat.mod_lt _ (by omega)
    have step : ∀ k, (r.after i + k) % r.slots.length = (i + (k + 1)) % r.slots.length := by
      intro k; unfold Ring.after; rw [Nat.mod_add_mod]; congr 1; omega
    have hex : (∃ k, k < m + 1 ∧ j = (i + k) % r.slots.length)
        ↔ j = i ∨ ∃ k, k < m ∧ j = (r.after i + k) % r.slots.length := by
      constructor
      · rintro ⟨k, hk, rfl⟩
        cases k with
        | zero => left; exact Nat.mod_eq_of_lt hi
        | succ k => right; exact ⟨k, by omega, (step k).symm⟩
      · rintro (rfl | ⟨k, hk, rfl⟩)
        · exact ⟨0, by omega, (Nat.mod_eq_of_lt hi).symm⟩
        · exact ⟨k + 1, by omega, step k⟩
    rw [hex]
    unfold flushList
    simp only
    split_ifs with hc
    · rw [List.mem_cons, ih _ hn]
      constructor
      · rintro (rfl | ⟨h1, h2⟩)
        · exact ⟨hc, .inl rfl⟩
        · exact ⟨h1, .inr h2⟩
      · rintro ⟨h1, rfl | h2⟩
        · exact .inl rfl
        · exact .inr ⟨h1, h2⟩
    · rw [ih _ hn]
      constructor
      · rintro ⟨h1, h2⟩; exact ⟨h1, .inr h2⟩
      · rintro ⟨h1, rfl | h2⟩
        · exact absurd h1 hc
        · exact ⟨h1, h2⟩

/-- Every slot of a flush is caught. -/
theorem flushList_caught (r : Ring) (m i j : Nat) (h : j ∈ flushList r m i) : r.caught j := by
  induction m generalizing i with
  | zero => cases h
  | succ m ih =>
    unfold flushList at h
    simp only at h
    split_ifs at h with hc
    · rcases List.mem_cons.mp h with rfl | h
      · exact hc
      · exact ih _ h
    · exact ih _ h

/-- A slot record as a flush leaves it in RETURNING (R40). -/
def SlotRec.flushed (x : SlotRec) : SlotRec := { x with state := .returning, page := none, outcome := .flushed }

/-- Flushing slots changes their records and nothing else of the ring (R40). -/
theorem flushSlots_spec (is : List Nat) (r : Ring) (h : ∀ i ∈ is, i < r.slots.length) :
    flushSlots is r = { r with slots := (flushSlots is r).slots } ∧ (flushSlots is r).slots.length = r.slots.length
      ∧ ∀ j, (flushSlots is r).slot j = if j ∈ is then (r.slot j).flushed else r.slot j := by
  induction is generalizing r with
  | nil => exact ⟨rfl, rfl, fun j => by simp [flushSlots]⟩
  | cons i is ih =>
    have hi := h i (by simp)
    have hlen : (r.setSlot i (r.slot i).flushed).slots.length = r.slots.length := by simp [Ring.setSlot, listSet_eq]
    obtain ⟨h1, h2, h3⟩ := ih (r.setSlot i (r.slot i).flushed) fun x hx => by rw [hlen]; exact h x (by simp [hx])
    have hs : ∀ j, (r.setSlot i (r.slot i).flushed).slot j = if j = i then (r.slot i).flushed else r.slot j := by
      intro j
      simp only [Ring.slot, Ring.setSlot, listSet_eq, List.getD_eq_getElem?_getD, List.getElem?_set]
      by_cases hj : j = i
      · subst hj; simp [hi]
      · simp [hj, Ne.symm hj]
    refine ⟨?_, by rw [flushSlots]; exact h2.trans hlen, fun j => ?_⟩
    · rw [flushSlots]
      exact h1
    · rw [flushSlots]
      refine (h3 j).trans ?_
      rw [hs]
      by_cases hj : j = i
      · subst hj; simp; intro _; rfl
      · simp [hj]


/-- A flushed ring, feeding no path yet (R40). -/
def Ring.flushed (r : Ring) : Ring :=
  let u := flushSlots (flushList r r.slots.length r.unpackPos) r
  { u with unpackPos := flushPos r, slots := u.slots.map fun x => { x with skip := false }, feeds := none }

/-- A slot of a flushed ring (R40). -/
theorem Ring.flushed_slot (r : Ring) (j : Nat) :
    r.flushed.slot j
      = if j ∈ flushList r r.slots.length r.unpackPos then { (r.slot j).flushed with skip := false }
        else { r.slot j with skip := false } := by
  have h := (flushSlots_spec (flushList r r.slots.length r.unpackPos) r
    fun i hi => r.caught_lt i (flushList_caught _ _ _ _ hi)).2.2 j
  have e : r.flushed.slot j
      = { (flushSlots (flushList r r.slots.length r.unpackPos) r).slot j with skip := false } := by
    simp only [Ring.flushed, Ring.slot, List.getD_eq_getElem?_getD, List.getElem?_map]
    cases (flushSlots (flushList r r.slots.length r.unpackPos) r).slots[j]? <;> rfl
  rw [e, h]
  split_ifs <;> rfl

/-- A flushed ring has no slot left to catch. -/
theorem Ring.flushed_not_caught (r : Ring) (hp : r.unpackPos < r.slots.length) (j : Nat) : ¬ r.flushed.caught j := by
  intro h
  unfold Ring.caught at h
  rw [r.flushed_slot] at h
  split_ifs at h with hm
  · rcases h with h | h <;> cases h
  · have hc : r.caught j := h
    have hj := r.caught_lt j hc
    refine hm ((flushList_mem r _ _ j hp).mpr ⟨hc, (j + (r.slots.length - r.unpackPos)) % r.slots.length,
      Nat.mod_lt _ (by omega), ?_⟩)
    rw [Nat.add_mod_mod, show r.unpackPos + (j + (r.slots.length - r.unpackPos)) = j + r.slots.length by omega,
      Nat.add_mod_right, Nat.mod_eq_of_lt hj]

/-- Where no slot is caught, a flush has none. -/
theorem flushList_nil (r : Ring) (m i : Nat) (h : ∀ j, ¬ r.caught j) : flushList r m i = [] :=
  List.eq_nil_iff_forall_not_mem.mpr fun j hj => h j (flushList_caught r m i j hj)

/-- The return of a slot that a ring's record makes (R35). -/
def State.slotReturn (s : State) (w : Fin 16) (i : Nat) (x : SlotRec) : Injected :=
  { write := fullWrite ((s.window w).base + (s.window w).slotSize * i) (slotWord x.outcome x.late false x.len x.moved)
    origin := .stream w i }

/-- With the injection queue full no return is placed (R10). -/
theorem State.placeReturns_full (n : Nat) (s : State) (h : 16 ≤ s.link.injq.length) : State.placeReturns n s = s := by
  have hp : s.placeReturn = s := by
    unfold State.placeReturn
    split
    · rfl
    · rw [if_pos (by unfold State.room; simpa using h)]
  induction n with
  | zero => rfl
  | succ n ih => rw [State.placeReturns, hp, ih]

/-- Placing the returns of one window's slots: those that find room enter the queue, the others wait (R10, R35). -/
theorem State.placeReturns_spec (is : List Nat) (s : State) (w : Fin 16) (q : Ring) (hq : s.ring w = some q)
    (hw : s.intakeWait = is.map fun i => (w, i)) :
    let k := 16 - s.link.injq.length
    State.placeReturns is.length s
      = { s with
          intakeWait := (is.drop k).map fun i => (w, i)
          link := { s.link with injq := s.link.injq ++ (is.take k).map fun i => s.slotReturn w i (q.slot i) } } := by
  induction is generalizing s with
  | nil =>
    simp only [List.drop_nil, List.take_nil, List.map_nil, List.append_nil, List.length_nil]
    conv_rhs => rw [show ([] : List (Fin 16 × Nat)) = s.intakeWait from hw.symm]
    rfl
  | cons i is ih =>
    by_cases hf : 16 ≤ s.link.injq.length
    · rw [s.placeReturns_full _ hf, show 16 - s.link.injq.length = 0 by omega]
      simp only [List.drop_zero, List.take_zero, List.map_nil, List.append_nil, ← hw]
    · have hp : s.placeReturn = { s with
          intakeWait := is.map fun i => (w, i)
          link := { s.link with injq := s.link.injq ++ [s.slotReturn w i (q.slot i)] } } := by
        unfold State.placeReturn
        rw [hw]
        simp only [List.map_cons]
        rw [if_neg (by unfold State.room; simpa using hf), hq]
        rfl
      have e := ih s.placeReturn (by rw [hp]; exact hq) (by rw [hp])
      rw [List.length_cons, State.placeReturns]
      refine e.trans ?_
      rw [hp]
      simp only [List.length_append, List.length_singleton, List.append_assoc]
      rw [show 16 - s.link.injq.length = (16 - (s.link.injq.length + 1)) + 1 by omega]
      rfl

/-- What a flush does (R40): the ring is left flushed and then fed again as R29 says, the returns of the slots it
catches enter the queue while there is room and none waited before them, and the others wait. -/
theorem State.flushWindow_spec (s : State) (w : Fin 16) (r : Ring) (hr : s.ring w = some r) :
    let is := flushList r r.slots.length r.unpackPos
    let k := if s.intakeWait = [] then 16 - s.link.injq.length else 0
    s.flushWindow w
      = ({ s.setRing w (some r.flushed) with
            intakeWait := s.intakeWait ++ (is.drop k).map (fun i => (w, i))
            link := { s.link with injq :=
              s.link.injq ++ (is.take k).map (fun i => s.slotReturn w i (r.slot i).flushed) } } : State).feedIfNamed w := by
  intro is k
  have hg : (s.setRing w (some r.flushed)).ring w = some r.flushed := by simp
  have hret : ∀ i ∈ is, ∀ j, s.slotReturn w j (r.flushed.slot i) = s.slotReturn w j (r.slot i).flushed := by
    intro i hi j; rw [r.flushed_slot, if_pos hi]; rfl
  unfold State.flushWindow
  rw [hr]
  simp only
  congr 1
  split_ifs with h
  · have e := State.placeReturns_spec is
      { s.setRing w (some r.flushed) with intakeWait := s.intakeWait ++ is.map fun i => (w, i) } w r.flushed hg
      (by rw [h]; rfl)
    refine e.trans ?_
    simp only [k, if_pos h, h, List.nil_append]
    congr 3
    · apply List.map_congr_left
      intro i hi
      exact hret i (List.mem_of_mem_take hi) i
  · simp only [k, if_neg h, List.drop_zero, List.take_zero, List.map_nil, List.append_nil]
    rfl


/-- Arriving at the unpack position changes marks and position, no slot's state (R36). -/
theorem Ring.advanceSkips_caught (n : Nat) (r : Ring) (j : Nat) (h : (Ring.advanceSkips n r).caught j) : r.caught j := by
  induction n generalizing r with
  | zero => exact h
  | succ n ih =>
    unfold Ring.advanceSkips at h
    simp only at h
    split_ifs at h with hc
    · have := ih _ h
      unfold Ring.caught at this ⊢
      rw [show ∀ (v : Ring) (p : Nat), ({ v with unpackPos := p } : Ring).slot j = v.slot j from fun _ _ => rfl] at this
      simp only [Ring.slot, Ring.setSlot, listSet_eq, List.getD_eq_getElem?_getD, List.getElem?_set] at this ⊢
      split_ifs at this with h1 h2
      · subst h1; simpa using this
      · subst h1; simp [SlotRec.fresh] at this
      · exact this
    · exact h

/-- A window that starts to feed a path, or none, changes its own ring only, and no slot's state (R29). -/
theorem State.feedIfNamed_eq (s : State) (w : Fin 16) (r : Ring) (hr : s.ring w = some r) :
    ∃ q, s.feedIfNamed w = s.setRing w (some q) ∧ ∀ j, q.caught j → r.caught j := by
  have hself : s = s.setRing w (some r) := by
    have : s.rings.set w.val (s.ring w) w.isLt = s.rings := by simp [State.ring, getAt]
    rw [← hr]; unfold State.setRing setAt; rw [this]
  unfold State.feedIfNamed State.startFeeding
  rw [hr]
  simp only
  split_ifs
  · exact ⟨r, hself, fun j h => h⟩
  · cases s.feedChoice w with
    | none => exact ⟨r, hself, fun j h => h⟩
    | some p => exact ⟨_, rfl, fun j h =>
      Ring.advanceSkips_caught _ { r with feeds := some p, handoverCount := 0, idle := false } j h⟩

/-- The window that feeds a path is one whose ring says so. -/
theorem State.feeding_ring (s : State) (p : PathId) (w : Fin 16) (h : s.feeding p = some w) :
    ∃ r, s.ring w = some r ∧ r.feeds = some p := by
  have := List.find?_some h
  cases hr : s.ring w with
  | none => rw [hr] at this; cases this
  | some r => rw [hr] at this; exact ⟨r, rfl, by simpa using this⟩

/-- The window that feeds a path depends on the rings only. -/
theorem State.feeding_congr (s t : State) (p : PathId)
    (h : ∀ w, (∃ r, s.ring w = some r ∧ r.feeds = some p) ↔ ∃ r, t.ring w = some r ∧ r.feeds = some p) :
    t.feeding p = s.feeding p := by
  unfold State.feeding
  congr 1
  funext w
  have := h w
  cases hs : s.ring w with
  | none =>
    cases ht : t.ring w with
    | none => rfl
    | some q => simp only [hs, ht] at this ⊢; simpa using this
  | some r =>
    cases ht : t.ring w with
    | none => simp only [hs, ht] at this ⊢; simpa using this
    | some q => simp only [hs, ht] at this ⊢; simpa using this.symm

end Sys2Proof.Machine
end

