-- ==== Sys2Proof/Laws/Lanes.lean ====
section
/-! SUPPORT. What changing each lane of a list, and placing again each lane of a list (R64), leaves: lanes only, each of
them as its own change says. -/

namespace Sys2Proof.Machine

open Sys2Proof

/-- Changing the lanes of a list touches lanes only; an idempotent change acts on each lane of the list once. -/
theorem State.mapLanes_spec (ls : List (Fin 4)) (f : LaneRec → LaneRec) (hf : ∀ r, f (f r) = f r) (s : State) :
    s.mapLanes ls f = { s with lanes := (s.mapLanes ls f).lanes }
      ∧ ∀ l, (s.mapLanes ls f).lane l = if l ∈ ls then f (s.lane l) else s.lane l := by
  induction ls generalizing s with
  | nil => exact ⟨rfl, fun l => by simp [State.mapLanes, forEach]⟩
  | cons a ls ih =>
    obtain ⟨h1, h2⟩ := ih (s.setLane a (f (s.lane a)))
    have e : s.mapLanes (a :: ls) f = (s.setLane a (f (s.lane a))).mapLanes ls f := rfl
    rw [e]
    refine ⟨h1, fun l => ?_⟩
    rw [h2 l, State.lane_setLane]
    by_cases hl : a = l
    · subst hl; simp [hf]
    · have : ¬ l = a := fun h => hl h.symm
      simp [this, hl]

/-- Two changes that touch lanes only make one. -/
theorem State.lanesOnly_trans {s t u : State} {v w : Vector LaneRec 4} (h : t = { s with lanes := v })
    (h1 : u = { t with lanes := w }) : u = { s with lanes := w } := by rw [h1, h]

/-- Placing one lane again touches lanes only. -/
theorem State.replaceLane_eq (s : State) (l : Fin 4) :
    s.replaceLane l = { s with lanes := (s.replaceLane l).lanes } := by
  unfold State.replaceLane
  simp only []
  split <;> rfl

/-- A lane's record after a lane was placed again. -/
theorem State.lane_replaceLane (s : State) (a l : Fin 4) :
    (s.replaceLane a).lane l =
      if a = l ∧ (s.lane a).placed = true then { s.lane a with state := s.placedState a (s.laneConfig a) }
      else s.lane l := by
  unfold State.replaceLane LaneRec.placed
  simp only []
  by_cases hl : a = l
  · subst hl
    cases hst : (s.lane a).state <;> simp
  · cases hst : (s.lane a).state <;> simp [hl, State.lane_setLane]

/-- Placing the lanes of a list again touches lanes only, each lane of the list taking the state the table gives it. -/
theorem State.replaceLanes_spec (ls : List (Fin 4)) (s : State) :
    let t := forEach (fun l t => t.replaceLane l) ls s
    t = { s with lanes := t.lanes }
      ∧ ∀ l, t.lane l = if l ∈ ls ∧ (s.lane l).placed = true
          then { s.lane l with state := s.placedState l (s.laneConfig l) } else s.lane l := by
  induction ls generalizing s with
  | nil => exact ⟨rfl, fun l => by simp [forEach]⟩
  | cons a ls ih =>
    obtain ⟨h1, h2⟩ := ih (s.replaceLane a)
    have hr := s.replaceLane_eq a
    refine ⟨?_, fun l => ?_⟩
    · exact State.lanesOnly_trans hr h1
    · show (forEach (fun l t => t.replaceLane l) ls (s.replaceLane a)).lane l = _
      have hc : (s.replaceLane a).laneConfig l = s.laneConfig l := by
        unfold State.laneConfig
        rw [s.lane_replaceLane]
        split
        · rename_i h; obtain ⟨rfl, -⟩ := h; rfl
        · rfl
      have hps : (s.replaceLane a).placedState l ((s.replaceLane a).laneConfig l) = s.placedState l (s.laneConfig l) := by
        rw [hc, hr]; rfl
      rw [h2 l, hps, s.lane_replaceLane]
      by_cases hl : a = l
      · subst hl
        by_cases hp : (s.lane a).placed = true
        · simp only [hp, and_self, if_true, List.mem_cons, true_or]
          split <;> rfl
        · simp [hp]
      · have : ¬ l = a := fun h => hl h.symm
        simp [this, hl]

end Sys2Proof.Machine
end

