-- ==== Sys2Proof/Laws/Outputs.lean ====
section
/-! SUPPORT. What the operations over channels leave of each channel's settings and group: the settings given, a channel and
a group that applies, RECONFIG, and the channels that gather around a command's (R164 to R168). -/

namespace Sys2Proof.Machine

open Sys2Proof

/-- Settings given to a channel become its target settings; nothing else of any channel changes. -/
theorem State.givePending_chan (s : State) (c d : Fin 12) (t : ChanSettings) :
    (s.givePending c t).chan d = if c = d then { s.chan c with pend := some t } else s.chan d :=
  s.chan_setChan c d _

/-- RECONFIG leaves each channel's settings and group (R166). -/
theorem State.markReconfig_settings (s : State) (c d : Fin 12) :
    ((s.markReconfig c).chan d).applied = (s.chan d).applied ∧ ((s.markReconfig c).chan d).pend = (s.chan d).pend
      ∧ ((s.markReconfig c).chan d).group = (s.chan d).group := by
  unfold State.markReconfig
  split
  · exact ⟨rfl, rfl, rfl⟩
  · rw [State.chan_setChan]
    split
    · next h => subst h; exact ⟨rfl, rfl, rfl⟩
    · exact ⟨rfl, rfl, rfl⟩

/-- A channel that applies has its target settings applied and is in no group; the others are as they were (R167). -/
theorem State.applyChannel_settings (s : State) (c d : Fin 12) :
    ((s.applyChannel c).chan d).target = (s.chan d).target
      ∧ ((s.applyChannel c).chan d).applied = (if c = d then (s.chan d).target else (s.chan d).applied)
      ∧ ((s.applyChannel c).chan d).group = (if c = d then none else (s.chan d).group) := by
  unfold State.applyChannel
  simp only [State.chan_setChan]
  by_cases h : c = d
  · subst h
    simp only [↓reduceIte]
    exact ⟨rfl, trivial, trivial⟩
  · simp only [if_neg h]
    exact ⟨trivial, trivial, trivial⟩

/-- Channels that apply, each in turn. -/
theorem forEach_applyChannel (xs : List (Fin 12)) (d : Fin 12) : ∀ s : State,
    ((forEach (fun c t => t.applyChannel c) xs s).chan d).target = (s.chan d).target
      ∧ ((forEach (fun c t => t.applyChannel c) xs s).chan d).applied
          = (if d ∈ xs then (s.chan d).target else (s.chan d).applied)
      ∧ ((forEach (fun c t => t.applyChannel c) xs s).chan d).group = (if d ∈ xs then none else (s.chan d).group) := by
  induction xs with
  | nil => intro s; simp [forEach]
  | cons x xs ih =>
    intro s
    obtain ⟨h1, h2, h3⟩ := ih (s.applyChannel x)
    obtain ⟨k1, k2, k3⟩ := s.applyChannel_settings x d
    rw [k1] at h1 h2
    rw [k2] at h2
    rw [k3] at h3
    refine ⟨h1, ?_, ?_⟩
    · rw [forEach, h2]
      have hc : d ∈ x :: xs ↔ x = d ∨ d ∈ xs := by rw [List.mem_cons, eq_comm]
      by_cases hx : x = d <;> by_cases hm : d ∈ xs <;> simp [hc, hx, hm]
    · rw [forEach, h3]
      have hc : d ∈ x :: xs ↔ x = d ∨ d ∈ xs := by rw [List.mem_cons, eq_comm]
      by_cases hx : x = d <;> by_cases hm : d ∈ xs <;> simp [hc, hx, hm]

/-- A group that applies: its channels have their target settings applied and are in no group; the target settings of all
stay, and the other channels are as they were (R167). -/
theorem State.applyGroup_settings (s : State) (g d : Fin 12) :
    ((s.applyGroup g).chan d).target = (s.chan d).target
      ∧ ((s.applyGroup g).chan d).applied
          = (if (s.chan d).group = some g then (s.chan d).target else (s.chan d).applied)
      ∧ ((s.applyGroup g).chan d).group = (if (s.chan d).group = some g then none else (s.chan d).group) := by
  have h := forEach_applyChannel (s.groupMembers g) d s
  have hm : d ∈ s.groupMembers g ↔ (s.chan d).group = some g := by simp [State.groupMembers]
  simp only [hm] at h
  exact h

/-- RECONFIG given to several channels leaves each channel's settings and group. -/
theorem forEach_markReconfig (xs : List (Fin 12)) (d : Fin 12) : ∀ s : State,
    ((forEach (fun c t => t.markReconfig c) xs s).chan d).applied = (s.chan d).applied
      ∧ ((forEach (fun c t => t.markReconfig c) xs s).chan d).pend = (s.chan d).pend
      ∧ ((forEach (fun c t => t.markReconfig c) xs s).chan d).group = (s.chan d).group := by
  induction xs with
  | nil => intro s; exact ⟨rfl, rfl, rfl⟩
  | cons x xs ih =>
    intro s
    obtain ⟨h1, h2, h3⟩ := ih (s.markReconfig x)
    obtain ⟨k1, k2, k3⟩ := s.markReconfig_settings x d
    exact ⟨h1.trans k1, h2.trans k2, h3.trans k3⟩

/-- The channels of a group that forms: a command's, those that join for SW, and the members of every group that holds one
of them (R166, R168). -/
theorem State.mem_mergedGroup (s : State) (cs : List (Fin 12)) (c : Fin 12) :
    c ∈ s.mergedGroup cs ↔ (c ∈ cs ∨ c ∈ s.swJoiners)
      ∨ ∃ g b, (s.chan c).group = some g ∧ (s.chan b).group = some g ∧ (b ∈ cs ∨ b ∈ s.swJoiners) := by
  unfold State.mergedGroup
  cases hg : (s.chan c).group with
  | none => simp [hg]
  | some g =>
    simp only [List.mem_filter, List.mem_finRange, true_and, hg, Bool.or_eq_true, decide_eq_true_eq, List.mem_append,
      List.any_eq_true]
    constructor
    · rintro (h | ⟨b, hb, h⟩)
      · exact .inl h
      · exact .inr ⟨g, b, rfl, h, hb⟩
    · rintro (h | ⟨g', b, e, h, hb⟩)
      · exact .inl h
      · cases e; exact .inr ⟨b, hb, h⟩

/-- The channels that keep a role applied (R161). -/
theorem State.mem_roleKeepers (s : State) (c d : Fin 12) (r : Role) :
    d ∈ s.roleKeepers c r ↔ d ≠ c ∧ (s.chan d).applied.role = r ∧ r ≠ .sw ∧ r ≠ .unused := by
  unfold State.roleKeepers
  split
  · next h => rcases h with h | h <;> simp [h]
  · next h => simp only [not_or] at h; simp [h.1, h.2]

/-- Where a channel holds a role as its target role (R164). -/
theorem State.roleHolder_some (s : State) (c x : Fin 12) (r : Role) (h : s.roleHolder c r = some x) :
    x ≠ c ∧ (s.chan x).target.role = r ∧ r ≠ .sw ∧ r ≠ .unused := by
  unfold State.roleHolder at h
  split at h
  · exact absurd h (by simp)
  · next k =>
    simp only [not_or] at k
    have := List.find?_some h
    simp only [Bool.and_eq_true, decide_eq_true_eq] at this
    exact ⟨this.1, this.2, k.1, k.2⟩

/-- Where no other channel holds a role as its target role (R164). -/
theorem State.roleHolder_none (s : State) (c : Fin 12) (r : Role) (h : s.roleHolder c r = none) :
    r = .sw ∨ r = .unused ∨ ∀ x, x ≠ c → (s.chan x).target.role ≠ r := by
  unfold State.roleHolder at h
  split at h
  · next k => exact k.elim .inl (fun k => .inr (.inl k))
  · refine .inr (.inr fun x hx he => ?_)
    have := List.find?_eq_none.1 h x (List.mem_finRange x)
    simp [hx, he] at this

end Sys2Proof.Machine
end

