-- ==== Sys2Proof/Laws/Paths.lean ====
section
/-! SUPPORT. Frames that arrive at a path's FIFO (R91, R139); what the opening of a path's part of a block reads and leaves
(R39, R95); the resampler's pace (R98): how many frames a block takes, what is left, and when it runs short; the fields of a
path record that consumption moves; a path's block in ACQUIRE (R100); and the bounds of a tracker at the
moments that set its values (R94, R96). -/

namespace Sys2Proof.Machine

open Sys2Proof

/-! ## Frames that arrive -/

/-- A frame that fits enters the FIFO at its end. -/
theorem State.pushFrame_fits (s : State) (p : PathId) (f : Frame) (h : (s.path p).formatPending = false)
    (hl : (s.path p).fifo.length < 2048) :
    s.pushFrame p f = s.setPath p { s.path p with fifo := (s.path p).fifo ++ [f] } := by
  unfold State.pushFrame
  simp only [h, Bool.false_eq_true, if_false]
  rw [if_neg (by omega)]

/-- Frames that all fit enter the FIFO in their order. -/
theorem State.pushFrames_fit (fs : List Frame) (s : State) (p : PathId) (h : (s.path p).formatPending = false)
    (hl : (s.path p).fifo.length + fs.length ≤ 2048) :
    forEach (fun f t => t.pushFrame p f) fs s = s.setPath p { s.path p with fifo := (s.path p).fifo ++ fs } := by
  induction fs generalizing s with
  | nil => simp only [forEach, List.append_nil]; cases p <;> rfl
  | cons f fs ih =>
    simp only [forEach]
    simp only [List.length_cons] at hl
    rw [State.pushFrame_fits s p f h (by omega)]
    rw [ih _ (by simpa using h) (by simp; omega)]
    simp

/-! ## The opening of a path's part of a block -/

/-- A clamp as a maximum and a minimum. -/
theorem clampInt_eq (lo hi x : Int) (h : lo ≤ hi) : clampInt lo hi x = max lo (min hi x) := by
  unfold clampInt; split_ifs <;> omega

/-- The handover count keeps the path records. -/
theorem State.countHandover_path (s : State) (p q : PathId) : (s.countHandover p).path q = s.path q := by
  unfold State.countHandover
  split
  · rfl
  · split
    · rfl
    · cases q <;> rfl

/-- The handover count keeps the zone records. -/
theorem State.countHandover_zone (s : State) (p : PathId) (z : Zone) : (s.countHandover p).zone z = s.zone z := by
  unfold State.countHandover
  split
  · rfl
  · split
    · rfl
    · cases z <;> rfl

/-- The handover count keeps the source table. -/
theorem State.countHandover_source (s : State) (p : PathId) (e : Fin 12) :
    (s.countHandover p).source e = s.source e := by
  unfold State.countHandover
  split
  · rfl
  · split <;> rfl

/-- Taking B and e sets e and the values of the last computed block (log 20); it keeps the rest of the record. -/
theorem State.takeB_path (s : State) (p : PathId) :
    ((s.countHandover p).takeB p).path p = { s.path p with
      adoptedNow := false
      tracker := { (s.path p).tracker with
        err := (s.countHandover p).blockError p
        last := (((s.countHandover p).takeB p).path p).tracker.last } } := by
  simp only [State.takeB, State.path_setPath_same, State.countHandover_path]

/-- Taking B and e keeps the buffered count. -/
theorem State.takeB_buffered (s : State) (p : PathId) : (s.takeB p).buffered p = s.buffered p := by
  unfold State.takeB State.buffered State.feeding State.ring
  simp

/-- Taking B and e keeps the source table. -/
theorem State.takeB_source (s : State) (p : PathId) (e : Fin 12) : (s.takeB p).source e = s.source e := by
  unfold State.takeB State.source
  simp

/-- Taking B and e keeps the fill target. -/
theorem State.takeB_fillTarget (s : State) (p : PathId) : (s.takeB p).fillTarget p = s.fillTarget p := by
  unfold State.fillTarget State.pathKind State.pathSource State.takeB
  cases p <;> rfl

/-! ## One output frame -/

/-- With enough frames in the FIFO, an output frame takes one for each 2^24 the phase has passed. -/
theorem pullFrames_enough (n ph : Nat) (fifo h : List Frame) (hn : ph < n * 2 ^ 24) (hk : ph / 2 ^ 24 ≤ fifo.length) :
    ∃ g, pullFrames n ph fifo h = some (ph % 2 ^ 24, fifo.drop (ph / 2 ^ 24), g) := by
  induction n generalizing ph fifo h with
  | zero => omega
  | succ n ih =>
    unfold pullFrames
    by_cases hp : ph < 2 ^ 24
    · rw [if_pos hp, Nat.mod_eq_of_lt hp, Nat.div_eq_of_lt hp]
      exact ⟨h, rfl⟩
    · rw [if_neg hp]
      cases fifo with
      | nil => simp only [List.length_nil] at hk; omega
      | cons f fs =>
        have hd : ph / 2 ^ 24 = (ph - 2 ^ 24) / 2 ^ 24 + 1 := by omega
        simp only [List.length_cons] at hk
        obtain ⟨g, hg⟩ := ih (ph - 2 ^ 24) fs ((f :: h).take Config.historyFrames) (by omega) (by omega)
        refine ⟨g, ?_⟩
        show pullFrames n (ph - 2 ^ 24) fs _ = _
        rw [hg, hd, show (ph - 2 ^ 24) % 2 ^ 24 = ph % 2 ^ 24 by omega, List.drop_succ_cons]

/-- With fewer frames than the phase asks for, an output frame finds the FIFO empty. -/
theorem pullFrames_short (n ph : Nat) (fifo h : List Frame) (hn : ph < n * 2 ^ 24) (hk : fifo.length < ph / 2 ^ 24) :
    pullFrames n ph fifo h = none := by
  induction n generalizing ph fifo h with
  | zero => omega
  | succ n ih =>
    unfold pullFrames
    rw [if_neg (by omega)]
    cases fifo with
    | nil => rfl
    | cons f fs =>
      simp only [List.length_cons] at hk
      exact ih (ph - 2 ^ 24) fs _ (by omega) (by omega)

/-! ## A block -/

/-- With enough frames in the FIFO, a run of output frames takes floor((F + n x step) / 2^24) of them, forms every output
frame, and keeps the remainder as the phase. -/
theorem consume_enough (n path chans step left j ph : Nat) (fifo h : List Frame) (hs : step < 3 * 2 ^ 24)
    (hp : ph < 2 ^ 24) (hk : (ph + left * step) / 2 ^ 24 ≤ fifo.length) :
    ∃ g out, out.length = left ∧ consume n path chans step left j ph fifo h
      = { phase := (ph + left * step) % 2 ^ 24, fifo := fifo.drop ((ph + left * step) / 2 ^ 24), history := g, out := out
          starved := false } := by
  induction left generalizing j ph fifo h with
  | zero =>
    refine ⟨h, [], rfl, ?_⟩
    simp only [Nat.zero_mul, Nat.add_zero]
    rw [Nat.mod_eq_of_lt hp, Nat.div_eq_of_lt hp]
    rfl
  | succ left ih =>
    have hm : ph + (left + 1) * step = ph + step + left * step := by rw [Nat.succ_mul]; omega
    rw [hm] at hk ⊢
    have hsplit : (ph + step + left * step) / 2 ^ 24
        = (ph + step) / 2 ^ 24 + ((ph + step) % 2 ^ 24 + left * step) / 2 ^ 24 := by omega
    obtain ⟨h1, e1⟩ := pullFrames_enough 4 (ph + step) fifo h (by omega) (by omega)
    obtain ⟨g, out, hl, e2⟩ := ih (j + 1) ((ph + step) % 2 ^ 24) (fifo.drop ((ph + step) / 2 ^ 24)) h1
      (Nat.mod_lt _ (by decide)) (by rw [List.length_drop]; omega)
    refine ⟨g, formFrame n path chans h1 ((ph + step) % 2 ^ 24) j :: out, by rw [List.length_cons, hl], ?_⟩
    unfold consume
    rw [e1]
    simp only [e2]
    rw [List.drop_drop, hsplit, show ((ph + step) % 2 ^ 24 + left * step) % 2 ^ 24 = (ph + step + left * step) % 2 ^ 24 by
      omega]

/-- With fewer frames than a run of output frames needs, it forms those it can, finds the FIFO empty and ends. -/
theorem consume_short (n path chans step left j ph : Nat) (fifo h : List Frame) (hs : step < 3 * 2 ^ 24)
    (hp : ph < 2 ^ 24) (hk : fifo.length < (ph + left * step) / 2 ^ 24) :
    ∃ f g out, f < 2 ^ 24 ∧ out.length < left ∧ (ph + out.length * step) / 2 ^ 24 ≤ fifo.length
      ∧ fifo.length < (ph + (out.length + 1) * step) / 2 ^ 24
      ∧ consume n path chans step left j ph fifo h
        = { phase := f, fifo := [], history := g, out := out, starved := true } := by
  induction left generalizing j ph fifo h with
  | zero => rw [Nat.zero_mul, Nat.add_zero, Nat.div_eq_of_lt hp] at hk; omega
  | succ left ih =>
    have hm : ph + (left + 1) * step = ph + step + left * step := by rw [Nat.succ_mul]; omega
    rw [hm] at hk
    unfold consume
    by_cases h1 : fifo.length < (ph + step) / 2 ^ 24
    · rw [pullFrames_short 4 (ph + step) fifo h (by omega) h1]
      refine ⟨ph, h, [], hp, Nat.succ_pos _, ?_, ?_, rfl⟩
      · rw [List.length_nil, Nat.zero_mul, Nat.add_zero, Nat.div_eq_of_lt hp]
        exact Nat.zero_le _
      · rw [List.length_nil, Nat.zero_add, Nat.one_mul]
        exact h1
    · have hsplit : ∀ x, (ph + step + x) / 2 ^ 24 = (ph + step) / 2 ^ 24 + ((ph + step) % 2 ^ 24 + x) / 2 ^ 24 := by omega
      obtain ⟨h2, e1⟩ := pullFrames_enough 4 (ph + step) fifo h (by omega) (by omega)
      obtain ⟨f, g, out, hf, hl, ha, hb, e2⟩ := ih (j + 1) ((ph + step) % 2 ^ 24) (fifo.drop ((ph + step) / 2 ^ 24)) h2
        (Nat.mod_lt _ (by decide)) (by rw [List.length_drop]; have := hsplit (left * step); omega)
      rw [List.length_drop] at ha hb
      rw [e1]
      simp only [e2]
      refine ⟨f, g, formFrame n path chans h2 ((ph + step) % 2 ^ 24) j :: out, hf, by rw [List.length_cons]; omega, ?_, ?_,
        rfl⟩
      · rw [List.length_cons, show ph + (out.length + 1) * step = ph + step + out.length * step by
          rw [Nat.succ_mul]; omega, hsplit]
        omega
      · rw [List.length_cons, show ph + (out.length + 1 + 1) * step = ph + step + (out.length + 1) * step by
          rw [Nat.succ_mul (out.length + 1)]; omega, hsplit]
        omega

/-- With frames enough, a path's block forms 48 frames, takes N = floor((F + 48 x step) / 2^24) and keeps the remainder
(R98). -/
theorem State.consumption_enough (s : State) (p : PathId) (m : Nat) (hm : (s.path p).tracker.step = some m)
    (hp : (s.path p).tracker.phase < 2 ^ 24) (hs : m < 3 * 2 ^ 24)
    (hk : ((s.path p).tracker.phase + 48 * m) / 2 ^ 24 ≤ (s.path p).fifo.length) :
    ∃ g out, out.length = 48 ∧ s.consumption p
      = { phase := ((s.path p).tracker.phase + 48 * m) % 2 ^ 24
          fifo := (s.path p).fifo.drop (((s.path p).tracker.phase + 48 * m) / 2 ^ 24)
          history := g, out := out, starved := false } := by
  simp only [State.consumption]
  rw [hm, Option.getD_some]
  exact consume_enough _ _ _ m 48 0 _ _ _ hs hp hk

/-- With fewer frames, it forms those it can and ends starved (R98). -/
theorem State.consumption_short (s : State) (p : PathId) (m : Nat) (hm : (s.path p).tracker.step = some m)
    (hp : (s.path p).tracker.phase < 2 ^ 24) (hs : m < 3 * 2 ^ 24)
    (hk : (s.path p).fifo.length < ((s.path p).tracker.phase + 48 * m) / 2 ^ 24) :
    ∃ f g out, f < 2 ^ 24 ∧ out.length < 48
      ∧ ((s.path p).tracker.phase + out.length * m) / 2 ^ 24 ≤ (s.path p).fifo.length
      ∧ (s.path p).fifo.length < ((s.path p).tracker.phase + (out.length + 1) * m) / 2 ^ 24
      ∧ s.consumption p = { phase := f, fifo := [], history := g, out := out, starved := true } := by
  simp only [State.consumption]
  rw [hm, Option.getD_some]
  exact consume_short _ _ _ m 48 0 _ _ _ hs hp hk

/-- The phase stays below 2^24 over a block's consumption (R94, R98). -/
theorem State.consumption_phase (s : State) (p : PathId) (h : (s.path p).tracker.BoundsOk) :
    (s.consumption p).phase < 2 ^ 24 := by
  have hs : (s.path p).tracker.step.getD 0 < 3 * 2 ^ 24 := by
    cases hm : (s.path p).tracker.step with
    | none => decide
    | some m => exact h.step m hm
  simp only [State.consumption]
  by_cases hk : ((s.path p).tracker.phase + 48 * (s.path p).tracker.step.getD 0) / 2 ^ 24 ≤ (s.path p).fifo.length
  · obtain ⟨g, out, _, e⟩ := consume_enough s.freeIdx p.code (s.path p).channels _ 48 0 _ _ (s.path p).history hs h.phase hk
    rw [e]
    exact Nat.mod_lt _ (by decide)
  · obtain ⟨f, g, out, hf, _, _, _, e⟩ := consume_short s.freeIdx p.code (s.path p).channels _ 48 0 _ _
      (s.path p).history hs h.phase (Nat.lt_of_not_le hk)
    rw [e]
    exact hf

/-- A block that finds frames enough moves the path record and nothing else. -/
theorem State.consumeBlock_fed (s : State) (p : PathId) (h : (s.consumption p).starved = false) :
    s.consumeBlock p = s.setPath p ((s.path p).consumed (s.consumption p)) :=
  if_pos h

/-- A block that runs short with a format change pending adopts it at that moment (R93, R98). -/
theorem State.consumeBlock_adopts (s : State) (p : PathId) (h : (s.consumption p).starved = true)
    (hf : (s.path p).formatPending = true) :
    s.consumeBlock p = (s.setPath p ((s.path p).consumed (s.consumption p))).adoptFormat p := by
  simp only [State.consumeBlock, h, hf, Bool.true_eq_false, if_false, if_true]

/-- A block in HOLD that runs short leaves the path drained, with no report (R98, R105). -/
theorem State.consumeBlock_drains (s : State) (p : PathId) (h : (s.consumption p).starved = true)
    (hf : (s.path p).formatPending = false) (ht : (s.path p).tracker.state = .hold) :
    s.consumeBlock p
      = (s.setPath p ((s.path p).consumed (s.consumption p))).setPath p
          { (s.path p).consumed (s.consumption p) with drained := true } := by
  simp only [State.consumeBlock, h, hf, ht, Bool.true_eq_false, Bool.false_eq_true, if_false, if_true]

/-- Any other block that runs short is an underrun (R98, R103). -/
theorem State.consumeBlock_underruns (s : State) (p : PathId) (h : (s.consumption p).starved = true)
    (hf : (s.path p).formatPending = false) (ht : (s.path p).tracker.state ≠ .hold) :
    s.consumeBlock p = (s.setPath p ((s.path p).consumed (s.consumption p))).underrun p := by
  simp only [State.consumeBlock, h, hf, ht, Bool.true_eq_false, Bool.false_eq_true, if_false]

/-! ## A path's block in ACQUIRE (R97, R98, R100) -/

/-- A block of silence keeps the tracker. -/
theorem PathRec.yieldSilence_tracker (r : PathRec) : r.yieldSilence.tracker = r.tracker := rfl

/-- Adopting a held format leaves a path in PREFILL; with none held it changes nothing (R93). -/
theorem State.adoptFormat_state (s : State) (p : PathId) :
    (s.adoptFormat p = s ∧ (s.path p).held = none) ∨ ((s.adoptFormat p).path p).tracker.state = .prefill := by
  unfold State.adoptFormat
  cases h : (s.path p).held with
  | none => exact .inl ⟨rfl, rfl⟩
  | some f =>
    right
    simp only [State.raise_path]
    have hz : ∀ u : State, (u.zeroEnergiesFor p).path p = u.path p := by
      intro u; unfold State.zeroEnergiesFor; split_ifs
      · cases p <;> rfl
      · rfl
    rw [hz, State.path_setPath_same]
    rfl

/-- A block's consumption with frames enough, in the fields it moves (R98). -/
theorem State.consumeBlock_enough (s : State) (p : PathId) (m : Nat) (hm : (s.path p).tracker.step = some m)
    (hp : (s.path p).tracker.phase < 2 ^ 24) (hs : m < 3 * 2 ^ 24)
    (hk : ((s.path p).tracker.phase + 48 * m) / 2 ^ 24 ≤ (s.path p).fifo.length) :
    ∃ q : PathRec, s.consumeBlock p = s.setPath p q ∧ q = { s.path p with
      fifo := (s.path p).fifo.drop (((s.path p).tracker.phase + 48 * m) / 2 ^ 24)
      history := q.history, yielded := q.yielded, yieldFormat := (s.path p).format
      tracker := { (s.path p).tracker with
        phase := ((s.path p).tracker.phase + 48 * m) % 2 ^ 24, overrun := q.tracker.overrun } } := by
  obtain ⟨g, out, -, he⟩ := s.consumption_enough p m hm hp hs hk
  refine ⟨_, State.consumeBlock_fed s p (by rw [he]), ?_⟩
  rw [he]
  rfl

/-- A block's consumption ends in PREFILL, or keeps the tracker's state, timer and error (R98). -/
theorem State.consumeBlock_keeps (s : State) (p : PathId) :
    let u := ((s.consumeBlock p).path p).tracker
    let x := (s.path p).tracker
    u.state = .prefill ∨ (u.state = x.state ∧ u.timer = x.timer ∧ u.err = x.err) := by
  intro u x
  by_cases hc : (s.consumption p).starved = false
  · right
    simp only [u, x, State.consumeBlock_fed s p hc, State.path_setPath_same]
    exact ⟨rfl, rfl, rfl⟩
  · replace hc : (s.consumption p).starved = true := by simpa using hc
    by_cases hf : (s.path p).formatPending = true
    · rcases State.adoptFormat_state (s.setPath p ((s.path p).consumed (s.consumption p))) p with ⟨h, -⟩ | h
      · right
        simp only [u, x, State.consumeBlock_adopts s p hc hf, h, State.path_setPath_same]
        exact ⟨rfl, rfl, rfl⟩
      · left; simpa only [u, State.consumeBlock_adopts s p hc hf] using h
    · replace hf : (s.path p).formatPending = false := by simpa using hf
      by_cases ht : (s.path p).tracker.state = .hold
      · right
        simp only [u, x, State.consumeBlock_drains s p hc hf ht, State.path_setPath_same]
        exact ⟨rfl, rfl, rfl⟩
      · left
        simp only [u, State.consumeBlock_underruns s p hc hf ht, State.underrun, State.raise_path,
          State.path_setPath_same]
        rfl

/-- A block in ACQUIRE with frames enough: the loop, the consumption, the end of the block, LOCKED at entry to TRACK
(R97, R98, R100). -/
theorem State.acquireBlock_enough (s : State) (p : PathId) (x : Tracker) (m : Nat)
    (hx : x = (s.path p).tracker.loop (s.pathSource p).kp (s.pathSource p).ki)
    (ha : (s.path p).tracker.state = .acquire) (hm : x.step = some m) (hp : x.phase < 2 ^ 24) (hs : m < 3 * 2 ^ 24)
    (hk : (x.phase + 48 * m) / 2 ^ 24 ≤ (s.path p).fifo.length) :
    ∃ q : PathRec, q = { s.path p with
        fifo := (s.path p).fifo.drop ((x.phase + 48 * m) / 2 ^ 24), history := q.history, yielded := q.yielded
        yieldFormat := (s.path p).format
        tracker := { x with phase := (x.phase + 48 * m) % 2 ^ 24, overrun := q.tracker.overrun } }
      ∧ s.acquireBlock p =
        (let t := q.tracker.acquireTick (s.pathSource p).ratchetH (s.pathSource p).lockW
         let s2 := s.setPath p { q with tracker := t }
         if t.state = .track then s2.raise .tracker p.code (trackerPayload p q .locked .track) else s2) := by
  let s1 := s.setPath p { s.path p with tracker := x }
  have e1 : (s1.path p) = { s.path p with tracker := x } := State.path_setPath_same ..
  obtain ⟨q, hc, hq⟩ := s1.consumeBlock_enough p m (by rw [e1]; exact hm) (by rw [e1]; exact hp) hs
    (by rw [e1]; exact hk)
  rw [e1] at hq
  refine ⟨q, hq, ?_⟩
  have hst : q.tracker.state = .acquire := by rw [hq, hx]; exact ha
  have hc' : (s.setPath p { s.path p with tracker := x }).consumeBlock p = s1.setPath p q := hc
  simp only [State.acquireBlock, ← hx, hc', State.path_setPath_same, hst, if_true, s1, State.setPath_setPath]

/-- A block in ACQUIRE ends in PREFILL, or has moved the tracker's timer on (R100). -/
theorem State.acquireBlock_timer (s : State) (p : PathId) (h : (s.path p).tracker.state = .acquire) :
    let u := ((s.acquireBlock p).path p).tracker
    let x := (s.path p).tracker
    u.state = .prefill ∨ (x.timer ≤ 1 ∧ u.state = .track)
      ∨ (1 < x.timer ∧ u.state = .acquire ∧ u.timer = x.timer - 1 ∧ u.err = x.err) := by
  intro u x
  obtain ⟨s1, h1⟩ : ∃ s1, s1 = (s.setPath p { s.path p with
    tracker := (s.path p).tracker.loop (s.pathSource p).kp (s.pathSource p).ki }).consumeBlock p := ⟨_, rfl⟩
  have hk := State.consumeBlock_keeps (s.setPath p { s.path p with
    tracker := (s.path p).tracker.loop (s.pathSource p).kp (s.pathSource p).ki }) p
  simp only [State.path_setPath_same, ← h1] at hk
  simp only [u, State.acquireBlock, ← h1]
  by_cases ha : (s1.path p).tracker.state = .acquire
  · rcases hk with hk | ⟨-, ht, he⟩
    · rw [ha] at hk; cases hk
    have ht' : (s1.path p).tracker.timer = x.timer := ht
    have he' : (s1.path p).tracker.err = x.err := he
    right
    rw [if_pos ha]
    have e : ∀ t : Tracker, ((if t.state = .track then
        (s1.setPath p { s1.path p with tracker := t }).raise .tracker p.code
          (trackerPayload p (s1.path p) .locked .track)
        else s1.setPath p { s1.path p with tracker := t }).path p).tracker = t := by
      intro t; split_ifs <;> simp [State.raise_path]
    rw [e]
    unfold Tracker.acquireTick
    rw [ht', he']
    by_cases h0 : x.timer - 1 = 0
    · left; simp [h0]; omega
    · right
      simp only [h0, if_false]
      split_ifs <;> exact ⟨by omega, ha, rfl, rfl⟩
  · left
    rw [if_neg ha]
    rcases hk with hk | ⟨hs, -⟩
    · exact hk
    · exact absurd (hs.trans h) ha

/-- The error of a block, as the statements write it (R95). -/
theorem State.blockError_eq (s : State) (p : PathId) :
    (s.countHandover p).blockError p = max (-1024) (min 1023
      ((((s.countHandover p).takeB p).buffered p : Int) - (((s.countHandover p).takeB p).fillTarget p : Int))) := by
  rw [State.takeB_buffered, State.takeB_fillTarget, State.blockError, clampInt_eq _ _ _ (by decide)]

/-- The part of a path in ACQUIRE whose source is present and that adopts nothing is its block in ACQUIRE. -/
theorem State.pathBlock_acquiring (b : State) (p : PathId) (e : Fin 12) (hb : (b.path p).binding = some e)
    (ha : (b.path p).tracker.state = .acquire)
    (hs : ¬ ((b.path p).formatPending = true ∧ b.attachedSilent p = true))
    (hp : ((b.countHandover p).takeB p).present p = true) :
    b.pathBlock p = ((b.countHandover p).takeB p).acquireBlock p := by
  have h1 := b.takeB_path p
  have hzone : ∀ z, ((b.countHandover p).takeB p).zone z = b.zone z := fun z => by
    rw [← b.countHandover_zone p z]; unfold State.takeB; simp
  have hz : ((b.countHandover p).takeB p).attachedSilent p = b.attachedSilent p := by
    have h1 := hzone .main
    have h2 := hzone .zone2
    unfold State.attachedSilent State.attachedTo
    rw [h1, h2]
    rw [show ((b.countHandover p).takeB p).zoneMain = b.zoneMain from h1,
      show ((b.countHandover p).takeB p).zoneTwo = b.zoneTwo from h2]
  have hsil : ((b.countHandover p).takeB p).silentAdoption p = false := by
    unfold State.silentAdoption
    rw [hz, h1]
    simp only [Bool.and_eq_false_iff]
    by_cases hf : (b.path p).formatPending = true
    · exact .inr (by simpa [hf] using hs)
    · exact .inl (by simpa using hf)
  unfold State.pathBlock
  rw [hb]
  simp only [hsil, Bool.false_eq_true, if_false]
  unfold State.trackerBlock
  have : (((b.countHandover p).takeB p).path p).tracker.state = .acquire := by rw [h1]; exact ha
  simp only [this, hp, if_true]

/-- What a path's part leaves of a tracker in ACQUIRE: PREFILL, HOLD, TRACK when the timer ran out, else ACQUIRE a block
on, or as it stands where a change is pending with no format held. -/
theorem State.pathBlock_acquire (b : State) (p : PathId) (e : Fin 12) (hb : (b.path p).binding = some e)
    (ha : (b.path p).tracker.state = .acquire) :
    let u := ((b.pathBlock p).path p).tracker
    let x := (b.path p).tracker
    u.state = .prefill ∨ u.state = .hold ∨ (x.timer ≤ 1 ∧ u.state = .track)
      ∨ (u.state = .acquire ∧ ((b.path p).formatPending = true ∧ (b.path p).held = none
          ∨ 1 < x.timer ∧ u.timer = x.timer - 1 ∧ u.err = (b.countHandover p).blockError p)) := by
  intro u x
  have h1 := b.takeB_path p
  obtain ⟨s1, hs1⟩ : ∃ s1, s1 = (b.countHandover p).takeB p := ⟨_, rfl⟩
  rw [← hs1] at h1
  simp only [u, State.pathBlock, hb, ← hs1]
  split_ifs with hsil
  · simp only [State.path_setPath_same, PathRec.yieldSilence_tracker]
    rcases s1.adoptFormat_state p with ⟨h, hn⟩ | h
    · right; right; right
      rw [h, h1]
      refine ⟨ha, .inl ⟨?_, by rw [h1] at hn; exact hn⟩⟩
      unfold State.silentAdoption at hsil
      rw [h1] at hsil
      simp only [Bool.and_eq_true] at hsil
      exact hsil.1
    · exact .inl h
  · unfold State.trackerBlock
    have ha1 : (s1.path p).tracker.state = .acquire := by rw [h1]; exact ha
    have ht1 : (s1.path p).tracker.timer = x.timer := by rw [h1]
    have he1 : (s1.path p).tracker.err = (b.countHandover p).blockError p := by rw [h1]
    simp only [ha1]
    by_cases hp : s1.present p = true
    · rw [if_pos hp]
      rcases s1.acquireBlock_timer p ha1 with h | ⟨h, h'⟩ | ⟨h, h', h2, h3⟩
      · exact .inl h
      · exact .inr (.inr (.inl ⟨ht1 ▸ h, h'⟩))
      · exact .inr (.inr (.inr ⟨h', .inr ⟨ht1 ▸ h, ht1 ▸ h2, h3.trans he1⟩⟩))
    · rw [if_neg hp]
      obtain ⟨s2, hs2⟩ : ∃ s2, s2 = s1.setPath p { s1.path p with
          tracker := { (s1.path p).tracker with state := .hold } } := ⟨_, rfl⟩
      have h2 : (s2.path p).tracker.state = .hold := by rw [hs2, State.path_setPath_same]
      rw [← hs2]
      simp only [State.holdBlock]
      by_cases hd : (s2.path p).drained = true <;> simp only [hd, if_true, if_false, Bool.false_eq_true]
      · right; left; simpa [PathRec.yieldSilence_tracker] using h2
      · rcases s2.consumeBlock_keeps p with h | ⟨h, -⟩
        · exact .inl h
        · exact .inr (.inl (h.trans h2))

/-! ## Bounds (R94, R96) -/

/-- The nominal step of a rate is at most that of 96 kHz. -/
theorem nominalStep_le (r : Rate) : nominalStep r ≤ 2 ^ 25 := by cases r <;> decide

/-- A free tracker lies in its bounds. -/
theorem Tracker.free_boundsOk : Tracker.free.BoundsOk :=
  ⟨by decide, by decide, by decide, by decide, by decide, nofun, nofun⟩

/-- The loop of a block keeps a tracker in its bounds (R97). -/
theorem Tracker.loop_boundsOk (t : Tracker) (kp ki : Nat) (h : t.BoundsOk) : (t.loop kp ki).BoundsOk := by
  have hc : (t.loop kp ki).corr.natAbs ≤ t.cmax.getD 0 := by
    simp only [Tracker.loop, clampInt]
    omega
  refine ⟨hc, ?_, ?_, h.gain, h.phase, h.nominal, ?_⟩
  · simp only [Tracker.loop, clampInt]
    omega
  · simp only [Tracker.loop, clampInt]
    omega
  · intro n hn
    obtain ⟨m, hm, rfl⟩ : ∃ m, t.step0 = some m ∧ ((m : Int) + (t.loop kp ki).corr).toNat = n := by
      simpa only [Tracker.loop, Option.map_eq_some_iff] using hn
    have hb := h.nominal m hm
    rw [hb.2, Option.getD_some] at hc
    omega

/-- Entry to PREFILL keeps a tracker in its bounds (R99). -/
theorem PathRec.enterPrefill_boundsOk (r : PathRec) (h : r.tracker.BoundsOk) : r.enterPrefill.tracker.BoundsOk :=
  ⟨Nat.zero_le _, by show (-8388608 : Int) ≤ 0; decide, by show (0 : Int) ≤ 8388607; decide, Nat.zero_le _,
    by show 0 < 2 ^ 24; decide, h.nominal, fun n hn => by
    have := h.nominal n hn
    omega⟩

/-- Adopting a format sets a tracker in its bounds (R93, R96). -/
theorem PathRec.adopt_boundsOk (r : PathRec) (f : Format) : (r.adopt f).tracker.BoundsOk := by
  have hn := nominalStep_le f.rate
  refine ⟨Nat.zero_le _, by show (-8388608 : Int) ≤ 0; decide, by show (0 : Int) ≤ 8388607; decide, Nat.zero_le _,
    by show 0 < 2 ^ 24; decide, ?_, ?_⟩
  · intro n h
    obtain rfl : nominalStep f.rate = n := Option.some.inj h
    exact ⟨hn, rfl⟩
  · intro n h
    obtain rfl : nominalStep f.rate = n := Option.some.inj h
    omega

end Sys2Proof.Machine
end

