-- ==== Sys2Proof/Laws/PerInstr.lean ====
section
/-! SUPPORT. A law of the commands as syntax, one lemma per row of the table: a row that stands in a slot of the command
ring carries an opcode of one byte, which is in the table of 11.2 unless the row is UNKNOWN_OPCODE; a row that names a
zone stands in a slot; and no word of the table's bits spells any row. -/

namespace Sys2Proof.Laws.RowOpcode

open Sys2Proof Sys2Proof.Machine

/-- What the law says of one command. -/
def Statement (i : Instr) : Prop :=
  (∀ op, ringOpcode i = some op → op < 256 ∧ (op ∈ knownOpcodes ∨ ∃ o t, i = .unknownOpcode o t))
    ∧ (zoneRow i ≠ none → ringOpcode i ≠ none) ∧ ∀ nbits w, decodeTableWord nbits w ≠ some i

/-- No word spells a command. -/
theorem noWord (i : Instr) (nbits w : Nat) : decodeTableWord nbits w ≠ some i := fun h => nomatch h

/-- Every opcode of the table is one byte. -/
theorem knownOpcodes_byte : ∀ op ∈ knownOpcodes, op < 256 := by decide

/-- A row whose opcode is in the table. -/
theorem ofSlot {i : Instr} (op : Nat) (h : ringOpcode i = some op) (hk : op ∈ knownOpcodes) : Statement i := by
  refine ⟨fun o ho => ?_, fun _ hn => ?_, noWord i⟩
  · rw [h] at ho
    injection ho with ho
    subst ho
    exact ⟨knownOpcodes_byte op hk, Or.inl hk⟩
  · rw [h] at hn
    nomatch hn

/-- A row that stands in no slot of the ring. -/
theorem ofOwn {i : Instr} (h : ringOpcode i = none) (hz : zoneRow i = none) : Statement i := by
  refine ⟨fun o ho => ?_, fun hn => absurd hz hn, noWord i⟩
  rw [h] at ho
  nomatch ho

theorem powerOn (straps : BitVec 4) : Statement (.powerOn straps) := ofOwn rfl rfl
theorem linkReset : Statement .linkReset := ofOwn rfl rfl
theorem hostRequestAccept (r : Request) : Statement (.hostRequestAccept r) := ofOwn rfl rfl
theorem requestForward : Statement .requestForward := ofOwn rfl rfl
theorem dramResponse (data : List Byte) : Statement (.dramResponse data) := ofOwn rfl rfl
theorem injectedWriteIssue : Statement .injectedWriteIssue := ofOwn rfl rfl
theorem starvationHold : Statement .starvationHold := ofOwn rfl rfl
theorem producerEnqueue (p : Producer) : Statement (.producerEnqueue p) := ofOwn rfl rfl
theorem takeCommand (faults : BitVec 6) : Statement (.takeCommand faults) := ofOwn rfl rfl
theorem reportWrite : Statement .reportWrite := ofOwn rfl rfl
theorem nop : Statement .nop := ofSlot 0x00 rfl (by decide)
theorem restart : Statement .restart := ofSlot 0x01 rfl (by decide)
theorem defineWindow (index kind slotCount : Byte) (slotSize : BitVec 16) (base : BitVec 32) :
    Statement (.defineWindow index kind slotCount slotSize base) := ofSlot 0x02 rfl (by decide)
theorem releaseWindow (index : Byte) : Statement (.releaseWindow index) := ofSlot 0x03 rfl (by decide)
theorem snapshot (sect : Byte) : Statement (.snapshot sect) := ofSlot 0x04 rfl (by decide)
theorem setMeters (onOff : Byte) : Statement (.setMeters onOff) := ofSlot 0x05 rfl (by decide)
theorem bindTap (index point : Byte) : Statement (.bindTap index point) := ofSlot 0x08 rfl (by decide)
theorem unbindTap : Statement .unbindTap := ofSlot 0x09 rfl (by decide)
theorem setLane (lane enable threshold replacement : Byte) :
    Statement (.setLane lane enable threshold replacement) := ofSlot 0x10 rfl (by decide)
theorem defineSource (entry : Byte) (a : SourceArgs) :
    Statement (.defineSource entry a) := ofSlot 0x11 rfl (by decide)
theorem clearSource (entry : Byte) : Statement (.clearSource entry) := ofSlot 0x12 rfl (by decide)
theorem selectSource (zone source : Byte) : Statement (.selectSource zone source) := ofSlot 0x18 rfl (by decide)
theorem zonePowerOn (zone : Byte) : Statement (.zonePowerOn zone) := ofSlot 0x19 rfl (by decide)
theorem zonePowerStandby (zone : Byte) : Statement (.zonePowerStandby zone) := ofSlot 0x19 rfl (by decide)
theorem mute (zone onOff : Byte) : Statement (.mute zone onOff) := ofSlot 0x1A rfl (by decide)
theorem setVolume (zone : Byte) (level : BitVec 16) : Statement (.setVolume zone level) := ofSlot 0x1B rfl (by decide)
theorem setZone (zone rampRate : Byte) (avDelay : BitVec 16) (ceiling : Byte) :
    Statement (.setZone zone rampRate avDelay ceiling) := ofSlot 0x1C rfl (by decide)
theorem setSleep (zone minutes : Byte) : Statement (.setSleep zone minutes) := ofSlot 0x1D rfl (by decide)
theorem retrack (zone : Byte) : Statement (.retrack zone) := ofSlot 0x1E rfl (by decide)
theorem setDecode (zone mode : Byte) : Statement (.setDecode zone mode) := ofSlot 0x1F rfl (by decide)
theorem tune (zone band : Byte) (freq : BitVec 32) : Statement (.tune zone band freq) := ofSlot 0x20 rfl (by decide)
theorem step (zone dir : Byte) : Statement (.step zone dir) := ofSlot 0x21 rfl (by decide)
theorem seek (zone dir : Byte) : Statement (.seek zone dir) := ofSlot 0x22 rfl (by decide)
theorem scan (zone band : Byte) : Statement (.scan zone band) := ofSlot 0x23 rfl (by decide)
theorem abortRadio : Statement .abortRadio := ofSlot 0x24 rfl (by decide)
theorem setRegion (a : RegionArgs) : Statement (.setRegion a) := ofSlot 0x25 rfl (by decide)
theorem clearStations (selector : Byte) : Statement (.clearStations selector) := ofSlot 0x26 rfl (by decide)
theorem storePreset (index : Byte) (label : LabelArg) :
    Statement (.storePreset index label) := ofSlot 0x28 rfl (by decide)
theorem setPreset (index band : Byte) (freq : BitVec 32) (label : LabelArg) :
    Statement (.setPreset index band freq label) := ofSlot 0x29 rfl (by decide)
theorem clearPreset (index : Byte) : Statement (.clearPreset index) := ofSlot 0x2A rfl (by decide)
theorem recallPreset (zone index : Byte) : Statement (.recallPreset zone index) := ofSlot 0x2B rfl (by decide)
theorem assignOutput (channel role : Byte) : Statement (.assignOutput channel role) := ofSlot 0x30 rfl (by decide)
theorem setChannel (channel : Byte) (trim : BitVec 8) (delay : BitVec 16) (polarity size : Byte) :
    Statement (.setChannel channel trim delay polarity size) := ofSlot 0x31 rfl (by decide)
theorem setBass (hz : Byte) : Statement (.setBass hz) := ofSlot 0x32 rfl (by decide)
theorem clearFault (pair : Byte) (faults : BitVec 6) :
    Statement (.clearFault pair faults) := ofSlot 0x38 rfl (by decide)
theorem setProtect (pair detect retry : Byte) :
    Statement (.setProtect pair detect retry) := ofSlot 0x39 rfl (by decide)
theorem unknownOpcode (opcode target : Byte) : Statement (.unknownOpcode opcode target) := by
  refine ⟨fun op h => ?_, fun h => absurd rfl h, noWord _⟩
  have e : ringOpcode (.unknownOpcode opcode target)
      = if opcode.toNat ∈ knownOpcodes then none else some opcode.toNat := rfl
  rw [e] at h
  by_cases hk : opcode.toNat ∈ knownOpcodes
  · rw [if_pos hk] at h
    nomatch h
  · rw [if_neg hk] at h
    injection h with h
    exact ⟨h ▸ opcode.isLt, Or.inr ⟨opcode, target, rfl⟩⟩
theorem unpackFrame (path : PathId) : Statement (.unpackFrame path) := ofOwn rfl rfl
theorem streamIdle (window : Fin 16) : Statement (.streamIdle window) := ofOwn rfl rfl
theorem outputBlock (faults : BitVec 6) (therm : Bool) : Statement (.outputBlock faults therm) := ofOwn rfl rfl
theorem laneLoss (lane : Fin 4) : Statement (.laneLoss lane) := ofOwn rfl rfl
theorem realignDeassert (lane : Fin 4) : Statement (.realignDeassert lane) := ofOwn rfl rfl
theorem laneFrame (lane : Fin 4) (f : LaneFrame) : Statement (.laneFrame lane f) := ofOwn rfl rfl
theorem fadeOutEnd (zone : Zone) : Statement (.fadeOutEnd zone) := ofOwn rfl rfl
theorem waitReadyEnd (zone : Zone) : Statement (.waitReadyEnd zone) := ofOwn rfl rfl
theorem sourceAbsent (zone : Zone) : Statement (.sourceAbsent zone) := ofOwn rfl rfl
theorem switchComplete (zone : Zone) : Statement (.switchComplete zone) := ofOwn rfl rfl
theorem goingStandbyEnd (zone : Zone) : Statement (.goingStandbyEnd zone) := ofOwn rfl rfl
theorem sleepMinute (zone : Zone) : Statement (.sleepMinute zone) := ofOwn rfl rfl
theorem formatAdoption (path : PathId) : Statement (.formatAdoption path) := ofOwn rfl rfl
theorem prefillExit (path : PathId) : Statement (.prefillExit path) := ofOwn rfl rfl
theorem gainCheck (path : PathId) : Statement (.gainCheck path) := ofOwn rfl rfl
theorem acquireLock (path : PathId) : Statement (.acquireLock path) := ofOwn rfl rfl
theorem slip (path : PathId) : Statement (.slip path) := ofOwn rfl rfl
theorem holdEntry (path : PathId) : Statement (.holdEntry path) := ofOwn rfl rfl
theorem holdExit (path : PathId) : Statement (.holdExit path) := ofOwn rfl rfl
theorem changeGroupApply (unit : ChannelLines) : Statement (.changeGroupApply unit) := ofOwn rfl rfl
theorem softStartCount (channel : Fin 12) (therm : Bool) : Statement (.softStartCount channel therm) := ofOwn rfl rfl
theorem softStartEnd (unit : PairLine) : Statement (.softStartEnd unit) := ofOwn rfl rfl
theorem limiterRelease (channel : Fin 12) (lines : Lines) : Statement (.limiterRelease channel lines) := ofOwn rfl rfl
theorem meterPeriodEnd : Statement .meterPeriodEnd := ofOwn rfl rfl
theorem protectEntry (pair : Fin 6) (line therm : Bool) : Statement (.protectEntry pair line therm) := ofOwn rfl rfl
theorem recoverWaitExpiry (pair : Fin 6) (line therm : Bool) :
    Statement (.recoverWaitExpiry pair line therm) := ofOwn rfl rfl
theorem normalRunExpiry (pair : Fin 6) (line therm : Bool) :
    Statement (.normalRunExpiry pair line therm) := ofOwn rfl rfl
theorem thermalWarningSet : Statement .thermalWarningSet := ofOwn rfl rfl
theorem thermalClear : Statement .thermalClear := ofOwn rfl rfl
theorem escalationSet : Statement .escalationSet := ofOwn rfl rfl
theorem thermalStep (therm : Bool) : Statement (.thermalStep therm) := ofOwn rfl rfl
theorem feAcknowledgement (request identity : Byte) : Statement (.feAcknowledgement request identity) := ofOwn rfl rfl
theorem ackTimeout : Statement .ackTimeout := ofOwn rfl rfl
theorem feStatusRecord (settled : Bool) (level : BitVec 7) (offset : BitVec 8) :
    Statement (.feStatusRecord settled level offset) := ofOwn rfl rfl
theorem feBurst (pairs : List (BitVec 16 × BitVec 16)) : Statement (.feBurst pairs) := ofOwn rfl rfl
theorem statusSilence : Statement .statusSilence := ofOwn rfl rfl
theorem settleLimit : Statement .settleLimit := ofOwn rfl rfl
theorem dwellEnd : Statement .dwellEnd := ofOwn rfl rfl
theorem pilotCapture (ticks : Nat) : Statement (.pilotCapture ticks) := ofOwn rfl rfl
theorem pilotTimeout : Statement .pilotTimeout := ofOwn rfl rfl
theorem blendStep : Statement .blendStep := ofOwn rfl rfl

end Sys2Proof.Laws.RowOpcode
end

