-- ==== Sys2Proof/Laws/Restart.lean ====
section
/-! SUPPORT. What RESTART raises and what its parts keep (R18, R90, R109, R145): two states that agree in what a report
reads, the writes that a flush places, and the parts that raise nothing. -/

namespace Sys2Proof.Machine

open Sys2Proof

/-- Two states whose report unit, link, strap and block counter agree. -/
def State.Agree (u v : State) : Prop := u.rep = v.rep ∧ u.link = v.link ∧ u.strap = v.strap ∧ u.block = v.block

/-- A state agrees with itself. -/
theorem State.Agree.refl (u : State) : State.Agree u u := ⟨rfl, rfl, rfl, rfl⟩

/-- Agreement goes both ways. -/
theorem State.Agree.symm {u v : State} (h : State.Agree u v) : State.Agree v u :=
  ⟨h.1.symm, h.2.1.symm, h.2.2.1.symm, h.2.2.2.symm⟩

/-- Agreement chains. -/
theorem State.Agree.trans {u v w : State} (h : State.Agree u v) (h' : State.Agree v w) : State.Agree u w :=
  ⟨h.1.trans h'.1, h.2.1.trans h'.2.1, h.2.2.1.trans h'.2.2.1, h.2.2.2.trans h'.2.2.2⟩

/-- Posting a report changes no more of the link than its injection queue. -/
theorem State.post_link (s : State) (r : Report) : (s.post r).link = { s.link with injq := (s.post r).link.injq } := by
  unfold State.post State.writeReport State.enqueue; split_ifs <;> rfl

/-- Two states that agree still agree after the same report (R19, R21). -/
theorem State.Agree.post {u v : State} (h : State.Agree u v) (r : Report) : State.Agree (u.post r) (v.post r) := by
  obtain ⟨h1, h2, h3, h4⟩ := h
  have hc : u.canWriteReport = v.canWriteReport := by unfold State.canWriteReport State.room; rw [h1, h2]
  have ha : u.anchorBase = v.anchorBase := by unfold State.anchorBase; rw [h3]
  refine ⟨?_, ?_, by simp [h3], by simp [h4]⟩
  · unfold State.post State.writeReport State.enqueue
    rw [h1, hc, h2, ha]
    split_ifs <;> simp
  · unfold State.post State.writeReport State.enqueue
    rw [h1, hc, h2, ha]
    split_ifs <;> simp

/-- Two states that agree still agree after the same completion (R17). -/
theorem State.Agree.raiseDone {u v : State} (h : State.Agree u v) (t : Option Nat) (p : List Byte) :
    State.Agree (u.raiseDone t p) (v.raiseDone t p) := by
  cases t with
  | none => exact h
  | some x =>
    unfold State.raiseDone
    rw [h.2.2.2]
    exact h.post _

/-- Two states that agree still agree after the completion of one zone's switch. -/
theorem State.Agree.switchDone {u v : State} (h : State.Agree u v) (z : Zone) (r : CmdResult) (hz : u.zone z = v.zone z) :
    State.Agree (u.switchDone z r) (v.switchDone z r) := by
  unfold State.switchDone; rw [hz]; exact h.raiseDone _ _

/-- Two states that agree and have the same tuner still agree after its operation is aborted (R145). -/
theorem State.Agree.abortOp {u v : State} (h : State.Agree u v) (ht : u.tuner = v.tuner) :
    State.Agree (u.abortOp false) (v.abortOp false) := by
  unfold State.abortOp State.endOp
  rw [ht]
  cases v.tuner.op with
  | none => exact h
  | some op =>
    exact State.Agree.raiseDone (u := { u with tuner := { v.tuner with op := none } })
      (v := { v with tuner := { v.tuner with op := none } }) h _ _

/-- The completion of a switch changes the injection queue and the report unit, and nothing else. -/
theorem State.switchDone_eq (s : State) (z : Zone) (r : CmdResult) :
    s.switchDone z r
      = { s with link := { s.link with injq := (s.switchDone z r).link.injq }, rep := (s.switchDone z r).rep } :=
  s.raiseDone_eq _ _

/-- Two states that agree but for returns of STREAM slots placed behind the injection queue of the first. -/
def State.Placed (u v : State) (q : List Injected) : Prop :=
  v.rep = u.rep ∧ v.link = { u.link with injq := u.link.injq ++ q } ∧ v.strap = u.strap ∧ v.block = u.block
    ∧ v.tuner = u.tuner ∧ v.cmd = u.cmd ∧ v.mirror = u.mirror ∧ v.tap = u.tap
    ∧ ∀ x ∈ q, ∃ w i, x.origin = .stream w i

/-- What is placed twice is placed in its order. -/
theorem State.Placed.trans {u v w : State} {q r : List Injected} (h : State.Placed u v q) (h' : State.Placed v w r) :
    State.Placed u w (q ++ r) := by
  obtain ⟨h1, h2, h3, h4, h5, h6, h7, h8, h9⟩ := h
  obtain ⟨k1, k2, k3, k4, k5, k6, k7, k8, k9⟩ := h'
  refine ⟨k1.trans h1, ?_, k3.trans h3, k4.trans h4, k5.trans h5, k6.trans h6, k7.trans h7, k8.trans h8, ?_⟩
  · rw [k2, h2]; simp
  · intro x hx
    rcases List.mem_append.mp hx with hx | hx
    · exact h9 x hx
    · exact k9 x hx

/-- Placing a waiting return places at most one write of a STREAM slot. -/
theorem State.placeReturn_placed (s : State) : ∃ q, State.Placed s s.placeReturn q := by
  unfold State.placeReturn
  have triv : ∀ v : State, v.rep = s.rep → v.link = s.link → v.strap = s.strap → v.block = s.block →
    v.tuner = s.tuner → v.cmd = s.cmd → v.mirror = s.mirror → v.tap = s.tap → State.Placed s v [] := by
    intro v a1 a2 a3 a4 a5 a6 a7 a8
    exact ⟨a1, by rw [a2]; simp, a3, a4, a5, a6, a7, a8, by simp⟩
  split
  · exact ⟨[], triv _ rfl rfl rfl rfl rfl rfl rfl rfl⟩
  · split_ifs
    · exact ⟨[], triv _ rfl rfl rfl rfl rfl rfl rfl rfl⟩
    · split
      · exact ⟨[], triv _ rfl rfl rfl rfl rfl rfl rfl rfl⟩
      · refine ⟨[_], rfl, rfl, rfl, rfl, rfl, rfl, rfl, rfl, ?_⟩
        intro x hx; simp only [List.mem_singleton] at hx; subst hx; exact ⟨_, _, rfl⟩

/-- Where the fields are equal, nothing is placed. -/
theorem State.Placed.of_eq (s v : State) (a1 : v.rep = s.rep) (a2 : v.link = s.link) (a3 : v.strap = s.strap)
    (a4 : v.block = s.block) (a5 : v.tuner = s.tuner) (a6 : v.cmd = s.cmd) (a7 : v.mirror = s.mirror) (a8 : v.tap = s.tap) : State.Placed s v [] :=
  ⟨a1, by rw [a2]; simp, a3, a4, a5, a6, a7, a8, by simp⟩

/-- Placing waiting returns places writes of STREAM slots. -/
theorem State.placeReturns_placed (n : Nat) (s : State) : ∃ q, State.Placed s (State.placeReturns n s) q := by
  induction n generalizing s with
  | zero => exact ⟨[], State.Placed.of_eq s s rfl rfl rfl rfl rfl rfl rfl rfl⟩
  | succ n ih =>
    obtain ⟨q, h⟩ := State.placeReturn_placed s
    obtain ⟨r, h'⟩ := ih s.placeReturn
    exact ⟨q ++ r, h.trans h'⟩

/-- Choosing the path that a window feeds places nothing. -/
theorem State.feedIfNamed_placed (s : State) (w : Fin 16) : State.Placed s (s.feedIfNamed w) [] := by
  unfold State.feedIfNamed State.startFeeding
  split
  · exact State.Placed.of_eq s s rfl rfl rfl rfl rfl rfl rfl rfl
  · split_ifs
    · exact State.Placed.of_eq s s rfl rfl rfl rfl rfl rfl rfl rfl
    · split
      · exact State.Placed.of_eq s s rfl rfl rfl rfl rfl rfl rfl rfl
      · split <;> exact State.Placed.of_eq s _ rfl rfl rfl rfl rfl rfl rfl rfl

/-- Flushing a window places writes of STREAM slots and nothing else (R40). -/
theorem State.flushWindow_placed (s : State) (w : Fin 16) : ∃ q, State.Placed s (s.flushWindow w) q := by
  unfold State.flushWindow
  split
  · exact ⟨[], State.Placed.of_eq s s rfl rfl rfl rfl rfl rfl rfl rfl⟩
  · rename_i r hr
    simp only
    split_ifs
    · obtain ⟨q, h⟩ := State.placeReturns_placed (flushList r r.slots.length r.unpackPos).length
        ({ s.setRing w (some { flushSlots (flushList r r.slots.length r.unpackPos) r with
            unpackPos := flushPos r
            slots := (flushSlots (flushList r r.slots.length r.unpackPos) r).slots.map fun x => { x with skip := false }
            feeds := none }) with
          intakeWait := s.intakeWait ++ (flushList r r.slots.length r.unpackPos).map fun i => (w, i) })
      exact ⟨_, ((State.Placed.of_eq s _ rfl rfl rfl rfl rfl rfl rfl rfl).trans h).trans (State.feedIfNamed_placed _ w)⟩
    · exact ⟨_, (State.Placed.of_eq s _ rfl rfl rfl rfl rfl rfl rfl rfl).trans (State.feedIfNamed_placed _ w)⟩

/-- Putting a path record in its place places nothing. -/
theorem State.setPath_placed (s : State) (b : PathId) (p : PathId) (r : PathRec) :
    State.Placed s ({ s with bindFirst := b }.setPath p r) [] := by
  cases p <;> exact State.Placed.of_eq s _ rfl rfl rfl rfl rfl rfl rfl rfl

/-- RESTART for a path places writes of STREAM slots, none when no window feeds it (R40, R109). -/
theorem State.restartPath_placed (s : State) (p : PathId) :
    ∃ q, State.Placed s (s.restartPath p) q ∧ (s.feeding p = none → q = []) := by
  unfold State.restartPath
  cases hf : s.feeding p with
  | none => exact ⟨[], State.setPath_placed s _ p _, fun _ => rfl⟩
  | some w =>
    obtain ⟨q, h⟩ := State.flushWindow_placed ({ s with bindFirst := p.other }.setPath p PathRec.free) w
    exact ⟨[] ++ q, (State.setPath_placed s _ p _).trans h, nofun⟩

/-- RESTART for a path that no window feeds keeps what feeds the other. -/
theorem State.restartPath_feeding_none (s : State) (p q : PathId) (h : s.feeding p = none) :
    (s.restartPath p).feeding q = s.feeding q := by
  unfold State.restartPath
  rw [h]
  cases p <;> rfl

/-- RESTART for a zone raises what aborting its switch raises, and no more (R90). -/
theorem State.restartZone_agree (s u : State) (z : Zone) (h : State.Agree s u) (hz : s.zone z = u.zone z) :
    State.Agree (s.restartZone z) (if (u.zone z).switch = .idle then u else u.switchDone z .aborted) := by
  unfold State.restartZone
  rw [hz]
  have e : ∀ (v : State) (r : ZoneRec), State.Agree (v.setZone z r) v := by
    intro v r; cases z <;> exact ⟨rfl, rfl, rfl, rfl⟩
  split_ifs
  · exact (e _ _).trans h
  · exact (e _ _).trans (h.switchDone z _ hz)

/-- Putting a zone's record in its place keeps the other zone's. -/
theorem State.zone_setZone_ne (s : State) (z y : Zone) (r : ZoneRec) (h : y ≠ z) :
    (s.setZone z r).zone y = s.zone y := by
  cases z <;> cases y <;> first | rfl | exact absurd rfl h

/-- RESTART for a zone keeps the tuner, the rings, the command unit, the mirror, the tap and the other zone. -/
theorem State.restartZone_keeps (s : State) (z : Zone) :
    (s.restartZone z).tuner = s.tuner ∧ (s.restartZone z).rings = s.rings ∧ (s.restartZone z).cmd = s.cmd
      ∧ (s.restartZone z).mirror = s.mirror ∧ (s.restartZone z).tap = s.tap
      ∧ ∀ y, y ≠ z → (s.restartZone z).zone y = s.zone y := by
  have e : ∀ v : State, ∀ r : ZoneRec, (v.setZone z r).tuner = v.tuner ∧ (v.setZone z r).rings = v.rings
      ∧ (v.setZone z r).cmd = v.cmd ∧ (v.setZone z r).mirror = v.mirror ∧ (v.setZone z r).tap = v.tap := by
    intro v r; cases z <;> exact ⟨rfl, rfl, rfl, rfl, rfl⟩
  unfold State.restartZone
  simp only
  refine ⟨?_, ?_, ?_, ?_, ?_, ?_⟩
  · rw [(e _ _).1]; split_ifs <;> simp [State.switchDone]
  · rw [(e _ _).2.1]; split_ifs <;> simp [State.switchDone]
  · rw [(e _ _).2.2.1]; split_ifs <;> simp [State.switchDone]
  · rw [(e _ _).2.2.2.1]; split_ifs <;> simp [State.switchDone]
  · rw [(e _ _).2.2.2.2]; split_ifs <;> simp [State.switchDone]
  · intro y hy
    rw [State.zone_setZone_ne _ _ _ _ hy]
    split_ifs
    · rfl
    · cases y <;> simp [State.switchDone, State.zone]

/-- Two states with the same report unit, link, command unit, mirror, tap, tuner, rings and waiting slot returns. -/
def State.Kept (u v : State) : Prop :=
  v.rep = u.rep ∧ v.link = u.link ∧ v.strap = u.strap ∧ v.cmd = u.cmd ∧ v.mirror = u.mirror ∧ v.tap = u.tap
    ∧ v.tuner = u.tuner ∧ v.rings = u.rings ∧ v.intakeWait = u.intakeWait

/-- A state keeps itself. -/
theorem State.Kept.refl (u : State) : State.Kept u u := ⟨rfl, rfl, rfl, rfl, rfl, rfl, rfl, rfl, rfl⟩

/-- Keeping chains. -/
theorem State.Kept.trans {u v w : State} (h : State.Kept u v) (k : State.Kept v w) : State.Kept u w :=
  ⟨k.1.trans h.1, k.2.1.trans h.2.1, k.2.2.1.trans h.2.2.1, k.2.2.2.1.trans h.2.2.2.1, k.2.2.2.2.1.trans h.2.2.2.2.1,
    k.2.2.2.2.2.1.trans h.2.2.2.2.2.1, k.2.2.2.2.2.2.1.trans h.2.2.2.2.2.2.1,
    k.2.2.2.2.2.2.2.1.trans h.2.2.2.2.2.2.2.1, k.2.2.2.2.2.2.2.2.trans h.2.2.2.2.2.2.2.2⟩

/-- A change for each element of a list keeps what each of them keeps. -/
theorem forEach_kept {α : Type} (f : α → State → State) (h : ∀ x s, State.Kept s (f x s)) (xs : List α) (s : State) :
    State.Kept s (forEach f xs s) := by
  induction xs generalizing s with
  | nil => exact State.Kept.refl s
  | cons x xs ih => exact (h x s).trans (ih _)

/-- RESTART for outputs and protection raises nothing (R182, R196). -/
theorem State.restartOutputs_kept (s : State) : State.Kept s s.restartOutputs := by
  unfold State.restartOutputs
  have hg : ∀ (g : Fin 12) (t : State), State.Kept t (t.applyGroup g) := fun g t =>
    forEach_kept _ (fun c u => by
      unfold State.applyChannel State.setChan; exact ⟨rfl, rfl, rfl, rfl, rfl, rfl, rfl, rfl, rfl⟩) _ t
  have h1 := forEach_kept (fun g t => State.applyGroup t g) hg (List.finRange 12) s
  generalize forEach (fun g t => State.applyGroup t g) (List.finRange 12) s = u at h1 ⊢
  have h2 : State.Kept u { u with pairs := u.pairs.map Pair.restart } := ⟨rfl, rfl, rfl, rfl, rfl, rfl, rfl, rfl, rfl⟩
  refine (h1.trans h2).trans (forEach_kept (fun c t => State.restartChannel t c) (fun c u => ?_) _ _)
  unfold State.restartChannel State.setChan; exact ⟨rfl, rfl, rfl, rfl, rfl, rfl, rfl, rfl, rfl⟩

/-- Changing lanes raises nothing. -/
theorem State.mapLanes_kept (ls : List (Fin 4)) (f : LaneRec → LaneRec) (s : State) : State.Kept s (s.mapLanes ls f) :=
  forEach_kept (fun l t => t.setLane l (f (t.lane l))) (fun _ _ => ⟨rfl, rfl, rfl, rfl, rfl, rfl, rfl, rfl, rfl⟩) ls s

/-- RESTART for the lane receiver raises nothing (R66). -/
theorem State.restartLanes_kept (s : State) : State.Kept s s.restartLanes := by
  unfold State.restartLanes
  have h := State.mapLanes_kept (List.finRange 4) LaneRec.restart s
  generalize s.mapLanes (List.finRange 4) LaneRec.restart = u at h
  exact h.trans ⟨rfl, rfl, rfl, rfl, rfl, rfl, rfl, rfl, rfl⟩

/-- Aborting the radio operation clears its record; it keeps the rest of the tuner, the command unit, the mirror, the tap,
the rings and the waiting slot returns. -/
theorem State.abortOp_keeps (s2 : State) : (s2.abortOp false).cmd = s2.cmd ∧ (s2.abortOp false).mirror = s2.mirror
      ∧ (s2.abortOp false).tap = s2.tap ∧ (s2.abortOp false).strap = s2.strap
      ∧ (s2.abortOp false).tuner = { s2.tuner with op := none } ∧ (s2.abortOp false).rings = s2.rings
      ∧ (s2.abortOp false).intakeWait = s2.intakeWait := by
  unfold State.abortOp State.endOp
  cases hop : s2.tuner.op with
  | none => exact ⟨rfl, rfl, rfl, rfl, (show s2.tuner = { s2.tuner with op := none } from by rw [← hop]), rfl, rfl⟩
  | some op => simp

/-! ## The returns of flushed slots at RESTART (R18, R40) -/

/-- A state with other zones, another owner and another command unit. -/
def State.aside (u : State) (a b : ZoneRec) (o : Option Zone) (c : CommandUnit) : State :=
  { u with zoneMain := a, zoneTwo := b, owner := o, cmd := c }

/-- Placing a return does not look at what is put aside. -/
theorem State.placeReturn_aside (u : State) (a b : ZoneRec) (o : Option Zone) (c : CommandUnit) :
    (u.aside a b o c).placeReturn = u.placeReturn.aside a b o c := by
  have hr : ∀ w, (u.aside a b o c).ring w = u.ring w := fun _ => rfl
  unfold State.placeReturn
  rw [show (u.aside a b o c).intakeWait = u.intakeWait from rfl, show (u.aside a b o c).room = u.room from rfl]
  cases u.intakeWait with
  | nil => rfl
  | cons x rest =>
    simp only [hr]
    split_ifs
    · rfl
    · cases u.ring x.1 <;> rfl

/-- Placing returns does not look at what is put aside. -/
theorem State.placeReturns_aside (n : Nat) (u : State) (a b : ZoneRec) (o : Option Zone) (c : CommandUnit) :
    State.placeReturns n (u.aside a b o c) = (State.placeReturns n u).aside a b o c := by
  induction n generalizing u with
  | zero => rfl
  | succ n ih => rw [State.placeReturns, State.placeReturn_aside, ih]; rfl

/-- Choosing the path a window feeds does not look at what is put aside. -/
theorem State.feedIfNamed_aside (u : State) (w : Fin 16) (a b : ZoneRec) (o : Option Zone) (c : CommandUnit) :
    (u.aside a b o c).feedIfNamed w = (u.feedIfNamed w).aside a b o c := by
  have hf : (u.aside a b o c).feedChoice w = u.feedChoice w := rfl
  unfold State.feedIfNamed State.startFeeding
  rw [show (u.aside a b o c).ring w = u.ring w from rfl, hf]
  cases u.ring w with
  | none => rfl
  | some r => simp only; split_ifs <;> first | rfl | (cases u.feedChoice w <;> rfl)

/-- A flush does not look at what is put aside. -/
theorem State.flushWindow_aside (u : State) (w : Fin 16) (a b : ZoneRec) (o : Option Zone) (c : CommandUnit) :
    (u.aside a b o c).flushWindow w = (u.flushWindow w).aside a b o c := by
  unfold State.flushWindow
  rw [show (u.aside a b o c).ring w = u.ring w from rfl, show (u.aside a b o c).intakeWait = u.intakeWait from rfl]
  cases u.ring w with
  | none => rfl
  | some r =>
    simp only
    split_ifs
    · rw [← State.feedIfNamed_aside, ← State.placeReturns_aside]; rfl
    · rw [← State.feedIfNamed_aside]; rfl

/-- RESTART for a path does not look at what is put aside. -/
theorem State.restartPath_aside (u : State) (p : PathId) (a b : ZoneRec) (o : Option Zone) (c : CommandUnit) :
    (u.aside a b o c).restartPath p = (u.restartPath p).aside a b o c := by
  unfold State.restartPath
  rw [show (u.aside a b o c).feeding p = u.feeding p from rfl]
  cases u.feeding p with
  | none => cases p <;> rfl
  | some w => simp only; rw [← State.flushWindow_aside]; cases p <;> rfl

/-- A report does not look at what is put aside. -/
theorem State.post_aside (u : State) (r : Report) (a b : ZoneRec) (o : Option Zone) (c : CommandUnit) :
    (u.aside a b o c).post r = (u.post r).aside a b o c := by
  have h1 : (u.aside a b o c).rep = u.rep := rfl
  have h2 : (u.aside a b o c).canWriteReport = u.canWriteReport := rfl
  unfold State.post
  rw [h1, h2]
  split_ifs <;> rfl

/-- The completion of a switch looks at its zone's record only (R83, R90). -/
theorem State.switchDone_aside (u : State) (z : Zone) (r : CmdResult) (a b : ZoneRec) (o : Option Zone) (c : CommandUnit)
    (h : (u.aside a b o c).zone z = u.zone z) :
    (u.aside a b o c).switchDone z r = (u.switchDone z r).aside a b o c := by
  unfold State.switchDone State.raiseDone
  rw [h]
  dsimp only
  cases (u.zone z).tag with
  | none => rfl
  | some t => exact State.post_aside _ _ _ _ _ _

/-- RESTART for a zone aborts its switch and puts a record in the zone's place (R90). -/
theorem State.restartZone_eq (s : State) (z : Zone) :
    ∃ r, s.restartZone z = (if (s.zone z).switch = .idle then s else s.switchDone z .aborted).setZone z r := ⟨_, rfl⟩

/-- The zones at RESTART, up to their records: what aborting the switches raises (R90). -/
theorem State.restartZones_aside (s : State) (c : CommandUnit) :
    let aborts (z : Zone) (u : State) : State := if (s.zone z).switch = .idle then u else u.switchDone z .aborted
    ∃ zm zt, (({ s with cmd := c } : State).restartZone .main).restartZone .zone2
      = (aborts .zone2 (aborts .main s)).aside zm zt s.owner c := by
  intro aborts
  have abort : ∀ (z : Zone) (u : State) (a b : ZoneRec), (u.aside a b s.owner c).zone z = s.zone z → u.zone z = s.zone z →
      (if ((u.aside a b s.owner c).zone z).switch = .idle then u.aside a b s.owner c
        else (u.aside a b s.owner c).switchDone z .aborted) = (aborts z u).aside a b s.owner c := by
    intro z u a b h1 h2
    rw [State.switchDone_aside _ _ _ _ _ _ _ (h1.trans h2.symm), h1]
    simp only [aborts]
    split_ifs <;> rfl
  obtain ⟨zm, e1⟩ := (s.aside s.zoneMain s.zoneTwo s.owner c).restartZone_eq .main
  rw [abort .main s s.zoneMain s.zoneTwo rfl rfl] at e1
  have e1' : ({ s with cmd := c } : State).restartZone .main = (aborts .main s).aside zm s.zoneTwo s.owner c := e1
  obtain ⟨zt, e2⟩ := ((aborts .main s).aside zm s.zoneTwo s.owner c).restartZone_eq .zone2
  rw [abort .zone2 (aborts .main s) zm s.zoneTwo rfl (by
    simp only [aborts]; split_ifs
    · rfl
    · simp [State.switchDone, State.zone])] at e2
  exact ⟨zm, zt, by rw [e1', e2]; rfl⟩

/-- The slots that a flush at the end of a path's binding catches, with their records (R40). -/
def State.caughtSlots (s : State) (p : PathId) : List ((Fin 16 × Nat) × SlotRec) :=
  match s.feeding p with
  | none => []
  | some w =>
    match s.ring w with
    | none => []
    | some r => (flushList r r.slots.length r.unpackPos).map fun i => ((w, i), r.slot i)

/-- The return that a caught slot makes (R35, R40). -/
def State.caughtReturn (s : State) (x : (Fin 16 × Nat) × SlotRec) : Injected :=
  { write := fullWrite ((s.window x.1.1).base + (s.window x.1.1).slotSize * x.1.2)
      (slotWord .flushed x.2.late false x.2.len x.2.moved)
    origin := .stream x.1.1 x.1.2 }

/-- Two states that agree but for caught slots returned from the first to the second: while none waited, those that find
room enter the queue, and the others wait (R10, R35). -/
def State.Flushed (s t : State) (xs : List ((Fin 16 × Nat) × SlotRec)) : Prop :=
  let k := if s.intakeWait = [] then 16 - s.link.injq.length else 0
  t.link = { s.link with injq := s.link.injq ++ (xs.take k).map s.caughtReturn }
  ∧ t.intakeWait = s.intakeWait ++ (xs.drop k).map Prod.fst ∧ t.windows = s.windows

/-- Slots caught one after the other are returned in their order. -/
theorem State.Flushed.trans {s t u : State} {xs ys : List ((Fin 16 × Nat) × SlotRec)} (h : State.Flushed s t xs)
    (h' : State.Flushed t u ys) : State.Flushed s u (xs ++ ys) := by
  obtain ⟨h1, h2, h3⟩ := h
  obtain ⟨k1, k2, k3⟩ := h'
  have hc : t.caughtReturn = s.caughtReturn := by
    funext x; unfold State.caughtReturn State.window; rw [h3]
  rw [h1, h2, hc] at k1
  rw [h1, h2] at k2
  by_cases hw : s.intakeWait = []
  · simp only [hw, if_true, List.nil_append, List.map_eq_nil_iff, List.drop_eq_nil_iff, List.length_append,
      List.length_map, List.length_take, List.append_assoc, ← List.map_append] at k1 k2
    refine ⟨?_, ?_, k3.trans h3⟩
    · rw [k1]
      simp only [hw, if_true, List.take_append]
      by_cases hl : xs.length ≤ 16 - s.link.injq.length
      · simp only [if_pos hl]
        congr 5; omega
      · simp only [if_neg hl]
        rw [show 16 - s.link.injq.length - xs.length = 0 by omega]
    · rw [k2]
      simp only [hw, if_true, List.drop_append, List.nil_append]
      by_cases hl : xs.length ≤ 16 - s.link.injq.length
      · simp only [if_pos hl]
        congr 3; omega
      · simp only [if_neg hl]
        rw [show 16 - s.link.injq.length - xs.length = 0 by omega]
  · simp only [if_neg hw, List.take_zero, List.map_nil, List.append_nil, List.drop_zero] at k1 k2 ⊢
    exact ⟨by rw [k1]; simp [hw], by rw [k2]; simp [hw], k3.trans h3⟩

/-- RESTART for one path returns the slots its window holds, and leaves none of them caught (R40, R109). -/
theorem State.restartPath_flushed (s : State) (p : PathId) :
    State.Flushed s (s.restartPath p) (s.caughtSlots p) ∧ (s.restartPath p).sources = s.sources
      ∧ (s.restartPath p).path p.other = s.path p.other
      ∧ (s.feeding p = none → (s.restartPath p).rings = s.rings)
      ∧ ∀ w r, s.feeding p = some w → s.ring w = some r →
        (∀ v, v ≠ w → (s.restartPath p).ring v = s.ring v)
        ∧ ∃ q, (s.restartPath p).ring w = some q ∧ (r.unpackPos < r.slots.length → ∀ j, ¬ q.caught j)
          ∧ (s.namesWindow p.other w = false → q.feeds = none) := by
  unfold State.restartPath State.caughtSlots
  cases hf : s.feeding p with
  | none =>
    refine ⟨?_, by cases p <;> rfl, by cases p <;> rfl, fun _ => by cases p <;> rfl, nofun⟩
    refine ⟨?_, ?_, by cases p <;> rfl⟩ <;> (cases p <;> simp [State.setPath])
  | some w =>
    obtain ⟨r, hr, hrf⟩ := s.feeding_ring p w hf
    obtain ⟨v, hv⟩ : ∃ v, v = ({ s with bindFirst := p.other } : State).setPath p PathRec.free := ⟨_, rfl⟩
    have v1 : v.link = s.link ∧ v.intakeWait = s.intakeWait ∧ v.windows = s.windows ∧ v.rings = s.rings
        ∧ v.sources = s.sources ∧ v.path p.other = s.path p.other ∧ v.bindFirst = p.other ∧ v.path p = PathRec.free := by
      rw [hv]; cases p <;> exact ⟨rfl, rfl, rfl, rfl, rfl, rfl, rfl, rfl⟩
    obtain ⟨a1, a2, a3, a4, a5, a6, a7, a8⟩ := v1
    have hvr : ∀ x, v.ring x = s.ring x := fun x => by unfold State.ring; rw [a4]
    have e := v.flushWindow_spec w r ((hvr w).trans hr)
    simp only [hr]
    rw [← hv]
    simp only [a1, a2] at e
    obtain ⟨k, hk⟩ : ∃ k, k = if s.intakeWait = [] then 16 - s.link.injq.length else 0 := ⟨_, rfl⟩
    rw [← hk] at e
    obtain ⟨is, his⟩ : ∃ is, is = flushList r r.slots.length r.unpackPos := ⟨_, rfl⟩
    rw [← his] at e ⊢
    obtain ⟨u, hu⟩ : ∃ u : State, u = { v.setRing w (some r.flushed) with
        intakeWait := s.intakeWait ++ (is.drop k).map (fun i => (w, i))
        link := { s.link with injq :=
          s.link.injq ++ (is.take k).map (fun i => v.slotReturn w i (r.slot i).flushed) } } := ⟨_, rfl⟩
    rw [← hu] at e
    have hur : u.ring w = some r.flushed := by
      rw [hu]; exact State.ring_setRing_same v w _
    have hug : ∀ x, x ≠ w → u.ring x = s.ring x := by
      intro x hx
      rw [hu]
      refine (State.ring_setRing v w x _).trans ?_
      rw [if_neg (Ne.symm hx), hvr]
    obtain ⟨q, hq, hqc⟩ := u.feedIfNamed_eq w _ hur
    have hret : ∀ i, v.slotReturn w i (r.slot i).flushed = s.caughtReturn ((w, i), r.slot i) := by
      intro i
      unfold State.slotReturn State.caughtReturn State.window SlotRec.flushed
      rw [a3]
    refine ⟨⟨?_, ?_, ?_⟩, ?_, ?_, nofun, ?_⟩
    · rw [e, hq]
      show u.link = _
      rw [hu]
      simp only [← List.map_take, List.map_map, hret, ← hk]
      rfl
    · rw [e, hq]
      show u.intakeWait = _
      rw [hu]
      simp only [← List.map_drop, List.map_map, ← hk]
      rfl
    · rw [e, hq]
      show u.windows = _
      rw [hu]; exact a3
    · rw [e, hq]
      show u.sources = _
      rw [hu]; exact a5
    · rw [e, hq]
      have : (u.setRing w (some q)).path p.other = u.path p.other := by cases p <;> rfl
      rw [this, hu, ← a6]
      cases p <;> rfl
    · intro w' r' hw' hr'
      cases hw'
      rw [hr] at hr'; cases hr'
      refine ⟨fun x hx => ?_, q, ?_, fun hp j hj => r.flushed_not_caught hp j (hqc j hj), fun hn => ?_⟩
      · rw [e, hq, State.ring_setRing, if_neg (Ne.symm hx), hug x hx]
      · rw [e, hq, State.ring_setRing_same]
      · have hch : u.feedChoice w = none := by
          have hb : u.bindFirst = p.other := by rw [hu]; exact a7
          have hpo : u.path p.other = s.path p.other := by rw [← a6, hu]; cases p <;> rfl
          have hpf : u.path p = PathRec.free := by rw [← a8, hu]; cases p <;> rfl
          have hus : u.sources = s.sources := by rw [hu]; exact a5
          have n1 : u.namesWindow p.other w = false := by
            rw [← hn]; unfold State.namesWindow State.source; rw [hpo, hus]
          have n2 : u.namesWindow p w = false := by
            unfold State.namesWindow; rw [hpf]; rfl
          unfold State.feedChoice
          rw [hb, n1, show p.other.other = p by cases p <;> rfl, n2]
          rfl
        have hfe : u.feedIfNamed w = u := by
          unfold State.feedIfNamed
          rw [hur]
          simp only
          rw [hch]; split_ifs <;> rfl
        have : some q = some r.flushed := by
          rw [← State.ring_setRing_same u w (some q), ← hq, hfe, hur]
        cases this
        rfl

/-- RESTART for both paths: the slots of P0's window come before those of P1's (R40, R109). -/
theorem State.restartPaths_flushed (s : State)
    (h : ∀ p w r, s.feeding p = some w → s.ring w = some r → s.namesWindow p w = true ∧ r.unpackPos < r.slots.length) :
    State.Flushed s ((s.restartPath .p0).restartPath .p1) (s.caughtSlots .p0 ++ s.caughtSlots .p1) := by
  obtain ⟨f0, src, path1, none0, some0⟩ := s.restartPath_flushed .p0
  obtain ⟨c, hc⟩ : ∃ c, c = s.restartPath .p0 := ⟨_, rfl⟩
  rw [← hc] at f0 src path1 none0 some0 ⊢
  have f1 := (c.restartPath_flushed .p1).1
  have key : c.caughtSlots .p1 = s.caughtSlots .p1 := by
    cases hf : s.feeding .p0 with
    | none =>
      have hr := none0 hf
      unfold State.caughtSlots State.feeding State.ring
      rw [hr]
    | some w0 =>
      obtain ⟨r0, hr0, hrf0⟩ := s.feeding_ring _ _ hf
      obtain ⟨hn0, hp0⟩ := h _ _ _ hf hr0
      obtain ⟨ho, q, hq, hqc, hqf⟩ := some0 w0 r0 hf hr0
      cases hf1 : s.feeding .p1 with
      | none =>
        have es : s.caughtSlots .p1 = [] := by unfold State.caughtSlots; rw [hf1]
        rw [es]
        unfold State.caughtSlots
        cases hc1 : c.feeding .p1 with
        | none => rfl
        | some v =>
          obtain ⟨x, hx, hxf⟩ := c.feeding_ring _ _ hc1
          by_cases hv : v = w0
          · subst hv
            rw [hq] at hx; cases hx
            simp only [hq]
            rw [flushList_nil q _ _ (hqc hp0)]
            rfl
          · exfalso
            rw [ho v hv] at hx
            unfold State.feeding at hf1
            rw [List.find?_eq_none] at hf1
            exact hf1 v (List.mem_finRange v) (by rw [hx]; simpa using hxf)
      | some w1 =>
        obtain ⟨r1, hr1, hrf1⟩ := s.feeding_ring _ _ hf1
        obtain ⟨hn1, -⟩ := h _ _ _ hf1 hr1
        have hne : w1 ≠ w0 := by
          rintro rfl
          rw [hr0] at hr1; cases hr1
          rw [hrf0] at hrf1; cases hrf1
        have hn : s.namesWindow .p1 w0 = false := by
          unfold State.namesWindow at hn1 ⊢
          split at hn1
          · cases hn1
          · rename_i e he
            simp only [Bool.and_eq_true, decide_eq_true_eq] at hn1
            simp only [hn1.2, Bool.and_eq_false_iff, decide_eq_false_iff_not]
            right
            intro hh; exact hne (Option.some.inj hh)
        have hqn := hqf hn
        have hfe : c.feeding .p1 = s.feeding .p1 := by
          apply State.feeding_congr
          intro v
          by_cases hv : v = w0
          · subst hv
            rw [hq, hr0]
            simp [hqn, hrf0]
          · rw [ho v hv]
        unfold State.caughtSlots
        rw [hfe, hf1]
        simp only [ho w1 hne]
  rw [key] at f1
  exact f0.trans f1

end Sys2Proof.Machine
end

