-- ==== Sys2Proof/Tests/Slice0.lean ====
section
/-! SUPPORT. The author's own checks: ill-formed commands are refused by the well-formedness check; small steps on small
states give the values the spec's worked figures give; and for every statement with hypotheses, a state and operands
that meet them, clause by clause. -/

namespace Sys2Proof.Tests

open Sys2Proof Sys2Proof.Machine

set_option maxRecDepth 8000

/-! ## Helpers -/

/-- The next state of a command; the state itself where it stops. -/
def run (c : Instr) (s : State) : State :=
  match exec c s with
  | .next t => t
  | .fault _ | .refused _ => s

/-- A few commands, one after the other. -/
def runs : List Instr → State → State
  | [], s => s
  | c :: cs, s => runs cs (run c s)

/-- The bytes of the newest write in the injection queue after a command: its return, when there was a place. -/
def ret (c : Instr) (s : State) : List Byte :=
  match (run c s).link.injq.getLast? with
  | some i => i.write.data
  | none => []

/-- The state with the main zone's record changed. -/
def mainZone (f : ZoneRec → ZoneRec) (s : State) : State := { s with zoneMain := f s.zoneMain }

/-- The state with path 0 changed. -/
def pathA (f : PathRec → PathRec) (s : State) : State := { s with pathZero := f s.pathZero }

/-- The state with the tuner changed. -/
def radio (f : Tuner → Tuner) (s : State) : State := { s with tuner := f s.tuner }

/-- An absent label and a label of one character. -/
def noLabel : LabelArg := { len := 0xFF, chars := [0, 0, 0, 0, 0, 0, 0, 0] }
def labelA : LabelArg := { len := 1, chars := [65, 0, 0, 0, 0, 0, 0, 0] }

/-- A lane group of lanes 2 and 3, a stream on window 3, and the tuner, as source arguments. -/
def groupArgs : SourceArgs :=
  { kind := 1, laneCount := 2, lanes := [2, 3, 0, 0], window := 0, fillT := 960, kp := 64, ki := 2, gainG := 7
    ratchetH := 3, lockW := 8, trim := 0, label := noLabel }
def streamArgs : SourceArgs := { groupArgs with kind := 2, laneCount := 0, lanes := [0, 0, 0, 0], window := 3 }
def tunerArgs : SourceArgs := { groupArgs with kind := 3, laneCount := 0, lanes := [0, 0, 0, 0] }

/-- A table with a lane group in entry 0, a stream in entry 1 and the tuner in entry 2. -/
def table : State := runs [.defineSource 0 groupArgs, .defineSource 1 streamArgs, .defineSource 2 tunerArgs] State.reset

/-- The main zone is on and attached by path 0 to the lane group of entry 0. -/
def playing : State :=
  let f : Format := { rate := .r48000, roles := [.fl, .fr] }
  let g : GroupRec := { stage := .running, format := some f, opened := true }
  let t : Tracker := { Tracker.free with
    state := .acquire, timer := 225, gain := 7, step0 := some 16777216, cmax := some 32768, step := some 16777216 }
  let z : ZoneRec := { ZoneRec.powerOn with
    power := .on, selection := some 0, attached := some .p0, ramp := 0 }
  { table with
    groups := setAt table.groups 0 (some g)
    zoneMain := z
    pathZero := { PathRec.free with
      binding := some 0, format := some f, tracker := t, fifo := List.replicate 300 [0, 0] } }

/-- The radio is tuned to 98.1 MHz for the main zone. -/
def listening : State :=
  radio (fun t => { t with state := .tuned, band := .fm, freq := 98100, identified := true, statusArrived := true
                           level := 60 }) { State.reset with owner := some .main }

/-- A pending report that is no completion, and a completion. -/
def rep (k : ReportKind) (u : Nat) : Report := { kind := k, unit := u, tag := none, stamp := 0, payload := [] }

/-- A write waiting in the injection queue. -/
def waiting : Injected := { write := fullWrite 4096 [1], origin := .orphan }

/-- A full injection queue. -/
def fullQueue : State := { State.reset with link := { State.reset.link with injq := List.replicate 16 waiting } }

/-- A stream window that feeds path 0, with four slots. -/
def streaming : State :=
  run (.defineWindow 3 2 4 512 0x1000000)
    (pathA (fun p => { p with binding := some 1, format := some { rate := .r48000, roles := [.fl, .fr] } }) table)

/-- A page with one carriage frame at 48 kHz: two channels FL and FR, two frames, (1, 2) and (3, 4). -/
def carriage : List Byte :=
  [0xC7, 0x5A, 2, 2, 2, 0, 1, 2, 0, 0, 0, 0, 0, 0, 0, 0x2A] ++ [1, 0, 0, 0, 2, 0, 0, 0] ++ [3, 0, 0, 0, 4, 0, 0, 0]
def page : Mem := memStore ((List.range 32).map fun k => (16 + k, carriage.getD k 0)) []
def sealedSlot : SlotRec := { SlotRec.fresh with state := .sealed, page := some page, len := 32, good := 2 }

/-- Window 3 feeds path 0, with a sealed slot at the unpack position. -/
def fed (x : SlotRec) : State :=
  streaming.setRing 3 (some { Ring.fresh 4 with slots := x :: List.replicate 3 SlotRec.fresh, feeds := some .p0 })

/-- A MIRROR window at 0x3000000. -/
def mirrored : State := run (.defineWindow 1 4 0 0 0x3000000) State.reset

/-- A TAP window of four slots of 512 bytes. -/
def tapped : State := run (.defineWindow 2 3 4 512 0x2000000) State.reset

/-- The tap is bound to the main downmix, with slot 0 offered, and holds frames. -/
def offered (n : Nat) : State :=
  let s := run (.bindTap 2 0) tapped
  { s with tap := { s.tap.setSlot 0 { view := .offered, late := false, count := 0 } with
    hold := List.replicate n (1, 2) } }

/-- Slot next is host-owned, and the other conditions of R15 hold while nothing is pending. -/
theorem ready_of (s : State) (op : Nat) (h0 : getAt s.cmd.part s.cmd.next = false) (h1 : s.cmd.ret = none)
    (h2 : s.rep.queue = []) (h3 : s.tap.unbinding = false) (h4 : s.mirror.job = none) : s.CommandReady op :=
  ⟨h0, h1, by rw [h2]; decide, h3, fun j hj => by rw [h4] at hj; nomatch hj⟩

/-! ## Well-formedness: each check refuses an ill-formed term -/

theorem test_wf_request_short : (Request.read 0 4).wf = false := by decide
theorem test_wf_request_long : (Request.read 0 72).wf = false := by decide
theorem test_wf_request_unit : (Request.read 0 12).wf = false := by decide
theorem test_wf_request_block : (Request.read 60 8).wf = false := by decide
theorem test_wf_request_space : (Request.read 4294967292 8).wf = false := by decide
theorem test_wf_request_mask :
    (Request.write { addr := 0, data := List.replicate 8 0, mask := [true] }).wf = false := by decide
theorem test_wf_request_good : (Request.read 0 64).wf = true ∧ (Request.read 4294967288 8).wf = true := by decide
theorem test_wf_response : (Instr.dramResponse (List.replicate 65 0)).wf = false := by decide
theorem test_wf_source_lanes : (Instr.defineSource 0 { groupArgs with lanes := [2] }).wf = false := by decide
theorem test_wf_source_label :
    (Instr.defineSource 0 { groupArgs with label := { len := 1, chars := [65] } }).wf = false := by decide
theorem test_wf_store_label : (Instr.storePreset 0 { len := 1, chars := [] }).wf = false := by decide
theorem test_wf_set_label : (Instr.setPreset 0 0 87500 { len := 1, chars := [] }).wf = false := by decide
theorem test_wf_unknown : (Instr.unknownOpcode 0x39 0).wf = false ∧ (Instr.unknownOpcode 0x3A 0).wf = true := by decide
theorem test_wf_burst : (Instr.feBurst (List.replicate 193 (0, 0))).wf = false := by decide
theorem test_wf_ticks : (Instr.pilotCapture 1001).wf = false := by decide
theorem test_wf_good : (Instr.defineSource 0 groupArgs).wf = true ∧ (Instr.storePreset 0 labelA).wf = true := by decide

/-! ## The queue of commands -/

theorem test_step_front :
    step { State.reset with pending := [.setBass 60, .nop] } = exec (.setBass 60) { State.reset with pending := [.nop] } :=
  rfl
theorem test_step_idle : State.reset.pending = [] ∧ step State.reset = .next State.reset := ⟨rfl, rfl⟩
theorem test_fetch_word : State.reset.withFetchWord 8 0x1B = State.reset := rfl

/-! ## Invariants: a state in which they hold and a command that completes there -/

/-- Some work: the setting of the meters waits in front, at strap 3. -/
def work : State := { State.powerOn 3 with pending := [.setMeters 1] }

theorem test_work_memory : work.MemoryInv ∧ ∃ t, step work = .next t :=
  ⟨⟨by decide, by decide, by decide, by decide, by decide, by decide, by decide⟩, _, rfl⟩
theorem test_work_levels : work.LevelInv ∧ ∃ t, step work = .next t := by
  refine ⟨⟨fun z => ?_, fun e => ?_, fun c => ?_, by decide, by decide, by decide⟩, _, rfl⟩
  · cases z <;> exact ⟨by decide, by decide, by decide, by decide, by decide, by decide, by decide⟩
  · revert e; decide
  · exact ⟨by revert c; decide, by revert c; decide, by revert c; decide, by revert c; decide, by revert c; decide,
      by revert c; decide⟩
theorem test_work_trackers : work.TrackerInv ∧ ∃ t, step work = .next t := by
  refine ⟨⟨fun p => ?_, fun e => ?_⟩, _, rfl⟩
  · cases p <;> exact ⟨by decide, by decide, by decide, by decide, by decide, (fun _ h => nomatch h), (fun _ h => nomatch h)⟩
  · revert e; decide

/-! ## Power-on and link reset -/

theorem test_powerOn :
    (run (.powerOn 5) table).strap = 5 ∧ (run (.powerOn 5) table).window 0 = .anchor 83886080
      ∧ (run (.powerOn 5) table).source 0 = SourceEntry.powerOn := by decide
theorem test_linkReset :
    (run .linkReset (runs [.defineWindow 1 2 4 512 0x1000000] State.reset)).window 1 = .free
      ∧ (run .linkReset table).source 0 = table.source 0 := by decide
theorem test_linkReset_presence :
    let t := run .linkReset streaming
    let again := run (.defineWindow 3 2 4 512 0x1000000) t
    streaming.present .p0 = true ∧ t.pathZero = streaming.pathZero ∧ t.present .p0 = false
      ∧ again.feeding .p0 = some 3 ∧ again.present .p0 = true := by decide

theorem test_linkReset_rings :
    streaming.window 3 = .stream 0x1000000 512 4 ∧ (streaming.ring 3).isSome = true
      ∧ (run .linkReset streaming).ring 3 = none ∧ streaming.window 4 = .free := by decide

/-! ## The link and the arbiter -/

/-- A request that stands accepted. -/
def accepted : State := run (.hostRequestAccept (.read 0x4000 8)) State.reset

theorem test_request_accepted :
    (Request.read 0x4000 8).wf = true ∧ State.reset.link.slot = none ∧ State.reset.link.starve = 0
      ∧ State.reset.link.forwardCount < 32 ∧ State.reset.link.waiting ++ [.read 0x4000 8] = .read 0x4000 8 :: []
      ∧ accepted.link.slot = some (.read 0x4000 8) := by decide
theorem test_request_held :
    (Request.read 0x40 8).wf = true ∧ accepted.link.slot ≠ none
      ∧ (run (.hostRequestAccept (.read 0x40 8)) accepted).link.waiting = [.read 0x40 8] := by decide
/-- The forward count has reached its limit with a write waiting. -/
def due : State := { State.reset with link := { State.reset.link with forwardCount := 32, injq := [waiting] } }

theorem test_request_held_by_hold :
    32 ≤ due.link.forwardCount ∧ due.link.injq ≠ [] ∧ due.link.starve = 0
      ∧ (run .starvationHold due).link.starve = 4 ∧ 0 < (run .starvationHold due).link.starve := by decide
theorem test_overlap_in_hold :
    let s := { due with link := { due.link with starve := 4 } }
    (Request.read 4096 8).wf = true ∧ 0 < s.link.starve ∧ s.link.slot = none ∧ s.link.waiting = []
      ∧ (run (.hostRequestAccept (.read 4096 8)) s).link.overlapLeft = 1 := by decide
theorem test_overlap_behind :
    let s := { accepted with link := { accepted.link with injq := [waiting], waiting := [.read 4096 8] } }
    s.link.waiting = .read 4096 8 :: [] ∧ s.link.slot = some (.read 0x4000 8)
      ∧ (run .requestForward s).link.overlapLeft = 1
      ∧ (run .requestForward s).link.slot = none ∧ (run .requestForward s).link.waiting = [.read 4096 8]
      ∧ (runs [.requestForward, .injectedWriteIssue] s).link.slot = some (.read 4096 8)
      ∧ (runs [.requestForward, .injectedWriteIssue] s).link.waiting = [] := by decide
theorem test_overlap_first :
    let q := .read 4096 8
    let apart : Injected := { waiting with write := fullWrite 8192 [1] }
    let s := { State.reset with link := { State.reset.link with injq := [waiting, apart] } }
    (Request.read 4096 8).wf = true ∧ overlapsWrite q waiting = true ∧ overlapsWrite q apart = false
      ∧ overlapCount q ([apart] ++ waiting :: [apart]) = 2 ∧ overlapCount q [apart] = 0
      ∧ overlapsWrite (.read 4088 8) waiting = false ∧ overlapsWrite (.write (fullWrite 4097 [0, 0])) waiting = false
      ∧ (run (.hostRequestAccept q) s).link.slot = none ∧ (run (.hostRequestAccept q) s).link.waiting = [q]
      ∧ (run (.hostRequestAccept q) s).link.overlapLeft = 1
      ∧ (runs [.hostRequestAccept q, .injectedWriteIssue] s).link.slot = some q := by decide
theorem test_accept_waiting :
    let s := { State.reset with link := { State.reset.link with waiting := [.read 0 8] } }
    s.link.slot = none ∧ s.link.overlapLeft = 0 ∧ s.acceptWaiting.link.slot = some (.read 0 8)
      ∧ State.reset.link.waiting = [] ∧ State.reset.acceptWaiting = State.reset := by decide
theorem test_request_malformed :
    (Request.read 60 8).wf = false ∧ exec (.hostRequestAccept (.read 60 8)) due = .fault .malformedRequest :=
  ⟨by decide, rfl⟩
theorem test_request_forwarded :
    accepted.link.slot = some (.read 0x4000 8) ∧ accepted.link.overlapLeft = 0 ∧ accepted.link.starve = 0
      ∧ accepted.link.forwardCount < 32 ∧ State.reset.windowAt 0x4000 = none
      ∧ (run .requestForward accepted).link.inFlight = [.host (.read 0x4000 8)] := by decide
theorem test_forward_held :
    let s := { accepted with link := { accepted.link with overlapLeft := 1 } }
    0 < s.link.overlapLeft ∧ State.reset.link.slot = none ∧ (run .requestForward s).link.slot = s.link.slot := by decide
theorem test_response :
    let s := run .requestForward accepted
    s.link.inFlight = [.host (.read 0x4000 8)]
      ∧ (run (.dramResponse [7]) s).link.pSide = some { request := .read 0x4000 8, data := [7] }
      ∧ (run (.dramResponse []) { s with link := { s.link with inFlight := [.injected waiting.write] } }).link.pSide = none
      ∧ (run (.dramResponse []) { s with link := { s.link with inFlight := [.discarded (.read 0 8)] } }).link.pSide
          = none := by decide
theorem test_head_issued :
    let s := run .nop State.reset
    s.link.injq.length = 1 ∧ s.link.starve = 0 ∧ s.link.forwardCount < 32 ∧ s.link.slot = none
      ∧ (run .injectedWriteIssue s).link.injq = []
      ∧ (run .injectedWriteIssue s).link.inFlight.length = 1 := by decide
theorem test_head_issued_in_hold :
    let s := { accepted with link := { accepted.link with injq := [waiting, waiting], starve := 4 } }
    0 < s.link.starve ∧ (run .injectedWriteIssue s).link.starve = 3 := by decide

/-! ## Reports -/

/-- A state with one pending report. -/
def pendingOne : State := { State.reset with rep := { State.reset.rep with queue := [rep .zoneState 0] } }

theorem test_report_written :
    pendingOne.rep.queue = rep .zoneState 0 :: [] ∧ getAt pendingOne.rep.entryHost pendingOne.rep.w = false
      ∧ pendingOne.link.injq.length < 16 ∧ (run .reportWrite pendingOne).rep.w = 1
      ∧ ((run .reportWrite pendingOne).link.injq.map (·.write.addr)) = [4096] := by decide
theorem test_report_waits :
    State.reset.rep.queue = [] ∧ 16 ≤ fullQueue.link.injq.length
      ∧ getAt (run .injectedWriteIssue (run .reportWrite pendingOne)).rep.entryHost 0 = true := by decide

/-- Eight pending reports: a LANE_STATE of lane 0, a SOURCE_ABSENT, and six completions. -/
def eight : ReportUnit :=
  { ReportUnit.powerOn with
    queue := [rep .laneState 0, rep .sourceAbsent 1] ++ List.replicate 6 (rep .commandDone 0) }

theorem test_full_pending :
    eight.queue.length = 8
      ∧ (eight.pend (rep .laneState 0)).queue = eight.queue
      ∧ (eight.pend (rep .laneState 1)).overrun = true
      ∧ (eight.pend (rep .commandDone 0)).queue = rep .laneState 0 :: List.replicate 7 (rep .commandDone 0)
      ∧ (eight.pend (rep .format 0)).overrun = true := by decide
theorem test_full_pending_done :
    let u : ReportUnit := { eight with queue := List.replicate 8 (rep .commandDone 0) }
    u.queue.length = 8 ∧ (∀ x ∈ u.queue, x.kind = .commandDone)
      ∧ (u.pend (rep .commandDone 0)).overrun = true := by decide
theorem test_full_pending_newest :
    let a := rep .laneState 0
    let u : ReportUnit := { eight with queue := [a, { a with stamp := 1 }] ++ List.replicate 6 (rep .commandDone 0) }
    u.queue.length = 8 ∧ ((u.pend { a with stamp := 2 }).queue.map (·.stamp)).take 2 = [0, 2] := by decide
theorem test_pending_radio :
    let a := rep .radioState 0
    let b := { a with stamp := 1 }
    let done := rep .commandDone 0
    let u : ReportUnit := { eight with queue := [a, b] ++ List.replicate 5 done }
    u.queue.length = 7 ∧ u.queue ++ [done] = [a] ++ b :: List.replicate 6 done
      ∧ (u.pend done).queue = b :: List.replicate 6 done ∧ (u.pend done).overrun = false
      ∧ (u.pend { a with stamp := 2 }).queue = List.replicate 5 done ++ [{ a with stamp := 2 }]
      ∧ (({ u with queue := List.replicate 7 done }).pend done).queue = List.replicate 8 done := by decide

/-! ## Producers -/

/-- A return that waits for a place. -/
def held : State :=
  { State.reset with cmd := { State.reset.cmd with ret := some { slot := 0, bytes := [0, 0, 0, 0, 0, 0, 0, 0] } } }

theorem test_producer_command :
    held.cmd.ret = some { slot := 0, bytes := [0, 0, 0, 0, 0, 0, 0, 0] } ∧ held.link.injq.length < 16
      ∧ held.snapshotPlacing = false ∧ held.tap.unbinding = false
      ∧ (run (.producerEnqueue .command) held).cmd.next = 1 := by decide
theorem test_producer_intake :
    let s := { streaming with intakeWait := [(3, 2)] }
    s.intakeWait = (3, 2) :: [] ∧ (s.ring 3).isSome = true ∧ s.link.injq.length < 16
      ∧ ((run (.producerEnqueue .intake) s).link.injq.getLast?.map (·.write.addr)) = some (0x1000000 + 1024) := by
  decide
theorem test_producer_tap :
    let s := run (.defineWindow 2 3 4 512 0x2000000) State.reset
    let t := { s with tap := { s.tap with outbox := [.data 0 0 [(1, 2)]] } }
    t.tap.outbox = .data 0 0 [(1, 2)] :: [] ∧ t.link.injq.length < 16 ∧ t.tap.unbinding = false
      ∧ (run (.producerEnqueue .tap) t).tap.outbox = [] := by decide
theorem test_producer_mirror :
    let s := run (.defineWindow 1 4 0 0 0x3000000) State.reset
    let t := { s with mirror := { s.mirror with
      job := some { sect := .lanes, pieces := [(1024, [1]), (1088, [2])], periodic := true } } }
    t.mirrorBase = some 0x3000000 ∧ t.link.injq.length < 16
      ∧ ((run (.producerEnqueue .mirror) t).link.injq.getLast?.map (·.write.addr)) = some (0x3000000 + 1024) := by
  decide
theorem test_producer_full :
    let s := run (.defineWindow 1 4 0 0 0x3000000) State.reset
    let t := { s with link := fullQueue.link }
    16 ≤ t.link.injq.length ∧ t.tap.unbinding = false ∧ t.mirrorBase ≠ none ∧ t.mirror.job = none
      ∧ (run (.producerEnqueue .command) t).link = t.link := by decide

theorem test_producer_tap_hold :
    let s := offered 8
    s.tap.outbox = [] ∧ s.tap.hold ≠ [] ∧ s.tap.unbinding = false
      ∧ (run (.producerEnqueue .tap) s).tap.hold.length = 4
      ∧ ((run (.producerEnqueue .tap) s).tap.slot 0).view = .filling
      ∧ run (.producerEnqueue .tap) { s with link := fullQueue.link } = { s with link := fullQueue.link } := by decide

/-! ## The command ring -/

/-- Slot next holds SET_BASS 60, part-owned. -/
def handed : State := State.reset.handOver 0x32 0 [60]

theorem test_take_command :
    getAt handed.cmd.part handed.cmd.next = true ∧ (run (.takeCommand 0) handed).out.crossover = 60
      ∧ ret (.takeCommand 0) handed = [0, 0x32, 0, 0, 60, 0, 0, 0]
      ∧ getAt State.reset.cmd.part State.reset.cmd.next = false
      ∧ (run (.takeCommand 9) State.reset).pins.faults = 9 := by decide
theorem test_handed_ready : handed.UnitReady 0x32 := ⟨rfl, by decide, rfl, fun _ h => nomatch h⟩
theorem test_reset_ready (op : Nat) : State.reset.CommandReady op := ready_of _ _ rfl rfl rfl rfl rfl

/-- Six reports are pending, so no command is taken. -/
def sixPending : State :=
  { State.reset with rep := { State.reset.rep with queue := List.replicate 6 (rep .commandDone 0) } }

theorem test_ring_waits :
    ringOpcode .nop = some 0x00 ∧ ¬ sixPending.CommandReady 0x00 ∧ run .nop sixPending = sixPending :=
  ⟨rfl, fun h => absurd h.2.2.1 (by decide), by decide⟩
theorem test_five_pending :
    ({ State.reset with rep := { State.reset.rep with queue := List.replicate 5 (rep .commandDone 0) } } :
      State).CommandReady 0x00 :=
  ⟨rfl, rfl, by decide, rfl, fun _ h => nomatch h⟩
theorem test_ring_discarded :
    step { sixPending with pending := [.nop] } = .next sixPending ∧ ¬ handed.CommandReady 0x38
      ∧ exec (.clearFault 0 5) handed = .next { handed with pins := { handed.pins with faults := 5 } } :=
  ⟨rfl, fun h => absurd h.1 (by decide), rfl⟩
theorem test_refusal_room :
    State.reset.link.injq.length < 16 ∧ ret (.mute 2 1) State.reset = [0, 0x1A, 2, 4, 0, 0, 0, 0]
      ∧ (run (.mute 2 1) State.reset).cmd.next = 1 := by decide
theorem test_refusal_full :
    16 ≤ fullQueue.link.injq.length ∧ (run (.mute 2 1) fullQueue).cmd.next = 0
      ∧ (run (.mute 2 1) fullQueue).cmd.ret ≠ none := by decide
theorem test_full_ready : fullQueue.CommandReady 0x1A := ready_of _ _ rfl rfl rfl rfl rfl
theorem test_command_write :
    getAt State.reset.cmd.part 0 = false
      ∧ getAt (State.reset.observeCommand [(0, 1), (1, 5)] 0).cmd.part 0 = true
      ∧ memRead (State.reset.observeCommand [(0, 1), (1, 5)] 0).cmd.shadow 1 = 5
      ∧ getAt handed.cmd.part 0 = true ∧ handed.observeCommand [(1, 9)] 0 = handed := by decide
/-- A write of a run of bytes. -/
def hostWrite (a : Nat) (bs : List Byte) : LinkWrite := fullWrite a bs

theorem test_report_freed :
    let s := { State.reset with rep := { State.reset.rep with entryHost := setAt State.reset.rep.entryHost 127 true } }
    s.windowAt (4096 + 4064) = some 0 ∧ s.window 0 = .anchor 0 ∧ s.notifyLine = true
      ∧ (s.observeRequest (.write (hostWrite (4096 + 4064) [1]))).notifyLine = false
      ∧ s.observeRequest (.write (hostWrite (4096 + 4032) [1])) = s
      ∧ mirrored.windowAt 0x3000000 = some 1 ∧ mirrored.window 1 = .mirror 0x3000000 := by decide
theorem test_stream_capture :
    let s := streaming.observeRequest (.write (hostWrite 0x1000000 [0, 7, 0, 0, 2, 0, 0, 0]))
    let u := s.observeRequest (.write (hostWrite 0x1000010 [9]))
    let f := { streaming with rings := setAt streaming.rings 5 (some { Ring.fresh 2 with
      slots := List.replicate 32 { SlotRec.fresh with state := .filling, page := some [] } }) }
    streaming.windowAt 0x1000010 = some 3 ∧ ((streaming.ring 3).map (·.feeds)) = some (some .p0)
      ∧ ((s.ring 3).map fun r => (r.slot 0).state) = some .filling
      ∧ ((u.ring 3).map fun r => memRead ((r.slot 0).page.getD []) 16) = some 9
      ∧ streaming.pagesBound < 32 ∧ 32 ≤ f.pagesBound
      ∧ (((f.observeRequest (.write (hostWrite 0x1000010 [9]))).ring 3).map fun r => (r.slot 0).state)
          = some .missed := by decide
theorem test_stream_handover :
    let give (k : Nat) (s : State) : State := s.observeRequest (.write (hostWrite (0x1000000 + 512 * k) [1]))
    let with' (x : SlotRec) (s : State) : State := s.setRing 3 ((s.ring 3).map fun r => r.setSlot 0 x)
    let filling (m : Mem) : SlotRec := { SlotRec.fresh with state := .filling, page := some m }
    let unfed := streaming.setRing 3 (some (Ring.fresh 4))
    let outcome (s : State) : Option StreamStatus := (s.ring 3).map fun r => (r.slot 0).outcome
    let state (s : State) : Option SlotState := (s.ring 3).map fun r => (r.slot 0).state
    outcome (give 0 streaming) = some .emptySlot ∧ ((give 0 streaming).ring 3).map (·.unpackPos) = some 1
      ∧ ((give 2 streaming).ring 3).map (fun r => (r.slot 2).skip) = some true
      ∧ outcome (give 0 unfed) = some .flushed
      ∧ outcome (give 0 (with' { SlotRec.fresh with state := .missed } streaming)) = some .missed
      ∧ outcome (give 0 (with' (filling [(4, 9)]) unfed)) = some .flushed
      ∧ outcome (give 0 (with' (filling []) streaming)) = some .ok
      ∧ outcome (give 0 (with' (filling [(5, 2)]) streaming)) = some .badLength
      ∧ outcome (give 0 (with' (filling [(4, 9)]) streaming)) = some .badFrame
      ∧ state (give 0 (with' (filling (memWrite page 4 32)) streaming)) = some .sealed
      ∧ ((give 0 (fed sealedSlot)).ring 3).map (fun r => (r.slot 0).late) = some true
      ∧ (((give 0 streaming).issued (.stream 3 0)).ring 3).map (fun r => (r.slot 0).state) = some .empty := by decide
theorem test_other_zone :
    ringOpcode (.mute 2 1) = some 0x1A ∧ zoneRow (.mute 2 1) = some (2, [1]) ∧ Zone.ofCode (2 : Byte).toNat = none := by
  decide

/-! ## The commands of the memory path and the tap -/

theorem test_nop : ret .nop State.reset = [0, 0, 0, 0, 0, 0, 0, 0] := by decide
theorem test_unknown :
    (0x3A : Byte).toNat ∉ knownOpcodes ∧ ret (.unknownOpcode 0x3A 7) State.reset = [0, 0x3A, 7, 11, 0, 0, 0, 0] := by
  decide
theorem test_restart :
    (run .restart playing).zoneMain.power = .standby ∧ (run .restart playing).pathZero = PathRec.free := by decide
theorem test_restart_return :
    ret .restart playing = [0, 1, 0, 0, 0, 0, 0, 0] ∧ (run .restart fullQueue).cmd.ret ≠ none
      ∧ 16 ≤ (run .restart fullQueue).link.injq.length := by decide
theorem test_restart_aborts :
    let z := playing.zoneMain
    let op : OpRecord :=
      { kind := .scan, dir := .up, startBand := .fm, startFreq := 98100, tag := some 7, clamped := false, found := 2
        dropped := 1, tested := 9 }
    let s : State := { playing with
      zoneMain := { z with switch := .fadeOut, target := some 1, tag := some 5 }
      zoneTwo := { playing.zoneTwo with switch := .waitReady, tag := none }
      tuner := { listening.tuner with state := .scanning, band := .am, freq := 999, op := some op } }
    let t := run .restart s
    s.feeding .p0 = none ∧ s.feeding .p1 = none ∧ (t.link.injq.drop 3).map (·.origin) = [.report 0, .report 1, .command 3]
      ∧ (t.link.injq.drop 3).map (fun x => (x.write.data.drop 3).take 1) = [[5], [7], [0]]
      ∧ t.tuner.band = .fm ∧ t.tuner.freq = 98100 ∧ t.tuner.state = .idle ∧ t.tuner.op = none
      ∧ (run .restart { s with tuner := { s.tuner with op := some { op with kind := .tune } } }).tuner.freq = 999 := by
  decide +kernel
theorem test_restart_lanes :
    let s := playing.setLane 2 { playing.lane 2 with enable := true, state := .data, errors := 3, realign := some 5 }
    (s.lane 2).enable = true ∧ ((run .restart s).lane 2).state = .hunt ∧ ((run .restart s).lane 2).realign = none
      ∧ (s.lane 1).enable = false ∧ (run .restart s).group 0 = some GroupRec.forming ∧ (s.group 0).isSome = true := by
  decide +kernel
theorem test_playing_ready (op : Nat) : playing.CommandReady op := ready_of _ _ (by decide) (by decide) (by decide) (by decide) (by decide)
theorem test_define_window :
    State.reset.defineWindowResult 1 2 0x1000000 512 4 = .ok
      ∧ ret (.defineWindow 1 2 4 512 0x1000000) State.reset = [0, 2, 1, 0, 0, 8, 0, 0]
      ∧ State.reset.defineWindowResult 0 2 0x1000000 512 4 = .badArg
      ∧ State.reset.defineWindowResult 1 2 0 512 4 = .overlap := by decide
theorem test_define_window_in_use :
    streaming.defineWindowResult 3 2 0x4000000 512 4 = .inUse
      ∧ (run (.defineWindow 1 4 0 0 0x3000000) State.reset).defineWindowResult 2 4 0x4000000 0 0 = .badArg := by decide
theorem test_release_window :
    streaming.windowInUse 3 = true ∧ ret (.releaseWindow 3) streaming = [0, 3, 3, 6, 0, 0, 0, 0]
      ∧ ret (.releaseWindow 0) streaming = [0, 3, 0, 4, 0, 0, 0, 0]
      ∧ ret (.releaseWindow 16) streaming = [0, 3, 16, 4, 0, 0, 0, 0]
      ∧ streaming.windowInUse 15 = false ∧ ret (.releaseWindow 15) streaming = [0, 3, 15, 0, 0, 0, 0, 0] := by decide
theorem test_window_in_use :
    tapped.windowInUse 2 = false ∧ (run (.bindTap 2 0) tapped).windowInUse 2 = true ∧ tapped.windowInUse 0 = false
      ∧ streaming.windowInUse 3 = true ∧ (pathA (fun p => { p with binding := none }) streaming).windowInUse 3 = false
      ∧ (pathA (fun p => { p with binding := some 0 }) streaming).windowInUse 3 = false
      ∧ mirrored.windowInUse 1 = false := by decide

theorem test_start_window :
    let n := pathA (fun p => { p with binding := some 1 }) table
    n.bindFirst = .p0 ∧ (n.source 1).kind = .stream ∧ (n.source 1).window = some 3
      ∧ ((n.startWindow 3 (.stream 0x1000000 512 4)).ring 3).map (·.feeds) = some (some .p0)
      ∧ ((n.startWindow 3 (.stream 0x1000000 512 4)).ring 3).map (·.idle) = some false
      ∧ ((table.startWindow 3 (.stream 0x1000000 512 4)).ring 3).map (·.feeds) = some none
      ∧ ((({ n with bindFirst := .p1 } : State).startWindow 3 (.stream 0x1000000 512 4)).ring 3).map (·.feeds)
          = some (some .p0) := by decide
/-- A handover of the meters has begun and its section is being placed. -/
def metering : State :=
  { mirrored with
    mirror := { mirrored.mirror with job := some { sect := .meters, pieces := [(0, [1])], periodic := true } }
    out := { mirrored.out with sent := some (Vector.replicate 12 { peak := 5, clip := true, blocks := 2 }) } }
theorem test_snapshot :
    State.reset.mirrorBase = none ∧ mirrored.mirrorBase ≠ none ∧ SnapSection.ofCode (6 : Byte).toNat = none
      ∧ SnapSection.ofCode (3 : Byte).toNat = some .lanes
      ∧ getAt (run (.snapshot 3) mirrored).mirror.counts (sectionIndex .lanes) = 1
      ∧ ret (.snapshot 6) mirrored = [0, 4, 6, 4, 0, 0, 0, 0] := by decide
theorem test_mirror_moves :
    let two := { metering with mirror := { metering.mirror with
      job := some { sect := .meters, pieces := [(0, [1]), (64, [2])], periodic := true } } }
    metering.mirrorBase = some 0x3000000 ∧ metering.mirrorMove.out.sent = none
      ∧ metering.mirrorMove.mirror.job = none ∧ two.mirrorMove.mirror.job ≠ none
      ∧ ({ metering with link := fullQueue.link }).mirrorMove.mirror.job = metering.mirror.job
      ∧ cutPieces 2 256 (List.replicate 65 7) = [(256, List.replicate 64 7), (320, [7])] := by decide
theorem test_mirror_sections :
    ((run (.snapshot 3) mirrored).link.injq.map fun x => (x.write.addr, x.write.data.length))
        = [(0, 8), (0x3000400, 64), (0x3000440, 64), (0x3000480, 64), (0x30004C0, 64), (64, 8)] := by decide
theorem test_mirror_records :
    (sectionBytes .meters 0x102 [7]).take 9 = [2, 1, 0, 0, 0, 0, 0, 0, 7] ∧ (sectionBytes .meters 0x102 [7]).length = 256
      ∧ ([7] : List Byte).length ≤ sectionLength .meters - 16
      ∧ (listening.sectionBody .stations).take 4 = [0, 1, 0, 0] ∧ (playing.path .p0).format ≠ none
      ∧ (playing.pathRecord .p0).take 10 = [0, 1, 2, 1, 2, 2, 0, 0, 1, 2]
      ∧ (table.sourceRecord 0) = [1, 0xFF, 0xFF, 0, 0, 0, 0, 0, 0, 0, 0, 0, 2, 3, 0xFF, 0xFF]
      ∧ presetRecord (some { band := .fm, freq := 88000, label := some [65] })
          = [1, 0, 1, 0, 0xC0, 0x57, 1, 0, 65, 0, 0, 0, 0, 0, 0, 0] := by decide
theorem test_mirrored_ready (op : Nat) : mirrored.CommandReady op := ready_of _ _ (by decide) (by decide) (by decide) (by decide) (by decide)
theorem test_set_meters : (run (.setMeters 2) State.reset).mirror.metersOn = true := by decide

theorem test_discard_window :
    let s := fed sealedSlot
    s.pagesBound = 1 ∧ (s.ring 3).isSome = true ∧ (s.discardWindow 3).pagesBound = 0
      ∧ (tapped.discardWindow 2).tap.slots = [] ∧ State.reset.discardWindow 1 = State.reset
      ∧ mirrored.window 1 = .mirror 0x3000000 ∧ mirrored.mirror.job = none
      ∧ ((metering.discardWindow 1).chan 11).heldBlocks = 2 ∧ (metering.discardWindow 1).out.sent = none := by decide

theorem test_bind_tap :
    tapped.window 2 = .tap 0x2000000 512 4 ∧ TapPoint.ofCode (0 : Byte).toNat ≠ none ∧ tapped.tap.binding = none
      ∧ ret (.bindTap 2 0) tapped = [0, 8, 2, 0, 60, 0, 0, 0]
      ∧ (run (.bindTap 2 0) tapped).tap.binding ≠ none
      ∧ ret (.bindTap 2 0) (run (.bindTap 2 0) tapped) = [0, 8, 2, 6, 0, 0, 0, 0]
      ∧ ret (.bindTap 3 0) tapped = [0, 8, 3, 4, 0, 0, 0, 0] := by decide
theorem test_unbind_tap :
    ret .unbindTap tapped = [0, 9, 0, 0, 0, 0, 0, 0]
      ∧ (run .unbindTap (run (.bindTap 2 0) tapped)).tap.binding = none := by decide
theorem test_unbind :
    let s := offered 8
    let f := { s with tap := s.tap.setSlot 0 { view := .filling, late := false, count := 58 } }
    let t := { f with tap := f.tap.setSlot 2 { view := .offered, late := false, count := 0 } }
    let full := { t with link := fullQueue.link }
    t.tapWindow = some (2, 0x2000000, 512, 4) ∧ t.tap.slots.length = 4 ∧ t.tap.fillPos = 0
      ∧ full.unbind.tap.outbox
          = [.data 0 58 [(1, 2), (1, 2)], .close 0 60 .ok false, .close 2 0 .flushed false]
      ∧ full.unbind.tap.unbinding = true ∧ t.unbind.tap.outbox = [] ∧ t.unbind.tap.unbinding = false
      ∧ (t.unbind.tap.slot 0).view = .closing ∧ (t.unbind.tap.slot 1).view = .hostOwned
      ∧ full.unbind.tap.hold = [] := by decide
theorem test_unbind_return :
    let c : TapItem := .close 0 0 .flushed false
    let s := { tapped with
      tap := { tapped.tap with outbox := [c], unbinding := true }
      cmd := { tapped.cmd with ret := some { slot := 1, bytes := [0, 9, 0, 0, 0, 0, 0, 0] } } }
    let m := { s with tap := { s.tap with outbox := [c, c] } }
    s.link.injq.length < 16 ∧ (run (.producerEnqueue .tap) s).cmd.ret = none
      ∧ (run (.producerEnqueue .tap) s).tap.unbinding = false
      ∧ (run (.producerEnqueue .tap) m).cmd.ret ≠ none ∧ (run (.producerEnqueue .tap) m).tap.unbinding = true := by decide
theorem test_offer_ends_unbinding :
    let c : TapItem := .close 0 0 .flushed false
    let s := { tapped with
      tap := { tapped.tap with outbox := [c], unbinding := true }
      cmd := { tapped.cmd with ret := some { slot := 1, bytes := [0, 9, 0, 0, 0, 0, 0, 0] } } }
    let offer : LinkWrite := fullWrite 0x2000200 [1, 0, 0, 0, 0, 0, 0, 0]
    let t := s.observeTap 2 offer
    s.tap.binding = none ∧ (s.tap.slot 1).view = .hostOwned ∧ (t.tap.slot 1).view = .closing
      ∧ t.tap.outbox = [] ∧ t.tap.unbinding = false ∧ t.cmd.ret ≠ none
      ∧ (run (.producerEnqueue .command) s).cmd.ret ≠ none ∧ (run (.producerEnqueue .command) t).cmd.ret = none
      ∧ ({ s with link := fullQueue.link }.observeTap 2 offer).tap.unbinding = true := by decide
theorem test_tap_block :
    let s := offered 0
    let f : List (Sample × Sample) := List.replicate 48 (1, 2)
    s.tap.binding ≠ none ∧ (s.tap.slot 0).view = .offered ∧ ((s.tapBlock f).tap.slot 0).count = 48
      ∧ (s.tapBlock f).tap.hold = [] ∧ ((offered 1).tapBlock f).tap.closePending = true
      ∧ tapped.tap.binding = none
      ∧ ((run (.bindTap 2 0) tapped).tapBlock f).tap.gapPending = true := by decide
theorem test_tap_fills :
    let s := offered 48
    let c := { s with tap := { s.tap.setSlot 0 { view := .filling, late := false, count := 50 } with closePending := true } }
    let o := { c with tap := c.tap.setSlot 1 { view := .offered, late := false, count := 0 } }
    s.tapWindow = some (2, 0x2000000, 512, 4) ∧ (s.tapMove.1.tap.slot 0).count = 4
      ∧ (c.tap.tookFrames 60 10).hold = [] ∧ (c.tap.tookFrames 60 10).closePending = false
      ∧ (o.tap.tookFrames 60 10).hold.length = 38
      ∧ ((offered 8).tap.tookFrames 60 8).hold = []
      ∧ (s.tap.tookFrames 60 4).hold.length = 44
      ∧ ((offered 10).tap.tookFrames 10 10).outbox = [.close 0 10 .ok false]
      ∧ ({ s with link := fullQueue.link }).tapMove.2 = false
      ∧ ({ s with tap := s.tap.setSlot 0 TapSlot.fresh }).tapMove.1.tap.gapPending = true
      ∧ ((run (.bindTap 2 0) tapped).tap.slot 0).view = .hostOwned := by decide
theorem test_tap_close :
    let s := { (offered 0) with tap := { (offered 0).tap with outbox := [.close 0 60 .ok false], gapPending := true } }
    (s.tapMove.1.link.injq.getLast?.map fun i => i.write.data.take 8) = some [0, 0, 2, 0, 0xF0, 1, 60, 0]
      ∧ (s.tapMove.1.link.injq.getLast?.map fun i => i.write.data.drop 16)
          = some [0xC7, 0x5A, 2, 2, 60, 0, 1, 2, 0, 0, 0, 0, 0, 0, 0, 0x64] := by decide
theorem test_tap_offer :
    let s := run (.bindTap 2 0) tapped
    let give (s : State) : State := s.observeRequest (.write (hostWrite 0x2000200 [1]))
    s.windowAt 0x2000200 = some 2 ∧ ((give s).tap.slot 1).view = .offered
      ∧ ((give (give s)).tap.slot 1).late = true ∧ ((give tapped).tap.slot 1).view = .closing
      ∧ s.observeRequest (.write (hostWrite 0x2000208 [1])) = s
      ∧ (((give tapped).issued (.tapClose 1)).tap.slot 1).view = .hostOwned := by decide
theorem test_tapped_ready (op : Nat) :
    tapped.CommandReady op ∧ (run (.bindTap 2 0) tapped).CommandReady op :=
  ⟨ready_of _ _ (by decide) (by decide) (by decide) (by decide) (by decide), ready_of _ _ (by decide) (by decide) (by decide) (by decide) (by decide)⟩

/-! ## Lanes and sources -/

theorem test_set_lane :
    ret (.setLane 4 1 16 1) State.reset = [0, 0x10, 4, 4, 0, 0, 0, 0]
      ∧ ret (.setLane 3 1 0 1) State.reset = [0, 0x10, 3, 1, 1, 0, 0, 0]
      ∧ ((run (.setLane 3 1 16 1) State.reset).lane 3).state = .hunt := by decide
theorem test_enable_lane :
    let s := run (.setLane 3 1 16 1) State.reset
    (State.reset.lane 3).enable = false ∧ (s.lane 3).enable = true ∧ (s.lane 3).state = .hunt
      ∧ ((run (.setLane 3 0 16 1) s).lane 3).state = .disabled := by decide
theorem test_define_source :
    (table.source 0).lanes = [2, 3] ∧ (table.source 1).window = some 3
      ∧ ret (.defineSource 3 { groupArgs with lanes := [0, 1, 0, 0], fillT := 10 }) table
          = [0, 0x11, 3, 1, 96, 0, 0, 0]
      ∧ ret (.defineSource 12 groupArgs) table = [0, 0x11, 12, 4, 0, 0, 0, 0]
      ∧ ret (.defineSource 3 { groupArgs with kind := 4 }) table = [0, 0x11, 3, 4, 0, 0, 0, 0] := by decide
theorem test_define_source_taken :
    table.laneTaken 3 [2, 3] = true ∧ ret (.defineSource 3 groupArgs) table = [0, 0x11, 3, 6, 0, 0, 0, 0]
      ∧ table.otherTuner 3 = true ∧ ret (.defineSource 3 tunerArgs) table = [0, 0x11, 3, 6, 0, 0, 0, 0]
      ∧ playing.boundPath 0 ≠ none ∧ ret (.defineSource 0 groupArgs) playing = [0, 0x11, 0, 6, 0, 0, 0, 0]
      ∧ decodeLabel { len := 9, chars := [] } = none := by decide
theorem test_source_checks :
    table.laneTaken 0 [2, 3] = false ∧ table.laneTaken 3 [0, 1] = false ∧ table.laneTaken 3 [0, 3] = true
      ∧ table.otherTuner 2 = false ∧ table.otherTuner 0 = true ∧ State.reset.otherTuner 0 = false := by decide
theorem test_source_parts :
    sourceParts .laneGroup groupArgs = some ([2, 3], none) ∧ sourceParts .stream streamArgs = some ([], some 3)
      ∧ sourceParts .tuner tunerArgs = some ([], none)
      ∧ sourceParts .laneGroup { groupArgs with laneCount := 0 } = none
      ∧ sourceParts .laneGroup { groupArgs with laneCount := 5 } = none
      ∧ sourceParts .laneGroup { groupArgs with lanes := [2, 4, 0, 0] } = none
      ∧ sourceParts .laneGroup { groupArgs with lanes := [2, 2, 0, 0] } = none
      ∧ sourceParts .stream { streamArgs with window := 0 } = none
      ∧ sourceParts .stream { streamArgs with window := 16 } = none
      ∧ sourceParts .stream { streamArgs with window := 15 } = some ([], some 15)
      ∧ sourceParts .laneGroup { groupArgs with laneCount := 4, lanes := [3, 2, 1, 0] }
          = some ([3, 2, 1, 0], none) := by decide
theorem test_clear_source :
    (run (.clearSource 0) table).source 0 = SourceEntry.powerOn
      ∧ ret (.clearSource 0) playing = [0, 0x12, 0, 6, 0, 0, 0, 0]
      ∧ ret (.clearSource 12) table = [0, 0x12, 12, 4, 0, 0, 0, 0] := by decide
theorem test_clear_source_selection :
    let s := mainZone (fun z => { z with selection := some 0 })
      { table with zoneTwo := { table.zoneTwo with selection := some 1 } }
    s.zoneMain.power = .standby ∧ ret (.clearSource 0) s = [0, 0x12, 0, 0, 0, 0, 0, 0]
      ∧ (run (.clearSource 0) s).zoneMain.selection = none ∧ (run (.clearSource 0) s).zoneTwo.selection = some 1 := by
  decide

/-! ## Zones -/

/-- The main zone is on with nothing selected, and with a ramp that is not silent. -/
def idleOn : State := mainZone (fun z => { z with power := .on, ramp := 0 }) table

theorem test_select_standby :
    table.zoneMain.power ≠ .on ∧ (table.source 0).kind ≠ .none
      ∧ (run (.selectSource 0 0) table).zoneMain.selection = some 0
      ∧ ret (.selectSource 0 12) table = [0, 0x18, 0, 4, 0, 0, 0, 0]
      ∧ (table.source 3).kind = .none ∧ ret (.selectSource 0 3) table = [0, 0x18, 0, 4, 0, 0, 0, 0] := by decide
theorem test_select_on :
    idleOn.zoneMain.switch = .idle ∧ idleOn.zoneMain.ramp ≠ -240
      ∧ (run (.selectSource 0 0) idleOn).zoneMain.switch = .fadeOut
      ∧ (run (.selectSource 0 0) idleOn).zoneMain.tag = some 3
      ∧ ret (.selectSource 0 0) idleOn = [0, 0x18, 0, 2, 0, 0, 0, 0]
      ∧ ret (.selectSource 0 0) playing = [0, 0x18, 0, 0, 0, 0, 0, 0] := by decide
theorem test_select_silent :
    let s := mainZone (fun z => { z with power := .on }) table
    s.zoneMain.ramp = -240 ∧ (run (.selectSource 0 0) s).zoneMain.switch = .waitReady
      ∧ (run (.selectSource 0 0) s).pathZero.binding = some 0
      ∧ (run (.selectSource 0 0) s).pathZero.tracker.state = .prefill := by decide
theorem test_select_again :
    let s := run (.selectSource 0 0) idleOn
    let t := mainZone (fun z => { z with switch := .waitReady }) s
    s.zoneMain.target = some 0 ∧ s.zoneMain.switch = .fadeOut
      ∧ (run (.selectSource 0 0) s).zoneMain.tag = some 4 ∧ (run (.selectSource 0 1) s).zoneMain.target = some 1
      ∧ t.zoneMain.switch = .waitReady ∧ t.zoneMain.target ≠ some 1 ∧ t.zoneMain.ramp ≠ -240
      ∧ (run (.selectSource 0 1) t).zoneMain.switch = .fadeOut := by decide
theorem test_select_again_silent :
    let t := mainZone (fun z => { z with switch := .fadeIn, target := some 0, ramp := -240 }) idleOn
    t.zoneMain.target ≠ some 1 ∧ (run (.selectSource 0 1) t).zoneMain.switch = .waitReady := by decide
theorem test_power_on :
    (run (.zonePowerOn 0) table).zoneMain.power = .on
      ∧ (run (.zonePowerOn 0) (mainZone (fun z => { z with selection := some 0 }) table)).zoneMain.switch = .waitReady
      ∧ run (.zonePowerOn 0) playing = playing.answered 0x19 0 [1] .ok 0 id := by decide
theorem test_power_on_again :
    let s := mainZone (fun z => { z with power := .goingStandby }) playing
    s.zoneMain.selection = some 0 ∧ s.zoneMain.attached = some .p0 ∧ s.boundPath 0 = some .p0
      ∧ (run (.zonePowerOn 0) s).zoneMain.switch = .idle
      ∧ (mainZone (fun z => { z with attached := none }) s).zoneMain.attached = none := by decide
theorem test_power_off :
    (run (.zonePowerStandby 0) playing).zoneMain.power = .goingStandby
      ∧ (run (.zonePowerStandby 0) (mainZone (fun z => { z with ramp := -240 }) playing)).zoneMain.power = .standby
      ∧ ret (.zonePowerStandby 0) table = [0, 0x19, 0, 0, 0, 0, 0, 0] := by decide
theorem test_mute :
    (run (.mute 0 1) playing).zoneMain.mute = true ∧ playing.zoneMain.mute ≠ true := by decide
theorem test_set_volume :
    ret (.setVolume 0 30) table = [0, 0x1B, 0, 1, 24, 0, 0, 0]
      ∧ ret (.setVolume 1 (BitVec.ofInt 16 (-192))) table = [0, 0x1B, 1, 0, 0, 0, 0, 0]
      ∧ (run (.setVolume 1 (BitVec.ofInt 16 (-192))) table).zoneTwo.masterTarget = -192 := by decide
theorem test_set_zone :
    (run (.setZone 0 5 9600 3) table).zoneMain.rampRate = 4 ∧ (run (.setZone 0 5 9600 3) table).zoneMain.avDelay = 9600
      ∧ ret (.setZone 0 8 9601 1) table = [0, 0x1C, 0, 1, 0x80, 0x25, 0, 0] := by decide
theorem test_set_zone_pool :
    let big : ChanSettings := { role := .fl, delay := 122880, polarity := .normal, size := .large }
    let s := table.setChan 0 { table.chan 0 with applied := big }
    (s.setZone .main { s.zone .main with avDelay := 9600 }).poolFits = false
      ∧ ret (.setZone 0 8 9600 1) s = [0, 0x1C, 0, 8, 0, 0, 0, 0] := by decide
theorem test_set_sleep :
    ret (.setSleep 0 1) table = [0, 0x1D, 0, 3, 0, 0, 0, 0] ∧ ret (.setSleep 0 121) playing = [0, 0x1D, 0, 1, 120, 0, 0, 0]
      ∧ (run (.setSleep 0 120) playing).zoneMain.minute = 60000 := by decide
theorem test_retrack :
    playing.pathZero.tracker.state = .acquire ∧ playing.pathZero.tracker.ratchet = false
      ∧ ret (.retrack 0) playing = [0, 0x1E, 0, 0, 1, 0, 0, 0] ∧ (run (.retrack 0) playing).pathZero.tracker.timer = 256
      ∧ ret (.retrack 0) table = [0, 0x1E, 0, 0, 0, 0, 0, 0] := by decide
theorem test_retrack_crossed :
    let s := pathA (fun p => { p with tracker := { p.tracker with ratchet := true } }) playing
    let t := pathA (fun p => { p with tracker := { p.tracker with state := .track } }) playing
    (run (.retrack 0) s).pathZero.tracker.gain = 3 ∧ (run (.retrack 0) t).pathZero.tracker.state = .acquire
      ∧ (run (.retrack 0) t).pathZero.tracker.ratchet = true := by decide
theorem test_set_decode :
    ret (.setDecode 1 1) playing = [0, 0x1F, 1, 4, 0, 0, 0, 0] ∧ ret (.setDecode 0 3) playing = [0, 0x1F, 0, 4, 0, 0, 0, 0]
      ∧ ret (.setDecode 0 1) playing = [0, 0x1F, 0, 0, 1, 0, 0, 0]
      ∧ DecodeMode.ofCode (1 : Byte).toNat = some .matrixCinema := by decide

/-! ## The radio -/

theorem test_listening_ready (op : Nat) : listening.CommandReady op := ready_of _ _ rfl rfl rfl rfl rfl
theorem test_not_owner :
    Zone.ofCode (1 : Byte).toNat = some .zone2 ∧ listening.owner ≠ some .zone2
      ∧ ret (.tune 1 0 98100) listening = [0, 0x20, 1, 5, 0, 0, 0, 0]
      ∧ ret (.recallPreset 1 0) listening = [0, 0x2B, 1, 5, 0, 0, 0, 0] := by decide
theorem test_tune :
    Zone.ofCode (0 : Byte).toNat = some .main ∧ listening.owner = some .main
      ∧ (run (.tune 0 0 98149) listening).tuner.freq = 98100 ∧ (run (.tune 0 0 98149) listening).tuner.state = .tuning
      ∧ ret (.tune 0 2 98100) listening = [0, 0x20, 0, 4, 0, 0, 0, 0] := by decide
theorem test_tune_sends :
    let open1 : Transaction := { request := .setTune .fm 98100, timer := 1, retried := false }
    let t := listening.tuner
    t.openTx = none ∧ t.identified = true ∧ (t.startAt .tuning .fm 88000).ctlSent = some (.setTune .fm 88000)
      ∧ ({ t with openTx := some open1 }.startAt .tuning .fm 88000).waiting = some (.fm, 88000)
      ∧ ({ t with openTx := some open1 }.startAt .tuning .fm 88000).openTx = some open1
      ∧ ({ t with identified := false }.startAt .tuning .fm 88000).ctlSent = some .identify
      ∧ ({ t with identified := false }.startAt .tuning .fm 88000).waiting = some (.fm, 88000) := by decide
theorem test_tune_replaces :
    let s := run (.scan 0 0) listening
    let n := radio (fun t => { t with op := t.op.map fun o => { o with tag := none } }) s
    let done : List Byte :=
      [12, 5, 0, 0] ++ leBytes 4 87500 ++ [60] ++ leBytes 2 0 ++ leBytes 2 0 ++ [0] ++ leBytes 4 98100
    s.tuner.op ≠ none ∧ (s.abortOp false).tuner.op = none
      ∧ s.abortOp false = { s with tuner := { s.tuner with op := none } }.post
          { kind := .commandDone, unit := 0, tag := some 0, stamp := 0, payload := done }
      ∧ (n.tuner.op.map (·.tag)) = some none ∧ (n.abortOp false).rep = n.rep ∧ listening.tuner.op = none := by decide
theorem test_step_radio :
    (run (.step 0 0) listening).tuner.freq = 98200 ∧ (run (.step 0 1) listening).tuner.freq = 98000
      ∧ ret (.step 0 2) listening = [0, 0x21, 0, 4, 0, 0, 0, 0] := by decide
theorem test_recall :
    ret (.recallPreset 0 40) listening = [0, 0x2B, 0, 4, 0, 0, 0, 0]
      ∧ ret (.recallPreset 0 39) listening = [0, 0x2B, 0, 10, 0, 0, 0, 0]
      ∧ getAt (run (.setPreset 39 0 88000 labelA) listening).presets 39
          = some { band := .fm, freq := 88000, label := some [65] }
      ∧ (runs [.setPreset 39 0 88000 labelA, .recallPreset 0 39] listening).tuner.freq = 88000 := by decide
theorem test_seek :
    listening.searching = false ∧ (run (.seek 0 0) listening).tuner.state = .seeking
      ∧ (run (.seek 0 0) listening).tuner.freq = 98200 ∧ (run (.seek 0 0) listening).searching = true
      ∧ ret (.seek 0 1) (run (.seek 0 0) listening) = [0, 0x22, 0, 3, 0, 0, 0, 0]
      ∧ ret (.seek 0 2) listening = [0, 0x22, 0, 4, 0, 0, 0, 0] := by decide
theorem test_scan :
    (run (.scan 0 1) listening).tuner.state = .scanning ∧ (run (.scan 0 1) listening).tuner.freq = 522
      ∧ ret (.scan 0 2) listening = [0, 0x23, 0, 4, 0, 0, 0, 0] := by decide
theorem test_searching :
    let at_ (st : TunerState) (k : Operation) : State := radio (fun t => { t with
      state := st, op := (run (.seek 0 0) listening).tuner.op.map fun o => { o with kind := k } }) listening
    (at_ .tuning .seek).searching = true ∧ (at_ .tuning .scan).searching = true ∧ (at_ .tuning .tune).searching = false
      ∧ (at_ .tuning .recall).searching = false ∧ (at_ .tuned .seek).searching = false
      ∧ (at_ .seeking .seek).searching = true ∧ (at_ .scanning .scan).searching = true := by decide
theorem test_abort_idle :
    State.reset.tuner.state = .idle ∧ ret .abortRadio listening = [0, 0x24, 0, 0, 0, 0, 0, 0]
      ∧ (run .abortRadio (radio (fun t => { t with state := .tuning, op := none }) listening)).tuner.state = .tuning := by
  decide
theorem test_abort_search :
    let s := run (.seek 0 0) listening
    let d := radio (fun t => { t with phase := .dwell }) s
    s.tuner.phase ≠ .dwell ∧ s.tuner.phase ≠ .advance ∧ (run .abortRadio s).tuner.state = .tuning
      ∧ d.tuner.phase = .dwell ∧ (run .abortRadio d).tuner.state = .tuned
      ∧ (run (.scan 0 0) listening).tuner.op ≠ none
      ∧ (run .abortRadio (run (.scan 0 0) listening)).tuner.freq = 98100 := by decide

/-- The settings of R131 at power-on, as SET_REGION carries them. -/
def region : RegionArgs :=
  { fmStep := 100, amGrid := 9, fmLevel := 30, amLevel := 40, fmOffset := 10, amOffset := 2, errK := 3
    ampLow := 20000, ampHigh := 5000000, blendLo := 20, blendHi := 40, forcedMono := 0 }

theorem test_set_region :
    ret (.setRegion region) listening = [0, 0x25, 0, 0, 0, 0, 0, 0]
      ∧ ret (.setRegion { region with fmStep := 10 }) listening = [0, 0x25, 0, 4, 0, 0, 0, 0]
      ∧ ret (.setRegion { region with blendLo := 40 }) listening = [0, 0x25, 0, 4, 0, 0, 0, 0]
      ∧ ret (.setRegion { region with errK := 9 }) listening = [0, 0x25, 0, 1, 8, 0, 0, 0] := by decide
theorem test_region_moves :
    let q : Region := { listening.region with fmStep := 200 }
    let s := radio (fun t => { t with freq := 98200 }) listening
    let i := radio (fun t => { t with state := .feFault }) s
    (s.takeRegion q).tuner.freq = 98100 ∧ (s.takeRegion q).tuner.state = .tuning
      ∧ (i.takeRegion q).tuner.freq = 98100 ∧ (i.takeRegion q).tuner.state = .feFault
      ∧ (listening.takeRegion { q with fmStep := 100 }).tuner.freq = 98100
      ∧ (listening.takeRegion { q with fmStep := 100 }).tuner.state = .tuned := by decide
theorem test_set_region_busy :
    let s := radio (fun t => { t with state := .tuning }) listening
    ret (.setRegion { region with fmStep := 200 }) s = [0, 0x25, 0, 3, 0, 0, 0, 0]
      ∧ ret (.setRegion { region with blendLo := 126, blendHi := 127 }) s = [0, 0x25, 0, 0, 0, 0, 0, 0]
      ∧ ret (.setRegion { region with blendLo := 200, blendHi := 220, fmLevel := 200 }) s
          = [0, 0x25, 0, 1, 127, 0, 0, 0]
      ∧ ret (.setRegion { region with ampLow := 6291456, ampHigh := 6291457, blendLo := 0, blendHi := 1 }) s
          = [0, 0x25, 0, 1, 0xFF, 0xFF, 0x5F, 0] := by decide

/-- A station at 98.1 MHz and one of the AM band. -/
def fmStation : Station := { band := .fm, freq := 98100, level := 50, stereo := true, label := none }
def amStation : Station := { band := .am, freq := 531, level := 50, stereo := false, label := none }
def stationed : State := { listening with stations := [fmStation, amStation] }

theorem test_clear_stations :
    (run (.clearStations 0) stationed).stations = [amStation] ∧ (run (.clearStations 1) stationed).stations = [fmStation]
      ∧ ret (.clearStations 2) stationed = [0, 0x26, 0, 0, 2, 0, 0, 0]
      ∧ ret (.clearStations 3) stationed = [0, 0x26, 0, 4, 0, 0, 0, 0] := by decide
theorem test_store_preset :
    decodeLabel labelA = some (some [65]) ∧ decodeLabel noLabel = some none
      ∧ getAt (run (.storePreset 0 labelA) listening).presets 0
          = some { band := .fm, freq := 98100, label := some [65] }
      ∧ getAt (runs [.storePreset 0 labelA, .storePreset 0 noLabel] listening).presets 0
          = some { band := .fm, freq := 98100, label := some [65] }
      ∧ ret (.storePreset 40 labelA) listening = [0, 0x28, 40, 4, 0, 0, 0, 0]
      ∧ ret (.storePreset 0 labelA) (run (.seek 0 0) listening) = [0, 0x28, 0, 3, 0, 0, 0, 0] := by decide
theorem test_store_preset_moved :
    let s := run (.storePreset 0 labelA) listening
    let t := radio (fun t => { t with freq := 98200 }) s
    getAt (run (.storePreset 0 noLabel) t).presets 0 = some { band := .fm, freq := 98200, label := none } := by decide
theorem test_set_preset :
    ret (.setPreset 39 0 108000 labelA) listening = [0, 0x29, 39, 0, 0, 0, 0, 0]
      ∧ ret (.setPreset 39 0 108001 labelA) listening = [0, 0x29, 39, 4, 0, 0, 0, 0]
      ∧ ret (.setPreset 40 0 108000 labelA) listening = [0, 0x29, 40, 4, 0, 0, 0, 0] := by decide
theorem test_clear_preset :
    ret (.clearPreset 39) listening = [0, 0x2A, 39, 0, 0, 0, 0, 0]
      ∧ ret (.clearPreset 40) listening = [0, 0x2A, 40, 4, 0, 0, 0, 0] := by decide
theorem test_resolve :
    Region.powerOn.resolve .fm 98150 = 98100 ∧ Region.powerOn.resolve .fm 98151 = 98200
      ∧ Region.powerOn.resolve .fm 1 = 87500 ∧ Region.powerOn.resolve .am 9999 = 1710
      ∧ Region.powerOn.clamps .fm 87500 = false ∧ Region.powerOn.clamps .fm 87499 = true := by decide
theorem test_grids :
    let r (f a : Nat) : Region := { Region.powerOn with fmStep := f, amGrid := a }
    ((r 50 9).top .fm, (r 100 9).top .fm, (r 200 9).top .fm) = (108000, 108000, 107900)
      ∧ ((r 100 9).low .am, (r 100 9).top .am, (r 100 10).low .am, (r 100 10).top .am) = (522, 1710, 520, 1710)
      ∧ (r 200 9).adjacent .fm 107900 .up = 87500 ∧ (r 200 9).adjacent .fm 87500 .down = 107900
      ∧ (r 100 10).adjacent .am 520 .down = 1710 ∧ (r 100 9).adjacent .am 1701 .up = 1710 := by decide
theorem test_station_order :
    let x : Station := { fmStation with freq := 98100 }
    x.before { x with freq := 98200 } = true ∧ x.before x = false ∧ x.before { x with band := .am, freq := 531 } = true
      ∧ ({ x with band := .am, freq := 531 } : Station).before x = false
      ∧ x.same { x with level := 9 } = true ∧ x.same { x with band := .am } = false
      ∧ x.adjacentTo 100 { x with freq := 98200 } = true ∧ x.adjacentTo 100 { x with freq := 98000 } = true
      ∧ x.adjacentTo 100 { x with freq := 98300 } = false ∧ x.adjacentTo 100 x = false := by decide
theorem test_insert_candidate :
    insertCandidate 100 { fmStation with level := 49 } [fmStation] = ([fmStation], false)
      ∧ insertCandidate 100 { fmStation with freq := 98200 } [fmStation] = ([fmStation], false)
      ∧ (insertCandidate 100 { fmStation with freq := 98300 } [fmStation]).1.length = 2
      ∧ (insertCandidate 100 { fmStation with level := 51 } [fmStation]).1 = [{ fmStation with level := 51 }]
      ∧ insertCandidate 100 { fmStation with freq := 98200, level := 51 } [fmStation]
          = ([{ fmStation with freq := 98200, level := 51 }], false) := by decide

/-- A full list: 64 FM stations two steps apart, the second the weakest; and 64 AM stations. -/
def fullList : List Station :=
  (List.range 64).map fun k => { fmStation with freq := 88000 + 200 * k, level := if k = 1 then 40 else 50 }
def fullAm : List Station := (List.range 64).map fun k => { amStation with freq := 522 + 18 * k }

theorem test_insert_ordered :
    (fullList.Pairwise fun y z => y.before z = true) ∧ (∀ y ∈ fullList, ∀ z ∈ fullList, y.adjacentTo 100 z = false)
      ∧ fullList.length = 64 := by decide
theorem test_insert_full :
    let x : Station := { fmStation with freq := 87500, level := 40 }
    let w : Station := { fmStation with freq := 88200, level := 40 }
    (∀ y ∈ fullList, x.same y = false ∧ x.adjacentTo 100 y = false) ∧ w ∈ fullList
      ∧ (∀ y ∈ fullList, y.band = x.band → w.level < y.level ∨ (w.level = y.level ∧ w.freq ≤ y.freq))
      ∧ insertCandidate 100 x fullList = (fullList, true)
      ∧ w ∉ (insertCandidate 100 { x with level := 41 } fullList).1
      ∧ (insertCandidate 100 { x with level := 41 } fullList).1.length = 64 := by decide
theorem test_insert_other_band :
    (fullAm.Pairwise fun y z => y.before z = true) ∧ (∀ y ∈ fullAm, ∀ z ∈ fullAm, y.adjacentTo 9 z = false)
      ∧ fullAm.length = 64 ∧ insertCandidate 100 fmStation fullAm = (fullAm, true) := by decide

/-! ## Outputs and protection: commands -/

/-- Channel 0 plays FL, heard. -/
def heard : State :=
  playing.setChan 0 { playing.chan 0 with applied := { role := .fl, delay := 0, polarity := .normal, size := .large } }

theorem test_assign_output :
    ret (.assignOutput 0 1) table = [0, 0x30, 0, 0, 0, 0, 0, 0] ∧ ((run (.assignOutput 0 1) table).chan 0).applied.role = .fl
      ∧ ret (.assignOutput 12 1) table = [0, 0x30, 12, 4, 0, 0, 0, 0] ∧ ret (.assignOutput 0 0) table = [0, 0x30, 0, 4, 0, 0, 0, 0]
      ∧ (heard.chan 0).target.role = .fl ∧ ret (.assignOutput 0 2) heard = [0, 0x30, 0, 0, 1, 0, 0, 0]
      ∧ ret (.assignOutput 0 1) heard = [0, 0x30, 0, 0, 0, 0, 0, 0] := by decide
theorem test_assign_output_moves :
    (heard.chan 0).target.role = .fl ∧ (heard.chan 1).target.role ≠ .fl
      ∧ (∀ y, y ≠ 1 → (heard.chan y).target.role = .fl → y = 0)
      ∧ ((run (.assignOutput 1 1) heard).chan 0).pend.map (·.role) = some .unused
      ∧ ((run (.assignOutput 1 1) heard).chan 1).pend.map (·.role) = some .fl := by decide
/-- Channel 0 fades with FL applied and UNUSED pending, and channel 1 is given FL. -/
def roleWaits : State := run (.assignOutput 1 1) (run (.assignOutput 0 0x10) heard)

theorem test_assign_output_waits :
    ret (.assignOutput 0 0x10) heard = [0, 0x30, 0, 0, 1, 0, 0, 0]
      ∧ ret (.assignOutput 1 1) (run (.assignOutput 0 0x10) heard) = [0, 0x30, 1, 0, 1, 0, 0, 0]
      ∧ (roleWaits.chan 0).applied.role = .fl ∧ (roleWaits.chan 0).pend.map (·.role) = some .unused
      ∧ (roleWaits.chan 1).applied.role = .unused ∧ (roleWaits.chan 1).pend.map (·.role) = some .fl
      ∧ (roleWaits.chan 0).group = some 0 ∧ (roleWaits.chan 1).group = some 0 := by decide
theorem test_assign_output_passes :
    let s := (roleWaits.setChan 0 { roleWaits.chan 0 with ramp := -240 }).groupBlock 0
    (s.chan 0).applied.role = .unused ∧ (s.chan 1).applied.role = .fl ∧ (s.chan 1).group = none := by decide
theorem test_roles_heard : heard.RolesInv := ⟨by decide, by decide, by decide⟩
theorem test_roles_waiting : roleWaits.RolesInv := ⟨by decide, by decide, by decide⟩
/-- A third channel is given the role: channel 1 loses it, and channel 0 still has it applied. -/
theorem test_assign_output_third :
    (roleWaits.chan 1).target.role = .fl ∧ (∀ y, y ≠ 2 → (roleWaits.chan y).target.role = .fl → y = 1)
      ∧ roleWaits.roleKeepers 2 .fl = [0] ∧ ((run (.assignOutput 2 1) roleWaits).chan 2).group = some 0
      ∧ ((run (.assignOutput 2 1) roleWaits).chan 1).pend.map (·.role) = some .unused := by decide
theorem test_restart_channels :
    let s := run (.assignOutput 0 2) heard
    (s.chan 0).group = some 0 ∧ ((run .restart s).chan 0).applied.role = .fr ∧ ((run .restart s).chan 0).ramp = 0
      ∧ ((run .restart (s.setPair 0 { Pair.powerOn with state := .lockout })).chan 0).ramp = -240 := by
  decide +kernel
theorem test_assign_output_pool :
    let big : ChanSettings := { role := .unused, delay := 131073, polarity := .normal, size := .large }
    let s := table.setChan 0 { table.chan 0 with applied := big }
    ret (.assignOutput 0 1) s = [0, 0x30, 0, 8, 0, 0, 0, 0]
      ∧ ret (.setChannel 1 0 0 0 0) (heard.setChan 0 { heard.chan 0 with applied := { big with role := .fl } })
          = [0, 0x31, 1, 8, 0, 0, 0, 0] := by decide
theorem test_set_channel :
    ret (.setChannel 0 30 0 0 0) table = [0, 0x31, 0, 1, 24, 0, 0, 0] ∧ ((run (.setChannel 0 30 0 0 0) table).chan 0).trim = 24
      ∧ ret (.setChannel 0 0 0 2 0) table = [0, 0x31, 0, 4, 0, 0, 0, 0]
      ∧ ((run (.setChannel 0 0 1440 0 0) table).chan 0).applied.delay = 1440
      ∧ ret (.setChannel 0 0 1441 0 0) table = [0, 0x31, 0, 1, 0xA0, 5, 0, 0] := by decide
theorem test_set_bass :
    ret (.setBass 80) table = [0, 0x32, 0, 0, 80, 0, 0, 0] ∧ ret (.setBass 150) table = [0, 0x32, 0, 0, 150, 0, 0, 0]
      ∧ ret (.setBass 70) table = [0, 0x32, 0, 4, 0, 0, 0, 0] := by decide
theorem test_clear_fault :
    let s := State.reset.setPair 5 { Pair.powerOn with state := .lockout, used := 3 }
    ret (.clearFault 5 0) s = [0, 0x38, 5, 0, 1, 0, 0, 0] ∧ ((run (.clearFault 5 0) s).pair 5).state = .softStart
      ∧ ret (.clearFault 5 32) s = [0, 0x38, 5, 9, 0, 0, 0, 0] ∧ ret (.clearFault 6 0) s = [0, 0x38, 6, 4, 0, 0, 0, 0]
      ∧ ret (.clearFault 0 0) s = [0, 0x38, 0, 0, 0, 0, 0, 0] := by decide
theorem test_set_protect :
    ret (.setProtect 5 7 3) State.reset = [0, 0x39, 5, 1, 4, 0, 0, 0]
      ∧ ret (.setProtect 5 64 4) State.reset = [0, 0x39, 5, 1, 3, 0, 0, 0]
      ∧ ret (.setProtect 5 0 0) State.reset = [0, 0x39, 5, 1, 1, 0, 0, 0]
      ∧ ret (.setProtect 6 4 3) State.reset = [0, 0x39, 6, 4, 0, 0, 0, 0] := by decide

/-! ## The part's own steps: intake and lanes -/

theorem test_unpack_none : table.feeding .p0 = none := by decide
theorem test_carriage :
    let bad : Mem := memStore [(16 + 15, 0x2B)] page
    let cs := (parseSlot page 32).1
    cs.length = 1 ∧ (parseSlot page 32).2 = true ∧ goodFrames cs = 2 ∧ (cs.map (·.frame page 1)) = [[3, 4]]
      ∧ parseSlot page 40 = (cs, false) ∧ parseSlot page 31 = ([], false) ∧ parseSlot page 0 = ([], true)
      ∧ parseSlot bad 32 = ([], false) ∧ locateFrame cs 2 = none ∧ (locateFrame cs 1).isSome = true := by decide
theorem test_carriage_sample :
    let c : Carriage := { format := { rate := .r48000, roles := [.fl, .fr] }, start := 32, frames := 1 }
    c.frame (memStore [(34, 0x80), (36, 0xFF), (37, 0xFF), (38, 0x7F), (39, 0xFF)] []) 0 = [-8388608, 8388607] := by decide
theorem test_sealed_run :
    let r (x y : SlotRec) : Ring := { Ring.fresh 4 with slots := [x, y, sealedSlot, SlotRec.fresh], feeds := some .p0 }
    let passed : SlotRec := { SlotRec.fresh with state := .returning, skip := true }
    let s (x y : SlotRec) : State := pathA (fun p => { p with fifo := [[9, 9]] }) (streaming.setRing 3 (some (r x y)))
    (s { sealedSlot with state := .unpacking, moved := 1 } passed).buffered .p0 = 4
      ∧ (s sealedSlot SlotRec.fresh).buffered .p0 = 3 ∧ (s SlotRec.fresh sealedSlot).buffered .p0 = 1
      ∧ (s sealedSlot sealedSlot).feeding .p0 = some 3 ∧ (s sealedSlot sealedSlot).feeding .p1 = none
      ∧ (s sealedSlot sealedSlot).buffered .p0 = 7 := by decide
theorem test_present :
    let tuned := pathA (fun p => { p with binding := some 2 }) { listening with sources := table.sources }
    let off := streaming.setRing 3 (some { Ring.fresh 4 with feeds := some .p0, idle := true })
    playing.present .p0 = true ∧ ({ playing with groups := State.reset.groups }).present .p0 = false
      ∧ streaming.present .p0 = true ∧ off.present .p0 = false ∧ State.reset.present .p0 = false
      ∧ tuned.present .p0 = true ∧ (radio (fun t => { t with state := .tuning }) tuned).present .p0 = false
      ∧ (pathA (fun p => { p with binding := some 11 }) playing).present .p0 = false := by decide
theorem test_restart_ring :
    let s := fed sealedSlot
    s.feeding .p0 = some 3 ∧ s.namesWindow .p0 3 = true ∧ s.namesWindow .p1 3 = false
      ∧ ((run .restart s).ring 3).map (·.unpackPos) = some 1
      ∧ ((run .restart s).ring 3).map (fun r => (r.slot 0).outcome) = some .flushed
      ∧ ((run .restart s).ring 3).bind (·.feeds) = none := by decide
theorem test_restart_returns :
    let s := fed { sealedSlot with state := .unpacking, moved := 1, late := true }
    let f := { s with link := fullQueue.link }
    s.intakeWait = [] ∧ ((s.ring 3).map fun r => decide (r.unpackPos < r.slots.length)) = some true
      ∧ ((run .restart s).link.injq.drop s.link.injq.length).map (fun x => (x.origin, x.write.addr, x.write.data))
          = [(.stream 3 0, 0x1000000, [0, 5, 1, 0, 32, 0, 1, 0]), (.command 4, 256, [0, 1, 0, 0, 0, 0, 0, 0])]
      ∧ (run .restart s).intakeWait = []
      ∧ (run .restart f).link.injq = f.link.injq ∧ (run .restart f).intakeWait = [(3, 0)] := by decide
theorem test_unpack_adopts :
    let s := pathA (fun p => { p with format := some { rate := .r44100, roles := [.fl, .fr] } }) (fed sealedSlot)
    s.pathZero.fifo = [] ∧ (locateFrame (parseSlot page 32).1 0).map Prod.snd = some 0
      ∧ (run (.unpackFrame .p0) s).pathZero.fifo = [[1, 2]]
      ∧ (run (.unpackFrame .p0) s).pathZero.tracker.state = .prefill := by decide
theorem test_unpack_ready :
    (fed sealedSlot).feeding .p0 = some 3 ∧ ((fed sealedSlot).path .p0).fifo.length < 2048
      ∧ ((fed sealedSlot).path .p0).formatPending = false
      ∧ (locateFrame (parseSlot page 32).1 1).map Prod.snd = some 1
      ∧ (run (.unpackFrame .p0) (fed sealedSlot)).pathZero.fifo = [[1, 2]]
      ∧ (runs [.unpackFrame .p0, .unpackFrame .p0] (fed sealedSlot)).pathZero.fifo = [[1, 2], [3, 4]] := by decide
theorem test_unpack_moved :
    let x : SlotRec := { sealedSlot with state := .unpacking, moved := 1, good := 3 }
    (locateFrame (parseSlot page 32).1 x.moved).map Prod.snd = some 1 ∧ x.moved + 1 ≠ x.good
      ∧ (run (.unpackFrame .p0) (fed x)).pathZero.fifo = [[3, 4]] := by decide
theorem test_unpack_not_ready :
    (fed SlotRec.fresh).feeding .p0 = some 3 ∧ SlotRec.fresh.state ≠ .sealed ∧ SlotRec.fresh.state ≠ .unpacking
      ∧ (run (.unpackFrame .p0) (fed SlotRec.fresh)).pathZero.fifo = [] := by decide
theorem test_unpack_format :
    let s := pathA (fun p => { p with format := some { rate := .r44100, roles := [.fl, .fr] }, fifo := [[9, 9]] })
      (fed sealedSlot)
    s.pathZero.format ≠ none ∧ s.pathZero.fifo ≠ [] ∧ (run (.unpackFrame .p0) s).pathZero.formatPending = true
      ∧ (run (.unpackFrame .p0) s).pathZero.fifo = [[9, 9]] := by decide
theorem test_stream_idle :
    let s := streaming.setRing 3 (some { Ring.fresh 4 with feeds := some .p0, handoverCount := 100 })
    let t := streaming.setRing 3 (some { Ring.fresh 4 with feeds := some .p0, handoverCount := 99 })
    s.buffered .p0 = 0 ∧ (((run (.streamIdle 3) s).ring 3).map (·.idle)) = some true
      ∧ run (.streamIdle 3) t = t := by decide

/-- Frames of a lane: SYNC, FILL, DATA (1, 2), a PREAMBLE copy, and one with a wrong parity. -/
def sync : LaneFrame := { symbolsValid := true, marker := 0xB5, fieldA := 0, fieldB := 0, parity := 0xB5 }
def fill : LaneFrame := { symbolsValid := true, marker := 0x3C, fieldA := 0, fieldB := 0, parity := 0x3C }
def data : LaneFrame := { symbolsValid := true, marker := 0xD3, fieldA := 1, fieldB := 2, parity := 0xD0 }
def errored : LaneFrame := { data with parity := 0 }
def preamble : LaneFrame :=
  let f : LaneFrame :=
    { symbolsValid := true, marker := 0x6A, fieldA := 0x182201, fieldB := 0x200201, parity := 0 }
  { f with parity := frameXor f }

/-- Lane 2 is enabled, in a given state. -/
def lane (f : LaneRec → LaneRec) (s : State) : State := s.setLane 2 (f { s.lane 2 with enable := true })

theorem test_frame_kinds :
    frameKind sync = .sync ∧ frameKind fill = .fill ∧ frameKind data = .data ∧ frameKind errored = .errored
      ∧ frameKind preamble = .preamble := by decide
theorem test_lane_disabled : (table.lane 2).enable = false ∧ run (.laneFrame 2 sync) table = table := by decide
theorem test_lane_hunt :
    let s := lane (fun r => { r with state := .hunt, syncRun := 3 }) table
    ((run (.laneFrame 2 sync) s).lane 2).state = .synced ∧ ((run (.laneFrame 2 fill) s).lane 2).syncRun = 0
      ∧ ((run (.laneFrame 2 sync) (lane (fun r => { r with state := .hunt, syncRun := 2 }) table)).lane 2).syncRun
          = 3 := by decide
theorem test_lane_synced :
    let s := lane (fun r => { r with state := .synced }) table
    ((run (.laneFrame 2 data) s).lane 2).realign = some 32 ∧ ((run (.laneFrame 2 errored) s).lane 2).errors = 0
      ∧ frameKind { preamble with fieldB := 0, parity := 0x51 } = .preamble
      ∧ frameCopy { preamble with fieldB := 0, parity := 0x51 } = none
      ∧ ((run (.laneFrame 2 { preamble with fieldB := 0, parity := 0x51 }) s).lane 2).state = .hunt
      ∧ ((run (.laneFrame 2 { preamble with fieldB := 0, parity := 0x51 }) s).lane 2).errors = 1
      ∧ ((run (.laneFrame 2 preamble) s).lane 2).copies = 1
      ∧ ((runs [.laneFrame 2 preamble, .laneFrame 2 preamble] s).lane 2).copies = 2
      ∧ ((runs (List.replicate 4 (.laneFrame 2 preamble)) s).lane 2).config.map (·.width) = some 24 := by decide
theorem test_lane_preamble :
    let s := run (.laneFrame 2 preamble) (lane (fun r => { r with state := .synced }) table)
    (s.lane 2).state = .preamble ∧ ((run (.laneFrame 2 sync) s).lane 2).state = .synced
      ∧ ((run (.laneFrame 2 fill) s).lane 2).errors = 1
      ∧ frameCopy { preamble with fieldB := 0 } = none ∧ (s.lane 2).firstCopy = frameCopy preamble
      ∧ (frameCopy preamble).isSome = true
      ∧ ((run (.laneFrame 2 preamble)
            (lane (fun r => { r with firstCopy := (frameCopy preamble).map fun c => { c with group := 2 } }) s)).lane
          2).state = .hunt := by decide
theorem test_lane_mismatch :
    let s := lane (fun r => { r with state := .mismatch }) table
    ((run (.laneFrame 2 fill) s).lane 2).state = .mismatch ∧ ((run (.laneFrame 2 sync) s).lane 2).state = .synced := by
  decide
theorem test_lane_threshold :
    let s := lane (fun r => { r with state := .data, errors := 15 }) playing
    (s.lane 2).threshold ≤ min 255 ((s.lane 2).errors + 1) ∧ (s.groupOfLane 2).map Prod.fst = some 0
      ∧ ((run (.laneFrame 2 errored) s).lane 2).state = .hunt
      ∧ ((run (.laneFrame 2 errored) s).lane 3).realign = some 32 := by decide
theorem test_lane_loss :
    let s := lane (fun r => { r with state := .synced, silence := 3 }) table
    (s.lane 2).arrived = false ∧ ((run (.laneLoss 2) s).lane 2).state = .hunt
      ∧ ((run (.laneLoss 2) (lane (fun r => { r with state := .mismatch, silence := 3 }) table)).lane 2).silence = 4
      ∧ run (.laneLoss 2) table = table := by decide
/-- Lanes 2 and 3 are aligned with the configuration of a group of two. -/
def config (i : Nat) : LaneConfig :=
  { group := 1, index := i, count := 2, rate := .r48000, width := 24, role1 := .fl, role2 := .fr }
def grouped (g : GroupRec) (f : LaneRec → LaneRec) : State :=
  let r (i : Nat) : LaneRec := f { LaneRec.powerOn with enable := true, state := .aligned, config := some (config i) }
  ((table.setLane 2 (r 0)).setLane 3 (r 1)).setGroup 0 (some g)
def measuring : GroupRec :=
  { stage := .measuring, format := some { rate := .r48000, roles := [.fl, .fr, .none, .none] }, opened := true }

theorem test_lane_loss_group :
    let s := grouped measuring fun r => { r with silence := 3, skew := 2 }
    let f := grouped GroupRec.forming fun r => { r with silence := 3 }
    let d := grouped { measuring with stage := .running } fun r => { r with silence := 3, state := .data }
    (s.groupOfLane 2).map Prod.fst = some 0 ∧ ((run (.laneLoss 2) s).lane 2).state = .hunt
      ∧ ((run (.laneLoss 2) s).lane 3).skew = 0 ∧ (run (.laneLoss 2) s).group 0 = some GroupRec.forming
      ∧ ((run (.laneLoss 2) f).lane 2).state = .hunt
      ∧ ((run (.laneLoss 2) d).lane 2).realign = some 32 ∧ ((run (.laneLoss 2) d).lane 3).state = .hunt := by decide
theorem test_disable_group :
    let s := grouped measuring fun r => { r with skew := 2 }
    let d := grouped { measuring with stage := .running } fun r => { r with state := .data }
    let f := grouped GroupRec.forming id
    (s.lane 2).enable = true ∧ ((s.enableLane 2 false).lane 2).state = .disabled
      ∧ ((s.enableLane 2 false).lane 3).skew = 0 ∧ ((d.enableLane 2 false).lane 3).realign = some 32
      ∧ ((d.enableLane 2 false).lane 2).realign = none ∧ (d.enableLane 2 false).group 0 = some GroupRec.forming
      ∧ ((f.enableLane 2 false).lane 2).state = .disabled := by decide
theorem test_group_places :
    let last (s : State) : State :=
      lane (fun r => { r with state := .preamble, copies := 3, firstCopy := frameCopy preamble }) s
    let go (s : State) : State := run (.laneFrame 2 preamble) (last s)
    let g := grouped GroupRec.forming id
    (table.entryOfLane 2) = some 0 ∧ (State.reset.entryOfLane 2) = none ∧ ((go State.reset).lane 2).state = .aligned
      ∧ (go g).group 0 = some { measuring with opened := false }
      ∧ ((go (g.setLane 3 { g.lane 3 with config := some { config 1 with group := 2 } })).lane 3).state = .mismatch
      ∧ (run (.laneFrame 3 preamble) ((last g).setLane 3 ((last g).lane 2))).lane 3
          = { (last g).lane 2 with
              state := .mismatch, copies := 0, firstCopy := none, config := frameCopy preamble, arrived := true } := by
  decide
theorem test_group_aligned :
    let alone := lane (fun r => { r with state := .aligned }) State.reset
    let g := grouped GroupRec.forming id
    alone.groupOfLane 2 = none ∧ ((run (.laneFrame 2 sync) alone).lane 2).state = .synced
      ∧ ((run (.laneFrame 2 data) alone).lane 2).state = .aligned
      ∧ ((run (.laneFrame 2 sync) g).lane 2).state = .synced ∧ ((run (.laneFrame 2 data) g).lane 2).realign = some 32
      ∧ ((run (.laneFrame 2 fill) g).lane 2).state = .aligned := by decide
theorem test_group_measures :
    let s := grouped { measuring with opened := false } id
    let o := grouped measuring id
    let k := grouped measuring fun r => { r with skew := 8 }
    let b := grouped measuring fun r => { r with started := true, buffer := List.replicate 16 (0, 0) }
    let n := grouped measuring fun r => { r with started := true, buffer := [(5, 6)] }
    ((run (.laneFrame 2 sync) s).lane 2).state = .synced ∧ run (.laneFrame 2 fill) n ≠ n
      ∧ ((run (.laneFrame 2 fill) s).lane 2).skew = 0
      ∧ ((run (.laneFrame 2 data) s).group 0).map (·.opened) = some true
      ∧ ((run (.laneFrame 2 data) o).lane 2).buffer = [(1, 2)] ∧ ((run (.laneFrame 2 fill) o).lane 2).skew = 1
      ∧ ((run (.laneFrame 2 fill) k).lane 3).state = .hunt ∧ ((run (.laneFrame 2 fill) b).lane 2).state = .hunt
      ∧ ((run (.laneFrame 2 fill) n).lane 2).buffer = [(5, 6), (0, 0)]
      ∧ ((runs [.laneFrame 2 data, .laneFrame 3 data] s).lane 3).state = .data
      ∧ ((runs [.laneFrame 2 data, .laneFrame 3 data] s).lane 3).buffer = [] := by decide
theorem test_group_runs :
    let d (f : LaneRec → LaneRec) : State :=
      grouped { measuring with stage := .running } fun r => f { r with state := .data, lastGood := (7, 8) }
    let n := d id
    ((run (.laneFrame 2 data) n).lane 2).buffer = [(1, 2)] ∧ ((run (.laneFrame 2 fill) n).lane 2).buffer = [(7, 8)]
      ∧ ((run (.laneFrame 2 errored) n).lane 2).errors = 1
      ∧ ((run (.laneFrame 2 data) (d fun r => { r with goodRun := 4095, errors := 2 })).lane 2).errors = 1
      ∧ ((run (.laneFrame 2 data) (d fun r => { r with buffer := List.replicate 16 (0, 0) })).lane 2).state = .hunt
      ∧ ((run (.laneFrame 2 sync) n).lane 2).state = .synced ∧ ((run (.laneFrame 2 sync) n).lane 3).state = .hunt
      ∧ ((run (.laneFrame 2 errored) (d fun r => { r with errors := 15 })).lane 2).state = .hunt
      ∧ ((runs [.laneFrame 2 data, .laneFrame 3 data] n).lane 3).buffer = [] := by decide
theorem test_group_delivers :
    let s := { grouped { measuring with stage := .running } (fun r => { r with state := .data }) with
      pathZero := { PathRec.free with binding := some 0, format := measuring.format } }
    let m := { grouped measuring (fun r => { r with started := true, buffer := [(3, 4)] }) with
      pathZero := { PathRec.free with binding := some 0 } }
    s.boundPath 0 = some .p0 ∧ (runs [.laneFrame 2 data, .laneFrame 3 data] s).pathZero.fifo = [[1, 2, 1, 2]]
      ∧ (m.source 0).lanes = [2, 3] ∧ (m.measureDone 0 measuring).pathZero.format = measuring.format
      ∧ (m.measureDone 0 measuring).pathZero.fifo = [[3, 4, 3, 4]]
      ∧ ((m.measureDone 0 measuring).group 0).map (·.stage) = some .running := by decide
/-- A change of the lane list (R64): the old list's lanes lose their deskew state, those placed are placed again. -/
theorem test_put_source :
    let d := grouped { measuring with stage := .running } fun r => { r with state := .data, buffer := [(1, 2)] }
    let e : SourceEntry := { d.source 0 with lanes := [3, 2] }
    let one : SourceEntry := { d.source 0 with lanes := [2] }
    (d.source 0).lanes ≠ e.lanes ∧ ((d.putSource 0 e).lane 2).state = .mismatch
      ∧ ((d.putSource 0 e).lane 3).buffer = [] ∧ (d.putSource 0 e).group 0 = some GroupRec.forming
      ∧ ((d.putSource 0 one).lane 3).state = .aligned ∧ ((d.putSource 0 one).lane 2).state = .mismatch
      ∧ (d.putSource 0 SourceEntry.powerOn).group 0 = none
      ∧ ((d.putSource 0 SourceEntry.powerOn).lane 2).state = .aligned
      ∧ (d.putSource 0 (d.source 0)).lanes = d.lanes := by decide
theorem test_realign :
    let s := lane (fun r => { r with state := .hunt, realign := some 1 }) table
    ((run (.realignDeassert 2) s).lane 2).realign = none ∧ (table.lane 2).realign ≠ some 1 := by decide

/-! ## The part's own steps: the output block and the zones -/

theorem test_output_block :
    (run (.outputBlock 3 true) State.reset).block = 1 ∧ (run (.outputBlock 3 true) State.reset).pins.faults = 3
      ∧ getAt (run (.outputBlock 3 true) State.reset).out.samples 0 = List.replicate 48 0 := by decide
theorem test_output_block_parts :
    let s := { State.reset with taken := [.begin, .meters] }
    (run (.outputBlock 0 true) s).block = 0 ∧ BlockPart.thermal ∉ s.taken ∧ BlockPart.sound ∉ s.taken
      ∧ (run (.outputBlock 0 true) s).thermal.assertedRun = 1 ∧ (run (.outputBlock 0 true) s).out.meterPeriod = 0
      ∧ (run (.outputBlock 0 true) State.reset).out.meterPeriod = 1 := by decide

/-! ## The mixer and what a channel plays -/

/-- Path 0 yields one frame of a format, with the matrix mode cinema in the main zone. -/
def yielding (roles : List Role) (f : Frame) : State :=
  pathA (fun p => { p with yieldFormat := some { rate := .r48000, roles := roles }, yielded := [f] })
    (mainZone (fun z => { z with decode := .matrixCinema }) playing)

theorem test_mix :
    let s := yielding [.fl, .fr] [4096, 4096]
    let d := yielding [.fr, .c] [1, 2]
    s.zoneMain.decode ≠ .direct ∧ s.zoneMain.attached = some .p0 ∧ s.mixBlock.mixer.matrix = true
      ∧ s.mixBlock.mixer.eM = 0 ∧ (s.setChan 0 (heard.chan 0)).layout = [.fl]
      ∧ d.mixBlock.mixer.matrix = false ∧ d.mixBlock.mixer.eL = 0
      ∧ (RoleFrame.get (roleFrame [.fr, .c] [1, 2]) .c) = 2 ∧ (RoleFrame.get (roleFrame [.fr, .c] [1, 2]) .fl) = 0 := by
  decide
theorem test_zone_roles :
    let s := yielding [.fl, .fr] [7, 9]
    (s.zoneRoles .main).length = 48
      ∧ ((s.zoneRoles .main).take 2).map (fun f => (RoleFrame.get f .fl, RoleFrame.get f .fr)) = [(7, 9), (0, 0)]
      ∧ s.zoneTwo.attached = none ∧ s.zoneRoles .zone2 = List.replicate 48 []
      ∧ (pathA (fun p => { p with yieldFormat := none }) s).zoneRoles .main = List.replicate 48 [] := by decide
theorem test_mix_energy :
    (yielding [.fl, .fr] [8388607, 8388607]).mixBlock.mixer.fb = 4096
      ∧ (yielding [.fl, .fr] [8388607, -8388607]).mixBlock.mixer.fb = -4096
      ∧ (yielding [.fl, .fr] [8388607, 0]).mixBlock.mixer.lr = 4096 := by decide
theorem test_matrix_frame :
    matrixFrame .matrixCinema 4096 0 1000 1000 = [(.fl, 0), (.fr, 0), (.c, 1000), (.sl, 0), (.sr, 0)]
      ∧ RoleFrame.get (matrixFrame .matrixMusic 4096 0 1000 1000) .c = 500
      ∧ RoleFrame.get (matrixFrame .matrixCinema (-4096) 0 1000 (-1000)) .sl = 500 := by decide
theorem test_fold :
    let f : List (Role × Sample) := [(.fl, 1), (.c, 150000), (.lfe, 10), (.bl, 7)]
    Role.lfe ∉ [Role.fl, .fr] ∧ foldFrame [.fl, .fr] f .fl = 1 + 106066 + 10 + 5
      ∧ foldFrame [.fl, .fr, .sl, .sw] f .sl = 7 ∧ foldFrame [.fl, .c] f .c = 150000 := by decide
theorem test_downmix :
    let s := yielding [.c] [150000]
    let m := yielding [.fl, .fr] [1, 2]
    let a := radio (fun t => { t with band := .am }) (pathA (fun p => { p with binding := some 2 }) m)
    (s.downmix .p0).head? = some (106066, 106066) ∧ (m.downmix .p0).head? = some (1, 2)
      ∧ m.tapPoint .mainDownmix = m.downmix .p0 ∧ m.zoneTwo.attached = none ∧ m.tunerPath = none
      ∧ a.pathKind .p0 = .tuner ∧ (a.downmix .p0).head? = some (1, 1) ∧ a.tunerPath = some .p0 := by decide
theorem test_gain :
    gainScale 0 8388607 = 8388607 ∧ gainScale (-12) 1000 = 500 ∧ gainScale 24 1000 = 4000 ∧ gainScale (-1) 1000 = 944
      ∧ (heard.chan 0).zone = some .main ∧ heard.gainIndex 0 = -80 ∧ playing.gainIndex 0 = -240
      ∧ heard.chanSilent 0 = false ∧ playing.chanSilent 0 = true := by decide
theorem test_play :
    let t := heard.playChannel 0 (List.replicate 48 8388607) CrossoverState.cleared
    (heard.chan 0).applied.polarity = .normal ∧ (t.chan 0).blockPeak = levelAt 80
      ∧ (getAt t.out.samples 0).head? = some (levelAt 80 : Int)
      ∧ ¬ Role.sw ∈ heard.mixer.layout ∧ (heard.bands 0).low = [] := by decide
theorem test_limiter :
    limiterFall 8388607 (levelAt 1) = 1 ∧ limiterFall 33554432 (levelAt 24) = 48 ∧ levelAt 24 < 33554432
      ∧ (let s := State.reset.setChan 0 { heard.chan 0 with blockPeak := 8388607 }
        ((s.limitPart 0).chan 0).lrDue = 1 ∧ (((s.limitPart 0).chan 0).applyDue).lr = -1)
      ∧ (let s := State.reset.setChan 0 { heard.chan 0 with release := 3 }
        ((s.limitPart 0).chan 0).release = 4) := by decide
theorem test_lane_word :
    laneWord (-1) 2 = 0xFFFFFFFF00000002#64
      ∧ (let o := { OutputUnit.powerOn with samples := setAt (setAt OutputUnit.powerOn.samples 10 [-8388608]) 11 [5] }
        o.laneFrames 5 = [0xFF80000000000005#64]) := by decide

/-- The main zone, playing, with its record changed. -/
def zoned (f : ZoneRec → ZoneRec) : State := mainZone f playing

theorem test_fade_out_end :
    let s := zoned fun z => { z with switch := .fadeOut, target := some 0, ramp := -232 }
    let u := pathA (fun p => { p with formatPending := true }) s
    s.rampTarget .main = -240 ∧ s.boundPath 0 = some .p0 ∧ (u.path .p0).formatPending = true
      ∧ (run (.fadeOutEnd .main) u).zoneMain.switch = .waitReady ∧ (run (.fadeOutEnd .main) u).zoneMain.ramp = -240
      ∧ (run (.fadeOutEnd .main) s).zoneMain.switch = .fadeIn := by decide
theorem test_wait_ready_end :
    let s := zoned fun z => { z with switch := .waitReady, target := some 0, sleep := 1, minute := 2 }
    s.pathReady .p0 = true ∧ (s.path .p0).formatPending = false ∧ (run (.waitReadyEnd .main) s).zoneMain.switch = .fadeIn
      ∧ (run (.waitReadyEnd .main) (mainZone (fun z => { z with mute := true }) s)).zoneMain.switch = .idle := by decide
theorem test_source_absent :
    let s := pathA (fun p => { p with tracker := { p.tracker with state := .prefill } })
      (zoned fun z => { z with switch := .waitReady, target := some 0, waitCount := 1999 })
    s.pathReady .p0 = false ∧ s.zoneMain.sleep = 0 ∧ (run (.sourceAbsent .main) s).zoneMain.waitCount = 2000
      ∧ ((run (.sourceAbsent .main) s).link.injq.getLast?.map fun i => i.write.data.take 2) = some [0, 8] := by decide
theorem test_switch_complete :
    let s := zoned fun z => { z with switch := .fadeIn, target := some 0, ramp := -8, tag := some 5 }
    (s.zoneMoved .main).ramp = 0 ∧ (run (.switchComplete .main) s).zoneMain.switch = .idle
      ∧ ((run (.switchComplete .main) s).link.injq.getLast?.map fun i => i.write.data.take 4) = some [0, 1, 0, 5]
      ∧ (run (.switchComplete .main) (mainZone (fun z => { z with tag := none, mute := true }) s)).zoneMain.tag
          = none := by decide
theorem test_event_stamp :
    let s := zoned fun z => { z with switch := .fadeIn, target := some 0, ramp := -8, tag := some 5 }
    (run (.switchComplete .main) s).block = 1
      ∧ ((run (.switchComplete .main) s).link.injq.getLast?.map fun i => (i.write.data.drop 4).take 4)
          = some [1, 0, 0, 0] := by decide
theorem test_going_standby_end :
    let s := zoned fun z => { z with power := .goingStandby, ramp := -232 }
    s.zoneMain.attached = some .p0 ∧ (run (.goingStandbyEnd .main) s).zoneMain.power = .standby
      ∧ (run (.goingStandbyEnd .main) s).pathZero = PathRec.free
      ∧ (run (.goingStandbyEnd .main) (mainZone (fun z => { z with attached := none }) s)).zoneMain.power
          = .standby := by decide
theorem test_sleep_minute :
    let s := zoned fun z => { z with sleep := 2, minute := 1 }
    (run (.sleepMinute .main) s).zoneMain.sleep = 1 ∧ (run (.sleepMinute .main) s).zoneMain.minute = 60000
      ∧ (s.zoneMoved .main).ramp ≠ -240
      ∧ (run (.sleepMinute .main) (mainZone (fun z => { z with sleep := 1 }) s)).zoneMain.power = .goingStandby := by
  decide

/-! ## The part's own steps: paths -/

/-- The loop's worked figures of chapter 5: a fill 40 above its target at gain 7, Kp 64, Ki 2, at 44.1 kHz. -/
theorem test_loop :
    let t : Tracker := { Tracker.free with
      state := .acquire, err := 40, gain := 7, step0 := some 15414067, cmax := some 30105 }
    (t.loop 64 2).integ = 10240 ∧ (t.loop 64 2).corr = 21120 ∧ (t.loop 64 2).step = some 15435187 := by decide
theorem test_format_adoption :
    let s := pathA (fun p => { p with formatPending := true, held := some { rate := .r44100, roles := [.c] } })
      (zoned fun z => { z with ramp := -240 })
    s.attachedSilent .p0 = true ∧ (run (.formatAdoption .p0) s).pathZero.format = some { rate := .r44100, roles := [.c] }
      ∧ (run (.formatAdoption .p0) s).pathZero.tracker.step0 = some 15414067 := by decide

/-- Path 0 with a given tracker and a given number of frames. -/
def tracked (n : Nat) (f : Tracker → Tracker) : State :=
  pathA (fun p => { p with tracker := f p.tracker, fifo := List.replicate n [0, 0] }) playing

/-- A tracker at 48 kHz that is in its bounds. -/
theorem bounds48 (t : Tracker) (h0 : t.step0 = some 16777216) (hc : t.cmax = some 32768) (hs : t.step = some 16777216)
    (h1 : t.corr = 0) (h2 : t.integ = 0) (h3 : t.gain ≤ 7) (h4 : t.phase = 0) : t.BoundsOk :=
  ⟨by rw [h1]; exact Nat.zero_le _, by rw [h2]; decide, by rw [h2]; decide, h3, by rw [h4]; decide,
    fun n h => by rw [h0] at h; cases h; exact ⟨by decide, hc⟩, fun n h => by rw [hs] at h; cases h; decide⟩

theorem test_consume :
    let s := tracked 48 id
    let e := tracked 47 id
    (s.path .p0).tracker.step = some 16777216 ∧ (s.consumeBlock .p0).pathZero.fifo = []
      ∧ (e.consumeBlock .p0).pathZero.tracker.state = .prefill
      ∧ ((pathA (fun p => { p with formatPending := true, held := p.format }) e).consumeBlock .p0).pathZero.formatPending
          = false
      ∧ ((tracked 47 fun t => { t with state := .hold }).consumeBlock .p0).pathZero.drained = true := by decide
theorem test_prefill_bounds : ((tracked 960 fun t => { t with state := .prefill }).path .p0).tracker.BoundsOk :=
  bounds48 _ rfl rfl rfl rfl rfl (by decide) rfl
theorem test_slip_bounds :
    ((tracked 993 fun t => { t with state := .track, slips := 15, gain := 0 }).path .p0).tracker.BoundsOk :=
  bounds48 _ rfl rfl rfl rfl rfl (by decide) rfl
theorem test_prefill_exit :
    let s := tracked 960 fun t => { t with state := .prefill }
    let u := (s.countHandover .p0).takeB .p0
    u.present .p0 = true ∧ u.fillTarget .p0 ≤ u.buffered .p0 ∧ (s.path .p0).tracker.cmax = some 32768
      ∧ (run (.prefillExit .p0) s).pathZero.tracker.state = .acquire
      ∧ (run (.prefillExit .p0) s).pathZero.tracker.timer = 255 := by decide
theorem test_prefill_exit_tuner :
    let s := { listening with sources := table.sources }
    let v := pathA (fun p => { p with
      binding := some 2, format := some tunerFormat, fifo := List.replicate 96 [0, 0]
      tracker := { p.tracker with state := .prefill } }) s
    (v.source 2).kind = .tuner ∧ ((v.countHandover .p0).takeB .p0).present .p0 = true
      ∧ (run (.prefillExit .p0) v).pathZero.tracker.state = .sync := by decide
theorem test_acquire_bounds (n k g : Nat) (h : g ≤ 7) :
    ((tracked n fun t => { t with timer := k, gain := g }).path .p0).tracker.BoundsOk :=
  bounds48 _ rfl rfl rfl rfl rfl h rfl
theorem test_gain_check :
    let s := tracked 968 id
    let u := (s.countHandover .p0).takeB .p0
    let t := run (.gainCheck .p0) s
    u.present .p0 = true ∧ (u.path .p0).tracker.err = 8 ∧ (s.source 0).lockW = 8 ∧ s.pathZero.tracker.timer = 225
      ∧ s.pathZero.formatPending = false ∧ t.pathZero.tracker.state = .acquire ∧ t.pathZero.tracker.timer = 224
      ∧ t.pathZero.tracker.gain = 6 ∧ t.pathZero.fifo.length = 920 := by decide
theorem test_gain_check_not :
    let past := tracked 969 id
    let early := tracked 968 fun t => { t with timer := 226 }
    let track := tracked 968 fun t => { t with state := .track }
    run (.gainCheck .p0) past = past ∧ run (.gainCheck .p0) early = early ∧ run (.gainCheck .p0) track = track := by
  decide +kernel
theorem test_acquire_lock :
    let s := tracked 960 fun t => { t with timer := 1, gain := 1 }
    let t := run (.acquireLock .p0) s
    ((s.countHandover .p0).takeB .p0).present .p0 = true ∧ t.pathZero.tracker.state = .track
      ∧ t.pathZero.tracker.ratchet = true ∧ t.pathZero.tracker.gain = 0 ∧ t.pathZero.tracker.timer = 0 := by decide
theorem test_acquire_lock_not :
    let s := tracked 960 fun t => { t with timer := 2, gain := 1 }
    run (.acquireLock .p0) s = s ∧ run (.acquireLock .p0) (tracked 960 fun t => { t with state := .track })
      = tracked 960 fun t => { t with state := .track } := by decide +kernel
theorem test_slip :
    let s := tracked 993 fun t => { t with state := .track, slips := 15, gain := 0 }
    let u := (s.countHandover .p0).takeB .p0
    u.present .p0 = true ∧ (u.path .p0).tracker.err = 33 ∧ (run (.slip .p0) s).pathZero.tracker.gain = 3 := by decide
theorem test_hold :
    let s := { tracked 960 id with groups := setAt table.groups 0 (some GroupRec.forming) }
    let h := run (.holdEntry .p0) s
    ((s.countHandover .p0).takeB .p0).present .p0 = false ∧ h.pathZero.tracker.state = .hold
      ∧ (tracked 960 fun t => { t with state := .hold }).present .p0 = true
      ∧ (run (.holdExit .p0) (tracked 960 fun t => { t with state := .hold })).pathZero.tracker.state = .prefill := by
  decide
set_option maxRecDepth 40000 in
theorem test_push_frame :
    let full (f : Tracker → Tracker) : State := tracked 2048 f
    let put (s : State) : State := s.pushFrame .p0 [1, 1]
    (put (tracked 3 id)).pathZero.fifo.length = 4
      ∧ put (pathA (fun p => { p with formatPending := true }) playing)
          = pathA (fun p => { p with formatPending := true }) playing
      ∧ (put (full fun t => { t with state := .track, slips := 3 })).pathZero.tracker.slips = 0
      ∧ (put (full fun t => { t with ratchet := true, gain := 1 })).pathZero.tracker.gain = 3
      ∧ (put (full fun t => { t with ratchet := false, gain := 5 })).pathZero.tracker.gain = 7
      ∧ (put (full fun t => { t with state := .hold })).pathZero.tracker.overrun = true
      ∧ put (full fun t => { t with overrun := true }) = full fun t => { t with overrun := true } := by decide

/-! ## The part's own steps: channels -/

/-- No line asserted. -/
def quiet : Lines := { faults := 0, therm := false }

theorem test_change_group :
    let s := run (.assignOutput 0 2) heard
    let t := s.setChan 0 { s.chan 0 with ramp := -232 }
    (t.chan 0).group = some 0 ∧ (t.chan 0).reconfig = true
      ∧ ((run (.changeGroupApply ⟨0, quiet⟩) t).chan 0).applied.role = .fr ∧ run (.changeGroupApply ⟨0, quiet⟩) s = s := by
  decide
theorem test_apply_group :
    let s := run (.assignOutput 0 2) heard
    (s.chan 0).group = some 0 ∧ ((s.applyGroup 0).chan 0).applied.role = .fr ∧ ((s.applyGroup 0).chan 0).group = none
      ∧ (s.chan 11).group ≠ some 0 ∧ (s.applyGroup 0).chan 11 = s.chan 11 := by decide
theorem test_soft_start_count :
    let s := State.reset.setChan 0 { Channel.powerOn with softStart := true, softCount := 3, ramp := -240 }
    ((run (.softStartCount 0 false) s).chan 0).ramp = -239 ∧ run (.softStartCount 0 true) s = s := by decide
theorem test_soft_start_end :
    let ch : Channel := { Channel.powerOn with softStart := true }
    let s := (State.reset.setChan 10 ch).setChan 11 ch
    let t := s.setPair 5 { Pair.powerOn with state := .softStart }
    (∀ c : Fin 12, c.val / 2 = 5 → (t.chan c).softStart = true ∧ (t.chan c).ramp = 0)
      ∧ ((run (.softStartEnd ⟨5, false⟩) t).pair 5).state = .normal
      ∧ ((run (.softStartEnd ⟨5, false⟩) s).chan 11).softStart = false
      ∧ run (.softStartEnd ⟨5, false⟩) State.reset = State.reset := by decide
theorem test_limiter_release :
    let s := State.reset.setChan 0 { heard.chan 0 with release := 15, lr := -3 }
    (s.chan 0).zone = some .main ∧ 0 ≤ levelAt (s.zone .main).ceiling
      ∧ ((run (.limiterRelease 0 quiet) s).chan 0).lr = -2
      ∧ run (.limiterRelease 0 quiet) State.reset = State.reset := by decide
theorem test_meter_period :
    let s := { mirrored with out := { mirrored.out with meterPeriod := 99 } }
    let t := { s with mirror := { s.mirror with metersOn := true } }
    s.mirror.metersOn = false ∧ (run .meterPeriodEnd s).out.meterPeriod = 0 ∧ t.mirror.job = none
      ∧ t.mirrorBase ≠ none ∧ run .meterPeriodEnd State.reset = State.reset
      ∧ getAt (run .meterPeriodEnd t).mirror.counts 0 = 1 := by decide

/-! ## The part's own steps: protection -/

theorem test_protect_entry :
    let s := State.reset.setPair 0 { Pair.powerOn with asserted := 3 }
    ((run (.protectEntry 0 true false) s).pair 0).state = .protect
      ∧ ((run (.protectEntry 0 true false) s).chan 1).ramp = -240
      ∧ ((run (.protectEntry 0 true false) s).pair 0).cause = some .line
      ∧ run (.protectEntry 0 true false) State.reset = State.reset := by decide
theorem test_protect_used :
    let s (n : Nat) : State := State.reset.setPair 0 { Pair.powerOn with asserted := 3, used := 2, normalRun := n }
    ((run (.protectEntry 0 true false) (s 59998)).pair 0).used = 2
      ∧ ((run (.protectEntry 0 true false) (s 59999)).pair 0).used = 0 := by decide
theorem test_recover_expiry :
    let s := State.reset.setPair 0 { Pair.powerOn with state := .recoverWait, clear := 1, used := 2 }
    let t := State.reset.setPair 0 { Pair.powerOn with state := .recoverWait, clear := 1, used := 3 }
    ((run (.recoverWaitExpiry 0 false false) s).pair 0).used = 3
      ∧ ((run (.recoverWaitExpiry 0 false false) t).pair 0).state = .lockout := by decide
theorem test_normal_run :
    let s := State.reset.setPair 0 { Pair.powerOn with normalRun := 59999, used := 2 }
    ((run (.normalRunExpiry 0 false false) s).pair 0).used = 0
      ∧ (s.rampsMade false).thermal.escalation = false := by decide
theorem test_thermal :
    let s := { State.reset with thermal := { Thermal.powerOn with assertedRun := 99 } }
    let c := { State.reset with thermal := { Thermal.powerOn with
      deassertedRun := 5999, warning := true, escalation := true, tTarget := -12, t := -12 } }
    let e := { State.reset with thermal := { Thermal.powerOn with assertedRun := 29999, warning := true } }
    let m := { State.reset with thermal := { Thermal.powerOn with t := -3, tTarget := -12, tTimer := 7 } }
    (run .thermalWarningSet s).thermal.tTarget = -12 ∧ (run .thermalClear c).thermal.escalation = false
      ∧ (run .escalationSet e).thermal.escalation = true ∧ (run (.thermalStep false) m).thermal.t = -4 := by decide

/-! ## The part's own steps: the front end -/

/-- A transaction of SET_TUNE and one of IDENTIFY. -/
def setTune : Transaction := { request := .setTune .fm 98100, timer := 1, retried := false }
def identify : Transaction := { request := .identify, timer := 2, retried := false }

theorem test_acknowledgement :
    let s := radio (fun t => { t with openTx := some setTune, phase := .sending }) listening
    let i := radio (fun t => { t with openTx := some identify, identified := false }) listening
    let w := radio (fun t => { t with waiting := some (.fm, 98100) }) i
    listening.tuner.openTx = none ∧ (run (.feAcknowledgement 2 0) s).tuner.phase = .settling
      ∧ run (.feAcknowledgement 1 0) s = s ∧ run (.feAcknowledgement 2 0) i = i
      ∧ (run (.feAcknowledgement 1 7) i).tuner.identity = 7
      ∧ (run (.feAcknowledgement 1 7) w).tuner.ctlSent = some (.setTune .fm 98100)
      ∧ (run (.feAcknowledgement 1 7) w).tuner.controlLine = [2, 0, 0x34, 0x7F, 1, 0] := by decide
theorem test_status_record :
    let s := radio (fun t => { t with state := .tuning, phase := .settling }) listening
    let k := radio (fun t => { t with state := .seeking }) s
    let b := radio (fun t => { t with burst := .short }) s
    (run (.feStatusRecord true 60 0) s).tuner.state = .tuned ∧ (run (.feStatusRecord true 60 0) k).tuner.phase = .dwell
      ∧ run (.feStatusRecord true 60 0) b = b ∧ (run (.feStatusRecord false 61 255) s).tuner.level = 61
      ∧ (run (.feStatusRecord false 61 255) s).tuner.offset = -1 ∧ s.tuner.op = none := by decide
theorem test_burst :
    (run (.feBurst []) State.reset).tuner.burst = .short ∧ (run (.feBurst []) listening).tuner.burst = .short
      ∧ (run (.feBurst (List.replicate 192 (0, 0))) State.reset).tuner.burst = .none
      ∧ (FeRequest.setTune .am 531).bytes = [2, 1, 0x13, 2, 0, 0] ∧ listening.tuner.controlLine = []
      ∧ (run (.feBurst (List.replicate 192 (0, 0))) listening).tuner.burst = .full (List.replicate 192 (0, 0)) := by
  decide
theorem test_ack_timeout :
    let s := radio (fun t => { t with openTx := some setTune, phase := .sending }) listening
    let r := radio (fun t => { t with openTx := some { setTune with retried := true } }) listening
    (run .ackTimeout s).tuner.openTx = some { setTune with timer := 2, retried := true }
      ∧ (run .ackTimeout r).tuner.state = .feFault := by decide
theorem test_status_silence :
    let s := radio (fun t => { t with statusArrived := false, silence := 4 }) listening
    (run .statusSilence s).tuner.state = .feFault ∧ (run .statusSilence s).tuner.identified = false := by decide
theorem test_silence_delivers :
    let s := pathA (fun p => { p with binding := some 2 })
      (radio (fun t => { t with statusArrived := false, silence := 4 }) { listening with sources := table.sources })
    s.tunerPath = some .p0 ∧ (s.path .p0).formatPending = false ∧ s.pathsMade.tunerPath = some .p0
      ∧ s.pathsMade.tuner.state = .tuned ∧ (s.pathsMade.path .p0).fifo.length ≤ 2000
      ∧ (s.pathsMade.path .p0).formatPending = false := by decide
theorem test_settle_limit :
    let s := radio (fun t => { t with state := .tuning, phase := .settling, settleCount := 9 }) listening
    let k := radio (fun t => { t with phase := .settling, settleCount := 9 }) (run (.seek 0 0) listening)
    let k1 := radio (fun t => { t with openTx := none }) k
    (run .settleLimit s).tuner.state = .tuned ∧ k1.tuner.op.map (·.kind) = some .seek
      ∧ (run .settleLimit k1).tuner.freq = 98300
      ∧ (run .settleLimit (radio (fun t => { t with freq := 98000 }) k1)).tuner.state = .tuning := by decide

/-- The last block of a dwell, with 192 baseband pairs of a fair amplitude. -/
def dwelling (c : Instr) (lvl : Nat) : State :=
  radio (fun t => { t with
    phase := .dwell, openTx := none, level := lvl, burst := .full (List.replicate 192 (8192, 0))
    dwell := { blocks := 7, levelSum := 7 * lvl, offsetSum := 0, errors := 0, stereo := true } }) (run c listening)

theorem test_dwell_end_seek :
    (dwelling (.seek 0 0) 60).ampError = false ∧ (run .dwellEnd (dwelling (.seek 0 0) 60)).tuner.state = .tuned
      ∧ (run .dwellEnd (dwelling (.seek 0 0) 29)).tuner.phase = .advance := by decide
theorem test_dwell_end_scan :
    (run .dwellEnd (dwelling (.scan 0 0) 60)).stations
        = [{ band := .fm, freq := 87500, level := 60, stereo := true, label := none }]
      ∧ ((run .dwellEnd (dwelling (.scan 0 0) 29)).tuner.op.map (·.tested)) = some 1 := by decide
theorem test_pilot :
    let s := radio (fun t => { t with inRun := 15 }) listening
    let p := radio (fun t => { t with pilot := .present, missRun := 3 }) listening
    (run (.pilotCapture 640) s).tuner.pilot = .present ∧ (run (.pilotCapture 653) s).tuner.pilot = .present
      ∧ (run (.pilotCapture 639) s).tuner.inRun = 0 ∧ (run (.pilotCapture 654) p).tuner.pilot = .absent
      ∧ (run .pilotTimeout p).tuner.pilot = .absent ∧ run .pilotTimeout State.reset = State.reset := by decide
theorem test_blend_step :
    let s := radio (fun t => { t with pilot := .present, level := 30, blendTimer := 7 }) listening
    (run .blendStep s).tuner.blend = 1 ∧ (run .blendStep s).tuner.blendTarget = 8 := by decide

/-! ## Reports, slots, rings, and the parts of a block -/

theorem test_reports :
    let busy : State := { fullQueue with rep := { fullQueue.rep with queue := eight.queue } }
    ({ rep .thermal 0 with tag := some 7, stamp := 258, payload := [9] } : Report).bytes true
        = [0, 7, 1, 7, 2, 1, 0, 0, 0, 0, 0, 0, 9] ++ List.replicate 19 0
      ∧ (State.reset.raise .sourceAbsent 0 []).link.injq.length = 1 ∧ (fullQueue.raise .zoneState 0 []).rep.queue.length = 1
      ∧ (State.reset.raise .zoneState 0 []).rep.w = 1 ∧ eight.queue.length = 8
      ∧ (busy.raise .format 0 []).rep.overrun = true ∧ State.reset.raiseDone none [1] = State.reset
      ∧ (State.reset.raiseDone (some 3) []).link.injq.length = 1
      ∧ playing.laneReports [2, 3] .loss = (playing.laneReport 2 .loss).laneReport 3 .loss := by decide
theorem test_slot_bytes :
    let u := State.reset.handOver 0x19 1 [2]
    memWf State.reset.cmd.shadow = true ∧ memBytes u.cmd.shadow 1 9 = [0x19, 1, 0, 0, 0, 0, 0, 2, 0]
      ∧ getAt u.cmd.part 0 = true ∧ (0x06 : Nat) ∉ knownOpcodes ∧ 1 < (([2] : List Byte).getD 0 0).toNat
      ∧ argU32 [0, 1, 2, 3, 4, 0, 0, 0, 0, 0] 1 = 0x04030201 ∧ argU16 [0, 1, 2] 1 = 0x0201
      ∧ decodeLabel { labelA with len := 8 } = some (some labelA.chars) ∧ decodeLabel noLabel = some none
      ∧ decodeLabel { labelA with len := 9 } = none ∧ decodeLabel labelA = some (some [65])
      ∧ (labelAt (labelArgBytes labelA) 0) = labelA := by decide
theorem test_slot_runs :
    let x : List Byte := 1 :: List.replicate 55 0
    let y : List Byte := List.replicate 56 0
    State.reset.CommandReady 0x19 ∧ x.length = 56 ∧ y.getD 0 0 = 0
      ∧ run (.zonePowerOn 0) State.reset
          = State.returnCommand (runOpcode 0x19 0 x (State.reset.handOver 0x19 0 [1])) 0x19 0
      ∧ run (.zonePowerStandby 0) State.reset
          = State.returnCommand (runOpcode 0x19 0 y (State.reset.handOver 0x19 0 [0])) 0x19 0 :=
  ⟨test_reset_ready _, rfl, rfl, rfl, rfl⟩

/-- The main zone attaches to the tuner, and then the second zone too. -/
def tuned : State := table.attach .main 2
def shared : State := tuned.attach .zone2 2

theorem test_attach :
    table.boundPath 2 = none ∧ table.owner = none ∧ tuned.owner = some .main ∧ tuned.pathZero.binding = some 2
      ∧ tuned.tuner.state = .tuning ∧ tuned.pathZero.format = some tunerFormat ∧ tuned.boundPath 2 = some .p0
      ∧ shared.zoneTwo.attached = some .p0 ∧ shared.owner = some .main ∧ playing.freePath = .p1 ∧ table.freePath = .p0
      ∧ (playing.attach .zone2 0).zoneTwo.attached = some .p0 ∧ (playing.attach .zone2 0).owner = none
      ∧ (playing.attach .zone2 2).pathOne.binding = some 2 ∧ (playing.attach .zone2 2).bindFirst = .p0 := by decide
theorem test_tell_bound :
    let s := table.setRing 3 (some (Ring.fresh 4))
    (table.source 5).kind = .none ∧ (table.source 0).kind = .laneGroup
      ∧ ((grouped GroupRec.forming id).group 0).map (·.stage) = some .forming
      ∧ (grouped GroupRec.forming id).tellBound .p0 0 = grouped GroupRec.forming id
      ∧ (playing.tellBound .p0 0).pathZero.fifo = playing.pathZero.fifo
      ∧ ((s.attach .main 1).ring 3).bind (·.feeds) = some .p0 ∧ (table.source 1).window = some 3
      ∧ ((pathA (fun p => { p with fifo := [] }) playing).handFormat .p0 tunerFormat).pathZero.formatPending = false
      ∧ (playing.handFormat .p0 { tunerFormat with rate := .r44100 }).pathZero.formatPending = true
      ∧ ((pathA (fun p => { p with format := none }) playing).handFormat .p0
          { tunerFormat with rate := .r44100 }).pathZero.tracker.step0 = some 15414067 := by decide
theorem test_detach :
    let bare := pathA (fun p => { p with binding := some 1 }) (mainZone (fun z => { z with attached := some .p0 }) table)
    (shared.detach .main).owner = some .zone2 ∧ (shared.detach .zone2).owner = some .main
      ∧ (tuned.detach .main).owner = none ∧ (tuned.detach .main).tuner.state = .idle
      ∧ (tuned.detach .main).pathZero = PathRec.free ∧ (playing.detach .main).pathZero = PathRec.free
      ∧ State.reset.detach .main = State.reset ∧ bare.pathKind .p0 = .stream ∧ bare.feeding .p0 = none
      ∧ (bare.detach .main).pathZero = PathRec.free ∧ streaming.feeding .p0 = some 3
      ∧ ((streaming.releasePath .p0).ring 3).map (·.feeds) = some none ∧ State.reset.pathKind .p0 = .none
      ∧ (run (.scan 0 1) listening).tunerIdle.tuner.freq = 98100 ∧ listening.tunerIdle.tuner.band = .fm
      ∧ (run (.seek 0 0) listening).tunerIdle.tuner.freq = 98200 ∧ (playing.enterStandby .main).zoneMain.power = .standby := by
  decide
theorem test_switch_stages :
    let s := mainZone (fun z => { z with target := some 0 }) playing
    let m := mainZone (fun z => { z with mute := true, tag := some 4 }) s
    let w := pathA (fun p => { p with formatPending := true }) s
    playing.endFadeOut .main = playing ∧ (s.endFadeOut .main).zoneMain.switch = .fadeIn
      ∧ (mainZone (fun z => { z with target := some 2 }) playing).boundPath 2 = none
      ∧ ((mainZone (fun z => { z with target := some 2 }) playing).endFadeOut .main).pathZero.binding = some 2
      ∧ (w.startWait .main).zoneMain.switch = .waitReady ∧ (m.startWait .main).zoneMain.switch = .idle
      ∧ (playing.startSwitch .main 0 none).zoneMain.switch = .fadeOut
      ∧ ((mainZone (fun z => { z with ramp := -240 }) playing).startSwitch .main 0 none).zoneMain.switch = .fadeIn := by
  decide
theorem test_taken_parts :
    let s := { State.reset with taken := [.begin, .zone .main] }
    s.begun = s ∧ State.reset.begun.block = 1 ∧ run (.fadeOutEnd .main) s = s ∧ State.reset.tap.binding = none
      ∧ State.reset.tapPart = State.reset ∧ (run (.bindTap 2 0) tapped).tap.binding.isSome = true
      ∧ (run (.outputBlock 0 false) s).taken = [] ∧ (run (.outputBlock 0 false) s).freeIdx = 1 := by decide
theorem test_adoption_block :
    let s := pathA (fun p => { p with formatPending := true, held := some tunerFormat, format := none, fifo := [] })
      (zoned fun z => { z with ramp := -240 })
    (s.path .p0).binding ≠ none ∧ s.attachedSilent .p0 = true ∧ (s.pathBlock .p0).pathZero.adoptedNow = true
      ∧ (s.pathBlock .p0).pathZero.yielded = List.replicate 48 [] ∧ s.zoneMain.attached = some .p0 := by decide

/-- Channel 0 waits for FR in a group. -/
def regrouped : State := run (.assignOutput 0 2) heard
/-- Channel 0 plays FL as a small speaker, and channel 5 is given the role SW. -/
def withSw : State :=
  let small : ChanSettings := { role := .fl, delay := 0, polarity := .normal, size := .small }
  (heard.setChan 0 { heard.chan 0 with applied := small }).givePending 5 { small with role := .sw }
/-- The main zone takes an AV delay of 48. -/
def delayed : State := mainZone (fun z => { z with avDelay := 48 }) heard

theorem test_reconfig :
    heard.chanSilent 0 = false ∧ heard.chanSilent 1 = true ∧ ((heard.markReconfig 0).chan 0).reconfig = true
      ∧ ((heard.markReconfig 1).chan 1).reconfig = false ∧ (regrouped.chan 0).group = some 0
      ∧ regrouped.groupSilent 0 = false ∧ regrouped.groupMembers 1 = [] := by decide
theorem test_merged_group :
    heard.mergedGroup [] = [] ∧ withSw.mergedGroup [5] = [0, 5] ∧ regrouped.mergedGroup [0] = [0] := by decide
theorem test_group_block :
    ((regrouped.groupBlock 0).chan 0).group = some 0
      ∧ (((regrouped.setChan 0 { regrouped.chan 0 with ramp := -240 }).groupBlock 0).chan 0).applied.role = .fr := by
  decide
theorem test_spread_av :
    delayed.avChannels .main = [0] ∧ heard.avChannels .main = [] ∧ delayed.claim 0 = 48 ∧ heard.claim 0 = 0
      ∧ ((delayed.spreadAv .main).chan 0).reconfig = true := by decide
theorem test_apply_channel :
    let r : Channel := { heard.chan 0 with line := [7], crossover := { inputs := [1], lows := [], highs := [] } }
    let s (t : ChanSettings) : State := heard.setChan 0 { r with pend := some t }
    let fl := (heard.chan 0).applied
    (((s fl).applyChannel 0).chan 0).line = [7] ∧ (((s { fl with delay := 2 }).applyChannel 0).chan 0).line = [0, 0]
      ∧ (((s { fl with role := .fr }).applyChannel 0).chan 0).line = []
      ∧ (((s { fl with size := .small }).applyChannel 0).chan 0).crossover = CrossoverState.cleared
      ∧ (((s fl).applyChannel 0).chan 0).crossover = r.crossover := by decide
theorem test_pool_edge :
    let s (n : Nat) : State := heard.setChan 0 { heard.chan 0 with
      applied := { role := .fl, delay := n, polarity := .normal, size := .large } }
    (s 131072).poolFits = true ∧ (s 131073).poolFits = false := by decide
theorem test_tune_ends :
    let s := run (.tune 0 0 1) listening
    let n := radio (fun t => { t with state := .tuning, op := none }) listening
    let k := radio (fun t => { t with state := .tuning }) (run (.seek 0 0) listening)
    (s.tuner.op.map (·.clamped)) = some true ∧ n.endOp .ok 0 0 = n ∧ (s.endTune true).tuner.state = .tuned
      ∧ ((s.endTune true).link.injq.map fun i => (i.write.data.drop 12).take 4) = [[], [0, 1, 0, 3], [0, 2, 0, 0]]
      ∧ ((k.endTune false).link.injq.map fun i => (i.write.data.drop 12).take 4) = [[], [14, 4, 0, 0], [0, 2, 0, 0]]
      ∧ (n.endTune false).tuner.state = .tuned ∧ s.settled = s.endTune false ∧ s.unsettled = s.endTune true
      ∧ (run (.seek 0 0) listening).settled.tuner.phase = .dwell ∧ s.feFault.tuner.op = none
      ∧ s.feFault.tuner.state = .feFault := by decide
theorem test_next_point :
    let s (f : Nat) : State := radio (fun t => { t with freq := f, openTx := none }) (run (.scan 0 0) listening)
    let k (f : Nat) : State := radio (fun t => { t with freq := f, openTx := none }) (run (.seek 0 1) listening)
    let c (n : Nat) : State := radio (fun t => { t with op := t.op.map fun o => { o with tested := n } }) (s 98100)
    (s 108000).nextPoint.tuner.state = .tuning ∧ (s 108000).nextPoint.tuner.freq = 98100
      ∧ (s 107900).nextPoint.tuner.freq = 108000 ∧ (k 87500).nextPoint.tuner.freq = 108000
      ∧ (k 98200).nextPoint.tuner.state = .tuning ∧ (k 98100).nextPoint.tuner.freq = 98000
      ∧ (c 30).countTested.rep.w = (c 30).rep.w ∧ (c 31).countTested.rep.w ≠ (c 31).rep.w
      ∧ (k 98200).countTested = k 98200 ∧ listening.nextPoint = listening ∧ listening.countTested = listening := by decide
theorem test_passes :
    let d (l : Nat) (o : Int) (e : Nat) : Dwell :=
      { blocks := 8, levelSum := 8 * l, offsetSum := 8 * o, errors := e, stereo := false }
    let p (d : Dwell) : Bool := Region.powerOn.passes .fm d
    p (d 30 10 2) = true ∧ p (d 29 10 2) = false ∧ p (d 30 (-10) 2) = true ∧ p (d 30 11 2) = false
      ∧ p (d 30 (-11) 2) = false ∧ p (d 30 0 3) = false
      ∧ ({ d 30 0 0 with offsetSum := -87 } : Dwell).meanOffset = -10 := by decide
theorem test_preset_label :
    let s := runs [.setPreset 39 0 88000 labelA, .setPreset 3 0 88000 noLabel, .setPreset 39 1 531 labelA] listening
    (runs [.setPreset 39 0 88000 labelA] listening).presetLabel .fm 88000 = some [65] ∧ s.presetLabel .fm 88000 = none
      ∧ s.presetLabel .am 531 = some [65] ∧ listening.presetLabel .fm 88000 = none := by decide
theorem test_scan_settles :
    let s (f : Nat) : State := radio (fun t => { t with phase := .settling, settleCount := 9, openTx := none, freq := f })
      (run (.scan 0 0) listening)
    (run .settleLimit (s 87500)).tuner.freq = 87600 ∧ (run .settleLimit (s 87500)).tuner.op.map (·.tested) = some 1
      ∧ (run .settleLimit (s 108000)).tuner.state = .tuning ∧ (run .settleLimit (s 108000)).tuner.freq = 98100 := by decide
theorem test_request_waits :
    let s := radio (fun t => { t with openTx := some setTune, phase := .sending, waiting := some (.am, 531) }) listening
    (run (.feAcknowledgement 2 0) s).tuner.ctlSent = some (.setTune .am 531)
      ∧ (run (.feAcknowledgement 2 0) s).tuner.phase = .sending
      ∧ (run (.feAcknowledgement 2 0) s).tuner.waiting = none := by decide
theorem test_insert_both_bands :
    let list := [{ fmStation with freq := 98100 }, amStation, { amStation with freq := 549 }]
    let grid : Band → Nat
      | .fm => 100
      | .am => 9
    (∀ b, 0 < grid b) ∧ (list.Pairwise fun y z => y.before z = true)
      ∧ (∀ y ∈ list, ∀ z ∈ list, y.adjacentTo (grid y.band) z = false)
      ∧ (insertCandidate 100 { fmStation with freq := 98300 } list).1.length = 4 := by
  refine ⟨fun b => by cases b <;> decide, by decide, by decide, by decide⟩
theorem test_link_reset_meters :
    (metering.mirror.job.map (·.sect)) = some .meters ∧ metering.out.sent.isSome = true
      ∧ ((run .linkReset metering).chan 11).heldBlocks = 2 ∧ (run .linkReset metering).out.sent = none
      ∧ (run .linkReset playing).out = playing.out ∧ (run .linkReset playing).groups = playing.groups := by decide
theorem test_rings :
    let r : Ring := { Ring.fresh 4 with
      slots := [{ SlotRec.fresh with skip := true }, { SlotRec.fresh with skip := true, state := .sealed }
                , SlotRec.fresh, SlotRec.fresh], feeds := some .p0 }
    let full : State := { fullQueue with intakeWait := [(3, 0)] }
    (r.setSlot 3 sealedSlot).slot 3 = sealedSlot ∧ (r.setSlot 4 sealedSlot).slot 4 = SlotRec.fresh
      ∧ r.arrive.unpackPos = 1 ∧ (r.arrive.slot 0).skip = false ∧ (r.arrive.slot 1).skip = true
      ∧ ({ r with feeds := none } : Ring).arrive.unpackPos = 0 ∧ State.reset.placeReturn = State.reset
      ∧ full.placeReturn = full
      ∧ slotWord .flushed true true 300 2 = [0, 5, 3, 0, 44, 1, 2, 0] := by decide
theorem test_flush :
    let r : Ring := { Ring.fresh 4 with
      slots := [sealedSlot, { SlotRec.fresh with skip := true }, sealedSlot, sealedSlot], unpackPos := 2
      feeds := some .p0 }
    let s := streaming.setRing 3 (some r)
    r.unpackPos < r.slots.length ∧ flushList r 4 2 = [2, 3, 0] ∧ flushPos r = 1 ∧ flushPos (Ring.fresh 4) = 0
      ∧ ((s.flushWindow 3).ring 3).map (fun q => (q.slot 1).skip) = some false
      ∧ (s.flushWindow 3).intakeWait = [] ∧ (s.flushWindow 3).link.injq.length = s.link.injq.length + 3
      ∧ ((s.flushWindow 3).ring 3).bind (·.feeds) = some .p0 ∧ table.flushWindow 3 = table
      ∧ (streaming.feedIfNamed 3).rings = streaming.rings ∧ streaming.bindFirst = .p0
      ∧ ((({ streaming with bindFirst := .p1 }).setRing 3 (some { r with feeds := none })).feedIfNamed 3).rings
          = (streaming.setRing 3 (some r)).rings
      ∧ ((table.setRing 3 (some (Ring.fresh 4))).feedIfNamed 3).rings
          = (table.setRing 3 (some (Ring.fresh 4))).rings := by decide
theorem test_lane_silence :
    let s (n : Nat) (a : Bool) : State := lane (fun r => { r with state := .synced, silence := n, arrived := a }) table
    (((s 3 true).laneBlock 2).lane 2).silence = 0 ∧ (((s 2 false).laneBlock 2).lane 2).silence = 3
      ∧ (((s 3 false).laneBlock 2).lane 2).state = .hunt ∧ (s 4 false).laneBlock 2 = s 4 false := by decide
theorem test_path_block :
    let b (s : State) : PathRec := (s.pathBlock .p0).pathZero
    let away (s : State) : State := { s with groups := setAt table.groups 0 (some GroupRec.forming) }
    let hold := fun (t : Tracker) => { t with state := TrackerState.hold }
    (State.reset.pathBlock .p0).pathZero.yieldFormat = none ∧ (b (tracked 960 hold)).tracker.state = .prefill
      ∧ (b (tracked 959 fun t => { t with state := .prefill })).tracker.state = .prefill
      ∧ (b (tracked 960 fun t => { t with state := .prefill })).tracker.state = .acquire
      ∧ (b (away (tracked 960 hold))).tracker.state = .hold ∧ (b (away (tracked 960 id))).tracker.state = .hold
      ∧ (b (pathA (fun p => { p with drained := true }) (away (tracked 0 hold)))).yielded = List.replicate 48 []
      ∧ (b (tracked 960 fun t => { t with timer := 256 })).tracker.timer = 255
      ∧ (b (tracked 960 id)).tracker.gain = 6 ∧ (b (tracked 960 fun t => { t with timer := 1 })).tracker.state = .track
      ∧ (b (tracked 993 fun t => { t with state := .track, slips := 14, gain := 0 })).tracker.slips = 15
      ∧ (b (tracked 992 fun t => { t with state := .track, slips := 14, gain := 0 })).tracker.slips = 0
      ∧ (b (tracked 993 fun t => { t with state := .track, slips := 15, gain := 0 })).tracker.state = .acquire
      ∧ (b (tracked 960 fun t => { t with state := .idle })).fifo.length = 960 := by decide
theorem test_stream_count :
    let s (n : Nat) : State := streaming.setRing 3 (some { Ring.fresh 4 with feeds := some .p0, handoverCount := n })
    (((s 98).countHandover .p0).ring 3).map (·.idle) = some false ∧ table.countHandover .p0 = table
      ∧ (((s 99).countHandover .p0).ring 3).map (·.idle) = some true := by decide
theorem test_tuner_block :
    let s (f : Tuner → Tuner) : State := radio f listening
    let low := s fun t => { t with burst := .full (List.replicate 192 (10, 10)) }
    let fair := s fun t => { t with burst := .full (List.replicate 192 (8192, 0)) }
    low.ampError = true ∧ fair.ampError = false ∧ low.tunerBlock.tuner.ampHistory = [true]
      ∧ State.reset.tunerBlock.tuner.ampHistory = [] ∧ listening.silenceBlock.tuner.silence = 0
      ∧ (s fun t => { t with statusArrived := false, silence := 3 }).silenceBlock.tuner.silence = 4
      ∧ (s fun t => { t with statusArrived := false, silence := 4 }).silenceBlock.tuner.state = .feFault
      ∧ listening.ackBlock = listening
      ∧ (s fun t => { t with openTx := some identify }).ackBlock.tuner.openTx.map (·.timer) = some 1
      ∧ (s fun t => { t with openTx := some setTune }).ackBlock.tuner.openTx.map (·.retried) = some true
      ∧ (s fun t => { t with openTx := some { setTune with retried := true } }).ackBlock.tuner.state = .feFault
      ∧ listening.phaseBlock = listening
      ∧ (s fun t => { t with phase := .settling, settleCount := 8 }).phaseBlock.tuner.settleCount = 9
      ∧ (s fun t => { t with state := .tuning, phase := .settling, settleCount := 9 }).phaseBlock.tuner.state = .tuned
      ∧ (radio (fun t => { t with dwell := { t.dwell with blocks := 6 } })
          (dwelling (.seek 0 0) 60)).phaseBlock.tuner.phase = .dwell
      ∧ (radio (fun t => { t with phase := .advance }) (dwelling (.seek 0 0) 29)).phaseBlock.tuner.freq = 98300
      ∧ listening.deliverFrames = listening ∧ State.reset.deliverFrames = State.reset
      ∧ (s fun t => { t with blendTimer := 6 }).blendBlock.tuner.blendTimer = 7
      ∧ State.reset.blendBlock.tuner.blendTimer = 0 := by decide
theorem test_zone_parts :
    let s := zoned fun z => { z with target := some 0 }
    let sw (x : SwitchState) (f : ZoneRec → ZoneRec) : State := (mainZone (fun z => f { z with switch := x }) s)
    let b (s : State) : ZoneRec := (s.switchBlock .main).zoneMain
    let far (s : State) : State := pathA (fun p => { p with formatPending := true }) s
    (playing.zoneBlock .main).zoneMain.ramp = 0 ∧ ((far playing).zoneBlock .main).zoneMain.ramp = -8
      ∧ s.switchBlock .main = s ∧ (b (sw .fadeOut id)).switch = .fadeOut
      ∧ (b (sw .fadeOut fun z => { z with ramp := -240 })).switch = .fadeIn ∧ (b (sw .waitReady id)).switch = .fadeIn
      ∧ (b (sw .waitReady fun z => { z with mute := true })).switch = .idle
      ∧ (b (far (sw .waitReady fun z => { z with waitCount := 1998 }))).waitCount = 1999
      ∧ (b (far (sw .waitReady fun z => { z with waitCount := 1999 }))).waitCount = 2000
      ∧ (b (far (sw .waitReady fun z => { z with waitCount := 2000 }))).waitCount = 2000
      ∧ (b (sw .fadeIn id)).switch = .idle ∧ (b (sw .fadeIn fun z => { z with ramp := -1 })).switch = .fadeIn
      ∧ playing.standbyIfSilent .main = playing ∧ playing.sleepBlock .main = playing
      ∧ ((zoned fun z => { z with power := .goingStandby, ramp := -240 }).standbyIfSilent .main).zoneMain.power = .standby
      ∧ ((zoned fun z => { z with sleep := 1, minute := 2 }).sleepBlock .main).zoneMain.minute = 1
      ∧ ((zoned fun z => { z with sleep := 2, minute := 1 }).sleepBlock .main).zoneMain.minute = 60000
      ∧ ((zoned fun z => { z with sleep := 1, minute := 1 }).sleepBlock .main).zoneMain.power = .goingStandby
      ∧ ((zoned fun z => { z with sleep := 1, minute := 1, ramp := -240 }).sleepBlock .main).zoneMain.power
          = .standby := by decide
theorem test_thermal_block :
    let s (f : Thermal → Thermal) : State := { State.reset with thermal := f Thermal.powerOn }
    let t (f : Thermal → Thermal) (line : Bool) : Thermal := ((s f).thermalBlock line).thermal
    (t id true).assertedRun = 1 ∧ (t (fun r => { r with assertedRun := 99 }) true).tTarget = -12
      ∧ (t (fun r => { r with assertedRun := 99 }) false).warning = false
      ∧ (t (fun r => { r with deassertedRun := 5999, warning := true, tTarget := -12 }) false).tTarget = 0
      ∧ (t (fun r => { r with assertedRun := 29999 }) true).escalation = true
      ∧ (t (fun r => { r with tTarget := -12, tTimer := 7 }) true).t = -1
      ∧ (t (fun r => { r with tTarget := -12, tTimer := 6 }) true).tTimer = 7 := by decide
theorem test_ramp_block :
    let b (f : Channel → Channel) : Channel := ((State.reset.setChan 0 (f Channel.powerOn)).rampBlock 0).chan 0
    (b fun c => { c with reconfig := true }).ramp = -8 ∧ (b fun c => { c with ramp := -9 }).ramp = -1
      ∧ (b fun c => { c with protect := true, ramp := -236 }).ramp = -240
      ∧ (b fun c => { c with softStart := true, softCount := 2 }).softCount = 2
      ∧ (b fun c => { c with softStart := true, softCount := 2, ramp := -1 }).softCount = 3
      ∧ (b fun c => { c with softStart := true, softCount := 3, ramp := -1 }).ramp = 0
      ∧ moveToward 0 8 (-3) = 0 ∧ moveToward (-240) 8 (-236) = -240 := by decide
theorem test_pair_part :
    let b (p : Pair) (line : Bool) : Pair := ((State.reset.setPair 5 p).pairPart 5 line).pair 5
    let q : Pair := Pair.powerOn
    (b { q with asserted := 3 } true).state = .protect ∧ (b { q with asserted := 2 } true).asserted = 3
      ∧ (b { q with state := .softStart, asserted := 3 } true).state = .protect ∧ (b { q with asserted := 2 } false).asserted = 0
      ∧ (b { q with state := .protect } true).state = .protect ∧ (b { q with state := .protect } false).clear = 500
      ∧ (b { q with state := .recoverWait, clear := 2 } true).state = .protect
      ∧ (b { q with state := .recoverWait, clear := 2 } false).clear = 1
      ∧ (b { q with state := .recoverWait, clear := 1, used := 2 } false).state = .softStart
      ∧ (b { q with state := .recoverWait, clear := 1, used := 3 } false).state = .lockout
      ∧ (b { q with state := .lockout } true).state = .lockout
      ∧ (setLine 0 5 true).getLsbD 5 = true ∧ State.reset.softStartBlock 5 = State.reset
      ∧ (((State.reset.setPair 5 { q with state := .softStart }).mapPair 5 fun c => { c with softStart := true }).softStartBlock
          5).pair 5 = { q with normalRun := 0 } := by decide
theorem test_meter_part :
    let s := { mirrored with mirror := { mirrored.mirror with metersOn := true } }
    (s.meterBlock).out.meterPeriod = 1
      ∧ getAt ({ s with out := { s.out with meterPeriod := 99 } }.meterBlock).mirror.counts 0 = 1
      ∧ ({ mirrored with out := { mirrored.out with meterPeriod := 99 } }.meterBlock).mirror.job = none := by decide

/-! ## The gain arithmetic: figures of chapters 6 and 9 -/

theorem test_minus6 : minus6 150000 = 106066 := by decide
theorem test_nominal_steps : nominalStep .r44100 = 15414067 ∧ nominalStep .r48000 = 16777216 := by decide

end Sys2Proof.Tests
end

