-- ==== Sys2Proof/Proofs/Link.lean ====
section
/-! SUPPORT. The pass-through port and the M-side arbiter (R1, R2, R8 to R13): when acceptance is held, what accepting and
counting the overlap leave, and the statements about the link. -/

namespace Sys2Proof.Machine

open Sys2Proof

/-! ## Tables -/

/-- Every entry of a table of one value is that value. -/
@[simp] theorem getAt_replicate {α : Type} {n : Nat} (x : α) (i : Fin n) : getAt (Vector.replicate n x) i = x := by
  simp [getAt]

/-! ## Acceptance and holds (R2, R11, R12) -/

/-- What holds acceptance: a starvation hold that is due or runs, or the overlap rule (R2). -/
theorem State.acceptHeld_iff (s : State) :
    s.acceptHeld = true
      ↔ (32 ≤ s.link.forwardCount ∧ s.link.injq ≠ []) ∨ 0 < s.link.starve ∨ 0 < s.link.overlapLeft := by
  simp [State.acceptHeld, State.starvationDue, or_assoc]

/-- Nothing holds acceptance. -/
theorem State.acceptHeld_eq_false (s : State) (hf : s.link.forwardCount < 32 ∨ s.link.injq = [])
    (hs : s.link.starve = 0) (ho : s.link.overlapLeft = 0) : s.acceptHeld = false := by
  rw [Bool.eq_false_iff, ne_eq, s.acceptHeld_iff]
  rintro (⟨h32, hq⟩ | h | h)
  · exact hf.elim (fun h => absurd h32 (by omega)) hq
  · omega
  · omega

/-- The longest waiting request is accepted when nothing holds it (R2). -/
theorem State.acceptWaiting_takes (u : State) (q : Request) (qs : List Request) (hn : u.link.slot = none)
    (hw : u.link.waiting = q :: qs) (ho : u.link.overlapLeft = 0) (hs : u.link.starve = 0)
    (hf : u.link.forwardCount < 32 ∨ u.link.injq = []) :
    u.acceptWaiting = { u with link := { u.link with waiting := qs, slot := some q } } := by
  simp [State.acceptWaiting, hn, hw, u.acceptHeld_eq_false hf hs ho]

/-- Nothing is accepted behind an accepted request, with none waiting, or while the P side is held (R2). -/
theorem State.acceptWaiting_keeps (u : State)
    (h : u.link.slot ≠ none ∨ u.link.waiting = [] ∨ 0 < u.link.overlapLeft ∨ 0 < u.link.starve
      ∨ (32 ≤ u.link.forwardCount ∧ u.link.injq ≠ [])) : u.acceptWaiting = u := by
  unfold State.acceptWaiting
  split
  · rfl
  next hc =>
    rw [Bool.or_eq_true, u.acceptHeld_iff, Option.isSome_iff_ne_none] at hc
    have hw : u.link.waiting = [] := by tauto
    simp [hw]

/-- Presenting a request: it joins the waiting ones, and with none before it the overlap rule looks at the queue (R12). -/
theorem State.presentRequest_eq (s : State) (r : Request) :
    s.presentRequest r = State.acceptWaiting { s with link := { s.link with
      waiting := s.link.waiting ++ [r]
      overlapLeft := if s.link.slot = none ∧ s.link.waiting = [] then overlapCount r s.link.injq
        else s.link.overlapLeft } } := by
  unfold State.presentRequest
  by_cases h : s.link.slot = none ∧ s.link.waiting = []
  · simp [h, State.countOverlap]
  · simp [h]

/-- A request meets a queued write when their address ranges meet (R12, log 11). -/
theorem overlapsWrite_iff (r : Request) (i : Injected) :
    overlapsWrite r i = true ↔ r.addr < i.write.addr + i.write.data.length ∧ i.write.addr < r.addr + r.len := by
  simp [overlapsWrite]

/-- No write is to issue before a request that overlaps none. -/
theorem overlapCount_none (r : Request) (is : List Injected) (h : ∀ i ∈ is, overlapsWrite r i = false) :
    overlapCount r is = 0 := by
  induction is with
  | nil => rfl
  | cons i is ih => simp [overlapCount, ih fun x hx => h x (List.mem_cons_of_mem _ hx), h i List.mem_cons_self]

/-- The writes up to and including the last that a request overlaps are to issue before it (R12). -/
theorem overlapCount_last (r : Request) (a b : List Injected) (i : Injected) (hi : overlapsWrite r i = true)
    (hb : ∀ x ∈ b, overlapsWrite r x = false) : overlapCount r (a ++ i :: b) = a.length + 1 := by
  induction a with
  | nil => simp [overlapCount, overlapCount_none r b hb, hi]
  | cons x a ih => simp [overlapCount, ih]

/-- Settles O9: presenting a request is counting its overlap and accepting, each of which a lemma above spells. -/
theorem requestIsAccepted : Obligations.RequestIsAccepted := by
  refine ⟨?_, ?_, ?_, fun i a n => overlapsWrite_iff _ i, fun i w => overlapsWrite_iff _ i, overlapCount_none,
    overlapCount_last⟩
  · intro s r q qs hr hn hs hf ho hw
    have hov : (if s.link.slot = none ∧ s.link.waiting = [] then overlapCount r s.link.injq
        else s.link.overlapLeft) = 0 := by simpa [hn] using ho
    show (if r.wf then Host.Outcome.next (s.presentRequest r) else _) = _
    rw [if_pos hr, s.presentRequest_eq, hov, State.acceptWaiting_takes _ q qs]
    exacts [hn, hw, rfl, hs, hf]
  · intro s r hr n hheld
    show (if r.wf then Host.Outcome.next (s.presentRequest r) else _) = _
    rw [if_pos hr, s.presentRequest_eq, State.acceptWaiting_keeps]
    show s.link.slot ≠ none ∨ s.link.waiting ++ [r] = [] ∨ 0 < n ∨ _
    tauto
  · intro s r hr
    show (if r.wf then Host.Outcome.next (s.presentRequest r) else _) = _
    rw [if_neg (by simp [hr])]

/-! ## Forwarding (R1, R11) -/

/-- The request that is next to be forwarded has its overlap counted (R12). -/
theorem State.countOverlap_cons (u : State) (q : Request) (qs : List Request) (h : u.link.waiting = q :: qs) :
    u.countOverlap = { u with link := { u.link with overlapLeft := overlapCount q u.link.injq } } := by
  simp [State.countOverlap, h]

/-- With no request waiting there is none to count for. -/
theorem State.countOverlap_nil (u : State) (h : u.link.waiting = []) : u.countOverlap = u := by
  simp [State.countOverlap, h]

/-- Settles O10: each row's cases, with the accepting and counting that RequestIsAccepted rests on. -/
theorem requestIsForwarded : Obligations.RequestIsForwarded := by
  refine ⟨?_, State.countOverlap_cons, State.countOverlap_nil, State.acceptWaiting_takes, State.acceptWaiting_keeps,
    fun _ _ _ => rfl, ?_, ?_, ?_, ?_⟩
  · intro s r hr ho hs hf
    have hm : s.mayForward = true := by simp [State.mayForward, s.acceptHeld_eq_false hf hs ho]
    show Host.Outcome.next (match s.link.slot with | none => s | some r => _) = _
    rw [hr]
    simp [hm, State.putForward, List.isEmpty_iff]
  · intro u w hw
    simp [State.observeRequest, State.observe, hw]
  · intro s h
    show Host.Outcome.next (match s.link.slot with | none => s | some r => _) = _
    cases hr : s.link.slot with
    | none => rfl
    | some r =>
      have hm : s.mayForward = false := by
        rw [State.mayForward, Bool.not_eq_false', s.acceptHeld_iff]
        rw [hr] at h
        simp only [reduceCtorEq, or_false] at h
        tauto
      simp [hm]
  · intro s h32 hq hs
    show Host.Outcome.next (if s.starvationDue && decide (s.link.starve = 0) then _ else s) = _
    rw [if_pos (by simp [State.starvationDue, h32, hq, hs])]
  · intro s data x rest hx
    show Host.Outcome.next (match s.link.inFlight with | [] => s | x :: rest => _) = _
    rw [hx]
    cases x <;> rfl

/-! ## Issuing (R10 to R13) -/

/-- The arbiter may issue while a starvation hold runs, and, with none due, when no request is accepted or the overlap
rule asks for it (R11, R12). -/
theorem State.mayIssue_of (s : State)
    (h : 0 < s.link.starve ∨ (s.link.forwardCount < 32 ∧ (s.link.slot = none ∨ 0 < s.link.overlapLeft))) :
    s.mayIssue = true := by
  rcases h with h | ⟨hf, h⟩
  · simp [State.mayIssue, h]
  · have hd : ¬ 32 ≤ s.link.forwardCount := by omega
    simp [State.mayIssue, State.starvationDue, hd, h]

/-- Settles O11: issuing puts the head on the M side, and the counts are those of R11 and R12. -/
theorem headIsIssued : Obligations.HeadIsIssued := by
  refine ⟨?_, fun _ _ => rfl, fun _ _ => rfl⟩
  intro s i rest hq h
  show Host.Outcome.next (match s.link.injq with | [] => s | i :: rest => _) = _
  rw [hq]
  simp [s.mayIssue_of h, State.putInjected, Link.afterIssue, List.isEmpty_iff]

end Sys2Proof.Machine
end

