-- ==== Sys2Proof/Proofs/Reports.lean ====
section
/-! SUPPORT. The report unit (R19 to R22): when a report is written and when it joins the pending ones, what a full pending
queue makes of it, and the statements about reports. -/

namespace Sys2Proof.Machine

open Sys2Proof

/-! ## Writing and pending (R19) -/

/-- Entry w is free and the queue has a place (R19). -/
theorem State.canWriteReport_iff (s : State) :
    s.canWriteReport = true ↔ getAt s.rep.entryHost s.rep.w = false ∧ s.link.injq.length < 16 := by
  simp [State.canWriteReport, State.room]

/-- A report that arises with nothing pending is written when it can be (R19). -/
theorem State.post_writes (s : State) (r : Report) (hq : s.rep.queue = [])
    (hf : getAt s.rep.entryHost s.rep.w = false ∧ s.link.injq.length < 16) : s.post r = s.writeReport r :=
  if_pos ⟨hq, s.canWriteReport_iff.mpr hf⟩

/-- A report that arises with others pending, or with no entry or place free, goes to the pending queue (R19, R21). -/
theorem State.post_pends (s : State) (r : Report)
    (h : s.rep.queue ≠ [] ∨ ¬ (getAt s.rep.entryHost s.rep.w = false ∧ s.link.injq.length < 16)) :
    s.post r = { s with rep := s.rep.pend r } := by
  apply if_neg
  rw [s.canWriteReport_iff]
  tauto

/-- With fewer than 7 reports pending a report joins them (R21). -/
theorem ReportUnit.pend_joins (u : ReportUnit) (r : Report) (h : u.queue.length < 7) :
    u.pend r = { u with queue := u.queue ++ [r] } := if_pos h

/-- The report that makes the pending ones 8 joins them, and one RADIO_STATE stays (R144, log 43). -/
theorem ReportUnit.pend_fills (u : ReportUnit) (r : Report) (h : u.queue.length = 7) :
    u.pend r = { u with queue := oneRadio (u.queue ++ [r]) } := by
  rw [ReportUnit.pend, if_neg (by omega), if_pos (by omega)]

/-- The 32 bytes of a report entry, field by field (11.3). -/
theorem Report.bytes_eq (r : Report) (overrun : Bool) :
    r.bytes overrun = [0, BitVec.ofNat 8 r.kind.code, if overrun = true then 1 else 0,
        match r.tag with
          | none => 0xFF
          | some t => BitVec.ofNat 8 t]
      ++ leBytes 4 r.stamp.toNat ++ [0, 0, 0, 0] ++ r.payload ++ List.replicate (20 - r.payload.length) 0 := by
  cases ht : r.tag <;> simp [Report.bytes, ht, optByte, flagByte, padTo, leBytes]

/-- The tuner owner byte of a ZONE_STATE (R88). -/
theorem State.flagByte_ownsTuner (s : State) (z : Zone) :
    flagByte (s.ownsTuner z) = if s.owner = some z then 1 else 0 := by
  simp [flagByte, State.ownsTuner]

/-- Settles O12: the bytes of an entry, the three ways a report arises, and the payloads, which are the model's by name. -/
theorem reportsAreWritten : Obligations.ReportsAreWritten := by
  refine ⟨fun r overrun _ => r.bytes_eq overrun, fun k => by cases k <;> rfl, fun _ _ _ _ => rfl,
    fun _ _ => ⟨rfl, fun _ => rfl⟩, ?_, ?_, fun _ _ _ => rfl, fun _ _ _ _ => ⟨rfl, rfl⟩, fun _ _ => rfl,
    fun _ => rfl, rfl⟩
  · intro s r free
    refine ⟨fun hq hf => s.post_writes r hq hf, fun h h7 => ?_, fun h _ => s.post_pends r h⟩
    rw [s.post_pends r h, s.rep.pend_joins r h7]
  · intro s z r
    refine ⟨?_, fun _ => rfl⟩
    rw [State.zoneReport, s.flagByte_ownsTuner]

/-- With none pending, or with no entry or place free, the report unit writes nothing (R19). -/
theorem State.writePending_keeps (s : State)
    (h : s.rep.queue = [] ∨ getAt s.rep.entryHost s.rep.w = true ∨ 16 ≤ s.link.injq.length) : s.writePending = s := by
  unfold State.writePending
  split
  · rfl
  next r rs hq =>
    apply if_neg
    rw [s.canWriteReport_iff]
    rintro ⟨hf, hl⟩
    rcases h with h | h | h
    · simp [h] at hq
    · simp [hf] at h
    · omega

/-- The oldest pending report is written when it can be (R19). -/
theorem State.writePending_writes (s : State) (r : Report) (rs : List Report) (hq : s.rep.queue = r :: rs)
    (hf : getAt s.rep.entryHost s.rep.w = false ∧ s.link.injq.length < 16) :
    s.writePending = { s with rep := { s.rep with queue := rs } }.writeReport r := by
  simp [State.writePending, hq, s.canWriteReport_iff.mpr hf]

/-- Settles O13: both rows are the writing of the oldest pending report. -/
theorem pendingReportIsWritten : Obligations.PendingReportIsWritten := by
  refine ⟨fun s r rs hq he hl => ?_, fun s h => ?_⟩
  · exact ⟨_, rfl, rfl, s.writePending_writes r rs hq ⟨he, hl⟩⟩
  · exact congrArg Host.Outcome.next (s.writePending_keeps h)

/-! ## A full pending queue (R21, R22, R144) -/

/-- The first report of the kind and unit is replaced in its place. -/
theorem replaceSame_first (r q : Report) (a b : List Report) (ha : ∀ x ∈ a, ¬ (x.kind = r.kind ∧ x.unit = r.unit))
    (hk : q.kind = r.kind) (hu : q.unit = r.unit) : replaceSame r (a ++ q :: b) = some (a ++ r :: b) := by
  induction a with
  | nil => simp [replaceSame, hk, hu]
  | cons x a ih =>
    have hx := ha x List.mem_cons_self
    have hih := ih fun y hy => ha y (List.mem_cons_of_mem _ hy)
    simp only [List.cons_append, replaceSame, if_neg hx, hih, Option.map_some]

/-- With no report of the kind and unit none is replaced. -/
theorem replaceSame_none (r : Report) (qs : List Report) (h : ∀ x ∈ qs, ¬ (x.kind = r.kind ∧ x.unit = r.unit)) :
    replaceSame r qs = none := by
  induction qs with
  | nil => rfl
  | cons x qs ih =>
    have hx := h x List.mem_cons_self
    simp only [replaceSame, if_neg hx, ih fun y hy => h y (List.mem_cons_of_mem _ hy), Option.map_none]

/-- The first report that is no completion is dropped. -/
theorem dropNonDone_first (q : Report) (a b : List Report) (ha : ∀ x ∈ a, x.kind = .commandDone)
    (hq : q.kind ≠ .commandDone) : dropNonDone (a ++ q :: b) = some (a ++ b) := by
  induction a with
  | nil => simp [dropNonDone, hq]
  | cons x a ih =>
    have hih := ih fun y hy => ha y (List.mem_cons_of_mem _ hy)
    simp only [List.cons_append, dropNonDone, if_pos (ha x List.mem_cons_self), hih, Option.map_some]

/-- Of completions none is dropped. -/
theorem dropNonDone_none (qs : List Report) (h : ∀ x ∈ qs, x.kind = .commandDone) : dropNonDone qs = none := by
  induction qs with
  | nil => rfl
  | cons x qs ih =>
    simp only [dropNonDone, if_pos (h x List.mem_cons_self), ih fun y hy => h y (List.mem_cons_of_mem _ hy),
      Option.map_none]

/-- A queue with no RADIO_STATE stays as it is. -/
theorem oneRadio_none (qs : List Report) (h : ∀ x ∈ qs, x.kind ≠ .radioState) : oneRadio qs = qs := by
  induction qs with
  | nil => rfl
  | cons x qs ih =>
    have hx := h x List.mem_cons_self
    simp [oneRadio, hx, ih fun y hy => h y (List.mem_cons_of_mem _ hy)]

/-- Of the RADIO_STATE reports the newest stays, in its place, and the others stay too (R144). -/
theorem oneRadio_newest (q : Report) (a b : List Report) (hq : q.kind = .radioState)
    (hb : ∀ x ∈ b, x.kind ≠ .radioState) :
    oneRadio (a ++ q :: b) = a.filter (fun x => decide (x.kind ≠ .radioState)) ++ q :: b := by
  induction a with
  | nil =>
    have hany : (b.any fun x => decide (x.kind = .radioState)) = false := by simpa using hb
    simp [oneRadio, hany, oneRadio_none b hb]
  | cons x a ih =>
    by_cases hx : x.kind = .radioState <;> simp [oneRadio, hx, hq, ih]

/-- A state report in a queue of 8 replaces the pending one of its kind and unit (R21). -/
theorem ReportUnit.pend_replaces (u : ReportUnit) (r : Report) (qs : List Report) (h : u.queue.length = 8)
    (hs : r.kind.isState = true) (hr : replaceNewestSame r u.queue = some qs) : u.pend r = { u with queue := qs } := by
  simp [ReportUnit.pend, h, hs, hr]

/-- A state report in a queue of 8 that has none of its kind and unit is dropped (R21, R22). -/
theorem ReportUnit.pend_drops_state (u : ReportUnit) (r : Report) (h : u.queue.length = 8)
    (hs : r.kind.isState = true) (hr : replaceNewestSame r u.queue = none) : u.pend r = { u with overrun := true } := by
  simp [ReportUnit.pend, h, hs, hr]

/-- A completion in a queue of 8 displaces the newest report that is none (R21, R22). -/
theorem ReportUnit.pend_displaces (u : ReportUnit) (r : Report) (qs : List Report) (h : u.queue.length = 8)
    (hk : r.kind = .commandDone) (hd : dropNewestNonDone u.queue = some qs) :
    u.pend r = { u with queue := qs ++ [r], overrun := true } := by
  simp [ReportUnit.pend, h, hk, ReportKind.isState, hd]

/-- A completion in a queue of 8 completions is dropped (R21, R22). -/
theorem ReportUnit.pend_drops_done (u : ReportUnit) (r : Report) (h : u.queue.length = 8)
    (hk : r.kind = .commandDone) (hd : dropNewestNonDone u.queue = none) : u.pend r = { u with overrun := true } := by
  simp [ReportUnit.pend, h, hk, ReportKind.isState, hd]

/-- Any other report in a queue of 8 is dropped (R21, R22). -/
theorem ReportUnit.pend_drops_other (u : ReportUnit) (r : Report) (h : u.queue.length = 8)
    (hs : r.kind.isState = false) (hk : r.kind ≠ .commandDone) : u.pend r = { u with overrun := true } := by
  simp [ReportUnit.pend, h, hs, hk]

/-- Settles O14: the full queue by the kind of the report, each case read off the reversed queue, and the join that fills
it. -/
theorem fullPendingQueue : Obligations.FullPendingQueue := by
  refine ⟨fun u r h => ⟨?_, ?_, ?_, ?_, ?_⟩, fun u r h => ⟨?_, ?_⟩⟩
  · intro hs a b q hq hk hu hb
    have hr : replaceNewestSame r u.queue = some (a ++ r :: b) := by
      simp [replaceNewestSame, hq, replaceSame_first r q b.reverse a.reverse (by simpa using hb) hk hu]
    exact u.pend_replaces r _ h hs hr
  · intro hs hn
    have hr : replaceNewestSame r u.queue = none := by
      rw [replaceNewestSame, replaceSame_none r _ fun x hx => hn x (List.mem_reverse.mp hx), Option.map_none]
    exact u.pend_drops_state r h hs hr
  · intro hk a b q hq hn hb
    have hd : dropNewestNonDone u.queue = some (a ++ b) := by
      simp [dropNewestNonDone, hq, dropNonDone_first q b.reverse a.reverse (by simpa using hb) hn]
    exact u.pend_displaces r _ h hk hd
  · intro hk hall
    have hd : dropNewestNonDone u.queue = none := by
      rw [dropNewestNonDone, dropNonDone_none _ fun x hx => hall x (List.mem_reverse.mp hx), Option.map_none]
    exact u.pend_drops_done r h hk hd
  · exact u.pend_drops_other r h
  · intro hn
    rw [u.pend_fills r h, oneRadio_none _ hn]
  · intro a b q hq hk hb
    rw [u.pend_fills r h, hq, oneRadio_newest q a b hk hb]

end Sys2Proof.Machine
end

