-- ==== Sys2Proof/Proofs/Resets.lean ====
section
/-! SUPPORT. Power-on (R26) and what it leaves. -/

namespace Sys2Proof.Machine

open Sys2Proof

/-- Window 0 is the anchor at power-on (R3). -/
theorem windowsPowerOn_zero (a : BitVec 4) : getAt (windowsPowerOn a) 0 = .anchor (a.toNat * 16777216) := by
  simp [windowsPowerOn, getAt]

/-- Every other window is FREE at power-on (R4). -/
theorem windowsPowerOn_other (a : BitVec 4) (i : Fin 16) (h : i ≠ 0) : getAt (windowsPowerOn a) i = .free := by
  have h0 : (0 : Fin 16).val ≠ i.val := fun he => h (Fin.ext he.symm)
  simp at h0
  simp [windowsPowerOn, getAt, h0]

/-- Settles O6: the state of R26, field by field. -/
theorem powerOnMemoryPath : Obligations.PowerOnMemoryPath := by
  intro a s
  refine ⟨_, rfl, rfl, windowsPowerOn_zero a, windowsPowerOn_other a, rfl, rfl, rfl, rfl, rfl,
    getAt_replicate false, fun _ => rfl, rfl, rfl, getAt_replicate false, rfl, rfl, ?_, getAt_replicate 0, rfl, rfl⟩
  have hline : (State.powerOn a).notifyLine = false := by
    simp [State.notifyLine, State.powerOn, ReportUnit.powerOn]
  exact hline

/-- The part after reset meets the memory path's invariant. -/
theorem reset_memoryInv : State.reset.MemoryInv where
  shadow := rfl
  injq := Nat.zero_le _
  pending := Nat.zero_le _
  radio := fun h => by cases h
  forward := Nat.zero_le _
  slot := fun _ => rfl
  anchor := windowsPowerOn_zero 0

/-- Every channel after reset has its power-on record. -/
theorem chan_reset (c : Fin 12) : State.reset.chan c = Channel.powerOn := getAt_replicate _ c

/-- Every source entry after reset has its power-on record. -/
theorem source_reset (e : Fin 12) : State.reset.source e = SourceEntry.powerOn := getAt_replicate _ e

/-- The part after reset meets the level invariant. -/
theorem reset_levelInv : State.reset.LevelInv where
  zones := fun z => by cases z <;> constructor <;> decide
  trims := fun e => by rw [source_reset]; decide
  channels := fun c => by rw [chan_reset]; constructor <;> decide
  thermalLow := by decide
  thermalHigh := by decide
  target := .inr rfl

/-- The part after reset meets the tracker invariant. -/
theorem reset_trackerInv : State.reset.TrackerInv where
  trackers := fun p => by cases p <;> exact Tracker.free_boundsOk
  entries := fun e => by rw [source_reset]; decide

/-- The part after reset meets the roles invariant: no channel has a role but UNUSED. -/
theorem reset_rolesInv : State.reset.RolesInv where
  targets := fun c d _ _ => by rw [chan_reset]; exact .inr rfl
  applied := fun c d _ _ => by rw [chan_reset]; exact .inr rfl
  waiting := fun c d _ _ => by rw [chan_reset]; exact .inl (.inr rfl)

/-- Settles O5: the four invariants of the power-on records. -/
theorem resetMeetsInvariants : Obligations.ResetMeetsInvariants :=
  ⟨reset_memoryInv, reset_levelInv, reset_trackerInv, reset_rolesInv⟩

end Sys2Proof.Machine
end

