-- ==== Sys2Proof/Proofs/Command.lean ====
section
/-! SUPPORT. The command unit (R14 to R16): a row of the command ring is the handover and the taking of its command (log 5),
the bytes a slot holds (R197, R198), and the statements about the command ring. -/

namespace Sys2Proof.Machine

open Sys2Proof

/-! ## Rows of the command ring (log 5) -/

/-- Whether a row can be this step does not depend on the other commands that wait. -/
theorem State.commandReady_pending (s : State) (rest : List Instr) (op : Nat) :
    ({ s with pending := rest } : State).CommandReady op ↔ s.CommandReady op := Iff.rfl

/-- A row that is ready, and whose command leaves `f` of the handed-over state with a result, is answered with it. -/
theorem State.runHost_answered {s : State} {n : Nat} {op target : Byte} {args : List Byte} {cmd : State → CmdOut}
    {res : CmdResult} {val : Int} (f : State → State) (h : s.CommandReady n) (hop : BitVec.ofNat 8 n = op)
    (hc : cmd (s.handOver op target args) = { st := f (s.handOver op target args), res := res, val := val }) :
    s.runHost n target args cmd = s.answered op target args res val f := by
  subst hop
  rw [s.runHost_ready n target args cmd h, hc]
  rfl

/-- While slot next is ready no section that a SNAPSHOT asked for is being placed. -/
theorem State.CommandReady.snapshotPlacing {s : State} {op : Nat} (h : s.CommandReady op) :
    s.snapshotPlacing = false := by
  obtain ⟨-, -, -, -, hj⟩ := h
  cases hjob : s.mirror.job with
  | none => simp [State.snapshotPlacing, hjob]
  | some j => simp [State.snapshotPlacing, hjob, (hj j hjob).1]

/-- While slot next is ready UNBIND_TAP is not in progress. -/
theorem State.CommandReady.unbinding {s : State} {op : Nat} (h : s.CommandReady op) : s.tap.unbinding = false := by
  obtain ⟨-, -, -, hunbinding, -⟩ := h
  exact hunbinding

/-- The answer of a command that changes nothing enters the queue when there is a place (R15, R16). -/
theorem State.answeredOnly_room {s : State} {n : Nat} (op target : Byte) (args : List Byte) (res : CmdResult) (val : Int)
    (h : s.CommandReady n) (hl : s.link.injq.length < 16) :
    s.answeredOnly op target args res val
      = { s with
          link := { s.link with injq := s.link.injq ++ [s.returnWrite op target res val] }
          cmd := { (s.handOver op target args).cmd with ret := none, next := next64 s.cmd.next } } :=
  State.returnCommand_room { st := s.handOver op target args, res := res, val := val } op target hl h.snapshotPlacing
    h.unbinding

/-- The answer of a command that changes nothing waits when the queue is full (R15). -/
theorem State.answeredOnly_full {s : State} (op target : Byte) (args : List Byte) (res : CmdResult) (val : Int)
    (hl : 16 ≤ s.link.injq.length) :
    s.answeredOnly op target args res val
      = { s with cmd := { (s.handOver op target args).cmd with
          ret := some { slot := s.cmd.next
                        bytes := [0, op, target, BitVec.ofNat 8 res.code] ++ leBytesInt 4 val } } } :=
  State.returnCommand_full { st := s.handOver op target args, res := res, val := val } op target (.inl hl)

/-- A row of the ring other than CLEAR_FAULT, which also brings the fault lines, is a run of its command. -/
theorem exec_ringRow (c : Instr) (op : Nat) (h : ringOpcode c = some op) (hf : ∀ pair faults, c ≠ .clearFault pair faults) :
    ∃ target args cmd, ∀ s : State, exec c s = .next (s.runHost op target args cmd) := by
  cases c with
  | clearFault pair faults => exact absurd rfl (hf pair faults)
  | unknownOpcode o t =>
    by_cases hk : o.toNat ∈ knownOpcodes
    · simp [ringOpcode, hk] at h
    · simp only [ringOpcode, if_neg hk, Option.some.injEq] at h
      subst h
      exact ⟨t, [], cmdUnknown, fun s => congrArg Host.Outcome.next (if_neg hk)⟩
  | _ =>
    cases h
    all_goals exact ⟨_, _, _, fun s => rfl⟩

/-- A row that cannot be this step changes nothing (R14, R15, log 5). -/
theorem exec_notReady (c : Instr) (s : State) (op : Nat) (h : ringOpcode c = some op)
    (hf : ∀ pair faults, c ≠ .clearFault pair faults) (hr : ¬ s.CommandReady op) : exec c s = .next s := by
  obtain ⟨target, args, cmd, hx⟩ := exec_ringRow c op h hf
  rw [hx, s.runHost_waits op target args cmd hr]

/-- CLEAR_FAULT that cannot be this step only brings the fault lines' present level (log 13). -/
theorem exec_clearFault_notReady (pair : Byte) (faults : BitVec 6) (s : State) (hr : ¬ s.CommandReady 0x38) :
    exec (.clearFault pair faults) s = .next { s with pins := { s.pins with faults := faults } } :=
  congrArg Host.Outcome.next (State.runHost_waits { s with pins := { s.pins with faults := faults } } 0x38 pair []
    (cmdClearFault pair) hr)

/-- Settles O18: answers of commands that change nothing, and rows that cannot be this step. -/
theorem commandsThatChangeNothing : Obligations.CommandsThatChangeNothing := by
  refine ⟨fun s op target args res val h => ⟨s.answeredOnly_room op target args res val h,
    s.answeredOnly_full op target args res val⟩, ?_, ?_, ?_⟩
  · intro s h
    exact congrArg Host.Outcome.next (s.runHost_answered id h rfl rfl)
  · intro s op target hk h
    show Host.Outcome.next (if op.toNat ∈ knownOpcodes then s else s.runHost op.toNat target [] cmdUnknown) = _
    rw [if_neg hk, State.runHost_answered (op := op) id h (by simp) rfl]
    rfl
  · intro c s op rest hop hr
    refine ⟨fun hf => ⟨exec_notReady c s op hop hf hr, exec_notReady c { s with pending := rest } op hop hf hr⟩, ?_⟩
    rintro pair faults rfl
    cases hop
    exact ⟨exec_clearFault_notReady pair faults s hr, exec_clearFault_notReady pair faults { s with pending := rest } hr⟩

/-! ## Handing over and taking (R9, R14, R15) -/

/-- A write into a host-owned slot: its bytes but the owner byte reach the shadow, and owner PART hands it over (R14). -/
theorem State.observeCommand_hostOwned (s : State) (got : List (Nat × Byte)) (i : Fin 64)
    (h : getAt s.cmd.part i = false) :
    s.observeCommand got i
      = { s with cmd := { s.cmd with
          shadow := memStore (got.filter fun ab => decide (ab.1 ≠ 64 * i.val)) s.cmd.shadow
          part := if (got.find? fun ab => decide (ab.1 = 64 * i.val)).map Prod.snd = some 1
            then setAt s.cmd.part i true else s.cmd.part } } := by
  unfold State.observeCommand
  rw [if_neg (by simp [h])]
  cases hg : got.find? fun ab => decide (ab.1 = 64 * i.val) with
  | none => simp
  | some ab =>
    obtain ⟨a, b⟩ := ab
    simp only [Option.map_some, Option.some.injEq]
    split <;> rfl

/-- Slot next is taken when it is part-owned and the other conditions of R15 hold. -/
theorem State.takeCommand_takes (s : State) (hp : getAt s.cmd.part s.cmd.next = true)
    (hu : s.UnitReady (argByte s.slotBytes 1).toNat) :
    s.takeCommand = State.returnCommand
      (runOpcode (argByte s.slotBytes 1).toNat (argByte s.slotBytes 2) (s.slotBytes.drop 8) s) (argByte s.slotBytes 1)
      (argByte s.slotBytes 2) := by
  obtain ⟨hc, hs⟩ := (s.unitReady_iff _).mp hu
  simp [State.takeCommand, hp, hc, hs]

/-- Slot next is not taken otherwise (R15). -/
theorem State.takeCommand_waits (s : State)
    (h : getAt s.cmd.part s.cmd.next = false ∨ ¬ s.UnitReady (argByte s.slotBytes 1).toNat) : s.takeCommand = s := by
  apply if_pos
  rw [s.unitReady_iff, Decidable.not_and_iff_or_not] at h
  simpa using h

/-- Settles O16: the handover of a slot by an observed write, and its taking. -/
theorem slotIsHandedOverAndTaken : Obligations.SlotIsHandedOverAndTaken := by
  refine ⟨fun s got i => ⟨fun h => if_pos h, s.observeCommand_hostOwned got i⟩, ?_⟩
  intro s faults u b
  exact ⟨fun hp hu => congrArg Host.Outcome.next (u.takeCommand_takes hp hu),
    fun h => congrArg Host.Outcome.next (u.takeCommand_waits h)⟩

/-! ## The bytes of a slot (R197, R198) -/

/-- A run of bytes that lies within a longer run, byte by byte. -/
theorem take_drop_eq (x : List Byte) (k n : Nat) (h : k + n ≤ x.length) :
    (x.drop k).take n = (List.range n).map fun j => x.getD (k + j) 0 := by
  apply List.ext_getElem
  · simp; omega
  · intro j h1 h2
    simp at h1 h2
    simp [List.getD_eq_getElem?_getD, List.getElem?_eq_getElem (show k + j < x.length by omega)]

/-- A 16-bit field has its low byte first (R197). -/
theorem argU16_toNat (x : List Byte) (k : Nat) (h : k + 2 ≤ x.length) :
    (argU16 x k).toNat = (x.getD k 0).toNat + 256 * (x.getD (k + 1) 0).toNat := by
  have h0 := (x.getD k 0).isLt
  have h1 := (x.getD (k + 1) 0).isLt
  rw [argU16, take_drop_eq x k 2 h]
  simp only [List.range, List.range.loop, List.map, leNat, BitVec.toNat_ofNat, Nat.add_zero] at *
  omega

/-- A 32-bit field has its low byte first (R197). -/
theorem argU32_toNat (x : List Byte) (k : Nat) (h : k + 4 ≤ x.length) :
    (argU32 x k).toNat = (x.getD k 0).toNat + 256 * (x.getD (k + 1) 0).toNat + 65536 * (x.getD (k + 2) 0).toNat
      + 16777216 * (x.getD (k + 3) 0).toNat := by
  have h0 := (x.getD k 0).isLt
  have h1 := (x.getD (k + 1) 0).isLt
  have h2 := (x.getD (k + 2) 0).isLt
  have h3 := (x.getD (k + 3) 0).isLt
  rw [argU32, take_drop_eq x k 4 h]
  simp only [List.range, List.range.loop, List.map, leNat, BitVec.toNat_ofNat, Nat.add_zero] at *
  omega

/-- A label is a length byte and 8 characters (11.2). -/
theorem labelAt_eq (x : List Byte) (k : Nat) (h : k + 9 ≤ x.length) :
    labelAt x k = { len := x.getD k 0, chars := [x.getD (k + 1) 0, x.getD (k + 2) 0, x.getD (k + 3) 0
                    , x.getD (k + 4) 0, x.getD (k + 5) 0, x.getD (k + 6) 0, x.getD (k + 7) 0, x.getD (k + 8) 0] } := by
  rw [labelAt, take_drop_eq x (k + 1) 8 (by omega)]
  rfl

/-- The handover puts the opcode, the target, five bytes that are not read and the padded arguments into the slot. -/
theorem State.memBytes_handOver (s : State) (op target : Byte) (args : List Byte) (hl : args.length ≤ 56)
    (hw : memWf s.cmd.shadow = true) :
    memBytes (s.handOver op target args).cmd.shadow (64 * s.cmd.next.val + 1) 63
      = [op, target, 0, 0, 0, 0, 0] ++ args ++ List.replicate (56 - args.length) 0 := by
  have hb : ([op, target, 0, 0, 0, 0, 0] ++ padTo 56 args).length = 63 := by
    simp [padTo]; omega
  have h := memBytes_addressed ([op, target, 0, 0, 0, 0, 0] ++ padTo 56 args) (64 * s.cmd.next.val + 1) s.cmd.shadow hw
  rw [hb] at h
  exact h

/-- A row whose command is what a slot's opcode runs does what taking that slot does (R198). -/
theorem exec_of_runOpcode {c : Instr} {n : Nat} {target : Byte} {sent : List Byte} {cmd : State → CmdOut}
    {x : List Byte} {t : Byte} {s : State} (op : Byte) (hx : exec c s = .next (s.runHost n target sent cmd))
    (hn : op.toNat = n) (hc : ∀ u, runOpcode n t x u = cmd u) :
    s.CommandReady op.toNat →
      exec c s = .next (State.returnCommand (runOpcode op.toNat t x (s.handOver op target sent)) op target) := by
  intro h
  have hop : BitVec.ofNat 8 n = op := by rw [← hn]; simp
  rw [hx, s.runHost_ready n target sent cmd (hn ▸ h), hop, hn, hc]

/-- An opcode outside the table is unknown (R16). -/
theorem runOpcode_unknown (op : Nat) (t : Byte) (x : List Byte) (u : State) (h : op ∉ knownOpcodes) :
    runOpcode op t x u = { st := u, res := .unknown, val := 0 } := by
  unfold runOpcode
  split
  case h_36 => rfl
  all_goals exact absurd (by decide) h

/-- ZONE_POWER with a request above 1 is refused with BAD_ARG (R198). -/
theorem runOpcode_zonePower_bad (t : Byte) (x : List Byte) (u : State) (h : 1 < (x.getD 0 0).toNat) :
    runOpcode 0x19 t x u = { st := u, res := .badArg, val := 0 } := by
  have h1 : argByte x 0 ≠ 1 := fun he => by rw [show x.getD 0 0 = 1 from he] at h; exact absurd h (by decide)
  have h0 : argByte x 0 ≠ 0 := fun he => by rw [show x.getD 0 0 = 0 from he] at h; exact absurd h (by decide)
  show cmdZonePower t (argByte x 0) u = _
  rw [cmdZonePower, if_neg h1, if_neg h0]
  rfl

/-- Settles O17: the bytes of a handover, the command each opcode runs, and the fields of a slot. -/
theorem slotHoldsItsCommand : Obligations.SlotHoldsItsCommand := by
  refine ⟨fun s op target args hl hw => ⟨s.memBytes_handOver op target args hl hw, s.handOver_part op target args⟩, ?_,
    fun x k h => ⟨argU16_toNat x k (by omega), argU32_toNat x k (by omega), labelAt_eq x k h⟩, fun l => ⟨?_, ?_, ?_⟩,
    fun u op t x => ⟨runOpcode_unknown op t x u, runOpcode_zonePower_bad t x u⟩⟩
  · intro s t x hx a h w label labelBytes same src reg
    have hlanes : (x.drop 2).take 4 = [a 2, a 3, a 4, a 5] := take_drop_eq x 2 4 (by omega)
    have hsrc : src = { kind := a 0, laneCount := a 1, lanes := [a 2, a 3, a 4, a 5], window := a 6, fillT := h 8
                        kp := a 10, ki := a 11, gainG := a 12, ratchetH := a 13, lockW := a 14, trim := a 15
                        label := label 16 } := by
      rw [← hlanes]
      rfl
    have hon : a 0 = 1 → same 0x19 t [1] (.zonePowerOn t) := fun ha =>
      exec_of_runOpcode 0x19 rfl rfl fun u => if_pos ha
    have hoff : a 0 = 0 → same 0x19 t [0] (.zonePowerStandby t) := fun ha =>
      exec_of_runOpcode 0x19 rfl rfl fun u => by
        show cmdZonePower t (a 0) u = _
        rw [ha]
        rfl
    refine ⟨?_, ?_, ?_, ?_, ?_, ?_, ?_, ?_, ?_, ?_, ?_, ?_, hon, hoff,
      ?_, ?_, ?_, ?_, ?_, ?_, ?_, ?_, ?_, ?_, ?_, ?_, ?_, ?_, ?_, ?_, ?_, ?_, ?_, ?_, ?_, ?_, hsrc,
      rfl⟩
    all_goals exact exec_of_runOpcode _ rfl rfl fun u => rfl
  · exact fun hl => if_pos hl
  · intro hl
    rw [decodeLabel, if_neg (by omega), if_pos hl]
  · intro h8 h255
    rw [decodeLabel, if_neg (by omega), if_neg h255]

end Sys2Proof.Machine
end

