-- ==== Sys2Proof/Proofs/Windows.lean ====
section
/-! SUPPORT. The window table (R4 to R7) and link reset (R27): what discarding a window changes, what a new one starts with,
and the statements about them. -/

namespace Sys2Proof.Machine

open Sys2Proof

/-! ## The section that is being placed (R24, R181) -/

/-- With no section being placed nothing is discarded. -/
theorem State.dropSection_none (s : State) (h : s.mirror.job = none) : s.dropSection = s := by
  simp [State.dropSection, h]

/-- Discarding the section changes the mirror and the output unit only. -/
theorem State.dropSection_eq (s : State) :
    s.dropSection = { s with mirror := s.dropSection.mirror, out := s.dropSection.out } := by
  unfold State.dropSection
  split
  · rfl
  next j _ =>
    by_cases hm : j.sect = .meters
    · simp only [hm, if_true, State.mergeSent]
      split <;> rfl
    · simp only [hm, if_false]

/-- With no meter section being placed, or no sent copy, discarding keeps the output unit. -/
theorem State.dropSection_out_kept (s : State)
    (h : (∀ j, s.mirror.job = some j → j.sect ≠ .meters) ∨ s.out.sent = none) : s.dropSection.out = s.out := by
  cases hj : s.mirror.job with
  | none => simp [State.dropSection, hj]
  | some j =>
    by_cases hm : j.sect = .meters
    · have hs : s.out.sent = none := h.resolve_left fun h => h j hj hm
      simp [State.dropSection, hj, hm, State.mergeSent, hs]
    · simp [State.dropSection, hj, hm]

/-- After discarding no section is being placed; the rest of the mirror stands. -/
theorem State.dropSection_mirror (s : State) : s.dropSection.mirror = { s.mirror with job := none } := by
  unfold State.dropSection
  split
  next hj => rw [← hj]
  next j _ =>
    by_cases hm : j.sect = .meters
    · simp only [hm, if_true, State.mergeSent]
      split <;> rfl
    · simp only [hm, if_false]

/-- A discarded meter section's values go back into the held values (R181). -/
theorem State.dropSection_merges (s : State) (j : MirrorJob) (m : Vector MeterHold 12) (hj : s.mirror.job = some j)
    (hm : j.sect = .meters) (hs : s.out.sent = some m) :
    s.dropSection.out = { s.out with sent := none, channels := s.dropSection.out.channels }
      ∧ ∀ c, s.dropSection.chan c = { s.chan c with
        heldPeak := max (s.chan c).heldPeak (getAt m c).peak
        heldClip := (s.chan c).heldClip || (getAt m c).clip
        heldBlocks := min 65535 ((s.chan c).heldBlocks + (getAt m c).blocks) } := by
  have h : s.dropSection = { s with
      mirror := { s.mirror with job := none }
      out := { s.out with
        sent := none
        channels := Vector.ofFn fun i => (s.out.channels[i]).mergeBack m[i] } } := by
    simp [State.dropSection, hj, hm, State.mergeSent, hs]
  refine ⟨by rw [h], fun c => ?_⟩
  rw [h]
  simp [State.chan, getAt, Channel.mergeBack]

/-- Discarding once is discarding for good. -/
theorem State.dropSection_dropSection (s : State) : s.dropSection.dropSection = s.dropSection :=
  s.dropSection.dropSection_none (by rw [s.dropSection_mirror])

/-- What discarding does depends on the mirror and the output unit alone. -/
theorem State.dropSection_congr (s t : State) (hm : s.mirror = t.mirror) (ho : s.out = t.out) :
    s.dropSection.mirror = t.dropSection.mirror ∧ s.dropSection.out = t.dropSection.out := by
  unfold State.dropSection State.mergeSent
  simp only [hm, ho]
  cases t.mirror.job with
  | none => exact ⟨hm, ho⟩
  | some j =>
    by_cases hj : j.sect = .meters
    · cases t.out.sent <;> simp [hj]
    · simp [hj]

/-! ## Discarding a window (R6) -/

/-- Queued writes of a discarded window are orphaned: those whose origin is `mine`. -/
def orphanIf (mine : Origin → Bool) (x : Injected) : Injected :=
  if mine x.origin = true then { x with origin := .orphan } else x

/-- Origins of a STREAM window. -/
def Origin.ofStream (i : Fin 16) : Origin → Bool
  | .stream j _ => decide (j = i)
  | .command _ | .report _ | .tapClose _ | .tapData _ | .sect | .orphan => false

/-- Origins of the tap. -/
def Origin.ofTap : Origin → Bool
  | .tapClose _ | .tapData _ => true
  | .command _ | .report _ | .stream _ _ | .sect | .orphan => false

/-- Orphaning the returns of a STREAM window. -/
theorem orphanStream_eq (i : Fin 16) : orphanStream i = orphanIf (Origin.ofStream i) := by
  funext x
  obtain ⟨w, o⟩ := x
  cases o <;> simp [orphanStream, orphanIf, Origin.ofStream]

/-- Orphaning the writes of the tap. -/
theorem orphanTap_eq : orphanTap = orphanIf Origin.ofTap := by
  funext x
  obtain ⟨w, o⟩ := x
  cases o <;> simp [orphanTap, orphanIf, Origin.ofTap]

/-- Discarding a window keeps the window table. -/
@[simp] theorem State.discardWindow_windows (s : State) (i : Fin 16) : (s.discardWindow i).windows = s.windows := by
  unfold State.discardWindow
  split
  · rfl
  · rfl
  · rw [s.dropSection_eq]
  · rfl
  · rfl

/-- A sum over a list without repetition, one term of it taken out. -/
theorem sumNat_map_without {α : Type} [DecidableEq α] (f : α → Nat) (i : α) (l : List α) (hn : l.Nodup) (hi : i ∈ l) :
    sumNat (l.map fun j => if i = j then 0 else f j) + f i = sumNat (l.map f) := by
  induction l with
  | nil => cases hi
  | cons a l ih =>
    obtain ⟨ha, hl⟩ := List.nodup_cons.mp hn
    by_cases hia : i = a
    · subst hia
      have hsame : (l.map fun j => if i = j then 0 else f j) = l.map f :=
        List.map_congr_left fun j hj => if_neg fun hij : i = j => ha (hij ▸ hj)
      simp [sumNat, hsame]; omega
    · have hil : i ∈ l := (List.mem_cons.mp hi).resolve_left hia
      have hrec := ih hl hil
      simp only [List.map_cons, sumNat, if_neg hia] at hrec ⊢
      omega

/-- The pages a ring binds. -/
theorem boundIn_eq (xs : List SlotRec) : boundIn xs = (xs.filter fun x => x.page.isSome).length := by
  induction xs with
  | nil => rfl
  | cons x xs ih => by_cases hx : x.page.isSome = true <;> simp [boundIn, hx, ih]; omega

/-- The pages bound to the slots of one window. -/
def State.pagesAt (s : State) (i : Fin 16) : Nat :=
  match s.ring i with
  | some r => boundIn r.slots
  | none => 0

/-- The pages bound are those of every window. -/
theorem State.pagesBound_eq (s : State) : s.pagesBound = sumNat ((List.finRange 16).map s.pagesAt) := rfl

/-- A window whose ring goes binds no page any more (R6). -/
theorem State.pagesBound_discardRing (s : State) (i : Fin 16) (r : Ring) (h : s.ring i = some r) :
    (s.discardRing i).pagesBound + (r.slots.filter fun x => x.page.isSome).length = s.pagesBound := by
  have hterm : (s.discardRing i).pagesAt = fun j => if i = j then 0 else s.pagesAt j := by
    funext j
    have hr : (s.discardRing i).ring j = if i = j then none else s.ring j := s.ring_setRing i j none
    rw [State.pagesAt, hr]
    by_cases hij : i = j
    · simp [hij]
    · simp [hij, State.pagesAt]
  have hi : s.pagesAt i = (r.slots.filter fun x => x.page.isSome).length := by
    rw [← boundIn_eq]
    simp [State.pagesAt, h]
  have hsum := sumNat_map_without s.pagesAt i (List.finRange 16) (List.nodup_finRange 16) (List.mem_finRange i)
  rw [State.pagesBound_eq, State.pagesBound_eq, hterm, ← hsum, hi]

/-! ## RELEASE_WINDOW (R7) -/

/-- An index of the window table. -/
theorem fin16?_some (n : Nat) (i : Fin 16) (h : i.val = n) : fin16? n = some i := by
  subst h
  exact dif_pos i.isLt

/-- An index outside the table. -/
theorem fin16?_none (n : Nat) (h : 15 < n) : fin16? n = none := dif_neg (by omega)

/-- Whether a window is in use does not depend on the command unit. -/
@[simp] theorem State.handOver_windowInUse (s : State) (o t : Byte) (a : List Byte) (i : Fin 16) :
    (s.handOver o t a).windowInUse i = s.windowInUse i := rfl

/-- RELEASE_WINDOW of an index that cannot be released (R7). -/
theorem cmdReleaseWindow_badArg (index : Byte) (s : State) (h : index.toNat = 0 ∨ 15 < index.toNat) :
    cmdReleaseWindow index s = refuse s .badArg := by
  rcases h with h | h
  · simp [cmdReleaseWindow, h, fin16?_some 0 0 rfl]
  · simp [cmdReleaseWindow, fin16?_none _ h]

/-- RELEASE_WINDOW of an index from 1 to 15 (R7). -/
theorem cmdReleaseWindow_index (index : Byte) (s : State) (i : Fin 16) (h : i.val = index.toNat) (h0 : i ≠ 0) :
    cmdReleaseWindow index s
      = if s.windowInUse i then refuse s .inUse else done ((s.discardWindow i).setWindow i .free) 0 := by
  have hv : i.val ≠ 0 := fun hv => h0 (Fin.ext hv)
  simp [cmdReleaseWindow, fin16?_some _ i h, hv]

/-- Settles O24: when a window is in use, the three answers, and what discarding each kind of window leaves. -/
theorem releaseWindowFrees : Obligations.ReleaseWindowFrees := by
  refine ⟨State.windowInUse_iff, fun s index h => ⟨?_, ?_, ?_, ?_⟩⟩
  · intro hb
    exact congrArg Host.Outcome.next (s.runHost_answered id h rfl (cmdReleaseWindow_badArg index _ hb))
  · intro i hi h0 hu
    refine congrArg Host.Outcome.next (s.runHost_answered id h rfl ?_)
    rw [cmdReleaseWindow_index index _ i hi h0, s.handOver_windowInUse, hu]
    rfl
  · intro i hi h0 hu
    refine congrArg Host.Outcome.next (s.runHost_answered (fun u => (u.discardWindow i).setWindow i .free) h rfl ?_)
    rw [cmdReleaseWindow_index index _ i hi h0, s.handOver_windowInUse, hu]
    rfl
  · intro u i orphan
    refine ⟨?_, ?_, ?_, ?_⟩
    · rintro (hw | ⟨b, hw⟩) <;> simp [State.discardWindow, hw]
    · intro b n c hw
      have hd : u.discardWindow i = u.discardRing i := by simp [State.discardWindow, hw]
      rw [hd]
      refine ⟨?_, u.pagesBound_discardRing i⟩
      rw [State.discardRing, orphanStream_eq]
      rfl
    · intro b n c hw
      have hd : u.discardWindow i = u.discardTap := by simp [State.discardWindow, hw]
      rw [hd, State.discardTap, orphanTap_eq]
      rfl
    · intro b hw v
      have hd : v = u.dropSection := by simp [v, State.discardWindow, hw]
      rw [hd]
      refine ⟨u.dropSection_mirror, by rw [u.dropSection_eq], fun hj => u.dropSection_out_kept (.inl hj), ?_⟩
      intro j m hj hm hs
      obtain ⟨ho, hc⟩ := u.dropSection_merges j m hj hm hs
      exact ⟨by rw [ho], hc⟩

/-! ## DEFINE_WINDOW (R5, R6) -/

/-- A path is bound to a STREAM entry that names a window (R29). -/
theorem State.namesWindow_iff (s : State) (p : PathId) (w : Fin 16) : s.namesWindow p w = true ↔
    ∃ e, (s.path p).binding = some e ∧ (s.source e).kind = .stream ∧ (s.source e).window = some w := by
  cases h : (s.path p).binding <;> simp [State.namesWindow, h]

/-- The path a window is to feed is one that is bound to an entry that names it. -/
theorem State.feedChoice_names (s : State) (w : Fin 16) (p : PathId) (h : s.feedChoice w = some p) :
    s.namesWindow p w = true := by
  unfold State.feedChoice at h
  split_ifs at h with h1 h2
  · injection h with h; exact h ▸ h1
  · injection h with h; exact h ▸ h2

/-- A ring without skip marks has nothing to pass on over. -/
theorem Ring.arrive_unmarked (r : Ring) (h : (r.slot r.unpackPos).skip = false) : r.arrive = r := by
  unfold Ring.arrive
  split
  · rfl
  · cases r.slots.length with
    | zero => rfl
    | succ n => simp [Ring.advanceSkips, h]

/-- Every slot of a fresh ring reads as fresh. -/
theorem Ring.fresh_slot (c i : Nat) : (Ring.fresh c).slot i = SlotRec.fresh := by
  simp [Ring.fresh, Ring.slot, List.getD_eq_getElem?_getD, List.getElem?_replicate]
  split <;> rfl

/-- A new STREAM window starts with a fresh ring that feeds the path R29 gives it. -/
theorem State.startWindow_stream (u : State) (i : Fin 16) (b n c : Nat) :
    u.startWindow i (.stream b n c)
      = (u.setWindow i (.stream b n c)).setRing i (some { Ring.fresh c with feeds := u.feedChoice i }) := by
  have hc : ((u.setWindow i (.stream b n c)).setRing i (some (Ring.fresh c))).feedChoice i = u.feedChoice i := rfl
  have harr (p : PathId) : Ring.arrive { Ring.fresh c with feeds := some p }
      = { Ring.fresh c with feeds := some p } :=
    Ring.arrive_unmarked _ (congrArg SlotRec.skip (Ring.fresh_slot c 0))
  show ((u.setWindow i (.stream b n c)).setRing i (some (Ring.fresh c))).feedIfNamed i = _
  unfold State.feedIfNamed
  rw [State.ring_setRing_same, hc]
  cases hf : u.feedChoice i with
  | none => simp [Ring.fresh]
  | some p =>
    have hs : (Ring.fresh c).feeds.isSome = false := rfl
    simp only [hs, Bool.false_eq_true, if_false, State.startFeeding, State.ring_setRing_same, State.setRing_setRing]
    rw [show ({ Ring.fresh c with feeds := some p, handoverCount := 0, idle := false } : Ring)
      = { Ring.fresh c with feeds := some p } from rfl, harr p]

/-- A new window changes its entry of the table. -/
theorem State.startWindow_windows (u : State) (i : Fin 16) (w : Window) :
    (u.startWindow i w).windows = (u.setWindow i w).windows := by
  cases w with
  | stream b n c => rw [u.startWindow_stream]; rfl
  | free | anchor b | tap b n c | mirror b => rfl

/-- A check that refuses is the next in a chain of checks. -/
theorem refuse_chain {c : Prop} [Decidable c] {r rest : CmdResult} {s : State} {d x : CmdOut} (hr : r ≠ .ok)
    (hx : x = if rest = .ok then d else refuse s rest) :
    (if c then refuse s r else x)
      = if (if c then r else rest) = .ok then d else refuse s (if c then r else rest) := by
  by_cases hc : c <;> simp [hc, hr, hx]

/-- The seven checks decide, with an index from 1 to 15 and a kind that can be defined (R5). -/
theorem cmdDefineWindow_eq (index kind count : Byte) (size : BitVec 16) (base : BitVec 32) (s : State) (i : Fin 16)
    (w : Window) (hi : i.val = index.toNat) (h0 : i ≠ 0)
    (hw : askedWindow kind.toNat base.toNat size.toNat count.toNat = some w) :
    cmdDefineWindow index kind count size base s
      = (let res := s.defineWindowResult index.toNat kind.toNat base.toNat size.toNat count.toNat
         if res = .ok then done ((s.discardWindow i).startWindow i w) w.length else refuse s res) := by
  have hv : i.val ≠ 0 := fun hv => h0 (Fin.ext hv)
  have hlt := i.isLt
  have hne (j : Fin 16) : j.val ≠ index.toNat ↔ j ≠ i := by rw [← hi, ne_eq, Fin.val_inj]
  have heq (j : Fin 16) : j.val = index.toNat ↔ j = i := by rw [← hi, Fin.val_inj]
  have hbase : w.base = base.toNat := by
    unfold askedWindow at hw
    split_ifs at hw <;> (injection hw with hw; subst hw; rfl)
  have hlen : w.length = if kind.toNat = 4 then 8192 else size.toNat * count.toNat := by
    unfold askedWindow at hw
    split_ifs at hw with h2 h3 h4 <;> (injection hw with hw; subst hw; simp [Window.length, *])
  have hkind : ¬ (kind.toNat ≠ 2 ∧ kind.toNat ≠ 3 ∧ kind.toNat ≠ 4) := by
    unfold askedWindow at hw
    split_ifs at hw <;> tauto
  have hslots : w.slotsOk = false ↔ kind.toNat ≠ 4
      ∧ ((size.toNat ≠ 512 ∧ size.toNat ≠ 1024 ∧ size.toNat ≠ 2048) ∨ count.toNat < 2 ∨ 64 < count.toNat) := by
    unfold askedWindow at hw
    split_ifs at hw with h2 h3 h4 <;> (injection hw with hw; subst hw; simp [Window.slotsOk, *]) <;> omega
  have hin : ((List.finRange 16).any fun j => decide (j.val = index.toNat) && s.windowInUse j) = s.windowInUse i := by
    rw [Bool.eq_iff_iff, List.any_eq_true]
    constructor
    · rintro ⟨j, -, hj⟩
      rw [Bool.and_eq_true, decide_eq_true_eq, heq] at hj
      exact hj.1 ▸ hj.2
    · exact fun h => ⟨i, List.mem_finRange i, by simp [hi, h]⟩
  have hover : ((List.finRange 16).any fun j => decide (j ≠ i)
        && decide (base.toNat < (s.window j).base + (s.window j).length)
        && decide ((s.window j).base < base.toNat
            + if kind.toNat = 4 then 8192 else size.toNat * count.toNat)) = s.overlapsOther i w := by
    simp only [State.overlapsOther, Window.meets, hbase, hlen, Bool.and_assoc]
  simp only [cmdDefineWindow, fin16?_some _ i hi, hw, State.defineWindowResult, hin, hover, hbase, hlen, hslots,
    State.windowsOfKind, kindLimit, hne, if_neg hv, if_neg hkind]
  rw [if_neg (by omega : ¬ (index.toNat < 1 ∨ 15 < index.toNat))]
  refine refuse_chain (r := .badArg) (by decide) ?_
  refine refuse_chain (r := .badArg) (by decide) ?_
  refine refuse_chain (r := .badArg) (by decide) ?_
  refine refuse_chain (r := .inUse) (by decide) ?_
  exact refuse_chain (r := .overlap) (by decide) rfl

/-- DEFINE_WINDOW with an index outside 1 to 15, or a kind that cannot be defined, fails check 1 or 2 (R5). -/
theorem cmdDefineWindow_badArg (index kind count : Byte) (size : BitVec 16) (base : BitVec 32) (s : State)
    (h : (index.toNat < 1 ∨ 15 < index.toNat) ∨ (kind.toNat ≠ 2 ∧ kind.toNat ≠ 3 ∧ kind.toNat ≠ 4)) :
    cmdDefineWindow index kind count size base s = refuse s .badArg
      ∧ s.defineWindowResult index.toNat kind.toNat base.toNat size.toNat count.toNat = .badArg := by
  constructor
  · unfold cmdDefineWindow
    split
    · rfl
    · rfl
    next i w hi hw =>
      rcases h with h | ⟨h2, h3, h4⟩
      · have hlt : index.toNat < 16 := by
          by_contra hn
          rw [fin16?_none _ (by omega)] at hi
          cases hi
        have h0 : i.val = 0 := by
          rw [fin16?_some _ ⟨index.toNat, hlt⟩ rfl, Option.some.injEq] at hi
          subst hi
          show index.toNat = 0
          omega
        exact if_pos h0
      · simp [askedWindow, h2, h3, h4] at hw
  · unfold State.defineWindowResult
    by_cases h1 : index.toNat < 1 ∨ 15 < index.toNat
    · exact if_pos h1
    · exact (if_neg h1).trans (if_pos (h.resolve_left h1))

/-- The checks of DEFINE_WINDOW do not read the command unit. -/
theorem State.handOver_defineWindowResult (s : State) (o t : Byte) (a : List Byte) (index kind base size count : Nat) :
    (s.handOver o t a).defineWindowResult index kind base size count
      = s.defineWindowResult index kind base size count := rfl

/-- DEFINE_WINDOW that fails a check is refused with that check's result (R5). -/
theorem cmdDefineWindow_refused (index kind count : Byte) (size : BitVec 16) (base : BitVec 32) (s : State)
    (h : s.defineWindowResult index.toNat kind.toNat base.toNat size.toNat count.toNat ≠ .ok) :
    cmdDefineWindow index kind count size base s
      = refuse s (s.defineWindowResult index.toNat kind.toNat base.toNat size.toNat count.toNat) := by
  by_cases hb : (index.toNat < 1 ∨ 15 < index.toNat) ∨ (kind.toNat ≠ 2 ∧ kind.toNat ≠ 3 ∧ kind.toNat ≠ 4)
  · obtain ⟨hc, hr⟩ := cmdDefineWindow_badArg index kind count size base s hb
    rw [hc, hr]
  · obtain ⟨w, hw⟩ : ∃ w, askedWindow kind.toNat base.toNat size.toNat count.toNat = some w := by
      unfold askedWindow
      split_ifs
      · exact ⟨_, rfl⟩
      · exact ⟨_, rfl⟩
      · exact ⟨_, rfl⟩
      · omega
    have h0 : (⟨index.toNat, by omega⟩ : Fin 16) ≠ 0 := fun h0 => by
      have := congrArg Fin.val h0
      simp at this
      omega
    rw [cmdDefineWindow_eq index kind count size base s ⟨index.toNat, by omega⟩ w rfl h0 hw]
    exact if_neg h

/-- DEFINE_WINDOW that passes the checks discards the old window and starts the new one (R6). -/
theorem cmdDefineWindow_done (index kind count : Byte) (size : BitVec 16) (base : BitVec 32) (s : State) (i : Fin 16)
    (w : Window) (h : s.defineWindowResult index.toNat kind.toNat base.toNat size.toNat count.toNat = .ok)
    (hi : i.val = index.toNat)
    (hk : w = (if kind = 2 then Window.stream base.toNat size.toNat count.toNat
      else if kind = 3 then Window.tap base.toNat size.toNat count.toNat else Window.mirror base.toNat)) :
    cmdDefineWindow index kind count size base s = done ((s.discardWindow i).startWindow i w) w.length := by
  have hb : ¬ ((index.toNat < 1 ∨ 15 < index.toNat) ∨ (kind.toNat ≠ 2 ∧ kind.toNat ≠ 3 ∧ kind.toNat ≠ 4)) := fun hb => by
    rw [(cmdDefineWindow_badArg index kind count size base s hb).2] at h
    cases h
  have h2 : kind = 2 ↔ kind.toNat = 2 := ⟨fun hk => by rw [hk]; rfl, fun hk => BitVec.eq_of_toNat_eq hk⟩
  have h3 : kind = 3 ↔ kind.toNat = 3 := ⟨fun hk => by rw [hk]; rfl, fun hk => BitVec.eq_of_toNat_eq hk⟩
  have hw : askedWindow kind.toNat base.toNat size.toNat count.toNat = some w := by
    simp only [hk, h2, h3, askedWindow]
    split_ifs
    · rfl
    · rfl
    · rfl
    · omega
  have h0 : i ≠ 0 := fun h0 => by
    subst h0
    simp at hi
    omega
  rw [cmdDefineWindow_eq index kind count size base s i w hi h0 hw]
  exact if_pos h

/-- A path bound to a STREAM entry has its source present while the entry's window feeds it and is not idle (R39). -/
theorem State.present_stream_iff (s : State) (p : PathId) (e : Fin 12) (hb : (s.path p).binding = some e)
    (hk : (s.source e).kind = .stream) : s.present p = true ↔ ∃ w r, (s.source e).window = some w ∧ s.ring w = some r
      ∧ r.feeds = some p ∧ r.idle = false := by
  obtain ⟨-, hbound⟩ := s.present_cases p
  obtain ⟨-, -, hstream, -⟩ := hbound e hb
  exact hstream hk

/-- A window that starts to feed a path makes that path's source present (R29, R39). -/
theorem State.startWindow_present (u : State) (i : Fin 16) (b n c : Nat) (p : PathId) (h : u.feedChoice i = some p) :
    (u.startWindow i (.stream b n c)).present p = true := by
  obtain ⟨e, hb, hk, hw⟩ := (u.namesWindow_iff p i).mp (u.feedChoice_names i p h)
  rw [u.startWindow_stream]
  refine (State.present_stream_iff _ p e ?_ ?_).mpr ⟨i, _, ?_, State.ring_setRing_same .., h, rfl⟩
  · cases p <;> exact hb
  · exact hk
  · exact hw

/-- Settles O23: the seven checks, the table after a definition, and what a new window of each kind starts with. -/
theorem defineWindowChecks : Obligations.DefineWindowChecks := by
  refine ⟨?_, ?_, ?_, fun _ _ _ _ _ => ⟨rfl, rfl⟩⟩
  · intro s index kind count size base h args res
    have hres : (s.handOver 0x02 index args).defineWindowResult index.toNat kind.toNat base.toNat size.toNat
        count.toNat = res := s.handOver_defineWindowResult ..
    constructor
    · intro hr
      have hc := cmdDefineWindow_refused index kind count size base (s.handOver 0x02 index args) (by rwa [hres])
      rw [hres] at hc
      exact congrArg Host.Outcome.next (s.runHost_answered id h rfl hc)
    · intro i w hr hi hk
      have hc := cmdDefineWindow_done index kind count size base (s.handOver 0x02 index args) i w (by rwa [hres]) hi hk
      exact congrArg Host.Outcome.next
        (s.runHost_answered (fun u => (u.discardWindow i).startWindow i w) h rfl hc)
  · intro u i j w
    show getAt ((u.discardWindow i).startWindow i w).windows j = _
    rw [State.startWindow_windows]
    show getAt (setAt (u.discardWindow i).windows i w) j = _
    rw [State.discardWindow_windows, getAt_setAt]
    rfl
  · intro u i b n c names v
    have hv : v = _ := u.startWindow_stream i b n c
    have hn (p : PathId) : u.namesWindow p i = true ↔ names p := u.namesWindow_iff p i
    refine ⟨fun j hj => ?_, ?_, ?_, ?_, ?_, fun p => ?_, { Ring.fresh c with feeds := u.feedChoice i }, ?_, rfl, rfl, rfl,
      ?_, ?_, ?_, rfl, u.startWindow_present i b n c⟩
    · rw [hv, State.ring_setRing, if_neg (Ne.symm hj)]
      rfl
    · rw [hv]; rfl
    · rw [hv]; rfl
    · rw [hv]; rfl
    · rw [hv]; rfl
    · rw [hv]
      cases p <;> rfl
    · rw [hv, State.ring_setRing_same]
    · exact fun h => if_pos ((hn _).mpr h)
    · exact fun h h' => (if_neg (mt (hn _).mp h)).trans (if_pos ((hn _).mpr h'))
    · exact fun h h' => (if_neg (mt (hn _).mp h)).trans (if_neg (mt (hn _).mp h'))

/-! ## Link reset (R27) -/

/-- What freeing the windows of a list leaves of a state with an empty injection queue and no waiting return. -/
structure State.Freed (is : List (Fin 16)) (u v : State) : Prop where
  rest   : v = { u with windows := v.windows, rings := v.rings, tap := v.tap, mirror := v.mirror, out := v.out }
  drop   : v.dropSection.mirror = u.dropSection.mirror ∧ v.dropSection.out = u.dropSection.out
  free   : ∀ i ∈ is, v.window i = .free
  kept   : ∀ i, i ∉ is → v.window i = u.window i
  gone   : ∀ i ∈ is, (∃ b n c, u.window i = .stream b n c) → v.ring i = none
  rings  : ∀ i, (i ∉ is ∨ ∀ b n c, u.window i ≠ .stream b n c) → v.ring i = u.ring i

/-- Freeing no window changes nothing. -/
theorem State.Freed.nil (u : State) : State.Freed [] u u :=
  ⟨rfl, ⟨rfl, rfl⟩, fun _ h => absurd h List.not_mem_nil, fun _ _ => rfl, fun _ h => absurd h List.not_mem_nil,
    fun _ _ => rfl⟩

/-- Freeing windows one list after the other. -/
theorem State.Freed.append {is js : List (Fin 16)} {u v w : State} (h : State.Freed is u v) (k : State.Freed js v w) :
    State.Freed (is ++ js) u w where
  rest := by rw [k.rest, h.rest]
  drop := ⟨k.drop.1.trans h.drop.1, k.drop.2.trans h.drop.2⟩
  free := fun i hi => by
    by_cases hj : i ∈ js
    · exact k.free i hj
    · rw [k.kept i hj, h.free i ((List.mem_append.mp hi).resolve_right hj)]
  kept := fun i hi => by
    rw [List.mem_append, not_or] at hi
    rw [k.kept i hi.2, h.kept i hi.1]
  gone := fun i hi hs => by
    by_cases hm : i ∈ is
    · have hf := h.free i hm
      rw [k.rings i (.inr fun b n c => by rw [hf]; exact nofun), h.gone i hm hs]
    · have hj := (List.mem_append.mp hi).resolve_left hm
      exact k.gone i hj (by rwa [h.kept i hm])
  rings := fun i hi => by
    rw [List.mem_append, not_or] at hi
    by_cases hm : i ∈ is
    · have hs := hi.resolve_left fun hn => hn.1 hm
      have hf := h.free i hm
      rw [k.rings i (.inr fun b n c => by rw [hf]; exact nofun), h.rings i (.inr hs)]
    · have hk : i ∉ js ∨ ∀ b n c, v.window i ≠ .stream b n c :=
        hi.imp And.right fun hs => by rwa [h.kept i hm]
      rw [k.rings i hk, h.rings i (.inl hm)]

/-- Discarding a window of a state with an empty injection queue and no waiting return. -/
theorem State.discardWindow_idle (u : State) (i : Fin 16) (hq : u.link.injq = []) (hw : u.intakeWait = []) :
    (u.discardWindow i = { u with
        rings := (u.discardWindow i).rings, tap := (u.discardWindow i).tap, mirror := (u.discardWindow i).mirror
        out := (u.discardWindow i).out })
      ∧ ((u.discardWindow i).dropSection.mirror = u.dropSection.mirror
        ∧ (u.discardWindow i).dropSection.out = u.dropSection.out)
      ∧ ((∃ b n c, u.window i = .stream b n c) → (u.discardWindow i).rings = setAt u.rings i none)
      ∧ ((∀ b n c, u.window i ≠ .stream b n c) → (u.discardWindow i).rings = u.rings) := by
  have hl : ({ u.link with injq := [] } : Link) = u.link := by rw [← hq]
  unfold State.discardWindow
  split
  next b n c h =>
    have hd : u.discardRing i = u.setRing i none := by
      simp only [State.discardRing, hq, hw, List.map_nil, List.filter_nil, hl]
      rw [← hw]
      rfl
    rw [hd]
    exact ⟨rfl, State.dropSection_congr _ _ rfl rfl, fun _ => rfl, fun hn => absurd h (hn b n c)⟩
  next b n c h =>
    have hd : u.discardTap = { u with tap := Tap.powerOn } := by
      simp only [State.discardTap, hq, List.map_nil, hl]
    rw [hd]
    exact ⟨rfl, State.dropSection_congr _ _ rfl rfl, fun ⟨_, _, _, hs⟩ => by simp [h] at hs, fun _ => rfl⟩
  next b h =>
    have hr : u.dropSection.rings = u.rings := by rw [u.dropSection_eq]
    have ht : u.dropSection.tap = u.tap := by rw [u.dropSection_eq]
    refine ⟨by rw [hr, ht]; exact u.dropSection_eq, by rw [u.dropSection_dropSection]; exact ⟨rfl, rfl⟩,
      fun ⟨_, _, _, hs⟩ => by simp [h] at hs, fun _ => hr⟩
  next h => exact ⟨rfl, ⟨rfl, rfl⟩, fun ⟨_, _, _, hs⟩ => by simp [h] at hs, fun _ => rfl⟩
  next b h => exact ⟨rfl, ⟨rfl, rfl⟩, fun ⟨_, _, _, hs⟩ => by simp [h] at hs, fun _ => rfl⟩

/-- Freeing one window. -/
theorem State.freeWindow_freed (u : State) (i : Fin 16) (hq : u.link.injq = []) (hw : u.intakeWait = []) :
    State.Freed [i] u (u.freeWindow i) := by
  obtain ⟨hrest, hdrop, hgone, hkept⟩ := u.discardWindow_idle i hq hw
  have hwin : (u.freeWindow i).windows = setAt u.windows i .free := by
    show setAt (u.discardWindow i).windows i .free = _
    rw [u.discardWindow_windows]
  have hrings : (u.freeWindow i).rings = (u.discardWindow i).rings := rfl
  refine ⟨?_, ?_, fun j hj => ?_, fun j hj => ?_, fun j hj hs => ?_, fun j hj => ?_⟩
  · obtain ⟨ri, ta, mi, ou, hd⟩ : ∃ ri ta mi ou, u.discardWindow i = { u with
        rings := ri, tap := ta, mirror := mi, out := ou } := ⟨_, _, _, _, hrest⟩
    unfold State.freeWindow
    rw [hd]
    rfl
  · obtain ⟨hm, ho⟩ := State.dropSection_congr (u.freeWindow i) (u.discardWindow i) rfl rfl
    exact ⟨hm.trans hdrop.1, ho.trans hdrop.2⟩
  · rw [List.mem_singleton] at hj
    rw [State.window, hwin, hj, getAt_setAt_same]
  · rw [List.mem_singleton] at hj
    rw [State.window, hwin, getAt_setAt_other _ _ _ _ (Ne.symm hj)]
    rfl
  · rw [List.mem_singleton] at hj
    subst hj
    rw [State.ring, hrings, hgone hs, getAt_setAt_same]
  · rw [State.ring, hrings]
    by_cases hs : ∃ b n c, u.window i = .stream b n c
    · have hji : i ≠ j := by
        rintro rfl
        obtain ⟨b, n, c, hs⟩ := hs
        exact hj.elim (fun h => h List.mem_cons_self) fun h => h b n c hs
      rw [hgone hs, getAt_setAt_other _ _ _ _ hji]
      rfl
    · rw [hkept fun b n c h => hs ⟨b, n, c, h⟩]
      rfl

/-- Freeing each window of a list. -/
theorem forEach_freeWindow_freed (is : List (Fin 16)) (u : State) (hq : u.link.injq = []) (hw : u.intakeWait = []) :
    State.Freed is u (forEach (fun i t => t.freeWindow i) is u) := by
  induction is generalizing u with
  | nil => exact State.Freed.nil u
  | cons i is ih =>
    have h := u.freeWindow_freed i hq hw
    have hq' : (u.freeWindow i).link.injq = [] := by rw [h.rest]; exact hq
    have hw' : (u.freeWindow i).intakeWait = [] := by rw [h.rest]; exact hw
    exact h.append (ih _ hq' hw')

/-- The state of a link reset before its windows are freed: the link, the command unit and the report unit afresh. -/
def State.linkCleared (s : State) : State :=
  { s with link := s.link.reset, intakeWait := [], cmd := CommandUnit.powerOn, rep := ReportUnit.powerOn }

/-- Link reset, put together: the windows but window 0 are freed, the section is discarded, the tags become none. -/
theorem State.linkReset_spec (s : State) :
    ∃ v : State, State.Freed ((List.finRange 16).filter fun i => decide (i.val ≠ 0)) s.linkCleared v
      ∧ s.linkReset = { s with
          link := s.link.reset, intakeWait := [], cmd := CommandUnit.powerOn, rep := ReportUnit.powerOn
          windows := v.windows, rings := v.rings, tap := Tap.powerOn
          mirror := s.dropSection.mirror, out := s.dropSection.out
          zoneMain := { s.zoneMain with tag := none }, zoneTwo := { s.zoneTwo with tag := none }
          tuner := s.tuner.dropTag } := by
  have h := forEach_freeWindow_freed ((List.finRange 16).filter fun i => decide (i.val ≠ 0)) s.linkCleared rfl rfl
  generalize hv : forEach (fun i t => t.freeWindow i) ((List.finRange 16).filter fun i => decide (i.val ≠ 0))
    s.linkCleared = v at h
  refine ⟨v, h, ?_⟩
  have hreset : s.linkReset = (let u := (v.dropSection.dropSwitchTag .main).dropSwitchTag .zone2
      { u with tuner := u.tuner.dropTag, tap := Tap.powerOn }) := by
    rw [← hv]
    rfl
  obtain ⟨hm, ho⟩ := State.dropSection_congr s s.linkCleared rfl rfl
  have hmirror := h.drop.1.trans hm.symm
  have hout := h.drop.2.trans ho.symm
  obtain ⟨wi, ri, ta, mi, ou, rfl⟩ : ∃ wi ri ta mi ou, v = { s.linkCleared with
      windows := wi, rings := ri, tap := ta, mirror := mi, out := ou } := ⟨_, _, _, _, _, h.rest⟩
  rw [hreset, State.dropSection_eq, hmirror, hout]
  rfl

/-- After a link reset no host request is in flight: those that were are to be discarded (R27). -/
theorem InFlight.afterReset_ne_host (x : InFlight) (r : Request) : x.afterReset ≠ .host r := by
  cases x <;> simp [InFlight.afterReset]

/-- Settles O8: the parts of a link reset, and a STREAM source without a ring is not present. -/
theorem linkResetClearsMemoryPath : Obligations.LinkResetClearsMemoryPath := by
  intro s
  obtain ⟨v, hfreed, heq⟩ := s.linkReset_spec
  have hmem (i : Fin 16) : i ∈ ((List.finRange 16).filter fun i => decide (i.val ≠ 0)) ↔ i ≠ 0 := by
    rw [List.mem_filter, decide_eq_true_eq, ne_eq, ne_eq, ← Fin.val_inj]
    exact and_iff_right (List.mem_finRange i)
  have hwin (i : Fin 16) : s.linkReset.window i = v.window i := by rw [heq]; rfl
  have hring (i : Fin 16) : s.linkReset.ring i = v.ring i := by rw [heq]; rfl
  have hout : s.linkReset.out = s.dropSection.out := by rw [heq]
  have hgone (i : Fin 16) (hi : i ≠ 0) (hs : ∃ b n c, s.window i = .stream b n c) : s.linkReset.ring i = none := by
    rw [hring]
    exact hfreed.gone i ((hmem i).mpr hi) hs
  refine ⟨s.linkReset, rfl, ?_⟩
  refine ⟨by rw [heq]; rfl, by rw [heq]; rfl, by rw [heq]; rfl, by rw [heq]; rfl, by rw [heq]; rfl, by rw [heq]; rfl,
    by rw [heq]; rfl, ?_, ?_, by rw [heq], by rw [heq]; rfl, ?_, by rw [heq], ?_, ?_, by rw [heq], hgone, ?_, ?_,
    by rw [heq]; rfl, by rw [heq]; rfl, by rw [heq]; rfl, by rw [heq]; rfl, by rw [heq]; rfl, ?_, ?_, by rw [heq]; rfl,
    ?_, ?_, by rw [heq], ?_, ?_, by rw [heq], by rw [heq], by rw [heq], by rw [heq], by rw [heq], by rw [heq],
    by rw [heq], by rw [heq], by rw [heq], by rw [heq], by rw [heq], by rw [heq], by rw [heq]; rfl, by rw [heq],
    by rw [heq], by rw [heq], ?_, ?_⟩
  · rw [heq]
    intro x hx r
    obtain ⟨y, -, rfl⟩ := List.mem_map.mp (show x ∈ s.link.inFlight.map InFlight.afterReset from hx)
    exact y.afterReset_ne_host r
  · rw [heq]
    exact List.length_map InFlight.afterReset
  · rw [heq]
    exact congrArg Mirror.job s.dropSection_mirror
  · exact fun i hi => (hwin i).trans (hfreed.free i ((hmem i).mpr hi))
  · exact (hwin 0).trans (hfreed.kept 0 fun h => (hmem 0).mp h rfl)
  · intro i hs
    rw [hring]
    exact hfreed.rings i (.inr hs)
  · rw [heq]
    exact getAt_replicate false
  · rw [heq]
    simp [State.notifyLine, ReportUnit.powerOn]
  · rw [heq]
    intro z
    cases z <;> rfl
  · rw [heq]
    show s.dropSection.mirror.counts = _
    rw [s.dropSection_mirror]
  · rw [heq]
    show s.dropSection.mirror.metersOn = _
    rw [s.dropSection_mirror]
  · rw [heq]
    intro p
    cases p <;> rfl
  · intro p e w b n c hb hk hw h0 hs
    have hnone := hgone w h0 ⟨b, n, c, hs⟩
    have hb' : (s.linkReset.path p).binding = some e := by rw [heq]; cases p <;> exact hb
    have hk' : (s.linkReset.source e).kind = .stream := by rw [heq]; exact hk
    have hw' : (s.linkReset.source e).window = some w := by rw [heq]; exact hw
    rw [Bool.eq_false_iff, ne_eq, State.present_stream_iff _ p e hb' hk']
    rintro ⟨w', r, hw2, hr, -⟩
    rw [hw', Option.some.injEq] at hw2
    rw [← hw2, hnone] at hr
    cases hr
  · exact fun h => hout.trans (s.dropSection_out_kept h)
  · intro j m hj hm hsent
    obtain ⟨ho, hc⟩ := s.dropSection_merges j m hj hm hsent
    refine ⟨by rw [hout]; exact ho, fun c => ?_⟩
    rw [State.chan, hout]
    exact hc c

end Sys2Proof.Machine
end

