-- ==== Sys2Proof/Proofs/Intake.lean ====
section
/-! SUPPORT. The intake unit and the tap as they see the link (R8, R9, R20, R30 to R36, R40, R43), the producers of injected
writes (R10), and the statements about them. -/

namespace Sys2Proof.Machine

open Sys2Proof

/-! ## Producers (R10) -/

/-- The queue has a free place. -/
theorem State.room_iff (s : State) : s.room = true ↔ s.link.injq.length < 16 := by simp [State.room]

/-- The queue is full. -/
theorem State.room_eq_false (s : State) : s.room = false ↔ 16 ≤ s.link.injq.length := by simp [State.room]

/-- A waiting return of the command unit enters the queue, and only then next advances (R10, R15). -/
theorem State.placeCommandReturn_places (s : State) (r : CmdReturn) (hr : s.cmd.ret = some r)
    (hl : s.link.injq.length < 16) (hs : s.snapshotPlacing = false) (hu : s.tap.unbinding = false) :
    s.placeCommandReturn
      = { s with
          cmd := { s.cmd with ret := none, next := next64 s.cmd.next }
          link := { s.link with injq := s.link.injq ++
            [{ write := fullWrite (s.anchorBase + 64 * r.slot.val) r.bytes, origin := .command r.slot }] } } := by
  simp [State.placeCommandReturn, hr, s.room_iff.mpr hl, hs, hu]
  rfl

/-- With the queue full the command unit places nothing. -/
theorem State.placeCommandReturn_full (s : State) (hl : 16 ≤ s.link.injq.length) : s.placeCommandReturn = s := by
  unfold State.placeCommandReturn
  split
  · rfl
  · exact if_pos (.inl (s.room_eq_false.mpr hl))

/-- The oldest waiting return of a slot enters the queue (R10, R35). -/
theorem State.placeReturn_places (s : State) (w : Fin 16) (i : Nat) (rest : List (Fin 16 × Nat)) (r : Ring)
    (hw : s.intakeWait = (w, i) :: rest) (hr : s.ring w = some r) (hl : s.link.injq.length < 16) :
    s.placeReturn = { s with
      intakeWait := rest
      link := { s.link with injq := s.link.injq ++
        [{ write := fullWrite ((s.window w).base + (s.window w).slotSize * i)
             (slotWord (r.slot i).outcome (r.slot i).late false (r.slot i).len (r.slot i).moved)
           origin := .stream w i }] } } := by
  simp [State.placeReturn, hw, hr, s.room_iff.mpr hl]
  rfl

/-- With none waiting no return of a slot is placed. -/
theorem State.placeReturn_none (s : State) (hw : s.intakeWait = []) : s.placeReturn = s := by
  simp [State.placeReturn, hw]

/-- With the queue full no return of a slot is placed. -/
theorem State.placeReturn_full (s : State) (hl : 16 ≤ s.link.injq.length) : s.placeReturn = s := by
  unfold State.placeReturn
  split
  · rfl
  · exact if_pos (s.room_eq_false.mpr hl)

/-- Placing a tap write does not end or begin an unbinding. -/
theorem State.placeTapItem_unbinding (s : State) (it : TapItem) : (s.placeTapItem it).tap.unbinding = s.tap.unbinding := by
  unfold State.placeTapItem
  split
  · rfl
  · split <;> rfl

/-- Taking frames does not end or begin an unbinding. -/
theorem Tap.tookFrames_unbinding (t : Tap) (cap k : Nat) : (t.tookFrames cap k).unbinding = t.unbinding := by
  unfold Tap.tookFrames
  simp only
  split <;> rfl

/-- A move of the tap does not end or begin an unbinding. -/
theorem State.tapMove_unbinding (s : State) : s.tapMove.1.tap.unbinding = s.tap.unbinding := by
  unfold State.tapMove
  split
  · split
    · rfl
    · exact State.placeTapItem_unbinding _ _
  · split
    · dsimp only
      split
      · split
        · rfl
        · exact Tap.tookFrames_unbinding _ _ _
      · rfl
    · rfl

/-- A waiting write of the tap is placed when there is room. -/
theorem State.tapMove_outbox (s : State) (it : TapItem) (rest : List TapItem) (ho : s.tap.outbox = it :: rest)
    (hl : s.link.injq.length < 16) :
    s.tapMove = (({ s with tap := { s.tap with outbox := rest } }).placeTapItem it, true) := by
  simp [State.tapMove, ho, s.room_iff.mpr hl]

/-- While no unbinding is in progress the tap's step is its next move. -/
theorem State.tapEnqueue_eq (s : State) (hu : s.tap.unbinding = false) : s.tapEnqueue = s.tapMove.1 := by
  unfold State.tapEnqueue
  simp [s.tapMove_unbinding, hu]

/-- The tap writes frames into a slot that is OFFERED or FILLING (R44). -/
theorem TapSlot.takes_iff (x : TapSlot) : x.takes = true ↔ x.view = .offered ∨ x.view = .filling := by
  simp [TapSlot.takes]

/-- With the queue full the tap waits, but for frames that it drops at a slot it may not fill. -/
theorem State.tapMove_full (s : State) (hl : 16 ≤ s.link.injq.length)
    (h : s.tap.outbox ≠ [] ∨ s.tap.hold = [] ∨ (s.tap.slot s.tap.fillPos).view = .offered
      ∨ (s.tap.slot s.tap.fillPos).view = .filling) : s.tapMove.1 = s := by
  have hroom := s.room_eq_false.mpr hl
  unfold State.tapMove
  split
  · simp [hroom]
  next ho =>
    split
    next hh _ _ =>
      have ht : (s.tap.slot s.tap.fillPos).takes = true := by
        rw [TapSlot.takes_iff]
        rcases h with h | h | h
        · exact absurd ho h
        · rw [h] at hh; cases hh
        · exact h
      simp [ht, hroom]
    · rfl

/-- With the queue full the mirror waits. -/
theorem State.mirrorMove_full (s : State) (hl : 16 ≤ s.link.injq.length) (hb : s.mirrorBase ≠ none)
    (hp : ∀ j, s.mirror.job = some j → j.pieces ≠ []) : s.mirrorMove = s := by
  unfold State.mirrorMove
  split
  · rfl
  next hn => exact absurd hn hb
  next j _ hj _ =>
    split
    next hn => exact absurd hn (hp j hj)
    · exact if_pos (s.room_eq_false.mpr hl)

/-- The mirror places the next write of its section (R24). -/
theorem State.mirrorMove_places (s : State) (j : MirrorJob) (base off : Nat) (bs : List Byte)
    (rest : List (Nat × List Byte)) (hj : s.mirror.job = some j) (hb : s.mirrorBase = some base)
    (hp : j.pieces = (off, bs) :: rest) (hl : s.link.injq.length < 16) :
    s.mirrorMove =
      (let t : State := { s with
        mirror := { s.mirror with job := some { j with pieces := rest } }
        link := { s.link with injq := s.link.injq ++ [{ write := fullWrite (base + off) bs, origin := .sect }] } }
       if rest = [] then t.sectionDone j.sect else t) := by
  simp [State.mirrorMove, hj, hb, hp, s.room_iff.mpr hl]
  rfl

/-- Settles O15: each producer's step is its own placing, and none of them places anything in a full queue. -/
theorem producersTakeTheFreePlace : Obligations.ProducersTakeTheFreePlace := by
  refine ⟨?_, ?_, ?_, ?_, ?_, ?_⟩
  · exact fun s r hr hl hs hu => congrArg Host.Outcome.next (s.placeCommandReturn_places r hr hl hs hu)
  · exact fun s w i rest r hw hr hl => congrArg Host.Outcome.next (s.placeReturn_places w i rest r hw hr hl)
  · intro s it rest ho hl hu
    exact congrArg Host.Outcome.next ((s.tapEnqueue_eq hu).trans (congrArg Prod.fst (s.tapMove_outbox it rest ho hl)))
  · exact fun s hu => congrArg Host.Outcome.next (s.tapEnqueue_eq hu)
  · intro s j base off bs p rest hj hb hp hl
    have hm := s.mirrorMove_places j base off bs (p :: rest) hj hb hp hl
    simp only [reduceCtorEq, if_false] at hm
    show Host.Outcome.next s.mirrorEnqueue = _
    rw [State.mirrorEnqueue, hm]
    rfl
  · intro s p hl hu hb hp ht
    refine congrArg Host.Outcome.next ?_
    cases p with
    | command => exact s.placeCommandReturn_full hl
    | report => exact s.writePending_keeps (.inr (.inr hl))
    | intake => exact s.placeReturn_full hl
    | tap => exact (s.tapEnqueue_eq hu).trans (s.tapMove_full hl (ht rfl))
    | mirror =>
      show s.mirrorEnqueue = s
      rw [State.mirrorEnqueue, s.mirrorMove_full hl hb hp, s.placeCommandReturn_full hl]
      exact ite_self s

/-! ## The report ring (R20) -/

/-- Owner bytes PART in the report ring free their entries, and nothing else changes (R20). -/
theorem State.observeReport_spec (got : List (Nat × Byte)) (s : State) (h : ∀ ab ∈ got, ab.1 < 4096) :
    ∃ v : Vector Bool 128, s.observeReport got = { s with rep := { s.rep with entryHost := v } }
      ∧ ∀ e : Fin 128, getAt v e = if (32 * e.val, (1 : Byte)) ∈ got then false else getAt s.rep.entryHost e := by
  induction got generalizing s with
  | nil => exact ⟨s.rep.entryHost, rfl, fun e => by simp⟩
  | cons ab rest ih =>
    obtain ⟨a, b⟩ := ab
    have ha : a < 4096 := h (a, b) List.mem_cons_self
    have hrest : ∀ ab ∈ rest, ab.1 < 4096 := fun ab hab => h ab (List.mem_cons_of_mem _ hab)
    by_cases hc : a % 32 = 0 ∧ b = 1
    · obtain ⟨v, hv, he⟩ := ih { s with rep := { s.rep with
        entryHost := setAt s.rep.entryHost ⟨a / 32 % 128, Nat.mod_lt _ (by decide)⟩ false } } hrest
      refine ⟨v, ?_, fun e => ?_⟩
      · rw [State.observeReport, if_pos hc]
        exact hv
      · have hiff : (⟨a / 32 % 128, Nat.mod_lt _ (by decide)⟩ : Fin 128) = e ↔ 32 * e.val = a := by
          rw [Fin.ext_iff]
          have := e.isLt
          constructor <;> intro hx <;> simp only at hx ⊢ <;> omega
        rw [he e, getAt_setAt]
        simp only [hiff, List.mem_cons, Prod.mk.injEq, hc.2, and_true]
        by_cases hm : 32 * e.val = a <;> simp [hm]
    · obtain ⟨v, hv, he⟩ := ih s hrest
      refine ⟨v, ?_, fun e => ?_⟩
      · rw [State.observeReport, if_neg hc]
        exact hv
      · have hne : (32 * e.val, (1 : Byte)) ≠ (a, b) := fun hx => hc (by
          rw [Prod.mk.injEq] at hx
          exact ⟨by omega, hx.2.symm⟩)
        rw [he e]
        simp only [List.mem_cons, hne, false_or]

/-! ## STREAM windows (R30 to R35) -/

/-- What a slot record is when it enters RETURNING (R35). -/
theorem State.enterReturning_eq (s : State) (i : Fin 16) (k : Nat) (status : StreamStatus) (len : Nat) (r : Ring)
    (hr : s.ring i = some r) :
    let y : SlotRec :=
      { r.slot k with state := .returning, page := none, outcome := status, len := len
                      skip := (r.slot k).skip || decide (k ≠ r.unpackPos) }
    let q := if k = r.unpackPos then ({ r.setSlot k y with unpackPos := (k + 1) % r.slots.length }).arrive
      else r.setSlot k y
    let v := { s.setRing i (some q) with intakeWait := s.intakeWait ++ [(i, k)] }
    s.enterReturning i k status len = if s.intakeWait = [] then v.placeReturn else v := by
  intro y q v
  have hskip : (!decide (k = r.unpackPos)) = decide (k ≠ r.unpackPos) := (decide_not ..).symm
  simp only [State.enterReturning, hr, hskip, decide_eq_true_eq]
  rfl

/-- A write into a part-owned slot is late and nothing else (R34). -/
theorem State.observeStream_late (s : State) (i : Fin 16) (w : LinkWrite) (r : Ring) (hr : s.ring i = some r) :
    let k := (w.addr - (s.window i).base) / (s.window i).slotSize
    (r.slot k).state.partOwned = true →
      s.observeStream i w = s.setRing i (some (r.setSlot k { r.slot k with late := true })) := by
  intro k hk
  simp only [State.observeStream, hr]
  exact if_pos hk

/-- A write into a host-owned slot: its bytes are captured, and owner PART then hands the slot over (R30 to R32). -/
theorem State.observeStream_captures (s : State) (i : Fin 16) (w : LinkWrite) (r : Ring) (hr : s.ring i = some r) :
    let size := (s.window i).slotSize
    let k := (w.addr - (s.window i).base) / size
    let got := (capturedOf w).map fun ab => (ab.1 - (s.window i).base - size * k, ab.2)
    let bytes := got.filter fun ab => decide (ab.1 ≠ 0)
    let kept := if bytes = [] then s else s.captureInto i r k bytes
    (r.slot k).state.partOwned = false →
      s.observeStream i w
        = if (got.find? fun ab => decide (ab.1 = 0)).map Prod.snd = some 1 then kept.streamHandover i k else kept := by
  intro size k got bytes kept hk
  have hkept : (if bytes.isEmpty then s else s.captureInto i r k bytes) = kept := by
    simp only [kept, List.isEmpty_iff]
  simp only [State.observeStream, hr]
  rw [if_neg (by simp [k, size] at hk ⊢; exact hk)]
  show (match got.find? fun ab => decide (ab.1 = 0) with
    | none => if bytes.isEmpty then s else s.captureInto i r k bytes
    | some (_, b) => _) = _
  rw [hkept]
  cases got.find? fun ab => decide (ab.1 = 0) with
  | none => rfl
  | some ab =>
    simp only [Option.map_some, Option.some.injEq]
    rfl

end Sys2Proof.Machine
end

