-- ==== Sys2Proof/Proofs/Rings.lean ====
section
/-! SUPPORT. The slots of a STREAM window: capture, handover and sealing (R30 to R33), the rings' positions, flushes and
what a window feeds (R29, R36, R40), and the statements about them. -/

namespace Sys2Proof.Machine

open Sys2Proof

/-! ## Capture and handover (R30 to R33) -/

/-- Sealing a slot: OK at length 0, BAD_LENGTH above the capacity, else by what its payload holds (R33). -/
theorem State.sealSlot_cases (s : State) (i : Fin 16) (r : Ring) (k : Nat) :
    let x := r.slot k
    let page := x.page.getD []
    let len := leNat (memBytes page 4 2)
    let cap := (s.window i).slotSize - 16
    let p := parseSlot page len
    let good := goodFrames p.1
    let v := s.setRing i (some (r.setSlot k
      { x with state := .sealed, len := len, outcome := if p.2 = true then .ok else .badFrame, good := good
               moved := 0 }))
    (len = 0 → s.sealSlot i r k = s.enterReturning i k .ok 0)
    ∧ (cap < len → s.sealSlot i r k = s.enterReturning i k .badLength len)
    ∧ (0 < len → len ≤ cap → good ≠ 0 → s.sealSlot i r k = v)
    ∧ (0 < len → len ≤ cap → good = 0 → s.sealSlot i r k = v.enterReturning i k .badFrame len) := by
  intro x page len cap p good v
  refine ⟨fun h => if_pos h, fun h => ?_, fun h0 hc hg => ?_, fun h0 hc hg => ?_⟩
  · have h0 : len ≠ 0 := by omega
    exact (if_neg h0).trans (if_pos h)
  · exact (if_neg (Nat.pos_iff_ne_zero.mp h0)).trans ((if_neg (Nat.not_lt.mpr hc)).trans (if_neg hg))
  · exact (if_neg (Nat.pos_iff_ne_zero.mp h0)).trans ((if_neg (Nat.not_lt.mpr hc)).trans (if_pos hg))

/-- What captured bytes leave of a slot, by its state (R30, R31). -/
theorem State.captureInto_cases (s : State) (i : Fin 16) (r : Ring) (k : Nat) (bytes : List (Nat × Byte)) :
    let x := r.slot k
    let leaves (y : SlotRec) : Prop := s.captureInto i r k bytes = s.setRing i (some (r.setSlot k y))
    (x.state = .empty → r.feeds = none → s.captureInto i r k bytes = s)
    ∧ (x.state = .empty → r.feeds ≠ none → s.pagesBound < 32 →
        leaves { x with state := .filling, page := some (memStore bytes []) })
    ∧ (x.state = .empty → r.feeds ≠ none → 32 ≤ s.pagesBound → leaves { x with state := .missed })
    ∧ (x.state = .filling → leaves { x with page := x.page.map (memStore bytes) })
    ∧ (x.state = .missed → s.captureInto i r k bytes = s) := by
  intro x leaves
  have hsome (h : r.feeds ≠ none) : r.feeds.isNone = false :=
    Option.isNone_eq_false_iff.mpr (Option.isSome_iff_ne_none.mpr h)
  refine ⟨fun hs hf => ?_, fun hs hf hp => ?_, fun hs hf hp => ?_, fun hs => ?_, fun hs => ?_⟩
  · simp only [State.captureInto, show (r.slot k).state = _ from hs]
    simp [hf]
  · simp only [leaves, State.captureInto, show (r.slot k).state = _ from hs, hsome hf]
    simp [hp, x]
  · simp only [leaves, State.captureInto, show (r.slot k).state = _ from hs, hsome hf]
    simp [Nat.not_lt.mpr hp, x]
  · simp only [leaves, State.captureInto, show (r.slot k).state = _ from hs, x]
  · simp only [State.captureInto, show (r.slot k).state = _ from hs]

/-- A handover of a host-owned slot, by its state and by whether the window feeds a path (R32, R33). -/
theorem State.streamHandover_eq (s : State) (i : Fin 16) (k : Nat) (r : Ring) (hr : s.ring i = some r) :
    let q := { r with handoverCount := 0, idle := false }
    let u := s.setRing i (some q)
    let x := r.slot k
    (x.state = .empty → s.streamHandover i k
      = if r.feeds.isSome then u.enterReturning i k .emptySlot 0 else u.enterReturning i k .flushed 0)
    ∧ (x.state = .missed → s.streamHandover i k = u.enterReturning i k .missed 0)
    ∧ (x.state = .filling → s.streamHandover i k
      = if r.feeds.isSome then u.sealSlot i q k
        else u.enterReturning i k .flushed (leNat (memBytes (x.page.getD []) 4 2))) := by
  intro q u x
  refine ⟨fun hs => ?_, fun hs => ?_, fun hs => ?_⟩
  all_goals
    have hx : (Ring.slot { r with handoverCount := 0, idle := false } k).state = _ := hs
    simp only [State.streamHandover, hr, hx]
  all_goals rfl

/-- An observed write in the TAP window: by the view of its slot and whether the tap is bound (R43). -/
theorem State.observeTap_cases (s : State) (i v : Fin 16) (w : LinkWrite) (b n c : Nat)
    (ht : s.tapWindow = some (v, b, n, c)) :
    let k := (w.addr - b) / n
    let x := s.tap.slot k
    let owner := ((capturedOf w).find? fun ab => decide (ab.1 = b + n * k)).map Prod.snd
    (x.view ≠ .hostOwned → s.observeTap i w = { s with tap := s.tap.setSlot k { x with late := true } })
    ∧ (x.view = .hostOwned → owner ≠ some 1 → s.observeTap i w = s)
    ∧ (∀ p, x.view = .hostOwned → owner = some 1 → s.tap.binding = some (i, p) →
        s.observeTap i w = { s with tap := s.tap.setSlot k { x with view := .offered, count := 0 } })
    ∧ (x.view = .hostOwned → owner = some 1 → s.tap.binding = none →
        s.observeTap i w = State.endUnbinding (State.tapPump 64 { s with tap :=
          { s.tap.setSlot k { x with view := .closing, count := 0 } with
            outbox := s.tap.outbox ++ [.close k 0 .flushed false] } })) := by
  intro k x owner
  have hview : (s.tap.slot ((w.addr - b) / n)).view = x.view := rfl
  have hfind : ((capturedOf w).find? fun ab => decide (ab.1 = b + n * ((w.addr - b) / n))).map Prod.snd = owner := rfl
  refine ⟨fun hv => ?_, fun hv ho => ?_, fun p hv ho hb => ?_, fun hv ho hb => ?_⟩
  · simp only [State.observeTap, ht]
    exact if_pos hv
  · simp only [State.observeTap, ht, hview, hv, ne_eq, not_true_eq_false, if_false]
    cases hf : (capturedOf w).find? fun ab => decide (ab.1 = b + n * ((w.addr - b) / n)) with
    | none => rfl
    | some ab =>
      rw [hf] at hfind
      exact if_pos fun h1 => ho (hfind.symm.trans (congrArg some h1))
  all_goals
    obtain ⟨ab, hf, h1⟩ := Option.map_eq_some_iff.mp (hfind.trans ho)
    have hnot : ¬ ab.2 ≠ 1 := not_not.mpr h1
    simp only [State.observeTap, ht, hview, hv, ne_eq, not_true_eq_false, if_false, hf, hb]
    rw [if_neg hnot]
  exact if_pos trivial

/-- Where nothing waits any more an unbinding is over (R15, log 47). -/
theorem State.endUnbinding_eq (s : State) :
    s.endUnbinding = { s with tap := { s.tap with unbinding := s.tap.unbinding && !s.tap.outbox.isEmpty } } := by
  unfold State.endUnbinding
  cases h : s.tap.outbox.isEmpty <;> simp

/-- Settles O20: what an observed write does in each kind of window, and what gives a slot back. -/
theorem windowWritesAreObserved : Obligations.WindowWritesAreObserved := by
  refine ⟨?_, fun s got h => s.observeReport_spec got h, ?_, ?_, State.captureInto_cases, ?_, State.enterReturning_eq,
    fun _ => rfl, ?_, ?_, fun _ _ => rfl⟩
  · intro s w i hi off got
    refine ⟨fun b hb => ?_, fun b n c hs => ?_, fun b n c ht => ?_, ?_⟩
    · simp only [State.observeRequest, State.observe, hi, hb]
      rfl
    · simp only [State.observeRequest, State.observe, hi, hs]
    · simp only [State.observeRequest, State.observe, hi, ht]
    · rintro (hf | ⟨b, hm⟩)
      · simp only [State.observeRequest, State.observe, hi, hf]
      · simp only [State.observeRequest, State.observe, hi, hm]
  · intro s
    simp [State.notifyLine]
  · intro s i w r hr size k x got bytes kept
    refine ⟨fun hs => s.observeStream_late i w r hr ?_, fun hs => s.observeStream_captures i w r hr ?_⟩
    · show x.state.partOwned = true
      rcases hs with hs | hs | hs <;> rw [hs] <;> rfl
    · show x.state.partOwned = false
      rcases hs with hs | hs | hs <;> rw [hs] <;> rfl
  · intro s i k r hr q u x page len cap returns
    obtain ⟨hempty, hmissed, hfilling⟩ := s.streamHandover_eq i k r hr
    obtain ⟨hzero, hlong, hgood, hbad⟩ := u.sealSlot_cases i q k
    have hsome (h : r.feeds ≠ none) : r.feeds.isSome = true := by simpa [Option.isSome_iff_ne_none] using h
    have hseal (hs : x.state = .filling) (hf : r.feeds ≠ none) : s.streamHandover i k = u.sealSlot i q k :=
      (hfilling hs).trans (if_pos (hsome hf))
    refine ⟨fun hs hf => (hempty hs).trans (if_pos (hsome hf)), fun hs hf => (hempty hs).trans (if_neg (by simp [hf])),
      hmissed, fun hs hf => (hfilling hs).trans (if_neg (by simp [hf])),
      fun hs hf h0 => (hseal hs hf).trans (hzero h0), fun hs hf hl => (hseal hs hf).trans (hlong hl),
      fun hs hf h0 hl => ⟨fun hg => (hseal hs hf).trans (hgood h0 hl hg), fun hg => (hseal hs hf).trans (hbad h0 hl hg)⟩⟩
  · intro s i k r hr
    show s.slotReturned i k = _
    simp only [State.slotReturned, hr]
    rfl
  · intro s i v w b n c ht k x owner
    obtain ⟨hlate, hnot, hoffer, hflush⟩ := s.observeTap_cases i v w b n c ht
    exact ⟨hlate, hnot, hoffer, fun hv ho hb => (hflush hv ho hb).trans (State.endUnbinding_eq _)⟩

/-! ## Slot words and ring positions (R35, R36) -/

/-- Putting a slot record in its place keeps the number of slots. -/
theorem Ring.setSlot_length (r : Ring) (i : Nat) (x : SlotRec) : (r.setSlot i x).slots.length = r.slots.length := by
  simp [Ring.setSlot, listSet_eq]

/-- A slot record after one was put in its place; a place outside the ring changes nothing. -/
theorem Ring.slot_setSlot (r : Ring) (i j : Nat) (x : SlotRec) :
    (r.setSlot i x).slot j = if j = i ∧ i < r.slots.length then x else r.slot j := by
  simp only [Ring.slot, Ring.setSlot, listSet_eq, List.getD_eq_getElem?_getD, List.getElem?_set]
  by_cases hij : i = j
  · subst hij
    by_cases hi : i < r.slots.length <;> simp [hi]
  · simp [hij, Ne.symm hij]

/-- The unpacker passes a skipped slot that is host-owned or RETURNING, and stays at any other (R36). -/
theorem Ring.advanceSkips_cases (n : Nat) (r : Ring) :
    let x := r.slot r.unpackPos
    let passes := x.skip = true ∧ x.state ∈ [SlotState.empty, .filling, .missed, .returning]
    (¬ passes → Ring.advanceSkips (n + 1) r = r)
    ∧ (passes → Ring.advanceSkips (n + 1) r = Ring.advanceSkips n
        { r.setSlot r.unpackPos { x with skip := false } with unpackPos := (r.unpackPos + 1) % r.slots.length }) := by
  intro x passes
  have hcond : (x.skip && (!x.state.partOwned || decide (x.state = .returning))) = true ↔ passes := by
    simp only [passes]
    cases x.state <;> simp [SlotState.partOwned]
  exact ⟨fun h => if_neg (mt hcond.mp h), fun h => if_pos (hcond.mpr h)⟩

/-! ## The flush (R40) -/

/-- A flush takes slots in ring order from the position on. -/
theorem flushList_sublist (r : Ring) (m i : Nat) (hi : i < r.slots.length) :
    (flushList r m i).Sublist ((List.range m).map fun k => (i + k) % r.slots.length) := by
  induction m generalizing i with
  | zero => exact List.Sublist.refl _
  | succ m ih =>
    have hpos : 0 < r.slots.length := by omega
    have htail : ((List.range m).map fun k => (r.after i + k) % r.slots.length)
        = (List.range m).map fun k => (i + (k + 1)) % r.slots.length := by
      refine List.map_congr_left fun k _ => ?_
      unfold Ring.after
      rw [Nat.mod_add_mod]
      congr 1
      omega
    have hrec := ih (r.after i) (Nat.mod_lt _ hpos)
    rw [htail] at hrec
    rw [List.range_succ_eq_map, List.map_cons, List.map_map, show (i + 0) % r.slots.length = i from Nat.mod_eq_of_lt hi,
      flushList]
    split_ifs
    · exact hrec.cons_cons i
    · exact hrec.cons i

/-- A whole round of a flush takes exactly the slots that are caught. -/
theorem flushList_round (r : Ring) (hp : r.unpackPos < r.slots.length) (j : Nat) :
    j ∈ flushList r r.slots.length r.unpackPos
      ↔ j < r.slots.length ∧ ((r.slot j).state = .sealed ∨ (r.slot j).state = .unpacking) := by
  rw [flushList_mem r _ _ _ hp]
  constructor
  · exact fun h => ⟨r.caught_lt j h.1, h.1⟩
  · rintro ⟨hj, hc⟩
    refine ⟨hc, (j + (r.slots.length - r.unpackPos)) % r.slots.length, Nat.mod_lt _ (by omega), ?_⟩
    rw [Nat.add_mod_mod, show r.unpackPos + (j + (r.slots.length - r.unpackPos)) = j + r.slots.length by omega,
      Nat.add_mod_right, Nat.mod_eq_of_lt hj]

/-- A flush keeps the number of slots. -/
theorem Ring.flushed_length (r : Ring) : r.flushed.slots.length = r.slots.length := by
  have h := flushSlots_spec (flushList r r.slots.length r.unpackPos) r
    fun i hi => r.caught_lt i (flushList_caught r _ _ _ hi)
  simpa [Ring.flushed] using h.2.1

/-- A flush leaves the counts of a ring. -/
theorem Ring.flushed_counts (r : Ring) :
    r.flushed.handoverCount = r.handoverCount ∧ r.flushed.idle = r.idle := by
  have h := (flushSlots_spec (flushList r r.slots.length r.unpackPos) r
    fun i hi => r.caught_lt i (flushList_caught r _ _ _ hi)).1
  simp only [Ring.flushed]
  rw [h]
  exact ⟨rfl, rfl⟩

/-- The slot records of a flushed ring: those caught return FLUSHED, and no mark is left (R40). -/
theorem Ring.flushed_slot_cases (r : Ring) (hp : r.unpackPos < r.slots.length) (j : Nat) (hj : j < r.slots.length) :
    r.flushed.slot j = if (r.slot j).state = .sealed ∨ (r.slot j).state = .unpacking then
        { r.slot j with state := .returning, page := none, outcome := .flushed, skip := false }
      else { r.slot j with skip := false } := by
  rw [r.flushed_slot]
  by_cases hc : (r.slot j).state = .sealed ∨ (r.slot j).state = .unpacking
  · rw [if_pos ((flushList_round r hp j).mpr ⟨hj, hc⟩), if_pos hc]
    rfl
  · rw [if_neg fun h => hc ((flushList_round r hp j).mp h).2, if_neg hc]

/-- A window with no ring is not flushed and feeds nothing. -/
theorem State.flushWindow_none (s : State) (w : Fin 16) (h : s.ring w = none) :
    s.flushWindow w = s ∧ s.feedIfNamed w = s := by
  simp [State.flushWindow, State.feedIfNamed, h]

/-- A window that feeds no path starts to feed the one R29 chooses, and else stays as it is. -/
theorem State.feedIfNamed_cases (s : State) (w : Fin 16) (r : Ring) (hr : s.ring w = some r) :
    (r.feeds ≠ none → s.feedIfNamed w = s)
    ∧ (r.feeds = none → s.feedChoice w = none → s.feedIfNamed w = s)
    ∧ (∀ p, r.feeds = none → s.feedChoice w = some p → s.feedIfNamed w
      = s.setRing w (some (Ring.arrive { r with feeds := some p, handoverCount := 0, idle := false }))) := by
  refine ⟨fun hf => ?_, fun hf hc => ?_, fun p hf hc => ?_⟩
  · have hs : r.feeds.isSome = true := Option.isSome_iff_ne_none.mpr hf
    simp [State.feedIfNamed, hr, hs]
  · simp [State.feedIfNamed, hr, hf, hc]
  · simp [State.feedIfNamed, State.startFeeding, hr, hf, hc]

/-- Settles O21: slot words and the order of returns, skip marks, flushes, and what a window feeds. -/
theorem ringPositions : Obligations.RingPositions := by
  refine ⟨fun status late gap len frames => ?_, fun _ _ _ => ⟨rfl, rfl⟩,
    fun r i j x => ⟨rfl, r.setSlot_length i x, r.slot_setSlot i j x⟩, State.placeReturn_none, State.placeReturn_full,
    State.placeReturn_places, fun _ _ => ⟨rfl, rfl⟩, ?_, ?_, ?_⟩
  · cases status <;> rfl
  · intro n r x passes
    obtain ⟨hstays, hpasses⟩ := Ring.advanceSkips_cases n r
    refine ⟨fun hf => by simp [Ring.arrive, hf], fun hf => ?_, rfl, hstays, hpasses⟩
    obtain ⟨p, hp⟩ := Option.ne_none_iff_exists'.mp hf
    simp [Ring.arrive, hp]
  · intro s w
    refine ⟨s.flushWindow_none w, ?_⟩
    intro r hr hp n caught is
    refine ⟨flushList_sublist r n r.unpackPos hp, flushList_round r hp, fun hnil => ?_, fun i hi => ?_, r.flushed, rfl, rfl,
      r.flushed_counts.1, r.flushed_counts.2, r.flushed_length, r.flushed_slot_cases hp, ?_⟩
    · show (match is.getLast? with | none => r.unpackPos | some i => r.after i) = _
      rw [hnil]
      rfl
    · show (match is.getLast? with | none => r.unpackPos | some i => r.after i) = _
      rw [hi]
      rfl
    · unfold State.flushWindow
      rw [hr]
      rfl
  · intro s w r hr names feeds
    have hn (p : PathId) : s.namesWindow p w = true ↔ names p := s.namesWindow_iff p w
    obtain ⟨hfeeds, hnone, hsome⟩ := s.feedIfNamed_cases w r hr
    refine ⟨hfeeds, fun hf hno => hnone hf ?_, fun hf hyes => hsome _ hf ?_, fun hf hno hyes => hsome _ hf ?_⟩
    · exact (if_neg (mt (hn _).mp (hno _))).trans (if_neg (mt (hn _).mp (hno _)))
    · exact if_pos ((hn _).mpr hyes)
    · exact (if_neg (mt (hn _).mp hno)).trans (if_pos ((hn _).mpr hyes))

end Sys2Proof.Machine
end

