-- ==== Sys2Proof/Proofs/Mirror.lean ====
section
/-! SUPPORT. The mirror (R23 to R25, R181): what beginning and placing a section changes, the bytes of the records and
sections (11.6), and the statement about them. -/

namespace Sys2Proof.Machine

open Sys2Proof

/-! ## Beginning and placing a section (R24, R181) -/

/-- Discarding the section keeps the write counts. -/
theorem State.dropSection_counts (s : State) : s.dropSection.mirror.counts = s.mirror.counts := by
  rw [s.dropSection_mirror]

/-- The end of a section keeps the write counts. -/
theorem State.sectionDone_counts (s : State) (x : SnapSection) : (s.sectionDone x).mirror.counts = s.mirror.counts := by
  unfold State.sectionDone
  simp only
  split <;> rfl

/-- A move of the mirror keeps the write counts. -/
theorem State.mirrorMove_counts (s : State) : s.mirrorMove.mirror.counts = s.mirror.counts := by
  unfold State.mirrorMove
  split
  · rfl
  · exact s.dropSection_counts
  · split
    · exact s.sectionDone_counts _
    · split
      · rfl
      · dsimp only
        split
        · exact State.sectionDone_counts _ _
        · rfl

/-- Moves of the mirror keep the write counts. -/
theorem State.mirrorPump_counts (n : Nat) (s : State) : (State.mirrorPump n s).mirror.counts = s.mirror.counts := by
  induction n generalizing s with
  | zero => rfl
  | succ n ih => rw [State.mirrorPump, ih, s.mirrorMove_counts]

/-- The state whose values a section shows: for the meters, after the handover of the held values (R181). -/
def State.atSection (s : State) (x : SnapSection) : State := if x = .meters then s.handMeters else s

/-- A handover changes the output unit only. -/
theorem State.atSection_eq (s : State) (x : SnapSection) : s.atSection x = { s with out := (s.atSection x).out } := by
  unfold State.atSection
  split <;> rfl

/-- Beginning a section: its count rises, its writes are cut from its bytes and placed while there is room (R24). -/
theorem State.beginSection_eq (u : State) (x : SnapSection) (p : Bool) :
    u.beginSection x p
      = (let v := u.atSection x
         let count := getAt u.mirror.counts (sectionIndex x) + 1
         State.mirrorPump 20 { v with mirror := { u.mirror with
           counts := setAt u.mirror.counts (sectionIndex x) count
           job := some { sect := x, periodic := p
                         pieces := cutPieces 20 (sectionStart x) (sectionBytes x count (v.sectionBody x)) } } }) := by
  have hm : (u.atSection x).mirror = u.mirror := by rw [u.atSection_eq]
  show (let v := u.atSection x
        let count := getAt v.mirror.counts (sectionIndex x) + 1
        State.mirrorPump 20 { v with mirror := { v.mirror with
          counts := setAt v.mirror.counts (sectionIndex x) count
          job := some { sect := x, periodic := p
                        pieces := cutPieces 20 (sectionStart x) (sectionBytes x count (v.sectionBody x)) } } }) = _
  simp only [hm]

/-- The sections have write counts of their own. -/
theorem sectionIndex_inj (x y : SnapSection) : sectionIndex x = sectionIndex y ↔ x = y := by
  cases x <;> cases y <;> decide

/-- Beginning a section raises its own write count by 1 (R24). -/
theorem State.beginSection_counts (u : State) (x y : SnapSection) (p : Bool) :
    getAt (u.beginSection x p).mirror.counts (sectionIndex y)
      = if x = y then getAt u.mirror.counts (sectionIndex x) + 1 else getAt u.mirror.counts (sectionIndex y) := by
  rw [u.beginSection_eq]
  simp only [State.mirrorPump_counts, getAt_setAt, sectionIndex_inj]

/-- What a handover of the meters leaves: held values at 0, and a sent copy of what they were (R181). -/
theorem State.handMeters_spec (u : State) :
    (∀ c, u.handMeters.chan c = { u.chan c with heldPeak := 0, heldClip := false, heldBlocks := 0 })
      ∧ ∃ m, u.handMeters.out.sent = some m ∧ ∀ c, getAt m c
          = { peak := (u.chan c).heldPeak, clip := (u.chan c).heldClip, blocks := (u.chan c).heldBlocks } := by
  refine ⟨fun c => ?_, _, rfl, fun c => ?_⟩
  · simp [State.handMeters, State.chan, getAt]
  · simp [State.chan, getAt, Channel.held3]

/-- The end of a section: no section is being placed, and a meter section's sent copy goes (R181). -/
theorem State.sectionDone_eq (s : State) (x : SnapSection) :
    s.sectionDone x = { s with
      mirror := { s.mirror with job := none }
      out := { s.out with sent := if x = .meters then none else s.out.sent } } := by
  unfold State.sectionDone
  by_cases hx : x = .meters <;> simp [hx]

/-! ## The bytes of a section (R24, 11.6) -/

/-- A section is cut into blocks of 64 bytes at rising offsets (log 44). -/
theorem cutPieces_get (k off i : Nat) (bs : List Byte) (h : bs.length ≤ 64 * k) :
    (cutPieces k off bs)[i]? = if 64 * i < bs.length then some (off + 64 * i, (bs.drop (64 * i)).take 64) else none := by
  induction k generalizing off i bs with
  | zero =>
    have hi : ¬ 64 * i < bs.length := by omega
    simp [cutPieces, hi]
  | succ k ih =>
    cases hb : bs.isEmpty with
    | true =>
      rw [List.isEmpty_iff] at hb
      simp [cutPieces, hb]
    | false =>
      have hpos : 0 < bs.length := List.length_pos_iff.mpr (by simpa using hb)
      rw [cutPieces, hb]
      cases i with
      | zero => simp [hpos]
      | succ i =>
        simp only [Bool.false_eq_true, if_false, List.getElem?_cons_succ]
        rw [ih (off + 64) i (bs.drop 64) (by rw [List.length_drop]; omega), List.length_drop, List.drop_drop]
        by_cases hi : 64 * (i + 1) < bs.length
        · rw [if_pos hi, if_pos (by omega)]
          congr 2
          · omega
          · congr 2
            omega
        · rw [if_neg hi, if_neg (by omega)]

/-- A section's head, body, zeros and tail (11.6). -/
theorem sectionBytes_eq (x : SnapSection) (count : BitVec 16) (body : List Byte)
    (h : body.length ≤ sectionLength x - 16) :
    sectionBytes x count body = leBytes 2 count.toNat ++ [BitVec.ofNat 8 x.code, 0, 0, 0, 0, 0] ++ body
      ++ List.replicate (sectionLength x - 16 - body.length) 0 ++ leBytes 2 count.toNat ++ [0, 0, 0, 0, 0, 0] := by
  have hl : 16 ≤ sectionLength x := by cases x <;> decide
  have hpad : sectionLength x - 8 - (body.length + 1 + 1 + 1 + 1 + 1 + 1 + 1 + 1)
      = sectionLength x - 16 - body.length := by omega
  simp [sectionBytes, padTo, byteOf, leBytes, List.replicate, hpad]

/-- A table as the list of its entries. -/
theorem toList_eq_map_getAt {α : Type} {n : Nat} (v : Vector α n) : v.toList = (List.finRange n).map (getAt v) := by
  apply List.ext_getElem
  · simp
  · intro i h1 h2
    simp [getAt]

/-- The bodies of the sections are their records, in the order of the table (11.6). -/
theorem State.sectionBody_eq (u : State) :
    u.sectionBody .zonesPaths = u.zoneRecord .main ++ u.zoneRecord .zone2 ++ u.pathRecord .p0 ++ u.pathRecord .p1
        ++ (List.finRange 12).flatMap u.sourceRecord ++ mixerRecord u.mixer
    ∧ u.sectionBody .lanes = ((List.finRange 4).flatMap fun l => laneRecord (u.lane l))
        ++ (List.finRange 12).map (fun e => match u.group e with
            | none => 0xFF
            | some g => BitVec.ofNat 8 g.stage.code)
    ∧ u.sectionBody .protection = ((List.finRange 6).flatMap fun n => pairRecord (u.pair n)) ++ thermalRecord u.thermal
    ∧ u.sectionBody .presets = (List.finRange 40).flatMap (fun i => presetRecord (getAt u.presets i))
    ∧ u.sectionBody .stations = u.regionRecord ++ u.stations.flatMap stationRecord
    ∧ ∀ m, u.out.sent = some m →
        u.sectionBody .meters = (List.finRange 12).flatMap fun c => meterRecord (getAt m c) (u.chan c).lr := by
  refine ⟨rfl, ?_, rfl, ?_, rfl, fun m hm => ?_⟩
  · refine congrArg (_ ++ ·) (List.map_congr_left fun e _ => ?_)
    cases u.group e <;> rfl
  · show u.presets.toList.flatMap presetRecord = _
    rw [toList_eq_map_getAt, List.flatMap_map]
  · simp only [State.sectionBody, State.meterBody, hm]

/-! ## The records (11.6) -/

/-- The record of a meter channel (11.6). -/
theorem meterRecord_eq (m : MeterHold) (lr : Int) : meterRecord m lr = recordOf 8 0
    [(0, [BitVec.ofNat 8 (meterReading m.peak)]), (1, [flagByte m.clip]), (2, leBytesInt 1 lr),
      (4, leBytes 2 m.blocks)] := rfl

/-- The record of a zone (11.6). -/
theorem State.zoneRecord_eq (u : State) (z : Zone) :
    let r := u.zone z
    u.zoneRecord z = recordOf 32 0
      [(0, [BitVec.ofNat 8 r.power.code]), (1, [BitVec.ofNat 8 r.switch.code]),
        (2, [optByte (r.selection.map fun e => e.val)]), (3, [optByte (r.target.map fun e => e.val)]),
        (4, [optByte (r.attached.map fun p => p.code)]), (5, [flagByte r.mute]), (6, [BitVec.ofNat 8 r.rampRate]),
        (7, [BitVec.ofNat 8 r.ceiling]), (8, leBytesInt 2 r.masterTarget), (10, leBytesInt 2 r.masterCurrent),
        (12, leBytesInt 2 r.ramp), (14, leBytes 2 r.avDelay), (16, [BitVec.ofNat 8 r.sleep]),
        (17, [BitVec.ofNat 8 r.decode.code]), (18, [flagByte (decide (u.owner = some z))]),
        (20, leBytes 2 r.waitCount), (22, leBytes 2 r.minute)] := rfl

/-- The codes of the zones attached to a path (R197). -/
theorem State.attachedCode_eq (u : State) (p : PathId) : u.attachedCode p
    = (if (u.zone .main).attached = some p then 1 else 0) + (if (u.zone .zone2).attached = some p then 2 else 0) := by
  simp [State.attachedCode, State.attachedTo]

/-- The format bytes of a path's record are 2, its role bytes 8 (11.6). -/
theorem formatRoles_length (f : Option Format) (h : ∀ g, f = some g → g.roles.length ≤ 8) :
    (formatHead f).length = 2 ∧ (formatRoles f).length = 8 := by
  cases f with
  | none => exact ⟨rfl, rfl⟩
  | some g =>
    have := h g rfl
    refine ⟨rfl, ?_⟩
    simp [formatRoles, padTo]; omega

/-- A list of 8 bytes, spelt out. -/
theorem eq_eight_of_length {α : Type} (xs : List α) (h : xs.length = 8) :
    ∃ a b c d e f g i, xs = [a, b, c, d, e, f, g, i] := by
  match xs, h with
  | [a, b, c, d, e, f, g, i], _ => exact ⟨a, b, c, d, e, f, g, i, rfl⟩

/-- A list of 2 bytes, spelt out. -/
theorem eq_two_of_length {α : Type} (xs : List α) (h : xs.length = 2) : ∃ a b, xs = [a, b] := by
  match xs, h with
  | [a, b], _ => exact ⟨a, b, rfl⟩

/-- The record of a path (11.6). -/
theorem State.pathRecord_eq (u : State) (p : PathId) (h : ∀ f, (u.path p).format = some f → f.roles.length ≤ 8) :
    let r := u.path p
    let x := r.tracker
    u.pathRecord p = recordOf 64 0
      [(0, [optByte (r.binding.map fun e => e.val)]), (1, [BitVec.ofNat 8 (u.attachedCode p)]),
        (2, [BitVec.ofNat 8 x.state.code]),
        (3, [flagByte r.format.isSome]), (4, formatHead r.format), (6, [flagByte r.formatPending]),
        (7, [flagByte x.ratchet]), (8, formatRoles r.format), (16, leBytes 2 r.fifo.length),
        (18, leBytes 2 (u.buffered p)), (20, leBytesInt 2 x.err), (22, [BitVec.ofNat 8 x.gain]),
        (24, leBytesInt 4 x.corr), (28, leBytesInt 4 x.integ), (32, leBytes 4 (x.step.getD 0)), (36, leBytes 4 x.phase),
        (40, leBytes 2 x.timer), (42, [BitVec.ofNat 8 x.slips]), (43, [flagByte x.overrun])] := by
  intro r x
  obtain ⟨hhead, hroles⟩ := formatRoles_length (u.path p).format h
  obtain ⟨a, b, hh⟩ := eq_two_of_length _ hhead
  obtain ⟨c, d, e, f, g, i, j, k, hr⟩ := eq_eight_of_length _ hroles
  dsimp only [State.pathRecord, r, x]
  rw [hh, hr]
  rfl

/-- A STREAM entry whose window index holds no STREAM window (R67). -/
theorem State.unboundWindow_iff (u : State) (e : SourceEntry) : u.unboundWindow e = true
    ↔ e.kind = .stream ∧ ∀ w, e.window = some w → ∀ b n c, u.window w ≠ .stream b n c := by
  cases hw : e.window with
  | none => simp [State.unboundWindow, hw]
  | some w => cases hv : u.window w <;> simp [State.unboundWindow, hw, hv]

/-- The record of a source (11.6). -/
theorem State.sourceRecord_eq (u : State) (i : Fin 12) :
    let e := u.source i
    u.sourceRecord i = recordOf 16 0
      [(0, [BitVec.ofNat 8 e.kind.code]), (1, [optByte (e.window.map fun w => w.val)]),
        (2, [optByte (e.label.map List.length)]), (3, [flagByte (u.unboundWindow e)]), (4, e.label.getD []),
        (12, e.lanes.map (fun l => BitVec.ofNat 8 l.val) ++ List.replicate (4 - e.lanes.length) 0xFF)] := by
  intro e
  have hlabel : 8 - (e.label.getD []).length = 12 - (4 + (e.label.getD []).length) := by omega
  have hend : 16 - (12 + (e.lanes.map (fun l : Fin 4 => (BitVec.ofNat 8 l.val : Byte))
      ++ List.replicate (4 - e.lanes.length) 0xFF).length) = 0 := by
    rw [List.length_append, List.length_map, List.length_replicate]
    omega
  simp only [recordOf, hend]
  simp [State.sourceRecord, labelBytes, padTo, byteOf, labelLen, hlabel, e]

/-- The record of the mixer (11.6). -/
theorem mixerRecord_eq (x : Mixer) : mixerRecord x = recordOf 24 0
    [(0, [flagByte x.matrix]), (2, leBytesInt 2 x.fb), (4, leBytesInt 2 x.lr),
      (6, [Role.fl, .fr, .c, .sw, .sl, .sr, .bl, .br, .tfl, .tfr, .tbl, .tbr].map fun r =>
        flagByte (decide (r ∈ x.layout)))] := rfl

/-- The record of a pair (11.6). -/
theorem pairRecord_eq (r : Pair) : pairRecord r = recordOf 16 0
    [(0, [BitVec.ofNat 8 r.state.code]), (1, [BitVec.ofNat 8 r.detect]), (2, [BitVec.ofNat 8 r.limit]),
      (3, [BitVec.ofNat 8 r.used]), (4, [optByte (r.cause.map fun x => x.code)]), (5, [flagByte r.lastLine]),
      (6, [BitVec.ofNat 8 r.asserted]), (8, leBytes 2 r.clear), (10, leBytes 2 r.normalRun)] := rfl

/-- The bytes of the thermal record (11.6). -/
theorem thermalRecord_eq (r : Thermal) : thermalRecord r = recordOf 16 0
    [(0, [flagByte r.warning]), (1, [flagByte r.escalation]), (2, leBytesInt 1 r.t), (3, leBytesInt 1 r.tTarget),
      (4, [BitVec.ofNat 8 r.tTimer]), (5, [flagByte r.lastLine]), (8, leBytes 2 r.assertedRun),
      (10, leBytes 2 r.deassertedRun)] := rfl

/-- The record of a preset in use (11.6). -/
theorem presetRecord_some (p : Preset) : presetRecord (some p) = recordOf 16 0
    [(0, [1]), (1, [BitVec.ofNat 8 p.band.code]), (2, [optByte (p.label.map List.length)]), (4, leBytes 4 p.freq),
      (8, p.label.getD [])] := by
  have hend : 8 - (p.label.getD []).length = 16 - (8 + (p.label.getD []).length) := by omega
  simp [presetRecord, recordOf, labelBytes, padTo, byteOf, labelLen, leBytes, hend]

/-- The record of a station (11.6). -/
theorem stationRecord_eq (x : Station) : stationRecord x = recordOf 16 0
    [(0, [BitVec.ofNat 8 x.band.code]), (1, [flagByte x.stereo]), (2, [BitVec.ofNat 8 x.level]),
      (3, [optByte (x.label.map List.length)]), (4, leBytes 4 x.freq), (8, x.label.getD [])] := by
  have hend : 8 - (x.label.getD []).length = 16 - (8 + (x.label.getD []).length) := by omega
  simp [stationRecord, recordOf, labelBytes, padTo, byteOf, labelLen, leBytes, hend]

/-- The record of the tuner and the region (11.6). -/
theorem State.regionRecord_eq (u : State) :
    let t := u.tuner
    let r := u.region
    u.regionRecord = recordOf 32 0
      [(0, [t.identity]), (1, [flagByte t.identified]), (2, [BitVec.ofNat 8 t.blend]), (3, [BitVec.ofNat 8 t.blendTarget]),
        (4, leBytes 2 r.fmStep), (6, [BitVec.ofNat 8 r.amGrid]), (7, [BitVec.ofNat 8 r.fmLevel]),
        (8, [BitVec.ofNat 8 r.amLevel]), (9, [BitVec.ofNat 8 r.fmOffset]), (10, [BitVec.ofNat 8 r.amOffset]),
        (11, [BitVec.ofNat 8 r.errK]), (12, [BitVec.ofNat 8 r.blendLo]), (13, [BitVec.ofNat 8 r.blendHi]),
        (14, [flagByte r.forcedMono]), (15, [BitVec.ofNat 8 u.stations.length]), (16, leBytes 4 r.ampLow),
        (20, leBytes 4 r.ampHigh)] := rfl

/-! ## SNAPSHOT and SET_METERS (R23, R25) -/

/-- The MIRROR window does not depend on the command unit. -/
theorem State.handOver_mirrorBase (s : State) (o t : Byte) (a : List Byte) :
    (s.handOver o t a).mirrorBase = s.mirrorBase := rfl

/-- SNAPSHOT without a MIRROR window or for no section (R23). -/
theorem cmdSnapshot_badArg (sect : Byte) (s : State)
    (h : s.mirrorBase = none ∨ SnapSection.ofCode sect.toNat = none) : cmdSnapshot sect s = refuse s .badArg := by
  unfold cmdSnapshot
  split
  next hb hx =>
    rw [hb, hx] at h
    simp at h
  · rfl
  · rfl

/-- SNAPSHOT begins its section and returns the write count (R23). -/
theorem cmdSnapshot_begins (sect : Byte) (x : SnapSection) (s : State) (hb : s.mirrorBase ≠ none)
    (hx : SnapSection.ofCode sect.toNat = some x) :
    cmdSnapshot sect s
      = done (s.beginSection x false) (getAt s.mirror.counts (sectionIndex x) + 1).toNat := by
  obtain ⟨b, hb⟩ := Option.ne_none_iff_exists'.mp hb
  have hc : getAt (s.beginSection x false).mirror.counts (sectionIndex x)
      = getAt s.mirror.counts (sectionIndex x) + 1 := (s.beginSection_counts x x false).trans (if_pos rfl)
  simp only [cmdSnapshot, hb, hx, hc]

/-- Settles O25: the two commands, the placing of a section, and the bytes of sections and records. -/
theorem snapshotAndMeters : Obligations.SnapshotAndMeters := by
  refine ⟨?_, ?_, State.beginSection_counts, ?_, ?_, fun _ _ => ⟨rfl, rfl⟩, ?_, fun k off i bs => cutPieces_get k off i bs,
    fun x => by cases x <;> rfl, sectionBytes_eq, State.sectionBody_eq, meterRecord_eq, State.zoneRecord_eq, ?_, ?_,
    mixerRecord_eq, fun r => by cases hc : r.config <;> simp only [laneRecord, hc] <;> rfl, pairRecord_eq,
    thermalRecord_eq, ⟨rfl, presetRecord_some⟩, stationRecord_eq, State.regionRecord_eq⟩
  · intro s sect h hb
    rw [← s.handOver_mirrorBase 0x04 sect []] at hb
    exact congrArg Host.Outcome.next (s.runHost_answered id h rfl (cmdSnapshot_badArg sect (s.handOver 0x04 sect []) hb))
  · intro s sect x h hb hx
    rw [← s.handOver_mirrorBase 0x04 sect []] at hb
    exact congrArg Host.Outcome.next (s.runHost_answered (fun u => u.beginSection x false) h rfl
      (cmdSnapshot_begins sect x (s.handOver 0x04 sect []) hb hx))
  · intro s on h
    exact congrArg Host.Outcome.next (s.runHost_answered (cmd := cmdSetMeters on)
      (fun u => { u with mirror := { u.mirror with metersOn := decide (on ≠ 0) } }) h rfl rfl)
  · intro u x p count
    refine ⟨u.atSection x, u.beginSection_eq x p, u.atSection_eq x, fun hx => if_neg hx, fun hx => ?_⟩
    rw [State.atSection, if_pos hx]
    exact u.handMeters_spec
  · intro s j base off bs rest hj hb hp put left done
    refine ⟨fun hl => ?_, fun hl hr => ?_, fun hl hr => ?_⟩
    · refine s.mirrorMove_full hl (by rw [hb]; exact Option.some_ne_none _) fun j' hj' => ?_
      rw [hj, Option.some.injEq] at hj'
      rw [← hj', hp]
      exact List.cons_ne_nil _ _
    · rw [s.mirrorMove_places j base off bs rest hj hb hp hl]
      exact if_neg hr
    · have hm : s.mirrorMove = done := by
        rw [s.mirrorMove_places j base off bs rest hj hb hp hl]
        exact (if_pos hr).trans (State.sectionDone_eq _ _)
      refine ⟨hm, ?_⟩
      show Host.Outcome.next s.mirrorEnqueue = Host.Outcome.next done.placeCommandReturn
      rw [State.mirrorEnqueue, hm]
      rfl
  · intro u p h r x zones format
    rw [u.pathRecord_eq p h, u.attachedCode_eq p]
    have hf : format = (formatHead r.format, formatRoles r.format) := by
      simp only [format]
      cases r.format <;> simp [formatHead, formatRoles, padTo, byteOf]
    rw [hf]
  · intro u i e label unbound
    exact ⟨u.unboundWindow e, u.unboundWindow_iff e, u.sourceRecord_eq i⟩

end Sys2Proof.Machine
end

