-- ==== Sys2Proof/Proofs/Tune.lean ====
section
/-! SUPPORT. The owner's tunes (R136, R137, R159): the completion of the operation they replace, the record they make, the
requests a tune sends, and the statement about them. -/

namespace Sys2Proof.Machine

open Sys2Proof

/-- A refusal changes nothing but the slot and the return. -/
theorem State.runHost_refused {s : State} {n : Nat} {op target : Byte} {args : List Byte} {cmd : State → CmdOut}
    {res : CmdResult} (h : s.CommandReady n) (hop : BitVec.ofNat 8 n = op)
    (hc : cmd (s.handOver op target args) = refuse (s.handOver op target args) res) :
    s.runHost n target args cmd = s.answeredOnly op target args res 0 := s.runHost_answered id h hop hc

/-- An ACCEPTED command does its work and returns the value 0. -/
theorem State.runHost_accepted {s : State} {n : Nat} {op target : Byte} {args : List Byte} {cmd : State → CmdOut}
    (f : State → State) (h : s.CommandReady n) (hop : BitVec.ofNat 8 n = op)
    (hc : cmd (s.handOver op target args) = accepted (f (s.handOver op target args))) :
    s.runHost n target args cmd = s.answered op target args .accepted 0 f := s.runHost_answered f h hop hc

/-- A radio command from the tuner's owner passes the zone and ownership checks (R74). -/
theorem withOwner_owner (zone : Byte) (s : State) (f : CmdOut) (z : Zone) (hz : Zone.ofCode zone.toNat = some z)
    (ho : s.owner = some z) : withOwner zone s f = f := by
  simp [withOwner, withZone, hz, ho]

/-- TUNE from the owner (R136). -/
theorem cmdTune_owner (zone b : Byte) (f : BitVec 32) (s : State) (z : Zone) (hz : Zone.ofCode zone.toNat = some z)
    (ho : s.owner = some z) :
    (Band.ofCode b.toNat = none → cmdTune zone b f s = refuse s .badArg)
    ∧ ∀ band, Band.ofCode b.toNat = some band → cmdTune zone b f s = accepted
      ((s.beginOp .tune .up (s.region.clamps band f.toNat)).tuneTo band (s.region.resolve band f.toNat)) := by
  rw [cmdTune, withOwner_owner zone s _ z hz ho]
  exact ⟨fun hb => by rw [hb], fun band hb => by rw [hb]⟩

/-- STEP from the owner (R136). -/
theorem cmdStep_owner (zone d : Byte) (s : State) (z : Zone) (hz : Zone.ofCode zone.toNat = some z)
    (ho : s.owner = some z) :
    (Direction.ofCode d.toNat = none → cmdStep zone d s = refuse s .badArg)
    ∧ ∀ dir, Direction.ofCode d.toNat = some dir → cmdStep zone d s = accepted
      ((s.beginOp .step dir false).tuneTo s.tuner.band (s.region.adjacent s.tuner.band s.tuner.freq dir)) := by
  rw [cmdStep, withOwner_owner zone s _ z hz ho]
  exact ⟨fun hd => by rw [hd], fun dir hd => by rw [hd]⟩

/-- An index of the preset table. -/
theorem fin40?_some (n : Nat) (i : Fin 40) (h : i.val = n) : fin40? n = some i := by
  subst h
  exact dif_pos i.isLt

/-- RECALL_PRESET from the owner (R159). -/
theorem cmdRecallPreset_owner (zone i : Byte) (s : State) (z : Zone) (hz : Zone.ofCode zone.toNat = some z)
    (ho : s.owner = some z) :
    (39 < i.toNat → cmdRecallPreset zone i s = refuse s .badArg)
    ∧ ∀ k : Fin 40, k.val = i.toNat →
      (getAt s.presets k = none → cmdRecallPreset zone i s = refuse s .empty)
      ∧ ∀ p, getAt s.presets k = some p → cmdRecallPreset zone i s = accepted
        ((s.beginOp .recall .up (s.region.clamps p.band p.freq)).tuneTo p.band (s.region.resolve p.band p.freq)) := by
  rw [cmdRecallPreset, withOwner_owner zone s _ z hz ho]
  refine ⟨fun h => ?_, fun k hk => ⟨fun hp => ?_, fun p hp => ?_⟩⟩
  · rw [show fin40? i.toNat = none from dif_neg (by omega)]
  · rw [fin40?_some _ k hk]
    simp only [hp]
  · rw [fin40?_some _ k hk]
    simp only [hp]

/-- With no operation in progress none is aborted. -/
theorem State.abortOp_none (u : State) (fault : Bool) (h : u.tuner.op = none) : u.abortOp fault = u := by
  simp [State.abortOp, State.endOp, h]

/-- The flags of an ABORTED completion: the fault flag alone (log 31). -/
theorem radioFlags_aborted (fault : Bool) : radioFlags false false fault = if fault = true then 4 else 0 := by
  cases fault <;> rfl

/-- An operation in progress completes ABORTED, and its record is cleared (R144). -/
theorem State.abortOp_some (u : State) (fault : Bool) (op : OpRecord) (h : u.tuner.op = some op) :
    u.abortOp fault = ({ u with tuner := { u.tuner with op := none } } : State).raiseDone op.tag
      (radioDone u.tuner op .aborted (if fault = true then 4 else 0) u.tuner.level) := by
  simp [State.abortOp, State.endOp, h, radioFlags_aborted]

/-- A tune or a candidate test waits while a transaction is open, and else sends SET_TUNE, or IDENTIFY in its place
(R127, R128). -/
theorem Tuner.startAt_cases (t : Tuner) (st : TunerState) (b : Band) (f : Nat) :
    let x : Tuner := { t with
      state := st, band := b, freq := f, phase := .sending, settleCount := 0, pilot := .absent, inRun := 0
      missRun := 0, pilotCount := 0, blend := 0, blendTimer := 0, ampHistory := [] }
    let sent (q : FeRequest) : Tuner :=
      { x with openTx := some { request := q, timer := 2, retried := false }, ctlSent := some q }
    (t.openTx ≠ none → t.startAt st b f = { x with waiting := some (b, f) })
    ∧ (t.openTx = none → t.identified = true → t.startAt st b f = sent (.setTune b f))
    ∧ (t.openTx = none → t.identified = false →
        t.startAt st b f = { sent .identify with waiting := some (b, f) }) := by
  intro x sent
  have hx : t.startAt st b f = x.needSetTune b f := rfl
  have hopen : x.openTx = t.openTx := rfl
  have hid : x.identified = t.identified := rfl
  refine ⟨fun ho => ?_, fun ho hi => ?_, fun ho hi => ?_⟩
  · obtain ⟨q, hq⟩ := Option.ne_none_iff_exists'.mp ho
    rw [hx, Tuner.needSetTune, hopen, hq]
  · rw [hx, Tuner.needSetTune, hopen, ho, hid, hi]
    rfl
  · rw [hx, Tuner.needSetTune, hopen, ho, hid, hi]
    rfl

/-- What a tune or a candidate test changes of the tuner besides the control line (R137, R146). -/
theorem Tuner.startAt_fields (t : Tuner) (st : TunerState) (b : Band) (f : Nat) :
    let x := t.startAt st b f
    x.state = st ∧ x.band = b ∧ x.freq = f ∧ x.pilot = .absent ∧ x.inRun = 0 ∧ x.missRun = 0 ∧ x.blend = 0
      ∧ x.blendTimer = 0 ∧ x.ampHistory = [] ∧ x.op = t.op := by
  obtain ⟨hwaits, hsends, hidentifies⟩ := t.startAt_cases st b f
  by_cases ho : t.openTx = none
  · cases hi : t.identified with
    | true => simp [hsends ho hi]
    | false => simp [hidentifies ho hi]
  · simp [hwaits ho]

/-- Settles O35: the three commands, the completion of what they replace, and what a tune sends. -/
theorem ownerTunes : Obligations.OwnerTunes := by
  refine ⟨?_, ?_, ?_, ?_, ?_, ?_, Tuner.startAt_cases⟩
  · intro s zone b z f hz ho h args
    obtain ⟨hbad, hgood⟩ := cmdTune_owner zone b f (s.handOver 0x20 zone args) z hz ((State.handOver_owner ..).trans ho)
    simp only [State.handOver_region] at hgood
    exact ⟨fun hb => congrArg Host.Outcome.next (State.runHost_refused h rfl (hbad hb)),
      fun band hb => congrArg Host.Outcome.next (State.runHost_accepted (fun u =>
        (u.beginOp .tune .up (s.region.clamps band f.toNat)).tuneTo band (s.region.resolve band f.toNat))
        h rfl (hgood band hb))⟩
  · intro s zone d z hz ho h
    obtain ⟨hbad, hgood⟩ := cmdStep_owner zone d (s.handOver 0x21 zone [d]) z hz ((State.handOver_owner ..).trans ho)
    simp only [State.handOver_region, State.handOver_tuner] at hgood
    exact ⟨fun hd => congrArg Host.Outcome.next (State.runHost_refused h rfl (hbad hd)),
      fun dir hd => congrArg Host.Outcome.next (State.runHost_accepted (fun u => (u.beginOp .step dir false).tuneTo
        s.tuner.band (s.region.adjacent s.tuner.band s.tuner.freq dir)) h rfl (hgood dir hd))⟩
  · intro s zone i z hz ho h
    obtain ⟨hbad, hindex⟩ := cmdRecallPreset_owner zone i (s.handOver 0x2B zone [i]) z hz
      ((State.handOver_owner ..).trans ho)
    simp only [State.handOver_region, State.handOver_presets] at hindex
    refine ⟨fun hi => congrArg Host.Outcome.next (State.runHost_refused h rfl (hbad hi)), fun k hk => ?_⟩
    obtain ⟨hempty, hused⟩ := hindex k hk
    exact ⟨fun hp => congrArg Host.Outcome.next (State.runHost_refused h rfl (hempty hp)),
      fun p hp => congrArg Host.Outcome.next (State.runHost_accepted (fun u => (u.beginOp .recall .up
        (s.region.clamps p.band p.freq)).tuneTo p.band (s.region.resolve p.band p.freq)) h rfl (hused p hp))⟩
  · intro u k d c op
    obtain ⟨-, -, -, -, ht, -, -⟩ := u.abortOp_keeps
    have hb : u.beginOp k d c = { u.abortOp false with tuner := { u.tuner with op := some op } } := by
      simp only [State.beginOp, ht, State.slotTag]
      rfl
    exact ⟨by rw [hb], hb⟩
  · intro u fault
    refine ⟨u.abortOp_none fault, ?_⟩
    intro op hop v payload
    refine ⟨fun ht => ?_, fun tag ht => ?_⟩
    · rw [u.abortOp_some fault op hop, ht]
      rfl
    · rw [u.abortOp_some fault op hop, ht]
      rfl
  · intro u b f t
    obtain ⟨h1, h2, h3, h4, h5, h6, h7, h8, h9, h10⟩ := u.tuner.startAt_fields .tuning b f
    exact ⟨h1, h2, h3, h4, h5, h6, h7, h8, h9, h10, rfl⟩

end Sys2Proof.Machine
end

