-- ==== Sys2Proof/Proofs/Restart.lean ====
section
/-! SUPPORT. RESTART unit by unit (R18): the ends of the paths' bindings (R40, R109), the tuner (R145), the lane receiver
(R66), outputs and protection (R182, R196), the zones (R90), and the statement about them together. -/

namespace Sys2Proof.Machine

open Sys2Proof

/-! ## The paths (R40, R109) -/

/-- The state in which RESTART flushes the window that fed a path: the path is free, and the next choice begins with the
other path (R109). -/
def State.unboundPath (s : State) (p : PathId) : State := { s with bindFirst := p.other }.setPath p PathRec.free

/-- A freed path names no window. -/
theorem State.namesWindow_free (s : State) (p : PathId) (w : Fin 16) (h : s.path p = PathRec.free) :
    s.namesWindow p w = false := by
  unfold State.namesWindow
  rw [h]
  rfl

/-- A freed path names no window, and the other names what it named. -/
theorem State.unboundPath_feedChoice (s t : State) (p q : PathId) (w : Fin 16) (hb : t.bindFirst = p.other)
    (hs : t.sources = s.sources) (hp : t.path p = PathRec.free) (ho : t.path p.other = s.path p.other)
    (h : t.feedChoice w = some q) : q = p.other ∧ s.namesWindow p.other w = true := by
  have hother : t.namesWindow p.other w = s.namesWindow p.other w := by
    unfold State.namesWindow State.source
    rw [ho, hs]
  have hfree : t.namesWindow p w = false := t.namesWindow_free p w hp
  have hpp : p.other.other = p := by cases p <;> rfl
  unfold State.feedChoice at h
  rw [hb, hother, hpp, hfree] at h
  by_cases hn : s.namesWindow p.other w = true
  · rw [if_pos hn] at h
    injection h with h
    exact ⟨h.symm, hn⟩
  · simp [hn] at h

/-- RESTART for a path that a window feeds: the ring is flushed, and feeds the other path when that is bound to an entry
which names the window, and else none (R29, R40). -/
theorem State.restartPath_fed (s : State) (p : PathId) (w : Fin 16) (r : Ring) (hf : s.feeding p = some w)
    (hr : s.ring w = some r) : ∃ q wait injq, q.unpackPos = flushPos r ∧ q.slots = r.flushed.slots
      ∧ (q.feeds = none ∨ (q.feeds = some p.other ∧ s.namesWindow p.other w = true))
      ∧ s.restartPath p = { s.unboundPath p with
          rings := setAt s.rings w (some q), intakeWait := wait, link := { s.link with injq := injq } } := by
  have hv : (s.unboundPath p).ring w = some r := by
    rw [← hr, State.unboundPath]
    cases p <;> rfl
  have he : s.restartPath p = (s.unboundPath p).flushWindow w := by
    unfold State.restartPath State.unboundPath
    rw [hf]
  have hrings : (s.unboundPath p).rings = s.rings := by cases p <;> rfl
  have hlink : (s.unboundPath p).link = s.link := by cases p <;> rfl
  rw [he, State.flushWindow_spec _ w r hv, hlink, State.setRing, hrings]
  generalize hu : ({ s.unboundPath p with rings := setAt s.rings w (some r.flushed), intakeWait := _, link := _ } : State)
    = u
  have hring : u.ring w = some r.flushed := by rw [← hu]; exact getAt_setAt_same s.rings w _
  obtain ⟨-, hkeep, hfeed⟩ := u.feedIfNamed_cases w r.flushed hring
  cases hc : u.feedChoice w with
  | none => exact ⟨r.flushed, u.intakeWait, u.link.injq, rfl, rfl, Or.inl rfl, by rw [hkeep rfl hc, ← hu]⟩
  | some q =>
    obtain ⟨rfl, hn⟩ := s.unboundPath_feedChoice u p q w (by rw [← hu]; cases p <;> rfl) (by rw [← hu]; cases p <;> rfl)
      (by rw [← hu]; cases p <;> rfl) (by rw [← hu]; cases p <;> rfl) hc
    have hskip : (r.flushed.slot r.flushed.unpackPos).skip = false := by
      rw [r.flushed_slot]
      split <;> rfl
    have harr := Ring.arrive_unmarked { r.flushed with feeds := some p.other, handoverCount := 0, idle := false } hskip
    refine ⟨{ r.flushed with feeds := some p.other, handoverCount := 0, idle := false }, u.intakeWait, u.link.injq,
      rfl, rfl, Or.inr ⟨rfl, hn⟩, ?_⟩
    rw [hfeed p.other rfl hc, harr, ← hu]
    simp [State.setRing, setAt]

/-- RESTART for a path frees it, points the next choice at the other path, and else changes rings, waiting slot returns and
the injection queue only. -/
theorem State.restartPath_eq (s : State) (p : PathId) : ∃ rings wait injq, s.restartPath p
    = { s.unboundPath p with rings := rings, intakeWait := wait, link := { s.link with injq := injq } } := by
  cases hf : s.feeding p with
  | none =>
    refine ⟨s.rings, s.intakeWait, s.link.injq, ?_⟩
    unfold State.restartPath
    rw [hf]
    cases p <;> rfl
  | some w =>
    obtain ⟨r, hr, -⟩ := s.feeding_ring p w hf
    obtain ⟨_, _, _, -, -, -, he⟩ := s.restartPath_fed p w r hf hr
    exact ⟨_, _, _, he⟩

/-- A bound path names one window. -/
theorem State.namesWindow_unique (s : State) (p : PathId) (v w : Fin 16) (hv : s.namesWindow p v = true)
    (hw : s.namesWindow p w = true) : v = w := by
  obtain ⟨e, he, -, hev⟩ := (s.namesWindow_iff p v).mp hv
  obtain ⟨e', he', -, hew⟩ := (s.namesWindow_iff p w).mp hw
  rw [he] at he'
  cases he'
  rw [hev] at hew
  injection hew

/-- No ring feeds a path that no window feeds. -/
theorem State.feeds_ne_of_feeding_none (s : State) (p : PathId) (h : s.feeding p = none) (w : Fin 16) (r : Ring)
    (hr : s.ring w = some r) : r.feeds ≠ some p := by
  have hw := List.find?_eq_none.mp h w (List.mem_finRange w)
  rw [hr] at hw
  simpa using hw

/-- A second flush of a ring changes nothing more. -/
theorem Ring.flushed_again (r q : Ring) (hp : r.unpackPos < r.slots.length) (hs : q.slots = r.flushed.slots) :
    flushPos q = q.unpackPos ∧ q.flushed.slots = q.slots := by
  have hnone : flushList q q.slots.length q.unpackPos = [] := flushList_nil q _ _ fun j hj => by
    refine r.flushed_not_caught hp j ?_
    simpa [Ring.caught, Ring.slot, hs] using hj
  refine ⟨by rw [flushPos, hnone]; rfl, ?_⟩
  rw [Ring.flushed, hnone]
  simp [flushSlots, hs, Ring.flushed]

/-- RESTART for P1, P0 being free: the ring that fed it is flushed and feeds nothing. -/
theorem State.restartPath_last (s : State) (w : Fin 16) (r : Ring) (hf : s.feeding .p1 = some w) (hr : s.ring w = some r)
    (h0 : s.path .p0 = PathRec.free) : ∃ q, (s.restartPath .p1).ring w = some q ∧ q.feeds = none
      ∧ q.unpackPos = flushPos r ∧ q.slots = r.flushed.slots := by
  obtain ⟨q, _, _, hpos, hslots, hfeeds, he⟩ := s.restartPath_fed .p1 w r hf hr
  refine ⟨q, by rw [he]; exact getAt_setAt_same s.rings w _, ?_, hpos, hslots⟩
  obtain hq | ⟨-, hn⟩ := hfeeds
  · exact hq
  · rw [show PathId.other .p1 = .p0 from rfl, s.namesWindow_free .p0 w h0] at hn
    cases hn

/-- RESTART for P0 frees it. -/
theorem State.restartPath_free (s : State) : (s.restartPath .p0).path .p0 = PathRec.free := by
  obtain ⟨_, _, _, he⟩ := s.restartPath_eq .p0
  rw [he]
  rfl

/-- RESTART for P0 leaves the window that feeds P1, when that is the one P1's entry names. -/
theorem State.restartPath_feeding (s : State) (w : Fin 16) (hf : s.feeding .p1 = some w)
    (hn : s.namesWindow .p1 w = true) :
    (s.restartPath .p0).feeding .p1 = some w ∧ (s.restartPath .p0).ring w = s.ring w := by
  obtain ⟨-, -, -, hnone, hsome⟩ := s.restartPath_flushed .p0
  cases h0 : s.feeding .p0 with
  | none => exact ⟨(s.restartPath_feeding_none .p0 .p1 h0).trans hf, by unfold State.ring; rw [hnone h0]⟩
  | some v =>
    obtain ⟨x, hx, hxf⟩ := s.feeding_ring .p0 v h0
    obtain ⟨r, hr, hrf⟩ := s.feeding_ring .p1 w hf
    have hvw : w ≠ v := by
      rintro rfl
      rw [hr] at hx
      cases hx
      rw [hrf] at hxf
      cases hxf
    obtain ⟨hothers, y, hy, -, hyf⟩ := hsome v x h0 hx
    have hyn : y.feeds = none := hyf (Bool.eq_false_iff.mpr fun h => hvw (s.namesWindow_unique .p1 w v hn h))
    refine ⟨?_, hothers w hvw⟩
    rw [← hf]
    refine State.feeding_congr s _ .p1 fun u => ?_
    by_cases hu : u = v
    · subst hu
      simp [hx, hy, hxf, hyn]
    · rw [hothers u hu]

/-- The ring that fed a path, when both paths have been released: it is flushed once, and feeds none (R29, R40, R109). -/
theorem State.restartPaths_ring (s : State) (p : PathId) (w : Fin 16) (r : Ring) (hf : s.feeding p = some w)
    (hr : s.ring w = some r) (hp : r.unpackPos < r.slots.length) (hn : s.namesWindow p w = true)
    (ho : s.namesWindow p.other w = false ∨ s.feeding p.other = none) :
    ∃ q, ((s.restartPath .p0).restartPath .p1).ring w = some q ∧ q.feeds = none ∧ q.unpackPos = flushPos r
      ∧ q.slots = r.flushed.slots := by
  cases p with
  | p1 =>
    obtain ⟨hf1, hr1⟩ := s.restartPath_feeding w hf hn
    exact State.restartPath_last _ w r hf1 (hr1.trans hr) s.restartPath_free
  | p0 =>
    obtain ⟨-, -, -, -, hflushed⟩ := s.restartPath_flushed .p0
    obtain ⟨hothers, -⟩ := hflushed w r hf hr
    obtain ⟨q, _, _, hpos, hslots, hfeeds, he⟩ := s.restartPath_fed .p0 w r hf hr
    have hq : (s.restartPath .p0).ring w = some q := by
      rw [he]
      exact getAt_setAt_same s.rings w _
    have hfree := s.restartPath_free
    generalize s.restartPath .p0 = c at hothers hq hfree ⊢
    obtain ⟨-, -, -, hnone, hsome⟩ := c.restartPath_flushed .p1
    cases hc : c.feeding .p1 with
    | none =>
      have hqf : q.feeds = none := hfeeds.resolve_right fun h => c.feeds_ne_of_feeding_none .p1 hc w q hq h.1
      exact ⟨q, by unfold State.ring; rw [hnone hc]; exact hq, hqf, hpos, hslots⟩
    | some v =>
      obtain ⟨x, hx, hxf⟩ := c.feeding_ring .p1 v hc
      by_cases hv : v = w
      · subst hv
        obtain ⟨q', hq', hfeeds', hpos', hslots'⟩ := c.restartPath_last v q hc hq hfree
        obtain ⟨hagain, hsame⟩ := r.flushed_again q hp hslots
        exact ⟨q', hq', hfeeds', (hpos'.trans hagain).trans hpos, (hslots'.trans hsame).trans hslots⟩
      · have hqf : q.feeds = none := by
          refine hfeeds.resolve_right fun h => ?_
          have hnot := s.feeds_ne_of_feeding_none .p1 (ho.resolve_left (by rw [h.2]; decide)) v x (by rw [← hothers v hv, hx])
          exact hnot hxf
        exact ⟨q, ((hsome v x hc hx).1 w (Ne.symm hv)).trans hq, hqf, hpos, hslots⟩

/-! ## The tuner (R145) -/

/-- Aborting the radio operation changes the tuner, the report unit and the injection queue only. -/
theorem State.abortOp_eq (s : State) (fault : Bool) : s.abortOp fault = { s with
    tuner := { s.tuner with op := none }, rep := (s.abortOp fault).rep
    link := { s.link with injq := (s.abortOp fault).link.injq } } := by
  cases hop : s.tuner.op with
  | none =>
    rw [s.abortOp_none fault hop, ← hop]
  | some op =>
    rw [s.abortOp_some fault op hop]
    exact State.raiseDone_eq _ _ _

/-- RESTART for the tuner: the abort's reports, and the restart state (R145). -/
theorem State.restartTuner_eq (s : State) : s.restartTuner = { s with
    tuner := { s.tuner.toIdle with op := none, blendTarget := 0 }, rep := (s.abortOp false).rep
    link := { s.link with injq := (s.abortOp false).link.injq } } := by
  rw [State.restartTuner, s.abortOp_eq]

/-- The restart state of the tuner (R145). -/
theorem Tuner.toIdle_restart (t : Tuner) (b : Band) (f : Nat)
    (hscan : ∀ op, t.op = some op → op.kind = .scan → b = op.startBand ∧ f = op.startFreq)
    (helse : (∀ op, t.op = some op → op.kind ≠ .scan) → b = t.band ∧ f = t.freq) :
    ({ t.toIdle with op := none, blendTarget := 0 } : Tuner) = { t with
      state := .idle, band := b, freq := f, openTx := none, waiting := none, phase := .none, settleCount := 0
      silence := 0, ampHistory := [], pilot := .absent, inRun := 0, missRun := 0, pilotCount := 0, blend := 0
      blendTarget := 0, blendTimer := 0, op := none } := by
  unfold Tuner.toIdle
  cases hop : t.op with
  | none =>
    obtain ⟨rfl, rfl⟩ := helse fun op h => by rw [hop] at h; cases h
    rfl
  | some op =>
    by_cases hk : op.kind = .scan
    · obtain ⟨rfl, rfl⟩ := hscan op hop hk
      simp only [hk, if_true]
      rfl
    · obtain ⟨rfl, rfl⟩ := helse fun o h => by rw [hop] at h; cases h; exact hk
      simp only [hk, if_false]
      rfl

/-! ## The lane receiver (R66) -/

/-- RESTART for the lane receiver changes lanes and groups only: each lane and each group takes its restart state. -/
theorem State.restartLanes_spec (s : State) :
    s.restartLanes = { s with lanes := s.restartLanes.lanes, groups := s.restartLanes.groups }
    ∧ (∀ l, s.restartLanes.lane l = (s.lane l).restart)
    ∧ ∀ e, s.restartLanes.group e = (s.group e).map fun _ => GroupRec.forming := by
  have hidem : ∀ r : LaneRec, r.restart.restart = r.restart := fun r => by
    cases h : r.enable <;> simp [LaneRec.restart, LaneRec.toHunt, h]
  obtain ⟨hs, hl⟩ := s.mapLanes_spec (List.finRange 4) LaneRec.restart hidem
  refine ⟨?_, fun l => ?_, fun e => ?_⟩
  · unfold State.restartLanes
    rw [hs]
  · rw [← if_pos (List.mem_finRange l) (t := (s.lane l).restart) (e := s.lane l), ← hl l]
    rfl
  · simp [State.restartLanes, State.group, getAt]

/-- RESTART for the lane receiver keeps outputs, pairs and zones. -/
theorem State.restartLanes_keeps (s : State) : s.restartLanes.out = s.out ∧ s.restartLanes.pairs = s.pairs
    ∧ s.restartLanes.zoneMain = s.zoneMain ∧ s.restartLanes.zoneTwo = s.zoneTwo := by
  obtain ⟨hl, -, -⟩ := s.restartLanes_spec
  refine ⟨?_, ?_, ?_, ?_⟩ <;> rw [hl]

/-! ## Outputs and protection (R182, R196) -/

/-- A state with other channel records. -/
def State.withChannels (s : State) (channels : Vector Channel 12) : State :=
  { s with out := { s.out with channels := channels } }

/-- Steps that change channels only make a run that changes channels only. -/
theorem forEach_channelsOnly {α : Type} (f : α → State → State)
    (hf : ∀ x s, f x s = s.withChannels (f x s).out.channels) (xs : List α) (s : State) :
    forEach f xs s = s.withChannels (forEach f xs s).out.channels := by
  induction xs generalizing s with
  | nil => rfl
  | cons x xs ih =>
    calc forEach f xs (f x s) = (f x s).withChannels (forEach f xs (f x s)).out.channels := ih (f x s)
      _ = s.withChannels (forEach f xs (f x s)).out.channels := by rw [hf x s]; rfl

/-- A channel's record without what RESTART sets anew: the applied AV delay, the ramp, RECONFIG, the line and the crossover's
state (R182). -/
def Channel.bare (r : Channel) : Channel :=
  { r with appliedAv := 0, ramp := 0, reconfig := false, line := [], crossover := CrossoverState.cleared }

/-- A channel whose target settings are applied and which waits in no group (R167). -/
def Channel.settle (r : Channel) : Channel := { r with applied := r.target, pend := none, group := none }

/-- Settling twice is settling once. -/
theorem Channel.settle_settle (r : Channel) : r.settle.settle = r.settle := rfl

/-- A channel that applies settles; the others keep their records. -/
theorem State.applyChannel_bare (s : State) (c d : Fin 12) :
    ((s.applyChannel c).chan d).bare = if d = c then (s.chan d).bare.settle else (s.chan d).bare := by
  unfold State.applyChannel
  simp only [State.chan_setChan]
  by_cases h : c = d
  · subst h
    simp only [if_true]
    rfl
  · rw [if_neg h, if_neg (Ne.symm h)]

/-- Channels that apply each settle. -/
theorem forEach_applyChannel_bare (xs : List (Fin 12)) (d : Fin 12) (s : State) :
    ((forEach (fun c t => t.applyChannel c) xs s).chan d).bare
      = if d ∈ xs then (s.chan d).bare.settle else (s.chan d).bare := by
  induction xs generalizing s with
  | nil => simp [forEach]
  | cons x xs ih =>
    rw [forEach, ih, s.applyChannel_bare]
    by_cases hx : d = x <;> simp [hx, Channel.settle_settle]

/-- The members of a group that applies settle. -/
theorem State.applyGroup_bare (s : State) (g d : Fin 12) :
    ((s.applyGroup g).chan d).bare = if (s.chan d).group = some g then (s.chan d).bare.settle else (s.chan d).bare := by
  rw [State.applyGroup, forEach_applyChannel_bare]
  simp [State.groupMembers]

/-- Of the groups that apply, a channel is in one at most. -/
theorem forEach_applyGroup_bare (gs : List (Fin 12)) (d : Fin 12) (s : State) :
    ((forEach (fun g t => t.applyGroup g) gs s).chan d).bare
      = if ∃ g ∈ gs, (s.chan d).group = some g then (s.chan d).bare.settle else (s.chan d).bare := by
  induction gs generalizing s with
  | nil => simp [forEach]
  | cons g gs ih =>
    obtain ⟨-, -, hgroup⟩ := s.applyGroup_settings g d
    rw [forEach, ih, s.applyGroup_bare, hgroup]
    by_cases hg : (s.chan d).group = some g <;> simp [hg]

/-- When every group has applied, each channel that was in one has settled. -/
theorem applyGroups_bare (s : State) (d : Fin 12) :
    ((forEach (fun g t => t.applyGroup g) (List.finRange 12) s).chan d).bare
      = if (s.chan d).group = none then (s.chan d).bare else (s.chan d).bare.settle := by
  rw [forEach_applyGroup_bare]
  cases (s.chan d).group <;> simp

/-- Applying a group changes channels only. -/
theorem State.applyGroup_eq (s : State) (g : Fin 12) : s.applyGroup g = s.withChannels (s.applyGroup g).out.channels :=
  forEach_channelsOnly (fun c t => State.applyChannel t c) (fun _ _ => rfl) (s.groupMembers g) s

/-- The restart state of a channel, from the AV delays of the zones and whether its pair is locked out (R182). -/
def Channel.restarted (av : Option Zone → Nat) (locked : Bool) (r : Channel) : Channel :=
  let d := if r.applied.role = Role.unused then 0 else av r.zone
  { r with
    appliedAv := d, ramp := if locked then -240 else 0, reconfig := false, protect := r.protect && locked
    softStart := false, softCount := 0, lr := 0, lrDue := 0, release := 0, crossover := CrossoverState.cleared
    line := zeros (if r.applied.role = .unused then 0 else r.applied.delay + d) }

/-- A channel takes its restart state from its own record, its pair and the AV delays (R182). -/
theorem State.restartChannel_eq (s : State) (c : Fin 12) : s.restartChannel c
    = s.setChan c ((s.chan c).restarted s.avOf (decide ((s.pair (pairOf c)).state ≠ .normal))) := rfl

/-- RESTART sees a channel's record as far as it does not set it anew. -/
theorem Channel.restarted_bare (av : Option Zone → Nat) (locked : Bool) (r : Channel) :
    r.bare.restarted av locked = r.restarted av locked := rfl

/-- Restarting a channel twice is restarting it once. -/
theorem Channel.restarted_restarted (av : Option Zone → Nat) (locked : Bool) (r : Channel) :
    (r.restarted av locked).restarted av locked = r.restarted av locked := by
  simp [Channel.restarted, Channel.zone]
  exact ⟨rfl, rfl⟩

/-- Channels that take their restart state, each in turn. -/
theorem forEach_restartChannel (xs : List (Fin 12)) (d : Fin 12) (s : State) :
    (forEach (fun c t => t.restartChannel c) xs s).chan d
      = if d ∈ xs then (s.chan d).restarted s.avOf (decide ((s.pair (pairOf d)).state ≠ .normal)) else s.chan d := by
  induction xs generalizing s with
  | nil => simp [forEach]
  | cons x xs ih =>
    have hav : (s.restartChannel x).avOf = s.avOf := rfl
    have hpair : (s.restartChannel x).pair = s.pair := rfl
    rw [forEach, ih, hav, hpair, s.restartChannel_eq, State.chan_setChan]
    by_cases hx : x = d
    · subst hx
      simp [Channel.restarted_restarted]
    · simp [hx, Ne.symm hx]

/-- RESTART for outputs and protection changes channels and pairs only: each channel and each pair takes its restart
state. -/
theorem State.restartOutputs_spec (s : State) :
    s.restartOutputs = { s.withChannels s.restartOutputs.out.channels with pairs := s.pairs.map Pair.restart }
    ∧ ∀ d, s.restartOutputs.chan d
      = (if (s.chan d).group = none then (s.chan d).bare else (s.chan d).bare.settle).restarted s.avOf
          (decide ((s.pair (pairOf d)).restart.state ≠ .normal)) := by
  have hg := forEach_channelsOnly (fun g t => State.applyGroup t g) (fun g t => t.applyGroup_eq g) (List.finRange 12) s
  have hb := applyGroups_bare s
  unfold State.restartOutputs
  generalize forEach (fun g t => State.applyGroup t g) (List.finRange 12) s = u at hg hb ⊢
  have hc := forEach_channelsOnly (fun c t => State.restartChannel t c) (fun _ _ => rfl) (List.finRange 12)
    ({ u with pairs := u.pairs.map Pair.restart } : State)
  refine ⟨?_, fun d => ?_⟩
  · dsimp only
    generalize forEach (fun c t => State.restartChannel t c) (List.finRange 12) _ = v at hc ⊢
    generalize v.out.channels = channels at hc ⊢
    generalize u.out.channels = applied at hg
    subst hc hg
    rfl
  · have hav : ({ u with pairs := u.pairs.map Pair.restart } : State).avOf = s.avOf := by rw [hg]; rfl
    have hpair : ({ u with pairs := u.pairs.map Pair.restart } : State).pair (pairOf d) = (s.pair (pairOf d)).restart := by
      rw [hg]; simp [State.pair, getAt, State.withChannels]
    dsimp only
    rw [forEach_restartChannel, if_pos (List.mem_finRange d), hav, hpair, ← hb d, Channel.restarted_bare]
    rfl

/-! ## The zones (R90) -/

/-- The restart state of a zone (R90). -/
def ZoneRec.restarted (r : ZoneRec) : ZoneRec :=
  { r with
    power := .standby, switch := .idle, target := none, tag := none, waitCount := 0, attached := none
    masterCurrent := r.masterTarget, ramp := -240, sleep := 0, minute := 0 }

/-- What RESTART raises for a zone of `s`: the end of its switch (R90). -/
def State.endSwitch (s : State) (z : Zone) (u : State) : State :=
  if (s.zone z).switch = .idle then u else u.switchDone z .aborted

/-- The end of a zone's switch changes the injection queue and the report unit only. -/
theorem State.endSwitch_eq (s : State) (z : Zone) (u : State) : s.endSwitch z u = { u with
    link := { u.link with injq := (s.endSwitch z u).link.injq }, rep := (s.endSwitch z u).rep } := by
  unfold State.endSwitch
  split_ifs
  · rfl
  · exact u.switchDone_eq z .aborted

/-- RESTART for a zone puts it into its restart state. -/
theorem State.restartZone_same (s : State) (z : Zone) : (s.restartZone z).zone z = (s.zone z).restarted := by
  have hz : (s.endSwitch z s).zone z = s.zone z := by
    rw [s.endSwitch_eq]
    cases z <;> rfl
  rw [← hz]
  exact State.zone_setZone_same _ z _

/-- RESTART for a zone keeps the other zone. -/
theorem State.restartZone_other (s : State) (z y : Zone) (h : y ≠ z) : (s.restartZone z).zone y = s.zone y := by
  obtain ⟨-, -, -, -, -, hother⟩ := s.restartZone_keeps z
  exact hother y h

/-! ## All units together (R18) -/

/-- The state after the ends of both zones' switches (R90). -/
def State.abortedSwitches (s : State) : State := s.endSwitch .zone2 (s.endSwitch .main s)

/-- The ends of the switches change the injection queue and the report unit only. -/
theorem State.abortedSwitches_eq (s : State) : s.abortedSwitches = { s with
    link := { s.link with injq := s.abortedSwitches.link.injq }, rep := s.abortedSwitches.rep } := by
  unfold State.abortedSwitches
  rw [s.endSwitch_eq .zone2, s.endSwitch_eq .main]

/-- The state after the ends of the paths' bindings (R109). -/
def State.releasedPaths (s : State) : State := (s.abortedSwitches.restartPath .p0).restartPath .p1

/-- The ends of the bindings free the paths and change the rings, the waiting slot returns and the injection queue. -/
theorem State.releasedPaths_eq (s : State) : ∃ injq, s.releasedPaths = { s with
    pathZero := PathRec.free, pathOne := PathRec.free, bindFirst := .p0, rings := s.releasedPaths.rings
    intakeWait := s.releasedPaths.intakeWait, link := { s.link with injq := injq }, rep := s.abortedSwitches.rep } := by
  obtain ⟨_, _, _, h1⟩ := s.abortedSwitches.restartPath_eq .p0
  obtain ⟨_, _, _, h2⟩ := (s.abortedSwitches.restartPath .p0).restartPath_eq .p1
  rw [State.releasedPaths, h2, h1, s.abortedSwitches_eq]
  exact ⟨_, rfl⟩

/-- The model when RESTART has come past the tuner: zones, paths and the tuner have their restart states, and the
completions and the returns of flushed slots are raised. -/
def State.restarting (s : State) (c : CommandUnit) : State :=
  { s with
    cmd := c, zoneMain := s.zoneMain.restarted, zoneTwo := s.zoneTwo.restarted, owner := none
    pathZero := PathRec.free, pathOne := PathRec.free, bindFirst := .p0, rings := s.releasedPaths.rings
    intakeWait := s.releasedPaths.intakeWait, link := (s.releasedPaths.abortOp false).link
    rep := (s.releasedPaths.abortOp false).rep, tuner := { s.tuner.toIdle with op := none, blendTarget := 0 } }

/-- RESTART of the tuner does not look at what is put aside. -/
theorem State.restartTuner_aside (v : State) (a b : ZoneRec) (o : Option Zone) (c : CommandUnit) :
    (v.aside a b o c).restartTuner = { v.aside a b o c with
      tuner := { v.tuner.toIdle with op := none, blendTarget := 0 }, rep := (v.abortOp false).rep
      link := (v.abortOp false).link } := by
  obtain ⟨hrep, hlink, -, -⟩ := State.Agree.abortOp (u := v.aside a b o c) (v := v) ⟨rfl, rfl, rfl, rfl⟩ rfl
  rw [← hrep, ← hlink, State.restartTuner]
  generalize hd : (v.aside a b o c).abortOp false = d
  rw [State.abortOp_eq] at hd
  subst hd
  rfl

/-- RESTART up to the tuner. -/
theorem State.restartTuner_stage (s : State) (c : CommandUnit) :
    ((({ (({ s with cmd := c } : State).restartZone .main).restartZone .zone2 with owner := none } : State).restartPath
      .p0).restartPath .p1).restartTuner = s.restarting c := by
  obtain ⟨zm, zt, hs1⟩ := s.restartZones_aside c
  have hzt : zt = s.zoneTwo.restarted := by
    have h := (({ s with cmd := c } : State).restartZone .main).restartZone_same .zone2
    rw [hs1, State.restartZone_other _ .main .zone2 (by decide)] at h
    exact h
  have hzm : zm = s.zoneMain.restarted := by
    have h := (({ s with cmd := c } : State).restartZone .main).restartZone_other .zone2 .main (by decide)
    rw [hs1, State.restartZone_same] at h
    exact h
  generalize (({ s with cmd := c } : State).restartZone .main).restartZone .zone2 = s1 at hs1 ⊢
  have hpaths : ({ s1 with owner := none }.restartPath .p0).restartPath .p1 = s.releasedPaths.aside zm zt none c := by
    have h0 : ({ s1 with owner := none } : State) = s.abortedSwitches.aside zm zt none c :=
      congrArg (fun u : State => ({ u with owner := none } : State)) hs1
    rw [h0, State.restartPath_aside, State.restartPath_aside]
    rfl
  obtain ⟨injq, hr⟩ := s.releasedPaths_eq
  rw [hpaths, s.releasedPaths.restartTuner_aside, hzm, hzt, State.restarting]
  generalize (s.releasedPaths.abortOp false).link = link, (s.releasedPaths.abortOp false).rep = rep
  generalize s.releasedPaths = v at hr ⊢
  generalize v.rings = rings, v.intakeWait = wait at hr ⊢
  subst hr
  rfl

/-- The AV delays depend on the zones only. -/
theorem State.avOf_congr {u v : State} (hm : u.zoneMain = v.zoneMain) (ht : u.zoneTwo = v.zoneTwo) : u.avOf = v.avOf := by
  funext z
  match z with
  | none => rfl
  | some .main => exact congrArg ZoneRec.avDelay hm
  | some .zone2 => exact congrArg ZoneRec.avDelay ht

/-- What RESTART does behind the tuner. -/
def State.restartRest (u : State) : State :=
  let v := u.restartLanes.restartOutputs.zeroEnergies
  { v with mixer := { v.mixer with fb := 0, lr := 0, matrix := false } }

/-- A state with other lanes, groups and channels, and pairs and mixer in their restart states (R126, R196). -/
def State.restartedUnits (u : State) (lanes : Vector LaneRec 4) (groups : Vector (Option GroupRec) 12)
    (channels : Vector Channel 12) : State :=
  { u with
    lanes := lanes, groups := groups, out := { u.out with channels := channels }, pairs := u.pairs.map Pair.restart
    mixer := { u.mixer with eL := 0, eR := 0, eM := 0, eS := 0, fb := 0, lr := 0, matrix := false } }

/-- Behind the tuner lanes, groups, channels, pairs and the mixer take their restart states. -/
theorem State.restartRest_spec (u : State) : ∃ lanes groups channels,
    u.restartRest = u.restartedUnits lanes groups channels
    ∧ (∀ l, getAt lanes l = (u.lane l).restart)
    ∧ (∀ e, getAt groups e = (u.group e).map fun _ => GroupRec.forming)
    ∧ ∀ d, getAt channels d
      = (if (u.chan d).group = none then (u.chan d).bare else (u.chan d).bare.settle).restarted u.avOf
          (decide ((u.pair (pairOf d)).restart.state ≠ .normal)) := by
  obtain ⟨hl, hlanes, hgroups⟩ := u.restartLanes_spec
  obtain ⟨ho, hchans⟩ := u.restartLanes.restartOutputs_spec
  refine ⟨u.restartLanes.lanes, u.restartLanes.groups, u.restartLanes.restartOutputs.out.channels, ?_, hlanes, hgroups,
    fun d => ?_⟩
  · rw [State.restartRest, State.zeroEnergies, ho, hl]
    rfl
  · obtain ⟨hout, hpairs, hmain, htwo⟩ := u.restartLanes_keeps
    have hchan : u.restartLanes.chan d = u.chan d := by rw [State.chan, hout, State.chan]
    have hpair : u.restartLanes.pair (pairOf d) = u.pair (pairOf d) := by rw [State.pair, hpairs, State.pair]
    have hav : u.restartLanes.avOf = u.avOf := State.avOf_congr hmain htwo
    rw [← hchan, ← hav, ← hpair]
    exact hchans d

/-- The restart state of a zone keeps its AV delay. -/
theorem State.avOf_restartedZones (u s : State) (hm : u.zoneMain = s.zoneMain.restarted)
    (ht : u.zoneTwo = s.zoneTwo.restarted) : u.avOf = s.avOf := by
  funext z
  match z with
  | none => rfl
  | some .main => exact (congrArg ZoneRec.avDelay hm).trans rfl
  | some .zone2 => exact (congrArg ZoneRec.avDelay ht).trans rfl

/-- RESTART takes the units in order: zones, paths, the tuner, and the rest. -/
theorem cmdRestart_stages (s : State) : cmdRestart s = done (State.restartRest
    ((({ (s.restartZone .main).restartZone .zone2 with owner := none } : State).restartPath .p0).restartPath
      .p1).restartTuner) 0 := by
  simp only [cmdRestart, State.restartRest]

/-- RESTART puts every unit into its restart state (R18). -/
theorem cmdRestart_eq (s : State) (c : CommandUnit) : ∃ lanes groups channels,
    cmdRestart { s with cmd := c } = done ((s.restarting c).restartedUnits lanes groups channels) 0
    ∧ (∀ l, getAt lanes l = (s.lane l).restart)
    ∧ (∀ e, getAt groups e = (s.group e).map fun _ => GroupRec.forming)
    ∧ ∀ d, getAt channels d
      = (if (s.chan d).group = none then (s.chan d).bare else (s.chan d).bare.settle).restarted s.avOf
          (decide ((s.pair (pairOf d)).restart.state ≠ .normal)) := by
  obtain ⟨lanes, groups, channels, he, hlanes, hgroups, hchans⟩ := (s.restarting c).restartRest_spec
  rw [State.avOf_restartedZones (s.restarting c) s rfl rfl] at hchans
  refine ⟨lanes, groups, channels, ?_, hlanes, hgroups, hchans⟩
  rw [cmdRestart_stages, s.restartTuner_stage c, he]

/-- The return of a command changes the command unit and the injection queue only (R15, R16). -/
theorem State.returnCommand_eq (o : CmdOut) (op target : Byte) : ∃ cmd link,
    State.returnCommand o op target = { o.st with cmd := cmd, link := link } := by
  unfold State.returnCommand State.placeCommandReturn
  dsimp only
  split_ifs
  · exact ⟨_, _, rfl⟩
  · exact ⟨_, _, rfl⟩

/-- A RESTART that is ready. -/
theorem exec_restart (s : State) (h : s.CommandReady 0x01) :
    exec .restart s = .next (State.returnCommand (cmdRestart (s.handOver 0x01 0 [])) 0x01 0) := by
  have hrow : exec .restart s = .next (s.runHost 0x01 0 [] cmdRestart) := rfl
  rw [hrow, s.runHost_ready 0x01 0 [] cmdRestart h]
  rfl

/-- Handing a command over changes the command unit. -/
theorem State.handOver_cmd (s : State) (op target : Byte) (args : List Byte) :
    s.handOver op target args = { s with cmd := (s.handOver op target args).cmd } := rfl

/-- The return of a RESTART enters the queue behind what it raised, or waits when the queue is full (R15, R16). -/
theorem State.returnCommand_restarted (s v : State) (hnext : v.cmd.next = s.cmd.next) (hstrap : v.strap = s.strap)
    (hmirror : v.mirror = s.mirror) (htap : v.tap = s.tap) (h : s.CommandReady 0x01) :
    let t := State.returnCommand (done v 0) 0x01 0
    (v.link.injq.length < 16 → t.link = { v.link with injq := v.link.injq ++ [s.returnWrite 0x01 0 .ok 0] }
      ∧ t.cmd = { v.cmd with ret := none, next := next64 s.cmd.next })
    ∧ (16 ≤ v.link.injq.length → t.link = v.link
      ∧ t.cmd = { v.cmd with ret := some { slot := s.cmd.next, bytes := [0, 1, 0, 0, 0, 0, 0, 0] } }) := by
  intro t
  have hsnap : v.snapshotPlacing = false := by
    rw [← h.snapshotPlacing]
    unfold State.snapshotPlacing
    rw [hmirror]
  have hunbind : v.tap.unbinding = false := by rw [htap, h.unbinding]
  refine ⟨fun hl => ?_, fun hl => ?_⟩
  · have ht : t = _ := State.returnCommand_room (done v 0) 0x01 0 hl hsnap hunbind
    rw [ht]
    simp only [done, State.returnWrite, State.anchorBase, hnext, hstrap]
    exact ⟨rfl, trivial⟩
  · have ht : t = _ := State.returnCommand_full (done v 0) 0x01 0 (.inl hl)
    rw [ht]
    have hword : returnWord 0x01 0 (done v 0) = [0, 1, 0, 0, 0, 0, 0, 0] :=
      (by decide : ([0, 1, 0, BitVec.ofNat 8 CmdResult.ok.code] ++ leBytesInt 4 0 : List Byte) = [0, 1, 0, 0, 0, 0, 0, 0])
    rw [hword]
    simp only [done, hnext]
    exact ⟨trivial, trivial⟩

/-- The slots that the ends of the bindings catch return in their order, P0's window before P1's (R35, R40). -/
theorem State.releasedPaths_flushed (s : State)
    (h : ∀ p w r, s.feeding p = some w → s.ring w = some r → s.namesWindow p w = true ∧ r.unpackPos < r.slots.length) :
    let b := s.abortedSwitches
    let k := if s.intakeWait = [] then 16 - b.link.injq.length else 0
    let all := s.caughtSlots .p0 ++ s.caughtSlots .p1
    s.releasedPaths.link = { b.link with injq := b.link.injq ++ (all.take k).map s.caughtReturn }
    ∧ s.releasedPaths.intakeWait = s.intakeWait ++ (all.drop k).map Prod.fst := by
  have hf := s.abortedSwitches.restartPaths_flushed
  unfold State.releasedPaths
  obtain ⟨injq, rep, he⟩ : ∃ injq rep, s.abortedSwitches = { s with link := { s.link with injq := injq }, rep := rep } :=
    ⟨_, _, s.abortedSwitches_eq⟩
  rw [he] at hf ⊢
  obtain ⟨hlink, hwait, -⟩ := hf h
  exact ⟨hlink, hwait⟩

/-- RESTART keeps the count of forwarded requests (R10). -/
theorem State.releasedPaths_forwardCount (s : State) :
    (s.releasedPaths.abortOp false).link.forwardCount = s.link.forwardCount := by
  obtain ⟨injq, he⟩ := s.releasedPaths_eq
  rw [State.abortOp_eq, he]

/-- The ring that fed a path when RESTART begins, and what RESTART leaves of it (R29, R40). -/
theorem State.releasedPaths_ring (s : State) (p : PathId) (w : Fin 16) (r : Ring) (hf : s.feeding p = some w)
    (hr : s.ring w = some r) (hp : r.unpackPos < r.slots.length) (hn : s.namesWindow p w = true)
    (ho : s.namesWindow p.other w = false ∨ s.feeding p.other = none) :
    ∃ q, s.releasedPaths.ring w = some q ∧ q.feeds = none ∧ q.unpackPos = flushPos r ∧ q.slots = r.flushed.slots := by
  have h := s.abortedSwitches.restartPaths_ring p w r
  unfold State.releasedPaths
  obtain ⟨injq, rep, he⟩ : ∃ injq rep, s.abortedSwitches = { s with link := { s.link with injq := injq }, rep := rep } :=
    ⟨_, _, s.abortedSwitches_eq⟩
  rw [he] at h ⊢
  exact h hf hr hp hn ho

/-- What a channel's record is after RESTART (R182). -/
theorem Channel.restarted_eq (r : Channel) (av : Option Zone → Nat) (hav : av none = 0) (p : Pair) :
    let w := if r.group = none then r.applied else r.pend.getD r.applied
    let d := av (roleZone w.role)
    let locked := decide (p.state = .lockout)
    (if r.group = none then r.bare else r.bare.settle).restarted av (decide (p.restart.state ≠ .normal)) = { r with
          applied := w, appliedAv := d, pend := if r.group = none then r.pend else none, group := none
          ramp := if locked = true then -240 else 0, reconfig := false, protect := r.protect && locked
          softStart := false, softCount := 0, lr := 0, lrDue := 0, release := 0
          crossover := { inputs := [], lows := [], highs := [] }
          line := List.replicate (if w.role = .unused then 0 else w.delay + d) 0 } := by
  intro w d locked
  have hlocked : decide (p.restart.state ≠ .normal) = locked := by
    by_cases hp : p.state = .lockout <;> simp [Pair.restart, hp, locked]
  have hd : ∀ x : ChanSettings, (if x.role = .unused then 0 else av (roleZone x.role)) = av (roleZone x.role) := by
    intro x
    split_ifs with hx
    · rw [hx]; exact hav.symm
    · rfl
  rw [hlocked]
  by_cases hg : r.group = none
  · simp only [Channel.restarted, Channel.zone, hg, if_true, hd, w, d]
    simp only [Channel.bare, hg]
    rfl
  · simp only [Channel.restarted, Channel.zone, hg, if_false, hd, w, d]
    simp only [Channel.bare, Channel.settle, Channel.target]
    rfl

/-- Settles O22: each unit's restart state, and the reports and returns in their order. -/
theorem restartTakesRestartState : Obligations.RestartTakesRestartState := by
  intro s h
  obtain ⟨lanes, groups, channels, hx, hlanes, hgroups, hchans⟩ := cmdRestart_eq s (s.handOver 0x01 0 []).cmd
  rw [← s.handOver_cmd] at hx
  have hrun := exec_restart s h
  rw [hx] at hrun
  obtain ⟨hroom, hfull⟩ := s.returnCommand_restarted
    ((s.restarting (s.handOver 0x01 0 []).cmd).restartedUnits lanes groups channels) (s.handOver_next 0x01 0 []) rfl
    rfl rfl h
  obtain ⟨cmd, link, ht⟩ := State.returnCommand_eq
    (done ((s.restarting (s.handOver 0x01 0 []).cmd).restartedUnits lanes groups channels) 0) 0x01 0
  generalize State.returnCommand _ _ _ = t at hrun ht hroom hfull
  refine ⟨t, hrun, ?_, fun z => ?_, fun p => ?_, ?_, fun p w r hf hr hp hn ho => ?_, ?_, fun l => ?_, fun e => ?_,
    ?_, fun n => ?_, fun b f hscan helse => ?_, ?_⟩
  · intro aborts ends
    have haborts : aborts = s.endSwitch := rfl
    have hends : ends = fun p u => u.restartPath p := rfl
    clear_value aborts ends
    subst haborts hends
    intro b c d caught
    have hcaught : caught = s.caughtSlots := rfl
    have hb : b = s.abortedSwitches := rfl
    have hc : c = s.releasedPaths := rfl
    have hd : d = s.releasedPaths.abortOp false := rfl
    clear_value b c d caught
    subst hb hc hd hcaught
    intro all k
    refine ⟨by rw [ht]; rfl, by rw [ht]; rfl, by rw [ht]; rfl, fun hall => ?_, hroom, hfull⟩
    obtain ⟨hlink, hwait⟩ := s.releasedPaths_flushed hall
    refine ⟨hlink, ?_⟩
    rw [ht]
    exact hwait
  · rw [ht]
    cases z <;> rfl
  · rw [ht]
    cases p <;> rfl
  · rw [ht]
    rfl
  · obtain ⟨q, hq, hqf, hpos, hslots⟩ := s.releasedPaths_ring p w r hf hr hp hn ho
    have htq : t.ring w = some q := by
      rw [← hq, ht]
      rfl
    refine ⟨q, htq, hqf, hpos, by rw [hslots, r.flushed_length], fun j hj => ?_⟩
    rw [← r.flushed_slot_cases hp j hj, Ring.slot, hslots]
    rfl
  · rw [ht]
    rfl
  · rw [ht]
    exact (hlanes l).trans rfl
  · rw [ht]
    exact hgroups e
  · intro c r w av locked
    rw [ht]
    refine (hchans c).trans ((Channel.restarted_eq (s.chan c) s.avOf rfl (s.pair (pairOf c))).trans ?_)
    rfl
  · rw [ht]
    simp [State.pair, getAt, State.restartedUnits, done]
    rfl
  · rw [ht]
    exact s.tuner.toIdle_restart b f hscan helse
  · have hcount : t.link.forwardCount = s.link.forwardCount := by
      rw [← s.releasedPaths_forwardCount]
      obtain hl | hl := Nat.lt_or_ge (s.releasedPaths.abortOp false).link.injq.length 16
      · rw [(hroom hl).1]
        rfl
      · rw [(hfull hl).1]
        rfl
    rw [ht] at hcount ⊢
    exact ⟨rfl, rfl, rfl, rfl, rfl, rfl, rfl, rfl, rfl, rfl, rfl, rfl, rfl, rfl, rfl, hcount, rfl, rfl⟩

end Sys2Proof.Machine
end

