-- ==== Sys2Proof/Proofs/Memory.lean ====
section
/-! SUPPORT. The memory path's invariant as a predicate of the five parts of the state it speaks of, and the rules of the
state's operations, paths, rings and tap for it: each keeps it. -/

namespace Sys2Proof.Machine

open Sys2Proof

/-- The memory path's invariant of the five parts of the state it speaks of. A change of any other part leaves it as it
stands. -/
def MemoryOk (strap : BitVec 4) (windows : Vector Window 16) (link : Link) (shadow : Mem) (rep : ReportUnit) : Prop :=
  memWf shadow = true ∧ link.injq.length ≤ 16 ∧ rep.queue.length ≤ 8
    ∧ (rep.queue.length = 8 → radioCount rep.queue ≤ 1) ∧ link.forwardCount ≤ 32
    ∧ (link.slot.isSome = true → link.overlapLeft = 0) ∧ getAt windows 0 = .anchor (strap.toNat * 16777216)

/-- The memory path's invariant of a state. -/
def State.MemOk (s : State) : Prop := MemoryOk s.strap s.windows s.link s.cmd.shadow s.rep

/-- The predicate is the invariant of the claims. -/
theorem State.memOk_iff (s : State) : s.MemOk ↔ s.MemoryInv :=
  ⟨fun ⟨h1, h2, h3, h4, h5, h6, h7⟩ => ⟨h1, h2, h3, h4, h5, h6, h7⟩,
    fun ⟨h1, h2, h3, h4, h5, h6, h7⟩ => ⟨h1, h2, h3, h4, h5, h6, h7⟩⟩

section
variable {s : State}

/-! ## Combinators -/

/-- Either branch keeps it. -/
theorem State.MemOk.ite {c : Prop} [Decidable c] {a b : State} (ha : a.MemOk) (hb : b.MemOk) :
    (if c then a else b).MemOk := by
  split
  · exact ha
  · exact hb

/-- Steps that keep it, one for each element of a list. -/
theorem State.MemOk.forEach {α : Type} {f : α → State → State} (hf : ∀ x t, t.MemOk → (f x t).MemOk) {xs : List α}
    (h : s.MemOk) : (forEach f xs s).MemOk := by
  induction xs generalizing s with
  | nil => exact h
  | cons x xs ih => exact ih (hf x s h)

/-- A part of the block whose work keeps it. -/
theorem State.MemOk.takePart {k : BlockPart} {f : State → State} (hf : ∀ t, t.MemOk → (f t).MemOk) (h : s.MemOk) :
    (takePart k f s).MemOk :=
  .ite h (hf s h)

/-- An event of the block whose stages and part keep it. -/
theorem State.MemOk.blockEvent {k : BlockPart} {before f : State → State} {occurs : State → Bool}
    (hb : ∀ t, t.MemOk → (before t).MemOk) (hf : ∀ t, t.MemOk → (f t).MemOk) (h : s.MemOk) :
    (blockEvent k before occurs f s).MemOk :=
  .ite h (hf _ (hb s h))

/-! ## State operations -/

/-- Putting a zone record in its place keeps it. -/
theorem State.MemOk.setZone {z : Zone} {r : ZoneRec} (h : s.MemOk) : (s.setZone z r).MemOk := by
  cases z
  · exact h
  · exact h

/-- Putting a path record in its place keeps it. -/
theorem State.MemOk.setPath {p : PathId} {r : PathRec} (h : s.MemOk) : (s.setPath p r).MemOk := by
  cases p
  · exact h
  · exact h

/-- Putting a lane record in its place keeps it. -/
theorem State.MemOk.setLane {l : Fin 4} {r : LaneRec} (h : s.MemOk) : (s.setLane l r).MemOk := h

/-- Putting a group record in its place keeps it. -/
theorem State.MemOk.setGroup {e : Fin 12} {g : Option GroupRec} (h : s.MemOk) : (s.setGroup e g).MemOk := h

/-- Putting a source entry in its place keeps it. -/
theorem State.MemOk.setSource {e : Fin 12} {r : SourceEntry} (h : s.MemOk) : (s.setSource e r).MemOk := h

/-- Putting a channel record in its place keeps it. -/
theorem State.MemOk.setChan {c : Fin 12} {r : Channel} (h : s.MemOk) : (s.setChan c r).MemOk := h

/-- Putting a pair record in its place keeps it. -/
theorem State.MemOk.setPair {n : Fin 6} {r : Pair} (h : s.MemOk) : (s.setPair n r).MemOk := h

/-- Putting a ring in its place keeps it. -/
theorem State.MemOk.setRing {i : Fin 16} {r : Option Ring} (h : s.MemOk) : (s.setRing i r).MemOk := h

/-- Writing a window other than the anchor keeps it. -/
theorem State.MemOk.setWindow {i : Fin 16} {w : Window} (hi : i.val ≠ 0) (h : s.MemOk) : (s.setWindow i w).MemOk := by
  obtain ⟨hshadow, hinjq, hqueue, hradio, hforward, hslot, hanchor⟩ := h
  have h0 : i ≠ 0 := fun he => hi (congrArg Fin.val he)
  exact ⟨hshadow, hinjq, hqueue, hradio, hforward, hslot, (getAt_setAt_other s.windows i 0 w h0).trans hanchor⟩

/-- A write that finds room keeps the queue at 16 (R10). -/
theorem State.MemOk.enqueue {i : Injected} (hr : s.room = true) (h : s.MemOk) : (s.enqueue i).MemOk := by
  obtain ⟨hshadow, -, hqueue, hradio, hforward, hslot, hanchor⟩ := h
  have hl := s.room_iff.mp hr
  refine ⟨hshadow, ?_, hqueue, hradio, hforward, hslot, hanchor⟩
  simp only [State.enqueue, List.length_append, List.length_singleton]
  omega

/-- A write's origin does not matter to it. -/
theorem State.MemOk.mapInjq {f : Injected → Injected} (h : s.MemOk) :
    ({ s with link := { s.link with injq := s.link.injq.map f } } : State).MemOk := by
  obtain ⟨hshadow, hinjq, hqueue, hradio, hforward, hslot, hanchor⟩ := h
  refine ⟨hshadow, ?_, hqueue, hradio, hforward, hslot, hanchor⟩
  rw [List.length_map]
  exact hinjq

/-- A report that can be written enters the queue, which had room (R19). -/
theorem State.MemOk.writeReport {r : Report} (hr : s.room = true) (h : s.MemOk) : (s.writeReport r).MemOk :=
  State.MemOk.enqueue hr h

/-- Posting keeps it (R10, R21, R144). -/
theorem State.MemOk.post {r : Report} (h : s.MemOk) : (s.post r).MemOk := by
  obtain ⟨hshadow, hinjq, hqueue, hradio, hforward, hslot, hanchor⟩ := h
  obtain ⟨hinjq', hqueue'⟩ := s.post_limits r ⟨hinjq, hqueue⟩
  have hradio' := s.post_radioCount r hqueue hradio
  refine ⟨?_, hinjq', hqueue', hradio', ?_, ?_, ?_⟩ <;> rw [s.post_eq]
  · exact hshadow
  · exact hforward
  · exact hslot
  · exact hanchor

/-- Raising a report keeps it. -/
theorem State.MemOk.raise {kind : ReportKind} {unit : Nat} {payload : List Byte} (h : s.MemOk) :
    (s.raise kind unit payload).MemOk := h.post

/-- A completion keeps it (R17). -/
theorem State.MemOk.raiseDone {tag : Option Nat} {payload : List Byte} (h : s.MemOk) :
    (s.raiseDone tag payload).MemOk := by
  cases tag with
  | none => exact h
  | some t => exact h.post

/-- Writing the head of the pending queue keeps it (R20, R21). -/
theorem State.MemOk.writePending (h : s.MemOk) : s.writePending.MemOk := by
  unfold State.writePending
  split
  · exact h
  · next r rs hq =>
    split_ifs with hc
    · have hroom : s.room = true := s.room_iff.mpr (s.canWriteReport_iff.mp hc).2
      obtain ⟨hshadow, hinjq, hqueue, -, hforward, hslot, hanchor⟩ := h
      rw [hq, List.length_cons] at hqueue
      have hpopped : ({ s with rep := { s.rep with queue := rs } } : State).MemOk := by
        refine ⟨hshadow, hinjq, ?_, fun hl => ?_, hforward, hslot, hanchor⟩ <;> dsimp only at * <;> omega
      exact hpopped.writeReport hroom
    · exact h

/-! ## Paths -/

/-- Zeroing the detector energies keeps it. -/
theorem State.MemOk.zeroEnergies (h : s.MemOk) : s.zeroEnergies.MemOk := h

/-- Zeroing them for a path keeps it. -/
theorem State.MemOk.zeroEnergiesFor {p : PathId} (h : s.MemOk) : (s.zeroEnergiesFor p).MemOk := .ite h h

/-- The adoption of a format keeps it. -/
theorem State.MemOk.adoptFormat {p : PathId} (h : s.MemOk) : (s.adoptFormat p).MemOk := by
  unfold State.adoptFormat
  split
  · exact h
  · exact .raise (.zeroEnergiesFor (.setPath h))

/-- Handing a path a format keeps it. -/
theorem State.MemOk.handFormat {p : PathId} {f : Format} (h : s.MemOk) : (s.handFormat p f).MemOk :=
  .ite (.setPath h) (.ite (.adoptFormat (.setPath h)) (.setPath h))

/-- Retriggering the tracker keeps it. -/
theorem State.MemOk.retrigger {p : PathId} (h : s.MemOk) : (s.retrigger p).MemOk := .setPath h

/-- Pushing a frame keeps it. -/
theorem State.MemOk.pushFrame {p : PathId} {f : Frame} (h : s.MemOk) : (s.pushFrame p f).MemOk :=
  .ite h (.ite (.ite h (.raise (.retrigger (.setPath h)))) (.setPath h))

/-- An underrun keeps it. -/
theorem State.MemOk.underrun {p : PathId} (h : s.MemOk) : (s.underrun p).MemOk := .raise (.setPath h)

/-- Consuming a block keeps it. -/
theorem State.MemOk.consumeBlock {p : PathId} (h : s.MemOk) : (s.consumeBlock p).MemOk :=
  .ite (.setPath h) (.ite (.adoptFormat (.setPath h)) (.ite (.setPath (.setPath h)) (.underrun (.setPath h))))

/-- A block in HOLD keeps it. -/
theorem State.MemOk.holdBlock {p : PathId} (h : s.MemOk) : (s.holdBlock p).MemOk := .ite (.setPath h) (.consumeBlock h)

/-- A block in ACQUIRE keeps it. -/
theorem State.MemOk.acquireBlock {p : PathId} (h : s.MemOk) : (s.acquireBlock p).MemOk :=
  have hc := State.MemOk.consumeBlock (.setPath h)
  .ite (.ite (.raise (.setPath hc)) (.setPath hc)) hc

/-- A block in TRACK keeps it. -/
theorem State.MemOk.trackBlock {p : PathId} (h : s.MemOk) : (s.trackBlock p).MemOk :=
  .consumeBlock (.ite (.raise (.setPath h)) (.setPath h))

/-- The tracker's block keeps it. -/
theorem State.MemOk.trackerBlock {p : PathId} (h : s.MemOk) : (s.trackerBlock p).MemOk := by
  unfold State.trackerBlock
  dsimp only
  split
  · exact .setPath h
  · exact .ite (.setPath h) (.ite (.consumeBlock (.setPath h)) (.acquireBlock (.setPath h)))
  · exact .ite (.setPath h) (.holdBlock h)
  · exact .ite (.acquireBlock h) (.holdBlock (.setPath h))
  · exact .ite (.trackBlock h) (.holdBlock (.setPath h))
  · exact .ite (.consumeBlock h) (.holdBlock (.setPath h))

/-- Counting a handover keeps it. -/
theorem State.MemOk.countHandover {p : PathId} (h : s.MemOk) : (s.countHandover p).MemOk := by
  unfold State.countHandover
  split
  · exact h
  · split
    · exact h
    · exact h

/-- Taking the buffered count keeps it. -/
theorem State.MemOk.takeB {p : PathId} (h : s.MemOk) : (s.takeB p).MemOk := .setPath h

/-- A path's part of the block keeps it. -/
theorem State.MemOk.pathBlock {p : PathId} (h : s.MemOk) : (s.pathBlock p).MemOk := by
  unfold State.pathBlock
  split
  · exact .setPath h
  · exact .ite (.setPath (.adoptFormat (.takeB (.countHandover h)))) (.trackerBlock (.takeB (.countHandover h)))

/-! ## Rings -/

/-- Placing a waiting slot return keeps it: it waits for room (R10). -/
theorem State.MemOk.placeReturn (h : s.MemOk) : s.placeReturn.MemOk := by
  unfold State.placeReturn
  split
  · exact h
  · split_ifs with hr
    · exact h
    · have hroom : s.room = true := Bool.eq_true_of_not_eq_false hr
      split
      · exact h
      · exact .enqueue hroom h

/-- Placing several waiting slot returns keeps it. -/
theorem State.MemOk.placeReturns {n : Nat} (h : s.MemOk) : (State.placeReturns n s).MemOk := by
  induction n generalizing s with
  | zero => exact h
  | succ n ih => exact ih h.placeReturn

/-- A slot that begins to return keeps it. -/
theorem State.MemOk.enterReturning {w : Fin 16} {i : Nat} {status : StreamStatus} {len : Nat} (h : s.MemOk) :
    (s.enterReturning w i status len).MemOk := by
  unfold State.enterReturning
  split
  · exact h
  · exact .ite (.placeReturn h) h

/-- The issue of a slot's return keeps it. -/
theorem State.MemOk.slotReturned {w : Fin 16} {i : Nat} (h : s.MemOk) : (s.slotReturned w i).MemOk := by
  unfold State.slotReturned
  split
  · exact h
  · exact h

/-- Capturing bytes into a slot keeps it. -/
theorem State.MemOk.captureInto {w : Fin 16} {r : Ring} {i : Nat} {bytes : List (Nat × Byte)} (h : s.MemOk) :
    (s.captureInto w r i bytes).MemOk := by
  unfold State.captureInto
  dsimp only
  split
  · exact .ite h (.ite h h)
  all_goals exact h

/-- Sealing a slot keeps it. -/
theorem State.MemOk.sealSlot {w : Fin 16} {r : Ring} {i : Nat} (h : s.MemOk) : (s.sealSlot w r i).MemOk :=
  .ite (.enterReturning h) (.ite (.enterReturning h) (.ite (.enterReturning (.setRing h)) (.setRing h)))

/-- The handover of a slot keeps it. -/
theorem State.MemOk.streamHandover {w : Fin 16} {i : Nat} (h : s.MemOk) : (s.streamHandover w i).MemOk := by
  unfold State.streamHandover
  split
  · exact h
  · dsimp only
    split
    · exact .ite (.enterReturning (.setRing h)) (.enterReturning (.setRing h))
    · exact .enterReturning (.setRing h)
    · exact .ite (.sealSlot (.setRing h)) (.enterReturning (.setRing h))
    all_goals exact h

/-- A write in a STREAM window keeps it. -/
theorem State.MemOk.observeStream {w : Fin 16} {lw : LinkWrite} (h : s.MemOk) : (s.observeStream w lw).MemOk := by
  unfold State.observeStream
  split
  · exact h
  · dsimp only
    refine .ite h ?_
    split
    · exact .ite h (.captureInto h)
    · exact .ite (.streamHandover (.ite h (.captureInto h))) (.ite h (.captureInto h))

/-- Moving a frame to a path keeps it. -/
theorem State.MemOk.moveFrame {p : PathId} {w : Fin 16} {i : Nat} {f : Frame} (h : s.MemOk) :
    (s.moveFrame p w i f).MemOk := by
  unfold State.moveFrame
  split
  · exact h
  · exact .ite (.enterReturning (.setRing (.setPath h))) (.setRing (.setPath h))

/-- Unpacking a frame keeps it. -/
theorem State.MemOk.unpackStep {p : PathId} (h : s.MemOk) : (s.unpackStep p).MemOk := by
  unfold State.unpackStep
  split
  · exact h
  · split
    · exact h
    · dsimp only
      refine .ite (.setRing h) ?_
      split
      · exact .setRing h
      · exact .ite (.ite (.handFormat (.setRing h)) (.setRing h))
          (.moveFrame (.ite (.handFormat (.setRing h)) (.setRing h)))

/-- A window that begins to feed a path keeps it. -/
theorem State.MemOk.startFeeding {w : Fin 16} {p : PathId} (h : s.MemOk) : (s.startFeeding w p).MemOk := by
  unfold State.startFeeding
  split
  · exact h
  · exact h

/-- Choosing the path that a window feeds keeps it. -/
theorem State.MemOk.feedIfNamed {w : Fin 16} (h : s.MemOk) : (s.feedIfNamed w).MemOk := by
  unfold State.feedIfNamed
  split
  · exact h
  · refine .ite h ?_
    split
    · exact h
    · exact .startFeeding h

/-- A flush keeps it. -/
theorem State.MemOk.flushWindow {w : Fin 16} (h : s.MemOk) : (s.flushWindow w).MemOk := by
  unfold State.flushWindow
  split
  · exact h
  · exact .feedIfNamed (.ite (.placeReturns h) h)

/-- Discarding a STREAM window keeps it. -/
theorem State.MemOk.discardRing {w : Fin 16} (h : s.MemOk) : (s.discardRing w).MemOk := h.mapInjq (f := orphanStream w)

/-! ## The tap -/

/-- Placing a write of the tap in a queue with room keeps it. -/
theorem State.MemOk.placeTapItem {it : TapItem} (hr : s.room = true) (h : s.MemOk) : (s.placeTapItem it).MemOk := by
  unfold State.placeTapItem
  split
  · exact h
  · split
    · exact .enqueue hr h
    · exact h.enqueue hr

/-- One step of the tap keeps it: it waits for room (R10). -/
theorem State.MemOk.tapMove (h : s.MemOk) : s.tapMove.1.MemOk := by
  unfold State.tapMove
  split
  · split_ifs with hr
    · exact h
    · exact .placeTapItem (s := { s with tap := _ }) (Bool.eq_true_of_not_eq_false hr) h
  · split
    · dsimp only
      split_ifs with ht hr
      · exact h
      · exact State.MemOk.placeTapItem (Bool.eq_true_of_not_eq_false hr) h
      · exact h
    · exact h

/-- Several steps of the tap keep it. -/
theorem State.MemOk.tapPump {n : Nat} (h : s.MemOk) : (State.tapPump n s).MemOk := by
  induction n generalizing s with
  | zero => exact h
  | succ n ih => exact .ite (ih h.tapMove) h

/-- The tap's part of the block keeps it. -/
theorem State.MemOk.tapBlock {frames : List (Sample × Sample)} (h : s.MemOk) : (s.tapBlock frames).MemOk := by
  unfold State.tapBlock
  split
  · exact h
  · exact .ite h (.ite (State.MemOk.tapPump (s := { s with tap := { s.tap with hold := frames } }) h) h.tapPump)

/-- The end of an UNBIND_TAP keeps it. -/
theorem State.MemOk.endUnbinding (h : s.MemOk) : s.endUnbinding.MemOk := .ite h h

/-- A write in the tap's window keeps it. -/
theorem State.MemOk.observeTap {w : Fin 16} {lw : LinkWrite} (h : s.MemOk) : (s.observeTap w lw).MemOk := by
  unfold State.observeTap
  split
  · exact h
  · dsimp only
    refine .ite h ?_
    split
    · exact h
    · refine .ite h ?_
      split
      · exact .ite h h
      · exact .endUnbinding (State.MemOk.tapPump (s := { s with tap := _ }) h)

/-- The issue of a closing write keeps it. -/
theorem State.MemOk.tapReturned {i : Nat} (h : s.MemOk) : (s.tapReturned i).MemOk := h

/-- UNBIND_TAP keeps it. -/
theorem State.MemOk.unbind (h : s.MemOk) : s.unbind.MemOk := by
  unfold State.unbind
  split
  · exact h
  · exact State.MemOk.tapPump (s := { s with tap := _ }) h

/-- Discarding the tap's window keeps it. -/
theorem State.MemOk.discardTap (h : s.MemOk) : s.discardTap.MemOk := h.mapInjq (f := orphanTap)

end

end Sys2Proof.Machine
end

