-- ==== Sys2Proof/Proofs/MemoryUnits.lean ====
section
/-! SUPPORT. Every operation of the lane receiver, the tuner, the zones, the outputs, protection, the mixer and the mirror
keeps the memory path's invariant: they raise reports and place writes in a queue with room, and no more. -/

namespace Sys2Proof.Machine

open Sys2Proof

section
variable {s : State}

/-! ## Lanes -/

/-- A LANE_STATE report keeps it. -/
theorem State.MemOk.laneReport {l : Fin 4} {cause : LaneCause} (h : s.MemOk) : (s.laneReport l cause).MemOk := .raise h

/-- LANE_STATE for several lanes keeps it. -/
theorem State.MemOk.laneReports {ls : List (Fin 4)} {cause : LaneCause} (h : s.MemOk) : (s.laneReports ls cause).MemOk :=
  .forEach (fun _ _ => .laneReport) h

/-- Changing several lanes keeps it. -/
theorem State.MemOk.mapLanes {ls : List (Fin 4)} {f : LaneRec → LaneRec} (h : s.MemOk) : (s.mapLanes ls f).MemOk :=
  .forEach (fun _ _ => .setLane) h

/-- Comparing a group's lanes keeps it. -/
theorem State.MemOk.groupCompare {e : Fin 12} (h : s.MemOk) : (s.groupCompare e).MemOk := by
  unfold State.groupCompare
  split
  · exact h
  · exact .ite h (.ite (.setGroup h) (.forEach (fun _ _ ht => .laneReport (.setLane ht)) h))

/-- A group that forms again keeps it. -/
theorem State.MemOk.groupReform {e : Fin 12} (h : s.MemOk) : (s.groupReform e).MemOk := .setGroup (.mapLanes h)

/-- Leaving the measuring stage keeps it. -/
theorem State.MemOk.leaveMeasuring {l : Fin 4} (h : s.MemOk) : (s.leaveMeasuring l).MemOk := by
  unfold State.leaveMeasuring
  split
  · exact .ite (.groupReform h) h
  · exact h

/-- Placing a lane keeps it. -/
theorem State.MemOk.placeLane {l : Fin 4} {cfg : LaneConfig} (h : s.MemOk) : (s.placeLane l cfg).MemOk := by
  unfold State.placeLane
  dsimp only
  refine .ite (.laneReport (.setLane h)) ?_
  split
  · exact .setLane h
  · exact .groupCompare (.setLane h)

/-- Leaving DATA keeps it. -/
theorem State.MemOk.leaveData {e : Fin 12} {l : Fin 4} {f : LaneRec → LaneRec} {cause : LaneCause} (h : s.MemOk) :
    (s.leaveData e l f cause).MemOk := .laneReports (.groupReform (.setLane (.mapLanes h)))

/-- Dropping a group keeps it. -/
theorem State.MemOk.dropGroup {l : Fin 4} {f : LaneRec → LaneRec} {cause : LaneCause} (h : s.MemOk) :
    (s.dropGroup l f cause).MemOk := by
  unfold State.dropGroup
  split
  · exact h
  · exact .leaveData h

/-- Forming frames of a group's lanes keeps it. -/
theorem State.MemOk.formFrames {e : Fin 12} {n : Nat} (h : s.MemOk) : (State.formFrames e n s).MemOk := by
  induction n generalizing s with
  | zero => exact h
  | succ n ih =>
    unfold State.formFrames
    dsimp only
    refine .ite h (ih ?_)
    split
    · exact .mapLanes h
    · exact .pushFrame (.mapLanes h)

/-- Entry to DATA keeps it. -/
theorem State.MemOk.enterData {e : Fin 12} {g : GroupRec} (h : s.MemOk) : (s.enterData e g).MemOk := by
  unfold State.enterData
  dsimp only
  refine .formFrames ?_
  split
  · exact .retrigger (.handFormat (.laneReports (.setGroup (.mapLanes h))))
  · exact .laneReports (.setGroup (.mapLanes h))

/-- A failed measurement keeps it. -/
theorem State.MemOk.failMeasure {e : Fin 12} (h : s.MemOk) : (s.failMeasure e).MemOk :=
  .laneReports (.groupReform (.mapLanes h))

/-- The end of a measurement keeps it. -/
theorem State.MemOk.measureDone {e : Fin 12} {g : GroupRec} (h : s.MemOk) : (s.measureDone e g).MemOk :=
  .ite (.enterData h) h

/-- A SYNC frame of an aligned lane keeps it. -/
theorem State.MemOk.syncAligned {l : Fin 4} (h : s.MemOk) : (s.syncAligned l).MemOk := .setLane (.leaveMeasuring h)

/-- A frame of a lane that is measured keeps it. -/
theorem State.MemOk.measureFrame {l : Fin 4} {e : Fin 12} {g : GroupRec} {k : FrameKind} {f : LaneFrame}
    (h : s.MemOk) : (s.measureFrame l e g k f).MemOk :=
  .ite (.syncAligned h)
    (.ite (.ite (.measureDone (.setLane (.setGroup h))) h)
      (.ite (.ite (.measureDone (.setLane h)) (.ite (.failMeasure h) (.setLane h)))
        (.ite (.failMeasure h) (.setLane h))))

/-- A frame of an aligned lane keeps it. -/
theorem State.MemOk.alignedFrame {l : Fin 4} {k : FrameKind} {f : LaneFrame} (h : s.MemOk) :
    (s.alignedFrame l k f).MemOk := by
  unfold State.alignedFrame
  split
  · exact .ite (.syncAligned h) h
  · exact .ite (.measureFrame h) (.ite (.syncAligned h) (.ite (.laneReport (.setLane h)) h))

/-- A frame that enters the deskew buffer keeps it. -/
theorem State.MemOk.enterBuffer {l : Fin 4} {f : Sample × Sample} (h : s.MemOk) : (s.enterBuffer l f).MemOk := by
  unfold State.enterBuffer
  dsimp only
  refine .ite (.dropGroup h) ?_
  split
  · exact .setLane h
  · exact .formFrames (.setLane h)

/-- A frame of a lane in DATA keeps it. -/
theorem State.MemOk.dataFrame {l : Fin 4} {k : FrameKind} {f : LaneFrame} (h : s.MemOk) :
    (s.dataFrame l k f).MemOk := by
  unfold State.dataFrame
  dsimp only
  split
  · exact .enterBuffer (.setLane h)
  · exact .enterBuffer h
  · exact .dropGroup (.setLane h)
  all_goals exact .ite (.dropGroup (.setLane h)) (.enterBuffer (.setLane h))

/-- A preamble frame keeps it. -/
theorem State.MemOk.preambleFrame {l : Fin 4} {f : LaneFrame} (h : s.MemOk) : (s.preambleFrame l f).MemOk := by
  unfold State.preambleFrame
  dsimp only
  split
  · exact .setLane h
  · split
    · exact .setLane h
    · exact .ite (.setLane h) (.ite (.placeLane h) (.setLane h))

/-- A frame keeps it, whatever the lane's state. -/
theorem State.MemOk.frameByState {l : Fin 4} {k : FrameKind} {f : LaneFrame} (h : s.MemOk) :
    (s.frameByState l k f).MemOk := by
  unfold State.frameByState
  dsimp only
  split
  · exact h
  · exact .setLane h
  · split
    · exact h
    · exact h
    · exact h
    · exact .setLane h
    · exact .preambleFrame h
  · split
    · exact .setLane h
    · exact .setLane h
    · exact .setLane h
    · exact .setLane h
    · exact .preambleFrame h
  · exact .alignedFrame h
  · exact .dataFrame h
  · exact .ite (.setLane h) h

/-- Receiving a frame keeps it. -/
theorem State.MemOk.receiveFrame {l : Fin 4} {f : LaneFrame} (h : s.MemOk) : (s.receiveFrame l f).MemOk :=
  .ite h (.frameByState (.setLane h))

/-- The loss of a lane keeps it. -/
theorem State.MemOk.laneLost {l : Fin 4} (h : s.MemOk) : (s.laneLost l).MemOk := by
  unfold State.laneLost
  split
  · exact .laneReport (.setLane h)
  · exact .laneReport (.setLane h)
  · exact .laneReport (.setLane (.leaveMeasuring h))
  · exact .dropGroup h
  all_goals exact h

/-- A lane's part of the block keeps it. -/
theorem State.MemOk.laneBlock {l : Fin 4} (h : s.MemOk) : (s.laneBlock l).MemOk :=
  .ite (.setLane h) (.ite h (.ite (.laneLost (.setLane h)) (.setLane h)))

/-- Enabling or disabling a lane keeps it. -/
theorem State.MemOk.enableLane {l : Fin 4} {on : Bool} (h : s.MemOk) : (s.enableLane l on).MemOk :=
  .ite h (.ite (.setLane h) (.ite (.dropGroup h) (.laneReport (.setLane (.ite (.leaveMeasuring h) h)))))

/-- Placing a lane again keeps it. -/
theorem State.MemOk.replaceLane {l : Fin 4} (h : s.MemOk) : (s.replaceLane l).MemOk := by
  unfold State.replaceLane
  dsimp only
  split
  · exact .setLane h
  · exact .setLane h
  · exact .setLane h
  all_goals exact h

/-- A change of an entry's lanes keeps it. -/
theorem State.MemOk.lanesChanged {e : Fin 12} {old : List (Fin 4)} (h : s.MemOk) : (s.lanesChanged e old).MemOk :=
  have hplaced {g : Option GroupRec} {xs : List (Fin 4)} :=
    State.MemOk.forEach (f := fun l t => State.replaceLane t l) (fun _ _ => .replaceLane) (xs := xs)
      (.setGroup (g := g) (.mapLanes h))
  .groupCompare (.laneReports (.ite (.laneReports hplaced) hplaced))

/-- Other group records leave it. -/
theorem State.MemOk.withGroups {v : Vector (Option GroupRec) 12} (h : s.MemOk) :
    ({ s with groups := v } : State).MemOk := h

/-- RESTART for the lane receiver keeps it. -/
theorem State.MemOk.restartLanes (h : s.MemOk) : s.restartLanes.MemOk := .withGroups (.mapLanes h)

/-! ## The tuner -/

/-- A RADIO_STATE report keeps it. -/
theorem State.MemOk.radioReport {cause : RadioCause} (h : s.MemOk) : (s.radioReport cause).MemOk := .raise h

/-- The end of a radio operation keeps it. -/
theorem State.MemOk.endOp {res : CmdResult} {flags : Byte} {level : Nat} (h : s.MemOk) :
    (s.endOp res flags level).MemOk := by
  unfold State.endOp
  split
  · exact h
  · exact State.MemOk.raiseDone (s := { s with tuner := _ }) h

/-- Aborting the radio operation keeps it. -/
theorem State.MemOk.abortOp {fault : Bool} (h : s.MemOk) : (s.abortOp fault).MemOk := .endOp h

/-- Another tuner record leaves it. -/
theorem State.MemOk.withTuner {t : Tuner} (h : s.MemOk) : ({ s with tuner := t } : State).MemOk := h

/-- Entry to FE_FAULT keeps it. -/
theorem State.MemOk.feFault (h : s.MemOk) : s.feFault.MemOk := .radioReport (.withTuner (.abortOp h))

/-- A tuner that goes to IDLE keeps it. -/
theorem State.MemOk.tunerIdle (h : s.MemOk) : s.tunerIdle.MemOk := .radioReport (.withTuner (.abortOp h))

/-- RESTART for the tuner keeps it. -/
theorem State.MemOk.restartTuner (h : s.MemOk) : s.restartTuner.MemOk := .withTuner (.abortOp h)

/-- A tune keeps it. -/
theorem State.MemOk.tuneTo {b : Band} {f : Nat} (h : s.MemOk) : (s.tuneTo b f).MemOk := h

/-- A candidate test keeps it. -/
theorem State.MemOk.testAt {b : Band} {f : Nat} (h : s.MemOk) : (s.testAt b f).MemOk := h

/-- The end of a tune keeps it. -/
theorem State.MemOk.endTune {u : Bool} (h : s.MemOk) : (s.endTune u).MemOk := .radioReport (.endOp (.withTuner h))

/-- Tuning back keeps it. -/
theorem State.MemOk.tuneBack {op : OpRecord} (h : s.MemOk) : (s.tuneBack op).MemOk := h

/-- Going to the next point keeps it. -/
theorem State.MemOk.nextPoint (h : s.MemOk) : s.nextPoint.MemOk := by
  unfold State.nextPoint
  dsimp only
  split
  · exact h
  · exact .ite (.ite (.tuneBack h) (.testAt h)) (.ite (.tuneBack h) (.testAt h))

/-- Counting a tested channel keeps it. -/
theorem State.MemOk.countTested (h : s.MemOk) : s.countTested.MemOk := by
  unfold State.countTested
  split
  · exact h
  · exact .ite h (.ite (.radioReport (.withTuner h)) (.withTuner h))

/-- Taking a candidate keeps it. -/
theorem State.MemOk.takeCandidate {d : Dwell} (h : s.MemOk) : (s.takeCandidate d).MemOk := by
  unfold State.takeCandidate
  split
  · exact h
  · exact h

/-- A seek that has found a station keeps it. -/
theorem State.MemOk.seekFound {d : Dwell} (h : s.MemOk) : (s.seekFound d).MemOk :=
  .radioReport (.endOp (.withTuner h))

/-- The end of a dwell keeps it. -/
theorem State.MemOk.endDwell {d : Dwell} (h : s.MemOk) : (s.endDwell d).MemOk := by
  unfold State.endDwell
  dsimp only
  split
  · exact h
  · exact .ite (.countTested (.withTuner (.ite (.takeCandidate h) h))) (.ite (.seekFound h) (.withTuner h))

/-- A settled front end keeps it. -/
theorem State.MemOk.settled (h : s.MemOk) : s.settled.MemOk := .ite (.endTune h) (.withTuner h)

/-- A front end that does not settle keeps it. -/
theorem State.MemOk.unsettled (h : s.MemOk) : s.unsettled.MemOk := .ite (.endTune h) (.nextPoint (.countTested h))

/-- A status record keeps it. -/
theorem State.MemOk.statusRecord {settled : Bool} {level : Nat} {offset : Int} (h : s.MemOk) :
    (s.statusRecord settled level offset).MemOk := .ite h (.ite (.settled (.withTuner h)) (.withTuner h))

/-- A pilot capture keeps it. -/
theorem State.MemOk.pilotCapture {ticks : Nat} (h : s.MemOk) : (s.pilotCapture ticks).MemOk :=
  .ite h (.ite (.withTuner h) (.radioReport (.withTuner h)))

/-- The acknowledgement timer keeps it. -/
theorem State.MemOk.ackBlock (h : s.MemOk) : s.ackBlock.MemOk := by
  unfold State.ackBlock
  split
  · exact h
  · exact .ite (.withTuner h) (.ite (.feFault h) (.withTuner h))

/-- The silence count keeps it. -/
theorem State.MemOk.silenceBlock (h : s.MemOk) : s.silenceBlock.MemOk :=
  .ite (.withTuner h) (.ite (.withTuner h) (.ite (.feFault (.withTuner h)) (.withTuner h)))

/-- The amplitude history keeps it. -/
theorem State.MemOk.ampBlock (h : s.MemOk) : s.ampBlock.MemOk := h

/-- The blend keeps it. -/
theorem State.MemOk.blendBlock (h : s.MemOk) : s.blendBlock.MemOk :=
  .ite (.withTuner h) (.ite (.withTuner h) (.withTuner h))

/-- Delivering the tuner's frames keeps it. -/
theorem State.MemOk.deliverFrames (h : s.MemOk) : s.deliverFrames.MemOk := by
  unfold State.deliverFrames
  refine .ite h ?_
  split
  · exact h
  · exact .forEach (fun _ _ => .pushFrame) h

/-- The phase of a tune keeps it. -/
theorem State.MemOk.phaseBlock (h : s.MemOk) : s.phaseBlock.MemOk := by
  unfold State.phaseBlock
  dsimp only
  split
  · exact h
  · exact h
  · exact .ite (.unsettled (.withTuner h)) (.withTuner h)
  · exact .ite (.endDwell (.withTuner h)) (.withTuner h)
  · exact .nextPoint h

/-- The tuner's part of the block keeps it. -/
theorem State.MemOk.tunerBlock (h : s.MemOk) : s.tunerBlock.MemOk :=
  State.MemOk.withTuner (.phaseBlock (.silenceBlock (.ackBlock (.deliverFrames (.blendBlock (.ite (.ampBlock h) h))))))

/-! ## Zones -/

/-- A ZONE_STATE report keeps it. -/
theorem State.MemOk.zoneReport {z : Zone} (h : s.MemOk) : (s.zoneReport z).MemOk := .raise h

/-- The completion of a switch keeps it. -/
theorem State.MemOk.switchDone {z : Zone} {res : CmdResult} (h : s.MemOk) : (s.switchDone z res).MemOk := .raiseDone h

/-- Another owner leaves it. -/
theorem State.MemOk.withOwner {o : Option Zone} (h : s.MemOk) : ({ s with owner := o } : State).MemOk := h

/-- A new owner keeps it. -/
theorem State.MemOk.setOwner {z : Zone} (h : s.MemOk) : (s.setOwner z).MemOk := .radioReport (.withOwner h)

/-- Telling the source that a path is bound keeps it. -/
theorem State.MemOk.tellBound {p : PathId} {e : Fin 12} (h : s.MemOk) : (s.tellBound p e).MemOk := by
  unfold State.tellBound
  split
  · exact h
  · split
    · exact .handFormat h
    · exact h
  · split
    · exact h
    · exact .feedIfNamed h
  · exact .tuneTo (.handFormat h)

/-- Another choice of the path bound first leaves it. -/
theorem State.MemOk.withBindFirst {b : PathId} (h : s.MemOk) : ({ s with bindFirst := b } : State).MemOk := h

/-- Binding a path keeps it. -/
theorem State.MemOk.bindPath {p : PathId} {e : Fin 12} (h : s.MemOk) : (s.bindPath p e).MemOk :=
  .tellBound (.setPath (.withBindFirst h))

/-- Joining a path keeps it. -/
theorem State.MemOk.joinPath {z : Zone} {p : PathId} (h : s.MemOk) : (s.joinPath z p).MemOk :=
  .ite (.zeroEnergies (.setZone h)) (.setZone h)

/-- Attaching a zone keeps it. -/
theorem State.MemOk.attach {z : Zone} {e : Fin 12} (h : s.MemOk) : (s.attach z e).MemOk := by
  unfold State.attach
  dsimp only
  split
  · exact .ite (.setOwner (.joinPath h)) (.joinPath h)
  · exact .ite (.setOwner (.bindPath (.joinPath h))) (.bindPath (.joinPath h))

/-- Releasing a path keeps it. -/
theorem State.MemOk.releasePath {p : PathId} (h : s.MemOk) : (s.releasePath p).MemOk := by
  have hfree : ({ s with bindFirst := p.other }.setPath p PathRec.free).MemOk := .setPath (.withBindFirst h)
  unfold State.releasePath
  dsimp only
  split
  · exact hfree
  · exact hfree
  · split
    · exact hfree
    · exact .flushWindow hfree
  · exact .tunerIdle (.withOwner hfree)

/-- Detaching a zone keeps it. -/
theorem State.MemOk.detach {z : Zone} (h : s.MemOk) : (s.detach z).MemOk := by
  unfold State.detach
  split
  · exact h
  · exact .ite (.ite (.setOwner (.setZone h)) (.setZone h)) (.releasePath (.setZone h))

/-- The completion of a switch with its reports keeps it. -/
theorem State.MemOk.completeSwitch {z : Zone} (h : s.MemOk) : (s.completeSwitch z).MemOk :=
  .raiseDone (.zoneReport (.setZone (.setZone h)))

/-- A fade-in that starts keeps it. -/
theorem State.MemOk.startFadeIn {z : Zone} (h : s.MemOk) : (s.startFadeIn z).MemOk :=
  .ite (.completeSwitch (.setZone h)) (.setZone h)

/-- A wait that starts keeps it. -/
theorem State.MemOk.startWait {z : Zone} (h : s.MemOk) : (s.startWait z).MemOk :=
  .ite (.startFadeIn (.setZone h)) (.setZone h)

/-- The end of a fade-out keeps it. -/
theorem State.MemOk.endFadeOut {z : Zone} (h : s.MemOk) : (s.endFadeOut z).MemOk := by
  unfold State.endFadeOut
  split
  · exact h
  · exact .startWait (.ite h (.attach (.detach h)))

/-- A switch that starts keeps it. -/
theorem State.MemOk.startSwitch {z : Zone} {e : Fin 12} {tag : Option Nat} (h : s.MemOk) :
    (s.startSwitch z e tag).MemOk := .ite (.endFadeOut (.setZone h)) (.setZone h)

/-- Aborting a switch keeps it. -/
theorem State.MemOk.abortSwitch {z : Zone} (h : s.MemOk) : (s.abortSwitch z).MemOk :=
  .setZone (.ite h (.switchDone h))

/-- Entry to STANDBY keeps it. -/
theorem State.MemOk.enterStandby {z : Zone} (h : s.MemOk) : (s.enterStandby z).MemOk :=
  .zoneReport (.setZone (.detach h))

/-- Going to standby keeps it. -/
theorem State.MemOk.goStandby {z : Zone} (h : s.MemOk) : (s.goStandby z).MemOk :=
  .zoneReport (.setZone (.abortSwitch h))

/-- Standby at silence keeps it. -/
theorem State.MemOk.standbyIfSilent {z : Zone} (h : s.MemOk) : (s.standbyIfSilent z).MemOk := .ite (.enterStandby h) h

/-- Powering a zone keeps it. -/
theorem State.MemOk.powerZone {z : Zone} (h : s.MemOk) : (s.powerZone z).MemOk := by
  unfold State.powerZone
  dsimp only
  refine .ite h ?_
  split
  · exact .zoneReport (.setZone h)
  · exact .ite (.zoneReport (.setZone h)) (.startSwitch (.zoneReport (.setZone h)))

/-- A switch's part of the block keeps it. -/
theorem State.MemOk.switchBlock {z : Zone} (h : s.MemOk) : (s.switchBlock z).MemOk := by
  unfold State.switchBlock
  dsimp only
  split
  · exact h
  · exact .ite (.endFadeOut h) h
  · exact .ite (.startFadeIn h) (.ite (.raise (.setZone h)) (.setZone h))
  · exact .ite (.completeSwitch h) h

/-- The sleep timer keeps it. -/
theorem State.MemOk.sleepBlock {z : Zone} (h : s.MemOk) : (s.sleepBlock z).MemOk :=
  .ite h (.ite (.setZone h) (.ite (.setZone h) (.standbyIfSilent (.raise (.goStandby h)))))

/-- A zone's part of the block keeps it. -/
theorem State.MemOk.zoneBlock {z : Zone} (h : s.MemOk) : (s.zoneBlock z).MemOk :=
  .sleepBlock (.standbyIfSilent (.switchBlock (.setZone h)))

/-- RESTART for a zone keeps it. -/
theorem State.MemOk.restartZone {z : Zone} (h : s.MemOk) : (s.restartZone z).MemOk :=
  .setZone (.ite h (.switchDone h))

/-- RESTART for a path keeps it. -/
theorem State.MemOk.restartPath {p : PathId} (h : s.MemOk) : (s.restartPath p).MemOk := by
  unfold State.restartPath
  dsimp only
  split
  · exact .setPath (.withBindFirst h)
  · exact .flushWindow (.setPath (.withBindFirst h))

/-! ## Outputs and protection -/

/-- A channel that applies keeps it. -/
theorem State.MemOk.applyChannel {c : Fin 12} (h : s.MemOk) : (s.applyChannel c).MemOk := .setChan h

/-- A group that applies keeps it. -/
theorem State.MemOk.applyGroup {g : Fin 12} (h : s.MemOk) : (s.applyGroup g).MemOk :=
  .forEach (fun _ _ => .applyChannel) h

/-- RECONFIG keeps it. -/
theorem State.MemOk.markReconfig {c : Fin 12} (h : s.MemOk) : (s.markReconfig c).MemOk := .ite h (.setChan h)

/-- Pending settings keep it. -/
theorem State.MemOk.givePending {c : Fin 12} {t : ChanSettings} (h : s.MemOk) : (s.givePending c t).MemOk := .setChan h

/-- A group that forms keeps it. -/
theorem State.MemOk.formGroup {cs : List (Fin 12)} (h : s.MemOk) : (s.formGroup cs).MemOk := by
  unfold State.formGroup
  split
  · exact h
  · next g rest _ =>
    have hset := State.MemOk.forEach (f := fun c t => State.setChan t c
      { t.chan c with pend := some (t.chan c).target, group := some g }) (fun _ _ => .setChan) (xs := g :: rest) h
    exact .ite (.applyGroup hset) (.forEach (fun _ _ => .markReconfig) hset)

/-- A waiting group at a block keeps it. -/
theorem State.MemOk.groupBlock {g : Fin 12} (h : s.MemOk) : (s.groupBlock g).MemOk :=
  .ite h (.ite (.applyGroup h) (.forEach (fun _ _ => .markReconfig) h))

/-- Changing the channels of a pair keeps it. -/
theorem State.MemOk.mapPair {n : Fin 6} {f : Channel → Channel} (h : s.MemOk) : (s.mapPair n f).MemOk :=
  .forEach (fun _ _ => .setChan) h

/-- A PROTECT_STATE report keeps it. -/
theorem State.MemOk.protectReport {n : Fin 6} (h : s.MemOk) : (s.protectReport n).MemOk := .raise h

/-- Another thermal record leaves it. -/
theorem State.MemOk.withThermal {r : Thermal} {p : Pins} (h : s.MemOk) :
    ({ s with thermal := r, pins := p } : State).MemOk := h

/-- The thermal part of the block keeps it. -/
theorem State.MemOk.thermalBlock {line : Bool} (h : s.MemOk) : (s.thermalBlock line).MemOk :=
  .ite (.withThermal h) (.raise (.withThermal h))

/-- Entry to PROTECT keeps it. -/
theorem State.MemOk.enterProtect {n : Fin 6} {line : Bool} (h : s.MemOk) : (s.enterProtect n line).MemOk :=
  .protectReport (.mapPair (.setPair h))

/-- Entry to SOFT_START keeps it. -/
theorem State.MemOk.enterSoftStart {n : Fin 6} {r : Pair} (h : s.MemOk) : (s.enterSoftStart n r).MemOk :=
  .mapPair (.setPair h)

/-- The end of a recovery wait keeps it. -/
theorem State.MemOk.recoverExpiry {n : Fin 6} (h : s.MemOk) : (s.recoverExpiry n).MemOk :=
  .ite (.enterSoftStart h) (.protectReport (.setPair h))

/-- A pair's count keeps it. -/
theorem State.MemOk.pairBlock {n : Fin 6} {line : Bool} (h : s.MemOk) : (s.pairBlock n line).MemOk := by
  unfold State.pairBlock
  dsimp only
  split
  · exact .ite (.enterProtect (.setPair h)) (.setPair h)
  · exact .ite (.enterProtect (.setPair h)) (.setPair h)
  · exact .ite (.setPair h) (.setPair h)
  · exact .ite (.setPair h) (.ite (.recoverExpiry (.setPair h)) (.setPair h))
  · exact .setPair h

/-- Other pins leave it. -/
theorem State.MemOk.withPins {p : Pins} (h : s.MemOk) : ({ s with pins := p } : State).MemOk := h

/-- A pair's part of the block keeps it. -/
theorem State.MemOk.pairPart {n : Fin 6} {line : Bool} (h : s.MemOk) : (s.pairPart n line).MemOk :=
  .pairBlock (.withPins h)

/-- The end of a soft start keeps it. -/
theorem State.MemOk.endSoftStart {n : Fin 6} (h : s.MemOk) : (s.endSoftStart n).MemOk :=
  .ite (.protectReport (.setPair (.mapPair h))) (.mapPair h)

/-- A soft start's part of the block keeps it. -/
theorem State.MemOk.softStartBlock {n : Fin 6} (h : s.MemOk) : (s.softStartBlock n).MemOk := .ite (.endSoftStart h) h

/-- Other pair records leave it. -/
theorem State.MemOk.withPairs {v : Vector Pair 6} (h : s.MemOk) : ({ s with pairs := v } : State).MemOk := h

/-- RESTART for a channel keeps it. -/
theorem State.MemOk.restartChannel {c : Fin 12} (h : s.MemOk) : (s.restartChannel c).MemOk := .setChan h

/-- RESTART for outputs and protection keeps it. -/
theorem State.MemOk.restartOutputs (h : s.MemOk) : s.restartOutputs.MemOk := by
  unfold State.restartOutputs
  exact .forEach (fun _ _ => .restartChannel) (.withPairs (.forEach (fun _ _ => .applyGroup) h))

/-! ## The mixer, the meters and the mirror -/

/-- The energies after an adoption keep it. -/
theorem State.MemOk.mixAfterAdoption (h : s.MemOk) : s.mixAfterAdoption.MemOk := by
  unfold State.mixAfterAdoption
  split
  · exact h
  · exact .ite h h

/-- Handing over the meters keeps it. -/
theorem State.MemOk.handMeters (h : s.MemOk) : s.handMeters.MemOk := h

/-- Taking the meters back keeps it. -/
theorem State.MemOk.mergeSent (h : s.MemOk) : s.mergeSent.MemOk := by
  unfold State.mergeSent
  split
  · exact h
  · exact h

/-- Another mirror record leaves it. -/
theorem State.MemOk.withMirror {m : Mirror} (h : s.MemOk) : ({ s with mirror := m } : State).MemOk := h

/-- Dropping a section keeps it. -/
theorem State.MemOk.dropSection (h : s.MemOk) : s.dropSection.MemOk := by
  unfold State.dropSection
  split
  · exact h
  · exact .ite (.mergeSent (.withMirror h)) (.withMirror h)

/-- The end of a section keeps it. -/
theorem State.MemOk.sectionDone {sect : SnapSection} (h : s.MemOk) : (s.sectionDone sect).MemOk := .ite h h

/-- One step of the mirror keeps it: it waits for room (R10). -/
theorem State.MemOk.mirrorMove (h : s.MemOk) : s.mirrorMove.MemOk := by
  unfold State.mirrorMove
  split
  · exact h
  · exact .dropSection h
  · split
    · exact .sectionDone h
    · split_ifs with hr hrest
      · exact h
      · exact .sectionDone (.enqueue (Bool.eq_true_of_not_eq_false hr) (.withMirror h))
      · exact .enqueue (Bool.eq_true_of_not_eq_false hr) (.withMirror h)

/-- Several steps of the mirror keep it. -/
theorem State.MemOk.mirrorPump {n : Nat} (h : s.MemOk) : (State.mirrorPump n s).MemOk := by
  induction n generalizing s with
  | zero => exact h
  | succ n ih => exact ih h.mirrorMove

/-- A section that begins keeps it. -/
theorem State.MemOk.beginSection {sect : SnapSection} {periodic : Bool} (h : s.MemOk) :
    (s.beginSection sect periodic).MemOk := .mirrorPump (.withMirror (.ite (.handMeters h) h))

/-- A meter period keeps it. -/
theorem State.MemOk.meterPeriod (h : s.MemOk) : s.meterPeriod.MemOk := .ite (.beginSection h) h

/-- Another output unit leaves it. -/
theorem State.MemOk.withOut {o : OutputUnit} (h : s.MemOk) : ({ s with out := o } : State).MemOk := h

/-- The meters' part of the block keeps it. -/
theorem State.MemOk.meterBlock (h : s.MemOk) : s.meterBlock.MemOk := .ite (.meterPeriod (.withOut h)) (.withOut h)

/-- Playing a channel keeps it. -/
theorem State.MemOk.playChannel {c : Fin 12} {xs : List Sample} {st : CrossoverState} (h : s.MemOk) :
    (s.playChannel c xs st).MemOk := h

/-- The mixer's block keeps it. -/
theorem State.MemOk.mixBlock (h : s.MemOk) : s.mixBlock.MemOk := h

/-- The sound of a block keeps it. -/
theorem State.MemOk.soundBlock (h : s.MemOk) : s.soundBlock.MemOk := by
  unfold State.soundBlock
  dsimp only
  exact .forEach (fun _ _ => .playChannel) h

/-- The sound's part of the block keeps it. -/
theorem State.MemOk.soundPart (h : s.MemOk) : s.soundPart.MemOk := by
  unfold State.soundPart
  exact .soundBlock (.mixBlock (.forEach (fun _ _ => .setChan) h))

end

end Sys2Proof.Machine
end

