-- ==== Sys2Proof/Proofs/MemoryStep.lean ====
section
/-! SUPPORT. Every command, every row of the link and every row of a block keeps the memory path's invariant, and so does
every step. -/

namespace Sys2Proof.Machine

open Sys2Proof

/-- A command leaves a state that meets the memory path's invariant. -/
def CmdOut.MemOk (o : CmdOut) : Prop := o.st.MemOk

section
variable {s : State}

/-! ## Results of commands -/

/-- A refusal leaves the state. -/
theorem CmdOut.MemOk.refuse {r : CmdResult} (h : s.MemOk) : (refuse s r).MemOk := h

/-- A command that is done leaves its state. -/
theorem CmdOut.MemOk.done {v : Int} (h : s.MemOk) : (done s v).MemOk := h

/-- An accepted command leaves its state. -/
theorem CmdOut.MemOk.accepted (h : s.MemOk) : (accepted s).MemOk := h

/-- A command with clamped arguments leaves its state. -/
theorem CmdOut.MemOk.clampedOr {xs : List (Int × Int)} (h : s.MemOk) : (clampedOr s xs).MemOk := by
  induction xs with
  | nil => exact h
  | cons x xs ih =>
    unfold Machine.clampedOr
    split
    · exact ih
    · exact h

/-- Either branch of a command. -/
theorem CmdOut.MemOk.ite {c : Prop} [Decidable c] {a b : CmdOut} (ha : a.MemOk) (hb : b.MemOk) :
    (if c then a else b).MemOk := by
  split
  · exact ha
  · exact hb

/-- A command of a zone is refused or runs for it. -/
theorem CmdOut.MemOk.withZone {zone : Byte} {f : Zone → CmdOut} (h : s.MemOk) (hf : ∀ z, (f z).MemOk) :
    (withZone zone s f).MemOk := by
  unfold Machine.withZone
  split
  · exact .refuse h
  · exact hf _

/-- A command of the owner is refused or runs. -/
theorem CmdOut.MemOk.withOwner {zone : Byte} {o : CmdOut} (h : s.MemOk) (ho : o.MemOk) : (withOwner zone s o).MemOk :=
  .withZone h fun _ => .ite ho (.refuse h)

/-! ## Commands of the memory path -/

/-- Another mixer record leaves it. -/
theorem State.MemOk.withMixer {m : Mixer} (h : s.MemOk) : ({ s with mixer := m } : State).MemOk := h

/-- RESTART behind the tuner keeps it. -/
theorem State.MemOk.restartRest (h : s.MemOk) : s.restartRest.MemOk :=
  .withMixer (.zeroEnergies (.restartOutputs (.restartLanes h)))

/-- RESTART keeps it. -/
theorem State.MemOk.cmdRestart (h : s.MemOk) : (cmdRestart s).MemOk := by
  rw [cmdRestart_stages]
  exact .done (.restartRest (.restartTuner (.restartPath (.restartPath (.withOwner (.restartZone (.restartZone h)))))))

/-- Discarding a window keeps it. -/
theorem State.MemOk.discardWindow {i : Fin 16} (h : s.MemOk) : (s.discardWindow i).MemOk := by
  unfold State.discardWindow
  split
  · exact .discardRing h
  · exact .discardTap h
  · exact .dropSection h
  all_goals exact h

/-- A new window other than the anchor keeps it. -/
theorem State.MemOk.startWindow {i : Fin 16} {w : Window} (hi : i.val ≠ 0) (h : s.MemOk) : (s.startWindow i w).MemOk := by
  unfold State.startWindow
  split
  · exact .feedIfNamed (.setRing (.setWindow hi h))
  all_goals exact State.MemOk.setWindow hi h

/-- DEFINE_WINDOW keeps it. -/
theorem State.MemOk.cmdDefineWindow {index kind count : Byte} {size : BitVec 16} {base : BitVec 32} (h : s.MemOk) :
    (cmdDefineWindow index kind count size base s).MemOk := by
  unfold Machine.cmdDefineWindow
  split
  · exact .refuse h
  · exact .refuse h
  · next i w _ _ =>
    by_cases hi : i.val = 0
    · rw [if_pos hi]
      exact .refuse h
    · rw [if_neg hi]
      exact .ite (.refuse h) (.ite (.refuse h) (.ite (.refuse h) (.ite (.refuse h) (.ite (.refuse h)
        (.done (.startWindow hi (.discardWindow h)))))))

/-- RELEASE_WINDOW keeps it. -/
theorem State.MemOk.cmdReleaseWindow {index : Byte} (h : s.MemOk) : (cmdReleaseWindow index s).MemOk := by
  unfold Machine.cmdReleaseWindow
  split
  · exact .refuse h
  · split_ifs with hi
    · exact .refuse h
    · exact .refuse h
    · exact .done (.setWindow hi (.discardWindow h))

/-- SNAPSHOT keeps it. -/
theorem State.MemOk.cmdSnapshot {sect : Byte} (h : s.MemOk) : (cmdSnapshot sect s).MemOk := by
  unfold Machine.cmdSnapshot
  split
  · exact .done (.beginSection h)
  · exact .refuse h
  · exact .refuse h

/-- SET_METERS keeps it. -/
theorem State.MemOk.cmdSetMeters {on : Byte} (h : s.MemOk) : (cmdSetMeters on s).MemOk := .done (.withMirror h)

/-- BIND_TAP keeps it. -/
theorem State.MemOk.cmdBindTap {index point : Byte} (h : s.MemOk) : (cmdBindTap index point s).MemOk := by
  unfold Machine.cmdBindTap
  split
  · split
    · exact .ite (.refuse h) h
    all_goals exact .refuse h
  · exact .refuse h

/-- UNBIND_TAP keeps it. -/
theorem State.MemOk.cmdUnbindTap (h : s.MemOk) : (cmdUnbindTap s).MemOk := .done (.ite (.unbind h) h)

/-! ## Commands of the lanes, the sources and the zones -/

/-- SET_LANE keeps it. -/
theorem State.MemOk.cmdSetLane {lane enable threshold replacement : Byte} (h : s.MemOk) :
    (cmdSetLane lane enable threshold replacement s).MemOk := by
  unfold Machine.cmdSetLane
  split
  · exact .refuse h
  · exact .clampedOr (.enableLane (.setLane h))

/-- Putting a source entry keeps it. -/
theorem State.MemOk.putSource {e : Fin 12} {r : SourceEntry} (h : s.MemOk) : (s.putSource e r).MemOk :=
  .ite (.setSource h) (.lanesChanged (.setSource h))

/-- DEFINE_SOURCE keeps it. -/
theorem State.MemOk.cmdDefineSource {entry : Byte} {a : SourceArgs} (h : s.MemOk) : (cmdDefineSource entry a s).MemOk := by
  unfold Machine.cmdDefineSource
  split
  · exact .refuse h
  · exact .refuse h
  · refine .ite (.refuse h) (.ite (.refuse h) ?_)
    split
    · exact .refuse h
    · exact .refuse h
    · exact .ite (.refuse h) (.ite (.refuse h) (.clampedOr (.putSource h)))

/-- Forgetting a selection keeps it. -/
theorem State.MemOk.forgetSelection {z : Zone} {e : Fin 12} (h : s.MemOk) : (s.forgetSelection z e).MemOk :=
  .ite (.setZone h) h

/-- CLEAR_SOURCE keeps it. -/
theorem State.MemOk.cmdClearSource {entry : Byte} (h : s.MemOk) : (cmdClearSource entry s).MemOk := by
  unfold Machine.cmdClearSource
  split
  · exact .refuse h
  · exact .ite (.refuse h) (.done (.forgetSelection (.forgetSelection (.putSource h))))

/-- Selecting a source in a zone that is on keeps it. -/
theorem State.MemOk.selectOn {z : Zone} {e : Fin 12} (h : s.MemOk) : (s.selectOn z e).MemOk :=
  .ite (.ite (.done h) (.accepted (.startSwitch h)))
    (.ite (.accepted (.setZone (.switchDone h)))
      (.ite (.accepted (.setZone (.switchDone h))) (.accepted (.startSwitch (.switchDone h)))))

/-- SELECT_SOURCE keeps it. -/
theorem State.MemOk.cmdSelectSource {zone source : Byte} (h : s.MemOk) : (cmdSelectSource zone source s).MemOk := by
  refine .withZone h fun z => ?_
  split
  · exact .refuse h
  · exact .ite (.refuse h) (.ite (.selectOn h) (.done (.setZone h)))

/-- ZONE_POWER to ON keeps it. -/
theorem State.MemOk.cmdZonePowerOn {zone : Byte} (h : s.MemOk) : (cmdZonePowerOn zone s).MemOk :=
  .withZone h fun _ => .done (.powerZone h)

/-- ZONE_POWER to STANDBY keeps it. -/
theorem State.MemOk.cmdZonePowerStandby {zone : Byte} (h : s.MemOk) : (cmdZonePowerStandby zone s).MemOk :=
  .withZone h fun _ => .done (.ite (.standbyIfSilent (.goStandby h)) h)

/-- ZONE_POWER keeps it. -/
theorem State.MemOk.cmdZonePower {zone request : Byte} (h : s.MemOk) : (cmdZonePower zone request s).MemOk :=
  .ite (.cmdZonePowerOn h) (.ite (.cmdZonePowerStandby h) (.refuse h))

/-- MUTE keeps it. -/
theorem State.MemOk.cmdMute {zone on : Byte} (h : s.MemOk) : (cmdMute zone on s).MemOk :=
  .withZone h fun _ => .ite (.done h) (.done (.zoneReport (.setZone h)))

/-- SET_VOLUME keeps it. -/
theorem State.MemOk.cmdSetVolume {zone : Byte} {level : BitVec 16} (h : s.MemOk) : (cmdSetVolume zone level s).MemOk :=
  .withZone h fun _ => .clampedOr (.setZone h)

/-- Spreading an AV delay keeps it. -/
theorem State.MemOk.spreadAv {z : Zone} (h : s.MemOk) : (s.spreadAv z).MemOk := .ite h (.formGroup h)

/-- SET_ZONE keeps it. -/
theorem State.MemOk.cmdSetZone {zone rate : Byte} {av : BitVec 16} {ceiling : Byte} (h : s.MemOk) :
    (cmdSetZone zone rate av ceiling s).MemOk :=
  .withZone h fun _ => .ite (.refuse h) (.clampedOr (.ite (.setZone h) (.spreadAv (.setZone h))))

/-- SET_SLEEP keeps it. -/
theorem State.MemOk.cmdSetSleep {zone minutes : Byte} (h : s.MemOk) : (cmdSetSleep zone minutes s).MemOk :=
  .withZone h fun _ => .ite (.refuse h) (.clampedOr (.setZone h))

/-- RETRACK keeps it. -/
theorem State.MemOk.cmdRetrack {zone : Byte} (h : s.MemOk) : (cmdRetrack zone s).MemOk := by
  refine .withZone h fun z => ?_
  split
  · exact .done h
  · exact .ite (.done (.retrigger h)) (.done h)

/-- SET_DECODE keeps it. -/
theorem State.MemOk.cmdSetDecode {zone mode : Byte} (h : s.MemOk) : (cmdSetDecode zone mode s).MemOk := by
  refine .withZone h fun z => ?_
  split
  · exact .refuse h
  · exact .refuse h
  · exact .ite h h

/-! ## Commands of the tuner -/

/-- A new radio operation keeps it. -/
theorem State.MemOk.beginOp {kind : Operation} {dir : Direction} {clamped : Bool} (h : s.MemOk) :
    (s.beginOp kind dir clamped).MemOk := .withTuner (.abortOp h)

/-- TUNE keeps it. -/
theorem State.MemOk.cmdTune {zone band : Byte} {freq : BitVec 32} (h : s.MemOk) : (cmdTune zone band freq s).MemOk := by
  refine .withOwner h ?_
  split
  · exact .refuse h
  · exact .accepted (.tuneTo (.beginOp h))

/-- STEP keeps it. -/
theorem State.MemOk.cmdStep {zone dir : Byte} (h : s.MemOk) : (cmdStep zone dir s).MemOk := by
  refine .withOwner h ?_
  split
  · exact .refuse h
  · exact .accepted (.tuneTo (.beginOp h))

/-- SEEK keeps it. -/
theorem State.MemOk.cmdSeek {zone dir : Byte} (h : s.MemOk) : (cmdSeek zone dir s).MemOk := by
  refine .withOwner h ?_
  split
  · exact .refuse h
  · exact .ite (.refuse h) (.accepted (.withTuner (.beginOp h)))

/-- Another station list leaves it. -/
theorem State.MemOk.withStations {xs : List Station} {t : Tuner} (h : s.MemOk) :
    ({ s with stations := xs, tuner := t } : State).MemOk := h

/-- SCAN keeps it. -/
theorem State.MemOk.cmdScan {zone band : Byte} (h : s.MemOk) : (cmdScan zone band s).MemOk := by
  refine .withOwner h ?_
  split
  · exact .refuse h
  · exact .ite (.refuse h) (.accepted (.withStations (.beginOp h)))

/-- ABORT_RADIO keeps it. -/
theorem State.MemOk.cmdAbortRadio (h : s.MemOk) : (cmdAbortRadio s).MemOk := by
  unfold Machine.cmdAbortRadio
  dsimp only
  split
  · exact .done h
  · exact .done h
  · exact .done h
  · exact .done (.abortOp h)
  · exact .ite (.done (.radioReport (.withTuner (.abortOp h)))) (.done (.withTuner (.abortOp h)))
  · split
    · exact .done h
    · exact .done (.tuneBack (.abortOp h))

/-- Another region leaves it. -/
theorem State.MemOk.withRegion {r : Region} {xs : List Station} (h : s.MemOk) :
    ({ s with region := r, stations := xs } : State).MemOk := h

/-- Taking a region keeps it. -/
theorem State.MemOk.takeRegion {r : Region} (h : s.MemOk) : (s.takeRegion r).MemOk :=
  .ite (.withRegion h) (.ite (.radioReport (.tuneTo (.withRegion h))) (.radioReport (.withTuner (.withRegion h))))

/-- SET_REGION keeps it. -/
theorem State.MemOk.cmdSetRegion {a : RegionArgs} (h : s.MemOk) : (cmdSetRegion a s).MemOk :=
  .ite (.refuse h) (.ite (.refuse h) (.ite (.refuse h) (.ite (.refuse h) (.clampedOr (.takeRegion h)))))

/-- CLEAR_STATIONS keeps it. -/
theorem State.MemOk.cmdClearStations {selector : Byte} (h : s.MemOk) : (cmdClearStations selector s).MemOk := by
  unfold Machine.cmdClearStations
  split
  · exact .refuse h
  · exact h

/-- Putting a preset keeps it. -/
theorem State.MemOk.setPreset {i : Fin 40} {p : Option Preset} (h : s.MemOk) : (s.setPreset i p).MemOk := h

/-- STORE_PRESET keeps it. -/
theorem State.MemOk.cmdStorePreset {index : Byte} {label : LabelArg} (h : s.MemOk) :
    (cmdStorePreset index label s).MemOk := by
  unfold Machine.cmdStorePreset
  split
  · exact .refuse h
  · exact .refuse h
  · dsimp only
    split
    · exact .refuse h
    · exact .refuse h
    · exact .refuse h
    all_goals exact .done (.setPreset h)

/-- SET_PRESET keeps it. -/
theorem State.MemOk.cmdSetPreset {index band : Byte} {freq : BitVec 32} {label : LabelArg} (h : s.MemOk) :
    (cmdSetPreset index band freq label s).MemOk := by
  unfold Machine.cmdSetPreset
  split
  · exact .ite (.refuse h) (.done (.setPreset h))
  · exact .refuse h

/-- CLEAR_PRESET keeps it. -/
theorem State.MemOk.cmdClearPreset {index : Byte} (h : s.MemOk) : (cmdClearPreset index s).MemOk := by
  unfold Machine.cmdClearPreset
  split
  · exact .refuse h
  · exact .done (.setPreset h)

/-- RECALL_PRESET keeps it. -/
theorem State.MemOk.cmdRecallPreset {zone index : Byte} (h : s.MemOk) : (cmdRecallPreset zone index s).MemOk := by
  refine .withOwner h ?_
  split
  · exact .refuse h
  · split
    · exact .refuse h
    · exact .accepted (.tuneTo (.beginOp h))

/-! ## Commands of the outputs -/

/-- The assignment of a role keeps it. -/
theorem State.MemOk.assigned {c : Fin 12} {r : Role} (h : s.MemOk) : (s.assigned c r).1.MemOk := by
  unfold State.assigned
  dsimp only
  split
  · exact .givePending h
  · exact .givePending (.givePending h)

/-- ASSIGN_OUTPUT keeps it. -/
theorem State.MemOk.cmdAssignOutput {channel role : Byte} (h : s.MemOk) : (cmdAssignOutput channel role s).MemOk := by
  unfold Machine.cmdAssignOutput
  split
  · exact .ite (.refuse h) (.ite (.done h) (.ite (.refuse h) (.done (.formGroup (.assigned h)))))
  · exact .refuse h

/-- SET_CHANNEL keeps it. -/
theorem State.MemOk.cmdSetChannel {channel : Byte} {trim : BitVec 8} {delay : BitVec 16} {polarity size : Byte}
    (h : s.MemOk) : (cmdSetChannel channel trim delay polarity size s).MemOk := by
  unfold Machine.cmdSetChannel
  split
  · exact .ite (.refuse h) (.ite (.clampedOr (.setChan h)) (.clampedOr (.formGroup (.setChan (.givePending h)))))
  · exact .refuse h

/-- SET_BASS keeps it. -/
theorem State.MemOk.cmdSetBass {hz : Byte} (h : s.MemOk) : (cmdSetBass hz s).MemOk := .ite (.refuse h) (.done (.withOut h))

/-- CLEAR_FAULT keeps it. -/
theorem State.MemOk.cmdClearFault {pair : Byte} (h : s.MemOk) : (cmdClearFault pair s).MemOk := by
  unfold Machine.cmdClearFault
  split
  · exact .refuse h
  · dsimp only
    split
    · exact .done h
    · exact .done h
    all_goals exact .ite (.refuse h) (.done (.enterSoftStart h))

/-- SET_PROTECT keeps it. -/
theorem State.MemOk.cmdSetProtect {pair detect retry : Byte} (h : s.MemOk) :
    (cmdSetProtect pair detect retry s).MemOk := by
  unfold Machine.cmdSetProtect
  split
  · exact .refuse h
  · exact .clampedOr (.setPair h)

/-- An opcode outside the table keeps it. -/
theorem State.MemOk.cmdUnknown (h : s.MemOk) : (cmdUnknown s).MemOk := .refuse h

/-- NOP keeps it. -/
theorem State.MemOk.cmdNop (h : s.MemOk) : (cmdNop s).MemOk := .done h

/-- Every opcode's command keeps it. -/
theorem State.MemOk.runOpcode {op : Nat} {target : Byte} {args : List Byte} (h : s.MemOk) :
    (runOpcode op target args s).MemOk := by
  unfold Machine.runOpcode
  dsimp only
  split
  · exact h.cmdNop
  · exact h.cmdRestart
  · exact h.cmdDefineWindow
  · exact h.cmdReleaseWindow
  · exact h.cmdSnapshot
  · exact h.cmdSetMeters
  · exact h.cmdBindTap
  · exact h.cmdUnbindTap
  · exact h.cmdSetLane
  · exact h.cmdDefineSource
  · exact h.cmdClearSource
  · exact h.cmdSelectSource
  · exact h.cmdZonePower
  · exact h.cmdMute
  · exact h.cmdSetVolume
  · exact h.cmdSetZone
  · exact h.cmdSetSleep
  · exact h.cmdRetrack
  · exact h.cmdSetDecode
  · exact h.cmdTune
  · exact h.cmdStep
  · exact h.cmdSeek
  · exact h.cmdScan
  · exact h.cmdAbortRadio
  · exact h.cmdSetRegion
  · exact h.cmdClearStations
  · exact h.cmdStorePreset
  · exact h.cmdSetPreset
  · exact h.cmdClearPreset
  · exact h.cmdRecallPreset
  · exact h.cmdAssignOutput
  · exact h.cmdSetChannel
  · exact h.cmdSetBass
  · exact h.cmdClearFault
  · exact h.cmdSetProtect
  · exact h.cmdUnknown

/-! ## The command ring -/

/-- Placing the waiting return keeps it: it waits for room (R15). -/
theorem State.MemOk.placeCommandReturn (h : s.MemOk) : s.placeCommandReturn.MemOk := by
  unfold State.placeCommandReturn
  split
  · exact h
  · split_ifs with hw
    · exact h
    · have hroom : s.room = true := Bool.eq_true_of_not_eq_false fun hr => hw (.inl hr)
      exact h.enqueue hroom

/-- The return of a command keeps it. -/
theorem State.MemOk.returnCommand {o : CmdOut} {op target : Byte} (h : o.MemOk) :
    (State.returnCommand o op target).MemOk :=
  State.MemOk.placeCommandReturn (s := { o.st with cmd := _ }) h

/-- Storing bytes in the command shadow keeps it in canonical form. -/
theorem State.MemOk.storeShadow {bytes : List (Nat × Byte)} (h : s.MemOk) :
    ({ s with cmd := { s.cmd with shadow := memStore bytes s.cmd.shadow } } : State).MemOk := by
  obtain ⟨hshadow, hrest⟩ := h
  exact ⟨memWf_memStore bytes s.cmd.shadow hshadow, hrest⟩

/-- Handing a command over keeps it. -/
theorem State.MemOk.handOver {op target : Byte} {args : List Byte} (h : s.MemOk) : (s.handOver op target args).MemOk :=
  h.storeShadow

/-- A row of the ring whose command keeps it. -/
theorem State.MemOk.runHost {op : Nat} {target : Byte} {args : List Byte} {cmd : State → CmdOut}
    (hc : ∀ t, t.MemOk → (cmd t).MemOk) (h : s.MemOk) : (s.runHost op target args cmd).MemOk :=
  .ite h (.returnCommand (hc _ h.handOver))

/-- Taking the command in slot next keeps it. -/
theorem State.MemOk.takeCommand (h : s.MemOk) : s.takeCommand.MemOk := .ite h (.returnCommand h.runOpcode)

/-! ## The link -/

/-- The tap's place in the queue keeps it. -/
theorem State.MemOk.tapEnqueue (h : s.MemOk) : s.tapEnqueue.MemOk :=
  .ite (.placeCommandReturn (.endUnbinding h.tapMove)) h.tapMove

/-- The mirror's place in the queue keeps it. -/
theorem State.MemOk.mirrorEnqueue (h : s.MemOk) : s.mirrorEnqueue.MemOk :=
  .ite (.placeCommandReturn h.mirrorMove) h.mirrorMove

/-- While no request is accepted, looking at the next one's overlap keeps it (R12). -/
theorem State.MemOk.countOverlap (hs : s.link.slot = none) (h : s.MemOk) : s.countOverlap.MemOk := by
  obtain ⟨hshadow, hinjq, hqueue, hradio, hforward, -, hanchor⟩ := h
  have hfree : ∀ n, s.link.slot.isSome = true → n = 0 := by simp [hs]
  unfold State.countOverlap
  split
  · exact ⟨hshadow, hinjq, hqueue, hradio, hforward, hfree _, hanchor⟩
  · exact ⟨hshadow, hinjq, hqueue, hradio, hforward, hfree _, hanchor⟩

/-- A request is accepted when the overlap rule does not hold it (R2). -/
theorem State.MemOk.acceptWaiting (h : s.MemOk) : s.acceptWaiting.MemOk := by
  unfold State.acceptWaiting
  split_ifs with hheld
  · exact h
  · split
    · exact h
    · obtain ⟨hshadow, hinjq, hqueue, hradio, hforward, -, hanchor⟩ := h
      have hnone : s.link.overlapLeft = 0 := by
        simp only [State.acceptHeld, Bool.or_eq_true, decide_eq_true_eq] at hheld
        omega
      exact ⟨hshadow, hinjq, hqueue, hradio, hforward, fun _ => hnone, hanchor⟩

/-- A presented request keeps it. -/
theorem State.MemOk.presentRequest {r : Request} (h : s.MemOk) : (s.presentRequest r).MemOk := by
  unfold State.presentRequest
  dsimp only
  split_ifs with hfirst
  · exact .acceptWaiting (State.MemOk.countOverlap (s := { s with link := _ }) hfirst.1 h)
  · exact State.MemOk.acceptWaiting (s := { s with link := _ }) h

/-- A write in the command ring keeps it. -/
theorem State.MemOk.observeCommand {got : List (Nat × Byte)} {i : Fin 64} (h : s.MemOk) :
    (s.observeCommand got i).MemOk := by
  unfold State.observeCommand
  dsimp only
  refine .ite h ?_
  split
  · exact .ite h.storeShadow h.storeShadow
  · exact h.storeShadow

/-- A write in the report ring keeps it. -/
theorem State.MemOk.observeReport {got : List (Nat × Byte)} (h : s.MemOk) : (s.observeReport got).MemOk := by
  induction got generalizing s with
  | nil => exact h
  | cons ab rest ih => exact ih (.ite h h)

/-- A write in the anchor keeps it. -/
theorem State.MemOk.observeAnchor {w : LinkWrite} (h : s.MemOk) : (s.observeAnchor w).MemOk :=
  .ite h.observeCommand h.observeReport

/-- An observed write keeps it. -/
theorem State.MemOk.observe {w : LinkWrite} (h : s.MemOk) : (s.observe w).MemOk := by
  unfold State.observe
  split
  · exact h
  · split
    · exact h.observeAnchor
    · exact h.observeStream
    · exact h.observeTap
    all_goals exact h

/-- Observing a forwarded request keeps it. -/
theorem State.MemOk.observeRequest {r : Request} (h : s.MemOk) : (s.observeRequest r).MemOk := by
  cases r with
  | read _ _ => exact h
  | write w => exact h.observe

/-! ## What observing a write leaves of the port -/

/-- Placing a slot return leaves the accepted request. -/
@[simp] theorem State.placeReturn_slot (s : State) : s.placeReturn.link.slot = s.link.slot := by
  obtain ⟨q, -, hlink, -⟩ := s.placeReturn_placed
  rw [hlink]

/-- A slot that begins to return leaves the accepted request. -/
@[simp] theorem State.enterReturning_slot (s : State) (w : Fin 16) (i : Nat) (status : StreamStatus) (len : Nat) :
    (s.enterReturning w i status len).link.slot = s.link.slot := by
  unfold State.enterReturning
  split
  · rfl
  · dsimp only
    by_cases hw : s.intakeWait = []
    · rw [if_pos hw]
      exact State.placeReturn_slot _
    · rw [if_neg hw]
      rfl

/-- Putting a ring in its place leaves the accepted request. -/
@[simp] theorem State.setRing_slot (s : State) (i : Fin 16) (r : Option Ring) :
    (s.setRing i r).link.slot = s.link.slot := rfl

/-- Capturing bytes leaves the accepted request. -/
@[simp] theorem State.captureInto_slot (s : State) (w : Fin 16) (r : Ring) (i : Nat) (bytes : List (Nat × Byte)) :
    (s.captureInto w r i bytes).link.slot = s.link.slot := by
  unfold State.captureInto
  dsimp only
  split
  · split_ifs <;> rfl
  all_goals rfl

/-- Sealing a slot leaves the accepted request. -/
@[simp] theorem State.sealSlot_slot (s : State) (w : Fin 16) (r : Ring) (i : Nat) :
    (s.sealSlot w r i).link.slot = s.link.slot := by
  unfold State.sealSlot
  dsimp only
  split_ifs <;> simp

/-- The handover of a slot leaves the accepted request. -/
@[simp] theorem State.streamHandover_slot (s : State) (w : Fin 16) (i : Nat) :
    (s.streamHandover w i).link.slot = s.link.slot := by
  unfold State.streamHandover
  split
  · rfl
  · dsimp only
    split
    · split_ifs <;> simp
    · simp
    · split_ifs <;> simp
    all_goals rfl

/-- A write in a STREAM window leaves the accepted request. -/
theorem State.observeStream_slot (s : State) (w : Fin 16) (lw : LinkWrite) :
    (s.observeStream w lw).link.slot = s.link.slot := by
  unfold State.observeStream
  split
  · rfl
  · dsimp only
    split_ifs
    · rfl
    · split
      · rfl
      · split_ifs <;> simp
    · split
      · simp
      · split_ifs <;> simp

/-- Placing a write of the tap leaves the accepted request. -/
theorem State.placeTapItem_slot (s : State) (it : TapItem) : (s.placeTapItem it).link.slot = s.link.slot := by
  unfold State.placeTapItem
  split
  · rfl
  · split <;> rfl

/-- One step of the tap leaves the accepted request. -/
theorem State.tapMove_slot (s : State) : s.tapMove.1.link.slot = s.link.slot := by
  unfold State.tapMove
  split
  · split_ifs
    · rfl
    · exact State.placeTapItem_slot _ _
  · split
    · dsimp only
      split_ifs
      · rfl
      · exact s.placeTapItem_slot _
      · rfl
    · rfl

/-- Several steps of the tap leave the accepted request. -/
theorem State.tapPump_slot (n : Nat) (s : State) : (State.tapPump n s).link.slot = s.link.slot := by
  induction n generalizing s with
  | zero => rfl
  | succ n ih =>
    unfold State.tapPump
    split_ifs
    · rw [ih, s.tapMove_slot]
    · rfl

/-- The end of an UNBIND_TAP leaves the accepted request. -/
theorem State.endUnbinding_slot (s : State) : s.endUnbinding.link.slot = s.link.slot := by
  unfold State.endUnbinding
  split_ifs <;> rfl

/-- A write in the tap's window leaves the accepted request. -/
theorem State.observeTap_slot (s : State) (w : Fin 16) (lw : LinkWrite) :
    (s.observeTap w lw).link.slot = s.link.slot := by
  unfold State.observeTap
  split
  · rfl
  · dsimp only
    split_ifs
    · rfl
    · split
      · rfl
      · split_ifs
        · rfl
        · split
          · split_ifs <;> rfl
          · rw [State.endUnbinding_slot, State.tapPump_slot]

/-- A write in the report ring leaves the accepted request. -/
theorem State.observeReport_slot (got : List (Nat × Byte)) (s : State) :
    (s.observeReport got).link.slot = s.link.slot := by
  induction got generalizing s with
  | nil => rfl
  | cons ab rest ih =>
    refine (ih _).trans ?_
    split_ifs <;> rfl

/-- A write in the command ring leaves the accepted request. -/
theorem State.observeCommand_slot (s : State) (got : List (Nat × Byte)) (i : Fin 64) :
    (s.observeCommand got i).link.slot = s.link.slot := by
  unfold State.observeCommand
  split_ifs
  · rfl
  · dsimp only
    split
    · split_ifs <;> rfl
    · rfl

/-- Either branch leaves the accepted request. -/
theorem State.ite_slot {c : Prop} [Decidable c] {a b : State} {x : Option Request} (ha : a.link.slot = x)
    (hb : b.link.slot = x) : (if c then a else b).link.slot = x := by
  split
  · exact ha
  · exact hb

/-- A write in the anchor leaves the accepted request. -/
theorem State.observeAnchor_slot (s : State) (w : LinkWrite) : (s.observeAnchor w).link.slot = s.link.slot :=
  State.ite_slot (s.observeCommand_slot _ _) (State.observeReport_slot _ s)

/-- Observing a forwarded request leaves the accepted request. -/
theorem State.observeRequest_slot (s : State) (r : Request) : (s.observeRequest r).link.slot = s.link.slot := by
  cases r with
  | read _ _ => rfl
  | write w =>
    show (s.observe w).link.slot = _
    unfold State.observe
    split
    · rfl
    · split
      · exact s.observeAnchor_slot w
      · exact s.observeStream_slot _ w
      · exact s.observeTap_slot _ w
      all_goals rfl

/-! ## The rows of the link -/

/-- A forwarded request leaves the port, and the forward count stays at 32 at most, since a hold that is due stops it
(R11). -/
theorem State.MemOk.putForward {r : Request} (hm : s.mayForward = true) (h : s.MemOk) : (s.putForward r).MemOk := by
  obtain ⟨hshadow, hinjq, hqueue, hradio, hforward, -, hanchor⟩ := h
  have hcount : s.link.forwardCount < 32 ∨ s.link.injq = [] := by
    rw [State.mayForward, Bool.not_eq_true', Bool.eq_false_iff, ne_eq, s.acceptHeld_iff] at hm
    by_contra hc
    obtain ⟨hge, hne⟩ := not_or.mp hc
    exact hm (.inl ⟨Nat.not_lt.mp hge, hne⟩)
  refine ⟨hshadow, hinjq, hqueue, hradio, ?_, fun h0 => absurd h0 (by simp [State.putForward]), hanchor⟩
  simp only [State.putForward]
  split_ifs with he
  · exact hforward
  · have hlt := hcount.resolve_right fun hq => he (by rw [hq]; rfl)
    omega

/-- REQUEST_FORWARD keeps it. -/
theorem State.MemOk.requestForward {r : Request} (hm : s.mayForward = true) (h : s.MemOk) :
    ((s.putForward r).observeRequest r).countOverlap.acceptWaiting.MemOk := by
  have hslot : ((s.putForward r).observeRequest r).link.slot = none := State.observeRequest_slot _ r
  exact .acceptWaiting (.countOverlap hslot (.observeRequest (.putForward hm h)))

/-- The response of a request keeps it. -/
theorem State.MemOk.passBack {data : List Byte} {x : InFlight} (h : s.MemOk) : (s.passBack data x).MemOk := by
  cases x
  all_goals exact h

/-- The issue of a write keeps it, whatever its origin. -/
theorem State.MemOk.issued {o : Origin} (h : s.MemOk) : (s.issued o).MemOk := by
  unfold State.issued
  split
  · exact h
  · exact h
  · exact .slotReturned h
  · exact .tapReturned h
  all_goals exact h

/-- A write that leaves the queue keeps it (R10, R11, R12). -/
theorem State.MemOk.putInjected {i x : Injected} {rest : List Injected} (hq : s.link.injq = i :: rest) (h : s.MemOk) :
    (s.putInjected x rest).MemOk := by
  obtain ⟨hshadow, hinjq, hqueue, hradio, hforward, hslot, hanchor⟩ := h
  rw [hq, List.length_cons] at hinjq
  refine ⟨hshadow, ?_, hqueue, hradio, ?_, fun h0 => ?_, hanchor⟩
  · show rest.length ≤ 16
    omega
  · simp only [State.putInjected, Link.afterIssue]
    split_ifs
    · exact Nat.zero_le _
    · exact hforward
  · show s.link.overlapLeft - 1 = 0
    rw [hslot h0]

/-- INJECTED_WRITE_ISSUE keeps it. -/
theorem State.MemOk.issueHead {i : Injected} {rest : List Injected} (hq : s.link.injq = i :: rest) (h : s.MemOk) :
    ((s.putInjected i rest).issued i.origin).acceptWaiting.MemOk := .acceptWaiting (.issued (.putInjected hq h))

/-- Releasing a window other than the anchor keeps it. -/
theorem State.MemOk.freeWindow {i : Fin 16} (hi : i.val ≠ 0) (h : s.MemOk) : (s.freeWindow i).MemOk :=
  .setWindow hi (.discardWindow h)

/-- Releasing several windows, none of them the anchor, keeps it. -/
theorem State.MemOk.freeWindows {is : List (Fin 16)} (hi : ∀ i ∈ is, i.val ≠ 0) (h : s.MemOk) :
    (Machine.forEach (fun i t => State.freeWindow t i) is s).MemOk := by
  induction is generalizing s with
  | nil => exact h
  | cons i is ih => exact ih (fun x hx => hi x (List.mem_cons_of_mem i hx)) (.freeWindow (hi i List.mem_cons_self) h)

/-- Dropping the tag of a switch keeps it. -/
theorem State.MemOk.dropSwitchTag {z : Zone} (h : s.MemOk) : (s.dropSwitchTag z).MemOk := .setZone h

/-- Another tuner record and another tap leave it. -/
theorem State.MemOk.withTunerTap {t : Tuner} {x : Tap} (h : s.MemOk) : ({ s with tuner := t, tap := x } : State).MemOk := h

/-- A link reset keeps it (R27). -/
theorem State.MemOk.linkReset (h : s.MemOk) : s.linkReset.MemOk := by
  have hcleared : ({ s with link := s.link.reset, intakeWait := [], cmd := CommandUnit.powerOn
                            rep := ReportUnit.powerOn } : State).MemOk := by
    obtain ⟨-, -, -, -, -, -, hanchor⟩ := h
    exact ⟨rfl, Nat.zero_le _, Nat.zero_le _, nofun, Nat.zero_le _, fun _ => rfl, hanchor⟩
  have hfreed := State.MemOk.freeWindows (is := (List.finRange 16).filter fun i => decide (i.val ≠ 0)) (by simp) hcleared
  unfold State.linkReset
  exact .withTunerTap (.dropSwitchTag (.dropSwitchTag (.dropSection hfreed)))

/-- The part at power-on meets it, whatever the straps (R26). -/
theorem memOk_powerOn (straps : BitVec 4) : (State.powerOn straps).MemOk :=
  ⟨rfl, Nat.zero_le _, Nat.zero_le _, nofun, Nat.zero_le _, fun _ => rfl, windowsPowerOn_zero straps⟩

end

end Sys2Proof.Machine
end

