-- ==== Sys2Proof/Proofs/MemoryInvariant.lean ====
section
/-! SUPPORT. The stages of an output block and every row keep the memory path's invariant: the statement about a step. -/

namespace Sys2Proof.Machine

open Sys2Proof

section
variable {s : State}

/-! ## The stages of a block -/

/-- Beginning a block keeps it. -/
theorem State.MemOk.begun (h : s.MemOk) : s.begun.MemOk := .takePart (fun _ ht => ht) h

/-- The lanes' parts keep it. -/
theorem State.MemOk.lanesMade (h : s.MemOk) : s.lanesMade.MemOk :=
  .forEach (fun _ _ => .takePart fun _ => .laneBlock) h.begun

/-- The paths' parts keep it. -/
theorem State.MemOk.pathsMade (h : s.MemOk) : s.pathsMade.MemOk :=
  .takePart (fun _ => .pathBlock) (.takePart (fun _ => .pathBlock) h.lanesMade)

/-- The tuner's part keeps it. -/
theorem State.MemOk.tunerMade (h : s.MemOk) : s.tunerMade.MemOk := .takePart (fun _ => .tunerBlock) h.pathsMade

/-- The zones' parts keep it. -/
theorem State.MemOk.zonesMade (h : s.MemOk) : s.zonesMade.MemOk :=
  .takePart (fun _ => .zoneBlock) (.takePart (fun _ => .zoneBlock) h.tunerMade)

/-- The thermal part keeps it. -/
theorem State.MemOk.thermalMade {therm : Bool} (h : s.MemOk) : (s.thermalMade therm).MemOk :=
  .takePart (fun _ => .thermalBlock) h.zonesMade

/-- A channel ramp's part keeps it. -/
theorem State.MemOk.rampBlock {c : Fin 12} (h : s.MemOk) : (s.rampBlock c).MemOk := .setChan h

/-- The channel ramps' parts keep it. -/
theorem State.MemOk.rampsMade {therm : Bool} (h : s.MemOk) : (s.rampsMade therm).MemOk :=
  .forEach (fun _ _ => .takePart fun _ => .rampBlock) h.thermalMade

/-- The pairs' parts keep it. -/
theorem State.MemOk.pairsMade {faults : BitVec 6} {therm : Bool} (h : s.MemOk) : (s.pairsMade faults therm).MemOk :=
  .forEach (fun _ _ => .takePart fun _ => .pairPart) h.rampsMade

/-- The soft starts' parts keep it. -/
theorem State.MemOk.startsMade {faults : BitVec 6} {therm : Bool} (h : s.MemOk) : (s.startsMade faults therm).MemOk :=
  .forEach (fun _ _ => .softStartBlock) h.pairsMade

/-- The groups' parts keep it. -/
theorem State.MemOk.groupsMade {faults : BitVec 6} {therm : Bool} (h : s.MemOk) : (s.groupsMade faults therm).MemOk :=
  .forEach (fun _ _ => .groupBlock) h.startsMade

/-- The sound's part keeps it. -/
theorem State.MemOk.soundMade {faults : BitVec 6} {therm : Bool} (h : s.MemOk) : (s.soundMade faults therm).MemOk :=
  .takePart (fun _ => .soundPart) h.groupsMade

/-- A limiter's part keeps it. -/
theorem State.MemOk.limitPart {c : Fin 12} (h : s.MemOk) : (s.limitPart c).MemOk := .setChan h

/-- The limiters' parts keep it. -/
theorem State.MemOk.limiterMade {faults : BitVec 6} {therm : Bool} (h : s.MemOk) : (s.limiterMade faults therm).MemOk :=
  .forEach (fun _ _ => .takePart fun _ => .limitPart) h.soundMade

/-- The tap's part of a block keeps it. -/
theorem State.MemOk.tapPart (h : s.MemOk) : s.tapPart.MemOk := by
  unfold State.tapPart
  split
  · exact h
  · exact .tapBlock h

/-- The tap's part keeps it. -/
theorem State.MemOk.tapMade {faults : BitVec 6} {therm : Bool} (h : s.MemOk) : (s.tapMade faults therm).MemOk :=
  .takePart (fun _ => .tapPart) h.limiterMade

/-- The meters' part keeps it. -/
theorem State.MemOk.metersMade {faults : BitVec 6} {therm : Bool} (h : s.MemOk) : (s.metersMade faults therm).MemOk :=
  .takePart (fun _ => .meterBlock) h.tapMade

/-- An output block keeps it. -/
theorem State.MemOk.outputBlock {faults : BitVec 6} {therm : Bool} (h : s.MemOk) : (s.outputBlock faults therm).MemOk := by
  have hend : ∀ t : State, t.MemOk → t.endBlock.MemOk := fun t ht => ht.mixAfterAdoption
  exact hend _ (.metersMade (.withPins h))

/-- A path's event keeps it. -/
theorem State.MemOk.pathEvent {p : PathId} {occurs : State → PathId → Bool} (h : s.MemOk) :
    (pathEvent p occurs s).MemOk := .blockEvent (fun _ => .lanesMade) (fun _ => .pathBlock) h

/-- A tuner's event keeps it. -/
theorem State.MemOk.tunerEvent {occurs : State → Bool} (h : s.MemOk) : (tunerEvent occurs s).MemOk :=
  .blockEvent (fun _ => .pathsMade) (fun _ => .tunerBlock) h

/-- A zone's event keeps it. -/
theorem State.MemOk.zoneEvent {z : Zone} {occurs : State → Bool} (h : s.MemOk) : (zoneEvent z occurs s).MemOk :=
  .blockEvent (fun _ => .tunerMade) (fun _ => .zoneBlock) h

/-- A thermal event keeps it. -/
theorem State.MemOk.thermalEvent {line : Bool} {occurs : Thermal → Bool} (h : s.MemOk) :
    (thermalEvent line occurs s).MemOk := .blockEvent (fun _ => .zonesMade) (fun _ => .thermalBlock) h

/-- A pair's event keeps it. -/
theorem State.MemOk.pairEvent {n : Fin 6} {line therm : Bool} {occurs : Pair → Bool → Bool} (h : s.MemOk) :
    (pairEvent n line therm occurs s).MemOk := .blockEvent (fun _ => .rampsMade) (fun _ => .pairPart) h

end

/-! ## Rows -/

/-- A row's next state, when there is one, meets the memory path's invariant. -/
def KeepsMemory (o : Host.Outcome State Fault Refusal) : Prop := ∀ t, o = .next t → t.MemOk

/-- A row with a next state keeps the invariant when that state meets it. -/
theorem KeepsMemory.next {u : State} (h : u.MemOk) : KeepsMemory (.next u) := by
  intro t ht
  cases ht
  exact h

/-- A row that faults has no next state. -/
theorem KeepsMemory.fault {f : Fault} : KeepsMemory (.fault f) := by
  intro t ht
  cases ht

section
variable {s : State}

/-- HOST_REQUEST_ACCEPT keeps it; a malformed request has no next state. -/
theorem keepsMemory_hostRequestAccept (r : Request) (h : s.MemOk) : KeepsMemory (exec (.hostRequestAccept r) s) := by
  show KeepsMemory (if r.wf then .next (s.presentRequest r) else .fault .malformedRequest)
  split_ifs
  · exact .next h.presentRequest
  · exact .fault

/-- REQUEST_FORWARD keeps it. -/
theorem keepsMemory_requestForward (h : s.MemOk) : KeepsMemory (exec .requestForward s) := by
  refine .next ?_
  split
  · exact h
  · split_ifs with hm
    · exact h.requestForward hm
    · exact h

/-- DRAM_RESPONSE keeps it. -/
theorem keepsMemory_dramResponse (data : List Byte) (h : s.MemOk) : KeepsMemory (exec (.dramResponse data) s) := by
  refine .next ?_
  split
  · exact h
  · exact State.MemOk.passBack (s := { s with link := _ }) h

/-- INJECTED_WRITE_ISSUE keeps it. -/
theorem keepsMemory_injectedWriteIssue (h : s.MemOk) : KeepsMemory (exec .injectedWriteIssue s) := by
  refine .next ?_
  split
  · exact h
  · next i rest hq => exact .ite h (.issueHead hq h)

/-- PRODUCER_ENQUEUE keeps it, for each producer. -/
theorem keepsMemory_producerEnqueue (p : Producer) (h : s.MemOk) : KeepsMemory (exec (.producerEnqueue p) s) := by
  cases p
  · exact .next h.placeCommandReturn
  · exact .next h.writePending
  · exact .next h.placeReturn
  · exact .next h.tapEnqueue
  · exact .next h.mirrorEnqueue

/-- STREAM_IDLE keeps it. -/
theorem keepsMemory_streamIdle (w : Fin 16) (h : s.MemOk) : KeepsMemory (exec (.streamIdle w) s) := by
  refine .next (.ite ?_ h)
  split
  · exact h
  · exact .setRing h

/-- CHANGE_GROUP_APPLY keeps it. -/
theorem keepsMemory_changeGroupApply (u : ChannelLines) (h : s.MemOk) : KeepsMemory (exec (.changeGroupApply u) s) := by
  refine .next ?_
  dsimp only
  split
  · exact h
  · exact .ite (.applyGroup h.startsMade) h

/-- Every row keeps it. -/
theorem exec_keepsMemory (c : Instr) (h : s.MemOk) : KeepsMemory (exec c s) := by
  cases c with
  | powerOn straps => exact .next (memOk_powerOn straps)
  | linkReset => exact .next h.linkReset
  | hostRequestAccept r => exact keepsMemory_hostRequestAccept r h
  | requestForward => exact keepsMemory_requestForward h
  | dramResponse data => exact keepsMemory_dramResponse data h
  | injectedWriteIssue => exact keepsMemory_injectedWriteIssue h
  | starvationHold => exact .next (.ite h h)
  | producerEnqueue p => exact keepsMemory_producerEnqueue p h
  | takeCommand faults => exact .next (.takeCommand (.withPins h))
  | reportWrite => exact .next h.writePending
  | nop => exact .next (.runHost (fun _ => .cmdNop) h)
  | restart => exact .next (.runHost (fun _ => .cmdRestart) h)
  | defineWindow => exact .next (.runHost (fun _ => .cmdDefineWindow) h)
  | releaseWindow => exact .next (.runHost (fun _ => .cmdReleaseWindow) h)
  | snapshot => exact .next (.runHost (fun _ => .cmdSnapshot) h)
  | setMeters => exact .next (.runHost (fun _ => .cmdSetMeters) h)
  | bindTap => exact .next (.runHost (fun _ => .cmdBindTap) h)
  | unbindTap => exact .next (.runHost (fun _ => .cmdUnbindTap) h)
  | setLane => exact .next (.runHost (fun _ => .cmdSetLane) h)
  | defineSource => exact .next (.runHost (fun _ => .cmdDefineSource) h)
  | clearSource => exact .next (.runHost (fun _ => .cmdClearSource) h)
  | selectSource => exact .next (.runHost (fun _ => .cmdSelectSource) h)
  | zonePowerOn => exact .next (.runHost (fun _ => .cmdZonePowerOn) h)
  | zonePowerStandby => exact .next (.runHost (fun _ => .cmdZonePowerStandby) h)
  | mute => exact .next (.runHost (fun _ => .cmdMute) h)
  | setVolume => exact .next (.runHost (fun _ => .cmdSetVolume) h)
  | setZone => exact .next (.runHost (fun _ => .cmdSetZone) h)
  | setSleep => exact .next (.runHost (fun _ => .cmdSetSleep) h)
  | retrack => exact .next (.runHost (fun _ => .cmdRetrack) h)
  | setDecode => exact .next (.runHost (fun _ => .cmdSetDecode) h)
  | tune => exact .next (.runHost (fun _ => .cmdTune) h)
  | step => exact .next (.runHost (fun _ => .cmdStep) h)
  | seek => exact .next (.runHost (fun _ => .cmdSeek) h)
  | scan => exact .next (.runHost (fun _ => .cmdScan) h)
  | abortRadio => exact .next (.runHost (fun _ => .cmdAbortRadio) h)
  | setRegion => exact .next (.runHost (fun _ => .cmdSetRegion) h)
  | clearStations => exact .next (.runHost (fun _ => .cmdClearStations) h)
  | storePreset => exact .next (.runHost (fun _ => .cmdStorePreset) h)
  | setPreset => exact .next (.runHost (fun _ => .cmdSetPreset) h)
  | clearPreset => exact .next (.runHost (fun _ => .cmdClearPreset) h)
  | recallPreset => exact .next (.runHost (fun _ => .cmdRecallPreset) h)
  | assignOutput => exact .next (.runHost (fun _ => .cmdAssignOutput) h)
  | setChannel => exact .next (.runHost (fun _ => .cmdSetChannel) h)
  | setBass => exact .next (.runHost (fun _ => .cmdSetBass) h)
  | clearFault => exact .next (.runHost (fun _ => .cmdClearFault) (.withPins h))
  | setProtect => exact .next (.runHost (fun _ => .cmdSetProtect) h)
  | unknownOpcode => exact .next (.ite h (.runHost (fun _ => .cmdUnknown) h))
  | unpackFrame => exact .next h.unpackStep
  | streamIdle w => exact keepsMemory_streamIdle w h
  | outputBlock => exact .next h.outputBlock
  | laneLoss => exact .next (.blockEvent (fun _ => .begun) (fun _ => .laneBlock) h)
  | realignDeassert => exact .next (.ite (.setLane h) h)
  | laneFrame => exact .next h.receiveFrame
  | fadeOutEnd => exact .next h.zoneEvent
  | waitReadyEnd => exact .next h.zoneEvent
  | sourceAbsent => exact .next h.zoneEvent
  | switchComplete => exact .next h.zoneEvent
  | goingStandbyEnd => exact .next h.zoneEvent
  | sleepMinute => exact .next h.zoneEvent
  | formatAdoption => exact .next h.pathEvent
  | prefillExit => exact .next h.pathEvent
  | gainCheck => exact .next h.pathEvent
  | acquireLock => exact .next h.pathEvent
  | slip => exact .next h.pathEvent
  | holdEntry => exact .next h.pathEvent
  | holdExit => exact .next h.pathEvent
  | changeGroupApply u => exact keepsMemory_changeGroupApply u h
  | softStartCount => exact .next (.blockEvent (fun _ => .thermalMade) (fun _ => .rampBlock) h)
  | softStartEnd => exact .next (.ite (.endSoftStart h.rampsMade) h)
  | limiterRelease => exact .next (.blockEvent (fun _ => .soundMade) (fun _ => .limitPart) h)
  | meterPeriodEnd => exact .next (.blockEvent (fun _ => .tapMade) (fun _ => .meterBlock) h)
  | protectEntry => exact .next h.pairEvent
  | recoverWaitExpiry => exact .next h.pairEvent
  | normalRunExpiry => exact .next h.pairEvent
  | thermalWarningSet => exact .next h.thermalEvent
  | thermalClear => exact .next h.thermalEvent
  | escalationSet => exact .next h.thermalEvent
  | thermalStep => exact .next h.thermalEvent
  | feAcknowledgement => exact .next (.withTuner h)
  | ackTimeout => exact .next h.tunerEvent
  | feStatusRecord => exact .next h.statusRecord
  | feBurst => exact .next (.withTuner h)
  | statusSilence => exact .next h.tunerEvent
  | settleLimit => exact .next h.tunerEvent
  | dwellEnd => exact .next h.tunerEvent
  | pilotCapture => exact .next h.pilotCapture
  | pilotTimeout => exact .next h.pilotCapture
  | blendStep => exact .next h.tunerEvent

end

/-- Settles O2: a step idles, or runs a row on the state without the command at the front of the queue. -/
theorem stepKeepsMemoryInvariant : Obligations.StepKeepsMemoryInvariant := by
  intro s t h hstep
  have hs : s.MemOk := s.memOk_iff.mpr h
  refine t.memOk_iff.mp ?_
  unfold step at hstep
  split at hstep
  · cases hstep
    exact hs
  · next c rest _ => exact exec_keepsMemory c (s := { s with pending := rest }) hs t hstep

end Sys2Proof.Machine
end

