-- ==== Sys2Proof/Proofs/AudioReset.lean ====
section
/-! SUPPORT. The records of the audio side at power-on (R50, R67, R75, R94, R131, R133, R161, R183, R193). -/

namespace Sys2Proof.Machine

open Sys2Proof

/-- Both zones have their power-on record (R75, R90). -/
theorem zone_powerOn (a : BitVec 4) (z : Zone) : (State.powerOn a).zone z = ZoneRec.powerOn := by
  cases z <;> rfl

/-- Both paths are free at power-on (R70, R109). -/
theorem path_powerOn (a : BitVec 4) (p : PathId) : (State.powerOn a).path p = PathRec.free := by
  cases p <;> rfl

/-- Settles O7: the power-on record of each unit; the tables hold one record in every place. -/
theorem powerOnAudioSide : Obligations.PowerOnAudioSide := by
  intro a s
  refine ⟨_, rfl, zone_powerOn a, path_powerOn a, rfl, rfl, ?sources, ?lanes, ?groups, ?rings, rfl, rfl, rfl, rfl, rfl,
    rfl, ?presets, ?channels, rfl, rfl, rfl, ?samples, ?pairs, rfl, rfl, rfl⟩
  case sources => exact getAt_replicate SourceEntry.powerOn
  case lanes => exact getAt_replicate LaneRec.powerOn
  case groups => exact getAt_replicate none
  case rings => exact getAt_replicate none
  case presets => exact getAt_replicate none
  case channels => exact getAt_replicate Channel.powerOn
  case samples => exact getAt_replicate []
  case pairs => exact getAt_replicate Pair.powerOn

end Sys2Proof.Machine
end

