-- ==== Sys2Proof/Proofs/Tap.lean ====
section
/-! SUPPORT. The tap (R42 to R47): binding and unbinding, the writes it places, how frames fill and close a slot, and
the statement about them. -/

namespace Sys2Proof.Machine

open Sys2Proof

/-! ## Binding (R42) -/

/-- Handing a command over does not touch the window table. -/
theorem State.handOver_window (s : State) (o t : Byte) (a : List Byte) (i : Fin 16) :
    (s.handOver o t a).window i = s.window i := rfl

/-- BIND_TAP that names no TAP window or no point fails its checks (R42). -/
theorem cmdBindTap_badArg (index point : Byte) (s : State)
    (h : TapPoint.ofCode point.toNat = none
      ∨ ∀ i : Fin 16, i.val = index.toNat → ∀ b n c, s.window i ≠ .tap b n c) :
    cmdBindTap index point s = refuse s .badArg := by
  unfold cmdBindTap
  split
  next i p hi hp =>
    have hv : i.val = index.toNat := by
      unfold fin16? at hi
      split at hi
      · cases hi; rfl
      · cases hi
    rcases h with h | h
    · rw [h] at hp; cases hp
    · split
      next hw => exact absurd hw (h i hv _ _ _)
      all_goals rfl
  · rfl

/-- BIND_TAP that names a TAP window and a point: refused while the tap is bound, and else bound (R42). -/
theorem cmdBindTap_tap (index point : Byte) (s : State) (i : Fin 16) (p : TapPoint) (b n c : Nat)
    (hi : i.val = index.toNat) (hp : TapPoint.ofCode point.toNat = some p) (hw : s.window i = .tap b n c) :
    cmdBindTap index point s
      = if s.tap.binding.isSome then refuse s .inUse
        else done { s with tap := { s.tap with
          binding := some (i, p), fillPos := 0, gapPending := false, closePending := false } } (tapCapacity n) := by
  simp only [cmdBindTap, fin16?_some _ i hi, hp, hw]

/-! ## The writes of the tap (R44, R45) -/

/-- A data write stands behind the slot's 32 bytes of header and the frames before it (R44). -/
theorem State.placeTapItem_data (s : State) (w : Fin 16) (b n c i m : Nat) (fs : List (Sample × Sample))
    (hw : s.tapWindow = some (w, b, n, c)) :
    s.placeTapItem (.data i m fs)
      = s.enqueue { write := fullWrite (b + n * i + 32 + 8 * m) (tapBytes fs), origin := .tapData i } := by
  simp only [State.placeTapItem, hw]

/-- A closing write carries the flags as they stand when it is placed, and leaves the gap pending flag as its item says
(R45, log 32). -/
theorem State.placeTapItem_close (s : State) (w : Fin 16) (b n c k m : Nat) (status : StreamStatus) (gapAfter : Bool)
    (hw : s.tapWindow = some (w, b, n, c)) :
    s.placeTapItem (.close k m status gapAfter)
      = { s.enqueue { write := tapCloseWrite (b + n * k) status (s.tap.slot k).late s.tap.gapPending m
                      origin := .tapClose k } with
          tap := { s.tap with gapPending := gapAfter } } := by
  simp only [State.placeTapItem, hw]
  rfl

/-- Placing a tap write does not touch the writes that wait. -/
theorem State.placeTapItem_outbox (s : State) (it : TapItem) : (s.placeTapItem it).tap.outbox = s.tap.outbox := by
  unfold State.placeTapItem
  split
  · rfl
  · cases it <;> rfl

/-- The frames of a run of data writes: none left or no room left ends it, else the next write takes as many as fit
(R44, R47, log 67). -/
theorem tapDataItems_succ (i k m cap : Nat) (fs : List (Sample × Sample)) :
    let q := min (8 - (4 + m) % 8) (min (cap - m) fs.length)
    ((fs = [] ∨ cap ≤ m) → tapDataItems i (k + 1) m cap fs = [])
    ∧ (fs ≠ [] → m < cap →
      tapDataItems i (k + 1) m cap fs = .data i m (fs.take q) :: tapDataItems i k (m + q) cap (fs.drop q)) := by
  intro q
  have hends : (fs.isEmpty = true ∨ cap ≤ m) ↔ (fs = [] ∨ cap ≤ m) := by rw [List.isEmpty_iff]
  exact ⟨fun h => if_pos (hends.mpr h), fun hf hm => if_neg (mt hends.mp (by simp [hf, hm]))⟩

/-- While UNBIND_TAP is in progress the tap's step places its next write, and the last one frees the command's return
(R15, R47). -/
theorem State.tapEnqueue_unbinding (s : State) (it : TapItem) (rest : List TapItem) (ho : s.tap.outbox = it :: rest)
    (hl : s.link.injq.length < 16) (hu : s.tap.unbinding = true) :
    let v := ({ s with tap := { s.tap with outbox := rest } }).placeTapItem it
    s.tapEnqueue
      = if rest = [] then ({ v with tap := { v.tap with unbinding := false } }).placeCommandReturn else v := by
  intro v
  have hv : s.tapMove.1 = v := congrArg Prod.fst (s.tapMove_outbox it rest ho hl)
  have hvu : v.tap.unbinding = true := (State.placeTapItem_unbinding _ it).trans hu
  have hvo : v.tap.outbox = rest := State.placeTapItem_outbox _ it
  simp only [State.tapEnqueue, State.endUnbinding, hv, hvu, hvo, Bool.true_and, List.isEmpty_iff]
  split <;> rfl

/-! ## Unbinding (R47) -/

/-- The frames a slot holds once UNBIND_TAP has put the held frames into the slot at the fill position (R47). -/
def Tap.unboundCount (t : Tap) (cap j : Nat) : Nat :=
  if j = t.fillPos then min cap ((t.slot t.fillPos).count + t.hold.length) else (t.slot j).count

/-- A slot as UNBIND_TAP leaves it, read from the tap before it (R47). -/
def Tap.unboundSlot (t : Tap) (cap j : Nat) : TapSlot :=
  match (t.slot j).view with
  | .filling => { t.slot j with view := .closing, count := t.unboundCount cap j }
  | .offered => { t.slot j with view := .closing, count := 0 }
  | .hostOwned | .closing => t.slot j

/-- The closing write UNBIND_TAP asks for a slot, read from the tap before it (R47). -/
def Tap.unboundClose (t : Tap) (cap j : Nat) : List TapItem :=
  match (t.slot j).view with
  | .filling => [TapItem.close j (t.unboundCount cap j) .ok false]
  | .offered => [TapItem.close j 0 .flushed false]
  | .hostOwned | .closing => []

/-- Putting the held frames into their slot: what stays, and the writes it asks for (R47). -/
theorem Tap.flushHold_keeps (t : Tap) (cap : Nat) :
    let u := t.flushHold cap
    u.slots.length = t.slots.length ∧ u.hold = [] ∧ u.fillPos = t.fillPos ∧ u.gapPending = t.gapPending
      ∧ u.outbox = t.outbox ++ (if (t.slot t.fillPos).view = .filling
          then tapDataItems t.fillPos 48 (t.slot t.fillPos).count cap t.hold else []) := by
  intro u
  simp only [u, Tap.flushHold]
  split
  · exact ⟨by simp [Tap.setSlot, listSet_eq], rfl, rfl, rfl, rfl⟩
  · exact ⟨rfl, rfl, rfl, rfl, by simp⟩

/-- A slot of the tap once the held frames are in their slot (R47). -/
theorem Tap.slot_flushHold (t : Tap) (cap j : Nat) (hf : t.fillPos < t.slots.length) :
    (t.flushHold cap).slot j = if (t.slot j).view = .filling then { t.slot j with count := t.unboundCount cap j }
      else t.slot j := by
  unfold Tap.flushHold
  simp only
  by_cases hj : t.fillPos = j
  · subst hj
    split
    · exact (t.slot_setSlot t.fillPos t.fillPos _ hf).trans (by simp [Tap.unboundCount])
    · rfl
  · have hcount : t.unboundCount cap j = (t.slot j).count := if_neg (Ne.symm hj)
    rw [hcount, ite_self]
    split
    · exact (t.slot_setSlot t.fillPos j _ hf).trans (if_neg hj)
    · rfl

/-- Closing a slot after the held frames went into theirs (R47). -/
theorem Tap.flushHold_unbound (t : Tap) (cap j : Nat) (hf : t.fillPos < t.slots.length) :
    ((t.flushHold cap).slot j).unbound = t.unboundSlot cap j
      ∧ ((t.flushHold cap).slot j).unboundItems j = t.unboundClose cap j := by
  rw [t.slot_flushHold cap j hf]
  cases hv : (t.slot j).view <;>
    simp [TapSlot.unbound, TapSlot.unboundItems, Tap.unboundSlot, Tap.unboundClose, hv]

/-- Once round a ring from a position each place stands once. -/
theorem ringOrder_nodup (c start : Nat) : (ringOrder c start).Nodup := by
  refine List.Nodup.map_on (fun x hx y hy hxy => ?_) List.nodup_range
  rw [List.mem_range] at hx hy
  have hmod : x ≡ y [MOD c] := Nat.ModEq.add_left_cancel' start hxy
  exact Nat.ModEq.eq_of_lt_of_lt hmod hx hy

/-- Once round a ring reaches the places of the ring. -/
theorem mem_ringOrder (c start j : Nat) (hs : start < c) : j ∈ ringOrder c start ↔ j < c := by
  simp only [ringOrder, List.mem_map, List.mem_range]
  constructor
  · rintro ⟨k, -, rfl⟩
    exact Nat.mod_lt _ (by omega)
  · intro hj
    refine ⟨(j + (c - start)) % c, Nat.mod_lt _ (by omega), ?_⟩
    rw [Nat.add_mod_mod, show start + (j + (c - start)) = j + c by omega, Nat.add_mod_right, Nat.mod_eq_of_lt hj]

/-- The tap as UNBIND_TAP leaves it, before its writes are placed (R47). -/
def Tap.unbound (t : Tap) (cap c : Nat) : Tap :=
  { (ringOrder c (t.flushHold cap).fillPos).foldl (fun t i => t.closeForUnbind i) (t.flushHold cap) with
    binding := none, closePending := false }

/-- What UNBIND_TAP leaves of the tap, and the writes that wait for a place then (R47, log 46). -/
theorem Tap.unbound_spec (t : Tap) (cap c : Nat) (hl : t.slots.length = c) (hf : t.fillPos < c) :
    let u := t.unbound cap c
    u.binding = none ∧ u.hold = [] ∧ u.closePending = false ∧ u.gapPending = t.gapPending ∧ u.slots.length = c
      ∧ (∀ j, j < c → u.slot j = t.unboundSlot cap j)
      ∧ u.outbox = t.outbox ++ (if (t.slot t.fillPos).view = .filling
          then tapDataItems t.fillPos 48 (t.slot t.fillPos).count cap t.hold else [])
        ++ (List.range c).flatMap fun k => t.unboundClose cap ((t.fillPos + k) % c) := by
  intro u
  obtain ⟨flen, fhold, fpos, fgap, fout⟩ := t.flushHold_keeps cap
  have hf' : t.fillPos < t.slots.length := by omega
  obtain ⟨clen, chold, -, cgap, -, -, cslot, cout⟩ :=
    Tap.closeAll_spec (ringOrder c (t.flushHold cap).fillPos) (t.flushHold cap) (ringOrder_nodup c _)
      fun i hi => by rw [flen, hl]; exact (mem_ringOrder c _ i (by rw [fpos]; exact hf)).mp hi
  refine ⟨rfl, chold.trans fhold, rfl, cgap.trans fgap, (clen.trans flen).trans hl, fun j hj => ?_, ?_⟩
  · refine (cslot j).trans ?_
    rw [if_pos ((mem_ringOrder c _ j (by rw [fpos]; exact hf)).mpr hj)]
    exact (t.flushHold_unbound cap j hf').1
  · refine cout.trans ?_
    rw [fout, fpos, ringOrder, List.flatMap_map]
    exact congrArg _ (List.flatMap_congr fun k _ => (t.flushHold_unbound cap _ hf').2)

/-- Placing a write of the tap keeps it unbound or bound. -/
theorem State.placeTapItem_binding (s : State) (it : TapItem) : (s.placeTapItem it).tap.binding = s.tap.binding := by
  unfold State.placeTapItem
  split
  · rfl
  · cases it <;> rfl

/-- Taking frames keeps the binding. -/
theorem Tap.tookFrames_binding (t : Tap) (cap k : Nat) : (t.tookFrames cap k).binding = t.binding := by
  unfold Tap.tookFrames
  simp only
  split <;> rfl

/-- A move of the tap keeps the binding. -/
theorem State.tapMove_binding (s : State) : s.tapMove.1.tap.binding = s.tap.binding := by
  unfold State.tapMove
  split
  · split
    · rfl
    · exact State.placeTapItem_binding _ _
  · split
    · dsimp only
      split
      · split
        · rfl
        · exact Tap.tookFrames_binding _ _ _
      · rfl
    · rfl

/-- Moves of the tap keep the binding. -/
theorem State.tapPump_binding (n : Nat) (s : State) : (State.tapPump n s).tap.binding = s.tap.binding := by
  induction n generalizing s with
  | zero => rfl
  | succ n ih =>
    unfold State.tapPump
    split
    · exact (ih _).trans s.tapMove_binding
    · rfl

/-- UNBIND_TAP removes the binding (R47). -/
theorem State.unbind_binding (s : State) : s.unbind.tap.binding = none := by
  unfold State.unbind
  split
  · rfl
  · exact State.tapPump_binding _ _

/-! ## A block's frames (R44) -/

/-- A tap with nothing to place and no frames held makes no move. -/
theorem State.tapMove_idle (s : State) (ho : s.tap.outbox = []) (hh : s.tap.hold = []) : s.tapMove = (s, false) := by
  simp only [State.tapMove, ho, hh]

/-- A tap slot that takes no frames is HOST_OWNED or closing. -/
theorem TapSlot.takes_eq_false (x : TapSlot) (h : x.view = .hostOwned ∨ x.view = .closing) : x.takes = false := by
  rcases h with h | h <;> simp [TapSlot.takes, h]

/-- The next frames of the hold buffer: written while there is room into a slot that takes them, and dropped at one that
does not (R44, log 64). -/
theorem State.tapMove_frames (s : State) (v w : Fin 16) (p : TapPoint) (b n c : Nat) (ho : s.tap.outbox = [])
    (hh : s.tap.hold ≠ []) (hb : s.tap.binding = some (v, p)) (hw : s.tapWindow = some (w, b, n, c)) :
    let x := s.tap.slot s.tap.fillPos
    let cap := (n - 32) / 8
    let k := min (8 - (4 + x.count) % 8) (min (cap - x.count) s.tap.hold.length)
    s.tapMove = if x.takes then
        if s.room = false then (s, false)
        else
          ({ s with
              link := { s.link with injq := s.link.injq ++
                [{ write := fullWrite (b + n * s.tap.fillPos + 32 + 8 * x.count) (tapBytes (s.tap.hold.take k))
                   origin := .tapData s.tap.fillPos }] }
              tap := s.tap.tookFrames cap k }, true)
      else ({ s with tap := { s.tap with hold := [], closePending := false, gapPending := true } }, true) := by
  intro x cap k
  obtain ⟨f, fs, hf⟩ := List.exists_cons_of_ne_nil hh
  simp only [State.tapMove, ho, hb, hw, hf]
  rw [← hf, s.placeTapItem_data w b n c _ _ _ hw]
  rfl

/-- A slot that is full, or whose hold buffer runs empty with the close pending flag set, closes; frames that are left
are dropped when the next slot takes none (R44, log 32, log 64). -/
theorem Tap.tookFrames_closes (t : Tap) (cap k : Nat) (ends dropped : Bool) :
    let x := t.slot t.fillPos
    let m := x.count + k
    let left := t.hold.drop k
    let after := (t.fillPos + 1) % t.slots.length
    let u := t.setSlot t.fillPos { x with view := .closing, count := m }
    (t.closePending && left.isEmpty) = ends → (!left.isEmpty && !(u.slot after).takes) = dropped →
      (m = cap ∨ ends = true) →
      t.tookFrames cap k = { u with
        hold := if dropped then [] else left, fillPos := after, closePending := t.closePending && !ends && !dropped
        outbox := t.outbox ++ [.close t.fillPos m .ok (ends || dropped)] } := by
  intro x m left after u he hd hm
  subst he hd
  exact if_pos hm

/-- What taking frames leaves of the slot at the fill position and of the hold buffer (R44, log 32, log 64). -/
theorem Tap.tookFrames_cases (t : Tap) (cap k : Nat) :
    let x := t.slot t.fillPos
    let m := x.count + k
    let left := t.hold.drop k
    let after := (t.fillPos + 1) % t.slots.length
    let u := t.setSlot t.fillPos { x with view := .closing, count := m }
    (m ≠ cap → (t.closePending = false ∨ left ≠ []) →
      t.tookFrames cap k = { t.setSlot t.fillPos { x with view := .filling, count := m } with hold := left })
    ∧ ((m = cap ∨ t.closePending = true) → left = [] →
      t.tookFrames cap k = { u with
        hold := [], fillPos := after, closePending := false
        outbox := t.outbox ++ [.close t.fillPos m .ok t.closePending] })
    ∧ (m = cap → left ≠ [] → (u.slot after).takes = true →
      t.tookFrames cap k = { u with
        hold := left, fillPos := after, outbox := t.outbox ++ [.close t.fillPos m .ok false] })
    ∧ (m = cap → left ≠ [] → (u.slot after).takes = false →
      t.tookFrames cap k = { u with
        hold := [], fillPos := after, closePending := false
        outbox := t.outbox ++ [.close t.fillPos m .ok true] }) := by
  intro x m left after u
  refine ⟨fun hm hc => if_neg ?_, fun hm hl => ?_, fun hm hl hx => ?_, fun hm hl hx => ?_⟩
  · rintro (h | h)
    · exact hm h
    · rw [Bool.and_eq_true, List.isEmpty_iff] at h
      exact hc.elim (by simp [h.1]) fun hn => hn h.2
  · have hclose := t.tookFrames_closes cap k t.closePending false (by simp [left, hl]) (by simp [left, hl]) hm
    simpa [left, hl] using hclose
  all_goals have hleft : left.isEmpty = false := by simpa using hl
  · have hclose := t.tookFrames_closes cap k false false
      (show (t.closePending && left.isEmpty) = false by simp [hleft])
      (show (!left.isEmpty && !(u.slot after).takes) = false by simp [hx]) (.inl hm)
    simp only [Bool.not_false, Bool.and_true, Bool.or_false, Bool.false_eq_true, if_false] at hclose
    exact hclose
  · have hclose := t.tookFrames_closes cap k false true
      (show (t.closePending && left.isEmpty) = false by simp [hleft])
      (show (!left.isEmpty && !(u.slot after).takes) = true by simp [hleft, hx]) (.inl hm)
    simpa only [Bool.not_true, Bool.and_false, Bool.false_or, if_true] using hclose

/-- A bound tap and a block's frames (R44). -/
theorem State.tapBlock_bound (s : State) (frames : List (Sample × Sample)) (hb : s.tap.binding ≠ none) :
    s.tapBlock frames
      = if s.tap.hold.isEmpty = false then { s with tap := { s.tap with closePending := true } }
        else if (s.tap.slot s.tap.fillPos).takes then State.tapPump 64 { s with tap := { s.tap with hold := frames } }
        else { State.tapPump 64 s with tap := (State.tapPump 64 s).tap.markGap } := by
  unfold State.tapBlock
  split
  next h => exact absurd h hb
  next => rfl

/-- A bound tap takes a block's frames: dropped whole behind frames that are held, placed at a slot that takes them, and
dropped with the gap pending flag at one that does not (R44). -/
theorem State.tapBlock_cases (s : State) (frames : List (Sample × Sample)) :
    (s.tap.binding = none → s.tapBlock frames = s)
    ∧ (s.tap.binding ≠ none → s.tap.hold ≠ [] →
        s.tapBlock frames = { s with tap := { s.tap with closePending := true } })
    ∧ (s.tap.binding ≠ none → s.tap.hold = [] → (s.tap.slot s.tap.fillPos).takes = true →
        s.tapBlock frames = State.tapPump 64 { s with tap := { s.tap with hold := frames } })
    ∧ (s.tap.binding ≠ none → s.tap.hold = [] → (s.tap.slot s.tap.fillPos).takes = false → s.tap.outbox = [] →
        s.tapBlock frames = { s with tap := { s.tap with gapPending := true } }) := by
  refine ⟨fun hb => by simp only [State.tapBlock, hb], fun hb hh => ?_, fun hb hh hx => ?_, fun hb hh hx ho => ?_⟩
  all_goals rw [s.tapBlock_bound frames hb]
  · exact if_pos (by simpa using hh)
  · rw [if_neg (by simp [hh]), if_pos hx]
  · have hidle : State.tapPump 64 s = s := by simp [State.tapPump, s.tapMove_idle ho hh]
    rw [if_neg (by simp [hh]), if_neg (by simp [hx]), hidle]
    simp only [Tap.markGap, ho, List.getLast?_nil]

/-- Settles O26: the answers of BIND_TAP and UNBIND_TAP, what unbinding leaves, and the moves of a bound tap. -/
theorem tapBinding : Obligations.TapBinding := by
  refine ⟨?bind, ?unbind, State.unbind_binding, ?unbound, tapDataItems_succ, ?data, ?lastWrite, ?block,
    fun _ _ => ⟨rfl, rfl⟩, ?move, ?took, fun _ _ _ => ⟨rfl, rfl⟩, ?close⟩
  case bind =>
    intro s index point h
    refine ⟨fun hbad => ?_, fun i p b n c hi hp hw => ?_⟩
    · have hc := cmdBindTap_badArg index point (s.handOver 0x08 index [point])
        (by simpa only [State.handOver_window] using hbad)
      exact congrArg Host.Outcome.next (s.runHost_answered id h rfl hc)
    · have hc := cmdBindTap_tap index point (s.handOver 0x08 index [point]) i p b n c hi hp
        ((s.handOver_window ..).trans hw)
      refine ⟨fun hb => ?_, fun hb => ?_⟩
      · have hsome : s.tap.binding.isSome = true := Option.isSome_iff_ne_none.mpr hb
        exact congrArg Host.Outcome.next (s.runHost_answered id h rfl (hc.trans (if_pos hsome)))
      · have hnone : ¬ s.tap.binding.isSome = true := by simp [hb]
        exact congrArg Host.Outcome.next (s.runHost_answered
          (fun u => { u with tap := { u.tap with
            binding := some (i, p), fillPos := 0, gapPending := false, closePending := false } }) h rfl
          (hc.trans (if_neg hnone)))
  case unbind =>
    intro s h
    refine ⟨fun hb => ?_, fun hb => ?_⟩
    · have hnone : ¬ s.tap.binding.isSome = true := by simp [hb]
      exact congrArg Host.Outcome.next
        (s.runHost_answered id h rfl (congrArg (done · 0) (if_neg hnone)))
    · have hsome : s.tap.binding.isSome = true := Option.isSome_iff_ne_none.mpr hb
      exact congrArg Host.Outcome.next
        (s.runHost_answered State.unbind h rfl (congrArg (done · 0) (if_pos hsome)))
  case unbound =>
    intro u w b n c hw hl hf x cap holds
    obtain ⟨hbind, hhold, hclose, hgap, hlen, hslot, hout⟩ := u.tap.unbound_spec cap c hl hf
    refine ⟨u.tap.unbound cap c, ?_, hbind, hhold, hclose, hgap, hlen, hslot, hout⟩
    simp only [State.unbind, hw]
    rfl
  case data =>
    intro s w b n c i m fs hw
    exact s.placeTapItem_data w b n c i m fs hw
  case lastWrite =>
    intro s it rest ho hl hu v
    have hq := s.tapEnqueue_unbinding it rest ho hl hu
    exact ⟨fun hr => congrArg Host.Outcome.next (hq.trans (if_pos hr)),
      fun hr => congrArg Host.Outcome.next (hq.trans (if_neg hr))⟩
  case block =>
    intro s frames x
    obtain ⟨hfree, hheld, htakes, hdrops⟩ := s.tapBlock_cases frames
    exact ⟨hfree, hheld, fun hb hh hx => htakes hb hh (x.takes_iff.mpr hx),
      fun hb hh hx => hdrops hb hh (x.takes_eq_false hx)⟩
  case move =>
    intro s x
    refine ⟨fun it rest ho => ?_, s.tapMove_idle, ?_⟩
    · by_cases hl : s.link.injq.length < 16
      · rw [if_pos hl, s.tapMove_outbox it rest ho hl]
      · simp [State.tapMove, ho, s.room_eq_false.mpr (Nat.le_of_not_lt hl), hl]
    · intro v w p b n c ho hh hb hw cap k
      have hm := s.tapMove_frames v w p b n c ho hh hb hw
      exact ⟨fun hx hl => hm.trans ((if_pos (x.takes_iff.mpr hx)).trans (if_pos (s.room_eq_false.mpr hl))),
        fun hx hl => hm.trans ((if_pos (x.takes_iff.mpr hx)).trans (if_neg (by simp [s.room_iff.mpr hl]))),
        fun hx => hm.trans (if_neg (Bool.eq_false_iff.mp (x.takes_eq_false hx)))⟩
  case took =>
    intro t cap k x m left after u
    obtain ⟨hfills, hcloses, hnext, hdrops⟩ := t.tookFrames_cases cap k
    exact ⟨hfills, hcloses, fun hm hl hx => hnext hm hl ((u.slot after).takes_iff.mpr hx),
      fun hm hl hx => hdrops hm hl ((u.slot after).takes_eq_false hx)⟩
  case close =>
    intro s w b n c k m status gapAfter hw h flags
    exact s.placeTapItem_close w b n c k m status gapAfter hw

end Sys2Proof.Machine
end

