-- ==== Sys2Proof/Proofs/Unpack.lean ====
section
/-! SUPPORT. The unpacker of a path (R36, R37): a format that a source hands over, a frame that moves into the FIFO, and
the statement about them, the carriage frames (R33) and STREAM_IDLE (R39). -/

namespace Sys2Proof.Machine

open Sys2Proof

/-! ## Paths and rings -/

/-- A ring and a path are put in their places in either order. -/
theorem State.setPath_setRing (s : State) (w : Fin 16) (q : Option Ring) (p : PathId) (r : PathRec) :
    (s.setRing w q).setPath p r = (s.setPath p r).setRing w q := by cases p <;> rfl

/-- Putting a path record back where it stands changes nothing. -/
theorem State.setPath_path (s : State) (p : PathId) : s.setPath p (s.path p) = s := by cases p <;> rfl

/-- Putting a path in its place keeps the rings. -/
theorem State.ring_setPath (s : State) (p : PathId) (r : PathRec) (w : Fin 16) : (s.setPath p r).ring w = s.ring w := by
  cases p <;> rfl

/-- Placing a waiting slot return keeps the paths. -/
theorem State.placeReturn_path (s : State) (p : PathId) : s.placeReturn.path p = s.path p := by
  unfold State.placeReturn
  split
  · rfl
  · split
    · rfl
    · split <;> rfl

/-- A slot that enters RETURNING keeps the paths. -/
theorem State.enterReturning_path (s : State) (w : Fin 16) (i : Nat) (status : StreamStatus) (len : Nat) (p : PathId) :
    (s.enterReturning w i status len).path p = s.path p := by
  unfold State.enterReturning
  split
  · rfl
  · dsimp only
    split
    · exact State.placeReturn_path _ p
    · rfl

/-! ## Formats (R92, R93) -/

/-- Zeroing the detector energies keeps the paths. -/
theorem State.zeroEnergiesFor_path (s : State) (p q : PathId) : (s.zeroEnergiesFor p).path q = s.path q := by
  unfold State.zeroEnergiesFor
  split <;> rfl

/-- Zeroing the detector energies keeps the rings. -/
theorem State.zeroEnergiesFor_rings (s : State) (p : PathId) : (s.zeroEnergiesFor p).rings = s.rings := by
  unfold State.zeroEnergiesFor
  split <;> rfl

/-- Adopting a held format: the path record takes it, and the rings stay (R93). -/
theorem State.adoptFormat_held (s : State) (p : PathId) (f : Format) (h : (s.path p).held = some f) :
    (s.adoptFormat p).path p = (s.path p).adopt f ∧ (s.adoptFormat p).rings = s.rings := by
  simp only [State.adoptFormat, h]
  exact ⟨by simp [State.zeroEnergiesFor_path], by simp [State.zeroEnergiesFor_rings]⟩

/-- A format handed over that the path has already: nothing is pending any more (R92). -/
theorem State.handFormat_same (s : State) (p : PathId) (f : Format) (h : (s.path p).format = some f) :
    s.handFormat p f = s.setPath p { s.path p with formatPending := false, held := none } := if_pos h

/-- Another format is adopted at once by a path with an empty FIFO or without a format (R93). -/
theorem State.handFormat_adopts (s : State) (p : PathId) (f : Format) (h : (s.path p).format ≠ some f)
    (he : (s.path p).fifo = [] ∨ (s.path p).format = none) :
    (s.handFormat p f).path p = { s.path p with formatPending := true, held := some f }.adopt f
      ∧ (s.handFormat p f).rings = s.rings := by
  have hu : s.handFormat p f
      = (s.setPath p { s.path p with formatPending := true, held := some f }).adoptFormat p :=
    (if_neg h).trans (if_pos he)
  obtain ⟨hpath, hrings⟩ := (s.setPath p { s.path p with formatPending := true, held := some f }).adoptFormat_held p f
    (by rw [State.path_setPath_same])
  rw [State.path_setPath_same] at hpath
  rw [hu]
  exact ⟨hpath, by rw [hrings, State.setPath_rings]⟩

/-- Another format is held back while the FIFO of a path that has a format holds frames (R93). -/
theorem State.handFormat_waits (s : State) (p : PathId) (f : Format) (h : (s.path p).format ≠ some f)
    (hn : (s.path p).format ≠ none) (he : (s.path p).fifo ≠ []) :
    s.handFormat p f = s.setPath p { s.path p with formatPending := true, held := some f } :=
  (if_neg h).trans (if_neg (not_or.mpr ⟨he, hn⟩))

/-! ## One step of the unpacker (R36, R37) -/

/-- When the unpacker can move a frame (R36). -/
theorem State.unpackReady_iff (s : State) (p : PathId) (r : Ring) :
    s.unpackReady p r = true ↔ ((r.slot r.unpackPos).state = .sealed ∨ (r.slot r.unpackPos).state = .unpacking)
      ∧ (s.path p).fifo.length < 2048 ∧ (s.path p).formatPending = false := by
  simp [State.unpackReady, and_assoc]

/-- The slot record the unpacker has moved a frame out of (R36). -/
def SlotRec.unpacked (x : SlotRec) : SlotRec := { x with state := .unpacking, skip := false, moved := x.moved + 1 }

/-- A frame moves from a slot into the FIFO, and the last good frame sends the slot back (R36). -/
theorem State.moveFrame_eq (s : State) (p : PathId) (w : Fin 16) (i : Nat) (f : Frame) (r : Ring)
    (hr : s.ring w = some r) :
    s.moveFrame p w i f
      = (let t := (s.setPath p { s.path p with fifo := (s.path p).fifo ++ [f] }).setRing w
           (some (r.setSlot i (r.slot i).unpacked))
         if (r.slot i).moved + 1 = (r.slot i).good then t.enterReturning w i (r.slot i).outcome (r.slot i).len
         else t) := by
  simp only [State.moveFrame, hr]
  rfl

/-- The path record after a frame has moved. -/
theorem State.moveFrame_path (s : State) (p : PathId) (w : Fin 16) (i : Nat) (f : Frame) (r : Ring)
    (hr : s.ring w = some r) :
    (s.moveFrame p w i f).path p = { s.path p with fifo := (s.path p).fifo ++ [f] } := by
  have hset (q : Option Ring) (g : PathRec) : ((s.setPath p g).setRing w q).path p = g := by
    rw [← State.setPath_setRing, State.path_setPath_same]
  rw [s.moveFrame_eq p w i f r hr]
  dsimp only
  split
  · rw [State.enterReturning_path, hset]
  · exact hset _ _

/-- With no slot ready at the unpack position only the position moves on over skipped slots (R36). -/
theorem State.unpackStep_waits (s : State) (p : PathId) (w : Fin 16) (r : Ring) (hf : s.feeding p = some w)
    (hr : s.ring w = some r) (h : s.unpackReady p r.arrive = false) :
    s.unpackStep p = s.setRing w (some r.arrive) := by
  simp only [State.unpackStep, hf, hr, h, if_true]

/-- With a slot ready, the format of a carriage frame is handed over at its start; then a frame moves unless a format is
pending (R36, R37). -/
theorem State.unpackStep_ready (s : State) (p : PathId) (w : Fin 16) (r : Ring) (c : Carriage) (k : Nat)
    (hf : s.feeding p = some w) (hr : s.ring w = some r) (h : s.unpackReady p r.arrive = true) :
    let a := r.arrive
    let x := a.slot a.unpackPos
    let u := s.setRing w (some a)
    let v := if k = 0 then u.handFormat p c.format else u
    locateFrame (parseSlot (x.page.getD []) x.len).1 x.moved = some (c, k) →
      s.unpackStep p
        = if (v.path p).formatPending then v else v.moveFrame p w a.unpackPos (c.frame (x.page.getD []) k) := by
  intro a x u v hl
  simp only [State.unpackStep, hf, hr, h, Bool.true_eq_false, if_false]
  rw [hl]

/-- A frame within a carriage frame, or of the path's own format, moves into the FIFO (R36). -/
theorem State.unpackStep_moves (s : State) (p : PathId) (w : Fin 16) (r : Ring) (c : Carriage) (k : Nat)
    (hf : s.feeding p = some w) (hr : s.ring w = some r) (h : s.unpackReady p r.arrive = true)
    (hk : k ≠ 0 ∨ (s.path p).format = some c.format) :
    let a := r.arrive
    let x := a.slot a.unpackPos
    locateFrame (parseSlot (x.page.getD []) x.len).1 x.moved = some (c, k) →
      s.unpackStep p
        = ((s.setRing w (some a)).setPath p { s.path p with held := if k = 0 then none else (s.path p).held }).moveFrame
            p w a.unpackPos (c.frame (x.page.getD []) k) := by
  intro a x hl
  obtain ⟨-, -, hp⟩ := (s.unpackReady_iff p a).mp h
  have hv : (if k = 0 then (s.setRing w (some a)).handFormat p c.format else s.setRing w (some a))
      = (s.setRing w (some a)).setPath p { s.path p with held := if k = 0 then none else (s.path p).held } := by
    by_cases h0 : k = 0
    · have hsame : (s.path p).format = some c.format := hk.resolve_left (not_not.mpr h0)
      rw [if_pos h0, (s.setRing w (some a)).handFormat_same p c.format hsame, if_pos h0, ← hp]
      rfl
    · simp only [if_neg h0]
      exact ((s.setRing w (some a)).setPath_path p).symm
  rw [s.unpackStep_ready p w r c k hf hr h hl, hv, State.path_setPath_same]
  exact if_neg (by simp [hp])

/-- The first frame of a carriage frame whose format the path adopts at once moves into the empty FIFO (R37, R93). -/
theorem State.unpackStep_adopts (s : State) (p : PathId) (w : Fin 16) (r : Ring) (c : Carriage)
    (hf : s.feeding p = some w) (hr : s.ring w = some r) (h : s.unpackReady p r.arrive = true)
    (hn : (s.path p).format ≠ some c.format) (he : (s.path p).fifo = [] ∨ (s.path p).format = none) :
    let a := r.arrive
    let x := a.slot a.unpackPos
    locateFrame (parseSlot (x.page.getD []) x.len).1 x.moved = some (c, 0) →
      (s.unpackStep p).path p
        = { ({ s.path p with formatPending := true, held := some c.format } : PathRec).adopt c.format with
            fifo := [c.frame (x.page.getD []) 0] } := by
  intro a x hl
  obtain ⟨hpath, hrings⟩ := (s.setRing w (some a)).handFormat_adopts p c.format hn he
  have hring : ((s.setRing w (some a)).handFormat p c.format).ring w = some a :=
    (congrArg (getAt · w) hrings).trans (State.ring_setRing_same s w (some a))
  rw [s.unpackStep_ready p w r c 0 hf hr h hl, if_pos rfl, hpath]
  refine (congrArg (State.path · p) (if_neg (by simp [PathRec.adopt, PathRec.enterPrefill]))).trans ?_
  rw [State.moveFrame_path _ p w _ _ a hring, hpath]
  rfl

/-- A format that the path holds back stops the unpacker at the start of its carriage frame (R37, R93). -/
theorem State.unpackStep_holds (s : State) (p : PathId) (w : Fin 16) (r : Ring) (c : Carriage)
    (hf : s.feeding p = some w) (hr : s.ring w = some r) (h : s.unpackReady p r.arrive = true)
    (hn : (s.path p).format ≠ none) (hd : (s.path p).format ≠ some c.format) (he : (s.path p).fifo ≠ []) :
    let a := r.arrive
    let x := a.slot a.unpackPos
    locateFrame (parseSlot (x.page.getD []) x.len).1 x.moved = some (c, 0) →
      s.unpackStep p
        = (s.setRing w (some a)).setPath p { s.path p with formatPending := true, held := some c.format } := by
  intro a x hl
  rw [s.unpackStep_ready p w r c 0 hf hr h hl, if_pos rfl,
    (s.setRing w (some a)).handFormat_waits p c.format hd hn he, State.path_setPath_same]
  exact if_pos rfl

/-! ## The idle test (R39) -/

/-- The source of a window that feeds a path becomes not present when the test is met (R39). -/
theorem State.idleOccurs_iff (s : State) (w : Fin 16) (r : Ring) (p : PathId) (hr : s.ring w = some r)
    (hf : r.feeds = some p) :
    s.idleOccurs w = true ↔ r.idle = false ∧ 100 ≤ r.handoverCount ∧ s.buffered p = 0 := by
  simp [State.idleOccurs, hr, hf, and_assoc]

/-- Settles O46: the carriage frames of a page, the steps of the unpacker, and the idle test. -/
theorem unpackerAndIdle : Obligations.UnpackerAndIdle := by
  refine ⟨parseCarriage_iff, ?payload, fun cs m k c => ⟨goodFrames_eq_sum cs, locateFrame_iff cs m k c⟩,
    fun c page k => ⟨c.frame_length page k, c.frame_sample page k⟩, ?unfed, ?step, ?idle⟩
  case payload =>
    intro page len hlen
    refine parsePayload_spec 128 page 16 (16 + len) (fun o c hc => ?_) (by omega) (by omega)
    obtain ⟨-, -, ⟨hpos, -⟩, -, ⟨hframes, -⟩, -, hchans, -, -, -, hstart, hend⟩ :=
      (parseCarriage_iff page o (16 + len) c).mp hc
    exact ⟨hstart, hchans ▸ hpos, hframes, by unfold Carriage.size; omega⟩
  case unfed =>
    intro s p hf
    exact congrArg Host.Outcome.next (by simp only [State.unpackStep, hf])
  case step =>
    intro s p w r hf hr a x ready
    have hready : s.unpackReady p a = true ↔ ready := s.unpackReady_iff p a
    refine ⟨fun hn => congrArg Host.Outcome.next (s.unpackStep_waits p w r hf hr (by simpa using mt hready.mp hn)), ?_⟩
    intro c k hy hl f g slot
    refine ⟨fun hk => ⟨_, rfl, ?path, fun hm => ?more, fun hm => ?last⟩, fun h0 hn he => ⟨_, rfl, ?adopts⟩,
      fun h0 hn hd he => ?holds⟩
    case adopts =>
      subst h0
      rw [s.unpackStep_adopts p w r c hf hr (hready.mpr hy) hn he hl]
      exact ⟨rfl, rfl, rfl, rfl, rfl⟩
    case holds =>
      subst h0
      exact congrArg Host.Outcome.next (s.unpackStep_holds p w r c hf hr (hready.mpr hy) hn hd he hl)
    all_goals
      have hring (h : PathRec) : ((s.setRing w (some a)).setPath p h).ring w = some a :=
        (State.ring_setPath ..).trans (State.ring_setRing_same ..)
      rw [s.unpackStep_moves p w r c k hf hr (hready.mpr hy) hk hl]
    case path => rw [State.moveFrame_path _ p w _ _ a (hring _), State.path_setPath_same]
    all_goals
      rw [State.moveFrame_eq _ p w _ _ a (hring _), State.path_setPath_same, State.setPath_setPath,
        State.setPath_setRing, State.setRing_setRing]
    case more => exact if_neg hm
    case last => exact if_pos hm
  case idle =>
    intro s w r p hr hf
    have ht := s.idleOccurs_iff w r p hr hf
    refine ⟨fun hc hb hi => ?_, fun hno => ?_⟩
    · refine congrArg Host.Outcome.next ?_
      rw [if_pos (ht.mpr ⟨hi, hc, hb⟩)]
      simp only [hr]
    · refine congrArg Host.Outcome.next (if_neg (mt ht.mp ?_))
      rintro ⟨hi, hc, hb⟩
      rcases hno with h | h | h
      · omega
      · omega
      · rw [hi] at h; cases h

end Sys2Proof.Machine
end

