-- ==== Sys2Proof/Proofs/PathParts.lean ====
section
/-! SUPPORT. The parts of a block before the tuner's: a lane's silence count (R56), what a path's part reads, and the
block of its tracker by the tracker's state (R38, R39, R93 to R106). -/

namespace Sys2Proof.Machine

open Sys2Proof

/-! ## Lanes (R56) -/

/-- A lane's part of a block, by whether a frame came and by the count so far (R56). -/
theorem State.laneBlock_cases (s : State) (l : Fin 4) :
    let r := s.lane l
    (r.arrived = true → s.laneBlock l = s.setLane l { r with silence := 0, arrived := false })
    ∧ (r.arrived = false → r.silence < 3 → s.laneBlock l = s.setLane l { r with silence := r.silence + 1 })
    ∧ (r.arrived = false → r.silence = 3 → s.laneBlock l = (s.setLane l { r with silence := 4 }).laneLost l)
    ∧ (r.arrived = false → 4 ≤ r.silence → s.laneBlock l = s) := by
  intro r
  have hquiet (h : r.arrived = false) : ¬ (s.lane l).arrived = true := Bool.eq_false_iff.mp h
  refine ⟨fun h => if_pos h, fun h hs => ?_, fun h hs => ?_, fun h hs => (if_neg (hquiet h)).trans (if_pos hs)⟩
  · have h4 : ¬ 4 ≤ r.silence := by omega
    have hne : r.silence + 1 ≠ 4 := by omega
    exact (if_neg (hquiet h)).trans ((if_neg h4).trans (if_neg hne))
  · have h4 : ¬ 4 ≤ r.silence := by omega
    have heq : r.silence + 1 = 4 := by omega
    refine (if_neg (hquiet h)).trans ((if_neg h4).trans ((if_pos heq).trans ?_))
    rw [show (s.lane l).silence + 1 = 4 from heq]

/-! ## The opening of a path's part (R38, R39, R93, R95) -/

/-- The buffered count is the FIFO fill, with the sealed run of a window that feeds the path (R38, R95). -/
theorem State.buffered_eq (s : State) (p : PathId) :
    (s.feeding p = none → s.buffered p = (s.path p).fifo.length)
    ∧ (∀ w r, s.feeding p = some w → s.ring w = some r →
      s.buffered p = (s.path p).fifo.length + sealedRun r.slots r.slots.length r.unpackPos) := by
  refine ⟨fun h => by simp only [State.buffered, h, Nat.add_zero], fun w r h hr => ?_⟩
  simp only [State.buffered, h, hr]
  rfl

/-- The handover count of the feeding window rises, and the idle test reads B as the block finds it (R39, log 26). -/
theorem State.countHandover_cases (s : State) (p : PathId) :
    (s.feeding p = none → s.countHandover p = s)
    ∧ (∀ w r, s.feeding p = some w → s.ring w = some r →
      s.countHandover p = s.setRing w (some { r with
        handoverCount := r.handoverCount + 1
        idle := r.idle || (decide (99 ≤ r.handoverCount) && decide (s.buffered p = 0)) })) := by
  refine ⟨fun h => by simp only [State.countHandover, h], fun w r h hr => ?_⟩
  simp only [State.countHandover, h, hr,
    show (100 ≤ r.handoverCount + 1) = (99 ≤ r.handoverCount) from propext (by omega)]

/-- Taking B and e keeps the zone records. -/
theorem State.takeB_zone (s : State) (p : PathId) (z : Zone) : (s.takeB p).zone z = s.zone z := by
  unfold State.takeB
  exact State.zone_setPath ..

/-- Every zone attached to a path is silent (R93). -/
theorem State.attachedSilent_iff (s : State) (p : PathId) :
    s.attachedSilent p = true ↔ ∀ z, (s.zone z).attached = some p → (s.zone z).ramp = -240 := by
  have hzone (z : Zone) : (!s.attachedTo z p || decide ((s.zone z).ramp = -240)) = true
      ↔ ((s.zone z).attached = some p → (s.zone z).ramp = -240) := by
    simp [State.attachedTo, Classical.or_iff_not_imp_left]
  refine (Bool.and_eq_true ..).to_iff.trans ((and_congr (hzone .main) (hzone .zone2)).trans ?_)
  exact ⟨fun h z => by cases z; exacts [h.1, h.2], fun h => ⟨h .main, h .zone2⟩⟩

/-- A path adopts in silence, read before the part's opening (R93). -/
theorem State.silentAdoption_opened (s : State) (p : PathId) :
    ((s.countHandover p).takeB p).silentAdoption p = true ↔
      (s.path p).formatPending = true ∧ ∀ z, (s.zone z).attached = some p → (s.zone z).ramp = -240 := by
  have hzone (z : Zone) : ((s.countHandover p).takeB p).zone z = s.zone z :=
    (State.takeB_zone ..).trans (State.countHandover_zone ..)
  rw [State.silentAdoption, Bool.and_eq_true, State.attachedSilent_iff, s.takeB_path p]
  simp only [hzone]

/-- The part of a free path: a block of silence (R110). -/
theorem State.pathBlock_free (s : State) (p : PathId) (h : (s.path p).binding = none) :
    s.pathBlock p
      = s.setPath p { s.path p with yielded := List.replicate 48 [], yieldFormat := none, adoptedNow := false } := by
  unfold State.pathBlock
  split
  next => rfl
  next hb =>
    rw [h] at hb
    cases hb

/-- The part of a path that is bound: it adopts in silence, or its tracker's block is made (R93, R110). -/
theorem State.pathBlock_bound (s : State) (p : PathId) (h : (s.path p).binding ≠ none) :
    s.pathBlock p
      = (let u := (s.countHandover p).takeB p
         if u.silentAdoption p then (u.adoptFormat p).setPath p ((u.adoptFormat p).path p).yieldSilence
         else u.trackerBlock p) := by
  unfold State.pathBlock
  split
  next hb => exact absurd hb h
  next => rfl

/-! ## What a bound path reads of its source (R70, R95, R99) -/

/-- The entry a path is bound to. -/
theorem State.pathSource_bound (s : State) (p : PathId) (e : Fin 12) (h : (s.path p).binding = some e) :
    s.pathSource p = s.source e := by simp only [State.pathSource, h]

/-- The kind of the entry a path is bound to. -/
theorem State.pathKind_bound (s : State) (p : PathId) (e : Fin 12) (h : (s.path p).binding = some e) :
    s.pathKind p = (s.source e).kind := by simp only [State.pathKind, h]

/-- The target fill of a bound path (R95, R99). -/
theorem State.fillTarget_bound (s : State) (p : PathId) (e : Fin 12) (h : (s.path p).binding = some e) :
    s.fillTarget p = if (s.source e).kind = .tuner then 96 else (s.source e).fillT := by
  rw [State.fillTarget, s.pathKind_bound p e h, s.pathSource_bound p e h]

/-- B and e of a bound path's block (R95). -/
theorem State.takeB_bound (s : State) (p : PathId) (i : Fin 12) (h : (s.path p).binding = some i) :
    let r := s.path p
    let x := r.tracker
    let target := if (s.source i).kind = .tuner then 96 else (s.source i).fillT
    let e := max (-1024) (min 1023 ((s.buffered p : Int) - (target : Int)))
    s.takeB p = s.setPath p { r with
      adoptedNow := false
      tracker := { x with err := e, last := { b := s.buffered p, e := e, c := x.corr, g := x.gain, i := x.integ } } } := by
  intro r x target e
  have he : s.blockError p = e := by
    rw [State.blockError, clampInt_eq _ _ _ (by decide), s.fillTarget_bound p i h]
  rw [State.takeB, he]

/-- PREFILL can be left: a format, the fill reached and the source present (R99). -/
theorem State.prefillLeaves_iff (s : State) (p : PathId) : s.prefillLeaves p = true ↔
    (s.path p).format ≠ none ∧ s.fillTarget p ≤ s.buffered p ∧ s.present p = true := by
  simp [State.prefillLeaves, Option.isSome_iff_ne_none, and_assoc]

/-! ## A tracker's block by its state (R99 to R106) -/

/-- PREFILL is left for SYNC by a tuner path and for ACQUIRE by any other, and else yields silence (R99, R100, R106). -/
theorem State.trackerBlock_prefill (s : State) (p : PathId) (h : (s.path p).tracker.state = .prefill) :
    let r := s.path p
    let e := s.pathSource p
    s.trackerBlock p
      = if s.prefillLeaves p = false then s.setPath p r.yieldSilence
        else if s.pathKind p = .tuner then (s.setPath p { r with tracker := r.tracker.startSync }).consumeBlock p
        else (s.setPath p { r with tracker := r.tracker.startAcquire e.gainG e.ratchetH }).acquireBlock p := by
  simp only [State.trackerBlock, h]

/-- HOLD ends when the source is present again (R105). -/
theorem State.trackerBlock_hold (s : State) (p : PathId) (h : (s.path p).tracker.state = .hold) :
    s.trackerBlock p
      = if s.present p then s.setPath p (s.path p).enterPrefill.yieldSilence else s.holdBlock p := by
  simp only [State.trackerBlock, h]

/-- A tracker that runs while its source is not present enters HOLD (R105). -/
theorem State.trackerBlock_absent (s : State) (p : PathId)
    (h : (s.path p).tracker.state = .acquire ∨ (s.path p).tracker.state = .track
      ∨ (s.path p).tracker.state = .sync) (hp : s.present p = false) :
    s.trackerBlock p
      = (s.setPath p { s.path p with tracker := { (s.path p).tracker with state := .hold } }).holdBlock p := by
  have hn : ¬ s.present p = true := Bool.eq_false_iff.mp hp
  rcases h with h | h | h
  all_goals
    simp only [State.trackerBlock, h]
    exact if_neg hn

/-- A tracker that runs while its source is present makes its state's own block (R98, R106). -/
theorem State.trackerBlock_present (s : State) (p : PathId) :
    let st := (s.path p).tracker.state
    (st = .acquire → s.present p = true → s.trackerBlock p = s.acquireBlock p)
    ∧ (st = .track → s.present p = true → s.trackerBlock p = s.trackBlock p)
    ∧ (st = .sync → s.present p = true → s.trackerBlock p = s.consumeBlock p) := by
  intro st
  refine ⟨fun h hp => ?_, fun h hp => ?_, fun h hp => ?_⟩
  all_goals
    simp only [State.trackerBlock, show (s.path p).tracker.state = _ from h]
    exact if_pos hp

/-! ## ACQUIRE (R97, R98, R100) -/

/-- The checkpoints of the acquire timer (R100). -/
theorem checkpoint_iff (n : Nat) : checkpoint n = true ↔ n ∈ [224, 192, 160, 128, 96, 64, 32] := by
  simp [checkpoint, or_assoc]

/-- The end of a block in ACQUIRE: TRACK at 0, the gain test at a checkpoint, and else only the timer (R100). -/
theorem Tracker.acquireTick_cases (z : Tracker) (h w : Nat) :
    let timer := z.timer - 1
    (timer = 0 → z.acquireTick h w = { z with timer := 0, state := .track, gain := 0, slips := 0, ratchet := true })
    ∧ (timer ∉ [0, 224, 192, 160, 128, 96, 64, 32] → z.acquireTick h w = { z with timer := timer })
    ∧ (timer ∈ [224, 192, 160, 128, 96, 64, 32] →
        let g := if z.err.natAbs ≤ w then z.gain - 1 else z.gain
        z.acquireTick h w = { z with timer := timer, gain := g, ratchet := z.ratchet || decide (g ≤ h) }) := by
  intro timer
  refine ⟨fun h0 => if_pos h0, fun hn => ?_, fun hm => ?_⟩
  · rw [List.mem_cons, not_or] at hn
    obtain ⟨h0, hc⟩ := hn
    exact (if_neg h0).trans (if_neg (mt (checkpoint_iff timer).mp hc))
  · have h0 : timer ≠ 0 := by
      rintro h0
      rw [h0] at hm
      exact absurd hm (by decide)
    refine (if_neg h0).trans ((if_pos ((checkpoint_iff timer).mpr hm)).trans ?_)
    simp only [withinLock, decide_eq_true_eq]
    rfl

/-- A block in ACQUIRE runs the loop and consumes; a tracker that has left ACQUIRE is done, and any other ends its block
(R97, R98, R100). -/
theorem State.acquireBlock_eq (s : State) (p : PathId) :
    let e := s.pathSource p
    let r := s.path p
    let v := (s.setPath p { r with tracker := r.tracker.loop e.kp e.ki }).consumeBlock p
    let t := (v.path p).tracker.acquireTick e.ratchetH e.lockW
    let u := v.setPath p { v.path p with tracker := t }
    s.acquireBlock p
      = if (v.path p).tracker.state = .acquire then
          (if t.state = .track then u.raise .tracker p.code (trackerPayload p (v.path p) .locked .track) else u)
        else v := rfl

/-- A block in ACQUIRE by the timer it leaves (R100). -/
theorem State.acquireBlock_cases (s : State) (p : PathId) (src : SourceEntry) (hsrc : s.pathSource p = src) :
    let r := s.path p
    let v := (s.setPath p { r with tracker := r.tracker.loop src.kp src.ki }).consumeBlock p
    let z := (v.path p).tracker
    let timer := z.timer - 1
    let ends (t : Tracker) : State := v.setPath p { v.path p with tracker := t }
    (z.state ≠ .acquire → s.acquireBlock p = v)
    ∧ (z.state = .acquire → timer = 0 →
      s.acquireBlock p = (ends { z with timer := 0, state := .track, gain := 0, slips := 0, ratchet := true }).raise
        .tracker p.code (trackerPayload p (v.path p) .locked .track))
    ∧ (z.state = .acquire → timer ∉ [0, 224, 192, 160, 128, 96, 64, 32] →
      s.acquireBlock p = ends { z with timer := timer })
    ∧ (z.state = .acquire → timer ∈ [224, 192, 160, 128, 96, 64, 32] →
      let g := if z.err.natAbs ≤ src.lockW then z.gain - 1 else z.gain
      s.acquireBlock p = ends { z with
        timer := timer, gain := g, ratchet := z.ratchet || decide (g ≤ src.ratchetH) }) := by
  subst hsrc
  intro r v z timer ends
  have hblock := s.acquireBlock_eq p
  obtain ⟨hlocks, hfalls, hchecks⟩ := z.acquireTick_cases (s.pathSource p).ratchetH (s.pathSource p).lockW
  have hticks (ha : z.state = .acquire) (t : Tracker)
      (ht : z.acquireTick (s.pathSource p).ratchetH (s.pathSource p).lockW = t) :
      s.acquireBlock p = if t.state = .track then
        (ends t).raise .tracker p.code (trackerPayload p (v.path p) .locked .track) else ends t := by
    subst ht
    exact hblock.trans (if_pos ha)
  have hstays (ha : z.state = .acquire) : ¬ z.state = .track := by rw [ha]; decide
  exact ⟨fun hn => hblock.trans (if_neg hn), fun ha h0 => (hticks ha _ (hlocks h0)).trans (if_pos rfl),
    fun ha hm => (hticks ha _ (hfalls hm)).trans (if_neg (hstays ha)),
    fun ha hm => (hticks ha _ (hchecks hm)).trans (if_neg (hstays ha))⟩

/-! ## TRACK (R97, R98, R102) -/

/-- The slip test: a block within 4 x W clears the count, the 16th beyond it is a slip (R102). -/
theorem Tracker.slipTick_cases (t : Tracker) (h w : Nat) :
    (t.err.natAbs ≤ 4 * w → t.slipTick h w = { t with slips := 0 })
    ∧ (4 * w < t.err.natAbs → t.slips < 15 → t.slipTick h w = { t with slips := t.slips + 1 })
    ∧ (4 * w < t.err.natAbs → 15 ≤ t.slips →
      t.slipTick h w = { t with state := .acquire, timer := 256, ratchet := true, gain := h, slips := 0 }) := by
  have hlock : withinLock t.err (4 * w) = true ↔ t.err.natAbs ≤ 4 * w := by simp [withinLock]
  have hout (hw : 4 * w < t.err.natAbs) : ¬ withinLock t.err (4 * w) = true := fun hl => by
    have := hlock.mp hl
    omega
  exact ⟨fun hw => if_pos (hlock.mpr hw), fun hw hs => (if_neg (hout hw)).trans (if_neg (by omega)),
    fun hw hs => (if_neg (hout hw)).trans (if_pos (by omega))⟩

/-- A block in TRACK: the loop, the slip test with its report, then the consumption (R97, R102, log 53). -/
theorem State.trackBlock_eq (s : State) (p : PathId) (t : Tracker)
    (ht : ((s.path p).tracker.loop (s.pathSource p).kp (s.pathSource p).ki).slipTick (s.pathSource p).ratchetH
      (s.pathSource p).lockW = t) :
    let q : PathRec := { s.path p with tracker := t }
    s.trackBlock p
      = (if t.state = .acquire then
          (s.setPath p q).raise .tracker p.code (trackerPayload p q .slip .acquire) else s.setPath p q).consumeBlock p := by
  subst ht
  rfl

/-- A block in TRACK that is no slip (R102). -/
theorem State.trackBlock_stays (s : State) (p : PathId) (t : Tracker)
    (ht : ((s.path p).tracker.loop (s.pathSource p).kp (s.pathSource p).ki).slipTick (s.pathSource p).ratchetH
      (s.pathSource p).lockW = t) (hn : t.state ≠ .acquire) :
    s.trackBlock p = (s.setPath p { s.path p with tracker := t }).consumeBlock p := by
  have hblock := s.trackBlock_eq p t ht
  dsimp only at hblock
  rw [hblock, if_neg hn]

/-- A slip: the report with the values of this block stands before the consumption (R102, log 53). -/
theorem State.trackBlock_slips (s : State) (p : PathId) (t : Tracker)
    (ht : ((s.path p).tracker.loop (s.pathSource p).kp (s.pathSource p).ki).slipTick (s.pathSource p).ratchetH
      (s.pathSource p).lockW = t) (ha : t.state = .acquire) :
    let q : PathRec := { s.path p with tracker := t }
    s.trackBlock p = ((s.setPath p q).raise .tracker p.code (trackerPayload p q .slip .acquire)).consumeBlock p := by
  have hblock := s.trackBlock_eq p t ht
  dsimp only at hblock
  rw [hblock, if_pos ha]

/-- A block in TRACK by the error and the slip count (R102). -/
theorem State.trackBlock_cases (s : State) (p : PathId) (src : SourceEntry) (hsrc : s.pathSource p = src) :
    let r := s.path p
    let x := r.tracker
    let y := x.loop src.kp src.ki
    (x.state = .track → x.err.natAbs ≤ 4 * src.lockW →
      s.trackBlock p = (s.setPath p { r with tracker := { y with slips := 0 } }).consumeBlock p)
    ∧ (x.state = .track → 4 * src.lockW < x.err.natAbs → x.slips < 15 →
      s.trackBlock p = (s.setPath p { r with tracker := { y with slips := x.slips + 1 } }).consumeBlock p)
    ∧ (x.state = .track → 4 * src.lockW < x.err.natAbs → 15 ≤ x.slips →
      let q : PathRec := { r with tracker := { y with
        state := .acquire, timer := 256, ratchet := true, gain := src.ratchetH, slips := 0 } }
      s.trackBlock p
        = ((s.setPath p q).raise .tracker p.code (trackerPayload p q .slip .acquire)).consumeBlock p) := by
  subst hsrc
  intro r x y
  obtain ⟨hwithin, hcounts, hslips⟩ := y.slipTick_cases (s.pathSource p).ratchetH (s.pathSource p).lockW
  have hstays (h : x.state = .track) : x.state ≠ .acquire := by rw [h]; decide
  exact ⟨fun h hw => s.trackBlock_stays p { y with slips := 0 } (hwithin hw) (hstays h),
    fun h hw hs => s.trackBlock_stays p { y with slips := x.slips + 1 } (hcounts hw hs) (hstays h),
    fun _ hw hs => s.trackBlock_slips p
      { y with state := .acquire, timer := 256, ratchet := true, gain := (s.pathSource p).ratchetH, slips := 0 }
      (hslips hw hs) rfl⟩

end Sys2Proof.Machine
end

