-- ==== Sys2Proof/Proofs/BlockParts.lean ====
section
/-! SUPPORT. The tuner's part of a block (R127, R129, R137, R139, R142, R143, R146, R147), and the statement about
the parts of a block that come before the zones'. -/

namespace Sys2Proof.Machine

open Sys2Proof

/-! ## The tuner's part of a block -/

/-- The states in which bursts are used (R129). -/
theorem tunerActive_iff (st : TunerState) :
    tunerActive st = true ↔ st = .tuning ∨ st = .tuned ∨ st = .seeking ∨ st = .scanning := by
  cases st <;> decide

/-- The states in which bursts are not used. -/
theorem tunerActive_eq_false (st : TunerState) (h : ¬ (st = .tuning ∨ st = .tuned ∨ st = .seeking ∨ st = .scanning)) :
    tunerActive st = false := Bool.eq_false_iff.mpr (mt (tunerActive_iff st).mp h)

/-- An amplitude error block: the sum of the pairs' powers lies outside the region's bounds (R143). -/
theorem State.ampError_iff (s : State) :
    let sum := sumNat (s.tuner.pairsOf.map fun q => (q.1.toInt * q.1.toInt + q.2.toInt * q.2.toInt).toNat / 65536)
    s.ampError = true ↔ s.region.ampHigh < sum ∨ sum < s.region.ampLow := by
  intro sum
  show (decide (s.region.ampHigh < sum) || decide (sum < s.region.ampLow)) = true ↔ _
  simp

/-- The silence count of the status lane: held at 0, risen, or at 5 and a fault (R129). -/
theorem State.silenceBlock_cases (s : State) :
    let t := s.tuner
    let silence (n : Nat) : State := { s with tuner := { t with silence := n } }
    ((tunerActive t.state = false ∨ t.statusArrived = true) → s.silenceBlock = silence 0)
    ∧ (tunerActive t.state = true → t.statusArrived = false → t.silence < 4 →
      s.silenceBlock = silence (t.silence + 1))
    ∧ (tunerActive t.state = true → t.statusArrived = false → 4 ≤ t.silence →
      s.silenceBlock = (silence 5).feFault) := by
  intro t silence
  have hon (ha : tunerActive t.state = true) : ¬ tunerActive s.tuner.state = false := by
    rw [show tunerActive s.tuner.state = true from ha]
    decide
  have hquiet (hq : t.statusArrived = false) : ¬ s.tuner.statusArrived = true := Bool.eq_false_iff.mp hq
  refine ⟨fun h => ?_, fun ha hq hs => ?_, fun ha hq hs => ?_⟩
  · by_cases ha : tunerActive s.tuner.state = false
    · exact if_pos ha
    · exact (if_neg ha).trans (if_pos (h.resolve_left ha))
  · have h5 : ¬ 5 ≤ t.silence + 1 := by omega
    exact (if_neg (hon ha)).trans ((if_neg (hquiet hq)).trans (if_neg h5))
  · have h5 : 5 ≤ t.silence + 1 := by omega
    exact (if_neg (hon ha)).trans ((if_neg (hquiet hq)).trans (if_pos h5))

/-- The acknowledgement timer falls, and at its end the request is sent once more or the transaction fails (R127). -/
theorem State.ackBlock_cases (s : State) :
    let t := s.tuner
    (t.openTx = none → s.ackBlock = s)
    ∧ (∀ x, t.openTx = some x →
      (1 < x.timer → s.ackBlock = { s with tuner := { t with openTx := some { x with timer := x.timer - 1 } } })
      ∧ (x.timer ≤ 1 → x.retried = true → s.ackBlock = s.feFault)
      ∧ (x.timer ≤ 1 → x.retried = false → s.ackBlock = { s with tuner := { t with
          openTx := some { x with timer := 2, retried := true }, ctlSent := some x.request } })) := by
  intro t
  refine ⟨fun h => by simp only [State.ackBlock, show s.tuner.openTx = none from h], fun x h => ?_⟩
  have hblock : s.ackBlock = if 1 < x.timer then
      { s with tuner := { t with openTx := some { x with timer := x.timer - 1 } } }
    else if x.retried then s.feFault
    else { s with tuner := { t with
      openTx := some { x with timer := 2, retried := true }, ctlSent := some x.request } } := by
    simp only [State.ackBlock, show s.tuner.openTx = some x from h]
    rfl
  exact ⟨fun h1 => hblock.trans (if_pos h1),
    fun h1 hr => hblock.trans ((if_neg (Nat.not_lt.mpr h1)).trans (if_pos hr)),
    fun h1 hr => hblock.trans ((if_neg (Nat.not_lt.mpr h1)).trans (if_neg (Bool.eq_false_iff.mp hr)))⟩

/-- The settle limits, by the band (R137). -/
theorem settleLimit_eq (b : Band) : settleLimit b = if b = .fm then 10 else 30 := by cases b <;> rfl

/-- The dwell lengths, by the band (R147). -/
theorem dwellBlocks_eq (b : Band) : dwellBlocks b = if b = .fm then 8 else 16 := by cases b <;> rfl

/-- The settle wait counts to its limit (R137, R146). -/
theorem State.phaseBlock_settling (s : State) (h : s.tuner.phase = .settling) :
    let t := s.tuner
    let u : State := { s with tuner := { t with settleCount := t.settleCount + 1 } }
    let limit := if t.band = .fm then 10 else 30
    (t.settleCount + 1 < limit → s.phaseBlock = u) ∧ (limit ≤ t.settleCount + 1 → s.phaseBlock = u.unsettled) := by
  intro t u limit
  have hblock : s.phaseBlock = if settleLimit t.band ≤ t.settleCount + 1 then u.unsettled else u := by
    unfold State.phaseBlock
    dsimp only
    split
    case h_3 => rfl
    case h_1 hp | h_2 hp | h_4 hp | h_5 hp =>
      rw [h] at hp
      cases hp
  rw [settleLimit_eq] at hblock
  exact ⟨fun hl => hblock.trans (if_neg (Nat.not_le.mpr hl)), fun hl => hblock.trans (if_pos hl)⟩

/-- A dwell sums its blocks to its length (R147). -/
theorem State.phaseBlock_dwell (s : State) (h : s.tuner.phase = .dwell) :
    let t := s.tuner
    let d := t.dwell.add t s.ampError
    let u : State := { s with tuner := { t with dwell := d } }
    let limit := if t.band = .fm then 8 else 16
    (d.blocks < limit → s.phaseBlock = u) ∧ (limit ≤ d.blocks → s.phaseBlock = u.endDwell d) := by
  intro t d u limit
  have hblock : s.phaseBlock = if dwellBlocks t.band ≤ d.blocks then u.endDwell d else u := by
    unfold State.phaseBlock
    dsimp only
    split
    case h_4 => rfl
    case h_1 hp | h_2 hp | h_3 hp | h_5 hp =>
      rw [h] at hp
      cases hp
  rw [dwellBlocks_eq] at hblock
  exact ⟨fun hl => hblock.trans (if_neg (Nat.not_le.mpr hl)), fun hl => hblock.trans (if_pos hl)⟩

/-- A TUNED tuner with a bound path places its frames, and any other none (R139). -/
theorem State.deliverFrames_cases (s : State) :
    (s.tuner.state ≠ .tuned → s.deliverFrames = s)
    ∧ (s.tuner.state = .tuned → s.tunerPath = none → s.deliverFrames = s)
    ∧ (∀ p, s.tuner.state = .tuned → s.tunerPath = some p →
      s.deliverFrames = forEach (fun f v => v.pushFrame p f) s.tunerFrames s) := by
  refine ⟨fun h => if_pos h, fun h hp => ?_, fun p h hp => ?_⟩
  all_goals
    refine (if_neg (not_not.mpr h)).trans ?_
    rw [hp]

/-- The blend: the target is formed in every state, and b moves at each eighth block of a tuner in use (R142, log 31). -/
theorem State.blendBlock_cases (s : State) :
    let t := s.tuner
    let x : Tuner := { t with blendTarget := s.blendTarget }
    (tunerActive t.state = false → s.blendBlock = { s with tuner := x })
    ∧ (tunerActive t.state = true → t.blendTimer ≠ 7 →
      s.blendBlock = { s with tuner := { x with blendTimer := t.blendTimer + 1 } })
    ∧ (tunerActive t.state = true → t.blendTimer = 7 →
      s.blendBlock = { s with tuner := { x with blendTimer := 0, blend := stepBlend t.blend s.blendTarget } }) := by
  intro t x
  have hon (ha : tunerActive t.state = true) : ¬ tunerActive x.state = false := by
    rw [show tunerActive x.state = true from ha]
    decide
  refine ⟨fun ha => if_pos ha, fun ha h7 => ?_, fun ha h7 => ?_⟩
  · have h8 : ¬ x.blendTimer + 1 = 8 := fun h => h7 (Nat.succ.inj h)
    exact (if_neg (hon ha)).trans (if_neg h8)
  · have h8 : x.blendTimer + 1 = 8 := congrArg (· + 1) h7
    exact (if_neg (hon ha)).trans (if_pos h8)

/-- Settles O51: B and presence, the lanes' and the paths' parts by their cases, and the tuner's steps. -/
theorem pathAndLaneParts : Obligations.PathAndLaneParts := by
  refine ⟨?buffered, sealedRun_step, State.present_cases, State.laneBlock_cases, ?part, State.countHandover_cases,
    State.takeB_bound, ?tracker, fun _ _ _ _ => rfl, ?tuner⟩
  case buffered =>
    intro s p fill feeds
    obtain ⟨hfill, hrun⟩ := s.buffered_eq p
    refine ⟨fun hn => ?_, fun w r hr hf ho => ?_⟩
    · have hnone := s.feeding_none p fun w r hr hf => hn w ⟨r, hr, hf⟩
      exact ⟨hnone, hfill hnone⟩
    · have hsome := s.feeding_eq p w r hr hf fun v hv q hq hqf => ho v hv ⟨q, hq, hqf⟩
      exact ⟨hsome, hrun w r hsome hr⟩
  case part =>
    intro s p r u silent
    have hsilent : u.silentAdoption p = true ↔ silent := s.silentAdoption_opened p
    exact ⟨s.pathBlock_free p, fun hb hs => (s.pathBlock_bound p hb).trans (if_pos (hsilent.mpr hs)),
      fun hb hs => (s.pathBlock_bound p hb).trans (if_neg (mt hsilent.mp hs))⟩
  case tracker =>
    intro s p i hb r x src yields puts hold target leaves
    have hsrc : s.pathSource p = src := s.pathSource_bound p i hb
    have hkind : s.pathKind p = src.kind := s.pathKind_bound p i hb
    have hleaves : s.prefillLeaves p = true ↔ leaves := by
      rw [s.prefillLeaves_iff, s.fillTarget_bound p i hb]
    have hprefill (h : x.state = .prefill) := s.trackerBlock_prefill p h
    have hstays (h : leaves) : ¬ s.prefillLeaves p = false := by simp [hleaves.mpr h]
    obtain ⟨hdone, hlocks, hfalls, hchecks⟩ := s.acquireBlock_cases p src hsrc
    obtain ⟨hwithin, hslipping, hslips⟩ := s.trackBlock_cases p src hsrc
    obtain ⟨hacquires, htracks, hsyncs⟩ := s.trackerBlock_present p
    refine ⟨fun h => ?_, fun h hl => ?_, fun h hl hk => ?_, fun h hl hk => ?_, fun h hp => ?_, fun h hp => ?_,
      s.trackerBlock_absent p, hacquires, htracks, hsyncs, fun hd => if_pos hd,
      fun hd => if_neg (Bool.eq_false_iff.mp hd), hdone, hlocks, hfalls, hchecks, hwithin, hslipping, hslips⟩
    · simp only [State.trackerBlock, show (s.path p).tracker.state = .idle from h]
      rfl
    · exact (hprefill h).trans (if_pos (by simpa using mt hleaves.mp hl))
    · exact (hprefill h).trans ((if_neg (hstays hl)).trans (if_pos (hkind.trans hk)))
    · rw [hprefill h, if_neg (hstays hl), if_neg (hkind ▸ hk), hsrc]
      rfl
    · exact (s.trackerBlock_hold p h).trans (if_pos hp)
    · exact (s.trackerBlock_hold p h).trans (if_neg (Bool.eq_false_iff.mp hp))
  case tuner =>
    intro s t active sum silence
    have hon : tunerActive t.state = true ↔ active := tunerActive_iff t.state
    have hoff (h : ¬ active) : tunerActive t.state = false := tunerActive_eq_false t.state h
    obtain ⟨hzero, hrises, hfaults⟩ := s.silenceBlock_cases
    obtain ⟨hclosed, hopen⟩ := s.ackBlock_cases
    obtain ⟨hnotTuned, hunbound, hdelivers⟩ := s.deliverFrames_cases
    obtain ⟨hformed, hcounts, hsteps⟩ := s.blendBlock_cases
    refine ⟨s.ampError_iff, fun h => ?_, fun h => ?_, rfl, fun h => hzero (h.imp_left hoff),
      fun h => hrises (hon.mpr h), fun h => hfaults (hon.mpr h), hclosed, hopen, fun h => ?_, s.phaseBlock_settling,
      s.phaseBlock_dwell, fun h => ?_, hnotTuned, hunbound, hdelivers,
      fun h => hformed (hoff h), fun h => hcounts (hon.mpr h), fun h => hsteps (hon.mpr h)⟩
    · simp only [State.tunerBlock, show tunerActive s.tuner.state = true from hon.mpr h, if_true]
      rfl
    · simp only [State.tunerBlock, show tunerActive s.tuner.state = false from hoff h, Bool.false_eq_true, if_false]
    · rcases h with h | h
      all_goals simp only [State.phaseBlock, show s.tuner.phase = _ from h]
    · simp only [State.phaseBlock, show s.tuner.phase = _ from h]

end Sys2Proof.Machine
end

