-- ==== Sys2Proof/Proofs/LaneGroups.lean ====
section
/-! SUPPORT. The operations of the lane receiver on a group: what a lane's change leaves of the table, what reports leave,
a group that returns to FORMING (R58), a group that leaves DATA (R62), and one that compares its lanes (R58). -/

namespace Sys2Proof.Machine

open Sys2Proof

/-! ## Reads after a lane or a group was put in its place -/

@[simp] theorem State.source_setLane (s : State) (l : Fin 4) (r : LaneRec) (e : Fin 12) :
    (s.setLane l r).source e = s.source e := rfl

@[simp] theorem State.entryOfLane_setLane (s : State) (k l : Fin 4) (r : LaneRec) :
    (s.setLane k r).entryOfLane l = s.entryOfLane l := rfl

@[simp] theorem State.groupOfLane_setLane (s : State) (k l : Fin 4) (r : LaneRec) :
    (s.setLane k r).groupOfLane l = s.groupOfLane l := rfl

@[simp] theorem State.placedState_setLane (s : State) (k l : Fin 4) (r : LaneRec) (cfg : LaneConfig) :
    (s.setLane k r).placedState l cfg = s.placedState l cfg := rfl

@[simp] theorem State.lane_setGroup (s : State) (e : Fin 12) (g : Option GroupRec) (l : Fin 4) :
    (s.setGroup e g).lane l = s.lane l := rfl

/-- A lane and a group are written in either order. -/
theorem State.setGroup_setLane (s : State) (l : Fin 4) (r : LaneRec) (e : Fin 12) (g : Option GroupRec) :
    (s.setLane l r).setGroup e g = (s.setGroup e g).setLane l r := rfl

/-- Writing back the record that stands changes nothing. -/
@[simp] theorem State.setLane_lane (s : State) (l : Fin 4) : s.setLane l (s.lane l) = s :=
  congrArg (fun v => { s with lanes := v }) (setAt_getAt s.lanes l)

/-- The group of a lane: its LANE_GROUP entry holds the lane and has the record (R54). -/
theorem State.groupOfLane_spec {s : State} {l : Fin 4} {e : Fin 12} {g : GroupRec} (h : s.groupOfLane l = some (e, g)) :
    s.entryOfLane l = some e ∧ s.group e = some g ∧ l ∈ (s.source e).lanes := by
  unfold State.groupOfLane at h
  cases he : s.entryOfLane l with
  | none => rw [he] at h; cases h
  | some x =>
    rw [he] at h
    obtain ⟨y, hy, hxy⟩ := Option.map_eq_some_iff.mp h
    obtain ⟨rfl, rfl⟩ := Prod.mk.inj hxy
    have hfound := List.find?_some he
    exact ⟨rfl, hy, by simpa using (Bool.and_eq_true_iff.mp hfound).2⟩

/-! ## What reports and changes of lanes keep -/

/-- Two changes that touch the link and the report unit only make one. -/
theorem State.reportsOnly_trans {s t u : State} {a c : Link} {b d : ReportUnit} (h : t = { s with link := a, rep := b })
    (h1 : u = { t with link := c, rep := d }) : u = { s with link := c, rep := d } := by rw [h1, h]

/-- Reports of lanes change the link and the report unit, and nothing else (R19, R65). -/
theorem State.laneReports_eq (ls : List (Fin 4)) (c : LaneCause) (s : State) :
    s.laneReports ls c = { s with link := (s.laneReports ls c).link, rep := (s.laneReports ls c).rep } := by
  induction ls generalizing s with
  | nil => rfl
  | cons l ls ih => exact State.reportsOnly_trans (State.raise_eq ..) (ih (s.laneReport l c))

/-- A report of one lane marks no part of a block. -/
@[simp] theorem State.laneReport_taken (s : State) (l : Fin 4) (c : LaneCause) :
    (s.laneReport l c).taken = s.taken := State.raise_taken ..

@[simp] theorem State.laneReports_taken (s : State) (ls : List (Fin 4)) (c : LaneCause) :
    (s.laneReports ls c).taken = s.taken := by rw [s.laneReports_eq]

@[simp] theorem State.lane_laneReports (s : State) (ls : List (Fin 4)) (c : LaneCause) (l : Fin 4) :
    (s.laneReports ls c).lane l = s.lane l := by
  rw [s.laneReports_eq]
  rfl

@[simp] theorem State.group_laneReports (s : State) (ls : List (Fin 4)) (c : LaneCause) (e : Fin 12) :
    (s.laneReports ls c).group e = s.group e := by
  rw [s.laneReports_eq]
  rfl

@[simp] theorem State.boundPath_laneReports (s : State) (ls : List (Fin 4)) (c : LaneCause) (e : Fin 12) :
    (s.laneReports ls c).boundPath e = s.boundPath e := by
  rw [s.laneReports_eq]
  rfl

/-- Changing lanes touches lanes only, whatever the change. -/
theorem State.mapLanes_eq (ls : List (Fin 4)) (f : LaneRec → LaneRec) (s : State) :
    s.mapLanes ls f = { s with lanes := (s.mapLanes ls f).lanes } := by
  induction ls generalizing s with
  | nil => rfl
  | cons l ls ih => exact State.lanesOnly_trans (t := s.setLane l (f (s.lane l))) rfl (ih _)

/-- Changing lanes keeps the path that is bound to an entry. -/
@[simp] theorem State.boundPath_mapLanes (s : State) (ls : List (Fin 4)) (f : LaneRec → LaneRec) (e : Fin 12) :
    (s.mapLanes ls f).boundPath e = s.boundPath e := by
  rw [s.mapLanes_eq]
  rfl

/-! ## A group returns to FORMING (R58, R62) -/

/-- What a group that returned to FORMING leaves: `v` is `s` with the record of entry `e` in FORMING, lane `l` with the
record `mine`, and each other lane of the group changed by `others`; no report has been raised yet. -/
structure State.Reforms (s v : State) (e : Fin 12) (l : Fin 4) (mine : LaneRec) (others : LaneRec → LaneRec) : Prop where
  rep    : v.rep = s.rep
  block  : v.block = s.block
  taken  : v.taken = s.taken
  group  : v.group e = some GroupRec.forming
  mine   : v.lane l = mine
  others : ∀ x ∈ (s.source e).lanes, x ≠ l → v.lane x = others (s.lane x)

/-- The change may start from a state in which the lane concerned has its record of the moment. -/
theorem State.Reforms.of_setLane {s v : State} {e : Fin 12} {l : Fin 4} {r mine : LaneRec} {others : LaneRec → LaneRec}
    (h : (s.setLane l r).Reforms v e l mine others) : s.Reforms v e l mine others where
  rep := h.rep
  block := h.block
  taken := h.taken
  group := h.group
  mine := h.mine
  others x hx hl := by rw [h.others x hx hl, State.lane_setLane, if_neg (Ne.symm hl)]

/-- A group that returns to FORMING: its record, and the deskew state of its lanes (R58). -/
theorem State.groupReform_spec (s : State) (e : Fin 12) :
    s.groupReform e = { s with lanes := (s.groupReform e).lanes, groups := (s.groupReform e).groups }
    ∧ (s.groupReform e).group e = some GroupRec.forming
    ∧ ∀ x, (s.groupReform e).lane x = if x ∈ (s.source e).lanes then (s.lane x).clearDeskew else s.lane x := by
  obtain ⟨heq, hlane⟩ := s.mapLanes_spec (s.source e).lanes LaneRec.clearDeskew fun _ => rfl
  refine ⟨?_, State.group_setGroup_same .., hlane⟩
  unfold State.groupReform
  rw [heq]
  rfl

/-- A lane's change leaves ALIGNED with its measuring group returning to FORMING (R58). -/
theorem State.leaveMeasuring_reforms (s : State) (l : Fin 4) (e : Fin 12) (g : GroupRec) (f : LaneRec → LaneRec)
    (hg : s.groupOfLane l = some (e, g)) (hm : g.stage = .measuring) :
    s.Reforms ((s.leaveMeasuring l).setLane l (f ((s.leaveMeasuring l).lane l))) e l (f (s.lane l).clearDeskew)
      LaneRec.clearDeskew := by
  obtain ⟨-, -, hl⟩ := State.groupOfLane_spec hg
  have hleave : s.leaveMeasuring l = s.groupReform e := by simp [State.leaveMeasuring, hg, hm]
  obtain ⟨heq, hgroup, hlane⟩ := s.groupReform_spec e
  rw [hleave]
  exact {
    rep := by rw [State.setLane_rep, heq]
    block := by rw [State.setLane_block, heq]
    taken := by rw [State.setLane_taken, heq]
    group := hgroup
    mine := by rw [State.lane_setLane_same, hlane l, if_pos hl]
    others := fun x hx hxl => by rw [State.lane_setLane, if_neg (Ne.symm hxl), hlane x, if_pos hx] }

/-- Where no group of the lane is measuring, leaving ALIGNED changes nothing else (R58). -/
theorem State.leaveMeasuring_same (s : State) (l : Fin 4)
    (h : ∀ e g, s.groupOfLane l = some (e, g) → g.stage ≠ .measuring) : s.leaveMeasuring l = s := by
  unfold State.leaveMeasuring
  split
  next e g hg => exact if_neg (h e g hg)
  next => rfl

/-- The lanes of a group leave DATA, each reported with the cause (R62). -/
theorem State.leaveData_reforms (s : State) (e : Fin 12) (l : Fin 4) (f : LaneRec → LaneRec) (c : LaneCause)
    (hl : l ∈ (s.source e).lanes) :
    ∃ v : State, s.leaveData e l f c = v.laneReports (s.source e).lanes c
      ∧ s.Reforms v e l (f (s.lane l)).clearDeskew LaneRec.fallToHunt := by
  obtain ⟨hmap, hlane⟩ := s.mapLanes_spec ((s.source e).lanes.filter fun x => decide (x ≠ l)) LaneRec.fallToHunt
    fun _ => rfl
  generalize hs1 : s.mapLanes ((s.source e).lanes.filter fun x => decide (x ≠ l)) LaneRec.fallToHunt = s1 at hmap hlane
  have hmine : s1.lane l = s.lane l := by rw [hlane l, if_neg (by simp)]
  have hsource : s1.source e = s.source e := by rw [hmap]; rfl
  obtain ⟨heq, hgroup, hreform⟩ := (s1.setLane l (f (s1.lane l))).groupReform_spec e
  refine ⟨(s1.setLane l (f (s1.lane l))).groupReform e, by rw [← hs1]; rfl, ?_⟩
  rw [State.source_setLane, hsource] at hreform
  exact {
    rep := by rw [heq, hmap]; rfl
    block := by rw [heq, hmap]; rfl
    taken := by rw [heq, hmap]; rfl
    group := hgroup
    mine := by rw [hreform l, if_pos hl, State.lane_setLane_same, hmine]
    others := fun x hx hxl => by
      rw [hreform x, if_pos hx, State.lane_setLane, if_neg (Ne.symm hxl), hlane x, if_pos (by simp [hx, hxl])]
      rfl }

/-- A lane in DATA with the record `r` takes its group out of DATA (R62). -/
theorem State.dropGroup_reforms (s : State) (l : Fin 4) (e : Fin 12) (g : GroupRec) (r : LaneRec) (f : LaneRec → LaneRec)
    (c : LaneCause) (hg : s.groupOfLane l = some (e, g)) :
    ∃ v : State, (s.setLane l r).dropGroup l f c = v.laneReports (s.source e).lanes c
      ∧ s.Reforms v e l (f r).clearDeskew LaneRec.fallToHunt := by
  obtain ⟨-, -, hl⟩ := State.groupOfLane_spec hg
  obtain ⟨v, hv, hreforms⟩ := (s.setLane l r).leaveData_reforms e l f c hl
  refine ⟨v, ?_, ?_⟩
  · rw [State.dropGroup, State.groupOfLane_setLane, hg]
    exact hv
  · rw [State.lane_setLane_same] at hreforms
    exact hreforms.of_setLane

/-- The measurement fails: every lane of the group goes to HUNT with its realign request, and is reported (R59). -/
theorem State.failMeasure_reforms (s : State) (e : Fin 12) (l : Fin 4) (hl : l ∈ (s.source e).lanes) :
    ∃ v : State, s.failMeasure e = v.laneReports (s.source e).lanes .deskew
      ∧ s.Reforms v e l (s.lane l).fallToHunt LaneRec.fallToHunt := by
  obtain ⟨hmap, hlane⟩ := s.mapLanes_spec (s.source e).lanes LaneRec.fallToHunt fun _ => rfl
  generalize hs1 : s.mapLanes (s.source e).lanes LaneRec.fallToHunt = s1 at hmap hlane
  have hsource : s1.source e = s.source e := by rw [hmap]; rfl
  obtain ⟨heq, hgroup, hreform⟩ := s1.groupReform_spec e
  rw [hsource] at hreform
  have hfalls (x : Fin 4) (hx : x ∈ (s.source e).lanes) : (s1.groupReform e).lane x = (s.lane x).fallToHunt := by
    rw [hreform x, if_pos hx, hlane x, if_pos hx]
    rfl
  refine ⟨s1.groupReform e, by rw [← hs1]; rfl, ?_⟩
  exact {
    rep := by rw [heq, hmap]
    block := by rw [heq, hmap]
    taken := by rw [heq, hmap]
    group := hgroup
    mine := hfalls l hl
    others := fun x hx _ => hfalls x hx }

end Sys2Proof.Machine
end

