-- ==== Sys2Proof/Proofs/Sources.lean ====
section
/-! SUPPORT. The commands of lanes and sources: SET_LANE (R63), DEFINE_SOURCE (R68), CLEAR_SOURCE (R69), and what a
changed lane list does in the lane receiver (R64). -/

namespace Sys2Proof.Machine

open Sys2Proof

/-! ## Indices and clamps -/

/-- An index of the lanes. -/
theorem fin4?_some (n : Nat) (l : Fin 4) (h : l.val = n) : fin4? n = some l := by
  subst h
  exact dif_pos l.isLt

/-- A number that is no lane. -/
theorem fin4?_none (n : Nat) (h : 3 < n) : fin4? n = none := dif_neg (by omega)

/-- An index of the source table. -/
theorem fin12?_some (n : Nat) (e : Fin 12) (h : e.val = n) : fin12? n = some e := by
  subst h
  exact dif_pos e.isLt

/-- A number outside the source table. -/
theorem fin12?_none (n : Nat) (h : 11 < n) : fin12? n = none := dif_neg (by omega)

/-- A clamp as a maximum and a minimum. -/
theorem clampNat_eq (lo hi x : Nat) (h : lo ≤ hi) : clampNat lo hi x = max lo (min hi x) := by
  unfold clampNat; split_ifs <;> omega

/-- A command that clamps answers with the first clamped argument (R16). -/
theorem clampedOr_eq (s : State) (xs : List (Int × Int)) :
    clampedOr s xs = { st := s, res := (clampResult xs).1, val := (clampResult xs).2 } := by
  induction xs with
  | nil => rfl
  | cons x xs ih =>
    obtain ⟨given, applied⟩ := x
    by_cases h : given = applied
    · simp only [clampedOr, if_pos h, ih, clampResult, firstClamped]
    · simp only [clampedOr, if_neg h, clampResult, firstClamped]

/-! ## SET_LANE (R63) -/

/-- SET_LANE of a lane above 3 (R63). -/
theorem cmdSetLane_badArg (lane en e rep : Byte) (s : State) (h : 3 < lane.toNat) :
    cmdSetLane lane en e rep s = refuse s .badArg := by
  simp [cmdSetLane, fin4?_none _ h]

/-- SET_LANE of a lane: E clamped into 1 to 255, the replacement setting, then the enable setting (R63). -/
theorem cmdSetLane_lane (lane en e rep : Byte) (s : State) (l : Fin 4) (h : l.val = lane.toNat) :
    cmdSetLane lane en e rep s
      = { st := (s.setLane l { s.lane l with
            threshold := if e = 0 then 1 else e.toNat, replacement := decide (rep ≠ 0) }).enableLane l (decide (en ≠ 0))
          res := if e = 0 then .clamped else .ok, val := if e = 0 then 1 else 0 } := by
  have hclamp : clampNat 1 255 e.toNat = if e = 0 then 1 else e.toNat := by
    rw [clampNat_eq _ _ _ (by decide)]
    have := e.isLt
    split_ifs with h0
    · subst h0; rfl
    · have : e.toNat ≠ 0 := fun h => h0 (BitVec.eq_of_toNat_eq h)
      omega
  simp only [cmdSetLane, fin4?_some _ l h, hclamp, clampedOr_eq, onOff]
  by_cases h0 : e = 0
  · subst h0; rfl
  · simp only [if_neg h0]
    simp [clampResult, firstClamped]

/-- A setting that stands changes nothing (R63). -/
theorem State.enableLane_same (s : State) (l : Fin 4) (on : Bool) (h : (s.lane l).enable = on) :
    s.enableLane l on = s := if_pos h.symm

/-- Enabling a lane takes it to HUNT with its counts at 0 (R63). -/
theorem State.enableLane_on (s : State) (l : Fin 4) (h : (s.lane l).enable = false) :
    s.enableLane l true
      = s.setLane l { (s.lane l).toHunt with enable := true, errors := 0, goodRun := 0, silence := 0 } := by
  simp [State.enableLane, h]

/-- Disabling a lane that is not in DATA: it leaves a measuring group, and is reported (R58, R63). -/
theorem State.enableLane_off (s : State) (l : Fin 4) (h : (s.lane l).enable = true) (hd : (s.lane l).state ≠ .data) :
    s.enableLane l false
      = (let t := if (s.lane l).state = .aligned then s.leaveMeasuring l else s
         (t.setLane l (t.lane l).toDisabled).laneReport l .disabled) := by
  simp [State.enableLane, h, hd]

/-- Disabling a lane in DATA takes its group out of DATA (R62, R63). -/
theorem State.enableLane_off_data (s : State) (l : Fin 4) (h : (s.lane l).enable = true) (hd : (s.lane l).state = .data) :
    s.enableLane l false = s.dropGroup l LaneRec.toDisabled .disabled := by
  simp [State.enableLane, h, hd]

/-- Settles O27: the two answers, then the enable setting by the lane's state. -/
theorem setLane : Obligations.SetLane := by
  refine ⟨fun s lane en e rep h hbad => ?badArg, fun s lane en e rep l h hl => ?lane,
    fun u l on => ⟨u.enableLane_same l on, fun h hon => ?on, fun h hoff => ⟨fun hd hm => ?alone, ?measuring, ?data⟩⟩⟩
  case badArg => exact congrArg Host.Outcome.next (s.runHost_answered id h rfl (cmdSetLane_badArg lane en e rep _ hbad))
  case lane =>
    exact congrArg Host.Outcome.next (s.runHost_answered
      (fun u => (u.setLane l { u.lane l with
        threshold := if e = 0 then 1 else e.toNat, replacement := decide (rep ≠ 0) }).enableLane l (decide (en ≠ 0)))
      h rfl (cmdSetLane_lane lane en e rep _ l hl))
  case on =>
    subst hon
    exact u.enableLane_on l h
  case alone =>
    subst hoff
    have hstay : (if (u.lane l).state = .aligned then u.leaveMeasuring l else u) = u := by
      split_ifs with ha
      · exact u.leaveMeasuring_same l (hm.resolve_left fun hn => hn ha)
      · rfl
    rw [u.enableLane_off l h hd, hstay]
    rfl
  case measuring =>
    intro e g ha hg hm
    subst hoff
    have hr := u.leaveMeasuring_reforms l e g LaneRec.toDisabled hg hm
    rw [u.enableLane_off l h (by simp [ha]), if_pos ha]
    exact ⟨_, rfl, hr.rep, hr.mine, hr.group, hr.others⟩
  case data =>
    intro e g hd hg
    subst hoff
    obtain ⟨v, hv, hr⟩ := u.dropGroup_reforms l e g (u.lane l) LaneRec.toDisabled .disabled hg
    rw [State.setLane_lane] at hv
    rw [u.enableLane_off_data l h hd]
    exact ⟨v, hv, hr.rep, hr.mine, hr.group, hr.others⟩

/-! ## DEFINE_SOURCE (R68) -/

/-- The lanes that argument bytes name: one for each byte (R68, check 4). -/
theorem argLanes_iff (bs : List Byte) (ls : List (Fin 4)) :
    argLanes bs = some ls ↔ bs.map BitVec.toNat = ls.map Fin.val := by
  induction bs generalizing ls with
  | nil => cases ls <;> simp [argLanes]
  | cons b bs ih =>
    by_cases hb : b.toNat < 4
    · have hfin : fin4? b.toNat = some ⟨b.toNat, hb⟩ := fin4?_some _ _ rfl
      cases ls with
      | nil => cases ha : argLanes bs <;> simp [argLanes, hfin, ha]
      | cons l ls =>
        have hhead : (⟨b.toNat, hb⟩ : Fin 4) = l ↔ b.toNat = l.val := Fin.ext_iff
        rw [List.map_cons, List.map_cons, List.cons.injEq, ← ih, ← hhead]
        cases ha : argLanes bs <;> simp [argLanes, hfin, ha]
    · have hne (l : Fin 4) : b.toNat ≠ l.val := by omega
      cases ls <;> simp [argLanes, fin4?_none _ (show 3 < b.toNat by omega), hne]

/-- Lanes that are named without repetition are named by bytes without repetition. -/
theorem argLanes_nodup {bs : List Byte} {ls : List (Fin 4)} (h : argLanes bs = some ls) : ls.Nodup ↔ bs.Nodup := by
  rw [← List.nodup_map_iff (f := BitVec.toNat) fun _ _ => BitVec.eq_of_toNat_eq, (argLanes_iff bs ls).mp h,
    List.nodup_map_iff Fin.val_injective]

/-- A lane above 3 is no lane list (R68, check 4). -/
theorem argLanes_none {bs : List Byte} (h : ∃ b ∈ bs, 3 < b.toNat) : argLanes bs = none := by
  obtain ⟨b, hb, h3⟩ := h
  refine Option.eq_none_iff_forall_ne_some.mpr fun ls hls => ?_
  have hmem : b.toNat ∈ ls.map Fin.val := (argLanes_iff bs ls).mp hls ▸ List.mem_map_of_mem hb
  obtain ⟨l, -, hl⟩ := List.mem_map.mp hmem
  have := l.isLt
  omega

/-- What a STREAM entry names: a window index of 1 to 15 (R68, check 4). -/
theorem sourceParts_stream (a : SourceArgs) :
    ((a.window = 0 ∨ 15 < a.window.toNat) → sourceParts .stream a = none)
    ∧ (∀ w : Fin 16, w.val = a.window.toNat → w ≠ 0 → sourceParts .stream a = some ([], some w)) := by
  refine ⟨?_, fun w hw h0 => ?_⟩
  · rintro (h | h)
    · simp [sourceParts, h, fin16?_some 0 0 rfl]
    · simp [sourceParts, fin16?_none _ h]
  · have hv : w.val ≠ 0 := fun hv => h0 (Fin.ext hv)
    simp [sourceParts, fin16?_some _ w hw, hv]

/-- What a LANE_GROUP entry names: a list of 1 to 4 lanes, no lane twice (R68, check 4). -/
theorem sourceParts_laneGroup (a : SourceArgs) :
    let n := a.laneCount.toNat
    ((n = 0 ∨ 4 < n ∨ (∃ b ∈ a.lanes.take n, 3 < b.toNat) ∨ ¬ (a.lanes.take n).Nodup) →
        sourceParts .laneGroup a = none)
    ∧ (∀ ls : List (Fin 4), 1 ≤ n → n ≤ 4 → ls.length = n → ls.Nodup →
        (a.lanes.take n).map BitVec.toNat = ls.map Fin.val → sourceParts .laneGroup a = some (ls, none)) := by
  intro n
  refine ⟨fun h => ?_, fun ls h1 h4 hlen hnd hls => ?_⟩
  · by_cases hn : n < 1 ∨ 4 < n
    · exact if_pos hn
    · refine (if_neg hn).trans ?_
      cases ha : argLanes (a.lanes.take n) with
      | none => rfl
      | some ls =>
        refine if_neg fun hok => ?_
        rcases h with h | h | h | h
        · omega
        · omega
        · rw [argLanes_none h] at ha; cases ha
        · exact h ((argLanes_nodup ha).mp hok.2)
  · have ha : argLanes (a.lanes.take n) = some ls := (argLanes_iff _ ls).mpr hls
    refine (if_neg (by omega)).trans ?_
    rw [ha]
    exact if_pos ⟨hlen, hnd⟩

/-- The path bound to an entry does not depend on the command unit. -/
@[simp] theorem State.handOver_boundPath (s : State) (o t : Byte) (a : List Byte) (e : Fin 12) :
    (s.handOver o t a).boundPath e = s.boundPath e := rfl

/-- A number above 3 is the code of no kind (R197). -/
theorem SourceKind.ofCode_none (n : Nat) (h : 3 < n) : SourceKind.ofCode n = none := by
  obtain ⟨m, rfl⟩ : ∃ m, n = m + 4 := ⟨n - 4, by omega⟩
  rfl

/-- DEFINE_SOURCE of an index above 11, or of a kind that is none of the three (R68, checks 1 and 2). -/
theorem cmdDefineSource_badArg (entry : Byte) (a : SourceArgs) (s : State)
    (h : 11 < entry.toNat ∨ a.kind = 0 ∨ 3 < a.kind.toNat) : cmdDefineSource entry a s = refuse s .badArg := by
  rcases h with h | h | h
  · simp [cmdDefineSource, fin12?_none _ h]
  · cases he : fin12? entry.toNat <;> simp [cmdDefineSource, he, h, SourceKind.ofCode]
  · have hk := SourceKind.ofCode_none _ h
    cases he : fin12? entry.toNat <;> simp [cmdDefineSource, he, hk]

/-- The entry a DEFINE_SOURCE gives, each field clamped (R68). -/
theorem sourceEntry_eq (k : SourceKind) (parts : List (Fin 4) × Option (Fin 16)) (a : SourceArgs)
    (label : Option (List Byte)) :
    sourceEntry k parts a label
      = { kind := k, lanes := parts.1, window := parts.2
          fillT := max 96 (min 2048 a.fillT.toNat), kp := max 1 a.kp.toNat, ki := a.ki.toNat
          gainG := min 7 a.gainG.toNat, ratchetH := min (min 7 a.gainG.toNat) a.ratchetH.toNat
          lockW := max 1 (min 64 a.lockW.toNat), trim := max (-24) (min 24 a.trim.toInt), label := label } := by
  have hkp : min 255 a.kp.toNat = a.kp.toNat := Nat.min_eq_right (Nat.le_of_lt_succ a.kp.isLt)
  simp only [sourceEntry, clampNat_eq 96 2048 _ (by decide), clampNat_eq 1 255 _ (by decide),
    clampNat_eq 0 7 _ (by decide), clampNat_eq 0 _ _ (Nat.zero_le _), clampNat_eq 1 64 _ (by decide),
    clampInt_eq (-24) 24 _ (by decide), hkp, Nat.zero_max]

section checks

variable {entry : Byte} {a : SourceArgs} {s : State} {e : Fin 12} {k : SourceKind}
  {parts : List (Fin 4) × Option (Fin 16)} {label : Option (List Byte)}

/-- DEFINE_SOURCE of an entry that is bound to a path (R68, check 3). -/
theorem cmdDefineSource_bound (he : e.val = entry.toNat) (hk : SourceKind.ofCode a.kind.toNat = some k)
    (h0 : k ≠ .none) (hb : s.boundPath e ≠ none) : cmdDefineSource entry a s = refuse s .inUse := by
  simp [cmdDefineSource, fin12?_some _ e he, hk, h0, Option.isSome_iff_ne_none.mpr hb]

/-- DEFINE_SOURCE with a malformed lane list or window index (R68, check 4). -/
theorem cmdDefineSource_noParts (he : e.val = entry.toNat) (hk : SourceKind.ofCode a.kind.toNat = some k)
    (h0 : k ≠ .none) (hb : s.boundPath e = none) (hp : sourceParts k a = none) :
    cmdDefineSource entry a s = refuse s .badArg := by
  simp [cmdDefineSource, fin12?_some _ e he, hk, h0, hb, hp]

/-- DEFINE_SOURCE with a malformed label (R68, check 5). -/
theorem cmdDefineSource_noLabel (he : e.val = entry.toNat) (hk : SourceKind.ofCode a.kind.toNat = some k)
    (h0 : k ≠ .none) (hb : s.boundPath e = none) (hp : sourceParts k a = some parts) (hl : decodeLabel a.label = none) :
    cmdDefineSource entry a s = refuse s .badArg := by
  simp [cmdDefineSource, fin12?_some _ e he, hk, h0, hb, hp, hl]

/-- DEFINE_SOURCE that meets another entry: a lane of its list, or a second tuner (R68, checks 6 and 7). -/
theorem cmdDefineSource_taken (he : e.val = entry.toNat) (hk : SourceKind.ofCode a.kind.toNat = some k)
    (h0 : k ≠ .none) (hb : s.boundPath e = none) (hp : sourceParts k a = some parts)
    (hl : decodeLabel a.label = some label)
    (ht : s.laneTaken e parts.1 = true ∨ (k = .tuner ∧ s.otherTuner e = true)) :
    cmdDefineSource entry a s = refuse s .inUse := by
  rcases ht with ht | ht
  · simp [cmdDefineSource, fin12?_some _ e he, hk, h0, hb, hp, hl, ht]
  · simp [cmdDefineSource, fin12?_some _ e he, hk, h0, hb, hp, hl, if_pos ht]

/-- DEFINE_SOURCE that passes every check puts the clamped entry in its place (R68). -/
theorem cmdDefineSource_puts (he : e.val = entry.toNat) (hk : SourceKind.ofCode a.kind.toNat = some k)
    (h0 : k ≠ .none) (hb : s.boundPath e = none) (hp : sourceParts k a = some parts)
    (hl : decodeLabel a.label = some label) (ht : s.laneTaken e parts.1 = false)
    (hu : ¬ (k = .tuner ∧ s.otherTuner e = true)) :
    cmdDefineSource entry a s
      = clampedOr (s.putSource e (sourceEntry k parts a label)) (sourceClamps a (sourceEntry k parts a label)) := by
  simp only [cmdDefineSource, fin12?_some _ e he, hk, h0, hb, hp, hl, ht, hu, if_false, Option.isSome_none,
    Bool.false_eq_true]

end checks

/-- Settles O28: what an entry names, the checks in their order, and the clamped entry. -/
theorem defineSource : Obligations.DefineSource := by
  refine ⟨fun s e ls => ⟨s.laneTaken_iff e ls, s.otherTuner_iff e⟩, ?parts, ?command⟩
  case parts =>
    intro a n
    obtain ⟨hnoWindow, hwindow⟩ := sourceParts_stream a
    obtain ⟨hnoLanes, hlanes⟩ := sourceParts_laneGroup a
    exact ⟨rfl, hnoWindow, hwindow, hnoLanes, hlanes⟩
  case command =>
    intro s entry a h args refused
    have hrefuse (r : CmdResult) (hc : cmdDefineSource entry a (s.handOver 0x11 entry args)
        = refuse (s.handOver 0x11 entry args) r) : refused r :=
      congrArg Host.Outcome.next (s.runHost_answered id h rfl hc)
    refine ⟨fun hb => hrefuse _ (cmdDefineSource_badArg entry a _ (.inl hb)),
      fun _ hk => hrefuse _ (cmdDefineSource_badArg entry a _ (.inr hk)), fun e k he hk h0 => ⟨?bound,
      fun hb => ⟨?noParts, fun parts hp => ⟨?noLabel, fun label hl => ⟨?taken, ?puts⟩⟩⟩⟩⟩
    case bound => exact fun hb => hrefuse _ (cmdDefineSource_bound he hk h0 hb)
    case noParts => exact fun hp => hrefuse _ (cmdDefineSource_noParts he hk h0 hb hp)
    case noLabel => exact fun hl => hrefuse _ (cmdDefineSource_noLabel he hk h0 hb hp hl)
    case taken => exact fun ht => hrefuse _ (cmdDefineSource_taken he hk h0 hb hp hl ht)
    case puts =>
      intro ht hu g r c
      have hr : sourceEntry k parts a label = r := sourceEntry_eq k parts a label
      refine congrArg Host.Outcome.next (s.runHost_answered (fun u => u.putSource e r) h rfl ?_)
      refine (cmdDefineSource_puts (s := s.handOver 0x11 entry args) he hk h0 hb hp hl ht hu).trans ?_
      rw [hr, clampedOr_eq]
      rfl

/-! ## A changed lane list (R64) -/

/-- The group record a new entry starts with: FORMING for a LANE_GROUP, none for any other kind (R64). -/
def SourceEntry.newGroup (r : SourceEntry) : Option GroupRec :=
  if r.kind = .laneGroup then some GroupRec.forming else none

/-- The lane receiver after a changed lane list, before the reports: the deskew state of the old list's lanes is cleared,
the group record is that of the new entry, and the lanes of either list are placed again (R54, R62, R64). -/
def State.lanesReplaced (s : State) (e : Fin 12) (old : List (Fin 4)) : State :=
  forEach (fun l t => t.replaceLane l) (old ++ (s.source e).lanes.filter fun l => decide (l ∉ old))
    ((s.mapLanes old LaneRec.clearDeskew).setGroup e (s.source e).newGroup)

/-- A changed lane list: the lanes are placed again, then the reports, then the comparison (R58, R64). -/
theorem State.lanesChanged_eq (s : State) (e : Fin 12) (old : List (Fin 4)) :
    let v := s.lanesReplaced e old
    s.lanesChanged e old
      = ((if ((s.group e).any fun g => decide (g.stage = .running)) = true then v.laneReports old .redefined
            else v).laneReports
          ((old ++ (s.source e).lanes.filter fun l => decide (l ∉ old)).filter fun l =>
            (s.lane l).placed && decide (s.placedState l (s.laneConfig l) = .mismatch)) .mismatch).groupCompare e := by
  cases hg : s.group e <;> simp only [State.lanesChanged, hg] <;> rfl

/-- What a lane is placed by is its received configuration (R54). -/
theorem State.laneConfig_congr {s t : State} {l : Fin 4} (h : (t.lane l).config = (s.lane l).config) :
    t.laneConfig l = s.laneConfig l := by
  unfold State.laneConfig
  rw [h]

/-- A changed lane list moves lanes and the entry's group record, and nothing else, before the reports (R64). -/
theorem State.lanesReplaced_spec (s : State) (e : Fin 12) (old : List (Fin 4)) :
    let v := s.lanesReplaced e old
    let both := old ++ (s.source e).lanes.filter fun l => decide (l ∉ old)
    v = { s with lanes := v.lanes, groups := v.groups }
    ∧ v.group e = (s.source e).newGroup
    ∧ (∀ x, x ≠ e → v.group x = s.group x)
    ∧ ∀ l,
      let z : LaneRec := if l ∈ old then (s.lane l).clearDeskew else s.lane l
      v.lane l = if l ∈ both ∧ (s.lane l).placed = true
        then { z with state := s.placedState l (s.laneConfig l) } else z := by
  intro v both
  obtain ⟨hmap, hclear⟩ := s.mapLanes_spec old LaneRec.clearDeskew fun _ => rfl
  generalize ht : (s.mapLanes old LaneRec.clearDeskew).setGroup e (s.source e).newGroup = t
  have hteq : t = { s with lanes := t.lanes, groups := t.groups } := by rw [← ht, hmap]; rfl
  have htlane (l : Fin 4) : t.lane l = if l ∈ old then (s.lane l).clearDeskew else s.lane l := by
    rw [← ht, State.lane_setGroup, hclear l]
  have hv : v = forEach (fun l t => t.replaceLane l) both t := by rw [← ht]; rfl
  obtain ⟨heq, hlane⟩ := State.replaceLanes_spec both t
  rw [← hv] at heq hlane
  have hgroups : v.groups = t.groups := by rw [heq]
  have hgroup (x : Fin 12) : v.group x = if e = x then (s.source e).newGroup else s.group x := by
    have htx : v.group x = t.group x := congrArg (getAt · x) hgroups
    rw [htx, ← ht, State.group_setGroup, hmap]
    rfl
  refine ⟨?_, by rw [hgroup, if_pos rfl], fun x hx => by rw [hgroup, if_neg (Ne.symm hx)], ?_⟩
  · rw [heq, hteq]
  · intro l z
    have hz : t.lane l = z := htlane l
    have hplaced : z.placed = (s.lane l).placed := by simp only [z]; split_ifs <;> rfl
    have hconfig : t.laneConfig l = s.laneConfig l :=
      State.laneConfig_congr (by rw [hz]; simp only [z]; split_ifs <;> rfl)
    have hstate : t.placedState l (t.laneConfig l) = s.placedState l (s.laneConfig l) := by
      rw [hconfig, hteq]
      rfl
    rw [hlane l, hstate, hz, hplaced]

/-- The content of a source entry is put in its place; a lane list that stands moves nothing else (R64). -/
theorem State.putSource_same (s : State) (e : Fin 12) (r : SourceEntry) (h : (s.source e).lanes = r.lanes) :
    s.putSource e r = s.setSource e r := if_pos h

/-- A zone that records an entry as its selection has none afterwards; nothing else of a zone changes (R69). -/
theorem State.forgetSelection_zone (s : State) (y z : Zone) (e : Fin 12) :
    (s.forgetSelection y e).zone z
      = if y = z ∧ (s.zone z).selection = some e then { s.zone z with selection := none } else s.zone z := by
  unfold State.forgetSelection
  by_cases hy : y = z
  · subst hy
    split_ifs with h1 h2 h2
    · exact State.zone_setZone_same ..
    · exact absurd ⟨rfl, h1⟩ h2
    · exact absurd h2.2 h1
    · rfl
  · rw [if_neg fun h : y = z ∧ (s.zone z).selection = some e => hy h.1]
    split_ifs
    · rw [State.zone_setZone, if_neg hy]
    · rfl

/-- Forgetting a selection changes zone records only. -/
theorem State.forgetSelection_eq (s : State) (y : Zone) (e : Fin 12) :
    s.forgetSelection y e
      = { s with zoneMain := (s.forgetSelection y e).zoneMain, zoneTwo := (s.forgetSelection y e).zoneTwo } := by
  unfold State.forgetSelection
  split_ifs
  · cases y <;> rfl
  · rfl

/-- Two changes that touch zone records only make one. -/
theorem State.zonesOnly_trans {s t u : State} {a b c d : ZoneRec} (h : t = { s with zoneMain := a, zoneTwo := b })
    (h1 : u = { t with zoneMain := c, zoneTwo := d }) : u = { s with zoneMain := c, zoneTwo := d } := by rw [h1, h]

/-! ## CLEAR_SOURCE (R69) -/

/-- A zone holds an entry as the target of its switch, or as its selection while not in STANDBY (R69). -/
theorem State.zoneUses_iff (s : State) (z : Zone) (e : Fin 12) : s.zoneUses z e = true ↔
    (s.zone z).target = some e ∨ ((s.zone z).selection = some e ∧ (s.zone z).power ≠ .standby) := by
  simp [State.zoneUses]

/-- CLEAR_SOURCE of an index above 11 (R69). -/
theorem cmdClearSource_badArg (entry : Byte) (s : State) (h : 11 < entry.toNat) :
    cmdClearSource entry s = refuse s .badArg := by
  simp [cmdClearSource, fin12?_none _ h]

/-- CLEAR_SOURCE of an entry: IN_USE while a path is bound to it or a zone uses it, else its power-on values (R69). -/
theorem cmdClearSource_entry (entry : Byte) (s : State) (e : Fin 12) (h : e.val = entry.toNat) :
    let used := s.boundPath e ≠ none ∨ ∃ z, s.zoneUses z e = true
    (used → cmdClearSource entry s = refuse s .inUse)
    ∧ (¬ used → cmdClearSource entry s
        = done (((s.putSource e SourceEntry.powerOn).forgetSelection .main e).forgetSelection .zone2 e) 0) := by
  intro used
  have hused : ((s.boundPath e).isSome ∨ s.zoneUses .main e = true ∨ s.zoneUses .zone2 e = true) ↔ used := by
    rw [Option.isSome_iff_ne_none]
    refine or_congr_right ⟨?_, fun ⟨z, hz⟩ => ?_⟩
    · rintro (hz | hz)
      · exact ⟨_, hz⟩
      · exact ⟨_, hz⟩
    · cases z
      · exact .inl hz
      · exact .inr hz
  simp only [cmdClearSource, fin12?_some _ e h]
  exact ⟨fun hu => if_pos (hused.mpr hu), fun hu => if_neg (mt hused.mp hu)⟩

/-- Settles O29: the changed lane list, the forgotten selections, and the three answers. -/
theorem clearSource : Obligations.ClearSource := by
  refine ⟨?put, ?forget, ?command⟩
  case put =>
    intro u e r old w both placed place running
    have hw : w.source e = r := u.source_setSource_same e r
    refine ⟨u.putSource_same e r, fun hne => ⟨w.lanesReplaced e old, ?_⟩⟩
    have hput : u.putSource e r = w.lanesChanged e old := if_neg hne
    obtain ⟨heq, hgroup, hothers, hlane⟩ := w.lanesReplaced_spec e old
    rw [hw] at hgroup hlane
    have hplaced (l : Fin 4) : (w.lane l).placed = true ↔ placed l := by
      simp only [LaneRec.placed, Bool.or_eq_true, decide_eq_true_eq, or_assoc]
      exact Iff.rfl
    have hplace (l : Fin 4) : w.placedState l (w.laneConfig l) = place l := rfl
    refine ⟨?_, heq, hgroup, hothers, fun l => ?_⟩
    · have hmism : (both.filter fun l => (w.lane l).placed && decide (w.placedState l (w.laneConfig l) = .mismatch))
          = both.filter fun l => decide (placed l ∧ place l = .mismatch) := by
        refine List.filter_congr fun l _ => ?_
        rw [Bool.eq_iff_iff, Bool.and_eq_true, hplaced, hplace, decide_eq_true_eq, decide_eq_true_eq]
      rw [hput, w.lanesChanged_eq, hw, hmism]
      rfl
    · rw [hlane l, hplace]
      simp only [hplaced]
      rfl
  case forget =>
    intro u e v
    refine ⟨?_, fun z => ?_⟩
    · exact State.zonesOnly_trans (u.forgetSelection_eq .main e) ((u.forgetSelection .main e).forgetSelection_eq .zone2 e)
    · have hz : v.zone z = if (u.zone z).selection = some e then { u.zone z with selection := none } else u.zone z := by
        cases z <;> simp [v, State.forgetSelection_zone]
      exact ⟨fun h => hz.trans (if_pos h), fun h => hz.trans (if_neg h)⟩
  case command =>
    intro s entry h
    refine ⟨fun hb => ?_, fun e he => ?_⟩
    · exact congrArg Host.Outcome.next (s.runHost_answered id h rfl (cmdClearSource_badArg entry _ hb))
    · intro used
      obtain ⟨hrefused, hclears⟩ := cmdClearSource_entry entry (s.handOver 0x12 entry []) e he
      simp only [State.zoneUses_iff, State.handOver_zoneAt, State.handOver_boundPath] at hrefused hclears
      refine ⟨fun hu => ?_, fun hu => ?_⟩
      · exact congrArg Host.Outcome.next (s.runHost_answered id h rfl (hrefused hu))
      · exact congrArg Host.Outcome.next (s.runHost_answered
          (fun u => ((u.putSource e SourceEntry.powerOn).forgetSelection .main e).forgetSelection .zone2 e) h rfl
          (hclears hu))

end Sys2Proof.Machine
end

