-- ==== Sys2Proof/Proofs/LaneFrames.lean ====
section
/-! SUPPORT. A lane frame: its kind, its copy of the configuration and its samples read off its bytes (R49, R53, R200),
what it does by the lane's state (R51 to R53, R57, R61), and what a loss does (R56). -/

namespace Sys2Proof.Machine

open Sys2Proof

/-! ## A frame by its bytes (R49, R53, R200) -/

/-- A frame without an error: its symbols are valid, its marker is one of the four, its parity is the exclusive-or of the
bytes before it (R49, R200). -/
def FrameGood (f : LaneFrame) : Prop :=
  f.symbolsValid = true ∧ (f.marker ∈ [(0x3C : Byte), 0xB5, 0x6A, 0xD3]) ∧ f.parity = frameXor f

/-- A frame has an error exactly when it is not good. -/
theorem frameErrors_iff (f : LaneFrame) : (symbolError f || parityError f) = true ↔ ¬ FrameGood f := by
  have hmarker : markerKnown f = true ↔ f.marker ∈ [(0x3C : Byte), 0xB5, 0x6A, 0xD3] := by
    simp [markerKnown, or_assoc]
  have hsymbol : symbolError f = false ↔ f.symbolsValid = true ∧ f.marker ∈ [(0x3C : Byte), 0xB5, 0x6A, 0xD3] := by
    rw [← hmarker, symbolError, Bool.or_eq_false_iff, Bool.not_eq_false', Bool.not_eq_false']
  rw [FrameGood, ← and_assoc, ← hsymbol, parityError]
  cases symbolError f
  · simpa using ne_comm
  · simp

/-- A frame with an error is taken as errored; one without is taken by its marker (R49). -/
theorem frameKind_cases (f : LaneFrame) :
    (¬ FrameGood f → frameKind f = .errored)
    ∧ (FrameGood f → frameKind f = (if f.marker = 0x3C then .fill else if f.marker = 0xB5 then .sync
        else if f.marker = 0x6A then .preamble else .data)) :=
  ⟨fun h => if_pos ((frameErrors_iff f).mpr h), fun h => if_neg fun he => (frameErrors_iff f).mp he h⟩

/-- The copy of a PREAMBLE frame: its fields are valid, its check byte is their sum, and it carries them (R53, R200). -/
theorem frameCopy_iff (f : LaneFrame) (c : LaneConfig) :
    let group := fieldBits f.fieldA 0 4
    let index := fieldBits f.fieldA 4 4
    let count := fieldBits f.fieldA 8 4
    let rate := fieldBits f.fieldA 12 4
    let width := fieldBits f.fieldA 16 8
    let role1 := fieldBits f.fieldB 0 8
    let role2 := fieldBits f.fieldB 8 8
    frameCopy f = some c ↔
      (fieldBits f.fieldB 16 8 = (group + index + count + rate + width + role1 + role2) % 256 ∧ group ≤ 3 ∧ 1 ≤ count
        ∧ count ≤ 4 ∧ index < count ∧ (width = 16 ∨ width = 20 ∨ width = 24) ∧ role1 ≤ 12 ∧ role2 ≤ 12
        ∧ (role1 ≠ role2 ∨ role1 = 0))
      ∧ c.group = group ∧ c.index = index ∧ c.count = count ∧ c.rate.code = rate ∧ c.width = width
      ∧ c.role1.code = role1 ∧ c.role2.code = role2 := by
  intro group index count rate width role1 role2
  obtain ⟨cgroup, cindex, ccount, crate, cwidth, crole1, crole2⟩ := c
  simp only [← Rate.ofCode_iff, ← Role.ofCode_iff]
  show (match Rate.ofCode rate, Role.ofCode role1, Role.ofCode role2 with
    | some r, some a, some b => _
    | _, _, _ => none) = _ ↔ _
  cases Rate.ofCode rate with
  | none => simp
  | some r =>
    cases Role.ofCode role1 with
    | none => simp
    | some a =>
      cases Role.ofCode role2 with
      | none => simp
      | some b =>
        simp only [Option.ite_none_right_eq_some, Option.some.injEq, LaneConfig.mk.injEq]
        refine and_congr_right fun _ => ⟨?_, ?_⟩
        all_goals
          rintro ⟨rfl, rfl, rfl, rfl, rfl, rfl, rfl⟩
          exact ⟨rfl, rfl, rfl, rfl, rfl, rfl, rfl⟩

/-- A sample of a DATA frame: the field with its low bits cleared, as a signed number (R49). -/
theorem fieldSample_eq (w : Nat) (x : BitVec 24) :
    fieldSample w x = (BitVec.ofNat 24 (x.toNat / 2 ^ (24 - w) * 2 ^ (24 - w))).toInt := by
  have h : (x >>> (24 - w)) <<< (24 - w) = BitVec.ofNat 24 (x.toNat / 2 ^ (24 - w) * 2 ^ (24 - w)) := by
    apply BitVec.eq_of_toNat_eq
    simp [BitVec.toNat_shiftLeft, Nat.shiftLeft_eq, Nat.shiftRight_eq_div_pow]
  rw [fieldSample, h]

/-! ## A frame arrives (R49, R51) -/

/-- The record of a lane to which a frame has come: it counts for the realign request and for the silence count (R51,
R56). -/
def LaneRec.received (r : LaneRec) : LaneRec := { r.countRealign with arrived := true }

/-- A frame on a disabled lane has no effect (R49). -/
theorem State.receiveFrame_disabled (s : State) (l : Fin 4) (f : LaneFrame) (h : (s.lane l).enable = false) :
    s.receiveFrame l f = s := if_pos h

/-- A frame on an enabled lane is handled by the lane's state (R49). -/
theorem State.receiveFrame_enabled (s : State) (l : Fin 4) (f : LaneFrame) (h : (s.lane l).enable = true) :
    s.receiveFrame l f = (s.setLane l (s.lane l).received).frameByState l (frameKind f) f :=
  if_neg (by simp [h])

section byState

variable {s : State} {l : Fin 4} {r : LaneRec} {k : FrameKind} {f : LaneFrame}

/-- A frame in HUNT counts the run of SYNC frames (R52). -/
theorem State.frameByState_hunt (hs : r.state = .hunt) :
    (s.setLane l r).frameByState l k f = s.setLane l (r.huntFrame k) := by
  simp [State.frameByState, hs]

/-- A frame in SYNCED that is neither DATA nor a PREAMBLE is ignored (R52). -/
theorem State.frameByState_synced_ignored (hs : r.state = .synced) (hk : k = .sync ∨ k = .fill ∨ k = .errored) :
    (s.setLane l r).frameByState l k f = s.setLane l r := by
  rcases hk with rfl | rfl | rfl <;> simp [State.frameByState, hs]

/-- A DATA frame in SYNCED asks for a realignment (R51, R52). -/
theorem State.frameByState_synced_data (hs : r.state = .synced) (hk : k = .data) :
    (s.setLane l r).frameByState l k f = s.setLane l r.askRealign := by
  simp [State.frameByState, hs, hk]

/-- A SYNC frame in PREAMBLE takes the lane back to SYNCED (R53). -/
theorem State.frameByState_preamble_sync (hs : r.state = .preamble) (hk : k = .sync) :
    (s.setLane l r).frameByState l k f = s.setLane l r.toSynced := by
  simp [State.frameByState, hs, hk]

/-- A frame in PREAMBLE that is neither SYNC nor a PREAMBLE breaks the preamble (R53). -/
theorem State.frameByState_preamble_breaks (hs : r.state = .preamble) (hk : k = .fill ∨ k = .errored ∨ k = .data) :
    (s.setLane l r).frameByState l k f = s.setLane l r.breakPreamble := by
  rcases hk with rfl | rfl | rfl <;> simp [State.frameByState, hs]

/-- A PREAMBLE frame in SYNCED or PREAMBLE brings a copy (R52, R53). -/
theorem State.frameByState_copy (hs : r.state = .synced ∨ r.state = .preamble) (hk : k = .preamble) :
    (s.setLane l r).frameByState l k f = (s.setLane l r).preambleFrame l f := by
  rcases hs with hs | hs <;> simp [State.frameByState, hs, hk]

/-- A frame in ALIGNED is handled with the lane's group (R57, R59). -/
theorem State.frameByState_aligned (hs : r.state = .aligned) :
    (s.setLane l r).frameByState l k f = (s.setLane l r).alignedFrame l k f := by
  simp [State.frameByState, hs]

/-- A frame in DATA (R61). -/
theorem State.frameByState_data (hs : r.state = .data) :
    (s.setLane l r).frameByState l k f = (s.setLane l r).dataFrame l k f := by
  simp [State.frameByState, hs]

/-- A frame in MISMATCH: only SYNC acts (R55). -/
theorem State.frameByState_mismatch (hs : r.state = .mismatch) :
    (s.setLane l r).frameByState l k f = s.setLane l (if k = .sync then r.toSynced else r) := by
  by_cases hk : k = .sync <;> simp [State.frameByState, hs, hk]

/-- A copy that is not valid breaks the preamble (R53). -/
theorem State.preambleFrame_invalid (hc : frameCopy f = none) :
    (s.setLane l r).preambleFrame l f = s.setLane l r.breakPreamble := by
  simp [State.preambleFrame, hc]

/-- The first copy of a preamble is kept (R52). -/
theorem State.preambleFrame_first {c : LaneConfig} (hc : frameCopy f = some c) (hf : r.firstCopy = none) :
    (s.setLane l r).preambleFrame l f
      = s.setLane l { r with state := .preamble, copies := 1, firstCopy := some c } := by
  simp [State.preambleFrame, hc, hf]

/-- A copy that differs from the first breaks the preamble (R53). -/
theorem State.preambleFrame_differs {c d : LaneConfig} (hc : frameCopy f = some c) (hf : r.firstCopy = some d)
    (hne : c ≠ d) : (s.setLane l r).preambleFrame l f = s.setLane l r.breakPreamble := by
  simp [State.preambleFrame, hc, hf, hne]

/-- An equal copy is counted, and the fourth completes the preamble (R53, R54). -/
theorem State.preambleFrame_equal {c : LaneConfig} (hc : frameCopy f = some c) (hf : r.firstCopy = some c) :
    (s.setLane l r).preambleFrame l f
      = if r.copies = 3 then (s.setLane l r).placeLane l c else s.setLane l { r with copies := r.copies + 1 } := by
  simp [State.preambleFrame, hc, hf]

/-- An errored frame or a PREAMBLE in DATA with the error count at its threshold takes the group out of DATA (R61). -/
theorem State.dataFrame_threshold (hk : k = .errored ∨ k = .preamble) (ht : r.threshold ≤ min 255 (r.errors + 1)) :
    (s.setLane l r).dataFrame l k f
      = (s.setLane l r.countError).dropGroup l LaneRec.fallToHunt .threshold := by
  have hlimit : r.countError.threshold ≤ r.countError.errors := ht
  rcases hk with rfl | rfl <;> simp [State.dataFrame, hlimit]

end byState

/-! ## A lane falls silent (R56) -/

/-- The beginning of a block keeps the lanes. -/
theorem State.begun_lane (s : State) (l : Fin 4) : s.begun.lane l = s.lane l := by
  rw [s.begun_eq]
  rfl

/-- The beginning of a block keeps the group of a lane. -/
theorem State.begun_groupOfLane (s : State) (l : Fin 4) : s.begun.groupOfLane l = s.groupOfLane l := by
  rw [s.begun_eq]
  rfl

/-- The beginning of a block keeps the source table. -/
theorem State.begun_source (s : State) (e : Fin 12) : s.begun.source e = s.source e := by
  rw [s.begun_eq]
  rfl

/-- The beginning of a block raises no report. -/
theorem State.begun_rep (s : State) : s.begun.rep = s.rep := by rw [s.begun_eq]

/-- LANE_LOSS does not occur: a frame came, or the silence count is not at 3 (R56). -/
theorem execLaneLoss_none (s : State) (l : Fin 4) (h : (s.lane l).arrived = true ∨ (s.lane l).silence ≠ 3) :
    execLaneLoss l s = .next s := by
  have hnot : State.laneLossOccurs l s.begun = false := by
    rw [s.begun_eq]
    show (decide ((s.lane l).arrived = false) && decide ((s.lane l).silence = 3)) = false
    rcases h with h | h <;> simp [h]
  exact congrArg Host.Outcome.next (blockEvent_none _ _ _ _ s (.inr hnot))

/-- LANE_LOSS that occurs: the block begins, the lane is lost with its silence count at 4, and its part is marked (R56). -/
theorem execLaneLoss_occurs {s u : State} {l : Fin 4} (hm : BlockPart.lane l ∉ s.taken) (ha : (s.lane l).arrived = false)
    (hs : (s.lane l).silence = 3) (hu : (s.begun.setLane l { s.lane l with silence := 4 }).laneLost l = u)
    (ht : u.taken = s.begun.taken) : execLaneLoss l s = .next { u with taken := .lane l :: s.begun.taken } := by
  have hlane := s.begun_lane l
  have hocc : State.laneLossOccurs l s.begun = true := by
    simp [State.laneLossOccurs, hlane, ha, hs]
  obtain ⟨-, -, hfourth, -⟩ := s.begun.laneBlock_cases l
  have hpart := hfourth (by rw [hlane, ha]) (by rw [hlane, hs])
  rw [hlane, hu] at hpart
  refine congrArg Host.Outcome.next ((blockEvent_occurs _ _ _ _ s hm hocc).trans ?_)
  rw [hpart, ht]

section lost

variable {b : State} {l : Fin 4} {r : LaneRec}

/-- A lane in HUNT, MISMATCH or DISABLED has nothing to lose (R56). -/
theorem State.laneLost_none (h : r.state = .hunt ∨ r.state = .mismatch ∨ r.state = .disabled) :
    (b.setLane l r).laneLost l = b.setLane l r := by
  rcases h with h | h | h <;> simp [State.laneLost, h]

/-- A lane that is lost out of SYNCED, PREAMBLE, or ALIGNED without a measuring group goes to HUNT alone (R56). -/
theorem State.laneLost_alone (h : r.state = .synced ∨ r.state = .preamble
      ∨ (r.state = .aligned ∧ ∀ e g, b.groupOfLane l = some (e, g) → g.stage ≠ .measuring)) :
    (b.setLane l r).laneLost l = (b.setLane l r.toHunt).laneReport l .loss := by
  rcases h with h | h | ⟨h, hg⟩
  · simp [State.laneLost, h]
  · simp [State.laneLost, h]
  · simp [State.laneLost, h, (b.setLane l r).leaveMeasuring_same l hg]

/-- A lane that is lost out of ALIGNED takes its measuring group back to FORMING (R56, R58). -/
theorem State.laneLost_measuring {e : Fin 12} {g : GroupRec} (h : r.state = .aligned)
    (hg : b.groupOfLane l = some (e, g)) (hm : g.stage = .measuring) :
    ∃ v : State, (b.setLane l r).laneLost l = v.laneReport l .loss ∧ b.Reforms v e l r.toHunt LaneRec.clearDeskew := by
  have hr := (b.setLane l r).leaveMeasuring_reforms l e g LaneRec.toHunt hg hm
  rw [State.lane_setLane_same] at hr
  exact ⟨_, by simp only [State.laneLost, State.lane_setLane_same, h], hr.of_setLane⟩

/-- A lane that is lost out of DATA takes its group out of DATA (R56, R62). -/
theorem State.laneLost_data {e : Fin 12} {g : GroupRec} (h : r.state = .data) (hg : b.groupOfLane l = some (e, g)) :
    ∃ v : State, (b.setLane l r).laneLost l = v.laneReports (b.source e).lanes .loss
      ∧ b.Reforms v e l r.fallToHunt LaneRec.fallToHunt := by
  obtain ⟨v, hv, hr⟩ := b.dropGroup_reforms l e g r LaneRec.fallToHunt .loss hg
  exact ⟨v, by simp only [State.laneLost, State.lane_setLane_same, h, hv], hr⟩

end lost

/-! ## The statement -/

/-- Settles O47: a frame by the lane's state, a loss, the end of a realign request, and a frame's bytes. -/
theorem laneEvents : Obligations.LaneEvents := by
  refine ⟨fun s l f h => congrArg Host.Outcome.next (s.receiveFrame_disabled l f h), ?frame, ?loss, ?realign, ?bytes⟩
  case frame =>
    intro s l f hen left r k hunt synced leaves
    have hrun : exec (.laneFrame l f) s = .next ((s.setLane l r).frameByState l k f) :=
      congrArg Host.Outcome.next (s.receiveFrame_enabled l f hen)
    have hleaves {x : LaneRec} (h : (s.setLane l r).frameByState l k f = s.setLane l x) : leaves x :=
      hrun.trans (congrArg Host.Outcome.next h)
    refine ⟨fun hs hk => ?_, fun hs hk hn => ?_, fun hs hk hn => ?_, fun hs hk => ?_, fun hs hk => ?_,
      fun c hs hk hc hf => ?_, fun hs hk hc => ?_, fun hs hk => ?_, fun hs hk => ?_, fun hs hk hc => ?_,
      fun c hs hk hc hf hn => ?_, fun hs hk => ?_, fun hs hk => ?_, fun e g hs hk hg ht => ?_⟩
    · exact hleaves ((State.frameByState_hunt hs).trans (by rw [LaneRec.huntFrame, if_neg hk]))
    · have hfour : ¬ r.syncRun + 1 = 4 := by omega
      exact hleaves ((State.frameByState_hunt hs).trans (by rw [LaneRec.huntFrame, if_pos hk, if_neg hfour]))
    · have hfour : r.syncRun + 1 = 4 := by omega
      exact hleaves ((State.frameByState_hunt hs).trans (by rw [LaneRec.huntFrame, if_pos hk, if_pos hfour]; rfl))
    · exact hleaves (State.frameByState_synced_ignored hs hk)
    · exact hleaves (State.frameByState_synced_data hs hk)
    · exact hleaves ((State.frameByState_copy (.inl hs) hk).trans (State.preambleFrame_first hc hf))
    · exact hleaves ((State.frameByState_copy (.inl hs) hk).trans (State.preambleFrame_invalid hc))
    · exact hleaves (State.frameByState_preamble_sync hs hk)
    · exact hleaves (State.frameByState_preamble_breaks hs hk)
    · refine hleaves ((State.frameByState_copy (.inr hs) hk).trans ?_)
      rcases hc with hc | ⟨c, d, hc, hf, hne⟩
      · exact State.preambleFrame_invalid hc
      · exact State.preambleFrame_differs hc hf hne
    · exact hleaves ((State.frameByState_copy (.inr hs) hk).trans
        ((State.preambleFrame_equal hc hf).trans (if_neg hn)))
    · exact hleaves ((State.frameByState_mismatch hs).trans (by rw [if_neg hk]))
    · exact hleaves ((State.frameByState_mismatch hs).trans (by rw [if_pos hk]; rfl))
    · obtain ⟨v, hv, hr⟩ := s.dropGroup_reforms l e g r.countError LaneRec.fallToHunt .threshold hg
      have hdrops := (State.frameByState_data (s := s) (l := l) (k := k) (f := f) hs).trans
        ((State.dataFrame_threshold hk ht).trans hv)
      refine ⟨_, hrun.trans (congrArg Host.Outcome.next hdrops), ?_, ?_, fun x hx => ?_⟩
      · rw [State.lane_laneReports, hr.mine]
        rfl
      · rw [State.group_laneReports, hr.group]
        rfl
      · rw [State.lane_laneReports]
        by_cases hxl : x = l
        · rw [hxl, hr.mine]
          exact ⟨rfl, rfl, rfl⟩
        · rw [hr.others x hx hxl]
          exact ⟨rfl, rfl, rfl⟩
  case loss =>
    intro s l hm b r lost forming
    refine ⟨execLaneLoss_none s l, fun ha hs hst => ?_, fun ha hs hst => ?_, fun e g ha hs hst hg hmeas => ?_,
      fun e g ha hs hst hg => ?_⟩
    · exact execLaneLoss_occurs hm ha hs (State.laneLost_none hst) rfl
    · rw [← s.begun_groupOfLane] at hst
      exact execLaneLoss_occurs hm ha hs (State.laneLost_alone hst) (State.laneReport_taken ..)
    · rw [← s.begun_groupOfLane] at hg
      obtain ⟨v, hv, hr⟩ := State.laneLost_measuring (r := { s.lane l with silence := 4 }) hst hg hmeas
      refine ⟨v, execLaneLoss_occurs hm ha hs hv ((State.laneReport_taken ..).trans hr.taken),
        hr.rep.trans s.begun_rep, hr.block, hr.mine, hr.group, fun x hx hxl => ?_⟩
      rw [hr.others x (by rwa [s.begun_source]) hxl, s.begun_lane]
      rfl
    · rw [← s.begun_groupOfLane] at hg
      obtain ⟨v, hv, hr⟩ := State.laneLost_data (r := { s.lane l with silence := 4 }) hst hg
      rw [s.begun_source] at hv
      refine ⟨v, execLaneLoss_occurs hm ha hs hv ((State.laneReports_taken ..).trans hr.taken),
        hr.rep.trans s.begun_rep, hr.block, hr.mine, hr.group, fun x hx hxl => ?_⟩
      rw [hr.others x (by rwa [s.begun_source]) hxl, s.begun_lane]
      rfl
  case realign =>
    intro s l
    refine ⟨fun h => congrArg Host.Outcome.next ((if_pos h).trans ?_), fun h => congrArg Host.Outcome.next (if_neg h)⟩
    simp [LaneRec.countRealign, h]
  case bytes =>
    intro f cfg byte xor good a b group index count rate width role1 role2 w sample
    refine ⟨(frameKind_cases f).1, (frameKind_cases f).2, fun c => ?_, ?_⟩
    · have hgroup : fieldBits f.fieldA 0 4 = group := congrArg (· % 16) (Nat.div_one a)
      have hwidth : fieldBits f.fieldA 16 8 = width := Nat.mod_eq_of_lt (Nat.div_lt_of_lt_mul f.fieldA.isLt)
      have hrole : fieldBits f.fieldB 0 8 = role1 := congrArg (· % 256) (Nat.div_one b)
      have hcheck : fieldBits f.fieldB 16 8 = b / 65536 := Nat.mod_eq_of_lt (Nat.div_lt_of_lt_mul f.fieldB.isLt)
      refine Iff.trans (frameCopy_iff f c) ?_
      rw [hgroup, hwidth, hrole, hcheck]
      simp only [and_assoc]
      exact Iff.rfl
    · exact Prod.ext (fieldSample_eq w f.fieldA) (fieldSample_eq w f.fieldB)

end Sys2Proof.Machine
end

