-- ==== Sys2Proof/Proofs/GroupWork.lean ====
section
/-! SUPPORT. A lane's frames in its group: the lane that is placed (R54) and the comparison (R58), frames in MEASURING (R59)
and in DATA (R60, R61), the group frames (R60), and the frames that arrive at a path (R91, R92, R104). -/

namespace Sys2Proof.Machine

open Sys2Proof

/-! ## A lane is placed and its group compares (R54, R58) -/

section placing

variable {s : State} {l : Fin 4} {r : LaneRec} {c : LaneConfig}

/-- A lane that stands in no LANE_GROUP entry is ALIGNED (R54). -/
theorem State.placeLane_free (he : s.entryOfLane l = none) :
    (s.setLane l r).placeLane l c
      = s.setLane l { r with config := some c, copies := 0, firstCopy := none, state := .aligned } := by
  simp [State.placeLane, State.placedState, he]

/-- A lane whose configuration agrees with the table is ALIGNED, and its group compares (R54, R58). -/
theorem State.placeLane_fits {e : Fin 12} (he : s.entryOfLane l = some e)
    (hc : c.count = (s.source e).lanes.length ∧ c.index = posOf l (s.source e).lanes) :
    (s.setLane l r).placeLane l c
      = (s.setLane l { r with config := some c, copies := 0, firstCopy := none, state := .aligned }).groupCompare e := by
  simp [State.placeLane, State.placedState, he, hc]

/-- A lane whose configuration disagrees with the table is in MISMATCH, and is reported (R54). -/
theorem State.placeLane_disagrees {e : Fin 12} (he : s.entryOfLane l = some e)
    (hc : ¬ (c.count = (s.source e).lanes.length ∧ c.index = posOf l (s.source e).lanes)) :
    (s.setLane l r).placeLane l c
      = (s.setLane l { r with config := some c, copies := 0, firstCopy := none, state := .mismatch }).laneReport l
          .mismatch := by
  simp [State.placeLane, State.placedState, he, hc]

end placing

/-- A group that is not FORMING, or with a lane that is not ALIGNED, does not compare (R58). -/
theorem State.groupCompare_waits (v : State) (e : Fin 12) (g : GroupRec) (hg : v.group e = some g)
    (h : g.stage ≠ .forming ∨ ∃ x ∈ (v.source e).lanes, (v.lane x).state ≠ .aligned) : v.groupCompare e = v := by
  have hall : g.stage ≠ .forming ∨ ((v.source e).lanes.all fun l => decide ((v.lane l).state = .aligned)) = false := by
    simpa [List.all_eq_false] using h
  simp only [State.groupCompare, hg]
  exact if_pos hall

/-- A FORMING group all of whose lanes are ALIGNED compares: it begins to measure, or the lanes that differ go to MISMATCH
(R58). -/
theorem State.groupCompare_compares (v : State) (e : Fin 12) (g : GroupRec) (hg : v.group e = some g)
    (hf : g.stage = .forming) (hall : ∀ x ∈ (v.source e).lanes, (v.lane x).state = .aligned) :
    let bad := (v.source e).lanes.filter (v.differsFromFirst (v.source e).lanes)
    (bad = [] → v.groupCompare e = v.setGroup e (some
      { stage := .measuring, format := some (v.groupFormat (v.source e).lanes), opened := false }))
    ∧ (bad ≠ [] → v.groupCompare e
      = forEach (fun x t => (t.setLane x { t.lane x with state := .mismatch }).laneReport x .mismatch) bad v) := by
  intro bad
  have hgo : ¬ (g.stage ≠ .forming
      ∨ ((v.source e).lanes.all fun l => decide ((v.lane l).state = .aligned)) = false) := by
    simpa [List.all_eq_false, hf] using hall
  have hcompare : v.groupCompare e = if bad = [] then v.setGroup e (some
      { stage := .measuring, format := some (v.groupFormat (v.source e).lanes), opened := false })
      else forEach (fun x t => (t.setLane x { t.lane x with state := .mismatch }).laneReport x .mismatch) bad v := by
    simp only [State.groupCompare, hg]
    exact if_neg hgo
  exact ⟨fun h => hcompare.trans (if_pos h), fun h => hcompare.trans (if_neg h)⟩

/-- A lane differs from the first of its list in group id or rate (R58). -/
theorem State.differsFromFirst_iff (v : State) (y x : Fin 4) (ys : List (Fin 4)) :
    v.differsFromFirst (y :: ys) x = true ↔
      (v.laneConfig x).group ≠ (v.laneConfig y).group ∨ (v.laneConfig x).rate ≠ (v.laneConfig y).rate := by
  simp [State.differsFromFirst]

/-- The lanes of a list without repetition that satisfy a test, in the list's order, are those the test selects. -/
theorem sublist_eq_filter {α : Type} {p : α → Bool} {bad list : List α} (hs : bad.Sublist list) (hn : list.Nodup)
    (hm : ∀ x, x ∈ bad ↔ x ∈ list ∧ p x = true) : bad = list.filter p := by
  have hself : bad.filter p = bad := List.filter_eq_self.mpr fun x hx => ((hm x).mp hx).2
  have hsub : bad.Sublist (list.filter p) := hself ▸ hs.filter p
  refine hsub.eq_of_length (List.Perm.length_eq ?_)
  exact (List.perm_ext_iff_of_nodup (hs.nodup hn) (hn.filter p)).mpr fun x => by rw [hm x, List.mem_filter]

/-! ## Frames in ALIGNED (R57 to R59) -/

section aligned

variable {s : State} {l : Fin 4} {r : LaneRec} {k : FrameKind} {f : LaneFrame} {e : Fin 12} {g : GroupRec}

/-- A SYNC frame in ALIGNED where no group of the lane is measuring (R57). -/
theorem State.syncAligned_alone (h : ∀ e g, s.groupOfLane l = some (e, g) → g.stage ≠ .measuring) :
    (s.setLane l r).syncAligned l = s.setLane l r.toSynced := by
  simp [State.syncAligned, (s.setLane l r).leaveMeasuring_same l h]

/-- A SYNC frame in ALIGNED takes a measuring group back to FORMING (R57, R59). -/
theorem State.syncAligned_measuring (hg : s.groupOfLane l = some (e, g)) (hm : g.stage = .measuring) :
    s.Reforms ((s.setLane l r).syncAligned l) e l r.toSynced LaneRec.clearDeskew := by
  have hr := (s.setLane l r).leaveMeasuring_reforms l e g LaneRec.toSynced hg hm
  rw [State.lane_setLane_same] at hr
  exact hr.of_setLane

/-- A frame in ALIGNED on a lane without a group: only SYNC acts (R54, R57). -/
theorem State.alignedFrame_free (hg : s.groupOfLane l = none) :
    (s.setLane l r).alignedFrame l k f = s.setLane l (if k = .sync then r.toSynced else r) := by
  have hsync : (s.setLane l r).syncAligned l = s.setLane l r.toSynced :=
    State.syncAligned_alone fun e g h => by rw [hg] at h; cases h
  by_cases hk : k = .sync <;> simp [State.alignedFrame, hg, hk, hsync]

/-- A frame in ALIGNED while the group waits for its other lanes: a SYNC takes the lane to SYNCED, a DATA frame is early,
any other is ignored (R57). -/
theorem State.alignedFrame_waits (hg : s.groupOfLane l = some (e, g)) (hm : g.stage ≠ .measuring) :
    (s.setLane l r).alignedFrame l k f
      = if k = .sync then s.setLane l r.toSynced
        else if k = .data then (s.setLane l r.fallToHunt).laneReport l .early
        else s.setLane l r := by
  have hsync : (s.setLane l r).syncAligned l = s.setLane l r.toSynced :=
    State.syncAligned_alone fun e' g' h => by rw [hg] at h; cases h; exact hm
  simp [State.alignedFrame, hg, hm, hsync]

/-- A frame in ALIGNED while the group measures (R59). -/
theorem State.alignedFrame_measuring (hg : s.groupOfLane l = some (e, g)) (hm : g.stage = .measuring) :
    (s.setLane l r).alignedFrame l k f = (s.setLane l r).measureFrame l e g k f := by
  simp [State.alignedFrame, hg, hm]

/-- Before the group is opened a frame other than SYNC and DATA changes nothing (R59). -/
theorem State.measureFrame_unopened (hs : k ≠ .sync) (hd : k ≠ .data) (ho : g.opened = false) :
    (s.setLane l r).measureFrame l e g k f = s.setLane l r := by
  simp [State.measureFrame, hs, hd, ho]

/-- The first DATA frame of a group opens it and starts its lane (R59). -/
theorem State.measureFrame_opens (hd : k = .data) (ho : g.opened = false) :
    (s.setLane l r).measureFrame l e g k f
      = ((s.setGroup e (some { g with opened := true })).setLane l
          { r with started := true, buffer := r.buffer ++ [frameSamples f r.config], skew := 0 }).measureDone e
          { g with opened := true } := by
  simp [State.measureFrame, hd, ho, LaneRec.start, State.setGroup_setLane]

/-- A lane of an opened group starts with its own first DATA frame (R59). -/
theorem State.measureFrame_starts (hd : k = .data) (ho : g.opened = true) (hst : r.started = false) :
    (s.setLane l r).measureFrame l e g k f
      = (s.setLane l { r with started := true, buffer := r.buffer ++ [frameSamples f r.config] }).measureDone e g := by
  simp [State.measureFrame, hd, ho, hst, LaneRec.start]

/-- A lane of an opened group that has not started falls behind by a frame, up to 8; at the ninth the measurement fails
(R59). -/
theorem State.measureFrame_skews (hs : k ≠ .sync) (hd : k ≠ .data) (ho : g.opened = true) (hst : r.started = false) :
    (s.setLane l r).measureFrame l e g k f
      = if 8 ≤ r.skew then (s.setLane l r).failMeasure e else s.setLane l { r with skew := r.skew + 1 } := by
  have h : 9 ≤ r.skew + 1 ↔ 8 ≤ r.skew := by omega
  simp [State.measureFrame, hs, hd, ho, hst, h]

/-- A lane that has started buffers each frame, up to 16; at the seventeenth the measurement fails (R59). -/
theorem State.measureFrame_buffers (hs : k ≠ .sync) (ho : g.opened = true) (hst : r.started = true) :
    (s.setLane l r).measureFrame l e g k f
      = if 16 ≤ r.buffer.length then (s.setLane l r).failMeasure e
        else s.setLane l { r with buffer := r.buffer ++ [if k = .data then frameSamples f r.config else (0, 0)] } := by
  simp [State.measureFrame, hs, ho, hst]

/-- A measurement that fails with a frame of one of its lanes (R59). -/
theorem State.measureFrame_fails (hg : s.groupOfLane l = some (e, g)) :
    ∃ v : State, (s.setLane l r).failMeasure e = v.laneReports (s.source e).lanes .deskew
      ∧ s.Reforms v e l r.fallToHunt LaneRec.fallToHunt := by
  obtain ⟨-, -, hl⟩ := State.groupOfLane_spec hg
  obtain ⟨v, hv, hr⟩ := (s.setLane l r).failMeasure_reforms e l hl
  rw [State.lane_setLane_same] at hr
  exact ⟨v, hv, hr.of_setLane⟩

end aligned

/-! ## Frames in DATA (R60, R61) -/

section data

variable {s : State} {l : Fin 4} {r : LaneRec} {k : FrameKind} {f : LaneFrame} {e : Fin 12} {g : GroupRec}

/-- A frame that finds room in the deskew buffer enters it, and group frames are formed (R60). -/
theorem State.enterBuffer_room {two : Sample × Sample} (hg : s.groupOfLane l = some (e, g))
    (h : r.buffer.length < 16) :
    (s.setLane l r).enterBuffer l two
      = State.formFrames e 17 (s.setLane l { r with buffer := r.buffer ++ [two] }) := by
  obtain ⟨he, -, -⟩ := State.groupOfLane_spec hg
  have hroom : ¬ 16 ≤ r.buffer.length := by omega
  simp [State.enterBuffer, hroom, he]

/-- A frame that meets a full deskew buffer is a drift, which takes the group out of DATA (R60, R62). -/
theorem State.enterBuffer_full {two : Sample × Sample} (hg : s.groupOfLane l = some (e, g))
    (h : 16 ≤ r.buffer.length) :
    ∃ v : State, (s.setLane l r).enterBuffer l two = v.laneReports (s.source e).lanes .deskew
      ∧ s.Reforms v e l r.fallToHunt LaneRec.fallToHunt := by
  obtain ⟨v, hv, hr⟩ := s.dropGroup_reforms l e g r LaneRec.fallToHunt .deskew hg
  refine ⟨v, ?_, hr⟩
  rw [← hv]
  simp [State.enterBuffer, h]

/-- A good DATA frame in DATA enters the buffer (R61). -/
theorem State.dataFrame_data :
    (s.setLane l r).dataFrame l .data f
      = (s.setLane l (r.goodFrame (frameSamples f r.config))).enterBuffer l (frameSamples f r.config) := by
  simp [State.dataFrame]

/-- A FILL frame in DATA enters the buffer as its replacement (R61). -/
theorem State.dataFrame_fill :
    (s.setLane l r).dataFrame l .fill f = (s.setLane l r).enterBuffer l r.replacementFrame := by
  simp [State.dataFrame]

/-- A SYNC frame in DATA is counted and takes the group out of DATA (R61, R62). -/
theorem State.dataFrame_sync :
    (s.setLane l r).dataFrame l .sync f = (s.setLane l r.countError).dropGroup l LaneRec.toSynced .sync := by
  simp [State.dataFrame]

/-- Counting an error keeps what a frame is replaced by (R61). -/
theorem LaneRec.replacementFrame_countError (r : LaneRec) : r.countError.replacementFrame = r.replacementFrame := rfl

/-- An errored frame or a PREAMBLE in DATA below the threshold is counted and enters the buffer as its replacement
(R61). -/
theorem State.dataFrame_replaced (hk : k = .errored ∨ k = .preamble) (ht : min 255 (r.errors + 1) < r.threshold) :
    (s.setLane l r).dataFrame l k f = (s.setLane l r.countError).enterBuffer l r.replacementFrame := by
  have hlimit : ¬ r.countError.threshold ≤ r.countError.errors := Nat.not_le.mpr ht
  rcases hk with rfl | rfl <;> simp [State.dataFrame, hlimit, LaneRec.replacementFrame_countError]

/-- A good frame moves the run, and each 4096th takes 1 from the error count (R61). -/
theorem LaneRec.goodFrame_eq (r : LaneRec) (two : Sample × Sample) :
    r.goodFrame two = { r with
      goodRun := if r.goodRun = 4095 then 0 else r.goodRun + 1
      errors := if r.goodRun = 4095 then r.errors - 1 else r.errors
      lastGood := two } := by
  by_cases h : r.goodRun = 4095 <;> simp [LaneRec.goodFrame, h]

end data

/-! ## The group enters DATA and forms its frames (R59, R60) -/

/-- A measurement with a lane that has not started goes on (R59). -/
theorem State.measureDone_waits (v : State) (e : Fin 12) (g : GroupRec)
    (h : ∃ x ∈ (v.source e).lanes, (v.lane x).started = false) : v.measureDone e g = v := by
  refine if_neg ?_
  simpa using h

/-- The record of a lane that enters DATA (R60). -/
def LaneRec.joined (r : LaneRec) : LaneRec := { r with state := .data, errors := 0, goodRun := 0, lastGood := (0, 0) }

/-- When all lanes have started the group enters DATA: its lanes' counts are cleared, JOINED is reported, the format is
handed to the bound path, which rejoins, and the first group frames are formed (R60, R92, R101). -/
theorem State.measureDone_joins (v : State) (e : Fin 12) (g : GroupRec)
    (h : ∀ x ∈ (v.source e).lanes, (v.lane x).started = true) :
    ∃ w : State, w.rep = v.rep ∧ w.group e = some { g with stage := .running }
      ∧ (∀ x ∈ (v.source e).lanes, w.lane x = (v.lane x).joined)
      ∧ (v.boundPath e = none →
          v.measureDone e g = State.formFrames e 17 (w.laneReports (v.source e).lanes .joined))
      ∧ (∀ p f, v.boundPath e = some p → g.format = some f →
          v.measureDone e g
            = State.formFrames e 17 (((w.laneReports (v.source e).lanes .joined).handFormat p f).retrigger p)) := by
  obtain ⟨hmap, hlane⟩ := v.mapLanes_spec (v.source e).lanes LaneRec.joined fun _ => rfl
  generalize hu : v.mapLanes (v.source e).lanes LaneRec.joined = u at hmap hlane
  have hdone : v.measureDone e g = v.enterData e g := if_pos (by simpa using h)
  have henters : v.mapLanes (v.source e).lanes
      (fun r => { r with state := .data, errors := 0, goodRun := 0, lastGood := (0, 0) }) = u := hu
  have hbound : ((u.setGroup e (some { g with stage := .running })).laneReports (v.source e).lanes .joined).boundPath e
      = v.boundPath e := by
    rw [State.boundPath_laneReports, hmap]
    rfl
  refine ⟨u.setGroup e (some { g with stage := .running }), by rw [hmap]; rfl, State.group_setGroup_same ..,
    fun x hx => (hlane x).trans (if_pos hx), fun hb => ?_, fun p f hb hf => ?_⟩
  · simp only [hdone, State.enterData, henters, hbound, hb]
  · simp only [hdone, State.enterData, henters]
    generalize (u.setGroup e _).laneReports (v.source e).lanes .joined = joined at hbound ⊢
    simp only [hbound, hb, hf]

/-- Without lanes, or with a lane whose buffer is empty, no group frame is formed (R60). -/
theorem State.formFrames_ends (v : State) (e : Fin 12) (n : Nat)
    (h : (v.source e).lanes = [] ∨ ∃ x ∈ (v.source e).lanes, (v.lane x).buffer = []) : State.formFrames e n v = v := by
  cases n with
  | zero => rfl
  | succ n =>
    refine if_pos ?_
    rcases h with h | ⟨x, hx, hb⟩
    · exact .inr h
    · exact .inl (List.all_eq_false.mpr ⟨x, hx, by simp [hb]⟩)

/-- A group frame takes the oldest frame of each lane's buffer, and arrives at the path that is bound (R60). -/
theorem State.formFrames_forms (v : State) (e : Fin 12) (n : Nat) (hne : (v.source e).lanes ≠ [])
    (h : ∀ x ∈ (v.source e).lanes, (v.lane x).buffer ≠ []) :
    let frame : Frame := (v.source e).lanes.flatMap fun x => [(v.lane x).oldest.1, (v.lane x).oldest.2]
    let w := v.mapLanes (v.source e).lanes fun r => { r with buffer := r.buffer.drop 1 }
    (v.boundPath e = none → State.formFrames e (n + 1) v = State.formFrames e n w)
    ∧ (∀ p, v.boundPath e = some p → State.formFrames e (n + 1) v = State.formFrames e n (w.pushFrame p frame)) := by
  intro frame w
  have hgo : ¬ (((v.source e).lanes.all fun l => !(v.lane l).buffer.isEmpty) = false ∨ (v.source e).lanes = []) := by
    simpa [List.all_eq_false, hne] using h
  refine ⟨fun hb => (if_neg hgo).trans ?_, fun p hb => (if_neg hgo).trans ?_⟩
  · simp only [State.boundPath_mapLanes, hb, w]
  · simp only [State.boundPath_mapLanes, hb, w, frame]

/-! ## Frames that arrive at a path (R91, R92, R104) -/

/-- A frame is discarded while a format change is pending (R92). -/
theorem State.pushFrame_pending (v : State) (p : PathId) (frame : Frame) (h : (v.path p).formatPending = true) :
    v.pushFrame p frame = v := if_pos h

section full

variable {v : State} {p : PathId} {frame : Frame}

/-- A frame that meets a full FIFO later in an episode is dropped, and nothing else (R104). -/
theorem State.pushFrame_dropped (hf : (v.path p).formatPending = false) (hl : 2048 ≤ (v.path p).fifo.length)
    (ho : (v.path p).tracker.overrun = true) : v.pushFrame p frame = v := by
  simp [State.pushFrame, hf, hl, ho]

/-- The first drop of an episode is reported with the values of the last computed block, and retriggers (R101, R104). -/
theorem State.pushFrame_overruns {e : Fin 12} {y : Tracker} (hf : (v.path p).formatPending = false)
    (hl : 2048 ≤ (v.path p).fifo.length) (ho : (v.path p).tracker.overrun = false)
    (hb : (v.path p).binding = some e)
    (hy : Tracker.retrigger { (v.path p).tracker with overrun := true } (v.source e).gainG (v.source e).ratchetH = y) :
    v.pushFrame p frame
      = (v.setPath p { v.path p with tracker := y }).raise .tracker p.code
          (trackerPayload p { v.path p with tracker := y } .overrun y.state) := by
  have hsource (t : Tracker) : (v.setPath p { v.path p with tracker := t }).pathSource p = v.source e := by
    rw [State.pathSource_bound _ p e (by rw [State.path_setPath_same]; exact hb)]
    simp [State.source]
  have hretrigger : (v.setPath p { v.path p with tracker := { (v.path p).tracker with overrun := true } }).retrigger p
      = v.setPath p { v.path p with tracker := y } := by
    simp only [State.retrigger, hsource, State.path_setPath_same, State.setPath_setPath, hy]
  have hgo : ¬ (v.path p).formatPending = true := Bool.eq_false_iff.mp hf
  have hfirst : ¬ (v.path p).tracker.overrun = true := Bool.eq_false_iff.mp ho
  refine (if_neg hgo).trans ((if_pos hl).trans ((if_neg hfirst).trans ?_))
  simp only [hretrigger, State.path_setPath_same]

end full

/-- The payload of a TRACKER report of a path that is bound (R108). -/
theorem trackerPayload_bound (p : PathId) (r : PathRec) (e : Fin 12) (c : TrackerCause) (st : TrackerState)
    (hb : r.binding = some e) :
    let x := r.tracker.last
    trackerPayload p r c st
      = [BitVec.ofNat 8 p.code, BitVec.ofNat 8 e.val, BitVec.ofNat 8 c.code, BitVec.ofNat 8 st.code]
        ++ leBytes 2 x.b ++ leBytesInt 2 x.e ++ leBytesInt 4 x.c ++ leBytesInt 4 x.i ++ [BitVec.ofNat 8 x.g] := by
  simp only [trackerPayload, PathRec.sourceByte, hb, Option.map_some, optByte]

/-- A retrigger by the tracker's state (R101, log 52). -/
theorem Tracker.retrigger_cases (t : Tracker) (g h : Nat) :
    (t.state = .acquire → t.ratchet = false → t.retrigger g h = { t with timer := 256, gain := g })
    ∧ (t.state = .acquire → t.ratchet = true → t.retrigger g h = { t with timer := 256, gain := h })
    ∧ (t.state = .track →
        t.retrigger g h = { t with state := .acquire, timer := 256, ratchet := true, gain := h, slips := 0 })
    ∧ (t.state ≠ .acquire → t.state ≠ .track → t.retrigger g h = t) := by
  refine ⟨fun hs hr => ?_, fun hs hr => ?_, fun hs => ?_, fun hs ht => ?_⟩
  · simp [Tracker.retrigger, hs, hr]
  · simp [Tracker.retrigger, hs, hr]
  · simp [Tracker.retrigger, hs]
  · unfold Tracker.retrigger
    split
    · contradiction
    · contradiction
    all_goals rfl

/-- A retrigger keeps the values of the last computed block (R108). -/
theorem Tracker.retrigger_last (t : Tracker) (g h : Nat) : (t.retrigger g h).last = t.last := by
  unfold Tracker.retrigger
  split
  · split_ifs <;> rfl
  all_goals rfl

/-! ## The statement -/

/-- Settles O48: a frame by the lane's state in its group, the comparison, the entry to DATA, the group frames, and the
frames that arrive at a path. -/
theorem groupWork : Obligations.GroupWork := by
  refine ⟨?frames, ?compare, fun _ _ _ => ⟨rfl, rfl⟩,
    fun v e g => ⟨v.measureDone_waits e g, v.measureDone_joins e g⟩,
    fun v e n => ⟨v.formFrames_ends e n, v.formFrames_forms e n⟩, ?arrives⟩
  case frames =>
    intro s l f hen left r k two hunt synced forming gives leaves falls
    have hrun : exec (.laneFrame l f) s = .next ((s.setLane l r).frameByState l k f) :=
      congrArg Host.Outcome.next (s.receiveFrame_enabled l f hen)
    have hgives {t : State} (h : (s.setLane l r).frameByState l k f = t) : gives t :=
      hrun.trans (congrArg Host.Outcome.next h)
    have hfalls {e : Fin 12} {mine : LaneRec} {cause : LaneCause}
        (h : ∃ v : State, (s.setLane l r).frameByState l k f = v.laneReports (s.source e).lanes cause
          ∧ s.Reforms v e l mine LaneRec.fallToHunt) : falls e mine cause := by
      obtain ⟨v, hv, hr⟩ := h
      exact ⟨v, hgives hv, hr.rep, hr.group, hr.mine, hr.others⟩
    refine ⟨fun c hs hk hc hf hn => ?places, fun hs hg => ?free, fun e g hs hg hm => ?waits,
      fun e g hs hg hm => ?measures, fun e g hs hg => ?data⟩
    case places =>
      intro y
      have hplace : (s.setLane l r).frameByState l k f = (s.setLane l r).placeLane l c :=
        (State.frameByState_copy (.inr hs) hk).trans ((State.preambleFrame_equal hc hf).trans (if_pos hn))
      exact ⟨fun he => hgives (hplace.trans (State.placeLane_free he)), fun e he =>
        ⟨fun hfits => hgives (hplace.trans (State.placeLane_fits he hfits)),
          fun hnot => hgives (hplace.trans (State.placeLane_disagrees he hnot))⟩⟩
    case free =>
      have hframe := (State.frameByState_aligned (k := k) (f := f) hs).trans (State.alignedFrame_free hg)
      exact ⟨fun hk => hgives (hframe.trans (by rw [if_pos hk]; rfl)),
        fun hk => hgives (hframe.trans (by rw [if_neg hk]))⟩
    case waits =>
      have hframe := (State.frameByState_aligned (k := k) (f := f) hs).trans (State.alignedFrame_waits hg hm)
      refine ⟨fun hk => hgives (hframe.trans (if_pos hk)), fun hk => hgives (hframe.trans ?_),
        fun hk hd => hgives (hframe.trans ((if_neg hk).trans (if_neg hd)))⟩
      have hnot : k ≠ .sync := by rw [hk]; decide
      exact (if_neg hnot).trans (if_pos hk)
    case measures =>
      intro fails
      have hframe := (State.frameByState_aligned (k := k) (f := f) hs).trans (State.alignedFrame_measuring hg hm)
      have hfails (h : (s.setLane l r).measureFrame l e g k f = (s.setLane l r).failMeasure e) : fails := by
        obtain ⟨v, hv, hr⟩ := State.measureFrame_fails (r := r) hg
        exact hfalls ⟨v, hframe.trans (h.trans hv), hr⟩
      refine ⟨fun hk => ?_, fun hk hd ho => hgives (hframe.trans (State.measureFrame_unopened hk hd ho)),
        fun hd ho => hgives (hframe.trans (State.measureFrame_opens hd ho)),
        fun hd ho hst => hgives (hframe.trans (State.measureFrame_starts hd ho hst)), fun hk hd ho hst => ?_,
        fun hk ho hst => ?_⟩
      · have hr := State.syncAligned_measuring (r := r) hg hm
        exact ⟨_, hgives (hframe.trans (if_pos hk)), hr.rep, hr.mine, hr.group, hr.others⟩
      · have hskews := State.measureFrame_skews (s := s) (l := l) (e := e) (f := f) hk hd ho hst
        exact ⟨fun hlt => hgives (hframe.trans (hskews.trans (if_neg (by omega)))),
          fun hge => hfails (hskews.trans (if_pos hge))⟩
      · have hbuffers := State.measureFrame_buffers (s := s) (l := l) (e := e) (f := f) hk ho hst
        exact ⟨fun hlt => hgives (hframe.trans (hbuffers.trans (if_neg (by omega)))),
          fun hge => hfails (hbuffers.trans (if_pos hge))⟩
    case data =>
      intro put err enters
      have hframe : (s.setLane l r).frameByState l k f = (s.setLane l r).dataFrame l k f := State.frameByState_data hs
      have henters {x : LaneRec} {frame : Sample × Sample}
          (h : (s.setLane l r).dataFrame l k f = (s.setLane l x).enterBuffer l frame) : enters x frame := by
        refine ⟨fun hlt => hgives (hframe.trans (h.trans (State.enterBuffer_room hg hlt))), fun hge => hfalls ?_⟩
        obtain ⟨v, hv, hr⟩ := State.enterBuffer_full (two := frame) hg hge
        exact ⟨v, hframe.trans (h.trans hv), hr⟩
      have hdrops {x : LaneRec} {concerned : LaneRec → LaneRec} {cause : LaneCause}
          (h : (s.setLane l r).dataFrame l k f = (s.setLane l x).dropGroup l concerned cause) :
          falls e (concerned x).clearDeskew cause := by
        obtain ⟨v, hv, hr⟩ := s.dropGroup_reforms l e g x concerned cause hg
        exact hfalls ⟨v, hframe.trans (h.trans hv), hr⟩
      refine ⟨fun hk => henters ?_, fun hk => henters ?_, fun hk ht => henters (State.dataFrame_replaced hk ht),
        fun hk ht => hdrops (State.dataFrame_threshold hk ht),
        fun hk => hdrops (x := r.countError) (concerned := LaneRec.toSynced) ?_⟩
      · rw [hk, State.dataFrame_data, LaneRec.goodFrame_eq]
      · rw [hk, State.dataFrame_fill]
        rfl
      · rw [hk, State.dataFrame_sync]
  case compare =>
    intro v e g hg list differs
    refine ⟨v.groupCompare_waits e g hg, fun y ys hf hall hlist => ?_⟩
    obtain ⟨hmeasures, hreports⟩ := v.groupCompare_compares e g hg hf hall
    have hdiffers (x : Fin 4) : v.differsFromFirst list x = true ↔ differs y x := by
      rw [hlist]
      exact v.differsFromFirst_iff y x ys
    refine ⟨fun hsame => (hmeasures ?_).trans ?_, fun bad hne hbad hsub hnd => ?_⟩
    · exact List.filter_eq_nil_iff.mpr fun x hx h => hsame x hx ((hdiffers x).mp h)
    · refine congrArg (fun x => v.setGroup e (some { stage := .measuring, format := some x, opened := false })) ?_
      show v.groupFormat list = _
      rw [hlist]
      rfl
    · have heq : bad = list.filter (v.differsFromFirst list) :=
        sublist_eq_filter hsub hnd fun x => by rw [hbad x, hdiffers x]
      rw [heq] at hne ⊢
      exact hreports hne
  case arrives =>
    intro v p frame r x full
    refine ⟨v.pushFrame_pending p frame, v.pushFrame_fits p frame, fun ⟨hf, hl⟩ ho => State.pushFrame_dropped hf hl ho,
      fun e ⟨hf, hl⟩ ho hb => ?_⟩
    intro drops
    have hdrops {y : Tracker} (hy : Tracker.retrigger { x with overrun := true } (v.source e).gainG (v.source e).ratchetH
        = y) : drops y := by
      have hlast : y.last = x.last := hy ▸ Tracker.retrigger_last ..
      refine (State.pushFrame_overruns hf hl ho hb hy).trans (congrArg (State.raise _ _ _) ?_)
      refine (trackerPayload_bound p { r with tracker := y } e .overrun y.state hb).trans ?_
      simp only [hlast]
      rfl
    obtain ⟨hfirst, hratchet, htrack, hother⟩ :=
      Tracker.retrigger_cases { x with overrun := true } (v.source e).gainG (v.source e).ratchetH
    exact ⟨fun hs hr => hdrops (hfirst hs hr), fun hs hr => hdrops (hratchet hs hr),
      fun hs => hdrops (htrack hs), fun hs ht => hdrops (hother hs ht)⟩

end Sys2Proof.Machine
end

