-- ==== Sys2Proof/Proofs/Ranges.lean ====
section
/-! SUPPORT. The level invariant and the tracker invariant as one predicate of the records they speak of, and the rules
of the state's operations, paths, rings and tap for it. Either invariant is kept by itself, so each stands behind a
proposition (`lv`, `tr`); the operations are walked through once for both. -/

namespace Sys2Proof.Machine

open Sys2Proof

/-! ## The records -/

/-- A zone's levels lie in their ranges (R76, R77, R79). -/
def ZoneRec.LevelsIn (r : ZoneRec) : Prop :=
  (-240 ≤ r.ramp ∧ r.ramp ≤ 0) ∧ (-192 ≤ r.masterTarget ∧ r.masterTarget ≤ 24)
    ∧ (-192 ≤ r.masterCurrent ∧ r.masterCurrent ≤ 24) ∧ r.ceiling ≤ 24

/-- A channel's levels lie in their ranges (R165, R176, R178). -/
def Channel.LevelsIn (c : Channel) : Prop :=
  (-240 ≤ c.ramp ∧ c.ramp ≤ 0) ∧ (-48 ≤ c.lr ∧ c.lr ≤ 0) ∧ -24 ≤ c.trim ∧ c.trim ≤ 24

/-- The thermal component lies in its range, and moves toward one of its two targets (R193). -/
def Thermal.LevelsIn (r : Thermal) : Prop := (-12 ≤ r.t ∧ r.t ≤ 0) ∧ (r.tTarget = -12 ∨ r.tTarget = 0)

/-- A source entry's input trim lies in its range (R67, R68). -/
def SourceEntry.TrimIn (r : SourceEntry) : Prop := -24 ≤ r.trim ∧ r.trim ≤ 24

/-- A source entry's H is at most its G, and that at most 7 (R67, R68). -/
def SourceEntry.GainsIn (r : SourceEntry) : Prop := r.ratchetH ≤ r.gainG ∧ r.gainG ≤ 7

/-- The levels of the records that the gain sum reads (R174). -/
def LevelsIn (main two : ZoneRec) (sources : Vector SourceEntry 12) (chans : Vector Channel 12) (th : Thermal) : Prop :=
  main.LevelsIn ∧ two.LevelsIn ∧ (∀ e, (getAt sources e).TrimIn) ∧ (∀ c, (getAt chans c).LevelsIn) ∧ th.LevelsIn

/-- The bounds of the two trackers, and of the gains they take from a source entry (R94). -/
def TrackersIn (t0 t1 : Tracker) (sources : Vector SourceEntry 12) : Prop :=
  t0.BoundsOk ∧ t1.BoundsOk ∧ ∀ e, (getAt sources e).GainsIn

/-- The level invariant, under `lv`, and the tracker invariant, under `tr`, of the records they speak of. A change of
any other part of the state leaves it as it stands. -/
def State.InRange (lv tr : Prop) (s : State) : Prop :=
  (lv → LevelsIn s.zoneMain s.zoneTwo s.sources s.out.channels s.thermal)
    ∧ (tr → TrackersIn s.pathZero.tracker s.pathOne.tracker s.sources)

/-- Under a true `lv` the predicate gives the level invariant of the claims, which gives it with `tr` false. -/
theorem State.levelInv_iff (s : State) : s.LevelInv ↔ s.InRange True False := by
  constructor
  · intro ⟨zones, trims, channels, low, high, target⟩
    have zone (z : Zone) : (s.zone z).LevelsIn := by
      obtain ⟨h1, h2, h3, h4, h5, h6, h7⟩ := zones z
      exact ⟨⟨h1, h2⟩, ⟨h3, h4⟩, ⟨h5, h6⟩, h7⟩
    have chan (c : Fin 12) : (s.chan c).LevelsIn := by
      obtain ⟨h1, h2, h3, h4, h5, h6⟩ := channels c
      exact ⟨⟨h1, h2⟩, ⟨h3, h4⟩, h5, h6⟩
    exact ⟨fun _ => ⟨zone .main, zone .zone2, trims, chan, ⟨low, high⟩, target⟩, False.elim⟩
  · rintro ⟨h, -⟩
    obtain ⟨hmain, htwo, htrims, hchans, ⟨low, high⟩, target⟩ := h trivial
    refine ⟨fun z => ?_, htrims, fun c => ?_, low, high, target⟩
    · obtain ⟨⟨h1, h2⟩, ⟨h3, h4⟩, ⟨h5, h6⟩, h7⟩ : (s.zone z).LevelsIn := by cases z <;> assumption
      exact ⟨h1, h2, h3, h4, h5, h6, h7⟩
    · obtain ⟨⟨h1, h2⟩, ⟨h3, h4⟩, h5, h6⟩ := hchans c
      exact ⟨h1, h2, h3, h4, h5, h6⟩

/-- Under a true `tr` the predicate gives the tracker invariant of the claims, which gives it with `lv` false. -/
theorem State.trackerInv_iff (s : State) : s.TrackerInv ↔ s.InRange False True := by
  constructor
  · intro ⟨trackers, entries⟩
    exact ⟨False.elim, fun _ => ⟨trackers .p0, trackers .p1, entries⟩⟩
  · rintro ⟨-, h⟩
    obtain ⟨hzero, hone, hentries⟩ := h trivial
    exact ⟨fun p => by cases p <;> assumption, hentries⟩

section
variable {s : State} {lv tr : Prop}

/-- What it says of the entry a path is bound to. -/
theorem State.InRange.pathSource {p : PathId} (h : s.InRange lv tr) : tr → (s.pathSource p).GainsIn := by
  intro ht
  obtain ⟨-, -, hgains⟩ := h.2 ht
  unfold State.pathSource
  split
  · exact hgains _
  · exact ⟨by decide, by decide⟩

/-! ## Combinators -/

/-- Either branch keeps it. -/
theorem State.InRange.ite {c : Prop} [Decidable c] {a b : State} (ha : a.InRange lv tr) (hb : b.InRange lv tr) :
    (if c then a else b).InRange lv tr := by
  split
  · exact ha
  · exact hb

/-- Steps that keep it, one for each element of a list. -/
theorem State.InRange.forEach {α : Type} {f : α → State → State} (hf : ∀ x t, t.InRange lv tr → (f x t).InRange lv tr)
    {xs : List α} (h : s.InRange lv tr) : (forEach f xs s).InRange lv tr := by
  induction xs generalizing s with
  | nil => exact h
  | cons x xs ih => exact ih (hf x s h)

/-- A part of the block whose work keeps it. -/
theorem State.InRange.takePart {k : BlockPart} {f : State → State} (hf : ∀ t, t.InRange lv tr → (f t).InRange lv tr)
    (h : s.InRange lv tr) : (takePart k f s).InRange lv tr :=
  .ite h (hf s h)

/-- An event of the block whose stages and part keep it. -/
theorem State.InRange.blockEvent {k : BlockPart} {before f : State → State} {occurs : State → Bool}
    (hb : ∀ t, t.InRange lv tr → (before t).InRange lv tr) (hf : ∀ t, t.InRange lv tr → (f t).InRange lv tr)
    (h : s.InRange lv tr) : (blockEvent k before occurs f s).InRange lv tr :=
  .ite h (hf _ (hb s h))

/-! ## State operations -/

/-- A zone record whose levels are in range when those it replaces are. -/
theorem State.InRange.setZone {z : Zone} {r : ZoneRec} (h : s.InRange lv tr)
    (hr : (s.zone z).LevelsIn → r.LevelsIn) : (s.setZone z r).InRange lv tr := by
  refine ⟨fun hl => ?_, ?_⟩
  · obtain ⟨hmain, htwo, hrest⟩ := h.1 hl
    cases z
    · exact ⟨hr hmain, htwo, hrest⟩
    · exact ⟨hmain, hr htwo, hrest⟩
  · cases z
    · exact h.2
    · exact h.2

/-- A path record whose tracker is in bounds when the one it replaces is. -/
theorem State.InRange.setPath {p : PathId} {r : PathRec} (h : s.InRange lv tr)
    (hr : tr → (s.path p).tracker.BoundsOk → r.tracker.BoundsOk) :
    (s.setPath p r).InRange lv tr := by
  refine ⟨?_, fun ht => ?_⟩
  · cases p
    · exact h.1
    · exact h.1
  · obtain ⟨hzero, hone, hrest⟩ := h.2 ht
    cases p
    · exact ⟨hr ht hzero, hone, hrest⟩
    · exact ⟨hzero, hr ht hone, hrest⟩

/-- A source entry in range. -/
theorem State.InRange.setSource {e : Fin 12} {r : SourceEntry} (h : s.InRange lv tr) (hl : r.TrimIn)
    (ht : r.GainsIn) : (s.setSource e r).InRange lv tr := by
  refine ⟨fun l => ?_, fun t => ?_⟩
  · obtain ⟨hmain, htwo, htrims, hrest⟩ := h.1 l
    refine ⟨hmain, htwo, fun x => ?_, hrest⟩
    show (getAt (setAt s.sources e r) x).TrimIn
    rw [getAt_setAt]
    split_ifs
    · exact hl
    · exact htrims x
  · obtain ⟨hzero, hone, hgains⟩ := h.2 t
    refine ⟨hzero, hone, fun x => ?_⟩
    show (getAt (setAt s.sources e r) x).GainsIn
    rw [getAt_setAt]
    split_ifs
    · exact ht
    · exact hgains x

/-- An output unit whose channels' levels are in range when those they replace are. -/
theorem State.InRange.setOut {o : OutputUnit} (h : s.InRange lv tr)
    (hr : ∀ c, (s.chan c).LevelsIn → (getAt o.channels c).LevelsIn) :
    ({ s with out := o } : State).InRange lv tr := by
  refine ⟨fun hl => ?_, h.2⟩
  obtain ⟨hmain, htwo, htrims, hchans, hthermal⟩ := h.1 hl
  exact ⟨hmain, htwo, htrims, fun c => hr c (hchans c), hthermal⟩

/-- A channel record whose levels are in range when those it replaces are. -/
theorem State.InRange.setChan {c : Fin 12} {r : Channel} (h : s.InRange lv tr)
    (hr : (s.chan c).LevelsIn → r.LevelsIn) : (s.setChan c r).InRange lv tr := by
  refine h.setOut fun x hx => ?_
  show (getAt (setAt s.out.channels c r) x).LevelsIn
  rw [getAt_setAt]
  split_ifs with hc
  · exact hr (hc ▸ hx)
  · exact hx

/-- A thermal record in range, with any pins. -/
theorem State.InRange.setThermal {r : Thermal} {p : Pins} (h : s.InRange lv tr)
    (hr : s.thermal.LevelsIn → r.LevelsIn) :
    ({ s with thermal := r, pins := p } : State).InRange lv tr := by
  refine ⟨fun hl => ?_, h.2⟩
  obtain ⟨hmain, htwo, htrims, hchans, hthermal⟩ := h.1 hl
  exact ⟨hmain, htwo, htrims, hchans, hr hthermal⟩

/-- Putting a lane record in its place keeps it. -/
theorem State.InRange.setLane {l : Fin 4} {r : LaneRec} (h : s.InRange lv tr) : (s.setLane l r).InRange lv tr := h

/-- Putting a group record in its place keeps it. -/
theorem State.InRange.setGroup {e : Fin 12} {g : Option GroupRec} (h : s.InRange lv tr) :
    (s.setGroup e g).InRange lv tr := h

/-- Putting a pair record in its place keeps it. -/
theorem State.InRange.setPair {n : Fin 6} {r : Pair} (h : s.InRange lv tr) : (s.setPair n r).InRange lv tr := h

/-- Putting a ring in its place keeps it. -/
theorem State.InRange.setRing {i : Fin 16} {r : Option Ring} (h : s.InRange lv tr) : (s.setRing i r).InRange lv tr := h

/-- Placing a write in the injection queue keeps it. -/
theorem State.InRange.enqueue {i : Injected} (h : s.InRange lv tr) : (s.enqueue i).InRange lv tr := h

/-- A report keeps it. -/
theorem State.InRange.post {r : Report} (h : s.InRange lv tr) : (s.post r).InRange lv tr := by
  rw [s.post_eq]
  exact h

/-- Raising a report keeps it. -/
theorem State.InRange.raise {kind : ReportKind} {unit : Nat} {payload : List Byte} (h : s.InRange lv tr) :
    (s.raise kind unit payload).InRange lv tr := h.post

/-- A completion keeps it (R17). -/
theorem State.InRange.raiseDone {tag : Option Nat} {payload : List Byte} (h : s.InRange lv tr) :
    (s.raiseDone tag payload).InRange lv tr := by
  cases tag with
  | none => exact h
  | some t => exact h.post

/-- Writing the oldest pending report keeps it. -/
theorem State.InRange.writePending (h : s.InRange lv tr) : s.writePending.InRange lv tr := by
  unfold State.writePending
  split
  · exact h
  · exact .ite h h

/-! ## Trackers -/

/-- Values that no bound speaks of leave a tracker in its bounds. -/
theorem Tracker.BoundsOk.of_values {t u : Tracker} (h : t.BoundsOk)
    (hv : (u.corr, u.cmax, u.integ, u.gain, u.phase, u.step0, u.step)
      = (t.corr, t.cmax, t.integ, t.gain, t.phase, t.step0, t.step)) : u.BoundsOk := by
  simp only [Prod.mk.injEq] at hv
  obtain ⟨hcorr, hcmax, hinteg, hgain, hphase, hnominal, hstep⟩ := hv
  obtain ⟨h1, h2, h3, h4, h5, h6, h7⟩ := h
  exact ⟨by rw [hcorr, hcmax]; exact h1, hinteg ▸ h2, hinteg ▸ h3, hgain ▸ h4, hphase ▸ h5,
    by rw [hnominal, hcmax]; exact h6, hstep ▸ h7⟩

/-- So does a gain of at most 7. -/
theorem Tracker.BoundsOk.of_gain {t u : Tracker} (h : t.BoundsOk) (hg : u.gain ≤ 7)
    (hv : (u.corr, u.cmax, u.integ, u.phase, u.step0, u.step)
      = (t.corr, t.cmax, t.integ, t.phase, t.step0, t.step)) : u.BoundsOk := by
  have hu : Tracker.BoundsOk { t with gain := u.gain } :=
    ⟨h.corr, h.integLow, h.integHigh, hg, h.phase, h.nominal, h.step⟩
  simp only [Prod.mk.injEq] at hv
  obtain ⟨hcorr, hcmax, hinteg, hphase, hnominal, hstep⟩ := hv
  exact hu.of_values (by rw [hcorr, hcmax, hinteg, hphase, hnominal, hstep])

/-- A retrigger takes g to G or H, or leaves it (R101). -/
theorem Tracker.BoundsOk.retrigger {t : Tracker} {e : SourceEntry} (h : t.BoundsOk) (he : e.GainsIn) :
    (t.retrigger e.gainG e.ratchetH).BoundsOk := by
  obtain ⟨hH, hG⟩ := he
  unfold Tracker.retrigger
  split
  · split_ifs
    · exact h.of_gain (hH.trans hG) rfl
    · exact h.of_gain hG rfl
  · exact h.of_gain (hH.trans hG) rfl
  all_goals exact h

/-- A new acquisition starts at G (R100). -/
theorem Tracker.BoundsOk.startAcquire {t : Tracker} {e : SourceEntry} (h : t.BoundsOk) (he : e.GainsIn) :
    (t.startAcquire e.gainG e.ratchetH).BoundsOk := h.of_gain he.2 rfl

/-- The end of a block in ACQUIRE never raises g (R100). -/
theorem Tracker.BoundsOk.acquireTick {t : Tracker} {hh w : Nat} (h : t.BoundsOk) : (t.acquireTick hh w).BoundsOk := by
  unfold Tracker.acquireTick
  dsimp only
  split_ifs
  · exact h.of_gain (Nat.zero_le _) rfl
  · exact h.of_gain ((Nat.sub_le _ _).trans h.gain) rfl
  all_goals exact h.of_values rfl

/-- A slip takes g to H (R102). -/
theorem Tracker.BoundsOk.slipTick {t : Tracker} {e : SourceEntry} (h : t.BoundsOk) (he : e.GainsIn) :
    (t.slipTick e.ratchetH e.lockW).BoundsOk := by
  unfold Tracker.slipTick
  split_ifs
  · exact h.of_values rfl
  · exact h.of_gain (he.1.trans he.2) rfl
  · exact h.of_values rfl

/-- SYNC steps by whole frames (R106). -/
theorem Tracker.BoundsOk.startSync {t : Tracker} (h : t.BoundsOk) : t.startSync.BoundsOk := by
  refine ⟨Nat.zero_le _, ?_, ?_, Nat.zero_le _, ?_, h.nominal, fun n hn => ?_⟩
  · show (-8388608 : Int) ≤ 0
    decide
  · show (0 : Int) ≤ 8388607
    decide
  · show 0 < 2 ^ 24
    decide
  · obtain rfl : 2 ^ 24 = n := Option.some.inj hn
    decide

/-- Frames are taken until the phase lies below 2^24, which `n` rounds reach from below n + 1 times that (R98). -/
theorem pullFrames_phase {n ph ph' : Nat} {fifo fifo' h h' : List Frame} (hph : ph < (n + 1) * 2 ^ 24)
    (hp : pullFrames n ph fifo h = some (ph', fifo', h')) : ph' < 2 ^ 24 := by
  induction n generalizing ph fifo h with
  | zero =>
    cases hp
    omega
  | succ n ih =>
    unfold pullFrames at hp
    split_ifs at hp with hlt
    · cases hp
      exact hlt
    · cases fifo with
      | nil => cases hp
      | cons f fs => exact ih (by omega) hp

/-- A block of the resampler at a step below three frames leaves the phase below 2^24 (R98). -/
theorem consume_phase {n path chans step left j ph : Nat} {fifo h : List Frame} (hstep : step < 3 * 2 ^ 24)
    (hph : ph < 2 ^ 24) : (consume n path chans step left j ph fifo h).phase < 2 ^ 24 := by
  induction left generalizing j ph fifo h with
  | zero => exact hph
  | succ left ih =>
    unfold consume
    split
    · exact hph
    · next hp => exact ih (pullFrames_phase (by omega) hp)

/-- The consumption of a block moves the phase only (R98). -/
theorem State.consumed_boundsOk {p : PathId} (h : (s.path p).tracker.BoundsOk) :
    ((s.path p).consumed (s.consumption p)).tracker.BoundsOk := by
  have hstep : (s.path p).tracker.step.getD 0 < 3 * 2 ^ 24 := by
    cases hs : (s.path p).tracker.step with
    | none => decide
    | some n => exact h.step n hs
  exact ⟨h.corr, h.integLow, h.integHigh, h.gain, consume_phase hstep h.phase, h.nominal, h.step⟩

/-! ## Paths -/

/-- Zeroing the detector energies keeps it. -/
theorem State.InRange.zeroEnergies (h : s.InRange lv tr) : s.zeroEnergies.InRange lv tr := h

/-- The adoption of a format sets the tracker afresh (R93). -/
theorem State.InRange.adoptFormat {p : PathId} (h : s.InRange lv tr) : (s.adoptFormat p).InRange lv tr := by
  unfold State.adoptFormat
  split
  · exact h
  · next f _ =>
    have hset : (s.setPath p ((s.path p).adopt f)).InRange lv tr := h.setPath fun _ _ => PathRec.adopt_boundsOk _ f
    exact .raise (.ite hset.zeroEnergies hset)

/-- Handing a path a format keeps it. -/
theorem State.InRange.handFormat {p : PathId} {f : Format} (h : s.InRange lv tr) : (s.handFormat p f).InRange lv tr :=
  .ite (h.setPath fun _ => id) (.ite (.adoptFormat (h.setPath fun _ => id)) (h.setPath fun _ => id))

/-- A retrigger takes G or H of the entry the path is bound to (R101). -/
theorem State.InRange.retrigger {p : PathId} (h : s.InRange lv tr) : (s.retrigger p).InRange lv tr :=
  h.setPath fun ht hb => hb.retrigger (h.pathSource ht)

/-- A frame that arrives keeps it. -/
theorem State.InRange.pushFrame {p : PathId} {f : Frame} (h : s.InRange lv tr) : (s.pushFrame p f).InRange lv tr :=
  .ite h (.ite (.ite h (.raise (.retrigger (h.setPath fun _ hb => hb.of_values rfl)))) (h.setPath fun _ => id))

/-- An underrun keeps it. -/
theorem State.InRange.underrun {p : PathId} (h : s.InRange lv tr) : (s.underrun p).InRange lv tr :=
  .raise (h.setPath fun _ => PathRec.enterPrefill_boundsOk _)

/-- Consuming a block keeps it. -/
theorem State.InRange.consumeBlock {p : PathId} (h : s.InRange lv tr) : (s.consumeBlock p).InRange lv tr := by
  have hc : (s.setPath p ((s.path p).consumed (s.consumption p))).InRange lv tr :=
    h.setPath fun _ => State.consumed_boundsOk
  refine .ite hc (.ite hc.adoptFormat (.ite (hc.setPath ?_) hc.underrun))
  rw [State.path_setPath_same]
  exact fun _ => id

/-- Silence keeps it. -/
theorem State.InRange.yieldSilence {p : PathId} (h : s.InRange lv tr) :
    (s.setPath p (s.path p).yieldSilence).InRange lv tr := h.setPath fun _ => id

/-- A block in HOLD keeps it. -/
theorem State.InRange.holdBlock {p : PathId} (h : s.InRange lv tr) : (s.holdBlock p).InRange lv tr :=
  .ite h.yieldSilence h.consumeBlock

/-- A block in ACQUIRE keeps it. -/
theorem State.InRange.acquireBlock {p : PathId} (h : s.InRange lv tr) : (s.acquireBlock p).InRange lv tr := by
  have hc := (h.setPath (p := p) (r := { s.path p with
    tracker := (s.path p).tracker.loop (s.pathSource p).kp (s.pathSource p).ki })
    fun _ => Tracker.loop_boundsOk _ _ _).consumeBlock (p := p)
  exact .ite (.ite (.raise (hc.setPath fun _ => Tracker.BoundsOk.acquireTick))
    (hc.setPath fun _ => Tracker.BoundsOk.acquireTick)) hc

/-- A block in TRACK keeps it. -/
theorem State.InRange.trackBlock {p : PathId} (h : s.InRange lv tr) : (s.trackBlock p).InRange lv tr := by
  have hset := h.setPath (p := p) (r := { s.path p with
    tracker := ((s.path p).tracker.loop (s.pathSource p).kp (s.pathSource p).ki).slipTick
      (s.pathSource p).ratchetH (s.pathSource p).lockW })
    fun ht hb => (Tracker.loop_boundsOk _ _ _ hb).slipTick (h.pathSource ht)
  exact .consumeBlock (.ite (.raise hset) hset)

/-- A source that is found not present takes the tracker to HOLD, which moves no value (R105). -/
theorem State.InRange.enterHold {p : PathId} (h : s.InRange lv tr) :
    (State.holdBlock (s.setPath p { s.path p with tracker := { (s.path p).tracker with state := .hold } }) p).InRange
      lv tr := .holdBlock (h.setPath fun _ hb => hb.of_values rfl)

/-- The tracker's block keeps it. -/
theorem State.InRange.trackerBlock {p : PathId} (h : s.InRange lv tr) : (s.trackerBlock p).InRange lv tr := by
  unfold State.trackerBlock
  dsimp only
  split
  · exact h.yieldSilence
  · exact .ite h.yieldSilence (.ite (.consumeBlock (h.setPath fun _ => Tracker.BoundsOk.startSync))
      (.acquireBlock (h.setPath fun ht hb => hb.startAcquire (h.pathSource ht))))
  · exact .ite (h.setPath fun _ => PathRec.enterPrefill_boundsOk _) h.holdBlock
  · exact .ite h.acquireBlock h.enterHold
  · exact .ite h.trackBlock h.enterHold
  · exact .ite h.consumeBlock h.enterHold

/-- Counting a handover keeps it. -/
theorem State.InRange.countHandover {p : PathId} (h : s.InRange lv tr) : (s.countHandover p).InRange lv tr := by
  unfold State.countHandover
  split
  · exact h
  · split
    · exact h
    · exact h

/-- Taking B and e keeps it. -/
theorem State.InRange.takeB {p : PathId} (h : s.InRange lv tr) : (s.takeB p).InRange lv tr :=
  h.setPath fun _ hb => hb.of_values rfl

/-- A path's part of the block keeps it. -/
theorem State.InRange.pathBlock {p : PathId} (h : s.InRange lv tr) : (s.pathBlock p).InRange lv tr := by
  unfold State.pathBlock
  split
  · exact h.setPath fun _ => id
  · exact .ite h.countHandover.takeB.adoptFormat.yieldSilence h.countHandover.takeB.trackerBlock

/-! ## Rings -/

/-- Placing a waiting slot return keeps it. -/
theorem State.InRange.placeReturn (h : s.InRange lv tr) : s.placeReturn.InRange lv tr := by
  unfold State.placeReturn
  split
  · exact h
  · refine .ite h ?_
    split
    · exact h
    · exact .enqueue h

/-- Placing several waiting slot returns keeps it. -/
theorem State.InRange.placeReturns {n : Nat} (h : s.InRange lv tr) : (State.placeReturns n s).InRange lv tr := by
  induction n generalizing s with
  | zero => exact h
  | succ n ih => exact ih h.placeReturn

/-- A slot that begins to return keeps it. -/
theorem State.InRange.enterReturning {w : Fin 16} {i : Nat} {status : StreamStatus} {len : Nat} (h : s.InRange lv tr) :
    (s.enterReturning w i status len).InRange lv tr := by
  unfold State.enterReturning
  split
  · exact h
  · exact .ite (.placeReturn h) h

/-- The issue of a slot's return keeps it. -/
theorem State.InRange.slotReturned {w : Fin 16} {i : Nat} (h : s.InRange lv tr) :
    (s.slotReturned w i).InRange lv tr := by
  unfold State.slotReturned
  split
  · exact h
  · exact h

/-- Capturing bytes into a slot keeps it. -/
theorem State.InRange.captureInto {w : Fin 16} {r : Ring} {i : Nat} {bytes : List (Nat × Byte)} (h : s.InRange lv tr) :
    (s.captureInto w r i bytes).InRange lv tr := by
  unfold State.captureInto
  dsimp only
  split
  · exact .ite h (.ite h h)
  all_goals exact h

/-- Sealing a slot keeps it. -/
theorem State.InRange.sealSlot {w : Fin 16} {r : Ring} {i : Nat} (h : s.InRange lv tr) :
    (s.sealSlot w r i).InRange lv tr :=
  .ite (.enterReturning h) (.ite (.enterReturning h) (.ite (.enterReturning (.setRing h)) (.setRing h)))

/-- The handover of a slot keeps it. -/
theorem State.InRange.streamHandover {w : Fin 16} {i : Nat} (h : s.InRange lv tr) :
    (s.streamHandover w i).InRange lv tr := by
  unfold State.streamHandover
  split
  · exact h
  · dsimp only
    split
    · exact .ite (.enterReturning (.setRing h)) (.enterReturning (.setRing h))
    · exact .enterReturning (.setRing h)
    · exact .ite (.sealSlot (.setRing h)) (.enterReturning (.setRing h))
    all_goals exact h

/-- A write in a STREAM window keeps it. -/
theorem State.InRange.observeStream {w : Fin 16} {lw : LinkWrite} (h : s.InRange lv tr) :
    (s.observeStream w lw).InRange lv tr := by
  unfold State.observeStream
  split
  · exact h
  · dsimp only
    refine .ite h ?_
    split
    · exact .ite h (.captureInto h)
    · exact .ite (.streamHandover (.ite h (.captureInto h))) (.ite h (.captureInto h))

/-- Moving a frame to a path keeps it. -/
theorem State.InRange.moveFrame {p : PathId} {w : Fin 16} {i : Nat} {f : Frame} (h : s.InRange lv tr) :
    (s.moveFrame p w i f).InRange lv tr := by
  unfold State.moveFrame
  split
  · exact h
  · exact .ite (.enterReturning (.setRing (h.setPath fun _ => id))) (.setRing (h.setPath fun _ => id))

/-- Unpacking a frame keeps it. -/
theorem State.InRange.unpackStep {p : PathId} (h : s.InRange lv tr) : (s.unpackStep p).InRange lv tr := by
  unfold State.unpackStep
  split
  · exact h
  · split
    · exact h
    · dsimp only
      refine .ite (.setRing h) ?_
      split
      · exact .setRing h
      · exact .ite (.ite (.handFormat (.setRing h)) (.setRing h))
          (.moveFrame (.ite (.handFormat (.setRing h)) (.setRing h)))

/-- A window that begins to feed a path keeps it. -/
theorem State.InRange.startFeeding {w : Fin 16} {p : PathId} (h : s.InRange lv tr) :
    (s.startFeeding w p).InRange lv tr := by
  unfold State.startFeeding
  split
  · exact h
  · exact h

/-- Choosing the path that a window feeds keeps it. -/
theorem State.InRange.feedIfNamed {w : Fin 16} (h : s.InRange lv tr) : (s.feedIfNamed w).InRange lv tr := by
  unfold State.feedIfNamed
  split
  · exact h
  · refine .ite h ?_
    split
    · exact h
    · exact .startFeeding h

/-- A flush keeps it. -/
theorem State.InRange.flushWindow {w : Fin 16} (h : s.InRange lv tr) : (s.flushWindow w).InRange lv tr := by
  unfold State.flushWindow
  split
  · exact h
  · exact .feedIfNamed (.ite (.placeReturns h) h)

/-- Discarding a STREAM window keeps it. -/
theorem State.InRange.discardRing {w : Fin 16} (h : s.InRange lv tr) : (s.discardRing w).InRange lv tr := h

/-! ## The tap -/

/-- Placing a write of the tap keeps it. -/
theorem State.InRange.placeTapItem {it : TapItem} (h : s.InRange lv tr) : (s.placeTapItem it).InRange lv tr := by
  unfold State.placeTapItem
  split
  · exact h
  · split
    · exact h
    · exact h

/-- One step of the tap keeps it. -/
theorem State.InRange.tapMove (h : s.InRange lv tr) : s.tapMove.1.InRange lv tr := by
  unfold State.tapMove
  split
  · split_ifs
    · exact h
    · exact State.InRange.placeTapItem (s := { s with tap := _ }) h
  · split
    · dsimp only
      split_ifs
      · exact h
      · exact h.placeTapItem
      · exact h
    · exact h

/-- Several steps of the tap keep it. -/
theorem State.InRange.tapPump {n : Nat} (h : s.InRange lv tr) : (State.tapPump n s).InRange lv tr := by
  induction n generalizing s with
  | zero => exact h
  | succ n ih => exact .ite (ih h.tapMove) h

/-- The tap's part of the block keeps it. -/
theorem State.InRange.tapBlock {frames : List (Sample × Sample)} (h : s.InRange lv tr) :
    (s.tapBlock frames).InRange lv tr := by
  unfold State.tapBlock
  split
  · exact h
  · exact .ite h (.ite (State.InRange.tapPump (s := { s with tap := { s.tap with hold := frames } }) h) h.tapPump)

/-- The end of an UNBIND_TAP keeps it. -/
theorem State.InRange.endUnbinding (h : s.InRange lv tr) : s.endUnbinding.InRange lv tr := .ite h h

/-- A write in the tap's window keeps it. -/
theorem State.InRange.observeTap {w : Fin 16} {lw : LinkWrite} (h : s.InRange lv tr) :
    (s.observeTap w lw).InRange lv tr := by
  unfold State.observeTap
  split
  · exact h
  · dsimp only
    refine .ite h ?_
    split
    · exact h
    · refine .ite h ?_
      split
      · exact .ite h h
      · exact .endUnbinding (State.InRange.tapPump (s := { s with tap := _ }) h)

/-- The issue of a closing write keeps it. -/
theorem State.InRange.tapReturned {i : Nat} (h : s.InRange lv tr) : (s.tapReturned i).InRange lv tr := h

/-- UNBIND_TAP keeps it. -/
theorem State.InRange.unbind (h : s.InRange lv tr) : s.unbind.InRange lv tr := by
  unfold State.unbind
  split
  · exact h
  · exact State.InRange.tapPump (s := { s with tap := _ }) h

/-- Discarding the tap's window keeps it. -/
theorem State.InRange.discardTap (h : s.InRange lv tr) : s.discardTap.InRange lv tr := h

end

end Sys2Proof.Machine
end

