-- ==== Sys2Proof/Proofs/RangeUnits.lean ====
section
/-! SUPPORT. Every operation of the lane receiver, the tuner, the zones, the outputs, protection, the mixer and the
mirror keeps the levels and the trackers in their ranges (R76 to R79, R94, R176, R178, R193). -/

namespace Sys2Proof.Machine

open Sys2Proof

section
variable {s : State} {lv tr : Prop}


/-! ## Lanes -/

/-- A LANE_STATE report keeps it. -/
theorem State.InRange.laneReport {l : Fin 4} {cause : LaneCause} (h : s.InRange lv tr) :
    (s.laneReport l cause).InRange lv tr :=
  .raise h

/-- LANE_STATE for several lanes keeps it. -/
theorem State.InRange.laneReports {ls : List (Fin 4)} {cause : LaneCause} (h : s.InRange lv tr) :
    (s.laneReports ls cause).InRange lv tr :=
  .forEach (fun _ _ => .laneReport) h

/-- Changing several lanes keeps it. -/
theorem State.InRange.mapLanes {ls : List (Fin 4)} {f : LaneRec → LaneRec} (h : s.InRange lv tr) :
    (s.mapLanes ls f).InRange lv tr :=
  .forEach (fun _ _ => .setLane) h

/-- Comparing a group's lanes keeps it. -/
theorem State.InRange.groupCompare {e : Fin 12} (h : s.InRange lv tr) : (s.groupCompare e).InRange lv tr := by
  unfold State.groupCompare
  split
  · exact h
  · exact .ite h (.ite (.setGroup h) (.forEach (fun _ _ ht => .laneReport (.setLane ht)) h))

/-- A group that forms again keeps it. -/
theorem State.InRange.groupReform {e : Fin 12} (h : s.InRange lv tr) :
    (s.groupReform e).InRange lv tr :=
  .setGroup (.mapLanes h)

/-- Leaving the measuring stage keeps it. -/
theorem State.InRange.leaveMeasuring {l : Fin 4} (h : s.InRange lv tr) : (s.leaveMeasuring l).InRange lv tr := by
  unfold State.leaveMeasuring
  split
  · exact .ite (.groupReform h) h
  · exact h

/-- Placing a lane keeps it. -/
theorem State.InRange.placeLane {l : Fin 4} {cfg : LaneConfig} (h : s.InRange lv tr) :
    (s.placeLane l cfg).InRange lv tr := by
  unfold State.placeLane
  dsimp only
  refine .ite (.laneReport (.setLane h)) ?_
  split
  · exact .setLane h
  · exact .groupCompare (.setLane h)

/-- Leaving DATA keeps it. -/
theorem State.InRange.leaveData {e : Fin 12} {l : Fin 4} {f : LaneRec → LaneRec} {cause : LaneCause}
    (h : s.InRange lv tr) : (s.leaveData e l f cause).InRange lv tr :=
  .laneReports (.groupReform (.setLane (.mapLanes h)))

/-- Dropping a group keeps it. -/
theorem State.InRange.dropGroup {l : Fin 4} {f : LaneRec → LaneRec} {cause : LaneCause} (h : s.InRange lv tr) :
    (s.dropGroup l f cause).InRange lv tr := by
  unfold State.dropGroup
  split
  · exact h
  · exact .leaveData h

/-- Forming frames of a group's lanes keeps it. -/
theorem State.InRange.formFrames {e : Fin 12} {n : Nat} (h : s.InRange lv tr) :
    (State.formFrames e n s).InRange lv tr := by
  induction n generalizing s with
  | zero => exact h
  | succ n ih =>
    unfold State.formFrames
    dsimp only
    refine .ite h (ih ?_)
    split
    · exact .mapLanes h
    · exact .pushFrame (.mapLanes h)

/-- Entry to DATA keeps it. -/
theorem State.InRange.enterData {e : Fin 12} {g : GroupRec} (h : s.InRange lv tr) :
    (s.enterData e g).InRange lv tr := by
  unfold State.enterData
  dsimp only
  refine .formFrames ?_
  split
  · exact .retrigger (.handFormat (.laneReports (.setGroup (.mapLanes h))))
  · exact .laneReports (.setGroup (.mapLanes h))

/-- A failed measurement keeps it. -/
theorem State.InRange.failMeasure {e : Fin 12} (h : s.InRange lv tr) : (s.failMeasure e).InRange lv tr :=
  .laneReports (.groupReform (.mapLanes h))

/-- The end of a measurement keeps it. -/
theorem State.InRange.measureDone {e : Fin 12} {g : GroupRec} (h : s.InRange lv tr) :
    (s.measureDone e g).InRange lv tr :=
  .ite (.enterData h) h

/-- A SYNC frame of an aligned lane keeps it. -/
theorem State.InRange.syncAligned {l : Fin 4} (h : s.InRange lv tr) :
    (s.syncAligned l).InRange lv tr :=
  .setLane (.leaveMeasuring h)

/-- A frame of a lane that is measured keeps it. -/
theorem State.InRange.measureFrame {l : Fin 4} {e : Fin 12} {g : GroupRec} {k : FrameKind} {f : LaneFrame}
    (h : s.InRange lv tr) : (s.measureFrame l e g k f).InRange lv tr :=
  .ite (.syncAligned h)
    (.ite (.ite (.measureDone (.setLane (.setGroup h))) h)
      (.ite (.ite (.measureDone (.setLane h)) (.ite (.failMeasure h) (.setLane h)))
        (.ite (.failMeasure h) (.setLane h))))

/-- A frame of an aligned lane keeps it. -/
theorem State.InRange.alignedFrame {l : Fin 4} {k : FrameKind} {f : LaneFrame} (h : s.InRange lv tr) :
    (s.alignedFrame l k f).InRange lv tr := by
  unfold State.alignedFrame
  split
  · exact .ite (.syncAligned h) h
  · exact .ite (.measureFrame h) (.ite (.syncAligned h) (.ite (.laneReport (.setLane h)) h))

/-- A frame that enters the deskew buffer keeps it. -/
theorem State.InRange.enterBuffer {l : Fin 4} {f : Sample × Sample} (h : s.InRange lv tr) :
    (s.enterBuffer l f).InRange lv tr := by
  unfold State.enterBuffer
  dsimp only
  refine .ite (.dropGroup h) ?_
  split
  · exact .setLane h
  · exact .formFrames (.setLane h)

/-- A frame of a lane in DATA keeps it. -/
theorem State.InRange.dataFrame {l : Fin 4} {k : FrameKind} {f : LaneFrame} (h : s.InRange lv tr) :
    (s.dataFrame l k f).InRange lv tr := by
  unfold State.dataFrame
  dsimp only
  split
  · exact .enterBuffer (.setLane h)
  · exact .enterBuffer h
  · exact .dropGroup (.setLane h)
  all_goals exact .ite (.dropGroup (.setLane h)) (.enterBuffer (.setLane h))

/-- A preamble frame keeps it. -/
theorem State.InRange.preambleFrame {l : Fin 4} {f : LaneFrame} (h : s.InRange lv tr) :
    (s.preambleFrame l f).InRange lv tr := by
  unfold State.preambleFrame
  dsimp only
  split
  · exact .setLane h
  · split
    · exact .setLane h
    · exact .ite (.setLane h) (.ite (.placeLane h) (.setLane h))

/-- A frame keeps it, whatever the lane's state. -/
theorem State.InRange.frameByState {l : Fin 4} {k : FrameKind} {f : LaneFrame} (h : s.InRange lv tr) :
    (s.frameByState l k f).InRange lv tr := by
  unfold State.frameByState
  dsimp only
  split
  · exact h
  · exact .setLane h
  · split
    · exact h
    · exact h
    · exact h
    · exact .setLane h
    · exact .preambleFrame h
  · split
    · exact .setLane h
    · exact .setLane h
    · exact .setLane h
    · exact .setLane h
    · exact .preambleFrame h
  · exact .alignedFrame h
  · exact .dataFrame h
  · exact .ite (.setLane h) h

/-- Receiving a frame keeps it. -/
theorem State.InRange.receiveFrame {l : Fin 4} {f : LaneFrame} (h : s.InRange lv tr) :
    (s.receiveFrame l f).InRange lv tr :=
  .ite h (.frameByState (.setLane h))

/-- The loss of a lane keeps it. -/
theorem State.InRange.laneLost {l : Fin 4} (h : s.InRange lv tr) : (s.laneLost l).InRange lv tr := by
  unfold State.laneLost
  split
  · exact .laneReport (.setLane h)
  · exact .laneReport (.setLane h)
  · exact .laneReport (.setLane (.leaveMeasuring h))
  · exact .dropGroup h
  all_goals exact h

/-- A lane's part of the block keeps it. -/
theorem State.InRange.laneBlock {l : Fin 4} (h : s.InRange lv tr) : (s.laneBlock l).InRange lv tr :=
  .ite (.setLane h) (.ite h (.ite (.laneLost (.setLane h)) (.setLane h)))

/-- Enabling or disabling a lane keeps it. -/
theorem State.InRange.enableLane {l : Fin 4} {on : Bool} (h : s.InRange lv tr) : (s.enableLane l on).InRange lv tr :=
  .ite h (.ite (.setLane h) (.ite (.dropGroup h) (.laneReport (.setLane (.ite (.leaveMeasuring h) h)))))

/-- Placing a lane again keeps it. -/
theorem State.InRange.replaceLane {l : Fin 4} (h : s.InRange lv tr) : (s.replaceLane l).InRange lv tr := by
  unfold State.replaceLane
  dsimp only
  split
  · exact .setLane h
  · exact .setLane h
  · exact .setLane h
  all_goals exact h

/-- A change of an entry's lanes keeps it. -/
theorem State.InRange.lanesChanged {e : Fin 12} {old : List (Fin 4)} (h : s.InRange lv tr) :
    (s.lanesChanged e old).InRange lv tr :=
  have hplaced {g : Option GroupRec} {xs : List (Fin 4)} :=
    State.InRange.forEach (f := fun l t => State.replaceLane t l) (fun _ _ => .replaceLane) (xs := xs)
      (.setGroup (g := g) (.mapLanes h))
  .groupCompare (.laneReports (.ite (.laneReports hplaced) hplaced))

/-- Other group records leave it. -/
theorem State.InRange.withGroups {v : Vector (Option GroupRec) 12} (h : s.InRange lv tr) :
    ({ s with groups := v } : State).InRange lv tr := h

/-- RESTART for the lane receiver keeps it. -/
theorem State.InRange.restartLanes (h : s.InRange lv tr) : s.restartLanes.InRange lv tr := .withGroups (.mapLanes h)

/-! ## The tuner -/

/-- A RADIO_STATE report keeps it. -/
theorem State.InRange.radioReport {cause : RadioCause} (h : s.InRange lv tr) :
    (s.radioReport cause).InRange lv tr :=
  .raise h

/-- The end of a radio operation keeps it. -/
theorem State.InRange.endOp {res : CmdResult} {flags : Byte} {level : Nat} (h : s.InRange lv tr) :
    (s.endOp res flags level).InRange lv tr := by
  unfold State.endOp
  split
  · exact h
  · exact State.InRange.raiseDone (s := { s with tuner := _ }) h

/-- Aborting the radio operation keeps it. -/
theorem State.InRange.abortOp {fault : Bool} (h : s.InRange lv tr) : (s.abortOp fault).InRange lv tr := .endOp h

/-- Another tuner record leaves it. -/
theorem State.InRange.withTuner {t : Tuner} (h : s.InRange lv tr) : ({ s with tuner := t } : State).InRange lv tr := h

/-- Entry to FE_FAULT keeps it. -/
theorem State.InRange.feFault (h : s.InRange lv tr) : s.feFault.InRange lv tr := .radioReport (.withTuner (.abortOp h))

/-- A tuner that goes to IDLE keeps it. -/
theorem State.InRange.tunerIdle (h : s.InRange lv tr) :
    s.tunerIdle.InRange lv tr :=
  .radioReport (.withTuner (.abortOp h))

/-- RESTART for the tuner keeps it. -/
theorem State.InRange.restartTuner (h : s.InRange lv tr) : s.restartTuner.InRange lv tr := .withTuner (.abortOp h)

/-- A tune keeps it. -/
theorem State.InRange.tuneTo {b : Band} {f : Nat} (h : s.InRange lv tr) : (s.tuneTo b f).InRange lv tr := h

/-- A candidate test keeps it. -/
theorem State.InRange.testAt {b : Band} {f : Nat} (h : s.InRange lv tr) : (s.testAt b f).InRange lv tr := h

/-- The end of a tune keeps it. -/
theorem State.InRange.endTune {u : Bool} (h : s.InRange lv tr) :
    (s.endTune u).InRange lv tr :=
  .radioReport (.endOp (.withTuner h))

/-- Tuning back keeps it. -/
theorem State.InRange.tuneBack {op : OpRecord} (h : s.InRange lv tr) : (s.tuneBack op).InRange lv tr := h

/-- Going to the next point keeps it. -/
theorem State.InRange.nextPoint (h : s.InRange lv tr) : s.nextPoint.InRange lv tr := by
  unfold State.nextPoint
  dsimp only
  split
  · exact h
  · exact .ite (.ite (.tuneBack h) (.testAt h)) (.ite (.tuneBack h) (.testAt h))

/-- Counting a tested channel keeps it. -/
theorem State.InRange.countTested (h : s.InRange lv tr) : s.countTested.InRange lv tr := by
  unfold State.countTested
  split
  · exact h
  · exact .ite h (.ite (.radioReport (.withTuner h)) (.withTuner h))

/-- Taking a candidate keeps it. -/
theorem State.InRange.takeCandidate {d : Dwell} (h : s.InRange lv tr) : (s.takeCandidate d).InRange lv tr := by
  unfold State.takeCandidate
  split
  · exact h
  · exact h

/-- A seek that has found a station keeps it. -/
theorem State.InRange.seekFound {d : Dwell} (h : s.InRange lv tr) : (s.seekFound d).InRange lv tr :=
  .radioReport (.endOp (.withTuner h))

/-- The end of a dwell keeps it. -/
theorem State.InRange.endDwell {d : Dwell} (h : s.InRange lv tr) : (s.endDwell d).InRange lv tr := by
  unfold State.endDwell
  dsimp only
  split
  · exact h
  · exact .ite (.countTested (.withTuner (.ite (.takeCandidate h) h))) (.ite (.seekFound h) (.withTuner h))

/-- A settled front end keeps it. -/
theorem State.InRange.settled (h : s.InRange lv tr) : s.settled.InRange lv tr := .ite (.endTune h) (.withTuner h)

/-- A front end that does not settle keeps it. -/
theorem State.InRange.unsettled (h : s.InRange lv tr) :
    s.unsettled.InRange lv tr :=
  .ite (.endTune h) (.nextPoint (.countTested h))

/-- A status record keeps it. -/
theorem State.InRange.statusRecord {settled : Bool} {level : Nat} {offset : Int} (h : s.InRange lv tr) :
    (s.statusRecord settled level offset).InRange lv tr := .ite h (.ite (.settled (.withTuner h)) (.withTuner h))

/-- A pilot capture keeps it. -/
theorem State.InRange.pilotCapture {ticks : Nat} (h : s.InRange lv tr) : (s.pilotCapture ticks).InRange lv tr :=
  .ite h (.ite (.withTuner h) (.radioReport (.withTuner h)))

/-- The acknowledgement timer keeps it. -/
theorem State.InRange.ackBlock (h : s.InRange lv tr) : s.ackBlock.InRange lv tr := by
  unfold State.ackBlock
  split
  · exact h
  · exact .ite (.withTuner h) (.ite (.feFault h) (.withTuner h))

/-- The silence count keeps it. -/
theorem State.InRange.silenceBlock (h : s.InRange lv tr) : s.silenceBlock.InRange lv tr :=
  .ite (.withTuner h) (.ite (.withTuner h) (.ite (.feFault (.withTuner h)) (.withTuner h)))

/-- The amplitude history keeps it. -/
theorem State.InRange.ampBlock (h : s.InRange lv tr) : s.ampBlock.InRange lv tr := h

/-- The blend keeps it. -/
theorem State.InRange.blendBlock (h : s.InRange lv tr) : s.blendBlock.InRange lv tr :=
  .ite (.withTuner h) (.ite (.withTuner h) (.withTuner h))

/-- Delivering the tuner's frames keeps it. -/
theorem State.InRange.deliverFrames (h : s.InRange lv tr) : s.deliverFrames.InRange lv tr := by
  unfold State.deliverFrames
  refine .ite h ?_
  split
  · exact h
  · exact .forEach (fun _ _ => .pushFrame) h

/-- The phase of a tune keeps it. -/
theorem State.InRange.phaseBlock (h : s.InRange lv tr) : s.phaseBlock.InRange lv tr := by
  unfold State.phaseBlock
  dsimp only
  split
  · exact h
  · exact h
  · exact .ite (.unsettled (.withTuner h)) (.withTuner h)
  · exact .ite (.endDwell (.withTuner h)) (.withTuner h)
  · exact .nextPoint h

/-- The tuner's part of the block keeps it. -/
theorem State.InRange.tunerBlock (h : s.InRange lv tr) : s.tunerBlock.InRange lv tr :=
  State.InRange.withTuner
    (.phaseBlock (.silenceBlock (.ackBlock (.deliverFrames (.blendBlock (.ite (.ampBlock h) h))))))

/-! ## Values that move -/

/-- Silence is the lowest level of a ramp (R76, R176). -/
theorem silence_mem : (-240 : Int) ≤ -240 ∧ (-240 : Int) ≤ 0 := by decide

/-- A value that moves toward a target stays in a range that holds both (R76, R77, R176, R193). -/
theorem moveToward_mem {lo hi target x : Int} {step : Nat} (ht : lo ≤ target ∧ target ≤ hi) (hx : lo ≤ x ∧ x ≤ hi) :
    lo ≤ moveToward target step x ∧ moveToward target step x ≤ hi := by
  unfold moveToward
  split_ifs <;> omega

/-- The volume and the ramp of a zone move within their ranges (R76, R77). -/
theorem State.zoneMoved_levelsIn {z : Zone} (h : (s.zone z).LevelsIn) : (s.zoneMoved z).LevelsIn := by
  obtain ⟨hramp, htarget, hcurrent, hceiling⟩ := h
  refine ⟨moveToward_mem ?_ hramp, htarget, moveToward_mem (step := 2) htarget hcurrent, hceiling⟩
  unfold State.rampTarget
  split_ifs <;> decide

/-- t moves within its range, and its target is one of two (R193). -/
theorem Thermal.block_levelsIn {r : Thermal} {line : Bool} (h : r.LevelsIn) : (r.block line).LevelsIn := by
  have hmove : r.moveT.LevelsIn := by
    obtain ⟨ht, htarget⟩ := h
    unfold Thermal.moveT
    split_ifs
    · exact ⟨ht, htarget⟩
    · exact ⟨moveToward_mem (step := 1) (by omega) ht, htarget⟩
    · exact ⟨ht, htarget⟩
  have hruns : (r.moveT.countRuns line).LevelsIn := by
    unfold Thermal.countRuns
    split_ifs
    · exact hmove
    · exact hmove
  have haim {x : Thermal} {target : Int} (hx : x.LevelsIn) (ht : target = -12 ∨ target = 0) :
      (x.aim target).LevelsIn := by
    unfold Thermal.aim
    split_ifs
    · exact hx
    · exact ⟨hx.1, ht⟩
  have hwarn : (r.moveT.countRuns line).warn.LevelsIn := by
    unfold Thermal.warn
    split_ifs
    · exact haim (x := { r.moveT.countRuns line with warning := true }) hruns (.inl rfl)
    · exact haim (x := { r.moveT.countRuns line with warning := false }) hruns (.inr rfl)
    · exact hruns
  unfold Thermal.block Thermal.escalate
  split_ifs
  · exact hwarn
  · exact hwarn
  · exact hwarn

/-- r_ch moves within its range (R176). -/
theorem Channel.rampStep_levelsIn {c : Channel} {hold : Bool} (h : c.LevelsIn) : (c.rampStep hold).LevelsIn := by
  obtain ⟨hramp, hrest⟩ := h
  have hdown := moveToward_mem (step := 8) (target := -240) (by decide) hramp
  have hup {step : Nat} := moveToward_mem (step := step) (target := 0) (by decide) hramp
  unfold Channel.rampStep
  split_ifs
  · exact ⟨hdown, hrest⟩
  · exact ⟨hramp, hrest⟩
  · exact ⟨hup (step := 1), hrest⟩
  · exact ⟨hramp, hrest⟩
  · exact ⟨hup (step := 8), hrest⟩

/-- Lr falls to -48 at most (R178). -/
theorem Channel.applyDue_levelsIn {c : Channel} (h : c.LevelsIn) : c.applyDue.LevelsIn := by
  obtain ⟨hramp, hlr, htrim⟩ := h
  unfold Channel.applyDue
  split_ifs
  · exact ⟨hramp, hlr, htrim⟩
  · refine ⟨hramp, ?_, htrim⟩
    dsimp only
    omega

/-- The limiter releases Lr up to 0 (R179). -/
theorem Channel.limit_levelsIn {c : Channel} {level : Option Nat} {peak : Nat} (h : c.LevelsIn) :
    (c.limit level peak).LevelsIn := by
  obtain ⟨hramp, hlr, htrim⟩ := h
  unfold Channel.limit
  split
  · exact ⟨hramp, hlr, htrim⟩
  · split_ifs with hpeak hcount hlow
    · exact ⟨hramp, hlr, htrim⟩
    · refine ⟨hramp, ?_, htrim⟩
      dsimp only
      omega
    · exact ⟨hramp, hlr, htrim⟩
    · exact ⟨hramp, hlr, htrim⟩

/-! ## Zones -/

/-- A ZONE_STATE report keeps it. -/
theorem State.InRange.zoneReport {z : Zone} (h : s.InRange lv tr) : (s.zoneReport z).InRange lv tr := .raise h

/-- The completion of a switch keeps it. -/
theorem State.InRange.switchDone {z : Zone} {res : CmdResult} (h : s.InRange lv tr) :
    (s.switchDone z res).InRange lv tr :=
  .raiseDone h

/-- Another owner leaves it. -/
theorem State.InRange.withOwner {o : Option Zone} (h : s.InRange lv tr) :
    ({ s with owner :=
  o } : State).InRange lv tr := h

/-- A new owner keeps it. -/
theorem State.InRange.setOwner {z : Zone} (h : s.InRange lv tr) :
    (s.setOwner z).InRange lv tr :=
  .radioReport (.withOwner h)

/-- Telling the source that a path is bound keeps it. -/
theorem State.InRange.tellBound {p : PathId} {e : Fin 12} (h : s.InRange lv tr) : (s.tellBound p e).InRange lv tr := by
  unfold State.tellBound
  split
  · exact h
  · split
    · exact .handFormat h
    · exact h
  · split
    · exact h
    · exact .feedIfNamed h
  · exact .tuneTo (.handFormat h)

/-- Another choice of the path bound first leaves it. -/
theorem State.InRange.withBindFirst {b : PathId} (h : s.InRange lv tr) :
    ({ s with bindFirst :=
  b } : State).InRange lv tr := h

/-- Binding a path keeps it. -/
theorem State.InRange.bindPath {p : PathId} {e : Fin 12} (h : s.InRange lv tr) : (s.bindPath p e).InRange lv tr :=
  .tellBound (.setPath (.withBindFirst h) fun _ _ => PathRec.enterPrefill_boundsOk _ Tracker.free_boundsOk)

/-- Joining a path keeps it. -/
theorem State.InRange.joinPath {z : Zone} {p : PathId} (h : s.InRange lv tr) : (s.joinPath z p).InRange lv tr :=
  .ite (.zeroEnergies (.setZone h id)) (.setZone h id)

/-- Attaching a zone keeps it. -/
theorem State.InRange.attach {z : Zone} {e : Fin 12} (h : s.InRange lv tr) : (s.attach z e).InRange lv tr := by
  unfold State.attach
  dsimp only
  split
  · exact .ite (.setOwner (.joinPath h)) (.joinPath h)
  · exact .ite (.setOwner (.bindPath (.joinPath h))) (.bindPath (.joinPath h))

/-- A path is free again (R94). -/
theorem State.InRange.freePath {p b : PathId} (h : s.InRange lv tr) :
    ({ s with bindFirst := b }.setPath p PathRec.free).InRange lv tr :=
  .setPath (.withBindFirst h) fun _ _ => Tracker.free_boundsOk

/-- Releasing a path keeps it. -/
theorem State.InRange.releasePath {p : PathId} (h : s.InRange lv tr) : (s.releasePath p).InRange lv tr := by
  unfold State.releasePath
  dsimp only
  split
  · exact h.freePath
  · exact h.freePath
  · split
    · exact h.freePath
    · exact .flushWindow h.freePath
  · exact .tunerIdle (.withOwner h.freePath)

/-- Detaching a zone keeps it. -/
theorem State.InRange.detach {z : Zone} (h : s.InRange lv tr) : (s.detach z).InRange lv tr := by
  unfold State.detach
  split
  · exact h
  · exact .ite (.ite (.setOwner (.setZone h id)) (.setZone h id)) (.releasePath (.setZone h id))

/-- The completion of a switch with its reports keeps it. -/
theorem State.InRange.completeSwitch {z : Zone} (h : s.InRange lv tr) : (s.completeSwitch z).InRange lv tr :=
  .raiseDone (.zoneReport (.setZone (.setZone h id) id))

/-- A fade-in that starts keeps it. -/
theorem State.InRange.startFadeIn {z : Zone} (h : s.InRange lv tr) : (s.startFadeIn z).InRange lv tr :=
  .ite (.completeSwitch (.setZone h id)) (.setZone h id)

/-- A wait that starts keeps it. -/
theorem State.InRange.startWait {z : Zone} (h : s.InRange lv tr) : (s.startWait z).InRange lv tr :=
  .ite (.startFadeIn (.setZone h id)) (.setZone h id)

/-- The end of a fade-out keeps it. -/
theorem State.InRange.endFadeOut {z : Zone} (h : s.InRange lv tr) : (s.endFadeOut z).InRange lv tr := by
  unfold State.endFadeOut
  split
  · exact h
  · exact .startWait (.ite h (.attach (.detach h)))

/-- A switch that starts keeps it. -/
theorem State.InRange.startSwitch {z : Zone} {e : Fin 12} {tag : Option Nat} (h : s.InRange lv tr) :
    (s.startSwitch z e tag).InRange lv tr := .ite (.endFadeOut (.setZone h id)) (.setZone h id)

/-- Aborting a switch keeps it. -/
theorem State.InRange.abortSwitch {z : Zone} (h : s.InRange lv tr) : (s.abortSwitch z).InRange lv tr :=
  .setZone (.ite h (.switchDone h)) id

/-- Entry to STANDBY keeps it. -/
theorem State.InRange.enterStandby {z : Zone} (h : s.InRange lv tr) : (s.enterStandby z).InRange lv tr :=
  .zoneReport (.setZone (.detach h) id)

/-- Going to standby keeps it. -/
theorem State.InRange.goStandby {z : Zone} (h : s.InRange lv tr) : (s.goStandby z).InRange lv tr :=
  .zoneReport (.setZone (.abortSwitch h) id)

/-- Standby at silence keeps it. -/
theorem State.InRange.standbyIfSilent {z : Zone} (h : s.InRange lv tr) :
    (s.standbyIfSilent z).InRange lv tr :=
  .ite (.enterStandby h) h

/-- Powering a zone keeps it. -/
theorem State.InRange.powerZone {z : Zone} (h : s.InRange lv tr) : (s.powerZone z).InRange lv tr := by
  unfold State.powerZone
  dsimp only
  refine .ite h ?_
  split
  · exact .zoneReport (.setZone h id)
  · exact .ite (.zoneReport (.setZone h id)) (.startSwitch (.zoneReport (.setZone h id)))

/-- A switch's part of the block keeps it. -/
theorem State.InRange.switchBlock {z : Zone} (h : s.InRange lv tr) : (s.switchBlock z).InRange lv tr := by
  unfold State.switchBlock
  dsimp only
  split
  · exact h
  · exact .ite (.endFadeOut h) h
  · exact .ite (.startFadeIn h) (.ite (.raise (.setZone h id)) (.setZone h id))
  · exact .ite (.completeSwitch h) h

/-- The sleep timer keeps it. -/
theorem State.InRange.sleepBlock {z : Zone} (h : s.InRange lv tr) : (s.sleepBlock z).InRange lv tr :=
  .ite h (.ite (.setZone h id) (.ite (.setZone h id) (.standbyIfSilent (.raise (.goStandby h)))))

/-- A zone's part of the block keeps it. -/
theorem State.InRange.zoneBlock {z : Zone} (h : s.InRange lv tr) : (s.zoneBlock z).InRange lv tr :=
  .sleepBlock (.standbyIfSilent (.switchBlock (h.setZone State.zoneMoved_levelsIn)))

/-- RESTART for a zone keeps it. -/
theorem State.InRange.restartZone {z : Zone} (h : s.InRange lv tr) : (s.restartZone z).InRange lv tr :=
  .setZone (.ite h (.switchDone h)) fun ⟨_, htarget, _, hceiling⟩ => ⟨silence_mem, htarget, htarget, hceiling⟩

/-- RESTART for a path keeps it. -/
theorem State.InRange.restartPath {p : PathId} (h : s.InRange lv tr) : (s.restartPath p).InRange lv tr := by
  unfold State.restartPath
  dsimp only
  split
  · exact h.freePath
  · exact .flushWindow h.freePath

/-! ## Outputs and protection -/

/-- A channel that applies keeps it. -/
theorem State.InRange.applyChannel {c : Fin 12} (h : s.InRange lv tr) : (s.applyChannel c).InRange lv tr :=
  h.setChan fun ⟨_, hrest⟩ => ⟨silence_mem, hrest⟩

/-- A group that applies keeps it. -/
theorem State.InRange.applyGroup {g : Fin 12} (h : s.InRange lv tr) : (s.applyGroup g).InRange lv tr :=
  .forEach (fun _ _ => .applyChannel) h

/-- RECONFIG keeps it. -/
theorem State.InRange.markReconfig {c : Fin 12} (h : s.InRange lv tr) :
    (s.markReconfig c).InRange lv tr :=
  .ite h (.setChan h id)

/-- Pending settings keep it. -/
theorem State.InRange.givePending {c : Fin 12} {t : ChanSettings} (h : s.InRange lv tr) :
    (s.givePending c t).InRange lv tr :=
  .setChan h id

/-- A group that forms keeps it. -/
theorem State.InRange.formGroup {cs : List (Fin 12)} (h : s.InRange lv tr) : (s.formGroup cs).InRange lv tr := by
  unfold State.formGroup
  split
  · exact h
  · next g rest _ =>
    have hset := State.InRange.forEach (f := fun c t => State.setChan t c
      { t.chan c with pend := some (t.chan c).target, group := some g }) (fun _ _ ht => ht.setChan id)
      (xs := g :: rest) h
    exact .ite (.applyGroup hset) (.forEach (fun _ _ => .markReconfig) hset)

/-- A waiting group at a block keeps it. -/
theorem State.InRange.groupBlock {g : Fin 12} (h : s.InRange lv tr) : (s.groupBlock g).InRange lv tr :=
  .ite h (.ite (.applyGroup h) (.forEach (fun _ _ => .markReconfig) h))

/-- Changing the channels of a pair keeps it. -/
theorem State.InRange.mapPair {n : Fin 6} {f : Channel → Channel} (h : s.InRange lv tr)
    (hf : ∀ c : Channel, c.LevelsIn → (f c).LevelsIn) : (s.mapPair n f).InRange lv tr :=
  .forEach (fun _ _ ht => ht.setChan (hf _)) h

/-- A PROTECT_STATE report keeps it. -/
theorem State.InRange.protectReport {n : Fin 6} (h : s.InRange lv tr) : (s.protectReport n).InRange lv tr := .raise h

/-- The thermal part of the block keeps it. -/
theorem State.InRange.thermalBlock {line : Bool} (h : s.InRange lv tr) : (s.thermalBlock line).InRange lv tr :=
  .ite (h.setThermal Thermal.block_levelsIn) (.raise (h.setThermal Thermal.block_levelsIn))

/-- Entry to PROTECT keeps it. -/
theorem State.InRange.enterProtect {n : Fin 6} {line : Bool} (h : s.InRange lv tr) :
    (s.enterProtect n line).InRange lv tr :=
  .protectReport (.mapPair (.setPair h) fun _ ⟨_, hrest⟩ => ⟨silence_mem, hrest⟩)

/-- Entry to SOFT_START keeps it. -/
theorem State.InRange.enterSoftStart {n : Fin 6} {r : Pair} (h : s.InRange lv tr) :
    (s.enterSoftStart n r).InRange lv tr :=
  .mapPair (.setPair h) fun _ => id

/-- The end of a recovery wait keeps it. -/
theorem State.InRange.recoverExpiry {n : Fin 6} (h : s.InRange lv tr) : (s.recoverExpiry n).InRange lv tr :=
  .ite (.enterSoftStart h) (.protectReport (.setPair h))

/-- A pair's count keeps it. -/
theorem State.InRange.pairBlock {n : Fin 6} {line : Bool} (h : s.InRange lv tr) :
    (s.pairBlock n line).InRange lv tr := by
  unfold State.pairBlock
  dsimp only
  split
  · exact .ite (.enterProtect (.setPair h)) (.setPair h)
  · exact .ite (.enterProtect (.setPair h)) (.setPair h)
  · exact .ite (.setPair h) (.setPair h)
  · exact .ite (.setPair h) (.ite (.recoverExpiry (.setPair h)) (.setPair h))
  · exact .setPair h

/-- Other pins leave it. -/
theorem State.InRange.withPins {p : Pins} (h : s.InRange lv tr) : ({ s with pins := p } : State).InRange lv tr := h

/-- A pair's part of the block keeps it. -/
theorem State.InRange.pairPart {n : Fin 6} {line : Bool} (h : s.InRange lv tr) : (s.pairPart n line).InRange lv tr :=
  .pairBlock (.withPins h)

/-- The end of a soft start keeps it. -/
theorem State.InRange.endSoftStart {n : Fin 6} (h : s.InRange lv tr) : (s.endSoftStart n).InRange lv tr :=
  .ite (.protectReport (.setPair (.mapPair h fun _ => id))) (.mapPair h fun _ => id)

/-- A soft start's part of the block keeps it. -/
theorem State.InRange.softStartBlock {n : Fin 6} (h : s.InRange lv tr) :
    (s.softStartBlock n).InRange lv tr :=
  .ite (.endSoftStart h) h

/-- Other pair records leave it. -/
theorem State.InRange.withPairs {v : Vector Pair 6} (h : s.InRange lv tr) :
    ({ s with pairs :=
  v } : State).InRange lv tr := h

/-- RESTART for a channel keeps it. -/
theorem State.InRange.restartChannel {c : Fin 12} (h : s.InRange lv tr) : (s.restartChannel c).InRange lv tr := by
  refine h.setChan fun ⟨_, _, htrim⟩ => ⟨?_, by dsimp only; decide, htrim⟩
  dsimp only
  split_ifs <;> decide

/-- RESTART for outputs and protection keeps it. -/
theorem State.InRange.restartOutputs (h : s.InRange lv tr) : s.restartOutputs.InRange lv tr := by
  unfold State.restartOutputs
  exact .forEach (fun _ _ => .restartChannel) (.withPairs (.forEach (fun _ _ => .applyGroup) h))

/-! ## The mixer, the meters and the mirror -/

/-- The energies after an adoption keep it. -/
theorem State.InRange.mixAfterAdoption (h : s.InRange lv tr) : s.mixAfterAdoption.InRange lv tr := by
  unfold State.mixAfterAdoption
  split
  · exact h
  · exact .ite h h

/-- Handing over the meters keeps it. -/
theorem State.InRange.handMeters (h : s.InRange lv tr) : s.handMeters.InRange lv tr := by
  refine h.setOut fun c hc => ?_
  simp only [getAt, Vector.getElem_map]
  exact hc

/-- Taking the meters back keeps it. -/
theorem State.InRange.mergeSent (h : s.InRange lv tr) : s.mergeSent.InRange lv tr := by
  unfold State.mergeSent
  split
  · exact h
  · refine h.setOut fun c hc => ?_
    simp only [getAt, Vector.getElem_ofFn]
    exact hc

/-- Another mirror record leaves it. -/
theorem State.InRange.withMirror {m : Mirror} (h : s.InRange lv tr) :
    ({ s with mirror :=
  m } : State).InRange lv tr := h

/-- Dropping a section keeps it. -/
theorem State.InRange.dropSection (h : s.InRange lv tr) : s.dropSection.InRange lv tr := by
  unfold State.dropSection
  split
  · exact h
  · exact .ite (.mergeSent (.withMirror h)) (.withMirror h)

/-- The end of a section keeps it. -/
theorem State.InRange.sectionDone {sect : SnapSection} (h : s.InRange lv tr) :
    (s.sectionDone sect).InRange lv tr :=
  .ite h h

/-- One step of the mirror keeps it. -/
theorem State.InRange.mirrorMove (h : s.InRange lv tr) : s.mirrorMove.InRange lv tr := by
  unfold State.mirrorMove
  split
  · exact h
  · exact .dropSection h
  · split
    · exact .sectionDone h
    · exact .ite h (.ite (.sectionDone (.enqueue (.withMirror h))) (.enqueue (.withMirror h)))

/-- Several steps of the mirror keep it. -/
theorem State.InRange.mirrorPump {n : Nat} (h : s.InRange lv tr) : (State.mirrorPump n s).InRange lv tr := by
  induction n generalizing s with
  | zero => exact h
  | succ n ih => exact ih h.mirrorMove

/-- A section that begins keeps it. -/
theorem State.InRange.beginSection {sect : SnapSection} {periodic : Bool} (h : s.InRange lv tr) :
    (s.beginSection sect periodic).InRange lv tr := .mirrorPump (.withMirror (.ite (.handMeters h) h))

/-- A meter period keeps it. -/
theorem State.InRange.meterPeriod (h : s.InRange lv tr) : s.meterPeriod.InRange lv tr := .ite (.beginSection h) h

/-- The meters' part of the block keeps it. -/
theorem State.InRange.meterBlock (h : s.InRange lv tr) :
    s.meterBlock.InRange lv tr :=
  .ite (.meterPeriod (.setOut h fun _ => id)) (.setOut h fun _ => id)

/-- Playing a channel keeps it. -/
theorem State.InRange.playChannel {c : Fin 12} {xs : List Sample} {st : CrossoverState} (h : s.InRange lv tr) :
    (s.playChannel c xs st).InRange lv tr := .setOut (.setChan h id) fun _ => id

/-- The mixer's block keeps it. -/
theorem State.InRange.mixBlock (h : s.InRange lv tr) : s.mixBlock.InRange lv tr := h

/-- The sound of a block keeps it. -/
theorem State.InRange.soundBlock (h : s.InRange lv tr) : s.soundBlock.InRange lv tr := by
  unfold State.soundBlock
  dsimp only
  exact .forEach (fun _ _ => .playChannel) h

/-- The sound's part of the block keeps it. -/
theorem State.InRange.soundPart (h : s.InRange lv tr) : s.soundPart.InRange lv tr := by
  unfold State.soundPart
  exact .soundBlock (.mixBlock (.forEach (fun _ _ ht => ht.setChan Channel.applyDue_levelsIn) h))

end

end Sys2Proof.Machine
end

