-- ==== Sys2Proof/Proofs/RangeStep.lean ====
section
/-! SUPPORT. Every command, every stage of an output block and every row keeps the levels and the trackers in their
ranges: the two statements about a step (R67, R68, R79, R94, R174). -/

namespace Sys2Proof.Machine

open Sys2Proof

/-- A command leaves a state with the levels and the trackers in their ranges. -/
def CmdOut.InRange (lv tr : Prop) (o : CmdOut) : Prop := o.st.InRange lv tr

section
variable {s : State} {lv tr : Prop}

/-! ## Results of commands -/

/-- A refusal leaves the state. -/
theorem CmdOut.InRange.refuse {r : CmdResult} (h : s.InRange lv tr) : (refuse s r).InRange lv tr := h

/-- A command that is done leaves its state. -/
theorem CmdOut.InRange.done {v : Int} (h : s.InRange lv tr) : (done s v).InRange lv tr := h

/-- An accepted command leaves its state. -/
theorem CmdOut.InRange.accepted (h : s.InRange lv tr) : (accepted s).InRange lv tr := h

/-- A command with clamped arguments leaves its state. -/
theorem CmdOut.InRange.clampedOr {xs : List (Int × Int)} (h : s.InRange lv tr) : (clampedOr s xs).InRange lv tr := by
  induction xs with
  | nil => exact h
  | cons x xs ih =>
    unfold Machine.clampedOr
    split
    · exact ih
    · exact h

/-- Either branch of a command. -/
theorem CmdOut.InRange.ite {c : Prop} [Decidable c] {a b : CmdOut} (ha : a.InRange lv tr) (hb : b.InRange lv tr) :
    (if c then a else b).InRange lv tr := by
  split
  · exact ha
  · exact hb

/-- A command of a zone is refused or runs for it. -/
theorem CmdOut.InRange.withZone {zone : Byte} {f : Zone → CmdOut} (h : s.InRange lv tr)
    (hf : ∀ z, (f z).InRange lv tr) : (withZone zone s f).InRange lv tr := by
  unfold Machine.withZone
  split
  · exact .refuse h
  · exact hf _

/-- A command of the owner is refused or runs. -/
theorem CmdOut.InRange.withOwner {zone : Byte} {o : CmdOut} (h : s.InRange lv tr) (ho : o.InRange lv tr) :
    (withOwner zone s o).InRange lv tr :=
  .withZone h fun _ => .ite ho (.refuse h)

/-! ## Commands of the memory path -/

/-- Another mixer record leaves it. -/
theorem State.InRange.withMixer {m : Mixer} (h : s.InRange lv tr) : ({ s with mixer := m } : State).InRange lv tr := h

/-- RESTART behind the tuner keeps it. -/
theorem State.InRange.restartRest (h : s.InRange lv tr) : s.restartRest.InRange lv tr :=
  .withMixer (.zeroEnergies (.restartOutputs (.restartLanes h)))

/-- RESTART keeps it. -/
theorem State.InRange.cmdRestart (h : s.InRange lv tr) : (cmdRestart s).InRange lv tr := by
  rw [cmdRestart_stages]
  exact .done (.restartRest (.restartTuner (.restartPath (.restartPath (.withOwner (.restartZone (.restartZone h)))))))

/-- Discarding a window keeps it. -/
theorem State.InRange.discardWindow {i : Fin 16} (h : s.InRange lv tr) : (s.discardWindow i).InRange lv tr := by
  unfold State.discardWindow
  split
  · exact .discardRing h
  · exact .discardTap h
  · exact .dropSection h
  all_goals exact h

/-- Putting a window in its place keeps it. -/
theorem State.InRange.setWindow {i : Fin 16} {w : Window} (h : s.InRange lv tr) : (s.setWindow i w).InRange lv tr := h

/-- A new window keeps it. -/
theorem State.InRange.startWindow {i : Fin 16} {w : Window} (h : s.InRange lv tr) :
    (s.startWindow i w).InRange lv tr := by
  unfold State.startWindow
  split
  · exact .feedIfNamed (.setRing (.setWindow h))
  all_goals exact h

/-- DEFINE_WINDOW keeps it. -/
theorem State.InRange.cmdDefineWindow {index kind count : Byte} {size : BitVec 16} {base : BitVec 32}
    (h : s.InRange lv tr) : (cmdDefineWindow index kind count size base s).InRange lv tr := by
  unfold Machine.cmdDefineWindow
  split
  · exact .refuse h
  · exact .refuse h
  · exact .ite (.refuse h) (.ite (.refuse h) (.ite (.refuse h) (.ite (.refuse h) (.ite (.refuse h) (.ite (.refuse h)
      (.done (.startWindow (.discardWindow h))))))))

/-- RELEASE_WINDOW keeps it. -/
theorem State.InRange.cmdReleaseWindow {index : Byte} (h : s.InRange lv tr) :
    (cmdReleaseWindow index s).InRange lv tr := by
  unfold Machine.cmdReleaseWindow
  split
  · exact .refuse h
  · exact .ite (.refuse h) (.ite (.refuse h) (.done (.setWindow (.discardWindow h))))

/-- SNAPSHOT keeps it. -/
theorem State.InRange.cmdSnapshot {sect : Byte} (h : s.InRange lv tr) : (cmdSnapshot sect s).InRange lv tr := by
  unfold Machine.cmdSnapshot
  split
  · exact .done (.beginSection h)
  · exact .refuse h
  · exact .refuse h

/-- SET_METERS keeps it. -/
theorem State.InRange.cmdSetMeters {on : Byte} (h : s.InRange lv tr) :
    (cmdSetMeters on s).InRange lv tr :=
  .done (.withMirror h)

/-- BIND_TAP keeps it. -/
theorem State.InRange.cmdBindTap {index point : Byte} (h : s.InRange lv tr) :
    (cmdBindTap index point s).InRange lv tr := by
  unfold Machine.cmdBindTap
  split
  · split
    · exact .ite (.refuse h) h
    all_goals exact .refuse h
  · exact .refuse h

/-- UNBIND_TAP keeps it. -/
theorem State.InRange.cmdUnbindTap (h : s.InRange lv tr) : (cmdUnbindTap s).InRange lv tr := .done (.ite (.unbind h) h)

/-! ## Commands of the lanes, the sources and the zones -/

/-- SET_LANE keeps it. -/
theorem State.InRange.cmdSetLane {lane enable threshold replacement : Byte} (h : s.InRange lv tr) :
    (cmdSetLane lane enable threshold replacement s).InRange lv tr := by
  unfold Machine.cmdSetLane
  split
  · exact .refuse h
  · exact .clampedOr (.enableLane (.setLane h))

/-- Putting a source entry in range keeps it. -/
theorem State.InRange.putSource {e : Fin 12} {r : SourceEntry} (h : s.InRange lv tr) (hl : r.TrimIn) (ht : r.GainsIn) :
    (s.putSource e r).InRange lv tr :=
  .ite (.setSource h hl ht) (.lanesChanged (.setSource h hl ht))

/-- A clamped value lies in its range (R16). -/
theorem clampInt_mem {lo hi x : Int} (h : lo ≤ hi) : lo ≤ clampInt lo hi x ∧ clampInt lo hi x ≤ hi := by
  unfold clampInt
  split_ifs <;> omega

/-- A clamped count is at most its limit (R16). -/
theorem clampNat_le {hi x : Nat} : clampNat 0 hi x ≤ hi := by
  unfold clampNat
  split_ifs <;> omega

/-- DEFINE_SOURCE keeps it. -/
theorem State.InRange.cmdDefineSource {entry : Byte} {a : SourceArgs} (h : s.InRange lv tr) :
    (cmdDefineSource entry a s).InRange lv tr := by
  unfold Machine.cmdDefineSource
  split
  · exact .refuse h
  · exact .refuse h
  · refine .ite (.refuse h) (.ite (.refuse h) ?_)
    split
    · exact .refuse h
    · exact .refuse h
    · exact .ite (.refuse h) (.ite (.refuse h) (.clampedOr
        (.putSource h (clampInt_mem (by decide)) ⟨clampNat_le, clampNat_le⟩)))

/-- Forgetting a selection keeps it. -/
theorem State.InRange.forgetSelection {z : Zone} {e : Fin 12} (h : s.InRange lv tr) :
    (s.forgetSelection z e).InRange lv tr :=
  .ite (.setZone h id) h

/-- CLEAR_SOURCE keeps it. -/
theorem State.InRange.cmdClearSource {entry : Byte} (h : s.InRange lv tr) : (cmdClearSource entry s).InRange lv tr := by
  unfold Machine.cmdClearSource
  split
  · exact .refuse h
  · next e _ =>
    have hput := State.InRange.putSource (e := e) (r := SourceEntry.powerOn) h ⟨by decide, by decide⟩
      ⟨by decide, by decide⟩
    exact .ite (.refuse h) (.done (.forgetSelection (.forgetSelection hput)))

/-- Selecting a source in a zone that is on keeps it. -/
theorem State.InRange.selectOn {z : Zone} {e : Fin 12} (h : s.InRange lv tr) : (s.selectOn z e).InRange lv tr :=
  .ite (.ite (.done h) (.accepted (.startSwitch h)))
    (.ite (.accepted (.setZone (.switchDone h) id))
      (.ite (.accepted (.setZone (.switchDone h) id)) (.accepted (.startSwitch (.switchDone h)))))

/-- SELECT_SOURCE keeps it. -/
theorem State.InRange.cmdSelectSource {zone source : Byte} (h : s.InRange lv tr) :
    (cmdSelectSource zone source s).InRange lv tr := by
  refine .withZone h fun z => ?_
  split
  · exact .refuse h
  · exact .ite (.refuse h) (.ite (.selectOn h) (.done (.setZone h id)))

/-- ZONE_POWER to ON keeps it. -/
theorem State.InRange.cmdZonePowerOn {zone : Byte} (h : s.InRange lv tr) : (cmdZonePowerOn zone s).InRange lv tr :=
  .withZone h fun _ => .done (.powerZone h)

/-- ZONE_POWER to STANDBY keeps it. -/
theorem State.InRange.cmdZonePowerStandby {zone : Byte} (h : s.InRange lv tr) :
    (cmdZonePowerStandby zone s).InRange lv tr :=
  .withZone h fun _ => .done (.ite (.standbyIfSilent (.goStandby h)) h)

/-- ZONE_POWER keeps it. -/
theorem State.InRange.cmdZonePower {zone request : Byte} (h : s.InRange lv tr) :
    (cmdZonePower zone request s).InRange lv tr :=
  .ite (.cmdZonePowerOn h) (.ite (.cmdZonePowerStandby h) (.refuse h))

/-- MUTE keeps it. -/
theorem State.InRange.cmdMute {zone on : Byte} (h : s.InRange lv tr) : (cmdMute zone on s).InRange lv tr :=
  .withZone h fun _ => .ite (.done h) (.done (.zoneReport (.setZone h id)))

/-- SET_VOLUME keeps it. -/
theorem State.InRange.cmdSetVolume {zone : Byte} {level : BitVec 16} (h : s.InRange lv tr) :
    (cmdSetVolume zone level s).InRange lv tr :=
  .withZone h fun _ => .clampedOr (h.setZone fun ⟨hramp, _, hrest⟩ => ⟨hramp, clampInt_mem (by decide), hrest⟩)

/-- Spreading an AV delay keeps it. -/
theorem State.InRange.spreadAv {z : Zone} (h : s.InRange lv tr) : (s.spreadAv z).InRange lv tr := .ite h (.formGroup h)

/-- SET_ZONE keeps it. -/
theorem State.InRange.cmdSetZone {zone rate : Byte} {av : BitVec 16} {ceiling : Byte} (h : s.InRange lv tr) :
    (cmdSetZone zone rate av ceiling s).InRange lv tr := by
  refine .withZone h fun z => ?_
  have hset : (s.setZone z { s.zone z with
      rampRate := clampRampRate rate.toNat, avDelay := clampNat 0 9600 av.toNat
      ceiling := clampNat 0 24 ceiling.toNat }).InRange lv tr :=
    h.setZone fun ⟨hramp, htarget, hcurrent, _⟩ => ⟨hramp, htarget, hcurrent, clampNat_le⟩
  exact .ite (.refuse h) (.clampedOr (.ite hset hset.spreadAv))

/-- SET_SLEEP keeps it. -/
theorem State.InRange.cmdSetSleep {zone minutes : Byte} (h : s.InRange lv tr) :
    (cmdSetSleep zone minutes s).InRange lv tr :=
  .withZone h fun _ => .ite (.refuse h) (.clampedOr (.setZone h id))

/-- RETRACK keeps it. -/
theorem State.InRange.cmdRetrack {zone : Byte} (h : s.InRange lv tr) : (cmdRetrack zone s).InRange lv tr := by
  refine .withZone h fun z => ?_
  split
  · exact .done h
  · exact .ite (.done (.retrigger h)) (.done h)

/-- SET_DECODE keeps it. -/
theorem State.InRange.cmdSetDecode {zone mode : Byte} (h : s.InRange lv tr) :
    (cmdSetDecode zone mode s).InRange lv tr := by
  refine .withZone h fun z => ?_
  split
  · exact .refuse h
  · exact .refuse h
  · exact .ite h h

/-! ## Commands of the tuner -/

/-- A new radio operation keeps it. -/
theorem State.InRange.beginOp {kind : Operation} {dir : Direction} {clamped : Bool} (h : s.InRange lv tr) :
    (s.beginOp kind dir clamped).InRange lv tr := .withTuner (.abortOp h)

/-- TUNE keeps it. -/
theorem State.InRange.cmdTune {zone band : Byte} {freq : BitVec 32} (h : s.InRange lv tr) :
    (cmdTune zone band freq s).InRange lv tr := by
  refine .withOwner h ?_
  split
  · exact .refuse h
  · exact .accepted (.tuneTo (.beginOp h))

/-- STEP keeps it. -/
theorem State.InRange.cmdStep {zone dir : Byte} (h : s.InRange lv tr) : (cmdStep zone dir s).InRange lv tr := by
  refine .withOwner h ?_
  split
  · exact .refuse h
  · exact .accepted (.tuneTo (.beginOp h))

/-- SEEK keeps it. -/
theorem State.InRange.cmdSeek {zone dir : Byte} (h : s.InRange lv tr) : (cmdSeek zone dir s).InRange lv tr := by
  refine .withOwner h ?_
  split
  · exact .refuse h
  · exact .ite (.refuse h) (.accepted (.withTuner (.beginOp h)))

/-- Another station list leaves it. -/
theorem State.InRange.withStations {xs : List Station} {t : Tuner} (h : s.InRange lv tr) :
    ({ s with stations := xs, tuner := t } : State).InRange lv tr := h

/-- SCAN keeps it. -/
theorem State.InRange.cmdScan {zone band : Byte} (h : s.InRange lv tr) : (cmdScan zone band s).InRange lv tr := by
  refine .withOwner h ?_
  split
  · exact .refuse h
  · exact .ite (.refuse h) (.accepted (.withStations (.beginOp h)))

/-- ABORT_RADIO keeps it. -/
theorem State.InRange.cmdAbortRadio (h : s.InRange lv tr) : (cmdAbortRadio s).InRange lv tr := by
  unfold Machine.cmdAbortRadio
  dsimp only
  split
  · exact .done h
  · exact .done h
  · exact .done h
  · exact .done (.abortOp h)
  · exact .ite (.done (.radioReport (.withTuner (.abortOp h)))) (.done (.withTuner (.abortOp h)))
  · split
    · exact .done h
    · exact .done (.tuneBack (.abortOp h))

/-- Another region leaves it. -/
theorem State.InRange.withRegion {r : Region} {xs : List Station} (h : s.InRange lv tr) :
    ({ s with region := r, stations := xs } : State).InRange lv tr := h

/-- Taking a region keeps it. -/
theorem State.InRange.takeRegion {r : Region} (h : s.InRange lv tr) : (s.takeRegion r).InRange lv tr :=
  .ite (.withRegion h) (.ite (.radioReport (.tuneTo (.withRegion h))) (.radioReport (.withTuner (.withRegion h))))

/-- SET_REGION keeps it. -/
theorem State.InRange.cmdSetRegion {a : RegionArgs} (h : s.InRange lv tr) : (cmdSetRegion a s).InRange lv tr :=
  .ite (.refuse h) (.ite (.refuse h) (.ite (.refuse h) (.ite (.refuse h) (.clampedOr (.takeRegion h)))))

/-- CLEAR_STATIONS keeps it. -/
theorem State.InRange.cmdClearStations {selector : Byte} (h : s.InRange lv tr) :
    (cmdClearStations selector s).InRange lv tr := by
  unfold Machine.cmdClearStations
  split
  · exact .refuse h
  · exact h

/-- Putting a preset keeps it. -/
theorem State.InRange.setPreset {i : Fin 40} {p : Option Preset} (h : s.InRange lv tr) :
    (s.setPreset i p).InRange lv tr :=
  h

/-- STORE_PRESET keeps it. -/
theorem State.InRange.cmdStorePreset {index : Byte} {label : LabelArg} (h : s.InRange lv tr) :
    (cmdStorePreset index label s).InRange lv tr := by
  unfold Machine.cmdStorePreset
  split
  · exact .refuse h
  · exact .refuse h
  · dsimp only
    split
    · exact .refuse h
    · exact .refuse h
    · exact .refuse h
    all_goals exact .done (.setPreset h)

/-- SET_PRESET keeps it. -/
theorem State.InRange.cmdSetPreset {index band : Byte} {freq : BitVec 32} {label : LabelArg} (h : s.InRange lv tr) :
    (cmdSetPreset index band freq label s).InRange lv tr := by
  unfold Machine.cmdSetPreset
  split
  · exact .ite (.refuse h) (.done (.setPreset h))
  · exact .refuse h

/-- CLEAR_PRESET keeps it. -/
theorem State.InRange.cmdClearPreset {index : Byte} (h : s.InRange lv tr) : (cmdClearPreset index s).InRange lv tr := by
  unfold Machine.cmdClearPreset
  split
  · exact .refuse h
  · exact .done (.setPreset h)

/-- RECALL_PRESET keeps it. -/
theorem State.InRange.cmdRecallPreset {zone index : Byte} (h : s.InRange lv tr) :
    (cmdRecallPreset zone index s).InRange lv tr := by
  refine .withOwner h ?_
  split
  · exact .refuse h
  · split
    · exact .refuse h
    · exact .accepted (.tuneTo (.beginOp h))

/-! ## Commands of the outputs -/

/-- The assignment of a role keeps it. -/
theorem State.InRange.assigned {c : Fin 12} {r : Role} (h : s.InRange lv tr) : (s.assigned c r).1.InRange lv tr := by
  unfold State.assigned
  dsimp only
  split
  · exact .givePending h
  · exact .givePending (.givePending h)

/-- ASSIGN_OUTPUT keeps it. -/
theorem State.InRange.cmdAssignOutput {channel role : Byte} (h : s.InRange lv tr) :
    (cmdAssignOutput channel role s).InRange lv tr := by
  unfold Machine.cmdAssignOutput
  split
  · exact .ite (.refuse h) (.ite (.done h) (.ite (.refuse h) (.done (.formGroup (.assigned h)))))
  · exact .refuse h

/-- SET_CHANNEL keeps it. -/
theorem State.InRange.cmdSetChannel {channel : Byte} {trim : BitVec 8} {delay : BitVec 16} {polarity size : Byte}
    (h : s.InRange lv tr) : (cmdSetChannel channel trim delay polarity size s).InRange lv tr := by
  unfold Machine.cmdSetChannel
  split
  · exact .ite (.refuse h) (.ite (.clampedOr (h.setChan fun ⟨hramp, hlr, _⟩ => ⟨hramp, hlr, clampInt_mem (by decide)⟩))
      (.clampedOr (.formGroup (h.givePending.setChan fun ⟨hramp, hlr, _⟩ => ⟨hramp, hlr, clampInt_mem (by decide)⟩))))
  · exact .refuse h

/-- SET_BASS keeps it. -/
theorem State.InRange.cmdSetBass {hz : Byte} (h : s.InRange lv tr) :
    (cmdSetBass hz s).InRange lv tr :=
  .ite (.refuse h) (.done (.setOut h fun _ => id))

/-- CLEAR_FAULT keeps it. -/
theorem State.InRange.cmdClearFault {pair : Byte} (h : s.InRange lv tr) : (cmdClearFault pair s).InRange lv tr := by
  unfold Machine.cmdClearFault
  split
  · exact .refuse h
  · dsimp only
    split
    · exact .done h
    · exact .done h
    all_goals exact .ite (.refuse h) (.done (.enterSoftStart h))

/-- SET_PROTECT keeps it. -/
theorem State.InRange.cmdSetProtect {pair detect retry : Byte} (h : s.InRange lv tr) :
    (cmdSetProtect pair detect retry s).InRange lv tr := by
  unfold Machine.cmdSetProtect
  split
  · exact .refuse h
  · exact .clampedOr (.setPair h)

/-- An opcode outside the table keeps it. -/
theorem State.InRange.cmdUnknown (h : s.InRange lv tr) : (cmdUnknown s).InRange lv tr := .refuse h

/-- NOP keeps it. -/
theorem State.InRange.cmdNop (h : s.InRange lv tr) : (cmdNop s).InRange lv tr := .done h

/-- Every opcode's command keeps it. -/
theorem State.InRange.runOpcode {op : Nat} {target : Byte} {args : List Byte} (h : s.InRange lv tr) :
    (runOpcode op target args s).InRange lv tr := by
  unfold Machine.runOpcode
  dsimp only
  split
  · exact h.cmdNop
  · exact h.cmdRestart
  · exact h.cmdDefineWindow
  · exact h.cmdReleaseWindow
  · exact h.cmdSnapshot
  · exact h.cmdSetMeters
  · exact h.cmdBindTap
  · exact h.cmdUnbindTap
  · exact h.cmdSetLane
  · exact h.cmdDefineSource
  · exact h.cmdClearSource
  · exact h.cmdSelectSource
  · exact h.cmdZonePower
  · exact h.cmdMute
  · exact h.cmdSetVolume
  · exact h.cmdSetZone
  · exact h.cmdSetSleep
  · exact h.cmdRetrack
  · exact h.cmdSetDecode
  · exact h.cmdTune
  · exact h.cmdStep
  · exact h.cmdSeek
  · exact h.cmdScan
  · exact h.cmdAbortRadio
  · exact h.cmdSetRegion
  · exact h.cmdClearStations
  · exact h.cmdStorePreset
  · exact h.cmdSetPreset
  · exact h.cmdClearPreset
  · exact h.cmdRecallPreset
  · exact h.cmdAssignOutput
  · exact h.cmdSetChannel
  · exact h.cmdSetBass
  · exact h.cmdClearFault
  · exact h.cmdSetProtect
  · exact h.cmdUnknown

/-! ## The command ring -/

/-- Placing the waiting return keeps it. -/
theorem State.InRange.placeCommandReturn (h : s.InRange lv tr) : s.placeCommandReturn.InRange lv tr := by
  unfold State.placeCommandReturn
  split
  · exact h
  · exact .ite h h

/-- The return of a command keeps it. -/
theorem State.InRange.returnCommand {o : CmdOut} {op target : Byte} (h : o.InRange lv tr) :
    (State.returnCommand o op target).InRange lv tr :=
  State.InRange.placeCommandReturn (s := { o.st with cmd := _ }) h

/-- Handing a command over keeps it. -/
theorem State.InRange.handOver {op target : Byte} {args : List Byte} (h : s.InRange lv tr) :
    (s.handOver op target args).InRange lv tr :=
  h

/-- A row of the ring whose command keeps it. -/
theorem State.InRange.runHost {op : Nat} {target : Byte} {args : List Byte} {cmd : State → CmdOut}
    (hc : ∀ t, t.InRange lv tr → (cmd t).InRange lv tr) (h : s.InRange lv tr) :
    (s.runHost op target args cmd).InRange lv tr :=
  .ite h (.returnCommand (hc _ h.handOver))

/-- Taking the command in slot next keeps it. -/
theorem State.InRange.takeCommand (h : s.InRange lv tr) :
    s.takeCommand.InRange lv tr :=
  .ite h (.returnCommand h.runOpcode)

/-! ## The link -/

/-- The tap's place in the queue keeps it. -/
theorem State.InRange.tapEnqueue (h : s.InRange lv tr) : s.tapEnqueue.InRange lv tr :=
  .ite (.placeCommandReturn (.endUnbinding h.tapMove)) h.tapMove

/-- The mirror's place in the queue keeps it. -/
theorem State.InRange.mirrorEnqueue (h : s.InRange lv tr) : s.mirrorEnqueue.InRange lv tr :=
  .ite (.placeCommandReturn h.mirrorMove) h.mirrorMove

/-- Looking at the next request's overlap keeps it. -/
theorem State.InRange.countOverlap (h : s.InRange lv tr) : s.countOverlap.InRange lv tr := by
  unfold State.countOverlap
  split
  · exact h
  · exact h

/-- Accepting the next request keeps it. -/
theorem State.InRange.acceptWaiting (h : s.InRange lv tr) : s.acceptWaiting.InRange lv tr := by
  refine .ite h ?_
  split
  · exact h
  · exact h

/-- A presented request keeps it. -/
theorem State.InRange.presentRequest {r : Request} (h : s.InRange lv tr) : (s.presentRequest r).InRange lv tr := by
  have hpresented : ({ s with link := { s.link with waiting := s.link.waiting ++ [r] } } : State).InRange lv tr := h
  exact .acceptWaiting (.ite hpresented.countOverlap hpresented)

/-- A write in the command ring keeps it. -/
theorem State.InRange.observeCommand {got : List (Nat × Byte)} {i : Fin 64} (h : s.InRange lv tr) :
    (s.observeCommand got i).InRange lv tr := by
  unfold State.observeCommand
  dsimp only
  refine .ite h ?_
  split
  · exact .ite h h
  · exact h

/-- A write in the report ring keeps it. -/
theorem State.InRange.observeReport {got : List (Nat × Byte)} (h : s.InRange lv tr) :
    (s.observeReport got).InRange lv tr := by
  induction got generalizing s with
  | nil => exact h
  | cons ab rest ih => exact ih (.ite h h)

/-- A write in the anchor keeps it. -/
theorem State.InRange.observeAnchor {w : LinkWrite} (h : s.InRange lv tr) : (s.observeAnchor w).InRange lv tr :=
  .ite h.observeCommand h.observeReport

/-- An observed write keeps it. -/
theorem State.InRange.observe {w : LinkWrite} (h : s.InRange lv tr) : (s.observe w).InRange lv tr := by
  unfold State.observe
  split
  · exact h
  · split
    · exact h.observeAnchor
    · exact h.observeStream
    · exact h.observeTap
    all_goals exact h

/-- Observing a forwarded request keeps it. -/
theorem State.InRange.observeRequest {r : Request} (h : s.InRange lv tr) : (s.observeRequest r).InRange lv tr := by
  cases r with
  | read _ _ => exact h
  | write w => exact h.observe

/-! ## The rows of the link -/

/-- The response of a request keeps it. -/
theorem State.InRange.passBack {data : List Byte} {x : InFlight} (h : s.InRange lv tr) :
    (s.passBack data x).InRange lv tr := by
  cases x
  all_goals exact h

/-- The issue of a write keeps it, whatever its origin. -/
theorem State.InRange.issued {o : Origin} (h : s.InRange lv tr) : (s.issued o).InRange lv tr := by
  unfold State.issued
  split
  · exact h
  · exact h
  · exact .slotReturned h
  · exact .tapReturned h
  all_goals exact h

/-- The issue of the head of the queue keeps it. -/
theorem State.InRange.issueHead {i : Injected} {rest : List Injected} (h : s.InRange lv tr) :
    ((s.putInjected i rest).issued i.origin).acceptWaiting.InRange lv tr :=
  .acceptWaiting (State.InRange.issued (s := s.putInjected i rest) h)

/-- Dropping the tag of a switch keeps it. -/
theorem State.InRange.dropSwitchTag {z : Zone} (h : s.InRange lv tr) : (s.dropSwitchTag z).InRange lv tr :=
  .setZone h id

/-- Another tuner record and another tap leave it. -/
theorem State.InRange.withTunerTap {t : Tuner} {x : Tap} (h : s.InRange lv tr) :
    ({ s with tuner := t, tap := x } : State).InRange lv tr := h

/-- A link reset keeps it (R27). -/
theorem State.InRange.linkReset (h : s.InRange lv tr) : s.linkReset.InRange lv tr := by
  have hcleared : ({ s with link := s.link.reset, intakeWait := [], cmd := CommandUnit.powerOn
                            rep := ReportUnit.powerOn } : State).InRange lv tr := h
  have hfreed := State.InRange.forEach (f := fun i t => State.freeWindow t i)
    (fun _ _ ht => .setWindow ht.discardWindow) (xs := (List.finRange 16).filter fun i => decide (i.val ≠ 0)) hcleared
  unfold State.linkReset
  exact .withTunerTap (.dropSwitchTag (.dropSwitchTag hfreed.dropSection))

/-- The part at power-on meets it, whatever the straps (R26). -/
theorem State.InRange.powerOn (straps : BitVec 4) : (State.powerOn straps).InRange lv tr := by
  obtain ⟨-, hlevels, htrackers, -⟩ := resetMeetsInvariants
  exact ⟨fun _ => ((State.levelInv_iff _).mp hlevels).1 trivial,
    fun _ => ((State.trackerInv_iff _).mp htrackers).2 trivial⟩

/-! ## The stages of a block -/

/-- Beginning a block keeps it. -/
theorem State.InRange.begun (h : s.InRange lv tr) : s.begun.InRange lv tr := .takePart (fun _ ht => ht) h

/-- The lanes' parts keep it. -/
theorem State.InRange.lanesMade (h : s.InRange lv tr) : s.lanesMade.InRange lv tr :=
  .forEach (fun _ _ => .takePart fun _ => .laneBlock) h.begun

/-- The paths' parts keep it. -/
theorem State.InRange.pathsMade (h : s.InRange lv tr) : s.pathsMade.InRange lv tr :=
  .takePart (fun _ => .pathBlock) (.takePart (fun _ => .pathBlock) h.lanesMade)

/-- The tuner's part keeps it. -/
theorem State.InRange.tunerMade (h : s.InRange lv tr) :
    s.tunerMade.InRange lv tr :=
  .takePart (fun _ => .tunerBlock) h.pathsMade

/-- The zones' parts keep it. -/
theorem State.InRange.zonesMade (h : s.InRange lv tr) : s.zonesMade.InRange lv tr :=
  .takePart (fun _ => .zoneBlock) (.takePart (fun _ => .zoneBlock) h.tunerMade)

/-- The thermal part keeps it. -/
theorem State.InRange.thermalMade {therm : Bool} (h : s.InRange lv tr) : (s.thermalMade therm).InRange lv tr :=
  .takePart (fun _ => .thermalBlock) h.zonesMade

/-- A channel ramp's part keeps it. -/
theorem State.InRange.rampBlock {c : Fin 12} (h : s.InRange lv tr) : (s.rampBlock c).InRange lv tr :=
  h.setChan Channel.rampStep_levelsIn

/-- The channel ramps' parts keep it. -/
theorem State.InRange.rampsMade {therm : Bool} (h : s.InRange lv tr) : (s.rampsMade therm).InRange lv tr :=
  .forEach (fun _ _ => .takePart fun _ => .rampBlock) h.thermalMade

/-- The pairs' parts keep it. -/
theorem State.InRange.pairsMade {faults : BitVec 6} {therm : Bool} (h : s.InRange lv tr) :
    (s.pairsMade faults therm).InRange lv tr :=
  .forEach (fun _ _ => .takePart fun _ => .pairPart) h.rampsMade

/-- The soft starts' parts keep it. -/
theorem State.InRange.startsMade {faults : BitVec 6} {therm : Bool} (h : s.InRange lv tr) :
    (s.startsMade faults therm).InRange lv tr :=
  .forEach (fun _ _ => .softStartBlock) h.pairsMade

/-- The groups' parts keep it. -/
theorem State.InRange.groupsMade {faults : BitVec 6} {therm : Bool} (h : s.InRange lv tr) :
    (s.groupsMade faults therm).InRange lv tr :=
  .forEach (fun _ _ => .groupBlock) h.startsMade

/-- The sound's part keeps it. -/
theorem State.InRange.soundMade {faults : BitVec 6} {therm : Bool} (h : s.InRange lv tr) :
    (s.soundMade faults therm).InRange lv tr :=
  .takePart (fun _ => .soundPart) h.groupsMade

/-- A limiter's part keeps it. -/
theorem State.InRange.limitPart {c : Fin 12} (h : s.InRange lv tr) : (s.limitPart c).InRange lv tr :=
  h.setChan Channel.limit_levelsIn

/-- The limiters' parts keep it. -/
theorem State.InRange.limiterMade {faults : BitVec 6} {therm : Bool} (h : s.InRange lv tr) :
    (s.limiterMade faults therm).InRange lv tr :=
  .forEach (fun _ _ => .takePart fun _ => .limitPart) h.soundMade

/-- The tap's part of a block keeps it. -/
theorem State.InRange.tapPart (h : s.InRange lv tr) : s.tapPart.InRange lv tr := by
  unfold State.tapPart
  split
  · exact h
  · exact .tapBlock h

/-- The tap's part keeps it. -/
theorem State.InRange.tapMade {faults : BitVec 6} {therm : Bool} (h : s.InRange lv tr) :
    (s.tapMade faults therm).InRange lv tr :=
  .takePart (fun _ => .tapPart) h.limiterMade

/-- The meters' part keeps it. -/
theorem State.InRange.metersMade {faults : BitVec 6} {therm : Bool} (h : s.InRange lv tr) :
    (s.metersMade faults therm).InRange lv tr :=
  .takePart (fun _ => .meterBlock) h.tapMade

/-- An output block keeps it. -/
theorem State.InRange.outputBlock {faults : BitVec 6} {therm : Bool} (h : s.InRange lv tr) :
    (s.outputBlock faults therm).InRange lv tr := by
  have hend : ∀ t : State, t.InRange lv tr → t.endBlock.InRange lv tr := fun t ht => ht.mixAfterAdoption
  exact hend _ (.metersMade (.withPins h))

/-- A path's event keeps it. -/
theorem State.InRange.pathEvent {p : PathId} {occurs : State → PathId → Bool} (h : s.InRange lv tr) :
    (pathEvent p occurs s).InRange lv tr := .blockEvent (fun _ => .lanesMade) (fun _ => .pathBlock) h

/-- A tuner's event keeps it. -/
theorem State.InRange.tunerEvent {occurs : State → Bool} (h : s.InRange lv tr) : (tunerEvent occurs s).InRange lv tr :=
  .blockEvent (fun _ => .pathsMade) (fun _ => .tunerBlock) h

/-- A zone's event keeps it. -/
theorem State.InRange.zoneEvent {z : Zone} {occurs : State → Bool} (h : s.InRange lv tr) :
    (zoneEvent z occurs s).InRange lv tr :=
  .blockEvent (fun _ => .tunerMade) (fun _ => .zoneBlock) h

/-- A thermal event keeps it. -/
theorem State.InRange.thermalEvent {line : Bool} {occurs : Thermal → Bool} (h : s.InRange lv tr) :
    (thermalEvent line occurs s).InRange lv tr := .blockEvent (fun _ => .zonesMade) (fun _ => .thermalBlock) h

/-- A pair's event keeps it. -/
theorem State.InRange.pairEvent {n : Fin 6} {line therm : Bool} {occurs : Pair → Bool → Bool} (h : s.InRange lv tr) :
    (pairEvent n line therm occurs s).InRange lv tr := .blockEvent (fun _ => .rampsMade) (fun _ => .pairPart) h

end

/-! ## Rows -/

/-- A row's next state, when there is one, has the levels and the trackers in their ranges. -/
def KeepsRange (lv tr : Prop) (o : Host.Outcome State Fault Refusal) : Prop := ∀ t, o = .next t → t.InRange lv tr

/-- A row with a next state keeps them when that state does. -/
theorem KeepsRange.next {lv tr : Prop} {u : State} (h : u.InRange lv tr) : KeepsRange lv tr (.next u) := by
  intro t ht
  cases ht
  exact h

/-- A row that faults has no next state. -/
theorem KeepsRange.fault {lv tr : Prop} {f : Fault} : KeepsRange lv tr (.fault f) := by
  intro t ht
  cases ht

section
variable {s : State} {lv tr : Prop}

/-- HOST_REQUEST_ACCEPT keeps it; a malformed request has no next state. -/
theorem keepsRange_hostRequestAccept (r : Request) (h : s.InRange lv tr) :
    KeepsRange lv tr (exec (.hostRequestAccept r) s) := by
  show KeepsRange lv tr (if r.wf then .next (s.presentRequest r) else .fault .malformedRequest)
  split_ifs
  · exact .next h.presentRequest
  · exact .fault

/-- REQUEST_FORWARD keeps it. -/
theorem keepsRange_requestForward (h : s.InRange lv tr) : KeepsRange lv tr (exec .requestForward s) := by
  refine .next ?_
  split
  · exact h
  · exact .ite (.acceptWaiting (.countOverlap (State.InRange.observeRequest (s := s.putForward _) h))) h

/-- DRAM_RESPONSE keeps it. -/
theorem keepsRange_dramResponse (data : List Byte) (h : s.InRange lv tr) :
    KeepsRange lv tr (exec (.dramResponse data) s) := by
  refine .next ?_
  split
  · exact h
  · exact State.InRange.passBack (s := { s with link := _ }) h

/-- INJECTED_WRITE_ISSUE keeps it. -/
theorem keepsRange_injectedWriteIssue (h : s.InRange lv tr) : KeepsRange lv tr (exec .injectedWriteIssue s) := by
  refine .next ?_
  split
  · exact h
  · exact .ite h h.issueHead

/-- PRODUCER_ENQUEUE keeps it, for each producer. -/
theorem keepsRange_producerEnqueue (p : Producer) (h : s.InRange lv tr) :
    KeepsRange lv tr (exec (.producerEnqueue p) s) := by
  cases p
  · exact .next h.placeCommandReturn
  · exact .next h.writePending
  · exact .next h.placeReturn
  · exact .next h.tapEnqueue
  · exact .next h.mirrorEnqueue

/-- STREAM_IDLE keeps it. -/
theorem keepsRange_streamIdle (w : Fin 16) (h : s.InRange lv tr) : KeepsRange lv tr (exec (.streamIdle w) s) := by
  refine .next (.ite ?_ h)
  split
  · exact h
  · exact .setRing h

/-- CHANGE_GROUP_APPLY keeps it. -/
theorem keepsRange_changeGroupApply (u : ChannelLines) (h : s.InRange lv tr) :
    KeepsRange lv tr (exec (.changeGroupApply u) s) := by
  refine .next ?_
  dsimp only
  split
  · exact h
  · exact .ite (.applyGroup h.startsMade) h

/-- Every row keeps it. -/
theorem exec_keepsRange (c : Instr) (h : s.InRange lv tr) : KeepsRange lv tr (exec c s) := by
  cases c with
  | powerOn straps => exact .next (.powerOn straps)
  | linkReset => exact .next h.linkReset
  | hostRequestAccept r => exact keepsRange_hostRequestAccept r h
  | requestForward => exact keepsRange_requestForward h
  | dramResponse data => exact keepsRange_dramResponse data h
  | injectedWriteIssue => exact keepsRange_injectedWriteIssue h
  | starvationHold => exact .next (.ite h h)
  | producerEnqueue p => exact keepsRange_producerEnqueue p h
  | takeCommand faults => exact .next (.takeCommand (.withPins h))
  | reportWrite => exact .next h.writePending
  | nop => exact .next (.runHost (fun _ => .cmdNop) h)
  | restart => exact .next (.runHost (fun _ => .cmdRestart) h)
  | defineWindow => exact .next (.runHost (fun _ => .cmdDefineWindow) h)
  | releaseWindow => exact .next (.runHost (fun _ => .cmdReleaseWindow) h)
  | snapshot => exact .next (.runHost (fun _ => .cmdSnapshot) h)
  | setMeters => exact .next (.runHost (fun _ => .cmdSetMeters) h)
  | bindTap => exact .next (.runHost (fun _ => .cmdBindTap) h)
  | unbindTap => exact .next (.runHost (fun _ => .cmdUnbindTap) h)
  | setLane => exact .next (.runHost (fun _ => .cmdSetLane) h)
  | defineSource => exact .next (.runHost (fun _ => .cmdDefineSource) h)
  | clearSource => exact .next (.runHost (fun _ => .cmdClearSource) h)
  | selectSource => exact .next (.runHost (fun _ => .cmdSelectSource) h)
  | zonePowerOn => exact .next (.runHost (fun _ => .cmdZonePowerOn) h)
  | zonePowerStandby => exact .next (.runHost (fun _ => .cmdZonePowerStandby) h)
  | mute => exact .next (.runHost (fun _ => .cmdMute) h)
  | setVolume => exact .next (.runHost (fun _ => .cmdSetVolume) h)
  | setZone => exact .next (.runHost (fun _ => .cmdSetZone) h)
  | setSleep => exact .next (.runHost (fun _ => .cmdSetSleep) h)
  | retrack => exact .next (.runHost (fun _ => .cmdRetrack) h)
  | setDecode => exact .next (.runHost (fun _ => .cmdSetDecode) h)
  | tune => exact .next (.runHost (fun _ => .cmdTune) h)
  | step => exact .next (.runHost (fun _ => .cmdStep) h)
  | seek => exact .next (.runHost (fun _ => .cmdSeek) h)
  | scan => exact .next (.runHost (fun _ => .cmdScan) h)
  | abortRadio => exact .next (.runHost (fun _ => .cmdAbortRadio) h)
  | setRegion => exact .next (.runHost (fun _ => .cmdSetRegion) h)
  | clearStations => exact .next (.runHost (fun _ => .cmdClearStations) h)
  | storePreset => exact .next (.runHost (fun _ => .cmdStorePreset) h)
  | setPreset => exact .next (.runHost (fun _ => .cmdSetPreset) h)
  | clearPreset => exact .next (.runHost (fun _ => .cmdClearPreset) h)
  | recallPreset => exact .next (.runHost (fun _ => .cmdRecallPreset) h)
  | assignOutput => exact .next (.runHost (fun _ => .cmdAssignOutput) h)
  | setChannel => exact .next (.runHost (fun _ => .cmdSetChannel) h)
  | setBass => exact .next (.runHost (fun _ => .cmdSetBass) h)
  | clearFault => exact .next (.runHost (fun _ => .cmdClearFault) (.withPins h))
  | setProtect => exact .next (.runHost (fun _ => .cmdSetProtect) h)
  | unknownOpcode => exact .next (.ite h (.runHost (fun _ => .cmdUnknown) h))
  | unpackFrame => exact .next h.unpackStep
  | streamIdle w => exact keepsRange_streamIdle w h
  | outputBlock => exact .next h.outputBlock
  | laneLoss => exact .next (.blockEvent (fun _ => .begun) (fun _ => .laneBlock) h)
  | realignDeassert => exact .next (.ite (.setLane h) h)
  | laneFrame => exact .next h.receiveFrame
  | fadeOutEnd => exact .next h.zoneEvent
  | waitReadyEnd => exact .next h.zoneEvent
  | sourceAbsent => exact .next h.zoneEvent
  | switchComplete => exact .next h.zoneEvent
  | goingStandbyEnd => exact .next h.zoneEvent
  | sleepMinute => exact .next h.zoneEvent
  | formatAdoption => exact .next h.pathEvent
  | prefillExit => exact .next h.pathEvent
  | gainCheck => exact .next h.pathEvent
  | acquireLock => exact .next h.pathEvent
  | slip => exact .next h.pathEvent
  | holdEntry => exact .next h.pathEvent
  | holdExit => exact .next h.pathEvent
  | changeGroupApply u => exact keepsRange_changeGroupApply u h
  | softStartCount => exact .next (.blockEvent (fun _ => .thermalMade) (fun _ => .rampBlock) h)
  | softStartEnd => exact .next (.ite (.endSoftStart h.rampsMade) h)
  | limiterRelease => exact .next (.blockEvent (fun _ => .soundMade) (fun _ => .limitPart) h)
  | meterPeriodEnd => exact .next (.blockEvent (fun _ => .tapMade) (fun _ => .meterBlock) h)
  | protectEntry => exact .next h.pairEvent
  | recoverWaitExpiry => exact .next h.pairEvent
  | normalRunExpiry => exact .next h.pairEvent
  | thermalWarningSet => exact .next h.thermalEvent
  | thermalClear => exact .next h.thermalEvent
  | escalationSet => exact .next h.thermalEvent
  | thermalStep => exact .next h.thermalEvent
  | feAcknowledgement => exact .next (.withTuner h)
  | ackTimeout => exact .next h.tunerEvent
  | feStatusRecord => exact .next h.statusRecord
  | feBurst => exact .next (.withTuner h)
  | statusSilence => exact .next h.tunerEvent
  | settleLimit => exact .next h.tunerEvent
  | dwellEnd => exact .next h.tunerEvent
  | pilotCapture => exact .next h.pilotCapture
  | pilotTimeout => exact .next h.pilotCapture
  | blendStep => exact .next h.tunerEvent

end

/-- A step idles, or runs a row on the state without the command at the front of the queue. -/
theorem step_keepsRange {lv tr : Prop} {s t : State} (h : s.InRange lv tr) (hstep : step s = .next t) :
    t.InRange lv tr := by
  unfold step at hstep
  split at hstep
  · cases hstep
    exact h
  · next c rest _ => exact exec_keepsRange c (s := { s with pending := rest }) h t hstep

/-- Settles O3: no row takes a level out of its range. -/
theorem stepKeepsLevels : Obligations.StepKeepsLevels := fun s t h hstep =>
  t.levelInv_iff.mpr (step_keepsRange (s.levelInv_iff.mp h) hstep)

/-- Settles O4: no row takes a tracker out of its bounds, nor a source entry's gains. -/
theorem stepKeepsTrackerBounds : Obligations.StepKeepsTrackerBounds := fun s t h hstep =>
  t.trackerInv_iff.mpr (step_keepsRange (s.trackerInv_iff.mp h) hstep)

end Sys2Proof.Machine
end

