-- ==== Sys2Proof/Proofs/ZoneRules.lean ====
section
/-! SUPPORT. The zone controller's operations, each by its cases: reports, attaching and detaching (R71 to R73), the
stages of a switch (R81 to R83), and the statement about them. -/

namespace Sys2Proof.Machine

open Sys2Proof

/-! ## Reports -/

/-- Raising a report keeps the zone records. -/
@[simp] theorem State.raise_zone (s : State) (k : ReportKind) (i : Nat) (pl : List Byte) (z : Zone) :
    (s.raise k i pl).zone z = s.zone z := by cases z <;> simp [State.zone]

/-- A completion keeps the zone records. -/
@[simp] theorem State.raiseDone_zone (s : State) (t : Option Nat) (pl : List Byte) (z : Zone) :
    (s.raiseDone t pl).zone z = s.zone z := by cases z <;> simp [State.zone]

/-- A completion keeps the path records. -/
@[simp] theorem State.raiseDone_path (s : State) (t : Option Nat) (pl : List Byte) (p : PathId) :
    (s.raiseDone t pl).path p = s.path p := by cases p <;> simp [State.path]

@[simp] theorem State.zoneReport_zone (s : State) (y z : Zone) : (s.zoneReport y).zone z = s.zone z :=
  s.raise_zone ..

@[simp] theorem State.zoneReport_path (s : State) (y : Zone) (p : PathId) : (s.zoneReport y).path p = s.path p :=
  s.raise_path ..

@[simp] theorem State.switchDone_zone (s : State) (y z : Zone) (r : CmdResult) :
    (s.switchDone y r).zone z = s.zone z := s.raiseDone_zone ..

@[simp] theorem State.switchDone_path (s : State) (y : Zone) (r : CmdResult) (p : PathId) :
    (s.switchDone y r).path p = s.path p := s.raiseDone_path ..

@[simp] theorem State.radioReport_zone (s : State) (c : RadioCause) (z : Zone) :
    (s.radioReport c).zone z = s.zone z := s.raise_zone ..

@[simp] theorem State.radioReport_path (s : State) (c : RadioCause) (p : PathId) :
    (s.radioReport c).path p = s.path p := s.raise_path ..

/-! ## Attaching (R71, R73, R134) -/

/-- The path bound to a source: P0 before P1 (R70). -/
theorem State.boundPath_iff (s : State) (e : Fin 12) (p : PathId) :
    s.boundPath e = some p ↔ (s.path p).binding = some e ∧ (p = .p1 → s.pathZero.binding ≠ some e) := by
  unfold State.boundPath
  cases p with
  | p0 =>
    show _ ↔ s.pathZero.binding = some e ∧ _
    split_ifs with h0 h1
    · simp [h0]
    · simp [h0]
    · simp [h0]
  | p1 =>
    show _ ↔ s.pathOne.binding = some e ∧ _
    split_ifs with h0 h1
    · simp [h0]
    · simp [h0, h1]
    · simp [h0, h1]

/-- What attaching does before ownership is looked at: the zone joins the path bound to the source, or binds a free one
(R71). -/
def State.joined (s : State) (z : Zone) (e : Fin 12) : State :=
  match s.boundPath e with
  | some q => s.joinPath z q
  | none => (s.joinPath z s.freePath).bindPath s.freePath e

/-- Attaching is joining, and taking an unowned tuner (R73). -/
theorem State.attach_joined (s : State) (z : Zone) (e : Fin 12) :
    s.attach z e
      = if ((s.joined z e).source e).kind = .tuner ∧ (s.joined z e).owner = none then (s.joined z e).setOwner z
        else s.joined z e := rfl

/-- MAIN's energies start from 0 at attachment (R114). -/
theorem State.joinPath_main (s : State) (p : PathId) :
    s.joinPath .main p
      = (let v := s.setZone .main { s.zone .main with attached := some p }
         { v with mixer := { v.mixer with eL := 0, eR := 0, eM := 0, eS := 0 } }) := rfl

/-- Zone 2 has no energies (R114). -/
theorem State.joinPath_zone2 (s : State) (p : PathId) :
    s.joinPath .zone2 p = s.setZone .zone2 { s.zone .zone2 with attached := some p } := rfl

/-- Binding starts a path in PREFILL and tells the source's block (R71, R99). -/
theorem State.bindPath_eq (s : State) (p : PathId) (e : Fin 12) :
    s.bindPath p e
      = (({ s with bindFirst := if (s.path p.other).binding = none then p else p.other } : State).setPath p
          { PathRec.free with binding := some e, tracker := { Tracker.free with state := .prefill } }).tellBound p
            e := by
  unfold State.bindPath
  cases (s.path p.other).binding with
  | none => rfl
  | some _ => rfl

section told
variable {s : State} {p : PathId} {e : Fin 12}

/-- An entry of kind NONE has no block to tell (R71). -/
theorem State.tellBound_none (hk : (s.source e).kind = .none) : s.tellBound p e = s := by
  simp only [State.tellBound, hk]

/-- A running group hands its format over (R71, R92). -/
theorem State.tellBound_running {g : GroupRec} {f : Format} (hk : (s.source e).kind = .laneGroup)
    (hg : s.group e = some g) (hr : g.stage = .running) (hf : g.format = some f) :
    s.tellBound p e = s.handFormat p f := by
  obtain ⟨stage, format, opened⟩ := g
  cases hr
  cases hf
  simp only [State.tellBound, hk, hg]

/-- A group that does not run, or has no format, hands nothing over (R71). -/
theorem State.tellBound_notRunning (hk : (s.source e).kind = .laneGroup)
    (hg : ∀ g, s.group e = some g → g.stage ≠ .running ∨ g.format = none) : s.tellBound p e = s := by
  simp only [State.tellBound, hk]
  split
  · next hgroup =>
    obtain hs | hf := hg _ hgroup
    · exact absurd rfl hs
    · cases hf
  · rfl

/-- A STREAM entry without a window has none to feed the path (R29). -/
theorem State.tellBound_noWindow (hk : (s.source e).kind = .stream) (hw : (s.source e).window = none) :
    s.tellBound p e = s := by
  simp only [State.tellBound, hk, hw]

/-- A STREAM entry's window starts to feed the path (R29, R71). -/
theorem State.tellBound_window {w : Fin 16} (hk : (s.source e).kind = .stream) (hw : (s.source e).window = some w) :
    s.tellBound p e = s.feedIfNamed w := by
  simp only [State.tellBound, hk, hw]

/-- The tuner hands its format over and tunes (R71, R134). -/
theorem State.tellBound_tuner (hk : (s.source e).kind = .tuner) :
    s.tellBound p e = (s.handFormat p tunerFormat).tuneTo s.tuner.band s.tuner.freq := by
  simp only [State.tellBound, hk]

end told

/-! ## Formats handed over and adopted (R92, R93) -/

section formats
variable {s : State} {p : PathId} {f : Format}

/-- A path without a format, or with an empty FIFO, adopts at once (R93). -/
theorem State.handFormat_atOnce (h : (s.path p).format ≠ some f)
    (ha : (s.path p).fifo = [] ∨ (s.path p).format = none) :
    s.handFormat p f = (s.setPath p { s.path p with formatPending := true, held := some f }).adoptFormat p :=
  (if_neg h).trans (if_pos ha)

/-- Adopting a held format: the record afresh, MAIN's energies at 0 when it is attached, and FORMAT (R93, R114). -/
theorem State.adoptFormat_raises (h : (s.path p).held = some f) :
    s.adoptFormat p
      = (let v := s.setPath p ((s.path p).adopt f)
         let w := if s.zoneMain.attached = some p then v.zeroEnergies else v
         w.raise .format p.code (formatPayload p ((s.path p).adopt f) f)) := by
  have hmain : (s.setPath p ((s.path p).adopt f)).zeroEnergiesFor p
      = if s.zoneMain.attached = some p then (s.setPath p ((s.path p).adopt f)).zeroEnergies
        else s.setPath p ((s.path p).adopt f) := by
    unfold State.zeroEnergiesFor State.attachedTo State.zone
    simp
  have hpath : ((s.setPath p ((s.path p).adopt f)).zeroEnergiesFor p).path p = (s.path p).adopt f := by
    rw [State.zeroEnergiesFor_path, State.path_setPath_same]
  rw [hmain] at hpath
  simp only [State.adoptFormat, h, hmain, hpath]

end formats

/-! ## Detaching (R72, R73, R134) -/

section detaching
variable {s : State} {z : Zone} {p : PathId}

/-- A zone that is attached to no path stays as it is (R72). -/
theorem State.detach_none (h : (s.zone z).attached = none) : s.detach z = s := by
  simp only [State.detach, h]

/-- With the other zone on the path, the path stays, and a tuner of this zone passes on (R72, R73). -/
theorem State.detach_shared (h : (s.zone z).attached = some p) (ho : (s.zone z.other).attached = some p) :
    s.detach z
      = (let v := s.setZone z { s.zone z with attached := none }
         if s.pathKind p = .tuner ∧ s.owner = some z then v.setOwner z.other else v) := by
  have hkind : (s.setZone z { s.zone z with attached := none }).pathKind p = s.pathKind p := by cases z <;> rfl
  simp [State.detach, h, State.attachedTo, ho, hkind]

/-- With no other zone on it, the path is released (R72). -/
theorem State.detach_last (h : (s.zone z).attached = some p) (ho : (s.zone z.other).attached ≠ some p) :
    s.detach z = (s.setZone z { s.zone z with attached := none }).releasePath p := by
  simp [State.detach, h, State.attachedTo, ho]

/-- A path of a lane group, or of no source, is freed (R72). -/
theorem State.releasePath_quiet (h : s.pathKind p = .none ∨ s.pathKind p = .laneGroup) :
    s.releasePath p = ({ s with bindFirst := p.other } : State).setPath p PathRec.free := by
  unfold State.releasePath
  obtain h | h := h
  · simp only [h]
  · simp only [h]

/-- A path that a window feeds is freed, and the window flushed (R40, R72). -/
theorem State.releasePath_fed {w : Fin 16} (h : s.pathKind p = .stream) (hw : s.feeding p = some w) :
    s.releasePath p = (({ s with bindFirst := p.other } : State).setPath p PathRec.free).flushWindow w := by
  simp only [State.releasePath, h, hw]

/-- A STREAM path that no window feeds is freed (R72). -/
theorem State.releasePath_unfed (h : s.pathKind p = .stream) (hw : s.feeding p = none) :
    s.releasePath p = ({ s with bindFirst := p.other } : State).setPath p PathRec.free := by
  simp only [State.releasePath, h, hw]

/-- The tuner's path is freed, and the tuner goes to IDLE without an owner (R72, R134). -/
theorem State.releasePath_tuner (h : s.pathKind p = .tuner) :
    s.releasePath p
      = State.tunerIdle { (({ s with bindFirst := p.other } : State).setPath p PathRec.free) with owner := none } := by
  simp only [State.releasePath, h]

end detaching

/-- The tuner goes to IDLE at the start of an aborted scan, else where it stands (R134, logs 31, 62). -/
theorem State.tunerIdle_eq (s : State) (b : Band) (f : Nat)
    (hscan : ∀ op, s.tuner.op = some op → op.kind = .scan → b = op.startBand ∧ f = op.startFreq)
    (hstay : (s.tuner.op = none ∨ ∃ op, s.tuner.op = some op ∧ op.kind ≠ .scan) → b = s.tuner.band ∧ f = s.tuner.freq) :
    s.tunerIdle = State.radioReport
      { s.abortOp false with tuner := { s.tuner with
          state := .idle, band := b, freq := f, openTx := none, waiting := none, phase := .none, settleCount := 0
          silence := 0, ampHistory := [], pilot := .absent, inRun := 0, missRun := 0, pilotCount := 0, blend := 0
          blendTimer := 0, op := none } } .idle := by
  have hback : s.tuner.toIdle = (({ s.tuner with
      state := .idle, band := b, freq := f, openTx := none, waiting := none, phase := .none, settleCount := 0
      silence := 0, ampHistory := [] } : Tuner).clearPilot.clearBlend) := by
    unfold Tuner.toIdle
    cases hop : s.tuner.op with
    | none =>
      obtain ⟨rfl, rfl⟩ := hstay (.inl hop)
      simp only [hop]
    | some op =>
      by_cases hk : op.kind = .scan
      · obtain ⟨rfl, rfl⟩ := hscan op hop hk
        simp only [hop, hk, if_true]
      · obtain ⟨rfl, rfl⟩ := hstay (.inr ⟨op, hop, hk⟩)
        simp only [hop, hk, if_false]
  unfold State.tunerIdle
  rw [hback]
  rfl

/-! ## The stages of a switch (R81 to R83) -/

/-- The attached path is ready, and no change of its format is pending (R76, R82). -/
def State.Ready (s : State) (z : Zone) : Prop :=
  ∃ p, (s.zone z).attached = some p ∧ (s.path p).formatPending = false
    ∧ ((s.path p).tracker.state = .acquire ∨ (s.path p).tracker.state = .track ∨ (s.path p).tracker.state = .sync)

/-- A tracker is ready in ACQUIRE, TRACK and SYNC (R94). -/
theorem trackerReady_iff (t : TrackerState) : trackerReady t = true ↔ t = .acquire ∨ t = .track ∨ t = .sync := by
  cases t <;> decide

/-- WAIT_READY can end exactly when the zone is ready (R82). -/
theorem State.waitEnds_iff (s : State) (z : Zone) : s.waitEnds z = true ↔ s.Ready z := by
  unfold State.waitEnds State.Ready State.pathReady
  cases (s.zone z).attached with
  | none => simp
  | some p => simp [trackerReady_iff, and_comm]

section switching
variable {s : State} {z : Zone}

/-- A completed switch: IDLE with no target and no tag, ZONE_STATE, and the completion of a tagged one (R83). -/
theorem State.completeSwitch_eq (s : State) (z : Zone) :
    s.completeSwitch z
      = ((s.setZone z { s.zone z with switch := .idle, waitCount := 0, target := none, tag := none }).zoneReport
          z).raiseDone (s.zone z).tag
        [0, 0, BitVec.ofNat 8 z.code, 0, optByte ((s.zone z).target.map fun e => e.val),
          optByte ((s.zone z).attached.map fun p => p.code)] := by
  simp only [State.completeSwitch, State.zone_setZone_same, State.setZone_setZone]
  rfl

/-- FADE_IN begins (R82). -/
theorem State.startFadeIn_sounds (h : (s.zone z).mute = false) :
    s.startFadeIn z = s.setZone z { s.zone z with switch := .fadeIn } := by
  simp [State.startFadeIn, h]

/-- With mute on the switch completes on entry to FADE_IN (R83). -/
theorem State.startFadeIn_muted (h : (s.zone z).mute = true) : s.startFadeIn z = s.completeSwitch z := by
  simp [State.startFadeIn, h, State.completeSwitch_eq]

/-- WAIT_READY is entered when the zone is not ready (R82). -/
theorem State.startWait_waits (h : ¬ s.Ready z) :
    s.startWait z = s.setZone z { s.zone z with switch := .waitReady, waitCount := 0 } := by
  refine if_neg ?_
  rw [State.waitEnds_iff]
  simpa [State.Ready] using h

/-- WAIT_READY ends on entry when the zone is ready (R82). -/
theorem State.startWait_ends (h : s.Ready z) :
    s.startWait z = (s.setZone z { s.zone z with switch := .waitReady, waitCount := 0 }).startFadeIn z := by
  refine if_pos ?_
  rw [State.waitEnds_iff]
  simpa [State.Ready] using h

/-- A FADE_OUT without a target does not end. -/
theorem State.endFadeOut_none (h : (s.zone z).target = none) : s.endFadeOut z = s := by
  simp only [State.endFadeOut, h]

/-- A zone that is on the target's path stays on it (R81). -/
theorem State.endFadeOut_stays {e : Fin 12} {p : PathId} (ht : (s.zone z).target = some e)
    (ha : (s.zone z).attached = some p) (hb : s.boundPath e = some p) : s.endFadeOut z = s.startWait z := by
  simp [State.endFadeOut, ht, ha, hb]

/-- A zone that is not on it moves (R81). -/
theorem State.endFadeOut_moves {e : Fin 12} (ht : (s.zone z).target = some e)
    (ha : ∀ p, (s.zone z).attached = some p → s.boundPath e ≠ some p) :
    s.endFadeOut z = ((s.detach z).attach z e).startWait z := by
  simp only [State.endFadeOut, ht]
  cases hp : (s.zone z).attached with
  | none => rfl
  | some p => simp [ha p hp]

/-- A switch of a silent zone leaves FADE_OUT at once (R81). -/
theorem State.startSwitch_silent {e : Fin 12} {tag : Option Nat} (h : (s.zone z).ramp = -240) :
    s.startSwitch z e tag
      = (s.setZone z { s.zone z with
          selection := some e, target := some e, tag := tag, waitCount := 0, switch := .fadeOut }).endFadeOut z :=
  if_pos h

/-- A switch of a zone that sounds stands in FADE_OUT (R80). -/
theorem State.startSwitch_sounds {e : Fin 12} {tag : Option Nat} (h : (s.zone z).ramp ≠ -240) :
    s.startSwitch z e tag
      = s.setZone z { s.zone z with
          selection := some e, target := some e, tag := tag, waitCount := 0, switch := .fadeOut } :=
  if_neg h

end switching

/-- Settles O31: each operation by the cases of its rule. -/
theorem attachAndSwitch : Obligations.AttachAndSwitch := by
  refine ⟨fun s z e p => ⟨s.boundPath_iff e p, fun h => if_pos h, fun h => if_neg h, ⟨?main, ?zone2⟩, ?attach, rfl⟩,
    fun s p e => s.bindPath_eq p e, fun s p e => ⟨State.tellBound_none, fun g f => State.tellBound_running,
      State.tellBound_notRunning, State.tellBound_noWindow, fun w => State.tellBound_window, State.tellBound_tuner⟩,
    fun s p f => ⟨s.handFormat_same p f, State.handFormat_atOnce,
      fun h hq hn => s.handFormat_waits p f h hn hq⟩, ?adopt,
    fun s z => ⟨State.detach_none, ?shared, fun p => State.detach_last⟩,
    fun s p => ⟨State.releasePath_quiet, fun w => State.releasePath_fed, State.releasePath_unfed,
      State.releasePath_tuner⟩, fun s b f => s.tunerIdle_eq b f,
    fun s z => ⟨State.endFadeOut_none, fun e p => State.endFadeOut_stays, fun e => State.endFadeOut_moves⟩, ?wait,
    fun s z e tag => ⟨State.startSwitch_silent, State.startSwitch_sounds⟩, fun s z => rfl⟩
  case main =>
    rintro rfl
    exact s.joinPath_main p
  case zone2 =>
    rintro rfl
    exact s.joinPath_zone2 p
  case attach => exact ⟨fun h => (s.attach_joined z e).trans (if_pos h),
    fun h => (s.attach_joined z e).trans (if_neg h)⟩
  case adopt =>
    intro s p f h r step v w
    rw [State.adoptFormat_raises h]
    refine congrArg (State.raise _ _ _) ?_
    simp [formatPayload, PathRec.sourceByte, PathRec.adopt, PathRec.enterPrefill, padTo, r]
  case shared =>
    intro p h ho
    rw [State.detach_shared h ho]
    exact ⟨fun ht => if_pos ht, fun ht => if_neg ht⟩
  case wait =>
    intro s z r ready
    refine ⟨State.startWait_waits, fun h hm => ?_, fun h hm => ?_⟩
    · rw [State.startWait_ends h, State.startFadeIn_sounds (by simpa using hm)]
      simp [r]
    · rw [State.startWait_ends h, State.startFadeIn_muted (by simpa using hm), State.completeSwitch_eq]
      simp [r]

end Sys2Proof.Machine
end

