-- ==== Sys2Proof/Proofs/ZoneCommands.lean ====
section
/-! SUPPORT. The commands of a zone: those refused before any other check (R74, R75, R198), SELECT_SOURCE (R80),
ZONE_POWER (R85, R86), MUTE, SET_VOLUME, SET_ZONE and SET_SLEEP (R77 to R79, R87). -/

namespace Sys2Proof.Machine

open Sys2Proof

/-! ## Refusals (R74, R75, R198) -/

/-- A value that names no zone is refused before any other check (R75, R198). -/
theorem withZone_badArg {zone : Byte} (s : State) (f : Zone → CmdOut) (h : Zone.ofCode zone.toNat = none) :
    withZone zone s f = refuse s .badArg := by
  simp only [withZone, h]

/-- A command of a zone runs for the zone it names (R75). -/
theorem withZone_named {zone : Byte} {z : Zone} (s : State) (f : Zone → CmdOut) (h : Zone.ofCode zone.toNat = some z) :
    withZone zone s f = f z := by
  simp only [withZone, h]

/-- A radio command of a zone that does not own the tuner is refused (R74). -/
theorem withOwner_notOwner {zone : Byte} {z : Zone} (s : State) (f : CmdOut) (h : Zone.ofCode zone.toNat = some z)
    (ho : s.owner ≠ some z) : withOwner zone s f = refuse s .notOwner :=
  (withZone_named s _ h).trans (if_neg ho)

/-- Every row that names a zone by a byte looks at that byte first (R75). -/
theorem exec_zoneRow (c : Instr) (op : Nat) (zone : Byte) (args : List Byte) (hop : ringOpcode c = some op)
    (hrow : zoneRow c = some (zone, args)) :
    ∃ f : State → Zone → CmdOut, ∀ s, exec c s = .next (s.runHost op zone args fun u => withZone zone u (f u)) := by
  cases c
  all_goals cases hrow
  all_goals cases hop
  all_goals exact ⟨_, fun _ => rfl⟩

/-- Settles O19: the zone byte comes first, and the owner next. -/
theorem zoneCommandsAreRefused : Obligations.ZoneCommandsAreRefused := by
  refine ⟨fun c s op zone args hop hrow hz hr => ?_, fun s zone z hz ho => ?_⟩
  · obtain ⟨f, hf⟩ := exec_zoneRow c op zone args hop hrow
    rw [hf]
    exact congrArg Host.Outcome.next (s.runHost_answered id hr rfl (withZone_badArg _ _ hz))
  · have hrefused (args : List Byte) (n : Nat) (op : Byte) (f : State → CmdOut) (hr : s.CommandReady n)
        (hop : BitVec.ofNat 8 n = op) :
        Host.Outcome.next (s.runHost n zone args fun u => withOwner zone u (f u))
          = (.next (s.answeredOnly op zone args .notOwner 0) : Host.Outcome State Fault Refusal) :=
      congrArg Host.Outcome.next (s.runHost_answered id hr hop
        (withOwner_notOwner _ _ hz (by rwa [State.handOver_owner])))
    exact ⟨fun b f hr => hrefused _ 0x20 _ _ hr rfl, fun d hr => hrefused _ 0x21 _ _ hr rfl,
      fun d hr => hrefused _ 0x22 _ _ hr rfl, fun b hr => hrefused _ 0x23 _ _ hr rfl,
      fun i hr => hrefused _ 0x2B _ _ hr rfl⟩

/-! ## SELECT_SOURCE (R80) -/

/-- SELECT_SOURCE of an index above 11 (R80). -/
theorem cmdSelectSource_badIndex {zone source : Byte} {z : Zone} (u : State) (hz : Zone.ofCode zone.toNat = some z)
    (h : 11 < source.toNat) : cmdSelectSource zone source u = refuse u .badArg := by
  rw [cmdSelectSource, withZone_named u _ hz]
  simp only [fin12?_none _ h]

/-- SELECT_SOURCE of an entry: BAD_ARG for one of kind NONE, a switch in a zone that is ON, else the selection (R80). -/
theorem cmdSelectSource_entry {zone source : Byte} {z : Zone} {e : Fin 12} (u : State)
    (hz : Zone.ofCode zone.toNat = some z) (he : e.val = source.toNat) :
    cmdSelectSource zone source u
      = if (u.source e).kind = .none then refuse u .badArg
        else if (u.zone z).power = .on then u.selectOn z e
        else done (u.setZone z { u.zone z with selection := some e }) 0 := by
  rw [cmdSelectSource, withZone_named u _ hz]
  simp only [fin12?_some _ e he]

section selecting
variable {u : State} {z : Zone} {e : Fin 12}

/-- The selection that stands is selected again (R80). -/
theorem State.selectOn_same (hi : (u.zone z).switch = .idle) (h : (u.zone z).selection = some e) :
    u.selectOn z e = done u 0 := by
  simp [State.selectOn, hi, h]

/-- Another selection begins a switch (R80). -/
theorem State.selectOn_begins (hi : (u.zone z).switch = .idle) (h : (u.zone z).selection ≠ some e) :
    u.selectOn z e = accepted (u.startSwitch z e u.slotTag) := by
  simp [State.selectOn, hi, h]

/-- The target of the switch in progress is selected again: the switch takes the new tag (R80). -/
theorem State.selectOn_retags (hi : (u.zone z).switch ≠ .idle) (h : (u.zone z).target = some e) :
    u.selectOn z e = accepted ((u.switchDone z .aborted).setZone z { u.zone z with tag := u.slotTag }) := by
  simp [State.selectOn, hi, h]

/-- In FADE_OUT another target replaces the one that stands (R80). -/
theorem State.selectOn_retargets (hi : (u.zone z).switch = .fadeOut) (h : (u.zone z).target ≠ some e) :
    u.selectOn z e = accepted ((u.switchDone z .aborted).setZone z
      { u.zone z with selection := some e, target := some e, tag := u.slotTag }) := by
  simp [State.selectOn, hi, h]

/-- Behind FADE_OUT another target begins another switch (R80). -/
theorem State.selectOn_restarts (hi : (u.zone z).switch = .waitReady ∨ (u.zone z).switch = .fadeIn)
    (h : (u.zone z).target ≠ some e) :
    u.selectOn z e = accepted ((u.switchDone z .aborted).startSwitch z e u.slotTag) := by
  obtain hi | hi := hi
  · simp [State.selectOn, hi, h]
  · simp [State.selectOn, hi, h]

end selecting

/-- Settles O30: the rows of R80's table by power, switch and target. -/
theorem selectSource : Obligations.SelectSource := by
  intro s zone source z hready hz r tag gives
  have hgives {res : CmdResult} (f : State → State)
      (hc : cmdSelectSource zone source (s.handOver 0x18 zone [source])
        = { st := f (s.handOver 0x18 zone [source]), res := res, val := 0 }) : gives res f :=
    congrArg Host.Outcome.next (s.runHost_answered f hready rfl hc)
  refine ⟨fun hb => hgives id (cmdSelectSource_badIndex _ hz hb), fun e he => ?_⟩
  have hentry := cmdSelectSource_entry (s.handOver 0x18 zone [source]) hz he
  have hr : (s.handOver 0x18 zone [source]).zone z = r := s.handOver_zoneAt ..
  rw [State.handOver_sourceAt, hr] at hentry
  refine ⟨fun hk => hgives id (hentry.trans (if_pos hk)), fun hk => ?_⟩
  rw [if_neg hk] at hentry
  have hon {res : CmdResult} (f : State → State) (hp : r.power = .on)
      (hc : (s.handOver 0x18 zone [source]).selectOn z e
        = { st := f (s.handOver 0x18 zone [source]), res := res, val := 0 }) : gives res f :=
    hgives f ((hentry.trans (if_pos hp)).trans hc)
  have hdone : ((s.handOver 0x18 zone [source]).switchDone z .aborted).zone z = r := by
    rw [State.switchDone_zone, hr]
  refine ⟨fun hp => hgives _ (hentry.trans (if_neg hp)), fun hp hi hs => hon id hp ?same,
    fun hp hi hs hl => hon _ hp ?sounds, fun hp hi hs hl => hon _ hp ?silent, fun hp hi ht => hon _ hp ?retags,
    fun hp hi ht => hon _ hp ?retargets, fun hp hi ht hl => hon _ hp ?restarts,
    fun hp hi ht hl => hon _ hp ?restartsSilent⟩
  all_goals rw [← hr] at hi
  case same => exact State.selectOn_same hi (hr ▸ hs)
  case sounds =>
    rw [State.selectOn_begins hi (hr ▸ hs), State.startSwitch_sounds (hr ▸ hl), hr]
    rfl
  case silent =>
    rw [State.selectOn_begins hi (hr ▸ hs), State.startSwitch_silent (hr ▸ hl), hr]
    rfl
  case retags =>
    rw [State.selectOn_retags hi (hr ▸ ht), hr]
    rfl
  case retargets =>
    rw [State.selectOn_retargets hi (hr ▸ ht), hr]
    rfl
  case restarts =>
    rw [State.selectOn_restarts hi (hr ▸ ht), State.startSwitch_sounds (hdone ▸ hl), hdone]
    rfl
  case restartsSilent =>
    rw [State.selectOn_restarts hi (hr ▸ ht), State.startSwitch_silent (hdone ▸ hl), hdone]
    rfl

/-! ## ZONE_POWER (R85, R86) -/

section power
variable {u : State} {z : Zone} {e : Fin 12}

/-- A zone that is ON stays ON (R85). -/
theorem State.powerZone_on (h : (u.zone z).power = .on) : u.powerZone z = u := if_pos h

/-- A zone without a selection is powered on and switches to nothing (R85). -/
theorem State.powerZone_quiet (h : (u.zone z).power ≠ .on) (hs : (u.zone z).selection = none) :
    u.powerZone z = (u.setZone z { u.zone z with power := .on }).zoneReport z := by
  simp [State.powerZone, h, hs]

/-- A zone on its way to STANDBY that is still on its selection's path stays there (R85). -/
theorem State.powerZone_stays (h : (u.zone z).power = .goingStandby) (hs : (u.zone z).selection = some e)
    (ha : (u.zone z).attached.isSome = true) (hb : u.boundPath e = (u.zone z).attached) :
    u.powerZone z = (u.setZone z { u.zone z with power := .on }).zoneReport z := by
  simp [State.powerZone, h, hs, ha, hb]

/-- Any other zone with a selection switches to it, without a tag (R85). -/
theorem State.powerZone_switches (h : (u.zone z).power ≠ .on) (hs : (u.zone z).selection = some e)
    (hn : ¬ ((u.zone z).power = .goingStandby ∧ (u.zone z).attached.isSome = true
      ∧ u.boundPath e = (u.zone z).attached)) :
    u.powerZone z = ((u.setZone z { u.zone z with power := .on }).zoneReport z).startSwitch z e none := by
  simp only [State.powerZone, if_neg h, hs, if_neg hn]

/-- Going to STANDBY: a switch is aborted with its completion, then one ZONE_STATE (R84, R86, logs 34, 49). -/
theorem State.goStandby_eq (u : State) (z : Zone) :
    u.goStandby z
      = ((if (u.zone z).switch = .idle then u else u.switchDone z .aborted).setZone z
          { u.zone z with switch := .idle, target := none, tag := none, waitCount := 0, sleep := 0, minute := 0
                          power := .goingStandby }).zoneReport z := by
  have hz : (if (u.zone z).switch = .idle then u else u.switchDone z .aborted).zone z = u.zone z := by
    split_ifs
    · rfl
    · exact u.switchDone_zone ..
  simp only [State.goStandby, State.abortSwitch, hz, State.zone_setZone_same, State.setZone_setZone]

/-- A zone that goes to STANDBY keeps its ramp. -/
theorem State.goStandby_zone (u : State) (z : Zone) :
    (u.goStandby z).zone z
      = { u.zone z with switch := .idle, target := none, tag := none, waitCount := 0, sleep := 0, minute := 0
                        power := .goingStandby } := by
  rw [State.goStandby_eq, State.zoneReport_zone, State.zone_setZone_same]

/-- GOING_STANDBY ends at once when r_z is -240 (R86). -/
theorem State.standbyIfSilent_ends (h : (u.zone z).power = .goingStandby ∧ (u.zone z).ramp = -240) :
    u.standbyIfSilent z = u.enterStandby z := if_pos h

/-- A zone that sounds, or is not on its way to STANDBY, stays (R86). -/
theorem State.standbyIfSilent_stays (h : ¬ ((u.zone z).power = .goingStandby ∧ (u.zone z).ramp = -240)) :
    u.standbyIfSilent z = u := if_neg h

end power

/-- Settles O32: ON by power state and selection, STANDBY by power state and ramp. -/
theorem zonePower : Obligations.ZonePower := by
  intro s zone z hready hz r on off
  have hon (f : State → State) (hf : (s.handOver 0x19 zone [1]).powerZone z = f (s.handOver 0x19 zone [1])) : on f :=
    congrArg Host.Outcome.next (s.runHost_answered f hready rfl
      ((withZone_named _ _ hz).trans (congrArg (done · 0) hf)))
  have hoff (f : State → State) (hf : (if ((s.handOver 0x19 zone [0]).zone z).power = .on
      then ((s.handOver 0x19 zone [0]).goStandby z).standbyIfSilent z else s.handOver 0x19 zone [0])
        = f (s.handOver 0x19 zone [0])) : off f :=
    congrArg Host.Outcome.next (s.runHost_answered f hready rfl
      ((withZone_named _ _ hz).trans (congrArg (done · 0) hf)))
  have hr (x : Byte) : (s.handOver 0x19 zone [x]).zone z = r := s.handOver_zoneAt ..
  have hswitches {e : Fin 12} (hp : r.power ≠ .on) (hs : r.selection = some e)
      (hn : ¬ (r.power = .goingStandby ∧ r.attached.isSome = true ∧ s.boundPath e = r.attached)) :
      on fun u => ((u.setZone z { r with power := .on }).zoneReport z).startSwitch z e none := by
    refine hon _ ?_
    rw [State.powerZone_switches (e := e), hr]
    · rwa [hr]
    · rwa [hr]
    · rwa [hr, State.handOver_boundPath]
  refine ⟨fun hp => hon id (State.powerZone_on (by rwa [hr])), fun hp hs => hon _ ?quiet,
    fun e hp hs => hswitches (by simp [hp]) hs (by simp [hp]), fun e p hp hs ha hb => hon _ ?stays,
    fun e hp hs ha => hswitches (by simp [hp]) hs ?moves, fun hp => hoff id (if_neg (by rwa [hr])),
    fun hp hl => hoff _ ?sounds, fun hp hl => hoff _ ?silent⟩
  case quiet =>
    rw [State.powerZone_quiet, hr]
    · rwa [hr]
    · rwa [hr]
  case stays =>
    rw [State.powerZone_stays (e := e), hr]
    · rwa [hr]
    · rwa [hr]
    · rw [hr, ha]
      rfl
    · rw [hr, ha, State.handOver_boundPath, hb]
  case moves =>
    rintro ⟨-, hsome, hb⟩
    obtain ha | ha := ha
    · simp [ha] at hsome
    · exact ha hb
  case sounds =>
    rw [hr, if_pos hp, State.standbyIfSilent_stays, State.goStandby_eq, hr]
    rw [State.goStandby_zone, hr]
    exact fun h => hl h.2
  case silent =>
    rw [hr, if_pos hp, State.standbyIfSilent_ends, State.goStandby_eq, hr]
    rw [State.goStandby_zone, hr]
    exact ⟨rfl, hl⟩

/-! ## The settings of a zone (R77 to R79, R87) -/

/-- One clamped argument gives the result (R16). -/
theorem clampResult_single (given applied : Int) :
    clampResult [(given, applied)]
      = (if applied = given then CmdResult.ok else .clamped, if applied = given then 0 else applied) := by
  by_cases h : applied = given
  · simp [clampResult, firstClamped, h]
  · simp [clampResult, firstClamped, h, Ne.symm h]

/-- A count clamped from below by 0 (R16). -/
theorem clampNat_zero (hi x : Nat) : clampNat 0 hi x = min hi x := by
  rw [clampNat_eq 0 hi x (Nat.zero_le _), Nat.zero_max]

/-- Handing a command over moves nothing that the delay pool counts (R169). -/
theorem State.handOver_setZone_poolFits (s : State) (op target : Byte) (args : List Byte) (z : Zone) (r : ZoneRec) :
    ((s.handOver op target args).setZone z r).poolFits = (s.setZone z r).poolFits := by
  cases z <;> rfl

/-- Settles O33: each command clamps its arguments and sets its own fields. -/
theorem zoneSettings : Obligations.ZoneSettings := by
  refine ⟨fun s zone on z hready hz => ?mute, fun s zone level z hready hz => ?volume,
    fun s zone rate ceil av z hready hz => ?zone, fun s zone m z hready hz => ?sleep⟩
  case mute =>
    refine congrArg Host.Outcome.next (s.runHost_answered
      (fun u => if (s.zone z).mute = decide (on ≠ 0) then u
        else (u.setZone z { s.zone z with mute := decide (on ≠ 0) }).zoneReport z) hready rfl ?_)
    rw [cmdMute, withZone_named _ _ hz, State.handOver_zoneAt]
    by_cases hm : (s.zone z).mute = onOff on
    · exact (if_pos hm).trans (congrArg (done · 0) (if_pos hm).symm)
    · exact (if_neg hm).trans (congrArg (done · 0) (if_neg hm).symm)
  case volume =>
    intro v
    have hv : clampInt (-192) 24 level.toInt = v := clampInt_eq _ _ _ (by decide)
    refine congrArg Host.Outcome.next (s.runHost_answered
      (fun u => u.setZone z { s.zone z with masterTarget := v }) hready rfl ?_)
    rw [cmdSetVolume, withZone_named _ _ hz, State.handOver_zoneAt, clampedOr_eq, hv, clampResult_single]
  case zone =>
    intro n rr d c args set res
    have hav : clampNat 0 9600 av.toNat = d := clampNat_zero ..
    have hceil : clampNat 0 24 ceil.toNat = c := clampNat_zero ..
    have hcmd : cmdSetZone zone rate av ceil (s.handOver 0x1C zone args)
        = if (set s).poolFits = false then refuse (s.handOver 0x1C zone args) .noRoom
          else clampedOr (if (s.zone z).avDelay = d then set (s.handOver 0x1C zone args)
              else (set (s.handOver 0x1C zone args)).spreadAv z)
            [((n : Nat), (rr : Nat)), ((av.toNat : Nat), (d : Nat)), ((ceil.toNat : Nat), (c : Nat))] := by
      rw [cmdSetZone, withZone_named _ _ hz, State.handOver_zoneAt, hav, hceil]
      simp only [State.handOver_setZone_poolFits]
      rfl
    refine ⟨fun hp => ?_, fun hp => ?_⟩
    · exact congrArg Host.Outcome.next (s.runHost_answered id hready rfl (hcmd.trans (if_pos hp)))
    · refine congrArg Host.Outcome.next (s.runHost_answered
        (fun u => if (s.zone z).avDelay = d then set u else (set u).spreadAv z) hready rfl ?_)
      rw [hcmd, if_neg (by simp [hp]), clampedOr_eq]
  case sleep =>
    have hcmd : cmdSetSleep zone m (s.handOver 0x1D zone [m])
        = if (s.zone z).power ≠ .on then refuse (s.handOver 0x1D zone [m]) .busy
          else clampedOr ((s.handOver 0x1D zone [m]).setZone z
              { s.zone z with sleep := min 120 m.toNat, minute := if min 120 m.toNat = 0 then 0 else 60000 })
            [((m.toNat : Int), ((min 120 m.toNat : Nat) : Int))] := by
      rw [cmdSetSleep, withZone_named _ _ hz, State.handOver_zoneAt, clampNat_zero]
    refine ⟨fun hp => ?_, fun hp => ?_⟩
    · exact congrArg Host.Outcome.next (s.runHost_answered id hready rfl (hcmd.trans (if_pos hp)))
    · have hzero : min 120 m.toNat = 0 ↔ m = 0 := by
        rw [← BitVec.toNat_inj]
        simp
      have hfits : ((min 120 m.toNat : Nat) : Int) = m.toNat ↔ m.toNat ≤ 120 := by omega
      refine congrArg Host.Outcome.next (s.runHost_answered (fun u => u.setZone z
        { s.zone z with sleep := min 120 m.toNat, minute := if m = 0 then 0 else 60000 }) hready rfl ?_)
      rw [hcmd, if_neg (not_not.mpr hp), clampedOr_eq, clampResult_single]
      simp only [hzero, hfits]
      by_cases hle : m.toNat ≤ 120
      · simp only [if_pos hle]
      · simp only [if_neg hle]
        rw [min_eq_left (by omega)]
        rfl

end Sys2Proof.Machine
end

