-- ==== Sys2Proof/Proofs/ZoneBlock.lean ====
section
/-! SUPPORT. A zone's part of an output block, by its cases: the ramp (R76, R77), the stage of the switch (R81 to R83),
the end of GOING_STANDBY (R86) and the sleep countdown (R87). -/

namespace Sys2Proof.Machine

open Sys2Proof

/-! ## Levels that move (R76, R77) -/

/-- A move toward a target stops at it. -/
theorem moveToward_eq (target step x : Int) :
    moveToward target step x = if x < target then min target (x + step) else max target (x - step) := by
  unfold moveToward
  split_ifs <;> omega

section block
variable {s : State} {z : Zone}

/-- The ramp of a zone moves up: it is ON and not muted, its path is ready, and its switch is past WAIT_READY (R76). -/
def State.Sounds (s : State) (z : Zone) : Prop :=
  (s.zone z).switch ≠ .fadeOut ∧ (s.zone z).switch ≠ .waitReady ∧ (s.zone z).power = .on ∧ (s.zone z).mute = false
    ∧ s.Ready z

/-- The ramp is held down by the switch, power, mute, or a path that is not ready (R76). -/
theorem State.rampHeld_eq (s : State) (z : Zone) :
    s.rampHeld z = (decide ((s.zone z).switch = .fadeOut) || decide ((s.zone z).switch = .waitReady)
      || decide ((s.zone z).power ≠ .on) || (s.zone z).mute || !s.waitEnds z) := by
  cases ha : (s.zone z).attached with
  | none => simp [State.rampHeld, State.waitEnds, ha]
  | some p => simp [State.rampHeld, State.waitEnds, ha]

/-- The ramp is held down exactly in a zone that does not sound (R76). -/
theorem State.rampHeld_iff (s : State) (z : Zone) : s.rampHeld z = true ↔ ¬ s.Sounds z := by
  have hready : (!s.waitEnds z) = true ↔ ¬ s.Ready z := by
    rw [← State.waitEnds_iff]
    simp
  rw [State.rampHeld_eq]
  simp only [Bool.or_eq_true, decide_eq_true_eq, hready, State.Sounds]
  rw [← Bool.not_eq_true]
  tauto

/-- The ramp of a zone that sounds moves toward 0 (R76). -/
theorem State.rampTarget_up (h : s.Sounds z) : s.rampTarget z = 0 :=
  if_neg fun held => (s.rampHeld_iff z).mp held h

/-- The ramp of any other zone moves toward silence (R76). -/
theorem State.rampTarget_down (h : ¬ s.Sounds z) : s.rampTarget z = -240 := if_pos ((s.rampHeld_iff z).mpr h)

/-- A zone's part of a block: its levels move, then its switch, its standby and its sleep are looked at. -/
theorem State.zoneBlock_eq (s : State) (z : Zone) :
    s.zoneBlock z = (((s.setZone z { s.zone z with
      masterCurrent := moveToward (s.zone z).masterTarget 2 (s.zone z).masterCurrent
      ramp := moveToward (s.rampTarget z) (s.zone z).rampRate (s.zone z).ramp }).switchBlock z).standbyIfSilent
        z).sleepBlock z := rfl

/-! ## The stage of the switch at a block (R81 to R83) -/

theorem State.switchBlock_idle (h : (s.zone z).switch = .idle) : s.switchBlock z = s := by
  simp only [State.switchBlock, h]

/-- FADE_OUT ends at silence (R81). -/
theorem State.switchBlock_fadeOut_ends (h : (s.zone z).switch = .fadeOut) (hr : (s.zone z).ramp = -240) :
    s.switchBlock z = s.endFadeOut z := by
  simp only [State.switchBlock, h, if_pos hr]

theorem State.switchBlock_fadeOut_goes (h : (s.zone z).switch = .fadeOut) (hr : (s.zone z).ramp ≠ -240) :
    s.switchBlock z = s := by
  simp only [State.switchBlock, h, if_neg hr]

/-- WAIT_READY ends when the path is ready (R82). -/
theorem State.switchBlock_waitReady_ends (h : (s.zone z).switch = .waitReady) (hr : s.Ready z) :
    s.switchBlock z = s.startFadeIn z := by
  simp only [State.switchBlock, h, if_pos ((s.waitEnds_iff z).mpr hr)]

/-- A block of WAIT_READY is counted (R82). -/
theorem State.switchBlock_waitReady_counts (h : (s.zone z).switch = .waitReady) (hr : ¬ s.Ready z)
    (hn : (s.zone z).waitCount < 1999 ∨ (s.zone z).waitCount = 2000) :
    s.switchBlock z = s.setZone z { s.zone z with waitCount := min 2000 ((s.zone z).waitCount + 1) } := by
  simp only [State.switchBlock, h, if_neg (mt (s.waitEnds_iff z).mp hr)]
  exact if_neg (by omega)

/-- The 2000th block of WAIT_READY reports the source absent (R82). -/
theorem State.switchBlock_waitReady_absent (h : (s.zone z).switch = .waitReady) (hr : ¬ s.Ready z)
    (hn : (s.zone z).waitCount = 1999) :
    s.switchBlock z = (s.setZone z { s.zone z with waitCount := 2000 }).raise .sourceAbsent z.code
      [BitVec.ofNat 8 z.code, optByte ((s.zone z).target.map (·.val)),
        BitVec.ofNat 8 (match (s.zone z).target with
          | some e => (s.source e).kind.code
          | none => 0)] := by
  simp only [State.switchBlock, h, if_neg (mt (s.waitEnds_iff z).mp hr), hn]
  rfl

/-- FADE_IN ends at full level or with mute on (R83). -/
theorem State.switchBlock_fadeIn_ends (h : (s.zone z).switch = .fadeIn)
    (hr : (s.zone z).ramp = 0 ∨ (s.zone z).mute = true) : s.switchBlock z = s.completeSwitch z := by
  simp only [State.switchBlock, h, if_pos hr]

theorem State.switchBlock_fadeIn_goes (h : (s.zone z).switch = .fadeIn) (hr : (s.zone z).ramp ≠ 0)
    (hm : (s.zone z).mute = false) : s.switchBlock z = s := by
  simp [State.switchBlock, h, hr, hm]

/-! ## The sleep countdown at a block (R87) -/

/-- A zone without a countdown, or not ON, sleeps on. -/
theorem State.sleepBlock_none (h : (s.zone z).power ≠ .on ∨ (s.zone z).sleep = 0) : s.sleepBlock z = s := if_pos h

section countdown
variable (hon : (s.zone z).power = .on)
include hon

/-- Within a minute the minute counter falls (R87). -/
theorem State.sleepBlock_minute (hs : (s.zone z).sleep ≠ 0) (hm : 1 < (s.zone z).minute) :
    s.sleepBlock z = s.setZone z { s.zone z with minute := (s.zone z).minute - 1 } :=
  (if_neg (by simp [hon, hs])).trans (if_pos hm)

/-- At the end of a minute the countdown falls (R87). -/
theorem State.sleepBlock_falls (hs : 1 < (s.zone z).sleep) (hm : (s.zone z).minute ≤ 1) :
    s.sleepBlock z = s.setZone z { s.zone z with minute := 60000, sleep := (s.zone z).sleep - 1 } :=
  (if_neg (by simp [hon]; omega)).trans ((if_neg (by omega)).trans (if_pos hs))

/-- At the end of the last minute the zone goes to STANDBY, and SLEEP_EXPIRED is raised (R87). -/
theorem State.sleepBlock_expires (hs : (s.zone z).sleep = 1) (hm : (s.zone z).minute ≤ 1) :
    s.sleepBlock z
      = ((s.goStandby z).raise .sleepExpired z.code [BitVec.ofNat 8 z.code]).standbyIfSilent z :=
  (if_neg (by simp [hon, hs])).trans ((if_neg (by omega)).trans (if_neg (by omega)))

end countdown

end block

end Sys2Proof.Machine
end

