-- ==== Sys2Proof/Proofs/OutputBlock.lean ====
section
/-! SUPPORT. The parts of an output block after the zones', by their cases: the thermal record (R193, R194), a
channel's ramp (R176), the pairs (R184 to R190), the end of a soft start (R188) and the meter period (R181); and the
statement about the zones' and these parts. -/

namespace Sys2Proof.Machine

open Sys2Proof

/-! ## The thermal record (R193, R194) -/

/-- t moves each eighth block while it differs from its target (R193). -/
theorem Thermal.moveT_eq (r : Thermal) :
    r.moveT = { r with
      t := if r.t ≠ r.tTarget ∧ r.tTimer = 7 then moveToward r.tTarget 1 r.t else r.t
      tTimer := if r.t = r.tTarget ∨ r.tTimer = 7 then 0 else r.tTimer + 1 } := by
  unfold Thermal.moveT
  by_cases ht : r.t = r.tTarget
  · simp [ht]
  · by_cases h7 : r.tTimer = 7
    · simp [ht, h7]
    · simp [ht, h7]

/-- One of the runs grows, and the other is 0 (R193). -/
theorem Thermal.countRuns_eq (r : Thermal) (line : Bool) :
    r.countRuns line = { r with
      assertedRun := if line = true then min 30000 (r.assertedRun + 1) else 0
      deassertedRun := if line = true then 0 else min 6000 (r.deassertedRun + 1)
      lastLine := line } := by
  cases line <;> rfl

/-- A change of the t target sets the timer to 0 (R193). -/
theorem Thermal.aim_eq (r : Thermal) (target : Int) :
    r.aim target = { r with tTarget := target, tTimer := if target ≠ r.tTarget then 0 else r.tTimer } := by
  unfold Thermal.aim
  by_cases h : r.tTarget = target
  · subst h
    simp
  · simp [h, Ne.symm h]

/-- The t target of a record whose runs are counted (R193). -/
def Thermal.aimed (r : Thermal) : Int :=
  if r.assertedRun = 100 ∧ r.warning = false then -12
  else if r.deassertedRun = 6000 ∧ r.warning = true then 0
  else r.tTarget

/-- The warning, and the t target with it (R193). -/
theorem Thermal.warn_eq (r : Thermal) :
    r.warn = { r with
      warning := if r.assertedRun = 100 ∧ r.warning = false then true
        else if r.deassertedRun = 6000 ∧ r.warning = true then false else r.warning
      tTarget := r.aimed
      tTimer := if r.aimed ≠ r.tTarget then 0 else r.tTimer } := by
  unfold Thermal.warn Thermal.aimed
  by_cases hwarns : r.assertedRun = 100 ∧ r.warning = false
  · simp only [if_pos hwarns, Thermal.aim_eq]
  · by_cases hclears : r.deassertedRun = 6000 ∧ r.warning = true
    · simp only [if_neg hwarns, if_pos hclears, Thermal.aim_eq]
    · simp [if_neg hwarns, if_neg hclears]

/-- Escalation (R194). -/
theorem Thermal.escalate_eq (r : Thermal) :
    r.escalate = { r with
      escalation := if r.assertedRun = 30000 ∧ r.escalation = false then true
        else if r.deassertedRun = 6000 then false else r.escalation } := by
  unfold Thermal.escalate
  by_cases hrises : r.assertedRun = 30000 ∧ r.escalation = false
  · simp only [if_pos hrises]
  · by_cases hfalls : r.deassertedRun = 6000
    · cases he : r.escalation with
      | false =>
        rw [he] at hrises
        rw [if_neg hrises, if_neg (fun h => Bool.false_ne_true h.2), if_neg hrises, if_pos hfalls, ← he]
      | true => simp [hfalls]
    · simp [hrises, hfalls]

/-! ## A channel's ramp (R176) -/

section ramp
variable {r : Channel} {hold : Bool}

/-- A held channel falls (R176). -/
theorem Channel.rampStep_held (h : r.reconfig = true ∨ r.protect = true) :
    r.rampStep hold = { r with ramp := moveToward (-240) 8 r.ramp } :=
  if_pos (by simpa [Channel.held] using h)

section free
variable (h : ¬ (r.reconfig = true ∨ r.protect = true))
include h

theorem Channel.held_false : ¬ r.held = true := by simpa [Channel.held] using h

/-- A channel that nothing holds rises (R176). -/
theorem Channel.rampStep_rises (hs : r.softStart = false) :
    r.rampStep hold = { r with ramp := moveToward 0 8 r.ramp } :=
  (if_neg (Channel.held_false h)).trans (if_neg (by simp [hs]))

section soft
variable (hs : r.softStart = true)
include hs

/-- A soft start rests at full level and under the thermal line (R176). -/
theorem Channel.rampStep_rests (hr : r.ramp = 0 ∨ hold = true) : r.rampStep hold = r :=
  (if_neg (Channel.held_false h)).trans ((if_pos hs).trans (if_pos hr))

/-- A soft start counts blocks (R176). -/
theorem Channel.rampStep_counts (hr : ¬ (r.ramp = 0 ∨ hold = true)) (hc : r.softCount ≠ 3) :
    r.rampStep hold = { r with softCount := r.softCount + 1 } :=
  (if_neg (Channel.held_false h)).trans ((if_pos hs).trans ((if_neg hr).trans (if_neg (by omega))))

/-- A soft start rises by a step each fourth block (R176). -/
theorem Channel.rampStep_steps (hr : ¬ (r.ramp = 0 ∨ hold = true)) (hc : r.softCount = 3) :
    r.rampStep hold = { r with softCount := 0, ramp := moveToward 0 1 r.ramp } :=
  (if_neg (Channel.held_false h)).trans ((if_pos hs).trans ((if_neg hr).trans (if_pos (by omega))))

end soft
end free
end ramp

/-! ## The channels of a pair (R161, R177) -/

/-- The channels of pair n are 2n and 2n + 1 (R161). -/
theorem mem_pairChannels {n : Fin 6} {c : Fin 12} : c ∈ pairChannels n ↔ c.val / 2 = n.val := by
  simp only [pairChannels, List.mem_cons, List.not_mem_nil, or_false, Fin.ext_iff]
  omega

/-- Changing a pair's channels changes channels only. -/
theorem State.mapPair_channelsOnly (s : State) (n : Fin 6) (f : Channel → Channel) :
    s.mapPair n f = s.withChannels (s.mapPair n f).out.channels := rfl

/-- Changing a pair's channels changes each of the two once. -/
theorem State.mapPair_chan (s : State) (n : Fin 6) (f : Channel → Channel) (c : Fin 12) :
    (s.mapPair n f).chan c = if c.val / 2 = n.val then f (s.chan c) else s.chan c := by
  have hne : (⟨2 * n.val, by omega⟩ : Fin 12) ≠ ⟨2 * n.val + 1, by omega⟩ := by simp [Fin.ext_iff]
  simp only [State.mapPair, pairChannels, forEach, State.chan_setChan, if_neg hne]
  by_cases hodd : (⟨2 * n.val + 1, by omega⟩ : Fin 12) = c
  · subst hodd
    rw [if_pos rfl, if_pos (by simp only []; omega)]
  · by_cases heven : (⟨2 * n.val, by omega⟩ : Fin 12) = c
    · subst heven
      rw [if_neg hodd, if_pos rfl, if_pos (by simp only []; omega)]
    · rw [Fin.ext_iff] at hodd heven
      simp only at hodd heven
      rw [if_neg (by simpa [Fin.ext_iff] using hodd), if_neg (by simpa [Fin.ext_iff] using heven), if_neg (by omega)]

/-- A pair's soft start is done when it is in both channels (R177). -/
theorem State.softStartDone_iff (s : State) (n : Fin 6) :
    s.softStartDone n = true ↔ ∀ c, c.val / 2 = n.val → (s.chan c).softStart = true ∧ (s.chan c).ramp = 0 := by
  simp only [State.softStartDone, List.all_eq_true, mem_pairChannels, Bool.and_eq_true, decide_eq_true_eq]

/-! ## A pair at a block (R184 to R190) -/

/-- A sampled line moves its own pin only (11.8). -/
theorem setLine_getLsbD (faults : BitVec 6) (n k : Fin 6) (line : Bool) :
    (setLine faults n line).getLsbD k.val = if k = n then line else faults.getLsbD k.val := by
  have hmask : (1#6 <<< n.val).getLsbD k.val = decide (k = n) := by
    revert n k
    decide
  cases line with
  | false =>
    simp only [setLine, Bool.false_eq_true, if_false, BitVec.getLsbD_and, BitVec.getLsbD_not, hmask, k.isLt]
    by_cases h : k = n <;> simp [h]
  | true =>
    simp only [setLine, if_true, BitVec.getLsbD_or, hmask]
    by_cases h : k = n <;> simp [h]

/-- A fault condition: the pair's line or escalation (R184). -/
theorem State.faultCondition_iff (s : State) (line : Bool) :
    s.faultCondition line = true ↔ line = true ∨ s.thermal.escalation = true := by
  simp [State.faultCondition]

/-- The counters of a pair at a block that counts them (R184, R189). -/
theorem Pair.count_eq (r : Pair) (cond : Bool) :
    r.count cond = if r.state = .normal then { r with
        asserted := if cond = true then min 64 (r.asserted + 1) else 0
        normalRun := min 60000 (r.normalRun + 1)
        used := if 59999 ≤ r.normalRun ∧ r.normalRun ≠ 60000 then 0 else r.used }
      else { r with asserted := if cond = true then min 64 (r.asserted + 1) else 0 } := by
  have hrun : min 60000 (r.normalRun + 1) = 60000 ↔ 59999 ≤ r.normalRun := by omega
  by_cases h : r.state = .normal
  · simp only [Pair.count, h, ne_eq, not_true, if_false, if_true, hrun]
  · simp only [Pair.count, h, ne_eq, not_false_eq_true, if_true, if_false]

/-- Counting keeps the settings of a pair, and its run is asserted as counted. -/
theorem Pair.count_asserted (r : Pair) (cond : Bool) :
    (r.count cond).detect = r.detect
      ∧ (r.count cond).asserted = if cond = true then min 64 (r.asserted + 1) else 0 := by
  rw [Pair.count_eq]
  split_ifs <;> exact ⟨rfl, rfl⟩

section pair
variable {s : State} {n : Fin 6} {line : Bool}

/-- A pair that plays counts, and then its entry to PROTECT is tested (R184, R185). -/
theorem State.pairBlock_runs (hs : (s.pair n).state = .normal ∨ (s.pair n).state = .softStart) :
    s.pairBlock n line
      = (let cond := s.faultCondition line
         let y := Pair.count { s.pair n with lastLine := line } cond
         if (cond && decide (y.detect ≤ y.asserted)) = true then (s.setPair n y).enterProtect n line
         else s.setPair n y) := by
  obtain h | h := hs
  · simp only [State.pairBlock, h]
  · simp only [State.pairBlock, h]

theorem State.pairBlock_protect_stays (hs : (s.pair n).state = .protect) (hc : s.faultCondition line = true) :
    s.pairBlock n line = s.setPair n { s.pair n with lastLine := line } := by
  simp only [State.pairBlock, hs, hc, if_true]

/-- PROTECT ends with the fault condition (R186). -/
theorem State.pairBlock_protect_ends (hs : (s.pair n).state = .protect) (hc : ¬ s.faultCondition line = true) :
    s.pairBlock n line
      = s.setPair n { s.pair n with lastLine := line, state := .recoverWait, clear := 500, asserted := 0 } := by
  simp only [State.pairBlock, hs, if_neg hc]

/-- A fault condition in RECOVER_WAIT leads back to PROTECT (R187). -/
theorem State.pairBlock_recover_faults (hs : (s.pair n).state = .recoverWait) (hc : s.faultCondition line = true) :
    s.pairBlock n line
      = s.setPair n { s.pair n with
          lastLine := line, state := .protect, clear := 0
          cause := some (if line = true then .line else .thermal) } := by
  simp only [State.pairBlock, hs, hc, if_true]
  rfl

section recovers
variable (hs : (s.pair n).state = .recoverWait) (hc : ¬ s.faultCondition line = true)
include hs hc

/-- The clear counter falls (R187). -/
theorem State.pairBlock_recover_counts (hn : 1 < (s.pair n).clear) :
    s.pairBlock n line = s.setPair n { s.pair n with lastLine := line, clear := (s.pair n).clear - 1 } := by
  simp only [State.pairBlock, hs, if_neg hc]
  exact if_neg (by omega)

/-- The clear counter runs out with a retry left (R187, R188). -/
theorem State.pairBlock_recover_retries (hn : (s.pair n).clear ≤ 1) (hl : (s.pair n).used < (s.pair n).limit) :
    s.pairBlock n line
      = (s.setPair n { s.pair n with
          lastLine := line, state := .softStart, used := (s.pair n).used + 1, clear := 0, asserted := 0 }).mapPair n
            Channel.softStartNow := by
  simp only [State.pairBlock, hs, if_neg hc, if_pos hn, State.recoverExpiry, State.pair_setPair_same, if_pos hl,
    State.enterSoftStart, State.setPair_setPair]

/-- The clear counter runs out without one: LOCKOUT (R187, R190). -/
theorem State.pairBlock_recover_locks (hn : (s.pair n).clear ≤ 1) (hl : (s.pair n).limit ≤ (s.pair n).used) :
    s.pairBlock n line
      = (s.setPair n { s.pair n with lastLine := line, state := .lockout, clear := 0, asserted := 0 }).protectReport
          n := by
  simp only [State.pairBlock, hs, if_neg hc, if_pos hn, State.recoverExpiry, State.pair_setPair_same,
    if_neg (Nat.not_lt.mpr hl), State.setPair_setPair]

end recovers

/-- A locked pair samples its line only (R190). -/
theorem State.pairBlock_lockout (hs : (s.pair n).state = .lockout) :
    s.pairBlock n line = s.setPair n { s.pair n with lastLine := line } := by
  simp only [State.pairBlock, hs]

end pair

end Sys2Proof.Machine
end

