-- ==== Sys2Proof/Proofs/ZoneAndOutputParts.lean ====
section
/-! SUPPORT. The statement about the zones' and the outputs' parts of a block, assembled from the rules of each part. -/

namespace Sys2Proof.Machine

open Sys2Proof

/-- Settles O52: each part of a block by its cases. -/
theorem zoneAndOutputParts : Obligations.ZoneAndOutputParts := by
  refine ⟨moveToward_eq, fun s z => ?zones, fun s line => ?thermal, fun s c => ?ramp, fun s n f r => ?mapped,
    fun s n line => ?pair, fun s n => ?softStart, fun s => ?meters⟩
  case zones =>
    intro r ready up part done kind
    refine ⟨fun hup => ?_, fun hup => ?_, fun hw => State.switchBlock_idle hw,
      fun hw hr => State.switchBlock_fadeOut_ends hw hr, fun hw hr => State.switchBlock_fadeOut_goes hw hr,
      fun hw hr hm => ?_, fun hw hr hm => ?_, fun hw hr hn => State.switchBlock_waitReady_counts hw hr hn,
      fun hw hr hn => State.switchBlock_waitReady_absent hw hr hn, fun hw hr => ?_,
      fun hw hr hm => State.switchBlock_fadeIn_goes hw hr hm, fun h => State.standbyIfSilent_ends h,
      fun h => State.standbyIfSilent_stays h, fun h => State.sleepBlock_none h,
      fun hon hs hm => State.sleepBlock_minute hon hs hm, fun hon hs hm => State.sleepBlock_falls hon hs hm,
      fun hon hs hm => ?_⟩
    · show s.zoneBlock z = _
      rw [State.zoneBlock_eq, State.rampTarget_up hup]
    · show s.zoneBlock z = _
      rw [State.zoneBlock_eq, State.rampTarget_down hup]
    · exact (State.switchBlock_waitReady_ends hw hr).trans (State.startFadeIn_sounds hm)
    · exact (State.switchBlock_waitReady_ends hw hr).trans
        ((State.startFadeIn_muted hm).trans (s.completeSwitch_eq z))
    · exact (State.switchBlock_fadeIn_ends hw hr).trans (s.completeSwitch_eq z)
    · intro w u
      have hu : (s.goStandby z).raise .sleepExpired z.code [BitVec.ofNat 8 z.code] = u := by
        rw [State.goStandby_eq]
      have hrec : (u.zone z).power = .goingStandby ∧ (u.zone z).ramp = r.ramp := by
        rw [← hu, State.raise_zone, State.goStandby_zone]
        exact ⟨rfl, rfl⟩
      rw [State.sleepBlock_expires hon hs hm, hu]
      exact ⟨fun hr => State.standbyIfSilent_ends ⟨hrec.1, hrec.2.trans hr⟩,
        fun hr => State.standbyIfSilent_stays fun h => hr (hrec.2.symm.trans h.2)⟩
  case thermal =>
    intro r a d warns clears target steps x v
    have hx : s.thermal.block line = x := by
      have htimer : (if target ≠ r.tTarget then 0 else if r.t = r.tTarget ∨ r.tTimer = 7 then 0 else r.tTimer + 1)
          = if target ≠ r.tTarget ∨ r.t = r.tTarget ∨ r.tTimer = 7 then 0 else r.tTimer + 1 := by
        by_cases h : target = r.tTarget <;> simp [h]
      rw [Thermal.block, Thermal.moveT_eq, Thermal.countRuns_eq, Thermal.warn_eq, Thermal.escalate_eq]
      simp only [x, ← htimer]
      rfl
    unfold State.thermalBlock
    rw [hx]
    exact ⟨fun h => if_pos h, fun h => if_neg h⟩
  case ramp =>
    intro r gives held
    have hg : ∀ {x}, r.rampStep s.thermal.lastLine = x → gives x := fun h => congrArg (s.setChan c) h
    refine ⟨fun h => hg (Channel.rampStep_held h), fun h hs => hg (Channel.rampStep_rises h hs),
      fun h hs hr => hg (Channel.rampStep_rests h hs hr), fun h hs hr hl hc => hg (Channel.rampStep_counts h hs ?_ hc),
      fun h hs hr hl hc => hg (Channel.rampStep_steps h hs ?_ hc)⟩
    · simp [hr, hl]
    · simp [hr, hl]
  case mapped =>
    exact ⟨⟨s.mapPair n f, rfl, s.mapPair_channelsOnly n f, s.mapPair_chan n f⟩, rfl, rfl⟩
  case pair =>
    refine ⟨setLine s.pins.faults n line, fun k => setLine_getLsbD _ n k line, ?_⟩
    intro u r cond cause gives k y runs
    have hcond : u.faultCondition line = true ↔ cond := u.faultCondition_iff line
    have hy : r.count (u.faultCondition line) = y := by
      rw [Pair.count_eq]
      simp only [hcond]
      rfl
    have hk : y.detect = r.detect ∧ y.asserted = k := by
      obtain ⟨hdetect, hasserted⟩ := r.count_asserted (u.faultCondition line)
      rw [hy] at hdetect hasserted
      exact ⟨hdetect, hasserted.trans (by simp only [hcond]; rfl)⟩
    have hruns (h : runs) : s.pairPart n line
        = if cond ∧ r.detect ≤ k then (u.setPair n y).enterProtect n line else u.setPair n y := by
      refine (State.pairBlock_runs (s := u) (line := line) h).trans ?_
      simp only [← hk.1, ← hk.2, ← hy, ← hcond, Bool.and_eq_true, decide_eq_true_eq]
      rfl
    refine ⟨fun h hc hd => ?_, fun h hc => ?_, fun h hc => State.pairBlock_protect_stays (s := u) h (hcond.mpr hc),
      fun h hc => State.pairBlock_protect_ends (s := u) h (mt hcond.mp hc),
      fun h hc => State.pairBlock_recover_faults (s := u) h (hcond.mpr hc),
      fun h hc hn => State.pairBlock_recover_counts (s := u) h (mt hcond.mp hc) hn,
      fun h hc hn hl => State.pairBlock_recover_retries (s := u) h (mt hcond.mp hc) hn hl,
      fun h hc hn hl => State.pairBlock_recover_locks (s := u) h (mt hcond.mp hc) hn hl,
      fun h => State.pairBlock_lockout (s := u) h⟩
    · show s.pairPart n line = _
      rw [hruns h, if_pos ⟨hc, hd⟩, State.enterProtect]
      simp only [State.pair_setPair_same, State.setPair_setPair]
      rfl
    · show s.pairPart n line = _
      rw [hruns h, if_neg]
      rintro ⟨hcond, hd⟩
      obtain hnot | hlt := hc
      · exact hnot hcond
      · omega
  case softStart =>
    intro both v
    have hboth := s.softStartDone_iff n
    have hend (h : both) : s.softStartBlock n = s.endSoftStart n := if_pos (hboth.mpr h)
    exact ⟨fun h => if_neg (mt hboth.mp h), fun h hs => (hend h).trans (if_neg hs),
      fun h hs => (hend h).trans (if_pos hs)⟩
  case meters =>
    intro u handed
    have hbase : s.mirrorBase.isSome = true ↔ s.mirrorBase ≠ none := Option.isSome_iff_ne_none
    refine ⟨fun ⟨hn, hon, hb, hjob⟩ => (if_pos hn).trans (if_pos ⟨hon, hbase.mpr hb, hjob⟩), fun h => ?_⟩
    by_cases hn : (s.out.meterPeriod + 1) % 100 = 0
    · exact (if_pos hn).trans (if_neg fun ⟨hon, hb, hjob⟩ => h ⟨hn, hon, hbase.mp hb, hjob⟩)
    · exact if_neg hn

end Sys2Proof.Machine
end

