-- ==== Sys2Proof/Proofs/ZoneFrames.lean ====
section
/-! SUPPORT. What the zone controller's operations leave as it is: telling a source's block moves no zone and no
binding, detaching and attaching move the zone's attachment (R71 to R73), and a stage of the switch keeps the zone's
power, ramp and sleep (R81 to R83). -/

namespace Sys2Proof.Machine

open Sys2Proof

/-! ## Operations of other units -/

/-- Two states with the same zone and path records. -/
structure State.SameRecords (s t : State) : Prop where
  zone : ∀ z, t.zone z = s.zone z
  path : ∀ p, t.path p = s.path p

/-- Two states with the same zone records and the same bindings of the paths. -/
structure State.SameBindings (s t : State) : Prop where
  zone    : ∀ z, t.zone z = s.zone z
  binding : ∀ p, (t.path p).binding = (s.path p).binding

theorem State.SameRecords.refl (s : State) : s.SameRecords s := ⟨fun _ => rfl, fun _ => rfl⟩

/-- The four records a state holds decide. -/
theorem State.SameRecords.of_fields {s t : State} (hmain : t.zoneMain = s.zoneMain) (htwo : t.zoneTwo = s.zoneTwo)
    (hzero : t.pathZero = s.pathZero) (hone : t.pathOne = s.pathOne) : s.SameRecords t := by
  refine ⟨fun z => ?_, fun p => ?_⟩
  · cases z with
    | main => exact hmain
    | zone2 => exact htwo
  · cases p with
    | p0 => exact hzero
    | p1 => exact hone

theorem State.SameRecords.trans {s t u : State} (h : s.SameRecords t) (g : t.SameRecords u) : s.SameRecords u :=
  ⟨fun z => (g.zone z).trans (h.zone z), fun p => (g.path p).trans (h.path p)⟩

theorem State.SameRecords.bindings {s t : State} (h : s.SameRecords t) : s.SameBindings t :=
  ⟨h.zone, fun p => congrArg PathRec.binding (h.path p)⟩

theorem State.SameBindings.refl (s : State) : s.SameBindings s := ⟨fun _ => rfl, fun _ => rfl⟩

theorem State.SameBindings.trans {s t u : State} (h : s.SameBindings t) (g : t.SameBindings u) : s.SameBindings u :=
  ⟨fun z => (g.zone z).trans (h.zone z), fun p => (g.binding p).trans (h.binding p)⟩

/-- A path's record that keeps its binding (R93). -/
theorem State.setPath_sameBindings (s : State) (p : PathId) {r : PathRec} (h : r.binding = (s.path p).binding) :
    s.SameBindings (s.setPath p r) := by
  refine ⟨fun z => s.zone_setPath z p r, fun q => ?_⟩
  rw [State.path_setPath]
  split_ifs with hq
  · exact h.trans (by rw [hq])
  · rfl

/-- A report keeps the records. -/
theorem State.raise_sameRecords (s : State) (k : ReportKind) (i : Nat) (pl : List Byte) :
    s.SameRecords (s.raise k i pl) := ⟨s.raise_zone k i pl, s.raise_path k i pl⟩

/-- A window that starts to feed a path changes its ring only (R29). -/
theorem State.feedIfNamed_sameRecords (s : State) (w : Fin 16) : s.SameRecords (s.feedIfNamed w) := by
  cases hr : s.ring w with
  | none =>
    obtain ⟨-, hfeed⟩ := s.flushWindow_none w hr
    rw [hfeed]
    exact .refl s
  | some r =>
    obtain ⟨q, hfeed, -⟩ := s.feedIfNamed_eq w r hr
    rw [hfeed]
    exact .of_fields rfl rfl rfl rfl

/-- A flush changes rings and the return queue only (R40). -/
theorem State.flushWindow_sameRecords (s : State) (w : Fin 16) : s.SameRecords (s.flushWindow w) := by
  cases hr : s.ring w with
  | none =>
    obtain ⟨hflush, -⟩ := s.flushWindow_none w hr
    rw [hflush]
    exact .refl s
  | some r =>
    rw [s.flushWindow_spec w r hr]
    refine .trans ?_ (State.feedIfNamed_sameRecords _ w)
    exact .of_fields rfl rfl rfl rfl

/-- The end of a tuner operation keeps the records (R137). -/
theorem State.endOp_sameRecords (s : State) (res : CmdResult) (flags : Byte) (level : Nat) :
    s.SameRecords (s.endOp res flags level) := by
  unfold State.endOp
  cases s.tuner.op with
  | none => exact .refl s
  | some op => exact ⟨State.raiseDone_zone _ _ _, State.raiseDone_path _ _ _⟩

/-- The tuner's way to IDLE keeps the records (R134). -/
theorem State.tunerIdle_sameRecords (s : State) : s.SameRecords s.tunerIdle := by
  have h : s.SameRecords (s.abortOp false) := s.endOp_sameRecords ..
  exact ⟨fun z => (State.radioReport_zone _ _ z).trans (h.zone z),
    fun p => (State.radioReport_path _ _ p).trans (h.path p)⟩

/-- A change of the tuner's owner keeps the records (R73). -/
theorem State.setOwner_sameRecords (s : State) (z : Zone) : s.SameRecords (s.setOwner z) :=
  ⟨fun y => State.radioReport_zone _ _ y, fun p => State.radioReport_path _ _ p⟩

/-- Adopting a format keeps zones and bindings (R93). -/
theorem State.adoptFormat_sameBindings (s : State) (p : PathId) : s.SameBindings (s.adoptFormat p) := by
  cases hf : (s.path p).held with
  | none =>
    simp only [State.adoptFormat, hf]
    exact .refl s
  | some f =>
    have hput : s.SameBindings (s.setPath p ((s.path p).adopt f)) := s.setPath_sameBindings p rfl
    have hzero : (s.setPath p ((s.path p).adopt f)).SameRecords
        ((s.setPath p ((s.path p).adopt f)).zeroEnergiesFor p) := by
      unfold State.zeroEnergiesFor
      split_ifs
      · exact .of_fields rfl rfl rfl rfl
      · exact .refl _
    simp only [State.adoptFormat, hf]
    exact hput.trans (hzero.trans (State.raise_sameRecords ..)).bindings

/-- A format that a source hands over keeps zones and bindings (R92). -/
theorem State.handFormat_sameBindings (s : State) (p : PathId) (f : Format) : s.SameBindings (s.handFormat p f) := by
  have hwait : s.SameBindings (s.setPath p { s.path p with formatPending := true, held := some f }) :=
    s.setPath_sameBindings p rfl
  unfold State.handFormat
  dsimp only
  split_ifs with hsame hnow
  · exact s.setPath_sameBindings p rfl
  · exact hwait.trans (State.adoptFormat_sameBindings _ p)
  · exact hwait

/-- Telling a source's block moves no zone and no binding (R71). -/
theorem State.tellBound_sameBindings (s : State) (p : PathId) (e : Fin 12) : s.SameBindings (s.tellBound p e) := by
  unfold State.tellBound
  split
  · exact .refl s
  · split
    · exact s.handFormat_sameBindings p _
    · exact .refl s
  · split
    · exact .refl s
    · exact (s.feedIfNamed_sameRecords _).bindings
  · exact (s.handFormat_sameBindings p tunerFormat).trans ⟨fun _ => rfl, fun _ => rfl⟩

/-! ## Detaching and attaching (R71 to R73) -/

/-- A released path is free, and the zones stay (R72). -/
theorem State.releasePath_frees (s : State) (p : PathId) :
    (s.releasePath p).path p = PathRec.free ∧ ∀ z, (s.releasePath p).zone z = s.zone z := by
  let u : State := ({ s with bindFirst := p.other } : State).setPath p PathRec.free
  have hu : u.path p = PathRec.free ∧ ∀ z, u.zone z = s.zone z :=
    ⟨State.path_setPath_same _ p _, fun z => State.zone_setPath _ z p _⟩
  have hkept {t : State} (h : u.SameRecords t) : t.path p = PathRec.free ∧ ∀ z, t.zone z = s.zone z :=
    ⟨(h.path p).trans hu.1, fun z => (h.zone z).trans (hu.2 z)⟩
  cases hk : s.pathKind p with
  | none =>
    rw [State.releasePath_quiet (.inl hk)]
    exact hu
  | laneGroup =>
    rw [State.releasePath_quiet (.inr hk)]
    exact hu
  | stream =>
    cases hw : s.feeding p with
    | none =>
      rw [State.releasePath_unfed hk hw]
      exact hu
    | some w =>
      rw [State.releasePath_fed hk hw]
      exact hkept (u.flushWindow_sameRecords w)
  | tuner =>
    rw [State.releasePath_tuner hk]
    refine hkept (.trans ?_ (State.tunerIdle_sameRecords _))
    exact .of_fields rfl rfl rfl rfl

section zones
variable {s : State} {z : Zone} {p : PathId} {e : Fin 12}

/-- A zone that detaches loses its attachment, and the other zone stays (R72). -/
theorem State.detach_zone (s : State) (z : Zone) :
    (s.detach z).zone z = { s.zone z with attached := none } ∧ (s.detach z).zone z.other = s.zone z.other := by
  let v : State := s.setZone z { s.zone z with attached := none }
  have hv : v.zone z = { s.zone z with attached := none } ∧ v.zone z.other = s.zone z.other :=
    ⟨State.zone_setZone_same .., State.zone_setZone_other ..⟩
  have hkept {t : State} (h : ∀ y, t.zone y = v.zone y) :
      t.zone z = { s.zone z with attached := none } ∧ t.zone z.other = s.zone z.other :=
    ⟨(h z).trans hv.1, (h z.other).trans hv.2⟩
  cases ha : (s.zone z).attached with
  | none =>
    rw [State.detach_none ha, ← ha]
    exact ⟨rfl, rfl⟩
  | some p =>
    by_cases ho : (s.zone z.other).attached = some p
    · rw [State.detach_shared ha ho]
      dsimp only
      split_ifs
      · exact hkept (v.setOwner_sameRecords z.other).zone
      · exact hv
    · rw [State.detach_last ha ho]
      exact hkept (v.releasePath_frees p).2

/-- A path that its last zone leaves is free (R72). -/
theorem State.detach_frees (ha : (s.zone z).attached = some p) (ho : (s.zone z.other).attached ≠ some p) :
    (s.detach z).path p = PathRec.free := by
  rw [State.detach_last ha ho]
  exact (State.releasePath_frees _ p).1

/-- A zone that enters STANDBY loses its attachment, and the other zone stays (R86). -/
theorem State.enterStandby_zone (s : State) (z : Zone) :
    (s.enterStandby z).zone z = { s.zone z with attached := none, power := .standby }
      ∧ (s.enterStandby z).zone z.other = s.zone z.other := by
  obtain ⟨hzone, hother⟩ := s.detach_zone z
  rw [State.enterStandby, State.zoneReport_zone, State.zoneReport_zone, State.zone_setZone_same,
    State.zone_setZone_other, hzone, hother]
  exact ⟨rfl, rfl⟩

/-- The path that a zone entering STANDBY leaves is free without the other zone (R72, R86). -/
theorem State.enterStandby_frees (ha : (s.zone z).attached = some p) (ho : (s.zone z.other).attached ≠ some p) :
    (s.enterStandby z).path p = PathRec.free := by
  rw [State.enterStandby, State.zoneReport_path, State.path_setZone, State.detach_frees ha ho]

/-- A zone that joins a path has it as its attachment (R71). -/
theorem State.joinPath_zone (s : State) (z : Zone) (p : PathId) :
    (s.joinPath z p).zone z = { s.zone z with attached := some p } ∧ ∀ q, (s.joinPath z p).path q = s.path q := by
  cases z with
  | main => exact ⟨rfl, fun q => by cases q <;> rfl⟩
  | zone2 => exact ⟨rfl, fun q => by cases q <;> rfl⟩

/-- A path that is bound has the source as its binding, and the zones stay (R71). -/
theorem State.bindPath_binds (s : State) (p : PathId) (e : Fin 12) :
    ((s.bindPath p e).path p).binding = some e ∧ ∀ z, (s.bindPath p e).zone z = s.zone z := by
  rw [State.bindPath_eq]
  have h := State.tellBound_sameBindings (({ s with
    bindFirst := if (s.path p.other).binding = none then p else p.other } : State).setPath p
      { PathRec.free with binding := some e, tracker := { Tracker.free with state := .prefill } }) p e
  refine ⟨(h.binding p).trans ?_, fun z => (h.zone z).trans ?_⟩
  · rw [State.path_setPath_same]
  · exact State.zone_setPath _ z p _

/-- A zone that attaches is on a path bound to the source, and keeps everything else (R71). -/
theorem State.attach_zone (s : State) (z : Zone) (e : Fin 12) :
    ∃ q, (s.attach z e).zone z = { s.zone z with attached := some q }
      ∧ ((s.attach z e).path q).binding = some e := by
  have hjoined : ∃ q, (s.joined z e).zone z = { s.zone z with attached := some q }
      ∧ ((s.joined z e).path q).binding = some e := by
    unfold State.joined
    cases hb : s.boundPath e with
    | some q =>
      obtain ⟨hzone, hpath⟩ := s.joinPath_zone z q
      obtain ⟨hbinding, -⟩ := (s.boundPath_iff e q).mp hb
      exact ⟨q, hzone, (congrArg PathRec.binding (hpath q)).trans hbinding⟩
    | none =>
      obtain ⟨hzone, -⟩ := s.joinPath_zone z s.freePath
      obtain ⟨hbinding, hkept⟩ := (s.joinPath z s.freePath).bindPath_binds s.freePath e
      exact ⟨s.freePath, (hkept z).trans hzone, hbinding⟩
  obtain ⟨q, hzone, hbinding⟩ := hjoined
  have howner := ((s.joined z e).setOwner_sameRecords z).bindings
  rw [State.attach_joined]
  split_ifs
  · exact ⟨q, (howner.zone z).trans hzone, (howner.binding q).trans hbinding⟩
  · exact ⟨q, hzone, hbinding⟩

/-! ## The stages of a switch (R81 to R83) -/

/-- A record with the power, ramp and sleep of another. -/
structure ZoneRec.Steady (r x : ZoneRec) : Prop where
  power  : x.power = r.power
  ramp   : x.ramp = r.ramp
  sleep  : x.sleep = r.sleep
  minute : x.minute = r.minute

/-- A completed switch leaves its zone IDLE, and the paths stay (R83). -/
theorem State.completeSwitch_zone (s : State) (z : Zone) :
    (s.completeSwitch z).zone z = { s.zone z with switch := .idle, waitCount := 0, target := none, tag := none }
      ∧ ∀ q, (s.completeSwitch z).path q = s.path q := by
  rw [State.completeSwitch_eq]
  exact ⟨by simp, fun q => by simp⟩

/-- FADE_IN begins, or completes at once: the zone keeps its attachment, and the paths stay (R82, R83). -/
theorem State.startFadeIn_zone (s : State) (z : Zone) :
    (s.zone z).Steady ((s.startFadeIn z).zone z) ∧ ((s.startFadeIn z).zone z).switch ≠ .fadeOut
      ∧ ((s.startFadeIn z).zone z).attached = (s.zone z).attached
      ∧ ((s.zone z).waitCount = 0 → ((s.startFadeIn z).zone z).waitCount = 0)
      ∧ ∀ q, (s.startFadeIn z).path q = s.path q := by
  cases hm : (s.zone z).mute with
  | false =>
    rw [State.startFadeIn_sounds hm, State.zone_setZone_same]
    exact ⟨⟨rfl, rfl, rfl, rfl⟩, SwitchState.noConfusion, rfl, fun h => h, fun q => by simp⟩
  | true =>
    obtain ⟨hzone, hpath⟩ := s.completeSwitch_zone z
    rw [State.startFadeIn_muted hm, hzone]
    exact ⟨⟨rfl, rfl, rfl, rfl⟩, SwitchState.noConfusion, rfl, fun _ => rfl, hpath⟩

/-- WAIT_READY, entered with its count at 0, keeps the zone's attachment, and the paths stay (R82). -/
theorem State.startWait_zone (s : State) (z : Zone) :
    (s.zone z).Steady ((s.startWait z).zone z) ∧ ((s.startWait z).zone z).switch ≠ .fadeOut
      ∧ ((s.startWait z).zone z).attached = (s.zone z).attached ∧ ((s.startWait z).zone z).waitCount = 0
      ∧ ∀ q, (s.startWait z).path q = s.path q := by
  by_cases hr : s.Ready z
  · obtain ⟨⟨hpower, hramp, hsleep, hminute⟩, hswitch, hatt, hcount, hpath⟩ :=
      (s.setZone z { s.zone z with switch := .waitReady, waitCount := 0 }).startFadeIn_zone z
    rw [State.zone_setZone_same] at hpower hramp hsleep hminute hatt hcount
    rw [State.startWait_ends hr]
    exact ⟨⟨hpower, hramp, hsleep, hminute⟩, hswitch, hatt, hcount rfl,
      fun q => (hpath q).trans (State.path_setZone ..)⟩
  · rw [State.startWait_waits hr, State.zone_setZone_same]
    exact ⟨⟨rfl, rfl, rfl, rfl⟩, SwitchState.noConfusion, rfl, rfl, fun q => by simp⟩

/-- FADE_OUT that ends leaves the zone on a path bound to the target (R81). -/
theorem State.endFadeOut_zone (ht : (s.zone z).target = some e) :
    (s.zone z).Steady ((s.endFadeOut z).zone z) ∧ ((s.endFadeOut z).zone z).switch ≠ .fadeOut
      ∧ ((s.endFadeOut z).zone z).waitCount = 0
      ∧ ∃ q, ((s.endFadeOut z).zone z).attached = some q ∧ ((s.endFadeOut z).path q).binding = some e := by
  have harrives : ∃ u : State, s.endFadeOut z = u.startWait z
      ∧ ∃ q, u.zone z = { s.zone z with attached := some q } ∧ (u.path q).binding = some e := by
    by_cases hstays : ∃ p, (s.zone z).attached = some p ∧ s.boundPath e = some p
    · obtain ⟨p, ha, hb⟩ := hstays
      obtain ⟨hbinding, -⟩ := (s.boundPath_iff e p).mp hb
      exact ⟨s, State.endFadeOut_stays ht ha hb, p, by rw [← ha], hbinding⟩
    · obtain ⟨q, hzone, hbinding⟩ := (s.detach z).attach_zone z e
      refine ⟨_, State.endFadeOut_moves ht fun p ha hb => hstays ⟨p, ha, hb⟩, q, ?_, hbinding⟩
      rw [hzone, (s.detach_zone z).1]
  obtain ⟨u, hend, q, hzone, hbinding⟩ := harrives
  obtain ⟨⟨hpower, hramp, hsleep, hminute⟩, hswitch, hatt, hcount, hpath⟩ := u.startWait_zone z
  rw [hzone] at hpower hramp hsleep hminute hatt
  rw [hend]
  exact ⟨⟨hpower, hramp, hsleep, hminute⟩, hswitch, hcount, q, hatt,
    (congrArg PathRec.binding (hpath q)).trans hbinding⟩

/-- A zone that waits counts the block (R82). -/
theorem State.switchBlock_waits_zone (h : (s.zone z).switch = .waitReady) (hr : ¬ s.Ready z) :
    (s.switchBlock z).zone z = { s.zone z with waitCount := min 2000 ((s.zone z).waitCount + 1) } := by
  simp only [State.switchBlock, h, if_neg (mt (s.waitEnds_iff z).mp hr)]
  split_ifs
  · rw [State.raise_zone, State.zone_setZone_same]
  · rw [State.zone_setZone_same]

/-- The stage of the switch at a block keeps the zone's power, ramp and sleep. -/
theorem State.switchBlock_steady (s : State) (z : Zone) : (s.zone z).Steady ((s.switchBlock z).zone z) := by
  have hself : (s.zone z).Steady (s.zone z) := ⟨rfl, rfl, rfl, rfl⟩
  cases hw : (s.zone z).switch with
  | idle => rwa [State.switchBlock_idle hw]
  | fadeOut =>
    by_cases hr : (s.zone z).ramp = -240
    · rw [State.switchBlock_fadeOut_ends hw hr]
      cases ht : (s.zone z).target with
      | none => rwa [State.endFadeOut_none ht]
      | some e => exact (State.endFadeOut_zone ht).1
    · rwa [State.switchBlock_fadeOut_goes hw hr]
  | waitReady =>
    by_cases hr : s.Ready z
    · rw [State.switchBlock_waitReady_ends hw hr]
      exact (s.startFadeIn_zone z).1
    · rw [State.switchBlock_waits_zone hw hr]
      exact ⟨rfl, rfl, rfl, rfl⟩
  | fadeIn =>
    by_cases hr : (s.zone z).ramp = 0 ∨ (s.zone z).mute = true
    · rw [State.switchBlock_fadeIn_ends hw hr, (s.completeSwitch_zone z).1]
      exact ⟨rfl, rfl, rfl, rfl⟩
    · obtain ⟨hramp, hmute⟩ := not_or.mp hr
      rwa [State.switchBlock_fadeIn_goes hw hramp (Bool.not_eq_true _ ▸ hmute)]

end zones

end Sys2Proof.Machine
end

