-- ==== Sys2Proof/Proofs/ZoneEvents.lean ====
section
/-! SUPPORT. The six events of a zone (R81 to R83, R86, R87): each makes the zone's part of its block, which its stages
give; and the statement about them. -/

namespace Sys2Proof.Machine

open Sys2Proof

section events
variable {s b : State} {z : Zone}

/-! ## An event makes its zone's part -/

/-- A zone's event that occurs makes the zone's part, on the block after the tuner's (log 2). -/
theorem zoneEvent_occurs {occurs : State → Bool} {u : State} (h : BlockPart.zone z ∉ s.taken)
    (ho : occurs s.tunerMade = true) (hu : s.tunerMade.zoneBlock z = u) :
    zoneEvent z occurs s = { u with taken := .zone z :: u.taken } := by
  rw [zoneEvent, blockEvent_occurs _ _ _ _ s h ho, hu]

/-- Marking a part as made keeps the zones and the paths. -/
theorem State.taken_sameRecords (u : State) (ks : List BlockPart) : u.SameRecords { u with taken := ks } :=
  .of_fields rfl rfl rfl rfl

/-! ## The part of a zone by its stages -/

/-- The state after the levels of a zone have moved (R76, R77). -/
def State.levelsMoved (b : State) (z : Zone) : State := b.setZone z (b.zoneMoved z)

/-- The levels move first; the zone's stages follow. -/
theorem State.zoneBlock_stages (b : State) (z : Zone) :
    b.zoneBlock z = (((b.levelsMoved z).switchBlock z).standbyIfSilent z).sleepBlock z := rfl

@[simp] theorem State.levelsMoved_zone (b : State) (z : Zone) : (b.levelsMoved z).zone z = b.zoneMoved z :=
  State.zone_setZone_same ..

@[simp] theorem State.levelsMoved_path (b : State) (z : Zone) (p : PathId) : (b.levelsMoved z).path p = b.path p :=
  State.path_setZone ..

@[simp] theorem State.levelsMoved_setZone (b : State) (z : Zone) (r : ZoneRec) :
    (b.levelsMoved z).setZone z r = b.setZone z r := State.setZone_setZone ..

/-- The levels of zones decide nothing about bound paths. -/
theorem State.levelsMoved_boundPath (b : State) (z : Zone) (e : Fin 12) :
    (b.levelsMoved z).boundPath e = b.boundPath e := by
  simp [State.boundPath, State.levelsMoved]

/-- On a path of its own, a zone is ready when the path is and no change is pending (R82). -/
theorem State.levelsMoved_ready {p : PathId} (ha : (b.zone z).attached = some p) :
    (b.levelsMoved z).Ready z ↔ b.pathReady p = true ∧ (b.path p).formatPending = false := by
  rw [← State.waitEnds_iff, State.waitEnds, State.levelsMoved_zone]
  simp [State.zoneMoved, ha, State.pathReady]

/-- A zone without a path is not ready (R82). -/
theorem State.Ready.attached (h : b.Ready z) : ∃ p, (b.zone z).attached = some p := by
  obtain ⟨p, ha, -⟩ := h
  exact ⟨p, ha⟩

/-- The minute counter of a zone at a block that expires nothing (R87). -/
def ZoneRec.minuteLeft (r : ZoneRec) : ZoneRec := if r.sleep = 0 then r else { r with minute := r.minute - 1 }

/-- A stage of the switch and the minute counter do not meet (R81, R87). -/
theorem ZoneRec.minuteLeft_switch (r : ZoneRec) (w : SwitchState) :
    ZoneRec.minuteLeft { r with switch := w } = { r.minuteLeft with switch := w } := by
  unfold ZoneRec.minuteLeft
  split_ifs <;> rfl

/-- A stage of the switch with its wait count and the minute counter do not meet (R82, R87). -/
theorem ZoneRec.minuteLeft_wait (r : ZoneRec) (w : SwitchState) (n : Nat) :
    ZoneRec.minuteLeft { r with switch := w, waitCount := n } = { r.minuteLeft with switch := w, waitCount := n } := by
  unfold ZoneRec.minuteLeft
  split_ifs <;> rfl

/-- A zone that is ON and stays awake: its minute counter alone moves after the switch (R86, R87). -/
theorem State.awake_tail {u : State} (hon : (u.zone z).power = .on)
    (hawake : (u.zone z).sleep = 0 ∨ 1 < (u.zone z).minute) :
    (u.standbyIfSilent z).sleepBlock z = if (u.zone z).sleep = 0 then u
      else u.setZone z { u.zone z with minute := (u.zone z).minute - 1 } := by
  rw [State.standbyIfSilent_stays (by simp [hon])]
  by_cases hs : (u.zone z).sleep = 0
  · rw [if_pos hs, State.sleepBlock_none (.inr hs)]
  · rw [if_neg hs, State.sleepBlock_minute hon hs (by omega)]

/-- A zone that stays awake keeps all but its minute counter after the switch, and the paths stay. -/
theorem State.awake_tail_zone {u : State} (hon : (u.zone z).power = .on)
    (hawake : (u.zone z).sleep = 0 ∨ 1 < (u.zone z).minute) :
    (∃ k, ((u.standbyIfSilent z).sleepBlock z).zone z = { u.zone z with minute := k })
      ∧ ∀ p, ((u.standbyIfSilent z).sleepBlock z).path p = u.path p := by
  rw [State.awake_tail hon hawake]
  split_ifs
  · exact ⟨⟨_, rfl⟩, fun _ => rfl⟩
  · exact ⟨⟨_, State.zone_setZone_same ..⟩, fun p => State.path_setZone ..⟩

/-- A zone that stays awake and whose switch changes its record only (R81, R82). -/
theorem State.zoneBlock_awake {x : ZoneRec} (hswitch : (b.levelsMoved z).switchBlock z = b.setZone z x)
    (hon : x.power = .on) (hawake : x.sleep = 0 ∨ 1 < x.minute) :
    b.zoneBlock z = b.setZone z x.minuteLeft := by
  have hx : (b.setZone z x).zone z = x := State.zone_setZone_same ..
  rw [State.zoneBlock_stages, hswitch, State.awake_tail (by rwa [hx]) (by rwa [hx]), hx, State.setZone_setZone,
    ZoneRec.minuteLeft]
  split_ifs <;> rfl

/-- A zone that goes to STANDBY is off, IDLE and without a sleep time (R86, R87). -/
theorem State.expired_zone (u : State) (z : Zone) :
    let t := ((u.goStandby z).raise .sleepExpired z.code [BitVec.ofNat 8 z.code]).standbyIfSilent z
    (t.zone z).power ≠ .on ∧ (t.zone z).sleep = 0 ∧ (t.zone z).minute = 0 ∧ (t.zone z).switch = .idle
      ∧ (t.zone z).target = none := by
  intro t
  let v := (u.goStandby z).raise .sleepExpired z.code [BitVec.ofNat 8 z.code]
  have hv : v.zone z = { u.zone z with
      switch := .idle, target := none, tag := none, waitCount := 0, sleep := 0, minute := 0
      power := .goingStandby } := by
    rw [State.raise_zone, State.goStandby_zone]
  by_cases hr : (v.zone z).power = .goingStandby ∧ (v.zone z).ramp = -240
  · have ht : t = v.enterStandby z := State.standbyIfSilent_ends hr
    rw [ht, (v.enterStandby_zone z).1, hv]
    exact ⟨Power.noConfusion, rfl, rfl, rfl, rfl⟩
  · have ht : t = v := State.standbyIfSilent_stays hr
    rw [ht, hv]
    exact ⟨Power.noConfusion, rfl, rfl, rfl, rfl⟩

/-! ## When the events occur -/

theorem State.fadeOutEndOccurs_of (hs : (b.zone z).switch = .fadeOut) (hr : (b.zoneMoved z).ramp = -240) :
    b.fadeOutEndOccurs z = true := by
  simp [State.fadeOutEndOccurs, hs, hr]

/-- On a path, WAIT_READY can end when the path is ready and no change is pending (R82). -/
theorem State.waitEnds_attached {p : PathId} (ha : (b.zone z).attached = some p) :
    b.waitEnds z = (b.pathReady p && !(b.path p).formatPending) := by
  simp only [State.waitEnds, ha]

theorem State.waitReadyEndOccurs_of {p : PathId} (hs : (b.zone z).switch = .waitReady)
    (ha : (b.zone z).attached = some p) (hr : b.pathReady p = true) (hf : (b.path p).formatPending = false) :
    b.waitReadyEndOccurs z = true := by
  simp [State.waitReadyEndOccurs, State.waitEnds_attached ha, hs, hr, hf]

theorem State.sourceAbsentOccurs_of (hs : (b.zone z).switch = .waitReady) (hc : (b.zone z).waitCount = 1999)
    (hn : ∀ p, (b.zone z).attached = some p → b.pathReady p = false ∨ (b.path p).formatPending = true) :
    b.sourceAbsentOccurs z = true := by
  have hwaits : b.waitEnds z = false := by
    cases ha : (b.zone z).attached with
    | none => simp only [State.waitEnds, ha]
    | some p => simpa [State.waitEnds_attached ha, imp_iff_not_or] using hn p ha
  simp [State.sourceAbsentOccurs, hs, hc, hwaits]

theorem State.switchCompleteOccurs_of (hs : (b.zone z).switch = .fadeIn)
    (he : (b.zoneMoved z).ramp = 0 ∨ (b.zone z).mute = true) : b.switchCompleteOccurs z = true := by
  simp [State.switchCompleteOccurs, hs, he]

theorem State.goingStandbyEndOccurs_of (hp : (b.zone z).power = .goingStandby) (hr : (b.zoneMoved z).ramp = -240) :
    b.goingStandbyEndOccurs z = true := by
  simp [State.goingStandbyEndOccurs, hp, hr]

theorem State.sleepMinuteOccurs_of (hp : (b.zone z).power = .on) (hs : (b.zone z).sleep ≠ 0)
    (hm : (b.zone z).minute ≤ 1) : b.sleepMinuteOccurs z = true := by
  simp [State.sleepMinuteOccurs, hp, hs, hm]

/-! ## The part of a zone at each event -/

section fadeOut
variable {e : Fin 12} (hon : (b.zone z).power = .on) (hawake : (b.zone z).sleep = 0 ∨ 1 < (b.zone z).minute)
  (hswitch : (b.zone z).switch = .fadeOut) (hramp : (b.zoneMoved z).ramp = -240) (ht : (b.zone z).target = some e)
include hon hawake hswitch hramp ht

/-- FADE_OUT_END of a zone that is on its target's path, which is not ready (R81). -/
theorem State.zoneBlock_fadeOut_stays {p : PathId} (ha : (b.zone z).attached = some p) (hb : b.boundPath e = some p)
    (hnot : b.pathReady p = false ∨ (b.path p).formatPending = true) :
    b.zoneBlock z = b.setZone z { (b.zoneMoved z).minuteLeft with switch := .waitReady, waitCount := 0 } := by
  have hwaits : ¬ (b.levelsMoved z).Ready z := by
    rw [State.levelsMoved_ready ha]
    rintro ⟨hready, hfree⟩
    simp [hready, hfree] at hnot
  have hv := b.levelsMoved_zone z
  refine (State.zoneBlock_awake (x := { b.zoneMoved z with switch := .waitReady, waitCount := 0 }) ?_ hon hawake).trans
    (congrArg _ (ZoneRec.minuteLeft_wait ..))
  rw [State.switchBlock_fadeOut_ends (by rw [hv]; exact hswitch) (by rw [hv]; exact hramp),
    State.endFadeOut_stays (e := e) (p := p) (by rw [hv]; exact ht) (by rw [hv]; exact ha)
      (by rw [State.levelsMoved_boundPath]; exact hb),
    State.startWait_waits hwaits, State.levelsMoved_setZone, hv]

/-- FADE_OUT_END puts the zone on a path bound to its target (R81). -/
theorem State.zoneBlock_fadeOut_arrives :
    ((b.zoneBlock z).zone z).switch ≠ .fadeOut ∧ ((b.zoneBlock z).zone z).ramp = -240
      ∧ ((b.zoneBlock z).zone z).waitCount = 0
      ∧ ∃ p, ((b.zoneBlock z).zone z).attached = some p ∧ ((b.zoneBlock z).path p).binding = some e := by
  have hv := b.levelsMoved_zone z
  obtain ⟨⟨hpower, hkept, hsleep, hminute⟩, hleft, hcount, p, ha, hbinding⟩ :=
    State.endFadeOut_zone (s := b.levelsMoved z) (z := z) (e := e) (by rw [hv]; exact ht)
  rw [hv] at hpower hkept hsleep hminute
  obtain ⟨⟨k, hzone⟩, hpath⟩ := State.awake_tail_zone (u := (b.levelsMoved z).endFadeOut z) (z := z)
    (hpower.trans hon) (by rw [hsleep, hminute]; exact hawake)
  rw [State.zoneBlock_stages,
    State.switchBlock_fadeOut_ends (by rw [hv]; exact hswitch) (by rw [hv]; exact hramp), hzone]
  exact ⟨hleft, hkept.trans hramp, hcount, p, ha, (congrArg PathRec.binding (hpath p)).trans hbinding⟩

end fadeOut

section waitReady
variable (hon : (b.zone z).power = .on) (hswitch : (b.zone z).switch = .waitReady)
include hon hswitch

section ends
variable {p : PathId} (hawake : (b.zone z).sleep = 0 ∨ 1 < (b.zone z).minute) (ha : (b.zone z).attached = some p)
  (hready : b.pathReady p = true) (hfree : (b.path p).formatPending = false)
include hawake ha hready hfree

/-- WAIT_READY_END of a zone that sounds (R82). -/
theorem State.zoneBlock_waitReady_sounds (hm : (b.zone z).mute = false) :
    b.zoneBlock z = b.setZone z { (b.zoneMoved z).minuteLeft with switch := .fadeIn } := by
  have hv := b.levelsMoved_zone z
  refine (State.zoneBlock_awake (x := { b.zoneMoved z with switch := .fadeIn }) ?_ hon hawake).trans
    (congrArg _ (ZoneRec.minuteLeft_switch ..))
  rw [State.switchBlock_waitReady_ends (by rw [hv]; exact hswitch) ((State.levelsMoved_ready ha).mpr ⟨hready, hfree⟩),
    State.startFadeIn_sounds (by rw [hv]; exact hm), State.levelsMoved_setZone, hv]

/-- WAIT_READY_END of a muted zone completes its switch (R83). -/
theorem State.zoneBlock_waitReady_muted (hm : (b.zone z).mute = true) :
    ∃ k, (b.zoneBlock z).zone z = { b.zoneMoved z with
      switch := .idle, waitCount := 0, target := none, tag := none, minute := k } := by
  have hv := b.levelsMoved_zone z
  obtain ⟨hdone, -⟩ := (b.levelsMoved z).completeSwitch_zone z
  rw [hv] at hdone
  obtain ⟨⟨k, hzone⟩, -⟩ := State.awake_tail_zone (u := (b.levelsMoved z).completeSwitch z) (z := z)
    (by rw [hdone]; exact hon) (by rw [hdone]; exact hawake)
  refine ⟨k, ?_⟩
  rw [State.zoneBlock_stages,
    State.switchBlock_waitReady_ends (by rw [hv]; exact hswitch) ((State.levelsMoved_ready ha).mpr ⟨hready, hfree⟩),
    State.startFadeIn_muted (by rw [hv]; exact hm), hzone, hdone]

end ends

/-- SOURCE_ABSENT (R82). -/
theorem State.zoneBlock_absent (hcount : (b.zone z).waitCount = 1999) (hsleep : (b.zone z).sleep = 0)
    (hnot : ∀ p, (b.zone z).attached = some p → b.pathReady p = false ∨ (b.path p).formatPending = true) :
    b.zoneBlock z = (b.setZone z { b.zoneMoved z with waitCount := 2000 }).raise .sourceAbsent z.code
      [BitVec.ofNat 8 z.code, optByte ((b.zone z).target.map (·.val)),
        BitVec.ofNat 8 (match (b.zone z).target with
          | some e => (b.source e).kind.code
          | none => 0)] := by
  have hv := b.levelsMoved_zone z
  have hwaits : ¬ (b.levelsMoved z).Ready z := by
    intro h
    obtain ⟨p, ha⟩ := h.attached
    rw [hv] at ha
    obtain ⟨hready, hfree⟩ := (State.levelsMoved_ready ha).mp h
    simpa [hready, hfree] using hnot p ha
  rw [State.zoneBlock_stages, State.switchBlock_waitReady_absent (by rw [hv]; exact hswitch) hwaits
    (by rw [hv]; exact hcount), State.levelsMoved_setZone, hv]
  have hsource : ∀ e, (b.levelsMoved z).source e = b.source e := by cases z <;> exact fun _ => rfl
  simp only [hsource]
  rw [State.awake_tail, if_pos]
  · rfl
  · rw [State.raise_zone, State.zone_setZone_same]
    exact hsleep
  · rw [State.raise_zone, State.zone_setZone_same]
    exact hon
  · rw [State.raise_zone, State.zone_setZone_same]
    exact .inl hsleep

end waitReady

/-- SWITCH_COMPLETE of a zone without a sleep time (R83). -/
theorem State.zoneBlock_completes (hon : (b.zone z).power = .on) (hsleep : (b.zone z).sleep = 0)
    (hswitch : (b.zone z).switch = .fadeIn) (hend : (b.zoneMoved z).ramp = 0 ∨ (b.zone z).mute = true) :
    b.zoneBlock z
      = ((b.setZone z { b.zoneMoved z with switch := .idle, waitCount := 0, target := none, tag := none }).zoneReport
          z).raiseDone (b.zone z).tag
        [0, 0, BitVec.ofNat 8 z.code, 0, optByte ((b.zone z).target.map fun e => e.val),
          optByte ((b.zone z).attached.map fun p => p.code)] := by
  have hv := b.levelsMoved_zone z
  obtain ⟨hdone, -⟩ := (b.levelsMoved z).completeSwitch_zone z
  rw [hv] at hdone
  rw [State.zoneBlock_stages, State.switchBlock_fadeIn_ends (by rw [hv]; exact hswitch) (by rw [hv]; exact hend),
    State.awake_tail (by rw [hdone]; exact hon) (by rw [hdone]; exact .inl hsleep),
    if_pos (by rw [hdone]; exact hsleep),
    State.completeSwitch_eq, State.levelsMoved_setZone, hv]
  rfl

section idle
variable (hswitch : (b.zone z).switch = .idle)
include hswitch

/-- GOING_STANDBY_END: the zone enters STANDBY, and no sleep time is left to count (R86). -/
theorem State.zoneBlock_standby (hpower : (b.zone z).power = .goingStandby) (hramp : (b.zoneMoved z).ramp = -240) :
    b.zoneBlock z = (b.levelsMoved z).enterStandby z := by
  have hv := b.levelsMoved_zone z
  have hsilent : ((b.levelsMoved z).zone z).power = .goingStandby ∧ ((b.levelsMoved z).zone z).ramp = -240 := by
    rw [hv]
    exact ⟨hpower, hramp⟩
  rw [State.zoneBlock_stages, State.switchBlock_idle (by rw [hv]; exact hswitch), State.standbyIfSilent_ends hsilent,
    State.sleepBlock_none]
  rw [(State.enterStandby_zone _ z).1]
  exact .inl Power.noConfusion

section on
variable (hon : (b.zone z).power = .on)
include hon

/-- A zone that is ON and not switching has its sleep time looked at (R87). -/
theorem State.zoneBlock_onIdle : b.zoneBlock z = (b.levelsMoved z).sleepBlock z := by
  have hv := b.levelsMoved_zone z
  have hstays : ¬ (((b.levelsMoved z).zone z).power = .goingStandby ∧ ((b.levelsMoved z).zone z).ramp = -240) := by
    rw [hv]
    simp [State.zoneMoved, hon]
  rw [State.zoneBlock_stages, State.switchBlock_idle (by rw [hv]; exact hswitch), State.standbyIfSilent_stays hstays]

/-- SLEEP_MINUTE with minutes left (R87). -/
theorem State.zoneBlock_sleepMinute (hs : 1 < (b.zone z).sleep) (hm : (b.zone z).minute ≤ 1) :
    b.zoneBlock z = b.setZone z { b.zoneMoved z with minute := 60000, sleep := (b.zone z).sleep - 1 } := by
  have hv := b.levelsMoved_zone z
  rw [State.zoneBlock_onIdle hswitch hon, State.sleepBlock_falls (by rw [hv]; exact hon) (by rw [hv]; exact hs)
    (by rw [hv]; exact hm), State.levelsMoved_setZone, hv]
  rfl

/-- SLEEP_MINUTE at the end of the last minute, in a zone that sounds: it goes to STANDBY (R86, R87). -/
theorem State.zoneBlock_sleepExpires (hs : (b.zone z).sleep = 1) (hm : (b.zone z).minute ≤ 1)
    (hramp : (b.zoneMoved z).ramp ≠ -240) :
    b.zoneBlock z
      = ((b.setZone z { b.zoneMoved z with
          sleep := 0, minute := 0, power := .goingStandby, target := none, tag := none
          waitCount := 0 }).zoneReport z).raise .sleepExpired z.code [BitVec.ofNat 8 z.code] := by
  have hv := b.levelsMoved_zone z
  have hidle : (b.zoneMoved z).switch = .idle := hswitch
  rw [State.zoneBlock_onIdle hswitch hon, State.sleepBlock_expires (by rw [hv]; exact hon) (by rw [hv]; exact hs)
    (by rw [hv]; exact hm), State.standbyIfSilent_stays, State.goStandby_eq, hv, if_pos hidle,
    State.levelsMoved_setZone, ← hidle]
  rw [State.raise_zone, State.goStandby_zone, hv]
  exact fun h => hramp h.2

end on
end idle

/-- SLEEP_MINUTE at the end of the last minute, whatever the switch has done before (R87, log 50). -/
theorem State.zoneBlock_sleepEnds (hon : (b.zone z).power = .on) (hs : (b.zone z).sleep = 1)
    (hm : (b.zone z).minute ≤ 1) :
    ((b.zoneBlock z).zone z).power ≠ .on ∧ ((b.zoneBlock z).zone z).sleep = 0 ∧ ((b.zoneBlock z).zone z).minute = 0
      ∧ ((b.zoneBlock z).zone z).switch = .idle ∧ ((b.zoneBlock z).zone z).target = none := by
  obtain ⟨hpower, -, hsleep, hminute⟩ := (b.levelsMoved z).switchBlock_steady z
  rw [State.levelsMoved_zone] at hpower hsleep hminute
  have hon' := hpower.trans hon
  rw [State.zoneBlock_stages, State.standbyIfSilent_stays (by simp [hon']),
    State.sleepBlock_expires hon' (hsleep.trans hs) (hminute.trans_le hm)]
  exact State.expired_zone ..

end events

/-- Settles O55: each event makes its zone's part, which is that of its stage. -/
theorem zoneEvents : Obligations.ZoneEvents := by
  intro s z hz b r m done awake m1
  have hevent {occurs : State → Bool} {u : State} (ho : occurs b = true) (hu : b.zoneBlock z = u) :
      Host.Outcome.next (zoneEvent z occurs s) = (.next { u with taken := .zone z :: u.taken } :
        Host.Outcome State Fault Refusal) :=
    congrArg Host.Outcome.next (zoneEvent_occurs hz ho hu)
  have hmade {occurs : State → Bool} (ho : occurs b = true) :
      ∃ t, Host.Outcome.next (zoneEvent z occurs s) = (.next t : Host.Outcome State Fault Refusal)
        ∧ (b.zoneBlock z).SameRecords t := ⟨_, hevent ho rfl, State.taken_sameRecords _ _⟩
  clear_value b
  refine ⟨?fadeOutStays, ?fadeOutEnds, ?waitSounds, ?waitMuted, ?absent, ?completeTagged, ?complete, ?standbyFree,
    ?standbyAttached, ?minute, ?expires, ?expiresSounding⟩
  case fadeOutStays =>
    intro p e ⟨hon, hawake⟩ hswitch hramp ht ha hb hnot
    exact hevent (State.fadeOutEndOccurs_of hswitch hramp)
      (State.zoneBlock_fadeOut_stays hon hawake hswitch hramp ht ha hb hnot)
  case fadeOutEnds =>
    intro e ⟨hon, hawake⟩ hswitch hramp ht
    obtain ⟨t, hnext, hsame⟩ := hmade (State.fadeOutEndOccurs_of hswitch hramp)
    obtain ⟨hleft, hkept, hcount, p, ha, hbinding⟩ := State.zoneBlock_fadeOut_arrives hon hawake hswitch hramp ht
    refine ⟨t, hnext, ?_⟩
    rw [hsame.zone z]
    exact ⟨hleft, hkept, hcount, p, ha, (congrArg PathRec.binding (hsame.path p)).trans hbinding⟩
  case waitSounds =>
    intro p ⟨hon, hawake⟩ hswitch ha hready hfree hmute
    exact hevent (State.waitReadyEndOccurs_of hswitch ha hready hfree)
      (State.zoneBlock_waitReady_sounds hon hswitch hawake ha hready hfree hmute)
  case waitMuted =>
    intro p ⟨hon, hawake⟩ hswitch ha hready hfree hmute
    obtain ⟨t, hnext, hsame⟩ := hmade (State.waitReadyEndOccurs_of hswitch ha hready hfree)
    obtain ⟨k, hzone⟩ := State.zoneBlock_waitReady_muted hon hswitch hawake ha hready hfree hmute
    refine ⟨t, hnext, ?_⟩
    rw [hsame.zone z, hzone]
    exact ⟨rfl, rfl, rfl, rfl, ha⟩
  case absent =>
    intro ⟨hon, _⟩ hswitch hcount hnot hsleep
    exact hevent (State.sourceAbsentOccurs_of hswitch hcount hnot)
      (State.zoneBlock_absent hon hswitch hcount hsleep hnot)
  case completeTagged =>
    intro tag hon hsleep hswitch hend htag
    refine hevent (State.switchCompleteOccurs_of hswitch hend) ?_
    rw [State.zoneBlock_completes hon hsleep hswitch hend, htag]
    rfl
  case complete =>
    intro hon hsleep hswitch hend htag
    refine hevent (State.switchCompleteOccurs_of hswitch hend) ?_
    rw [State.zoneBlock_completes hon hsleep hswitch hend, htag]
    rfl
  case standbyFree =>
    intro hpower hswitch hramp ha
    refine hevent (State.goingStandbyEndOccurs_of hpower hramp) ?_
    rw [State.zoneBlock_standby hswitch hpower hramp, State.enterStandby,
      State.detach_none (by rwa [State.levelsMoved_zone]),
      State.levelsMoved_setZone, State.levelsMoved_zone]
    rfl
  case standbyAttached =>
    intro p hpower hswitch hramp ha
    obtain ⟨t, hnext, hsame⟩ := hmade (State.goingStandbyEndOccurs_of hpower hramp)
    obtain ⟨hzone, hother⟩ := (b.levelsMoved z).enterStandby_zone z
    rw [State.zoneBlock_standby hswitch hpower hramp] at hsame
    rw [State.levelsMoved_zone] at hzone
    refine ⟨t, hnext, ?_⟩
    rw [hsame.zone z, hzone, hsame.zone z.other, hother, hsame.path p]
    exact ⟨rfl, rfl, hramp, rfl, rfl, rfl, State.enterStandby_frees (by rwa [State.levelsMoved_zone])⟩
  case minute =>
    intro hon hswitch hs hm
    exact hevent (State.sleepMinuteOccurs_of hon (Nat.ne_zero_of_lt hs) hm)
      (State.zoneBlock_sleepMinute hswitch hon hs hm)
  case expires =>
    intro hon hs hm
    obtain ⟨t, hnext, hsame⟩ := hmade (State.sleepMinuteOccurs_of hon (hs.trans_ne Nat.one_ne_zero) hm)
    refine ⟨t, hnext, ?_⟩
    rw [hsame.zone z]
    exact State.zoneBlock_sleepEnds hon hs hm
  case expiresSounding =>
    intro hon hswitch hs hm hramp
    exact hevent (State.sleepMinuteOccurs_of hon (hs.trans_ne Nat.one_ne_zero) hm)
      (State.zoneBlock_sleepExpires hswitch hon hs hm hramp)

end Sys2Proof.Machine
end

