-- ==== Sys2Proof/Proofs/Retrack.lean ====
section
/-! SUPPORT. RETRACK and SET_DECODE (R107, R113): which of their cases a command is, what a retrigger leaves of a path
that is bound (R101), when the matrix is in effect (R112), and the statement about both. -/

namespace Sys2Proof.Machine

open Sys2Proof

/-! ## RETRACK (R107) -/

/-- A number above 1 names no zone (R198). -/
theorem Zone.ofCode_above {n : Nat} (h : 1 < n) : Zone.ofCode n = none :=
  match n, h with
  | _ + 2, _ => rfl

section retracking
variable {zone : Byte} {z : Zone} {u : State} {p : PathId} (hz : Zone.ofCode zone.toNat = some z)
include hz

/-- RETRACK of a zone whose tracker is in neither ACQUIRE nor TRACK, or that has no path (R107). -/
theorem cmdRetrack_quiet (h : ∀ p, (u.zone z).attached = some p →
    (u.path p).tracker.state ≠ .acquire ∧ (u.path p).tracker.state ≠ .track) : cmdRetrack zone u = done u 0 := by
  rw [cmdRetrack, withZone_named u _ hz]
  cases ha : (u.zone z).attached with
  | none => rfl
  | some p => exact if_neg (not_or.mpr (h p ha))

/-- RETRACK of a zone whose tracker is in ACQUIRE or TRACK (R107). -/
theorem cmdRetrack_retriggers (ha : (u.zone z).attached = some p)
    (hs : (u.path p).tracker.state = .acquire ∨ (u.path p).tracker.state = .track) :
    cmdRetrack zone u = done (u.retrigger p) 1 := by
  rw [cmdRetrack, withZone_named u _ hz]
  simp only [ha]
  exact if_pos hs

end retracking

/-- A retrigger of a bound path reads G and H of its entry (R101). -/
theorem State.retrigger_bound {u : State} {p : PathId} {e : Fin 12} {y : Tracker} (hb : (u.path p).binding = some e)
    (hy : (u.path p).tracker.retrigger (u.source e).gainG (u.source e).ratchetH = y) :
    u.retrigger p = u.setPath p { u.path p with tracker := y } := by
  rw [State.retrigger, u.pathSource_bound p e hb, hy]

/-! ## SET_DECODE (R112, R113) -/

/-- The matrix is in effect in a mode other than DIRECT on FL and FR in either order (R112). -/
theorem matrixOn_iff (m : DecodeMode) (format : Option Format) : matrixOn m format = true ↔
    m ≠ .direct ∧ ∃ f, format = some f ∧ (f.roles = [.fl, .fr] ∨ f.roles = [.fr, .fl]) := by
  cases format with
  | none => simp [matrixOn]
  | some f => simp [matrixOn, Format.stereoPair]

/-- The format of the path that MAIN is attached to, on which the matrix works (R112). -/
def State.matrixFormat (u : State) : Option Format := u.zoneMain.attached.bind fun p => (u.path p).format

/-- The matrix is in effect in a mode, by MAIN's path (R112). -/
theorem State.matrixOn_matrixFormat (u : State) (m : DecodeMode) : matrixOn m u.matrixFormat = true ↔
    m ≠ .direct ∧ ∃ p f, u.zoneMain.attached = some p ∧ (u.path p).format = some f
      ∧ (f.roles = [.fl, .fr] ∨ f.roles = [.fr, .fl]) := by
  rw [matrixOn_iff, State.matrixFormat]
  cases u.zoneMain.attached with
  | none => simp
  | some p => simp

/-- SET_DECODE of ZONE2 (R113). -/
theorem cmdSetDecode_zone2 (mode : Byte) (u : State) : cmdSetDecode 1 mode u = refuse u .badArg := rfl

/-- SET_DECODE of a mode that is none of the three (R113). -/
theorem cmdSetDecode_badMode {mode : Byte} (u : State) (h : DecodeMode.ofCode mode.toNat = none) :
    cmdSetDecode 0 mode u = refuse u .badArg := by
  rw [cmdSetDecode, withZone_named (z := .main) u _ rfl]
  simp only [h]

/-- SET_DECODE of a mode: a new one is taken with energies of 0, and the result says whether the matrix is in effect
(R113, R114, log 33). -/
theorem cmdSetDecode_mode {mode : Byte} {m : DecodeMode} (u : State) (h : DecodeMode.ofCode mode.toNat = some m) :
    cmdSetDecode 0 mode u
      = done (if u.zoneMain.decode = m then u
          else ({ u with zoneMain := { u.zoneMain with decode := m } } : State).zeroEnergies)
        (if matrixOn m u.matrixFormat then 1 else 0) := by
  rw [cmdSetDecode, withZone_named (z := .main) u _ rfl]
  obtain ha | ⟨p, ha⟩ := u.zoneMain.attached.eq_none_or_eq_some
  all_goals
    simp only [h, ha, State.matrixFormat, Option.bind_none, Option.bind_some]
    by_cases hm : u.zoneMain.decode = m
    · rw [if_pos hm, if_pos hm]
    · rw [if_neg hm, if_neg hm]

/-- A number above 2 is no mode (R198). -/
theorem DecodeMode.ofCode_above {n : Nat} (h : 2 < n) : DecodeMode.ofCode n = none :=
  match n, h with
  | _ + 3, _ => rfl

/-- Settles O34: each command is answered with the result of its case, and a retrigger with the tracker of R101. -/
theorem retrackAndDecode : Obligations.RetrackAndDecode := by
  refine ⟨fun s zone hready hz => ?badZone, fun s zone z hready hz => ⟨fun hquiet => ?quiet, fun p e ha hb => ?tracker⟩,
    fun s mode hready => ?zone2, fun s mode hready hm => ?badMode, fun s mode m hready hm => ?mode⟩
  case badZone =>
    exact congrArg Host.Outcome.next (s.runHost_answered id hready rfl (withZone_badArg _ _ (Zone.ofCode_above hz)))
  case quiet =>
    exact congrArg Host.Outcome.next (s.runHost_answered id hready rfl (cmdRetrack_quiet hz (by simpa using hquiet)))
  case tracker =>
    intro t
    have hretriggers (y : Tracker) (hs : t.state = .acquire ∨ t.state = .track)
        (hy : t.retrigger (s.source e).gainG (s.source e).ratchetH = y) :
        exec (.retrack zone) s = .next (s.answered 0x1E zone [] .ok 1 fun u =>
          u.setPath p { s.path p with tracker := y }) := by
      refine congrArg Host.Outcome.next (s.runHost_answered (fun u => u.setPath p { s.path p with tracker := y })
        hready rfl ((cmdRetrack_retriggers hz (by simpa using ha) (by simpa using hs)).trans ?_))
      rw [State.retrigger_bound (e := e) (y := y) (by simpa using hb) (by simpa using hy), State.handOver_pathAt]
      rfl
    obtain ⟨hfirst, hcrossed, htrack, -⟩ := t.retrigger_cases (s.source e).gainG (s.source e).ratchetH
    exact ⟨fun hs hr => hretriggers _ (.inl hs) (hfirst hs hr), fun hs hr => hretriggers _ (.inl hs) (hcrossed hs hr),
      fun hs => hretriggers _ (.inr hs) (htrack hs)⟩
  case zone2 =>
    exact congrArg Host.Outcome.next (s.runHost_answered id hready rfl (cmdSetDecode_zone2 ..))
  case badMode =>
    exact congrArg Host.Outcome.next (s.runHost_answered id hready rfl
      (cmdSetDecode_badMode _ (DecodeMode.ofCode_above hm)))
  case mode =>
    have hformat : (s.handOver 0x1F 0 [mode]).matrixFormat = s.matrixFormat := by simp [State.matrixFormat]
    refine ⟨if matrixOn m s.matrixFormat then 1 else 0, ?effect, ?bit, ?answer⟩
    case effect =>
      rw [← s.matrixOn_matrixFormat m]
      split_ifs with hon
      · simp [hon]
      · simp [hon]
    case bit =>
      split_ifs
      · exact .inr rfl
      · exact .inl rfl
    case answer =>
      refine congrArg Host.Outcome.next (s.runHost_answered (fun u => if s.zoneMain.decode = m then u
        else { u with
          zoneMain := { s.zoneMain with decode := m }
          mixer := { u.mixer with eL := 0, eR := 0, eM := 0, eS := 0 } }) hready rfl
        ((cmdSetDecode_mode _ hm).trans ?_))
      rw [State.handOver_zoneMain, hformat]
      generalize s.handOver 0x1F 0 [mode] = u
      rfl

end Sys2Proof.Machine
end

