-- ==== Sys2Proof/Proofs/PathEvents.lean ====
section
/-! SUPPORT. The rate tracker's loop (R96, R97), a block's consumption with its silence, and the events of a path (R93,
R99 to R106), each by what it leaves of the path's record; and the statement about them. -/

namespace Sys2Proof.Machine

open Sys2Proof

/-! ## The loop (R96, R97) -/

/-- I after a block's loop at a gain (R97). -/
def Tracker.nextInteg (t : Tracker) (ki g : Nat) : Int :=
  max (-8388608) (min 8388607 (t.integ + t.err * (ki * 2 ^ g : Nat)))

/-- c after a block's loop at a gain, within a limit (R97). -/
def Tracker.nextCorr (t : Tracker) (kp ki g c : Nat) : Int :=
  max (-(c : Int)) (min c ((t.err * (kp * 2 ^ g : Nat) + t.nextInteg ki g) / 16))

/-- The loop of a tracker that has a format (R97). -/
theorem Tracker.loop_eq (t : Tracker) (kp ki : Nat) {n c : Nat} (hn : t.step0 = some n) (hc : t.cmax = some c) :
    t.loop kp ki = { t with
      integ := t.nextInteg ki t.gain, corr := t.nextCorr kp ki t.gain c
      step := some ((n : Int) + t.nextCorr kp ki t.gain c).toNat
      last := { t.last with c := t.nextCorr kp ki t.gain c, g := t.gain, i := t.nextInteg ki t.gain } } := by
  have hinteg (x : Int) : clampInt (-8388608) 8388607 x = max (-8388608) (min 8388607 x) :=
    clampInt_eq _ _ _ (by decide)
  have hcorr (x : Int) : clampInt (-(c : Int)) c x = max (-(c : Int)) (min c x) := clampInt_eq _ _ _ (by omega)
  simp only [Tracker.loop, hn, hc, Option.getD_some, Option.map_some, hinteg, hcorr]
  rfl

theorem Tracker.nextCorr_le (t : Tracker) (kp ki g c : Nat) : t.nextCorr kp ki g c ≤ c := by
  unfold Tracker.nextCorr
  omega

/-- The loop's step stays below three frames (R96, R98). -/
theorem Tracker.BoundsOk.nextStep_lt {t : Tracker} (h : t.BoundsOk) {n c : Nat} (hn : t.step0 = some n)
    (hc : t.cmax = some c) {corr : Int} (hle : corr ≤ c) : ((n : Int) + corr).toNat < 3 * 2 ^ 24 := by
  obtain ⟨hnom, hlim⟩ := h.nominal n hn
  have hcn : c = n / 512 := Option.some.inj (hc.symm.trans hlim)
  omega

/-- Three frames for each output frame are enough for a block (R98). -/
theorem blockFrames_le {phase step : Nat} (hp : phase < 2 ^ 24) (hs : step < 3 * 2 ^ 24) :
    (phase + 48 * step) / 2 ^ 24 ≤ 144 := by omega

/-! ## Consumption (R98, R103) -/

/-- A block's frames, formed and silent, are 48 (R98). -/
theorem fillBlock_length {out : List Frame} (h : out.length ≤ 48) : (fillBlock out).length = 48 := by
  rw [fillBlock, List.length_append, List.length_replicate]
  omega

/-- The rest of a block that ran short is silence (R98). -/
theorem fillBlock_drop (out : List Frame) : (fillBlock out).drop out.length = List.replicate (48 - out.length) [] :=
  List.drop_left ..

section consuming
variable {s : State} {p : PathId} {m : Nat} (hm : (s.path p).tracker.step = some m)
  (hp : (s.path p).tracker.phase < 2 ^ 24) (hs : m < 3 * 2 ^ 24)
include hm hp hs

/-- A block that finds its N frames takes them and yields 48 frames (R98, R104). -/
theorem State.consumeBlock_takes
    (hk : ((s.path p).tracker.phase + 48 * m) / 2 ^ 24 ≤ (s.path p).fifo.length) :
    let r := s.path p
    let total := r.tracker.phase + 48 * m
    ∃ q : PathRec, s.consumeBlock p = s.setPath p q ∧ q.yielded.length = 48
      ∧ q = { r with
        fifo := r.fifo.drop (total / 2 ^ 24), history := q.history, yielded := q.yielded, yieldFormat := r.format
        tracker := { r.tracker with
          phase := total % 2 ^ 24
          overrun := r.tracker.overrun && decide (2048 ≤ r.fifo.length - total / 2 ^ 24) } } := by
  obtain ⟨g, out, hout, hc⟩ := s.consumption_enough p m hm hp hs hk
  refine ⟨(s.path p).consumed (s.consumption p), s.consumeBlock_fed p (by rw [hc]), ?_, ?_⟩
  · rw [hc]
    exact fillBlock_length hout.le
  · simp only [PathRec.consumed, hc, List.length_drop]

/-- A block that runs short takes all frames, and is silence from the first output frame that finds none (R98). -/
theorem State.consumption_runsShort
    (hk : (s.path p).fifo.length < ((s.path p).tracker.phase + 48 * m) / 2 ^ 24) :
    let r := s.path p
    let q := r.consumed (s.consumption p)
    (s.consumption p).starved = true ∧ ∃ k, k < 48 ∧ (r.tracker.phase + k * m) / 2 ^ 24 ≤ r.fifo.length
      ∧ r.fifo.length < (r.tracker.phase + (k + 1) * m) / 2 ^ 24
      ∧ q.yielded.length = 48 ∧ q.yielded.drop k = List.replicate (48 - k) []
      ∧ q = { r with
        fifo := [], history := q.history, yielded := q.yielded, yieldFormat := r.format
        tracker := { r.tracker with phase := q.tracker.phase, overrun := false } } := by
  obtain ⟨f, g, out, -, hout, hfits, hlacks, hc⟩ := s.consumption_short p m hm hp hs hk
  rw [hc]
  refine ⟨rfl, out.length, hout, hfits, hlacks, fillBlock_length hout.le, fillBlock_drop out, ?_⟩
  simp [PathRec.consumed]

end consuming

/-- An underrun puts the path in PREFILL and reports the values of the last computed block (R103, R108). -/
theorem State.underrun_eq (s : State) (p : PathId) (q : PathRec) :
    (s.setPath p q).underrun p
      = (s.setPath p q.enterPrefill).raise .tracker p.code (trackerPayload p q .underrun .prefill) := by
  rw [State.underrun, State.path_setPath_same, State.setPath_setPath]

/-- What the consumption of a block leaves of a tracker that is in HOLD and has no format pending (R98, R105). -/
theorem State.consumeBlock_holds {s : State} {p : PathId} (hf : (s.path p).formatPending = false)
    (hs : (s.path p).tracker.state = .hold) :
    ∃ f o, ((s.consumeBlock p).path p).tracker = { (s.path p).tracker with phase := f, overrun := o } := by
  by_cases hc : (s.consumption p).starved = false
  · rw [s.consumeBlock_fed p hc, State.path_setPath_same]
    exact ⟨_, _, rfl⟩
  · rw [s.consumeBlock_drains p (by simpa using hc) hf hs, State.path_setPath_same]
    exact ⟨_, _, rfl⟩

/-- A block in HOLD keeps the tracker but for the phase and the overrun episode (R105). -/
theorem State.holdBlock_keeps {s : State} {p : PathId} (hf : (s.path p).formatPending = false)
    (hs : (s.path p).tracker.state = .hold) :
    ∃ f o, ((s.holdBlock p).path p).tracker = { (s.path p).tracker with phase := f, overrun := o } := by
  by_cases hd : (s.path p).drained = true
  · rw [State.holdBlock, if_pos hd, State.path_setPath_same]
    exact ⟨_, _, rfl⟩
  · rw [State.holdBlock, if_neg hd]
    exact State.consumeBlock_holds hf hs

/-! ## The opening of a path's part (R93, R95) -/

/-- A path's part opens by taking e, and keeps the rest of the tracker but the values of the last computed block
(R95). -/
theorem State.opened_path (b : State) (p : PathId) :
    let u := (b.countHandover p).takeB p
    ∃ v, u.path p = { b.path p with
      adoptedNow := false
      tracker := { (b.path p).tracker with
        err := max (-1024) (min 1023 ((u.buffered p : Int) - (u.fillTarget p : Int))), last := v } } :=
  ⟨_, (b.takeB_path p).trans (by rw [b.blockError_eq])⟩

/-- What the opening of a path's part keeps of the record. -/
theorem State.opened_keeps (b : State) (p : PathId) :
    let u := (b.countHandover p).takeB p
    let x := (b.path p).tracker
    let y := (u.path p).tracker
    y.state = x.state ∧ y.step0 = x.step0 ∧ y.cmax = x.cmax ∧ y.slips = x.slips
      ∧ (u.path p).fifo = (b.path p).fifo ∧ (u.path p).format = (b.path p).format
      ∧ (u.path p).formatPending = (b.path p).formatPending ∧ (x.BoundsOk → y.BoundsOk) := by
  intro u x y
  obtain ⟨v, hu⟩ := b.opened_path p
  have hy : y = _ := congrArg PathRec.tracker hu
  rw [hy, show u.path p = _ from hu]
  exact ⟨rfl, rfl, rfl, rfl, rfl, rfl, rfl,
    fun h => ⟨h.corr, h.integLow, h.integHigh, h.gain, h.phase, h.nominal, h.step⟩⟩

section opened
variable {b : State} {p : PathId} {e : Fin 12}

/-- The entry that a path's part reads after its opening. -/
theorem State.opened_pathSource (hb : (b.path p).binding = some e) :
    ((b.countHandover p).takeB p).pathSource p = b.source e := by
  obtain ⟨v, hu⟩ := b.opened_path p
  rw [State.pathSource_bound _ p e (by rw [hu]; exact hb), State.takeB_source, State.countHandover_source]

theorem State.opened_pathKind (hb : (b.path p).binding = some e) :
    ((b.countHandover p).takeB p).pathKind p = (b.source e).kind := by
  obtain ⟨v, hu⟩ := b.opened_path p
  rw [State.pathKind_bound _ p e (by rw [hu]; exact hb), State.takeB_source, State.countHandover_source]

/-- A path adopts in silence where a change is pending and all its zones are silent (R93). -/
theorem State.opened_silentAdoption :
    ((b.countHandover p).takeB p).silentAdoption p = true ↔
      (b.path p).formatPending = true ∧ b.attachedSilent p = true := by
  rw [State.silentAdoption_opened, State.attachedSilent_iff]

theorem State.opened_not_silentAdoption (hs : ¬ ((b.path p).formatPending = true ∧ b.attachedSilent p = true)) :
    ((b.countHandover p).takeB p).silentAdoption p = false :=
  Bool.eq_false_iff.mpr (mt State.opened_silentAdoption.mp hs)

/-- The part of a bound path that adopts nothing in silence is its tracker's block. -/
theorem State.pathBlock_tracks (hb : (b.path p).binding = some e)
    (hs : ¬ ((b.path p).formatPending = true ∧ b.attachedSilent p = true)) :
    b.pathBlock p = ((b.countHandover p).takeB p).trackerBlock p :=
  (b.pathBlock_bound p (by simp [hb])).trans (if_neg (mt State.opened_silentAdoption.mp hs))

/-- The record of a path that adopts its held format in silence (R93). -/
theorem State.pathBlock_adopts {f : Format} (hb : (b.path p).binding ≠ none) (hf : (b.path p).formatPending = true)
    (hs : b.attachedSilent p = true) (hh : (b.path p).held = some f) :
    (b.pathBlock p).path p = ((((b.countHandover p).takeB p).path p).adopt f).yieldSilence := by
  obtain ⟨v, hu⟩ := b.opened_path p
  have hblock := (b.pathBlock_bound p hb).trans (if_pos (State.opened_silentAdoption.mpr ⟨hf, hs⟩))
  rw [hblock, State.path_setPath_same]
  exact congrArg PathRec.yieldSilence (State.adoptFormat_held _ p f (by rw [hu]; exact hh)).1

end opened

/-! ## A block that runs the loop (R97, R98) -/

/-- A tracker after the loop and the consumption of a block of its own step (R97, R98): what stays open is what the
block reports and whether the overrun episode ends. -/
def Tracker.After (x : Tracker) (src : SourceEntry) (n c : Nat) (y : Tracker) : Prop :=
  let m := ((n : Int) + x.nextCorr src.kp src.ki x.gain c).toNat
  ∃ last overrun, y = { x with
    integ := x.nextInteg src.ki x.gain, corr := x.nextCorr src.kp src.ki x.gain c, step := some m
    phase := (x.phase + 48 * m) % 2 ^ 24, last := last, overrun := overrun }

section running
variable {u : State} {p : PathId} {src : SourceEntry} {n c : Nat} (hsrc : u.pathSource p = src)
  (hn : (u.path p).tracker.step0 = some n) (hc : (u.path p).tracker.cmax = some c)
  (hp : (u.path p).tracker.phase < 2 ^ 24)
  (hm : ((n : Int) + (u.path p).tracker.nextCorr src.kp src.ki (u.path p).tracker.gain c).toNat < 3 * 2 ^ 24)
include hsrc hn hc hp hm

/-- A block in ACQUIRE that does not run short ends with the timer's step on what the loop and the consumption leave
(R97, R98, R100). -/
theorem State.acquireBlock_runs (ha : (u.path p).tracker.state = .acquire) :
    let x := (u.path p).tracker
    let total := x.phase + 48 * ((n : Int) + x.nextCorr src.kp src.ki x.gain c).toNat
    total / 2 ^ 24 ≤ (u.path p).fifo.length →
      ((u.acquireBlock p).path p).fifo = (u.path p).fifo.drop (total / 2 ^ 24)
      ∧ ∃ y, x.After src n c y
        ∧ ((u.acquireBlock p).path p).tracker = y.acquireTick src.ratchetH src.lockW := by
  intro x total hk
  have hloop := x.loop_eq src.kp src.ki hn hc
  obtain ⟨q, hq, hblock⟩ := u.acquireBlock_enough p _ _ (hloop.symm.trans (by rw [hsrc])) ha rfl hp hm hk
  have hpath : (u.acquireBlock p).path p = { q with tracker := q.tracker.acquireTick src.ratchetH src.lockW } := by
    rw [hblock, hsrc]
    dsimp only
    split_ifs
    · rw [State.raise_path, State.path_setPath_same]
    · rw [State.path_setPath_same]
  rw [hpath]
  exact ⟨congrArg PathRec.fifo hq, q.tracker, ⟨_, _, congrArg PathRec.tracker hq⟩, rfl⟩

/-- A slip, in a block that does not run short (R102, log 53). -/
theorem State.trackBlock_slipped (hs : (u.path p).tracker.state = .track)
    (hw : 4 * src.lockW < (u.path p).tracker.err.natAbs) (hcount : 15 ≤ (u.path p).tracker.slips)
    (hk : 144 ≤ (u.path p).fifo.length) :
    ∃ y, (u.path p).tracker.After src n c y
      ∧ ((u.trackBlock p).path p).tracker
        = { y with state := .acquire, timer := 256, ratchet := true, gain := src.ratchetH, slips := 0 } := by
  obtain ⟨-, -, hslips⟩ := u.trackBlock_cases p src hsrc
  have hloop := (u.path p).tracker.loop_eq src.kp src.ki hn hc
  rw [hslips hs hw hcount, hloop]
  generalize hv : State.raise _ _ _ _ = v
  have hr := (congrArg (fun t => t.path p) hv.symm).trans ((State.raise_path ..).trans (State.path_setPath_same ..))
  have hfits := (blockFrames_le hp hm).trans hk
  obtain ⟨q, hblock, hq⟩ := v.consumeBlock_enough p _ (by rw [hr]) (by rw [hr]; exact hp) hm (by rw [hr]; exact hfits)
  rw [hblock, State.path_setPath_same, hq, hr]
  exact ⟨_, ⟨_, _, rfl⟩, rfl⟩

end running

/-- The end of a block in ACQUIRE keeps what the loop and the consumption gave (R100). -/
theorem Tracker.acquireTick_keeps (z : Tracker) (h w : Nat) :
    let t := z.acquireTick h w
    t.err = z.err ∧ t.integ = z.integ ∧ t.corr = z.corr ∧ t.step = z.step ∧ t.phase = z.phase := by
  unfold Tracker.acquireTick
  dsimp only
  split_ifs
  all_goals exact ⟨rfl, rfl, rfl, rfl, rfl⟩

/-- A new record of a path with the same binding reads the same entry. -/
theorem State.setPath_pathSource (u : State) (p : PathId) {r : PathRec} (h : r.binding = (u.path p).binding) :
    (u.setPath p r).pathSource p = u.pathSource p := by
  simp [State.pathSource, State.source, h]

section leaving
variable {u : State} {p : PathId} (hx : (u.path p).tracker.state = .prefill) (hl : u.prefillLeaves p = true)
include hx hl

/-- A tuner path leaves PREFILL for SYNC, and takes 48 frames (R99, R106). -/
theorem State.trackerBlock_syncs (hk : u.pathKind p = .tuner) (hf : 48 ≤ (u.path p).fifo.length) :
    ((u.trackerBlock p).path p).fifo = (u.path p).fifo.drop 48
      ∧ ∃ o, ((u.trackerBlock p).path p).tracker = { (u.path p).tracker.startSync with phase := 0, overrun := o } := by
  have hblock := u.trackerBlock_prefill p hx
  dsimp only at hblock
  rw [if_neg (by simp [hl]), if_pos hk] at hblock
  have hframes : (0 + 48 * 2 ^ 24) / 2 ^ 24 = 48 := by norm_num
  have hphase : (0 + 48 * 2 ^ 24) % 2 ^ 24 = 0 := by norm_num
  obtain ⟨q, htakes, hq⟩ := State.consumeBlock_enough
    (u.setPath p { u.path p with tracker := (u.path p).tracker.startSync }) p (2 ^ 24)
    (by rw [State.path_setPath_same]; rfl) (by rw [State.path_setPath_same]; exact Nat.two_pow_pos 24) (by decide)
    (by rw [State.path_setPath_same]; exact hframes.trans_le hf)
  simp only [State.path_setPath_same, Tracker.startSync, hframes, hphase] at hq
  rw [hblock, htakes, State.path_setPath_same]
  exact ⟨congrArg PathRec.fifo hq, _, congrArg PathRec.tracker hq⟩

/-- Any other path leaves PREFILL for ACQUIRE, whose first block runs at once (R99, R100). -/
theorem State.trackerBlock_acquires {src : SourceEntry} {n c : Nat} (hk : u.pathKind p ≠ .tuner)
    (hsrc : u.pathSource p = src) (hn : (u.path p).tracker.step0 = some n) (hc : (u.path p).tracker.cmax = some c)
    (hb : (u.path p).tracker.BoundsOk) (hf : 144 ≤ (u.path p).fifo.length) :
    ∃ y, ((u.path p).tracker.startAcquire src.gainG src.ratchetH).After src n c y
      ∧ ((u.trackerBlock p).path p).tracker = { y with timer := 255 } := by
  have hblock := u.trackerBlock_prefill p hx
  dsimp only at hblock
  rw [if_neg (by simp [hl]), if_neg hk, hsrc] at hblock
  generalize hv : u.setPath p { u.path p with tracker := (u.path p).tracker.startAcquire src.gainG src.ratchetH } = v
    at hblock
  have hr : v.path p = { u.path p with tracker := (u.path p).tracker.startAcquire src.gainG src.ratchetH } :=
    hv ▸ State.path_setPath_same ..
  have hstep := hb.nextStep_lt hn hc (Tracker.nextCorr_le
    ((u.path p).tracker.startAcquire src.gainG src.ratchetH) src.kp src.ki src.gainG c)
  obtain ⟨-, y, hy, ht⟩ := State.acquireBlock_runs (u := v) (p := p) (src := src) (n := n) (c := c)
    (by rw [← hv, State.setPath_pathSource _ _ (by rfl), hsrc])
    (by rw [hr]; exact hn) (by rw [hr]; exact hc) (by rw [hr]; exact hb.phase) (by rw [hr]; exact hstep)
    (by rw [hr]; rfl) (by rw [hr]; exact (blockFrames_le hb.phase hstep).trans hf)
  rw [hr] at hy
  have htimer : y.timer = 256 := by
    obtain ⟨_, _, rfl⟩ := hy
    rfl
  obtain ⟨-, hfalls, -⟩ := y.acquireTick_cases src.ratchetH src.lockW
  rw [htimer] at hfalls
  exact ⟨y, hy, by rw [hblock, ht, hfalls (by decide)]⟩

end leaving

/-! ## When the events occur (log 2) -/

/-- A path's event that occurs makes the path's part. -/
theorem pathEvent_makes {s : State} {p : PathId} {occurs : State → PathId → Bool} (h : BlockPart.path p ∉ s.taken)
    (ho : occurs s.lanesMade p = true) :
    ∃ t, (.next (pathEvent p occurs s) : Host.Outcome State Fault Refusal) = .next t
      ∧ t.path p = (s.lanesMade.pathBlock p).path p := by
  obtain ⟨t, hnext, hpath⟩ := pathEvent_next s p occurs h ho
  exact ⟨t, congrArg Host.Outcome.next hnext, hpath⟩

/-- A path's event that does not occur changes nothing. -/
theorem pathEvent_quiet {s : State} {p : PathId} {occurs : State → PathId → Bool} (h : ¬ occurs s.lanesMade p = true) :
    (.next (pathEvent p occurs s) : Host.Outcome State Fault Refusal) = .next s :=
  congrArg Host.Outcome.next (blockEvent_none _ _ _ _ s (.inr (Bool.eq_false_iff.mpr h)))

section occurrence
variable {b : State} {p : PathId}

theorem State.gainCheckOccurs_iff : b.gainCheckOccurs p = true ↔
    let t := ((b.pathBlock p).path p).tracker
    (b.path p).tracker.state = .acquire ∧ t.state = .acquire ∧ t.timer ∈ [224, 192, 160, 128, 96, 64, 32]
      ∧ t.err.natAbs ≤ (b.pathSource p).lockW := by
  simp only [State.gainCheckOccurs, Bool.and_eq_true, decide_eq_true_eq, checkpoint_iff, withinLock, and_assoc]

theorem State.acquireLockOccurs_iff : b.acquireLockOccurs p = true ↔
    (b.path p).tracker.state = .acquire ∧ ((b.pathBlock p).path p).tracker.state = .track := by
  simp only [State.acquireLockOccurs, Bool.and_eq_true, decide_eq_true_eq]

variable (hs : ¬ ((b.path p).formatPending = true ∧ b.attachedSilent p = true))
include hs

theorem State.prefillExitOccurs_of (hx : (b.path p).tracker.state = .prefill)
    (hl : ((b.countHandover p).takeB p).prefillLeaves p = true) : b.prefillExitOccurs p = true := by
  simp [State.prefillExitOccurs, State.opened_not_silentAdoption hs, hx, hl]

theorem State.slipOccurs_of (hp : ((b.countHandover p).takeB p).present p = true) {t : Tracker}
    (ht : (((b.countHandover p).takeB p).path p).tracker = t) (hx : t.state = .track) (hc : 15 ≤ t.slips)
    (hw : 4 * (b.pathSource p).lockW < t.err.natAbs) : b.slipOccurs p = true := by
  have hcount : 16 ≤ t.slips + 1 := by omega
  have hout : withinLock t.err (4 * (b.pathSource p).lockW) = false := by simpa [withinLock] using hw
  simp [State.slipOccurs, State.opened_not_silentAdoption hs, hp, ht, hx, hcount, hout]

theorem State.holdEntryOccurs_of {e : Fin 12} (hb : (b.path p).binding = some e)
    (hp : ((b.countHandover p).takeB p).present p = false)
    (hx : (b.path p).tracker.state = .acquire ∨ (b.path p).tracker.state = .track
      ∨ (b.path p).tracker.state = .sync) : b.holdEntryOccurs p = true := by
  simp [State.holdEntryOccurs, State.opened_not_silentAdoption hs, hb, hp, (trackerReady_iff _).mpr hx]

theorem State.holdExitOccurs_of (hp : ((b.countHandover p).takeB p).present p = true)
    (hx : (b.path p).tracker.state = .hold) : b.holdExitOccurs p = true := by
  simp [State.holdExitOccurs, State.opened_not_silentAdoption hs, hp, hx]

end occurrence

/-! ## A block in ACQUIRE, its tracker (R100) -/

section ends
variable {x y : Tracker} {src : SourceEntry} {n c : Nat} (h : x.After src n c y)
include h

/-- A block in ACQUIRE leaves e, I, c, the step and the phase of its loop and its consumption (R97, R98). -/
theorem Tracker.After.ran :
    let m := ((n : Int) + x.nextCorr src.kp src.ki x.gain c).toNat
    let t := y.acquireTick src.ratchetH src.lockW
    t.err = x.err ∧ t.integ = x.nextInteg src.ki x.gain ∧ t.corr = x.nextCorr src.kp src.ki x.gain c
      ∧ t.step = some m ∧ t.phase = (x.phase + 48 * m) % 2 ^ 24 := by
  intro m t
  have hkeeps := y.acquireTick_keeps src.ratchetH src.lockW
  obtain ⟨l, o, rfl⟩ := h
  exact hkeeps

/-- A checkpoint with e within W halves the gain (R100). -/
theorem Tracker.After.checks (ht : x.timer - 1 ∈ [224, 192, 160, 128, 96, 64, 32]) (hw : x.err.natAbs ≤ src.lockW) :
    let t := y.acquireTick src.ratchetH src.lockW
    t.state = x.state ∧ t.timer = x.timer - 1 ∧ t.gain = x.gain - 1
      ∧ (t.ratchet = true ↔ x.ratchet = true ∨ x.gain - 1 ≤ src.ratchetH) := by
  intro t
  obtain ⟨-, -, hchecks⟩ := y.acquireTick_cases src.ratchetH src.lockW
  obtain ⟨l, o, rfl⟩ := h
  have htick := hchecks ht
  dsimp only at htick
  rw [if_pos hw] at htick
  rw [show t = _ from htick]
  exact ⟨rfl, rfl, rfl, by simp⟩

/-- The last block in ACQUIRE enters TRACK (R100). -/
theorem Tracker.After.locks (ht : x.timer - 1 = 0) :
    let t := y.acquireTick src.ratchetH src.lockW
    t.state = .track ∧ t.gain = 0 ∧ t.ratchet = true ∧ t.slips = 0 ∧ t.timer = 0 := by
  intro t
  obtain ⟨hlocks, -, -⟩ := y.acquireTick_cases src.ratchetH src.lockW
  obtain ⟨l, o, rfl⟩ := h
  rw [show t = _ from hlocks ht]
  exact ⟨rfl, rfl, rfl, rfl, rfl⟩

end ends

/-- A timer that is one above a checkpoint (R100). -/
theorem timer_above_checkpoint (k : Nat) :
    k ∈ [225, 193, 161, 129, 97, 65, 33] ↔ k - 1 ∈ [224, 192, 160, 128, 96, 64, 32] := by
  simp only [List.mem_cons, List.not_mem_nil, or_false]
  omega

section needs
variable {b : State} {p : PathId} {e : Fin 12} (hb : (b.path p).binding = some e)
include hb

/-- GAIN_CHECK occurs only from a timer about to reach a checkpoint with e within W (R100). -/
theorem State.gainCheckOccurs_needs (hheld : (b.path p).formatPending = true → (b.path p).held ≠ none)
    (ho : b.gainCheckOccurs p = true) :
    (b.path p).tracker.state = .acquire ∧ (b.path p).tracker.timer ∈ [225, 193, 161, 129, 97, 65, 33]
      ∧ ((b.countHandover p).blockError p).natAbs ≤ (b.pathSource p).lockW := by
  obtain ⟨hx, ha, hmem, herr⟩ := State.gainCheckOccurs_iff.mp ho
  obtain h | h | ⟨-, h⟩ | ⟨-, hn | ⟨hrun, htimer, he⟩⟩ := b.pathBlock_acquire p e hb hx
  case inr.inr.inr.inl => exact absurd hn.2 (hheld hn.1)
  case inr.inr.inr.inr =>
    rw [htimer] at hmem
    rw [he] at herr
    exact ⟨hx, (timer_above_checkpoint _).mpr hmem, herr⟩
  all_goals
    rw [h] at ha
    cases ha

/-- ACQUIRE_LOCK occurs only from a timer about to reach 0 (R100). -/
theorem State.acquireLockOccurs_needs (ho : b.acquireLockOccurs p = true) :
    (b.path p).tracker.state = .acquire ∧ (b.path p).tracker.timer ≤ 1 := by
  obtain ⟨hx, ht⟩ := State.acquireLockOccurs_iff.mp ho
  obtain h | h | ⟨hend, -⟩ | ⟨h, -⟩ := b.pathBlock_acquire p e hb hx
  case inr.inr.inl => exact ⟨hx, hend⟩
  all_goals
    rw [h] at ht
    cases ht

end needs

/-- A tracker that runs while its source is absent goes to HOLD as it stands (R105, log 55). -/
theorem State.trackerBlock_toHold {u : State} {p : PathId} (hf : (u.path p).formatPending = false)
    (hp : u.present p = false)
    (hx : (u.path p).tracker.state = .acquire ∨ (u.path p).tracker.state = .track
      ∨ (u.path p).tracker.state = .sync) :
    ∃ f o, ((u.trackerBlock p).path p).tracker
      = { (u.path p).tracker with state := .hold, phase := f, overrun := o } := by
  rw [u.trackerBlock_absent p hx hp]
  generalize hv : u.setPath p { u.path p with tracker := { (u.path p).tracker with state := .hold } } = v
  have hr : v.path p = { u.path p with tracker := { (u.path p).tracker with state := .hold } } :=
    hv ▸ State.path_setPath_same ..
  obtain ⟨f, o, ht⟩ := State.holdBlock_keeps (s := v) (p := p) (by rw [hr]; exact hf) (by rw [hr])
  exact ⟨f, o, ht.trans (by rw [hr])⟩

/-! ## The statement -/

/-- Settles O56: each event's part, by the rules of the tracker's block. -/
theorem pathEvents : Obligations.PathEvents := by
  refine ⟨fun t kp ki n c hn hc => t.loop_eq kp ki hn hc, fun s p m => ?consumption, fun s p f hk => ?adoption,
    fun s p e hk => ?tracker, fun r => ⟨rfl, by cases r <;> rfl⟩⟩
  case consumption =>
    intro r x total hm hp hs
    refine ⟨s.consumeBlock_takes hm hp hs, fun hk => ?_⟩
    obtain ⟨hstarved, k, hlt, hfits, hlacks, hlength, hsilent, hq⟩ := s.consumption_runsShort hm hp hs hk
    refine ⟨_, k, hlt, hfits, hlacks, hlength, hsilent, hq, fun hf => s.consumeBlock_adopts p hstarved hf,
      fun hf hh => ?_, fun hf hh => ?_⟩
    · rw [s.consumeBlock_drains p hstarved hf hh, State.setPath_setPath]
    · rw [s.consumeBlock_underruns p hstarved hf hh, State.underrun_eq]
      rfl
  case adoption =>
    intro b hb hf hs hh
    have hpart := State.pathBlock_adopts hb hf hs hh
    have hoccurs : b.adoptionOccurs p = true := by
      rw [State.adoptionOccurs, hpart, hf]
      rfl
    obtain ⟨t, hnext, hpath⟩ := pathEvent_makes hk hoccurs
    refine ⟨t, hnext, ?_⟩
    rw [hpath, hpart]
    exact ⟨rfl, rfl, rfl, rfl, rfl, rfl, rfl⟩
  case tracker =>
    intro b hb u x err silent src integ corr
    obtain ⟨v, hu⟩ := b.opened_path p
    have hupath : u.path p = { b.path p with adoptedNow := false, tracker := { x with err := err, last := v } } := hu
    have hsrc : u.pathSource p = src := State.opened_pathSource hb
    have hkind : u.pathKind p = src.kind := State.opened_pathKind hb
    have hlock : b.pathSource p = src := b.pathSource_bound p e hb
    have hmakes {occurs : State → PathId → Bool} (ho : occurs b p = true) :
        ∃ t, (.next (pathEvent p occurs s) : Host.Outcome State Fault Refusal) = .next t
          ∧ t.path p = (b.pathBlock p).path p := pathEvent_makes hk ho
    have hquiet {occurs : State → PathId → Bool} (ho : ¬ occurs b p = true) :
        (.next (pathEvent p occurs s) : Host.Outcome State Fault Refusal) = .next s := pathEvent_quiet ho
    clear_value src b
    have htracks (hs : ¬ silent) : b.pathBlock p = u.trackerBlock p := State.pathBlock_tracks hb hs
    have hopened : (u.path p).tracker = { x with err := err, last := v } := congrArg PathRec.tracker hu
    obtain ⟨hstate, hstep0, hcmax, hslips, hfifo, hformat, hpending, hbounds⟩ := b.opened_keeps p
    have hleaves (hp : u.present p = true) (hf : (b.path p).format ≠ none) (hfill : u.fillTarget p ≤ u.buffered p) :
        u.prefillLeaves p = true := (u.prefillLeaves_iff p).mpr ⟨hformat ▸ hf, hfill, hp⟩
    refine ⟨fun hx hs hp hf htuner hfill hlen => ?syncs, fun n c hx hs hp hf htuner hfill hbd hn hc hlen => ?acquires,
      fun n c hx hs hp hbd hn hc => ?acquiring, fun hheld hnot => ?noCheck, fun hnot => ?noLock,
      fun n c hx hs hp hcount hw hbd hn hc hlen => ?slips, fun hx hf hp => ?holds, fun hx hs hp => ?returns⟩
    case syncs =>
      have hl := hleaves hp hf hfill
      obtain ⟨t, hnext, hpath⟩ := hmakes (State.prefillExitOccurs_of hs hx hl)
      obtain ⟨hdrop, o, htracker⟩ := State.trackerBlock_syncs (hstate.trans hx) hl (hkind.trans htuner) (hfifo ▸ hlen)
      refine ⟨t, hnext, ?_⟩
      rw [hpath, htracks hs, htracker, hdrop, hupath]
      exact ⟨rfl, rfl, rfl, rfl, rfl, rfl, rfl⟩
    case acquires =>
      have hl := hleaves hp hf hfill
      obtain ⟨t, hnext, hpath⟩ := hmakes (State.prefillExitOccurs_of hs hx hl)
      obtain ⟨y, ⟨l, o, hy⟩, htracker⟩ := State.trackerBlock_acquires (hstate.trans hx) hl (hkind ▸ htuner) hsrc
        (hstep0.trans hn) (hcmax.trans hc) (hbounds hbd) (hfifo ▸ hlen)
      refine ⟨t, hnext, ?_⟩
      rw [hpath, htracks hs, htracker, hy, hupath]
      exact ⟨rfl, rfl, rfl, decide_eq_true_iff, rfl, rfl, rfl, rfl⟩
    case acquiring =>
      intro m total htotal ran
      have hle : corr x.gain c ≤ c := by
        simp only [corr]
        omega
      have hstep : m < 3 * 2 ^ 24 := hbd.nextStep_lt hn hc hle
      obtain ⟨hdrop, y, hafter, htracker⟩ := State.acquireBlock_runs hsrc (hstep0.trans hn) (hcmax.trans hc)
        (hbounds hbd).phase (by rw [hupath]; exact hstep) (hstate.trans hx) (by rw [hupath]; exact htotal)
      rw [hupath] at hdrop hafter
      rw [← State.pathBlock_acquiring b p e hb hx hs hp] at hdrop htracker
      have hran {t : State} (hpath : t.path p = (b.pathBlock p).path p) : ran t := by
        have hleft := hafter.ran
        rw [← htracker, ← hpath] at hleft
        obtain ⟨herr, hinteg, hcorr, hstep, hphase⟩ := hleft
        exact ⟨herr, hinteg, hcorr, hstep, hphase, by rw [hpath, hdrop]; rfl⟩
      refine ⟨fun hmem hw => ?checks, fun hend => ?locks⟩
      case checks =>
        have hmem := (timer_above_checkpoint _).mp hmem
        have hchecks := hafter.checks hmem hw
        have herr := hafter.ran.1
        rw [← htracker] at hchecks herr
        obtain ⟨hst, htimer, hgain, hratchet⟩ := hchecks
        have hoccurs : b.gainCheckOccurs p = true := by
          refine State.gainCheckOccurs_iff.mpr ⟨hx, hst.trans hx, ?_, ?_⟩
          · rwa [htimer]
          · rwa [herr, hlock]
        obtain ⟨t, hnext, hpath⟩ := hmakes hoccurs
        refine ⟨t, hnext, hran hpath, ?_⟩
        rw [hpath]
        exact ⟨hst.trans hx, htimer, hgain, hratchet⟩
      case locks =>
        have hlocks := hafter.locks (Nat.sub_eq_zero_of_le hend)
        rw [← htracker] at hlocks
        obtain ⟨hst, hrest⟩ := hlocks
        obtain ⟨t, hnext, hpath⟩ := hmakes (State.acquireLockOccurs_iff.mpr ⟨hx, hst⟩)
        refine ⟨t, hnext, hran hpath, ?_⟩
        rw [hpath]
        exact ⟨hst, hrest⟩
    case noCheck =>
      refine hquiet fun hoccurs => ?_
      obtain ⟨hx, ht, herr⟩ := State.gainCheckOccurs_needs hb hheld hoccurs
      rw [State.blockError_eq, hlock] at herr
      obtain h | h | h := hnot
      · exact h hx
      · exact h ht
      · exact Nat.not_le.mpr h herr
    case noLock =>
      refine hquiet fun hoccurs => ?_
      obtain ⟨hx, ht⟩ := State.acquireLockOccurs_needs hb hoccurs
      obtain h | h := hnot
      · exact h hx
      · exact Nat.not_le.mpr h ht
    case slips =>
      have hoccurs : b.slipOccurs p = true :=
        State.slipOccurs_of hs hp hopened hx hcount (by rw [hlock]; exact hw)
      obtain ⟨t, hnext, hpath⟩ := hmakes hoccurs
      obtain ⟨-, htrack, -⟩ := u.trackerBlock_present p
      obtain ⟨y, ⟨l, o, hy⟩, htracker⟩ := State.trackBlock_slipped hsrc (hstep0.trans hn) (hcmax.trans hc)
        (hbounds hbd).phase ((hbounds hbd).nextStep_lt (hstep0.trans hn) (hcmax.trans hc) (Tracker.nextCorr_le ..))
        (hstate.trans hx) (hopened ▸ hw) (hslips ▸ hcount) (hfifo ▸ hlen)
      refine ⟨t, hnext, ?_⟩
      rw [hpath, htracks hs, htrack (hstate.trans hx) hp, htracker, hy, hupath]
      exact ⟨rfl, rfl, rfl, rfl, rfl, rfl, rfl, rfl⟩
    case holds =>
      have hs : ¬ silent := mt And.left (Bool.eq_false_iff.mp hf)
      obtain ⟨t, hnext, hpath⟩ := hmakes (State.holdEntryOccurs_of hs hb hp hx)
      obtain ⟨f, o, htracker⟩ := State.trackerBlock_toHold (u := u) (p := p) (hpending.trans hf) hp (hstate ▸ hx)
      refine ⟨t, hnext, ?_⟩
      rw [hpath, htracks hs, htracker, hupath]
      exact ⟨rfl, rfl, rfl, rfl, rfl⟩
    case returns =>
      obtain ⟨t, hnext, hpath⟩ := hmakes (State.holdExitOccurs_of hs hp hx)
      have hblock := (u.trackerBlock_hold p (hstate.trans hx)).trans (if_pos hp)
      refine ⟨t, hnext, ?_⟩
      rw [hpath, htracks hs, hblock, State.path_setPath_same, hupath]
      exact ⟨rfl, rfl, rfl, rfl, rfl, rfl, rfl, rfl, rfl⟩

end Sys2Proof.Machine
end

