-- ==== Sys2Proof/Proofs/BlockFrames.lean ====
section
/-! SUPPORT. What the parts of an output block leave as it stands. No part changes what only commands set, no part after
the zones' changes the units that come before it, and none after the soft starts' changes the pairs. -/

namespace Sys2Proof.Machine

open Sys2Proof

/-! ## What stands through a block -/

/-- What only commands set: no part of a block changes it. -/
structure Settings where
  pending   : List Instr
  strap     : BitVec 4
  windows   : Vector Window 16
  cmd       : CommandUnit
  sources   : Vector SourceEntry 12
  region    : Region
  presets   : Vector (Option Preset) 40
  crossover : Nat

/-- The units whose parts come before the thermal record's (log 3), with what only commands set. -/
structure Upstream extends Settings where
  zoneMain : ZoneRec
  zoneTwo  : ZoneRec
  pathZero : PathRec
  pathOne  : PathRec
  owner    : Option Zone
  tuner    : Tuner
  lanes    : Vector LaneRec 4
  groups   : Vector (Option GroupRec) 12
  rings    : Vector (Option Ring) 16
  stations : List Station

/-- What only commands set, of a state. -/
def State.settings (s : State) : Settings where
  pending := s.pending
  strap := s.strap
  windows := s.windows
  cmd := s.cmd
  sources := s.sources
  region := s.region
  presets := s.presets
  crossover := s.out.crossover

/-- The units before the thermal record, of a state. -/
def State.upstream (s : State) : Upstream where
  toSettings := s.settings
  zoneMain := s.zoneMain
  zoneTwo := s.zoneTwo
  pathZero := s.pathZero
  pathOne := s.pathOne
  owner := s.owner
  tuner := s.tuner
  lanes := s.lanes
  groups := s.groups
  rings := s.rings
  stations := s.stations

/-- A state with given settings. -/
def State.HasSettings (k : Settings) (s : State) : Prop := s.settings = k

/-- A state with given units before the thermal record. -/
def State.HasUpstream (u : Upstream) (s : State) : Prop := s.upstream = u

/-- A state with given units before the thermal record and given pairs. -/
def State.HasPairs (u : Upstream) (v : Vector Pair 6) (s : State) : Prop := s.HasUpstream u ∧ s.pairs = v

/-! ## Any property of states -/

section property
variable {P : State → Prop} {s : State}

/-- Either branch has the property. -/
theorem State.ite_has {c : Prop} [Decidable c] {a b : State} (ha : P a) (hb : P b) : P (if c then a else b) :=
  iteInduction (fun _ => ha) fun _ => hb

/-- Steps that keep a property, one for each element of a list. -/
theorem forEach_has {α : Type} {f : α → State → State} (hf : ∀ x t, P t → P (f x t)) {xs : List α} (h : P s) :
    P (forEach f xs s) := by
  induction xs generalizing s with
  | nil => exact h
  | cons x xs ih => exact ih (hf x s h)

/-- A part that keeps a property which the marks of the block's parts do not touch (log 2). -/
theorem takePart_has (hm : ∀ t marks, P t → P { t with taken := marks }) {k : BlockPart} {f : State → State}
    (hf : ∀ t, P t → P (f t)) (h : P s) : P (takePart k f s) :=
  State.ite_has h (hm _ _ (hf s h))

end property

/-! ## What only commands set -/

section settings
variable {s : State} {k : Settings}

/-! ### The shared operations -/

namespace State.HasSettings

theorem forEach {α : Type} {f : α → State → State} (hf : ∀ x t, t.HasSettings k → (f x t).HasSettings k) {xs : List α}
    (h : s.HasSettings k) : (forEach f xs s).HasSettings k :=
  forEach_has hf h

/-- A part of the block: its mark is not a setting (log 2). -/
theorem takePart {b : BlockPart} {f : State → State} (hf : ∀ t, t.HasSettings k → (f t).HasSettings k)
    (h : s.HasSettings k) : (takePart b f s).HasSettings k :=
  takePart_has (fun _ _ h => h) hf h

theorem setZone {z : Zone} {r : ZoneRec} (h : s.HasSettings k) : (s.setZone z r).HasSettings k := by
  cases z with
  | main => exact h
  | zone2 => exact h

theorem setPath {p : PathId} {r : PathRec} (h : s.HasSettings k) : (s.setPath p r).HasSettings k := by
  cases p with
  | p0 => exact h
  | p1 => exact h

/-- A report enters the queues only (R19, R21). -/
theorem raise {kind : ReportKind} {i : Nat} {payload : List Byte} (h : s.HasSettings k) :
    (s.raise kind i payload).HasSettings k := by
  rw [State.raise_eq]
  exact h

theorem raiseDone {tag : Option Nat} {payload : List Byte} (h : s.HasSettings k) :
    (s.raiseDone tag payload).HasSettings k := by
  rw [State.raiseDone_eq]
  exact h

theorem setLane {l : Fin 4} {r : LaneRec} (h : s.HasSettings k) : (s.setLane l r).HasSettings k := h

theorem setGroup {e : Fin 12} {g : Option GroupRec} (h : s.HasSettings k) : (s.setGroup e g).HasSettings k := h

theorem setRing {w : Fin 16} {r : Option Ring} (h : s.HasSettings k) : (s.setRing w r).HasSettings k := h

theorem withTuner {t : Tuner} (h : s.HasSettings k) : ({ s with tuner := t } : State).HasSettings k := h

theorem withOwner {o : Option Zone} (h : s.HasSettings k) : ({ s with owner := o } : State).HasSettings k := h

theorem withBindFirst {p : PathId} (h : s.HasSettings k) : ({ s with bindFirst := p } : State).HasSettings k := h

/-! ### Lanes (R56, R62) -/

theorem mapLanes {ls : List (Fin 4)} {f : LaneRec → LaneRec} (h : s.HasSettings k) : (s.mapLanes ls f).HasSettings k :=
  h.forEach fun _ _ => setLane

theorem laneReports {ls : List (Fin 4)} {cause : LaneCause} (h : s.HasSettings k) :
    (s.laneReports ls cause).HasSettings k :=
  h.forEach fun _ _ => raise

theorem groupReform {e : Fin 12} (h : s.HasSettings k) : (s.groupReform e).HasSettings k := setGroup h.mapLanes

theorem leaveMeasuring {l : Fin 4} (h : s.HasSettings k) : (s.leaveMeasuring l).HasSettings k := by
  unfold State.leaveMeasuring
  split
  · exact State.ite_has h.groupReform h
  · exact h

theorem dropGroup {l : Fin 4} {f : LaneRec → LaneRec} {cause : LaneCause} (h : s.HasSettings k) :
    (s.dropGroup l f cause).HasSettings k := by
  unfold State.dropGroup
  split
  · exact h
  · exact laneReports (groupReform (setLane h.mapLanes))

theorem laneLost {l : Fin 4} (h : s.HasSettings k) : (s.laneLost l).HasSettings k := by
  unfold State.laneLost
  split
  · exact raise h.setLane
  · exact raise h.setLane
  · exact raise h.leaveMeasuring.setLane
  · exact h.dropGroup
  all_goals exact h

/-- A lane's part of a block. -/
theorem laneBlock {l : Fin 4} (h : s.HasSettings k) : (s.laneBlock l).HasSettings k :=
  State.ite_has h.setLane (State.ite_has h (State.ite_has (laneLost h.setLane) h.setLane))

/-! ### Paths (R91 to R106) -/

theorem adoptFormat {p : PathId} (h : s.HasSettings k) : (s.adoptFormat p).HasSettings k := by
  unfold State.adoptFormat
  split
  · exact h
  · exact raise (State.ite_has (P := HasSettings k) h.setPath h.setPath)

theorem handFormat {p : PathId} {f : Format} (h : s.HasSettings k) : (s.handFormat p f).HasSettings k :=
  State.ite_has h.setPath (State.ite_has (adoptFormat h.setPath) h.setPath)

theorem pushFrame {p : PathId} {f : Frame} (h : s.HasSettings k) : (s.pushFrame p f).HasSettings k :=
  State.ite_has h (State.ite_has (State.ite_has h (raise (setPath h.setPath))) h.setPath)

theorem consumeBlock {p : PathId} (h : s.HasSettings k) : (s.consumeBlock p).HasSettings k :=
  State.ite_has h.setPath (State.ite_has (adoptFormat h.setPath)
    (State.ite_has (setPath h.setPath) (raise (setPath h.setPath))))

theorem holdBlock {p : PathId} (h : s.HasSettings k) : (s.holdBlock p).HasSettings k :=
  State.ite_has h.setPath h.consumeBlock

theorem acquireBlock {p : PathId} (h : s.HasSettings k) : (s.acquireBlock p).HasSettings k :=
  have hran := consumeBlock h.setPath
  State.ite_has (State.ite_has (raise hran.setPath) hran.setPath) hran

theorem trackBlock {p : PathId} (h : s.HasSettings k) : (s.trackBlock p).HasSettings k :=
  consumeBlock (State.ite_has (raise h.setPath) h.setPath)

theorem trackerBlock {p : PathId} (h : s.HasSettings k) : (s.trackerBlock p).HasSettings k := by
  unfold State.trackerBlock
  dsimp only
  split
  · exact h.setPath
  · exact State.ite_has h.setPath (State.ite_has (consumeBlock h.setPath) (acquireBlock h.setPath))
  · exact State.ite_has h.setPath h.holdBlock
  · exact State.ite_has h.acquireBlock (holdBlock h.setPath)
  · exact State.ite_has h.trackBlock (holdBlock h.setPath)
  · exact State.ite_has h.consumeBlock (holdBlock h.setPath)

theorem countHandover {p : PathId} (h : s.HasSettings k) : (s.countHandover p).HasSettings k := by
  unfold State.countHandover
  split
  · exact h
  · split
    · exact h
    · exact h.setRing

/-- A path's part of a block. -/
theorem pathBlock {p : PathId} (h : s.HasSettings k) : (s.pathBlock p).HasSettings k := by
  unfold State.pathBlock
  split
  · exact h.setPath
  · exact State.ite_has (setPath (adoptFormat h.countHandover.setPath)) (trackerBlock h.countHandover.setPath)

/-! ### The tuner (R127 to R151) -/

theorem endOp {res : CmdResult} {flags : Byte} {level : Nat} (h : s.HasSettings k) :
    (s.endOp res flags level).HasSettings k := by
  unfold State.endOp
  split
  · exact h
  · exact raiseDone h.withTuner

theorem feFault (h : s.HasSettings k) : s.feFault.HasSettings k := raise (withTuner h.endOp)

theorem tunerIdle (h : s.HasSettings k) : s.tunerIdle.HasSettings k := raise (withTuner h.endOp)

theorem endTune {u : Bool} (h : s.HasSettings k) : (s.endTune u).HasSettings k := raise (endOp h.withTuner)

theorem nextPoint (h : s.HasSettings k) : s.nextPoint.HasSettings k := by
  unfold State.nextPoint
  dsimp only
  split
  · exact h
  · exact State.ite_has (State.ite_has h.withTuner h.withTuner) (State.ite_has h.withTuner h.withTuner)

theorem countTested (h : s.HasSettings k) : s.countTested.HasSettings k := by
  unfold State.countTested
  split
  · exact h
  · exact State.ite_has h (State.ite_has (raise h.withTuner) h.withTuner)

theorem takeCandidate {d : Dwell} (h : s.HasSettings k) : (s.takeCandidate d).HasSettings k := by
  unfold State.takeCandidate
  split
  · exact h
  · exact h

theorem endDwell {d : Dwell} (h : s.HasSettings k) : (s.endDwell d).HasSettings k := by
  unfold State.endDwell
  dsimp only
  split
  · exact h
  · exact State.ite_has (countTested (withTuner (State.ite_has h.takeCandidate h)))
      (State.ite_has (raise (endOp h.withTuner)) h.withTuner)

theorem unsettled (h : s.HasSettings k) : s.unsettled.HasSettings k := State.ite_has h.endTune h.countTested.nextPoint

theorem ackBlock (h : s.HasSettings k) : s.ackBlock.HasSettings k := by
  unfold State.ackBlock
  split
  · exact h
  · exact State.ite_has h.withTuner (State.ite_has h.feFault h.withTuner)

theorem silenceBlock (h : s.HasSettings k) : s.silenceBlock.HasSettings k :=
  State.ite_has h.withTuner (State.ite_has h.withTuner (State.ite_has (feFault h.withTuner) h.withTuner))

theorem blendBlock (h : s.HasSettings k) : s.blendBlock.HasSettings k :=
  State.ite_has h.withTuner (State.ite_has h.withTuner h.withTuner)

theorem deliverFrames (h : s.HasSettings k) : s.deliverFrames.HasSettings k := by
  unfold State.deliverFrames
  refine State.ite_has h ?_
  split
  · exact h
  · exact h.forEach fun _ _ => pushFrame

theorem phaseBlock (h : s.HasSettings k) : s.phaseBlock.HasSettings k := by
  unfold State.phaseBlock
  dsimp only
  split
  · exact h
  · exact h
  · exact State.ite_has (unsettled h.withTuner) h.withTuner
  · exact State.ite_has (endDwell h.withTuner) h.withTuner
  · exact h.nextPoint

/-- The tuner's part of a block. -/
theorem tunerBlock (h : s.HasSettings k) : s.tunerBlock.HasSettings k :=
  have hchecked : (if tunerActive s.tuner.state then s.ampBlock else s).HasSettings k := State.ite_has h.withTuner h
  withTuner hchecked.blendBlock.deliverFrames.ackBlock.silenceBlock.phaseBlock

/-! ### Zones (R71 to R73, R76 to R87) -/

theorem setOwner {z : Zone} (h : s.HasSettings k) : (s.setOwner z).HasSettings k := raise h.withOwner

theorem feedIfNamed {w : Fin 16} (h : s.HasSettings k) : (s.feedIfNamed w).HasSettings k := by
  cases hr : s.ring w with
  | none =>
    obtain ⟨-, hfeed⟩ := s.flushWindow_none w hr
    rwa [hfeed]
  | some r =>
    obtain ⟨q, hfeed, -⟩ := s.feedIfNamed_eq w r hr
    rw [hfeed]
    exact h

theorem flushWindow {w : Fin 16} (h : s.HasSettings k) : (s.flushWindow w).HasSettings k := by
  cases hr : s.ring w with
  | none =>
    obtain ⟨hflush, -⟩ := s.flushWindow_none w hr
    rwa [hflush]
  | some r =>
    rw [s.flushWindow_spec w r hr]
    exact feedIfNamed h

theorem tellBound {p : PathId} {e : Fin 12} (h : s.HasSettings k) : (s.tellBound p e).HasSettings k := by
  unfold State.tellBound
  split
  · exact h
  · split
    · exact h.handFormat
    · exact h
  · split
    · exact h
    · exact h.feedIfNamed
  · exact withTuner h.handFormat

theorem joinPath {z : Zone} {p : PathId} (h : s.HasSettings k) : (s.joinPath z p).HasSettings k :=
  State.ite_has (P := HasSettings k) h.setZone h.setZone

theorem bindPath {p : PathId} {e : Fin 12} (h : s.HasSettings k) : (s.bindPath p e).HasSettings k :=
  tellBound (setPath h.withBindFirst)

theorem attach {z : Zone} {e : Fin 12} (h : s.HasSettings k) : (s.attach z e).HasSettings k := by
  unfold State.attach
  dsimp only
  split
  · exact State.ite_has h.joinPath.setOwner h.joinPath
  · exact State.ite_has h.joinPath.bindPath.setOwner h.joinPath.bindPath

theorem releasePath {p : PathId} (h : s.HasSettings k) : (s.releasePath p).HasSettings k := by
  have hfree : ({ s with bindFirst := p.other }.setPath p PathRec.free).HasSettings k := setPath h.withBindFirst
  unfold State.releasePath
  dsimp only
  split
  · exact hfree
  · exact hfree
  · split
    · exact hfree
    · exact hfree.flushWindow
  · exact tunerIdle hfree.withOwner

theorem detach {z : Zone} (h : s.HasSettings k) : (s.detach z).HasSettings k := by
  unfold State.detach
  split
  · exact h
  · exact State.ite_has (State.ite_has (setOwner h.setZone) h.setZone) (releasePath h.setZone)

theorem completeSwitch {z : Zone} (h : s.HasSettings k) : (s.completeSwitch z).HasSettings k :=
  raiseDone (raise (setZone h.setZone))

theorem startFadeIn {z : Zone} (h : s.HasSettings k) : (s.startFadeIn z).HasSettings k :=
  State.ite_has (completeSwitch h.setZone) h.setZone

theorem startWait {z : Zone} (h : s.HasSettings k) : (s.startWait z).HasSettings k :=
  State.ite_has (startFadeIn h.setZone) h.setZone

theorem endFadeOut {z : Zone} (h : s.HasSettings k) : (s.endFadeOut z).HasSettings k := by
  unfold State.endFadeOut
  split
  · exact h
  · exact startWait (State.ite_has h h.detach.attach)

theorem abortSwitch {z : Zone} (h : s.HasSettings k) : (s.abortSwitch z).HasSettings k :=
  setZone (State.ite_has h h.raiseDone)

theorem standbyIfSilent {z : Zone} (h : s.HasSettings k) : (s.standbyIfSilent z).HasSettings k :=
  State.ite_has (raise h.detach.setZone) h

theorem switchBlock {z : Zone} (h : s.HasSettings k) : (s.switchBlock z).HasSettings k := by
  unfold State.switchBlock
  dsimp only
  split
  · exact h
  · exact State.ite_has h.endFadeOut h
  · exact State.ite_has h.startFadeIn (State.ite_has (raise h.setZone) h.setZone)
  · exact State.ite_has h.completeSwitch h

theorem sleepBlock {z : Zone} (h : s.HasSettings k) : (s.sleepBlock z).HasSettings k :=
  State.ite_has h (State.ite_has h.setZone (State.ite_has h.setZone
    (standbyIfSilent (raise (raise h.abortSwitch.setZone)))))

/-- A zone's part of a block. -/
theorem zoneBlock {z : Zone} (h : s.HasSettings k) : (s.zoneBlock z).HasSettings k :=
  h.setZone.switchBlock.standbyIfSilent.sleepBlock

/-! ### The stages up to the zones' -/

theorem zonesMade (h : s.HasSettings k) : s.zonesMade.HasSettings k :=
  have hbegun : s.begun.HasSettings k := h.takePart fun _ h => h
  have hlanes : s.lanesMade.HasSettings k := hbegun.forEach fun _ _ => takePart fun _ => laneBlock
  have hpaths : s.pathsMade.HasSettings k := (hlanes.takePart fun _ => pathBlock).takePart fun _ => pathBlock
  have htuner : s.tunerMade.HasSettings k := hpaths.takePart fun _ => tunerBlock
  (htuner.takePart fun _ => zoneBlock).takePart fun _ => zoneBlock

end State.HasSettings

end settings

/-! ## The units before the thermal record -/

section upstream
variable {s : State} {u : Upstream}

namespace State.HasUpstream

theorem forEach {α : Type} {f : α → State → State} (hf : ∀ x t, t.HasUpstream u → (f x t).HasUpstream u) {xs : List α}
    (h : s.HasUpstream u) : (forEach f xs s).HasUpstream u :=
  forEach_has hf h

theorem takePart {b : BlockPart} {f : State → State} (hf : ∀ t, t.HasUpstream u → (f t).HasUpstream u)
    (h : s.HasUpstream u) : (takePart b f s).HasUpstream u :=
  takePart_has (fun _ _ h => h) hf h

/-- A report enters the queues only (R19, R21). -/
theorem raise {kind : ReportKind} {i : Nat} {payload : List Byte} (h : s.HasUpstream u) :
    (s.raise kind i payload).HasUpstream u := by
  rw [State.raise_eq]
  exact h

theorem setPair {n : Fin 6} {r : Pair} (h : s.HasUpstream u) : (s.setPair n r).HasUpstream u := h

/-- Another channel record is no other setting of the output unit. -/
theorem setChan {c : Fin 12} {r : Channel} (h : s.HasUpstream u) : (s.setChan c r).HasUpstream u := h

theorem mapPair {n : Fin 6} {f : Channel → Channel} (h : s.HasUpstream u) : (s.mapPair n f).HasUpstream u :=
  h.forEach fun _ _ => setChan

theorem withThermal {r : Thermal} {p : Pins} (h : s.HasUpstream u) :
    ({ s with thermal := r, pins := p } : State).HasUpstream u := h

/-- The thermal record's part of a block (R193 to R195). -/
theorem thermalBlock {line : Bool} (h : s.HasUpstream u) : (s.thermalBlock line).HasUpstream u :=
  State.ite_has h.withThermal (raise h.withThermal)

theorem enterProtect {n : Fin 6} {line : Bool} (h : s.HasUpstream u) : (s.enterProtect n line).HasUpstream u :=
  raise (mapPair h.setPair)

theorem recoverExpiry {n : Fin 6} (h : s.HasUpstream u) : (s.recoverExpiry n).HasUpstream u :=
  State.ite_has (mapPair h.setPair) (raise h.setPair)

theorem pairBlock {n : Fin 6} {line : Bool} (h : s.HasUpstream u) : (s.pairBlock n line).HasUpstream u := by
  unfold State.pairBlock
  dsimp only
  split
  · exact State.ite_has (enterProtect h.setPair) h.setPair
  · exact State.ite_has (enterProtect h.setPair) h.setPair
  · exact State.ite_has h.setPair h.setPair
  · exact State.ite_has h.setPair (State.ite_has (recoverExpiry h.setPair) h.setPair)
  · exact h.setPair

/-- A pair's part of a block (R184 to R190). -/
theorem pairPart {n : Fin 6} {line : Bool} (h : s.HasUpstream u) : (s.pairPart n line).HasUpstream u :=
  pairBlock (withThermal (r := s.thermal) h)

/-- The end of a pair's soft start at a block (R177, R188). -/
theorem softStartBlock {n : Fin 6} (h : s.HasUpstream u) : (s.softStartBlock n).HasUpstream u :=
  State.ite_has (State.ite_has (raise (setPair h.mapPair)) h.mapPair) h

/-- The stages from the thermal record's to the ends of soft starts. -/
theorem startsMade {faults : BitVec 6} {therm : Bool} (h : s.zonesMade.HasUpstream u) :
    (s.startsMade faults therm).HasUpstream u :=
  have hthermal : (s.thermalMade therm).HasUpstream u := h.takePart fun _ => thermalBlock
  have hramps : (s.rampsMade therm).HasUpstream u := hthermal.forEach fun _ _ => takePart fun _ => setChan
  have hpairs : (s.pairsMade faults therm).HasUpstream u := hramps.forEach fun _ _ => takePart fun _ => pairPart
  hpairs.forEach fun _ _ => softStartBlock

end State.HasUpstream

end upstream

/-! ## The pairs, after the ends of soft starts -/

section pairs
variable {s : State} {u : Upstream} {v : Vector Pair 6}

namespace State.HasPairs

theorem forEach {α : Type} {f : α → State → State} (hf : ∀ x t, t.HasPairs u v → (f x t).HasPairs u v) {xs : List α}
    (h : s.HasPairs u v) : (forEach f xs s).HasPairs u v :=
  forEach_has hf h

theorem takePart {b : BlockPart} {f : State → State} (hf : ∀ t, t.HasPairs u v → (f t).HasPairs u v)
    (h : s.HasPairs u v) : (takePart b f s).HasPairs u v :=
  takePart_has (fun _ _ h => h) hf h

theorem setChan {c : Fin 12} {r : Channel} (h : s.HasPairs u v) : (s.setChan c r).HasPairs u v := h

theorem enqueue {i : Injected} (h : s.HasPairs u v) : (s.enqueue i).HasPairs u v := h

theorem withTap {t : Tap} (h : s.HasPairs u v) : ({ s with tap := t } : State).HasPairs u v := h

theorem withMirror {m : Mirror} (h : s.HasPairs u v) : ({ s with mirror := m } : State).HasPairs u v := h

/-! ### The change groups, the mix and the playing (R166, R167, R162) -/

theorem applyGroup {g : Fin 12} (h : s.HasPairs u v) : (s.applyGroup g).HasPairs u v := by
  rw [State.applyGroup_eq]
  exact h

/-- A change group at a block. -/
theorem groupBlock {g : Fin 12} (h : s.HasPairs u v) : (s.groupBlock g).HasPairs u v :=
  State.ite_has h (State.ite_has h.applyGroup (h.forEach fun _ _ h => State.ite_has h h.setChan))

theorem playChannel {c : Fin 12} {xs : List Sample} {st : CrossoverState} (h : s.HasPairs u v) :
    (s.playChannel c xs st).HasPairs u v := h

theorem soundBlock (h : s.HasPairs u v) : s.soundBlock.HasPairs u v := by
  unfold State.soundBlock
  exact h.forEach fun _ _ => playChannel

theorem mixBlock (h : s.HasPairs u v) : s.mixBlock.HasPairs u v := h

/-- The falls of Lr, the mix and the playing. -/
theorem soundPart (h : s.HasPairs u v) : s.soundPart.HasPairs u v := by
  unfold State.soundPart
  exact soundBlock (mixBlock (h.forEach fun _ _ => setChan))

/-! ### The tap (R44) -/

theorem placeTapItem {it : TapItem} (h : s.HasPairs u v) : (s.placeTapItem it).HasPairs u v := by
  unfold State.placeTapItem
  split
  · exact h
  · split
    · exact h.enqueue
    · exact withTap h.enqueue

theorem tapMove (h : s.HasPairs u v) : s.tapMove.1.HasPairs u v := by
  unfold State.tapMove
  split
  · split_ifs
    · exact h
    · exact placeTapItem h.withTap
  · split
    · dsimp only
      split_ifs
      · exact h
      · exact withTap h.placeTapItem
      · exact h.withTap
    · exact h

theorem tapPump {n : Nat} (h : s.HasPairs u v) : (State.tapPump n s).HasPairs u v := by
  induction n generalizing s with
  | zero => exact h
  | succ n ih => exact State.ite_has (ih h.tapMove) h

theorem tapPart (h : s.HasPairs u v) : s.tapPart.HasPairs u v := by
  unfold State.tapPart State.tapBlock
  split
  · exact h
  · split
    · exact h
    · exact State.ite_has h.withTap (State.ite_has (tapPump h.withTap) (withTap h.tapPump))

/-! ### The meters (R24, R25, R181) -/

theorem dropSection (h : s.HasPairs u v) : s.dropSection.HasPairs u v := by
  unfold State.dropSection
  split
  · exact h
  · refine State.ite_has ?_ h.withMirror
    unfold State.mergeSent
    split
    · exact h.withMirror
    · exact h

theorem sectionDone {x : SnapSection} (h : s.HasPairs u v) : (s.sectionDone x).HasPairs u v :=
  State.ite_has (P := HasPairs u v) h h.withMirror

theorem mirrorMove (h : s.HasPairs u v) : s.mirrorMove.HasPairs u v := by
  unfold State.mirrorMove
  split
  · exact h
  · exact h.dropSection
  · split
    · exact h.sectionDone
    · exact State.ite_has h (State.ite_has (sectionDone (enqueue h.withMirror)) (enqueue h.withMirror))

theorem mirrorPump {n : Nat} (h : s.HasPairs u v) : (State.mirrorPump n s).HasPairs u v := by
  induction n generalizing s with
  | zero => exact h
  | succ n ih => exact ih h.mirrorMove

theorem beginSection {x : SnapSection} {periodic : Bool} (h : s.HasPairs u v) :
    (s.beginSection x periodic).HasPairs u v :=
  mirrorPump (withMirror (State.ite_has (P := HasPairs u v) h h))

theorem meterBlock (h : s.HasPairs u v) : s.meterBlock.HasPairs u v :=
  State.ite_has (State.ite_has (beginSection h) h) h

/-! ### The stages after the ends of soft starts -/

theorem metersMade {faults : BitVec 6} {therm : Bool} (h : (s.startsMade faults therm).HasPairs u v) :
    (s.metersMade faults therm).HasPairs u v :=
  have hgroups : (s.groupsMade faults therm).HasPairs u v := h.forEach fun _ _ => groupBlock
  have hsound : (s.soundMade faults therm).HasPairs u v := hgroups.takePart fun _ => soundPart
  have hlimiter : (s.limiterMade faults therm).HasPairs u v := hsound.forEach fun _ _ => takePart fun _ => setChan
  have htap : (s.tapMade faults therm).HasPairs u v := hlimiter.takePart fun _ => tapPart
  htap.takePart fun _ => meterBlock

end State.HasPairs

end pairs

end Sys2Proof.Machine
end

