-- ==== Sys2Proof/Proofs/BlockStages.lean ====
section
/-! SUPPORT. The statement about the row of parts that an output block is, and about what an event row makes. -/

namespace Sys2Proof.Machine

open Sys2Proof

/-! ## The end of a block -/

/-- MAIN's path has adopted a format in the block (R93). -/
def State.mainAdopted (s : State) : Prop := ∃ p, s.zoneMain.attached = some p ∧ (s.path p).adoptedNow = true

/-- After an adoption by MAIN's path the energies start again from 0 (R114, log 37). -/
theorem State.mixAfterAdoption_adopted {s : State} (h : s.mainAdopted) : s.mixAfterAdoption = s.zeroEnergies := by
  obtain ⟨p, hattached, hadopted⟩ := h
  simp only [State.mixAfterAdoption, hattached, hadopted, if_true]

/-- Without one the mixer stands. -/
theorem State.mixAfterAdoption_other {s : State} (h : ¬ s.mainAdopted) : s.mixAfterAdoption = s := by
  unfold State.mixAfterAdoption
  split
  case h_1 => rfl
  case h_2 p hattached => exact if_neg fun hadopted => h ⟨p, hattached, hadopted⟩

/-- The end of a block: the energies start again after an adoption, and nothing is made of the next block. -/
theorem State.endBlock_eq (s : State) {_ : Decidable s.mainAdopted} :
    s.endBlock = { s with
      mixer := if s.mainAdopted then { s.mixer with eL := 0, eR := 0, eM := 0, eS := 0 } else s.mixer
      freeIdx := s.freeIdx + 1, taken := [] } := by
  by_cases h : s.mainAdopted
  · rw [State.endBlock, State.mixAfterAdoption_adopted h, if_pos h]
    rfl
  · rw [State.endBlock, State.mixAfterAdoption_other h, if_neg h]

/-- What is left of a block is made on the sampled lines, and then the block ends (log 2). -/
theorem execOutputBlock_next (faults : BitVec 6) (therm : Bool) (s : State) :
    exec (.outputBlock faults therm) s
      = .next (({ s with pins := { faults := faults, therm := therm } } : State).metersMade faults therm).endBlock := by
  rfl

/-- The end of a block leaves the units that come before the thermal record, and the pairs. -/
theorem State.HasPairs.endBlock {s : State} {u : Upstream} {v : Vector Pair 6} (h : s.HasPairs u v) :
    s.endBlock.HasPairs u v := by
  by_cases ha : s.mainAdopted
  · rw [State.endBlock, State.mixAfterAdoption_adopted ha]
    exact h
  · rw [State.endBlock, State.mixAfterAdoption_other ha]
    exact h

/-- The units before the thermal record, one by one. -/
theorem State.units_of_upstream {s t : State} (h : t.upstream = s.upstream) :
    t.zoneMain = s.zoneMain ∧ t.zoneTwo = s.zoneTwo ∧ t.owner = s.owner ∧ t.pathZero = s.pathZero
      ∧ t.pathOne = s.pathOne ∧ t.tuner = s.tuner ∧ t.lanes = s.lanes ∧ t.groups = s.groups ∧ t.rings = s.rings
      ∧ t.stations = s.stations ∧ t.settings = s.settings :=
  ⟨congrArg Upstream.zoneMain h, congrArg Upstream.zoneTwo h, congrArg Upstream.owner h, congrArg Upstream.pathZero h,
    congrArg Upstream.pathOne h, congrArg Upstream.tuner h, congrArg Upstream.lanes h, congrArg Upstream.groups h,
    congrArg Upstream.rings h, congrArg Upstream.stations h, congrArg Upstream.toSettings h⟩

/-- The source table is what only commands set. -/
theorem State.sources_of_settings {s t : State} (h : t.settings = s.settings) : t.sources = s.sources :=
  congrArg Settings.sources h

/-- A whole block leaves the units before the thermal record as its zones' stage leaves them, and the pairs as the ends
of soft starts do. -/
theorem State.block_keeps (s : State) (faults : BitVec 6) (therm : Bool) :
    (s.metersMade faults therm).endBlock.upstream = s.zonesMade.upstream
      ∧ (s.metersMade faults therm).endBlock.pairs = (s.startsMade faults therm).pairs :=
  have hstarts : (s.startsMade faults therm).HasUpstream s.zonesMade.upstream := State.HasUpstream.startsMade rfl
  State.HasPairs.endBlock (State.HasPairs.metersMade ⟨hstarts, rfl⟩)

/-! ## An event row -/

/-- A row of an event whose part stands makes nothing, and else the part or nothing (log 2). -/
theorem blockEvent_row (k : BlockPart) (before : State → State) (occurs : State → Bool) (f : State → State)
    (s : State) :
    (k ∈ s.taken → (.next (blockEvent k before occurs f s) : Host.Outcome State Fault Refusal) = .next s)
    ∧ (k ∉ s.taken →
      (.next (blockEvent k before occurs f s) : Host.Outcome State Fault Refusal) = .next s
        ∨ (.next (blockEvent k before occurs f s) : Host.Outcome State Fault Refusal)
            = .next { f (before s) with taken := k :: (f (before s)).taken }) := by
  simp only [next_inj]
  exact ⟨fun h => blockEvent_none k before occurs f s (.inl h), fun _ => blockEvent_cases k before occurs f s⟩

/-! ## The statement -/

/-- Settles O50: the parts and stages by their definitions, what the stages leave by their frames, and the rows of
events. -/
theorem blockStages : Obligations.BlockStages := by
  refine ⟨fun k f s => ⟨takePart_made k f s, takePart_open k f s⟩, fun _ _ _ _ _ => ⟨rfl, rfl⟩,
    fun _ => ⟨rfl, rfl, rfl, rfl, rfl⟩, fun _ _ _ => ⟨rfl, rfl, rfl, rfl, rfl, rfl, rfl, rfl, rfl⟩, fun _ => rfl,
    fun s => ?tap, fun s faults therm => ?block, fun s => ?rows⟩
  case tap =>
    refine ⟨fun h => ?_, fun i point h => ?_⟩
    · simp only [State.tapPart, h]
    · simp only [State.tapPart, h]
  case block =>
    intro x b adopted
    obtain ⟨hup, hpairs⟩ := x.block_keeps faults therm
    have hsettings : x.zonesMade.settings = s.settings := State.HasSettings.zonesMade (s := x) rfl
    obtain ⟨hmain, htwo, howner, hzero, hone, htuner, hlanes, hgroups, hrings, hstations, hset⟩ :=
      State.units_of_upstream hup
    exact ⟨b.endBlock, execOutputBlock_next faults therm s, b.endBlock_eq, hmain, htwo, howner, hzero, hone, htuner,
      hlanes, hgroups, hrings, hstations, State.sources_of_settings (hset.trans hsettings), hpairs⟩
  case rows =>
    intro row path tuner zone thermal pair
    have hrow (k : BlockPart) (before : State → State) (occurs : State → Bool) (f : State → State) :=
      blockEvent_row k before occurs f s
    exact ⟨fun _ => hrow .., fun _ => hrow .., fun _ => hrow .., fun _ => hrow .., fun _ => hrow .., fun _ => hrow ..,
      fun _ => hrow .., fun _ => hrow .., hrow .., hrow .., hrow .., hrow .., hrow .., fun _ => hrow ..,
      fun _ => hrow .., fun _ => hrow .., fun _ => hrow .., fun _ => hrow .., fun _ => hrow .., hrow .., hrow ..,
      hrow .., fun _ => hrow .., fun _ _ _ => hrow .., fun _ _ _ => hrow .., fun _ _ _ => hrow ..,
      fun _ _ => hrow .., fun _ _ => hrow .., hrow ..⟩

end Sys2Proof.Machine
end

