-- ==== Sys2Proof/Proofs/Mixer.lean ====
section
/-! SUPPORT. The mixer's signals: the layout (R111), role signals (R110), the matrix (R112 to R118), the fold (R119 to
R121), the downmix and the tap points (R122 to R124); and the statement about them. -/

namespace Sys2Proof.Machine

open Sys2Proof

/-! ## Shifts -/

/-- A shift right divides by the power of 2, rounding toward minus infinity (00_scope 3.2). -/
theorem asr_eq_div {n : Nat} {m : Int} (h : (2 : Int) ^ n = m) (x : Int) : asr x n = x / m := by
  rw [asr, h]

theorem midOf_eq (l r : Sample) : midOf l r = (l + r) / 2 := asr_eq_div (by norm_num) _

theorem sideOf_eq (l r : Sample) : sideOf l r = (l - r) / 2 := asr_eq_div (by norm_num) _

/-- The -6 operation (R119). -/
theorem minus6_eq (x : Sample) : minus6 x = (x * 5931642 + 4194304) / 8388608 := asr_eq_div (by norm_num) _

/-! ## The layout and the role signals (R110, R111) -/

/-- The main speakers are the roles of the layout's order. -/
theorem mem_layoutOrder (r : Role) : r ∈ layoutOrder ↔ r.isMainSpeaker = true := by
  cases r <;> decide

/-- The layout holds the speaker roles that are applied (R111). -/
theorem State.mem_layout (s : State) (r : Role) :
    r ∈ s.layout ↔ r ∈ layoutOrder ∧ ∃ c, (s.chan c).applied.role = r := by
  simp only [State.layout, State.inLayout, List.mem_filter, Bool.and_eq_true, List.any_eq_true, decide_eq_true_eq,
    List.mem_finRange, true_and, mem_layoutOrder]
  tauto

/-- A role that no channel of the format has is silent (R110). -/
theorem roleSample_absent (roles : List Role) (f : Frame) (r : Role) (h : r ∉ roles) : roleSample roles f r = 0 := by
  induction roles generalizing f with
  | nil => rfl
  | cons q qs ih =>
    exact (if_neg (Ne.symm (List.ne_of_not_mem_cons h))).trans (ih _ (List.not_mem_of_not_mem_cons h))

/-- A role takes the sample of its channel (R110). -/
theorem roleSample_first (roles : List Role) (f : Frame) (r : Role) (i : Nat) (hi : roles[i]? = some r)
    (hfirst : ∀ j, j < i → roles[j]? ≠ some r) : roleSample roles f r = f.getD i 0 := by
  induction roles generalizing f i with
  | nil => exact absurd hi (by simp)
  | cons q qs ih =>
    cases i with
    | zero =>
      have hq : q = r := by simpa using hi
      exact (if_pos hq).trans (by cases f <;> rfl)
    | succ i =>
      have hq : q ≠ r := fun hq => hfirst 0 (Nat.succ_pos i) (by simp [hq])
      have hrest := ih (f.drop 1) i hi fun j hj => hfirst (j + 1) (Nat.succ_lt_succ hj)
      exact (if_neg hq).trans (hrest.trans (by simp [List.getD]))

/-- A frame with no samples is silent in every role (R110). -/
theorem roleSample_nil (roles : List Role) (r : Role) : roleSample roles [] r = 0 := by
  induction roles with
  | nil => rfl
  | cons q qs ih => exact iteInduction (motive := (· = 0)) (fun _ => rfl) fun _ => ih

/-- What role signals formed of a list of roles give a role. -/
theorem RoleFrame.get_map (rs : List Role) (g : Role → Sample) (r : Role) :
    RoleFrame.get (rs.map fun x => (x, g x)) r = if r ∈ rs then g r else 0 := by
  induction rs with
  | nil => rfl
  | cons q qs ih =>
    simp only [List.map_cons, RoleFrame.get, ih, List.mem_cons]
    by_cases hq : q = r
    · simp [hq]
    · simp [hq, Ne.symm hq]

/-- A source role's signal in a frame (R110). -/
theorem roleFrame_get (roles : List Role) (f : Frame) {r : Role} (h : r ∈ sourceRoles) :
    RoleFrame.get (roleFrame roles f) r = roleSample roles f r :=
  (RoleFrame.get_map ..).trans (if_pos h)

theorem roleFrame_silent (roles : List Role) (r : Role) : RoleFrame.get (roleFrame roles []) r = 0 := by
  rw [roleFrame, RoleFrame.get_map, roleSample_nil, ite_self]

/-- A block of 48 frames with every role at 0 (R110). -/
def Silent (fs : List (List (Role × Sample))) : Prop := fs.length = 48 ∧ ∀ f ∈ fs, ∀ r, RoleFrame.get f r = 0

theorem silentRoles_silent : Silent silentRoles := by
  refine ⟨List.length_replicate, fun f hf r => ?_⟩
  rw [List.eq_of_mem_replicate hf]
  rfl

/-- A path that has yielded no format is silent (R110). -/
theorem PathRec.roleFrames_none {x : PathRec} (h : x.yieldFormat = none) : x.roleFrames = silentRoles := by
  simp only [PathRec.roleFrames, h]

theorem PathRec.roleFrames_some {x : PathRec} {g : Format} (h : x.yieldFormat = some g) :
    x.roleFrames = (fillBlock x.yielded).map (roleFrame g.roles) := by
  simp only [PathRec.roleFrames, h]

/-- A zone with no path is silent (R110). -/
theorem State.zoneRoles_none {s : State} {z : Zone} (h : (s.zone z).attached = none) : s.zoneRoles z = silentRoles := by
  simp only [State.zoneRoles, h]

theorem State.zoneRoles_some {s : State} {z : Zone} {p : PathId} (h : (s.zone z).attached = some p) :
    s.zoneRoles z = (s.path p).roleFrames := by
  simp only [State.zoneRoles, h]

/-! ## The matrix (R112 to R118) -/

/-- The matrix is in effect in a mode, on what MAIN's path has yielded (R112, log 37). -/
theorem State.matrixOn_mainFormat (s : State) (m : DecodeMode) : matrixOn m s.mainFormat = true ↔
    m ≠ .direct ∧ ∃ p f, s.zoneMain.attached = some p ∧ (s.path p).yieldFormat = some f
      ∧ (f.roles = [.fl, .fr] ∨ f.roles = [.fr, .fl]) := by
  rw [matrixOn_iff, State.mainFormat]
  cases s.zoneMain.attached with
  | none => simp
  | some p => simp

/-- Where no format that the matrix takes is yielded, or decoding is DIRECT, the energies and steering values are 0
(R112, R114). -/
theorem State.mixBlock_plain {s : State} (h : ¬ matrixOn s.zoneMain.decode s.mainFormat = true) :
    s.mixBlock = { s with mixer := ({ s.mixer with layout := s.layout } : Mixer).plain } := by
  rw [State.mixBlock, if_neg h]

/-- With the matrix in effect the detector runs (R112, R114). -/
theorem State.mixBlock_detects {s : State} (h : matrixOn s.zoneMain.decode s.mainFormat = true) :
    s.mixBlock = { s with
      mixer := ({ s.mixer with layout := s.layout } : Mixer).detect s.zoneMain.decode (s.zoneRoles .main) } := by
  rw [State.mixBlock, if_pos h]

/-- An energy moves at half of a rise, and by its fall shift of a fall (R115). -/
theorem moveEnergy_eq (mode : DecodeMode) (e x : Nat) :
    moveEnergy mode e x
      = ((e : Int) + ((x : Int) - e) / (if e < x then 2 else if mode = .matrixMusic then 64 else 16)).toNat := by
  have hrise : 0 < (x : Int) - e ↔ e < x := by omega
  have hfall : asr ((x : Int) - e) (fallShift mode) = ((x : Int) - e) / (if mode = .matrixMusic then 64 else 16) := by
    cases mode <;> exact asr_eq_div (by decide) _
  simp only [moveEnergy, hrise, hfall, asr_eq_div (pow_one (2 : Int))]
  split_ifs <;> rfl

/-- The energy of a signal of a block's frames (R114). -/
theorem blockEnergy_map (fs : List (List (Role × Sample))) (g : List (Role × Sample) → Int) :
    blockEnergy (fs.map g) = sumNat (fs.map fun x => (g x * g x).toNat / 2 ^ 24) := by
  rw [blockEnergy, List.map_map]
  rfl

/-- The five signals of a frame (R117, R118). -/
theorem matrixFrame_eq (mode : DecodeMode) (fb lr : Int) (l r : Sample) :
    let gC := if mode = .matrixMusic then (max 0 fb).tdiv 2 else max 0 fb
    let gD := max 0 (-fb)
    let gS := gD + (4096 - |fb|) / 4
    let c := saturate (gC * ((l + r) / 2) / 4096)
    let d := saturate (gD * ((l - r) / 2) / 4096)
    let ss := saturate (gS * ((l - r) / 2) / 4096)
    matrixFrame mode fb lr l r
      = [(.fl, saturate (l - c - d)), (.fr, saturate (r - c + d)), (.c, c),
          (.sl, saturate (ss * (4096 + lr) / 8192)), (.sr, saturate (-(ss * (4096 - lr) / 8192)))] := by
  have hC : gainC mode fb = if mode = .matrixMusic then (max 0 fb).tdiv 2 else max 0 fb := by cases mode <;> rfl
  simp only [matrixFrame, hC, gainD, gainS, midOf_eq, sideOf_eq, asr_eq_div (show (2 : Int) ^ 2 = 4 by norm_num),
    asr_eq_div (show (2 : Int) ^ 12 = 4096 by norm_num), asr_eq_div (show (2 : Int) ^ 13 = 8192 by norm_num)]

/-! ## The fold (R119 to R121) -/

/-- What a signal adds to a destination by a role's fallbacks (R120). -/
def foldShare (L : List Role) (x : Sample) (dest : Role) (steps : List (List Role × Bool)) : Int :=
  if dest ∈ (foldStep L steps).1 then (if (foldStep L steps).2 then minus6 x else x) else 0

section fold
variable {L : List Role} {f : List (Role × Sample)} {dest : Role}

/-- A role with its own speaker adds nothing to others, nor does LFE where SW stands; any other goes by its fallbacks
(R120, R121). -/
theorem contribution_eq (L : List Role) (f : List (Role × Sample)) (dest r : Role) :
    contribution L f dest r
      = if r ∈ L ∨ (r = .lfe ∧ Role.sw ∈ L) then 0 else foldShare L (RoleFrame.get f r) dest (fallbacks r) := by
  unfold contribution foldOf
  split_ifs <;> rfl

/-- A role without fallbacks adds nothing. -/
theorem foldShare_nil (L : List Role) (x : Sample) (dest : Role) : foldShare L x dest [] = 0 := rfl

/-- A fallback that is present takes the signal (R120). -/
theorem foldShare_here (h : dest ∈ L) {rs : List Role} (hd : dest ∈ rs) (x : Sample) (six : Bool)
    (more : List (List Role × Bool)) : foldShare L x dest ((rs, six) :: more) = if six then minus6 x else x := by
  have hmem : dest ∈ rs.filter fun r => decide (r ∈ L) := List.mem_filter.mpr ⟨hd, decide_eq_true h⟩
  have hstep : foldStep L ((rs, six) :: more) = (rs.filter fun r => decide (r ∈ L), six) :=
    if_neg (List.ne_nil_of_mem hmem)
  rw [foldShare, hstep, if_pos hmem]

/-- Another fallback keeps the signal from a later one when it is present (R120). -/
theorem foldShare_other {a : Role} (ha : dest ≠ a) (x : Sample) (six : Bool) (more : List (List Role × Bool)) :
    foldShare L x dest (([a], six) :: more) = if a ∈ L then 0 else foldShare L x dest more := by
  by_cases h : a ∈ L
  · simp [foldShare, foldStep, h, ha]
  · simp [foldShare, foldStep, h]

/-- Only fallbacks take a signal (R120). -/
theorem foldStep_mem {steps : List (List Role × Bool)} (h : dest ∈ (foldStep L steps).1) :
    ∃ step ∈ steps, dest ∈ step.1 := by
  induction steps with
  | nil => exact absurd h List.not_mem_nil
  | cons step more ih =>
    unfold foldStep at h
    dsimp only at h
    split_ifs at h
    · obtain ⟨later, hlater, hd⟩ := ih h
      exact ⟨later, List.mem_cons_of_mem _ hlater, hd⟩
    · exact ⟨step, List.mem_cons_self, (List.mem_filter.mp h).1⟩

/-- A destination that no fallback names takes nothing. -/
theorem foldShare_unreached (x : Sample) {steps : List (List Role × Bool)} (h : ∀ step ∈ steps, dest ∉ step.1) :
    foldShare L x dest steps = 0 :=
  if_neg fun hd =>
    have ⟨step, hstep, hmem⟩ := foldStep_mem hd
    h step hstep hmem

/-- Signals that are 0 add nothing. -/
theorem sumInt_zero {α : Type} {g : α → Int} {xs : List α} (h : ∀ x ∈ xs, g x = 0) : sumInt (xs.map g) = 0 := by
  induction xs with
  | nil => rfl
  | cons x xs ih =>
    rw [List.map_cons, sumInt, h x List.mem_cons_self, ih fun y hy => h y (List.mem_cons_of_mem x hy), add_zero]

/-- C, the back pair and the top back pair stand in no fallback (R120). -/
theorem fallbacks_own : ∀ d ∈ [Role.c, .bl, .br, .tbl, .tbr], ∀ r ∈ sourceRoles, ∀ step ∈ fallbacks r, d ∉ step.1 := by
  decide

/-- A speaker that no fallback names plays its own signal (R120). -/
theorem foldFrame_own (h : ∀ r ∈ sourceRoles, ∀ step ∈ fallbacks r, dest ∉ step.1) :
    foldFrame L f dest = saturate (RoleFrame.get f dest) := by
  have hzero (r : Role) (hr : r ∈ sourceRoles) : contribution L f dest r = 0 := by
    rw [contribution_eq, foldShare_unreached _ (h r hr), ite_self]
  rw [foldFrame, sumInt_zero hzero, add_zero]

/-- What every role adds to a destination, role by role. -/
theorem foldFrame_roles (hl : Role.lfe ∉ L) :
    let add (r : Role) : Int := if r ∈ L then 0 else foldShare L (RoleFrame.get f r) dest (fallbacks r)
    foldFrame L f dest = saturate (RoleFrame.get f dest + add .c + add .sl + add .sr + add .bl + add .br + add .tfl
      + add .tfr + add .tbl + add .tbr
      + (if Role.sw ∈ L then 0 else foldShare L (RoleFrame.get f .lfe) dest (fallbacks .lfe))) := by
  have hfl : foldShare L (RoleFrame.get f .fl) dest (fallbacks .fl) = 0 := rfl
  have hfr : foldShare L (RoleFrame.get f .fr) dest (fallbacks .fr) = 0 := rfl
  simp only [foldFrame, sourceRoles, List.map_cons, List.map_nil, sumInt, contribution_eq, hfl, hfr, hl, reduceCtorEq,
    false_and, true_and, or_false, false_or, ite_self]
  congr 1
  ring

/-- FL takes its own signal and what falls to it (R120, R121). -/
theorem foldFrame_fl (hl : Role.lfe ∉ L) (h : Role.fl ∈ L) :
    foldFrame L f .fl = saturate (RoleFrame.get f .fl + (if .c ∈ L then 0 else minus6 (RoleFrame.get f .c))
      + (if .sl ∈ L then 0 else minus6 (RoleFrame.get f .sl))
      + (if .bl ∈ L then 0 else if .sl ∈ L then 0 else minus6 (RoleFrame.get f .bl))
      + (if .tfl ∈ L then 0 else minus6 (RoleFrame.get f .tfl))
      + (if .tbl ∈ L then 0 else if .tfl ∈ L then 0 else if .sl ∈ L then 0 else minus6 (RoleFrame.get f .tbl))
      + (if .sw ∈ L then 0 else RoleFrame.get f .lfe)) := by
  simp [foldFrame_roles hl, fallbacks, foldShare_here h, foldShare_other, foldShare_unreached]

theorem foldFrame_fr (hl : Role.lfe ∉ L) (h : Role.fr ∈ L) :
    foldFrame L f .fr = saturate (RoleFrame.get f .fr + (if .c ∈ L then 0 else minus6 (RoleFrame.get f .c))
      + (if .sr ∈ L then 0 else minus6 (RoleFrame.get f .sr))
      + (if .br ∈ L then 0 else if .sr ∈ L then 0 else minus6 (RoleFrame.get f .br))
      + (if .tfr ∈ L then 0 else minus6 (RoleFrame.get f .tfr))
      + (if .tbr ∈ L then 0 else if .tfr ∈ L then 0 else if .sr ∈ L then 0 else minus6 (RoleFrame.get f .tbr))
      + (if .sw ∈ L then 0 else RoleFrame.get f .lfe)) := by
  simp [foldFrame_roles hl, fallbacks, foldShare_here h, foldShare_other, foldShare_unreached]

theorem foldFrame_sl (hl : Role.lfe ∉ L) (h : Role.sl ∈ L) :
    foldFrame L f .sl = saturate (RoleFrame.get f .sl + (if .bl ∈ L then 0 else RoleFrame.get f .bl)
      + (if .tbl ∈ L then 0 else if .tfl ∈ L then 0 else minus6 (RoleFrame.get f .tbl))) := by
  simp [foldFrame_roles hl, fallbacks, foldShare_here h, foldShare_other, foldShare_unreached]

theorem foldFrame_sr (hl : Role.lfe ∉ L) (h : Role.sr ∈ L) :
    foldFrame L f .sr = saturate (RoleFrame.get f .sr + (if .br ∈ L then 0 else RoleFrame.get f .br)
      + (if .tbr ∈ L then 0 else if .tfr ∈ L then 0 else minus6 (RoleFrame.get f .tbr))) := by
  simp [foldFrame_roles hl, fallbacks, foldShare_here h, foldShare_other, foldShare_unreached]

theorem foldFrame_tfl (hl : Role.lfe ∉ L) (h : Role.tfl ∈ L) :
    foldFrame L f .tfl = saturate (RoleFrame.get f .tfl + (if .tbl ∈ L then 0 else RoleFrame.get f .tbl)) := by
  simp [foldFrame_roles hl, fallbacks, foldShare_here h, foldShare_unreached]

theorem foldFrame_tfr (hl : Role.lfe ∉ L) (h : Role.tfr ∈ L) :
    foldFrame L f .tfr = saturate (RoleFrame.get f .tfr + (if .tbr ∈ L then 0 else RoleFrame.get f .tbr)) := by
  simp [foldFrame_roles hl, fallbacks, foldShare_here h, foldShare_unreached]

end fold

/-! ## The downmix and the tap points (R122 to R124) -/

/-- A mono block by its format (R123). -/
theorem PathRec.oneChannel_iff (r : PathRec) :
    r.oneChannel = true ↔ ∃ f, r.yieldFormat = some f ∧ f.roles.length = 1 := by
  unfold PathRec.oneChannel
  split
  case h_1 h => simp [h]
  case h_2 f h => simp [h]

/-- A mono block by its tuner's band (R123). -/
theorem State.amPath_iff (s : State) (p : PathId) :
    s.amPath p = true ↔ s.pathKind p = .tuner ∧ s.tuner.band = .am := by
  simp [State.amPath]

/-- A zone's downmix is that of its path (R122). -/
theorem State.zoneDownmix_some {s : State} {z : Zone} {p : PathId} (h : (s.zone z).attached = some p) :
    s.zoneDownmix z = s.downmix p := by
  simp only [State.zoneDownmix, h]

/-- Without a path it is 0 (R122, R124). -/
theorem State.zoneDownmix_none {s : State} {z : Zone} (h : (s.zone z).attached = none) :
    s.zoneDownmix z = List.replicate 48 (0, 0) := by
  simp only [State.zoneDownmix, h]

/-- The stereo downmix of a frame (R122). -/
theorem downmixFrame_eq (f : List (Role × Sample)) :
    let x (r : Role) : Int := RoleFrame.get f r
    let h (v : Int) : Int := (v * 5931642 + 4194304) / 8388608
    downmixFrame f
      = (saturate (x .fl + h (x .c) + h (x .sl) + h (x .bl) + h (x .tfl) + h (x .tbl)),
        saturate (x .fr + h (x .c) + h (x .sr) + h (x .br) + h (x .tfr) + h (x .tbr))) := by
  simp only [downmixFrame, minus6_eq]

/-! ## The statement -/

/-- Settles O53: the signals by the rules of each stage of the mixer. -/
theorem mixerSignals : Obligations.MixerSignals := by
  refine ⟨State.mem_layout, fun roles f r hr => ⟨fun h => ?absent, fun i hi hfirst => ?first⟩, roleFrame_silent,
    fun _ => rfl, fun x => ⟨fun h => ?silentPath, fun g h => PathRec.roleFrames_some h, fun s z =>
      ⟨fun h => ?silentZone, fun p h => State.zoneRoles_some h⟩⟩, fun s h => ?plain, fun s p f hm ha hf hr => ?detects,
    fun s => ⟨fun h => ?whole, fun h => if_pos h, rfl⟩, matrixFrame_eq, fun L f hl => ?fold, fun s p => ?downmix,
    fun s => ?points⟩
  case absent => rw [roleFrame_get roles f hr, roleSample_absent roles f r h]
  case first => rw [roleFrame_get roles f hr, roleSample_first roles f r i hi hfirst]
  case silentPath =>
    rw [PathRec.roleFrames_none h]
    exact silentRoles_silent
  case silentZone =>
    rw [State.zoneRoles_none h]
    exact silentRoles_silent
  case plain =>
    refine State.mixBlock_plain fun hon => ?_
    obtain ⟨hm, p, f, ha, hf, hr⟩ := (s.matrixOn_mainFormat _).mp hon
    obtain ⟨hleft, hright⟩ := h.resolve_left hm p f ha hf
    exact hr.elim hleft hright
  case detects =>
    have hon := (s.matrixOn_mainFormat _).mpr ⟨hm, p, f, ha, hf, hr⟩
    rw [State.mixBlock_detects hon, State.zoneRoles_some (z := .main) ha]
    simp only [Mixer.detect, moveEnergy_eq, blockEnergy_map, midOf_eq, sideOf_eq]
    rfl
  case whole => exact if_neg (Bool.eq_false_iff.mp h)
  case fold =>
    intro x h out add
    have hout (r : Role) (v : Int) : add (out r) v = if r ∈ L then 0 else v := by
      simp only [add, out, decide_eq_true_eq, ite_not]
    have hand (p q : Bool) (v : Int) : add (p && q) v = add p (add q v) := by
      cases p <;> rfl
    have hh (r : Role) : minus6 (RoleFrame.get f r) = h r := minus6_eq _
    simp only [hand, hout, ← hh]
    exact ⟨fun r hr _ => foldFrame_own (fallbacks_own r hr), foldFrame_fl hl, foldFrame_fr hl, foldFrame_sl hl,
      foldFrame_sr hl, foldFrame_tfl hl, foldFrame_tfr hl⟩
  case downmix =>
    intro h mono am
    have hmono : (s.path p).oneChannel = true ↔ mono := PathRec.oneChannel_iff _
    have ham : s.amPath p = true ↔ am := s.amPath_iff p
    refine ⟨fun hone => ?one, fun hone hband => ?band, fun hone hband => ?stereo,
      fun ha => State.zoneDownmix_some (z := .main) ha, fun ha => State.zoneDownmix_some (z := .zone2) ha,
      fun ht => ?tuner⟩
    case one =>
      rw [State.downmix, if_pos (hmono.mpr hone)]
      simp only [minus6_eq]
      rfl
    case band =>
      rw [State.downmix, if_neg (mt hmono.mp hone), if_pos (ham.mpr hband)]
      simp only [minus6_eq, midOf_eq]
      rfl
    case stereo =>
      rw [State.downmix, if_neg (mt hmono.mp hone), if_neg (mt ham.mp hband)]
      exact congrArg ((s.path p).roleFrames.map ·) (funext downmixFrame_eq)
    case tuner => simp only [State.tapPoint, ht]
  case points =>
    refine ⟨fun h => State.zoneDownmix_none (z := .main) h, fun h => State.zoneDownmix_none (z := .zone2) h,
      fun h => ?_⟩
    simp only [State.tapPoint, h]

end Sys2Proof.Machine
end

section
/-! SUPPORT. The grids of the bands (R131) and the grid point a frequency is resolved into (R135): the nearest of its band,
a tie going to the lower. -/

namespace Sys2Proof.Machine

open Sys2Proof

/-- The multiple of a step that is nearest to a number, of two the lower, among those up to a limit that the number does
not exceed (R135): its factor. -/
def nearestFactor (limit step y : Nat) : Nat :=
  min (limit / step) (if step < 2 * (y % step) then y / step + 1 else y / step)

/-- The nearest multiple lies within the limit. -/
theorem nearestFactor_le (limit step y : Nat) : nearestFactor limit step y * step ≤ limit :=
  (Nat.mul_le_mul_right step (Nat.min_le_left _ _)).trans (Nat.div_mul_le_self limit step)

/-- The nearest multiple is the one below a number, unless the number is past the middle and the one above is within the
limit. -/
theorem nearestFactor_cases {limit step y : Nat} (hy : y ≤ limit) :
    (nearestFactor limit step y = y / step ∧ (2 * (y % step) ≤ step ∨ limit / step = y / step))
    ∨ (nearestFactor limit step y = y / step + 1 ∧ step < 2 * (y % step)) := by
  have hle : y / step ≤ limit / step := Nat.div_le_div_right hy
  unfold nearestFactor
  split_ifs with hpast
  · omega
  · omega

/-- No multiple within the limit is nearer, and none as near is lower. -/
theorem nearestFactor_nearest {limit step y : Nat} (hs : 0 < step) (hy : y ≤ limit) (j : Nat) (hj : j * step ≤ limit) :
    let n := nearestFactor limit step y
    (((n * step : Nat) : Int) - y).natAbs < (((j * step : Nat) : Int) - y).natAbs
      ∨ ((((n * step : Nat) : Int) - y).natAbs = (((j * step : Nat) : Int) - y).natAbs ∧ n * step ≤ j * step) := by
  intro n
  have hsplit : y / step * step + y % step = y := Nat.div_add_mod' y step
  have hrest : y % step < step := Nat.mod_lt y hs
  have hbelow : j ≤ y / step → j * step ≤ y / step * step := Nat.mul_le_mul_right step
  have habove : y / step + 1 ≤ j → y / step * step + step ≤ j * step := fun h => by
    have := Nat.mul_le_mul_right step h
    rwa [Nat.succ_mul] at this
  have hlast : limit / step = y / step → j ≤ y / step := fun h => h ▸ (Nat.le_div_iff_mul_le hs).mpr hj
  rcases nearestFactor_cases (step := step) hy with ⟨hn, hnear⟩ | ⟨hn, hfar⟩
  · rw [show n = y / step from hn]
    by_cases hjy : j ≤ y / step
    · have := hbelow hjy
      omega
    · have := habove (by omega)
      have := hnear.resolve_right (mt hlast hjy)
      omega
  · rw [show n = y / step + 1 from hn, Nat.succ_mul]
    by_cases hjy : j ≤ y / step
    · have := hbelow hjy
      omega
    · have := habove (by omega)
      omega

/-- The edges and the step of a band are in order, for the grids R131 allows. -/
theorem Region.grid_ordered (r : Region) (b : Band) (hf : r.fmStep = 50 ∨ r.fmStep = 100 ∨ r.fmStep = 200)
    (ha : r.amGrid = 9 ∨ r.amGrid = 10) : r.low b ≤ r.high b ∧ 0 < r.step b := by
  cases b with
  | fm =>
    show 87500 ≤ 108000 ∧ 0 < r.fmStep
    omega
  | am =>
    show (if r.amGrid = 10 then 520 else 522) ≤ 1710 ∧ 0 < r.amGrid
    split_ifs <;> omega

/-- A frequency is resolved into the grid point nearest to its clamped value (R135). -/
theorem Region.resolve_eq (r : Region) (b : Band) (f : Nat) (h : r.low b ≤ r.high b) :
    r.resolve b f = r.low b
      + nearestFactor (r.high b - r.low b) (r.step b) (max (r.low b) (min (r.high b) f) - r.low b) * r.step b := by
  rw [← clampNat_eq _ _ _ h, nearestFactor, ← Nat.mul_min_mul_right, ← Nat.add_min_add_left]
  rfl

/-- A frequency is clamped exactly when it lies outside its band (R135). -/
theorem Region.clamps_iff (r : Region) (b : Band) (f : Nat) (h : r.low b ≤ r.high b) :
    r.clamps b f = true ↔ f < r.low b ∨ r.high b < f := by
  rw [Region.clamps, decide_eq_true_iff, clampNat_eq _ _ _ h]
  omega

/-- The high edge of a band (R131). -/
theorem Region.high_eq (r : Region) (b : Band) : r.high b = if b = .fm then 108000 else 1710 := by
  cases b <;> rfl

/-- The grid a band has, from its low edge and step (R131). -/
theorem Region.grid_points (r : Region) (b : Band) (low step top count : Nat) (hlow : r.low b = low)
    (hstep : r.step b = step) (htop : low + ((if b = .fm then 108000 else 1710) - low) / step * step = top)
    (hcount : top = low + (count - 1) * step)
    (hpoints : ∀ k, low + k * step ≤ (if b = .fm then 108000 else 1710) ↔ k < count) :
    r.low b = low ∧ r.step b = step ∧ r.top b = top ∧ top = low + (count - 1) * step
    ∧ r.high b = (if b = .fm then 108000 else 1710)
    ∧ (∀ k, low + k * step ≤ r.high b ↔ k < count)
    ∧ ∀ f, r.adjacent b f .up = (if top < f + step then low else f + step)
        ∧ r.adjacent b f .down = (if f < low + step then top else f - step) := by
  obtain ⟨heq, hadjacent⟩ := r.grid b low _ step top hlow (r.high_eq b) hstep htop
  exact ⟨hlow, hstep, heq, hcount, r.high_eq b, r.high_eq b ▸ hpoints, hadjacent⟩

/-- Settles O40: the five grids, and the nearest grid point. -/
theorem frequencyIsResolved : Obligations.FrequencyIsResolved := by
  refine ⟨?grids, ?nearest⟩
  case grids =>
    intro r b low step top count hgrid
    rcases hgrid with ⟨rfl, hr, h⟩ | ⟨rfl, hr, h⟩ | ⟨rfl, hr, h⟩ | ⟨rfl, hr, h⟩ | ⟨rfl, hr, h⟩
    all_goals
      simp only [Prod.mk.injEq] at h
      obtain ⟨rfl, rfl, rfl, rfl⟩ := h
    case inl | inr.inl | inr.inr.inl =>
      exact r.grid_points .fm _ _ _ _ rfl hr rfl rfl fun k => by
        show _ ≤ 108000 ↔ _
        omega
    case inr.inr.inr.inl | inr.inr.inr.inr =>
      exact r.grid_points .am _ _ _ _ (by simp [Region.low, hr]) hr rfl rfl fun k => by
        show _ ≤ 1710 ↔ _
        omega
  case nearest =>
    intro r b f hf ha x g
    obtain ⟨horder, hstep⟩ := r.grid_ordered b hf ha
    have hg : g = r.low b + nearestFactor (r.high b - r.low b) (r.step b) (x - r.low b) * r.step b :=
      r.resolve_eq b f horder
    have hx : r.low b ≤ x ∧ x ≤ r.high b := by omega
    have hle := nearestFactor_le (r.high b - r.low b) (r.step b) (x - r.low b)
    refine ⟨⟨_, hg⟩, by omega, ?_, r.clamps_iff b f horder⟩
    intro k hk h
    have hnearest := nearestFactor_nearest hstep (show x - r.low b ≤ r.high b - r.low b by omega) k (by omega)
    dsimp only at hnearest
    omega

end Sys2Proof.Machine
end

section
/-! SUPPORT. SEEK and SCAN from the tuner's owner (R148, R150), ABORT_RADIO (R138, R152) and SET_REGION (R131, R132), and
the statements about them. -/

namespace Sys2Proof.Machine

open Sys2Proof

/-! ## Records and reports of the radio -/

/-- A report of the radio keeps the tuner. -/
@[simp] theorem State.radioReport_tuner (s : State) (c : RadioCause) : (s.radioReport c).tuner = s.tuner :=
  s.raise_tuner ..

/-- Aborting the radio operation clears its record, and keeps the rest of the tuner (R138). -/
@[simp] theorem State.abortOp_tuner (s : State) (fault : Bool) :
    (s.abortOp fault).tuner = { s.tuner with op := none } := by
  rw [s.abortOp_eq]

/-- Aborting the radio operation keeps the station list. -/
@[simp] theorem State.abortOp_stations (s : State) (fault : Bool) : (s.abortOp fault).stations = s.stations := by
  rw [s.abortOp_eq]

/-- A new operation record stands at the band and frequency at which the tuner stands (R133). -/
theorem State.beginOp_place (s : State) (k : Operation) (d : Direction) (c : Bool) :
    (s.beginOp k d c).tuner.band = s.tuner.band ∧ (s.beginOp k d c).tuner.freq = s.tuner.freq := by
  simp [State.beginOp]

/-- A new operation record keeps the station list. -/
@[simp] theorem State.beginOp_stations (s : State) (k : Operation) (d : Direction) (c : Bool) :
    (s.beginOp k d c).stations = s.stations := s.abortOp_stations false

/-! ## SEEK and SCAN (R148, R150) -/

/-- SEEK from the owner (R148). -/
theorem cmdSeek_owner (zone d : Byte) (s : State) (z : Zone) (hz : Zone.ofCode zone.toNat = some z)
    (ho : s.owner = some z) :
    (Direction.ofCode d.toNat = none → cmdSeek zone d s = refuse s .badArg)
    ∧ ∀ dir, Direction.ofCode d.toNat = some dir →
      (s.searching = true → cmdSeek zone d s = refuse s .busy)
      ∧ (s.searching = false →
        let v := s.beginOp .seek dir false
        let f := s.region.adjacent s.tuner.band s.tuner.freq dir
        cmdSeek zone d s = accepted { v with tuner := v.tuner.startAt .seeking s.tuner.band f }) := by
  rw [cmdSeek, withOwner_owner zone s _ z hz ho]
  refine ⟨fun hd => by rw [hd], fun dir hd => ?_⟩
  simp only [hd]
  refine ⟨fun hs => if_pos hs, fun hs => (if_neg (Bool.eq_false_iff.mp hs)).trans ?_⟩
  obtain ⟨hband, hfreq⟩ := s.beginOp_place .seek dir false
  rw [hband, hfreq]

/-- SCAN from the owner (R150). -/
theorem cmdScan_owner (zone b : Byte) (s : State) (z : Zone) (hz : Zone.ofCode zone.toNat = some z)
    (ho : s.owner = some z) :
    (Band.ofCode b.toNat = none → cmdScan zone b s = refuse s .badArg)
    ∧ ∀ band, Band.ofCode b.toNat = some band →
      (s.searching = true → cmdScan zone b s = refuse s .busy)
      ∧ (s.searching = false →
        let v := s.beginOp .scan .up false
        cmdScan zone b s = accepted { v with
          stations := s.stations.filter fun x => decide (x.band ≠ band)
          tuner := v.tuner.startAt .scanning band (s.region.low band) }) := by
  rw [cmdScan, withOwner_owner zone s _ z hz ho]
  refine ⟨fun hb => by rw [hb], fun band hb => ?_⟩
  simp only [hb]
  refine ⟨fun hs => if_pos hs, fun hs => (if_neg (Bool.eq_false_iff.mp hs)).trans ?_⟩
  rw [State.beginOp_stations]
  rfl

/-- The handover of a command does not start or end a search. -/
@[simp] theorem State.handOver_searching (s : State) (op target : Byte) (args : List Byte) :
    (s.handOver op target args).searching = s.searching := rfl

/-- Settles O36: what runs as a seek or scan, and the two commands by their cases. -/
theorem ownerSeeksAndScans : Obligations.OwnerSeeksAndScans := by
  refine ⟨State.searching_iff, ?_, ?_⟩
  · intro s zone d z hz ho h
    obtain ⟨hbad, hgood⟩ := cmdSeek_owner zone d (s.handOver 0x22 zone [d]) z hz ((State.handOver_owner ..).trans ho)
    simp only [State.handOver_region, State.handOver_tuner, State.handOver_searching] at hgood
    refine ⟨fun hd => congrArg Host.Outcome.next (State.runHost_refused h rfl (hbad hd)), fun dir hd => ?_⟩
    obtain ⟨hbusy, hfree⟩ := hgood dir hd
    exact ⟨fun hs => congrArg Host.Outcome.next (State.runHost_refused h rfl (hbusy hs)),
      fun hs => congrArg Host.Outcome.next (State.runHost_accepted (fun u =>
        let v := u.beginOp .seek dir false
        let f := s.region.adjacent s.tuner.band s.tuner.freq dir
        { v with tuner := v.tuner.startAt .seeking s.tuner.band f }) h rfl (hfree hs))⟩
  · intro s zone b z hz ho h
    obtain ⟨hbad, hgood⟩ := cmdScan_owner zone b (s.handOver 0x23 zone [b]) z hz ((State.handOver_owner ..).trans ho)
    simp only [State.handOver_region, State.handOver_stations, State.handOver_searching] at hgood
    refine ⟨fun hb => congrArg Host.Outcome.next (State.runHost_refused h rfl (hbad hb)), fun band hb => ?_⟩
    obtain ⟨hbusy, hfree⟩ := hgood band hb
    exact ⟨fun hs => congrArg Host.Outcome.next (State.runHost_refused h rfl (hbusy hs)),
      fun hs => congrArg Host.Outcome.next (State.runHost_accepted (fun u =>
        let v := u.beginOp .scan .up false
        { v with
          stations := s.stations.filter fun x => decide (x.band ≠ band)
          tuner := v.tuner.startAt .scanning band (s.region.low band) }) h rfl (hfree hs))⟩

/-! ## ABORT_RADIO (R138, R152) -/

/-- ABORT_RADIO by the tuner's state: nothing to abort, a tune that goes on, a seek that ends where it stands, and a scan
that tunes back (R138, R152). -/
theorem cmdAbortRadio_cases (s : State) :
    let t := s.tuner
    let v := s.abortOp false
    ((t.state = .idle ∨ t.state = .tuned ∨ t.state = .feFault) → cmdAbortRadio s = done s 0)
    ∧ (t.state = .tuning → cmdAbortRadio s = done v 0)
    ∧ (t.state = .seeking → t.phase ≠ .dwell → t.phase ≠ .advance →
      cmdAbortRadio s = done { v with tuner := { v.tuner with state := .tuning } } 0)
    ∧ (t.state = .seeking → (t.phase = .dwell ∨ t.phase = .advance) →
      cmdAbortRadio s
        = done (({ v with tuner := { v.tuner with state := .tuned, phase := .none } } : State).radioReport .tuned) 0)
    ∧ (∀ op, t.state = .scanning → t.op = some op →
      cmdAbortRadio s = done (v.tuneTo op.startBand op.startFreq) 0) := by
  intro t v
  refine ⟨fun h => ?_, fun h => ?_, fun h hd ha => ?_, fun h hp => ?_, fun op h hop => ?_⟩
  · rcases h with h | h | h
    all_goals simp only [cmdAbortRadio, show s.tuner.state = _ from h]
  · simp only [cmdAbortRadio, show s.tuner.state = _ from h]
    rfl
  · simp only [cmdAbortRadio, show s.tuner.state = _ from h]
    exact if_neg (not_or.mpr ⟨hd, ha⟩)
  · simp only [cmdAbortRadio, show s.tuner.state = _ from h]
    exact if_pos hp
  · simp only [cmdAbortRadio, show s.tuner.state = _ from h, show s.tuner.op = _ from hop]
    rfl

/-- Settles O37: the command by the tuner's state; a tune with no operation has none to abort. -/
theorem abortRadio : Obligations.AbortRadio := by
  intro s h gives
  have hgives (f : State → State)
      (hc : cmdAbortRadio (s.handOver 0x24 0 []) = done (f (s.handOver 0x24 0 [])) 0) : gives f :=
    congrArg Host.Outcome.next (s.runHost_answered f h rfl hc)
  obtain ⟨hrests, htunes, hearly, hlate, hscan⟩ := cmdAbortRadio_cases (s.handOver 0x24 0 [])
  simp only [State.handOver_tuner] at hrests htunes hearly hlate hscan
  refine ⟨fun hs => hgives id (hrests hs), fun hs hop => hgives id ?_, fun hs => hgives _ (htunes hs),
    fun hs hd ha => hgives _ (hearly hs hd ha), fun hs hp => hgives _ (hlate hs hp),
    fun op hs hop => hgives _ (hscan op hs hop)⟩
  rw [htunes hs, State.abortOp_none _ _ ((congrArg Tuner.op (State.handOver_tuner ..)).trans hop)]
  rfl

/-! ## SET_REGION (R131, R132) -/

/-- The grids that SET_REGION takes (R132). -/
theorem regionGridOk_iff (a : RegionArgs) : regionGridOk a = true ↔
    (a.fmStep.toNat = 50 ∨ a.fmStep.toNat = 100 ∨ a.fmStep.toNat = 200)
      ∧ (a.amGrid.toNat = 9 ∨ a.amGrid.toNat = 10) := by
  simp [regionGridOk, or_assoc]

/-- The settings of a SET_REGION, each clamped into its range (R131, R132). -/
theorem regionOf_eq (a : RegionArgs) : regionOf a =
    { fmStep := a.fmStep.toNat, amGrid := a.amGrid.toNat
      fmLevel := min 127 a.fmLevel.toNat, amLevel := min 127 a.amLevel.toNat
      fmOffset := min 127 a.fmOffset.toNat, amOffset := min 127 a.amOffset.toNat
      ampLow := min 6291455 a.ampLow.toNat, ampHigh := max 1 (min 6291456 a.ampHigh.toNat)
      errK := max 1 (min 8 a.errK.toNat), blendLo := min 126 a.blendLo.toNat
      blendHi := max 1 (min 127 a.blendHi.toNat), forcedMono := decide (a.forcedMono ≠ 0) } := by
  have hfrom (hi x : Nat) (h : 1 ≤ hi) : clampNat 1 hi x = max 1 (min hi x) := clampNat_eq 1 hi x h
  simp only [regionOf, clampNat_zero, hfrom _ _ (show 1 ≤ 6291456 by decide), hfrom _ _ (show 1 ≤ 8 by decide),
    hfrom _ _ (show 1 ≤ 127 by decide)]
  rfl

/-- SET_REGION by its checks, in their order (R132). -/
theorem cmdSetRegion_cases (a : RegionArgs) (s : State) :
    let gridOk := (a.fmStep.toNat = 50 ∨ a.fmStep.toNat = 100 ∨ a.fmStep.toNat = 200)
      ∧ (a.amGrid.toNat = 9 ∨ a.amGrid.toNat = 10)
    let pairsOk := a.blendLo.toNat < a.blendHi.toNat ∧ a.ampLow.toNat < a.ampHigh.toNat
    let busy := (a.fmStep.toNat ≠ s.region.fmStep ∨ a.amGrid.toNat ≠ s.region.amGrid)
      ∧ (s.tuner.state = .tuning ∨ s.tuner.state = .seeking ∨ s.tuner.state = .scanning)
    let r := regionOf a
    let c := clampResult (regionClamps a r)
    (¬ gridOk → cmdSetRegion a s = refuse s .badArg)
    ∧ (gridOk → ¬ pairsOk → cmdSetRegion a s = refuse s .badArg)
    ∧ (gridOk → pairsOk → busy → cmdSetRegion a s = refuse s .busy)
    ∧ (gridOk → pairsOk → ¬ busy → (r.blendHi ≤ r.blendLo ∨ r.ampHigh ≤ r.ampLow) →
        cmdSetRegion a s = refuse s .badArg)
    ∧ (gridOk → pairsOk → ¬ busy → r.blendLo < r.blendHi → r.ampLow < r.ampHigh →
        cmdSetRegion a s = { st := s.takeRegion r, res := c.1, val := c.2 }) := by
  intro gridOk pairsOk busy r c
  have hgrid (h : gridOk) : ¬ regionGridOk a = false := by simp [(regionGridOk_iff a).mpr h]
  have hpairs (h : pairsOk) : ¬ (a.blendHi.toNat ≤ a.blendLo.toNat ∨ a.ampHigh.toNat ≤ a.ampLow.toNat) := by
    obtain ⟨hblend, hamp⟩ := h
    omega
  have hbusy : ((decide (r.fmStep ≠ s.region.fmStep) || decide (r.amGrid ≠ s.region.amGrid))
      && (decide (s.tuner.state = .tuning) || decide (s.tuner.state = .seeking)
        || decide (s.tuner.state = .scanning))) = true ↔ busy := by
    simp only [Bool.and_eq_true, Bool.or_eq_true, decide_eq_true_eq, or_assoc]
    rfl
  refine ⟨fun h => if_pos (Bool.eq_false_iff.mpr (mt (regionGridOk_iff a).mp h)), fun hg hp => ?_, fun hg hp hb => ?_,
    fun hg hp hb hr => ?_, fun hg hp hb hblend hamp => ?_⟩
  · exact (if_neg (hgrid hg)).trans (if_pos (by omega))
  · exact (if_neg (hgrid hg)).trans ((if_neg (hpairs hp)).trans (if_pos (hbusy.mpr hb)))
  · exact (if_neg (hgrid hg)).trans ((if_neg (hpairs hp)).trans ((if_neg (mt hbusy.mp hb)).trans (if_pos hr)))
  · refine (if_neg (hgrid hg)).trans ((if_neg (hpairs hp)).trans ((if_neg (mt hbusy.mp hb)).trans ?_))
    exact (if_neg (not_or.mpr ⟨Nat.not_le.mpr hblend, Nat.not_le.mpr hamp⟩)).trans (clampedOr_eq _ _)

/-- The station list after a band's grid has changed, or not (R132). -/
theorem dropBand_unless (c : Prop) [Decidable c] (b : Band) (xs : List Station) :
    (if c then xs else dropBand b xs) = xs.filter fun x => decide (c ∨ x.band ≠ b) := by
  by_cases h : c
  · simp [h]
  · simp [h, dropBand]

/-- The stations that a change of grids leaves: those of the bands whose grid stands (R132). -/
theorem State.gridStations_eq (s : State) (q : Region) :
    s.gridStations q = s.stations.filter fun x => decide (q.step x.band = s.region.step x.band) := by
  rw [State.gridStations, dropBand_unless, dropBand_unless, List.filter_filter]
  refine List.filter_congr fun x _ => ?_
  rw [← Bool.decide_and, decide_eq_decide]
  cases x.band with
  | fm => simp [Region.step]
  | am => simp [Region.step]

/-- The settings are taken (R132): the tuner stands, tunes to its rounded frequency, or takes it. -/
theorem State.takeRegion_cases (u : State) (q : Region) :
    let b := u.tuner.band
    let f := if q.step b = u.region.step b then u.tuner.freq else q.resolve b u.tuner.freq
    let v : State := { u with region := q, stations := u.gridStations q }
    (f = u.tuner.freq → u.takeRegion q = v)
    ∧ (f ≠ u.tuner.freq → u.tuner.state = .tuned → u.takeRegion q = (v.tuneTo b f).radioReport .region)
    ∧ (f ≠ u.tuner.freq → u.tuner.state ≠ .tuned →
        u.takeRegion q = ({ v with tuner := { v.tuner with freq := f } }).radioReport .region) :=
  ⟨fun hf => if_pos hf, fun hf ht => (if_neg hf).trans (if_pos ht), fun hf ht => (if_neg hf).trans (if_neg ht)⟩

/-- Settles O38: the checks, the settings taken, and the fields of the report. -/
theorem setRegion : Obligations.SetRegion := by
  intro s a h args refused gridOk pairsOk busy r c
  have hr : r = regionOf a := (regionOf_eq a).symm
  have hrefused {res : CmdResult}
      (hc : cmdSetRegion a (s.handOver 0x25 0 args) = refuse (s.handOver 0x25 0 args) res) : refused res :=
    congrArg Host.Outcome.next (s.runHost_refused h rfl hc)
  obtain ⟨hgrid, hpairs, hbusy, hclamped, htaken⟩ := cmdSetRegion_cases a (s.handOver 0x25 0 args)
  simp only [State.handOver_region, State.handOver_tuner, ← hr] at hbusy hclamped htaken
  refine ⟨fun hg => hrefused (hgrid hg), fun hg hp => hrefused (hpairs hg hp),
    fun hg hp hb => hrefused (hbusy hg hp hb), fun hg hp hb hbad => hrefused (hclamped hg hp hb hbad),
    fun hg hp hb hblend hamp => congrArg Host.Outcome.next (s.runHost_answered (fun u => u.takeRegion r) h rfl
      (htaken hg hp hb hblend hamp)), ?_, fun _ _ => rfl⟩
  intro u q b kept f v
  have hkept : kept = fun x => decide (q.step x.band = u.region.step x.band) := by
    funext x
    obtain ⟨band, -⟩ := x
    cases band <;> rfl
  have hv : v = { u with region := q, stations := u.gridStations q } := by rw [u.gridStations_eq q, ← hkept]
  rw [hv]
  exact u.takeRegion_cases q

end Sys2Proof.Machine
end

section
/-! SUPPORT. How tunes, seeks and scans end (R130, R137, R149, R151), the next point of a search (R149, R151), what passes
a dwell (R147), the label of a candidate (R154), and the statement about them. -/

namespace Sys2Proof.Machine

open Sys2Proof

/-! ## The end of an operation (R144, R160) -/

/-- With no operation in progress none ends. -/
theorem State.endOp_none (s : State) (res : CmdResult) (flags : Byte) (level : Nat) (h : s.tuner.op = none) :
    s.endOp res flags level = s := by
  simp only [State.endOp, h]

/-- The operation in progress completes, and its record is cleared. -/
theorem State.endOp_some (s : State) (res : CmdResult) (flags : Byte) (level : Nat) (op : OpRecord)
    (h : s.tuner.op = some op) :
    s.endOp res flags level = ({ s with tuner := { s.tuner with op := none } } : State).raiseDone op.tag
      (radioDone s.tuner op res flags level) := by
  simp only [State.endOp, h]

/-- The end of an operation clears its record, and keeps the rest of the tuner. -/
@[simp] theorem State.endOp_tuner (s : State) (res : CmdResult) (flags : Byte) (level : Nat) :
    (s.endOp res flags level).tuner = { s.tuner with op := none } := by
  cases hop : s.tuner.op with
  | none => rw [s.endOp_none res flags level hop, ← hop]
  | some op => rw [s.endOp_some res flags level op hop, State.raiseDone_tuner]

/-- The flags of a completion that is not aborted: CLAMPED and UNSETTLED (11.3). -/
theorem radioFlags_ended (clamped unsettled : Bool) :
    radioFlags clamped unsettled false = (if clamped = true then 1 else 0) + (if unsettled = true then 2 else 0) := by
  cases clamped <;> cases unsettled <;> rfl

/-- The end of a tune: TUNED, with the result and the flags of the operation it ends (R137, R149). -/
theorem State.endTune_cases (s : State) (unsettled : Bool) :
    let t := s.tuner
    let v : State := { s with tuner := { t with state := .tuned, phase := .none } }
    let un : Byte := if unsettled = true then 2 else 0
    (t.op = none → s.endTune unsettled = v.radioReport .tuned)
    ∧ (∀ op, t.op = some op →
        s.endTune unsettled = (v.endOp (if op.kind = .seek then .none else .ok)
          ((if op.clamped = true then 1 else 0) + un) t.level).radioReport .tuned) := by
  intro t v un
  refine ⟨fun hop => ?_, fun op hop => ?_⟩
  · exact congrArg (State.radioReport · .tuned) (v.endOp_none _ _ _ hop)
  · have hrecord : s.tuner.op = some op := hop
    simp only [State.endTune, radioFlags_ended, v, un, t, hrecord]

/-- FE_FAULT aborts the operation with the fault flag and puts the line and the pilot at rest (R130, log 62). -/
theorem State.feFault_eq (s : State) :
    let v := s.endOp .aborted 4 s.tuner.level
    s.feFault = State.radioReport { v with tuner := { s.tuner with
      state := .feFault, openTx := none, waiting := none, identified := false, phase := .none, silence := 0
      settleCount := 0, pilot := .absent, inRun := 0, missRun := 0, pilotCount := 0, blend := 0, blendTimer := 0
      op := none } } .feFault := by
  intro v
  have hv : s.abortOp true = v := rfl
  simp only [State.feFault, hv, show v.tuner = _ from s.endOp_tuner ..]
  rfl

/-! ## The next point (R149, R151) -/

/-- A scan goes up to the highest grid point, and a seek round to its start; then they tune back (R149, R151). -/
theorem State.nextPoint_cases (s : State) (op : OpRecord) (hop : s.tuner.op = some op) :
    let t := s.tuner
    let r := s.region
    let back := s.tuneTo op.startBand op.startFreq
    let next := r.adjacent t.band t.freq op.dir
    (op.kind = .scan → r.top t.band ≤ t.freq → s.nextPoint = back)
    ∧ (op.kind = .scan → t.freq < r.top t.band → s.nextPoint = s.testAt t.band (t.freq + r.step t.band))
    ∧ (op.kind ≠ .scan → next = op.startFreq → s.nextPoint = back)
    ∧ (op.kind ≠ .scan → next ≠ op.startFreq → s.nextPoint = s.testAt t.band next) := by
  intro t r back next
  have hnext : s.nextPoint =
      if op.kind = .scan then
        if r.top t.band ≤ t.freq then back else s.testAt t.band (t.freq + r.step t.band)
      else if next = op.startFreq then back else s.testAt t.band next := by
    simp only [State.nextPoint, hop]
    rfl
  rw [hnext]
  exact ⟨fun hk hf => (if_pos hk).trans (if_pos hf), fun hk hf => (if_pos hk).trans (if_neg (Nat.not_le.mpr hf)),
    fun hk hf => (if_neg hk).trans (if_pos hf), fun hk hf => (if_neg hk).trans (if_neg hf)⟩

/-- A scan counts the point, and reports PROGRESS at each multiple of 32 (R151). -/
theorem State.countTested_cases (s : State) (op : OpRecord) (hop : s.tuner.op = some op) :
    let u : State := { s with tuner := { s.tuner with op := some { op with tested := op.tested + 1 } } }
    (op.kind ≠ .scan → s.countTested = s)
    ∧ (op.kind = .scan → (op.tested + 1) % 32 ≠ 0 → s.countTested = u)
    ∧ (op.kind = .scan → (op.tested + 1) % 32 = 0 → s.countTested = u.radioReport .progress) := by
  intro u
  have hcount : s.countTested =
      if op.kind ≠ .scan then s else if (op.tested + 1) % 32 = 0 then u.radioReport .progress else u := by
    simp only [State.countTested, hop]
    rfl
  rw [hcount]
  exact ⟨fun hk => if_pos hk, fun hk hm => (if_neg (not_not.mpr hk)).trans (if_neg hm),
    fun hk hm => (if_neg (not_not.mpr hk)).trans (if_pos hm)⟩

/-- With no operation in progress no search goes on, and none counts. -/
theorem State.noSearch (s : State) (hop : s.tuner.op = none) : s.nextPoint = s ∧ s.countTested = s := by
  simp only [State.nextPoint, State.countTested, hop, and_self]

/-! ## The end of a dwell (R147) -/

/-- What passes: the means against the thresholds of the band, and the errors of the dwell (R147). -/
theorem Region.passes_iff (r : Region) (b : Band) (d : Dwell) :
    r.passes b d = true ↔ (if b = .fm then r.fmLevel else r.amLevel) ≤ d.meanLevel
      ∧ d.meanOffset.natAbs ≤ (if b = .fm then r.fmOffset else r.amOffset) ∧ d.errors < r.errK := by
  cases b with
  | fm => simp [Region.passes, and_assoc]
  | am => simp [Region.passes, and_assoc]

/-- A dwell that ends: a scan takes what passes and counts the point, a seek that passes is done, and else the search
waits for its next point (R147, R149, R151, log 19). -/
theorem State.endDwell_cases (s : State) (d : Dwell) (op : OpRecord) (hop : s.tuner.op = some op) :
    let pass := s.region.passes s.tuner.band d
    let waits (u : State) : State := { u with tuner := { u.tuner with phase := .advance } }
    (op.kind = .scan → pass = true → s.endDwell d = waits (s.takeCandidate d).countTested)
    ∧ (op.kind = .scan → pass = false → s.endDwell d = waits s.countTested)
    ∧ (op.kind ≠ .scan → pass = true → s.endDwell d = s.seekFound d)
    ∧ (op.kind ≠ .scan → pass = false → s.endDwell d = waits s) := by
  intro pass waits
  have hend : s.endDwell d =
      if op.kind = .scan then waits (if pass then s.takeCandidate d else s).countTested
      else if pass then s.seekFound d else waits s := by
    unfold State.endDwell
    dsimp only
    split
    case h_1 hnone => exact absurd (hop.symm.trans hnone) (Option.some_ne_none op)
    case h_2 x hx =>
      obtain rfl : op = x := Option.some.inj (hop.symm.trans hx)
      rfl
  rw [hend]
  refine ⟨fun hk hp => (if_pos hk).trans ?_, fun hk hp => (if_pos hk).trans ?_, fun hk hp => (if_neg hk).trans ?_,
    fun hk hp => (if_neg hk).trans ?_⟩
  all_goals simp only [hp, if_true, Bool.false_eq_true, if_false]

/-- A point of a scan that passes is counted and inserted, and a station it drops is counted (R151, R154). -/
theorem State.takeCandidate_some (s : State) (d : Dwell) (op : OpRecord) (hop : s.tuner.op = some op) :
    let t := s.tuner
    let x : Station :=
      { band := t.band, freq := t.freq, level := d.levelSum / d.blocks, stereo := d.stereo && decide (t.band = .fm)
        label := s.presetLabel t.band t.freq }
    let l := insertCandidate (s.region.step t.band) x s.stations
    s.takeCandidate d = { s with stations := l.1, tuner := { t with op := some { op with
      found := op.found + 1, dropped := op.dropped + (if l.2 = true then 1 else 0) } } } := by
  intro t x l
  simp only [State.takeCandidate, hop]
  rfl

/-! ## The label of a candidate (R154) -/

/-- The first used preset with a property is that of the lowest index. -/
theorem State.find_usedPresets (s : State) (q : Preset → Bool) :
    (s.presets.toList.filterMap id).find? q
      = (Fin.find? fun k => (getAt s.presets k).any q).bind (getAt s.presets) := by
  rw [toList_eq_map_getAt, List.filterMap_map, List.find?_filterMap, Fin.find?_eq_find?_finRange]
  rfl

/-- The lowest-indexed used preset at a band and frequency gives its label (R154). -/
theorem State.presetLabel_first (s : State) (b : Band) (f : Nat) (k : Fin 40) (p : Preset)
    (hk : getAt s.presets k = some p) (hb : p.band = b) (hf : p.freq = f)
    (hfirst : ∀ (j : Fin 40) (q : Preset), j < k → getAt s.presets j = some q → ¬ (q.band = b ∧ q.freq = f)) :
    s.presetLabel b f = p.label := by
  have hlowest : (Fin.find? fun j => (getAt s.presets j).any fun q => decide (q.band = b) && decide (q.freq = f))
      = some k := by
    refine Fin.find?_eq_some_iff.mpr ⟨by simp [hk, hb, hf], fun j hj => ?_⟩
    cases hq : getAt s.presets j with
    | none => rfl
    | some q => simpa using hfirst j q hj hq
  rw [State.presetLabel, State.find_usedPresets, hlowest, Option.bind_some, hk]

/-- With no used preset at a band and frequency there is no label. -/
theorem State.presetLabel_none (s : State) (b : Band) (f : Nat)
    (h : ∀ (k : Fin 40) (p : Preset), getAt s.presets k = some p → ¬ (p.band = b ∧ p.freq = f)) :
    s.presetLabel b f = none := by
  have hnone : (Fin.find? fun j => (getAt s.presets j).any fun q => decide (q.band = b) && decide (q.freq = f))
      = none := by
    refine Fin.find?_eq_none_iff.mpr fun k => ?_
    cases hq : getAt s.presets k with
    | none => rfl
    | some q => simpa using h k q hq
  rw [State.presetLabel, State.find_usedPresets, hnone, Option.bind_none]

/-- Settles O42: the ends of operations, the next point, the end of a dwell, and the label of a candidate. -/
theorem tunesAndSearchesEnd : Obligations.TunesAndSearchesEnd := by
  refine ⟨?ends, ?tunes, fun s => ⟨s.feFault_eq, rfl, rfl⟩, ?next, State.countTested_cases, State.noSearch,
    fun r b d => ⟨rfl, rfl, r.passes_iff b d⟩, ?dwell,
    fun s b f => ⟨fun k p hk hb hf => s.presetLabel_first b f k p hk hb hf, s.presetLabel_none b f⟩⟩
  case ends => exact fun s res flags level => ⟨s.endOp_none res flags level, s.endOp_some res flags level⟩
  case tunes =>
    intro s unsettled t v un
    obtain ⟨hnone, hsome⟩ := s.endTune_cases unsettled
    exact ⟨hnone, hsome, fun ht => ⟨if_pos ht, if_pos ht⟩, fun ht => ⟨if_neg ht, if_neg ht⟩⟩
  case next =>
    intro s op hop t r back test next
    have hnext : next = r.adjacent t.band t.freq op.dir := by
      cases hd : op.dir with
      | up => simp only [next, hd, Region.adjacent]
      | down => simp only [next, hd, Region.adjacent]
    rw [hnext]
    exact s.nextPoint_cases op hop
  case dwell =>
    intro s d op hop t pass waits x l found
    have hfound : s.takeCandidate d = found := s.takeCandidate_some d op hop
    obtain ⟨hscan, hmiss, hseek, hgoes⟩ := s.endDwell_cases d op hop
    rw [hfound] at hscan
    exact ⟨hscan, hmiss, hseek, hgoes⟩

end Sys2Proof.Machine
end

section
/-! SUPPORT. What arrives from the front end: acknowledgements (R127, R128, R201), status records and bursts (R129, R201),
pilot captures (R140, R141), and the statement about them. -/

namespace Sys2Proof.Machine

open Sys2Proof

/-! ## Acknowledgements (R127, R128) -/

/-- With no transaction open, or for another request, an acknowledgement changes nothing (R127). -/
theorem Tuner.acknowledge_ignored (t : Tuner) (request identity : Byte)
    (h : ∀ x, t.openTx = some x → request ≠ x.request.byte) : t.acknowledge request identity = t := by
  unfold Tuner.acknowledge
  split
  case h_1 => rfl
  case h_2 x hx => exact if_neg (h x hx)

/-- The acknowledgement of the open transaction completes it (R127). -/
theorem Tuner.acknowledge_completes (t : Tuner) (request identity : Byte) (x : Transaction) (hx : t.openTx = some x)
    (h : request = x.request.byte) : t.acknowledge request identity = t.complete x.request identity := by
  simp only [Tuner.acknowledge, hx, if_pos h]

/-- A completed IDENTIFY leaves the identity, and the request that waits is sent (R127, R128). -/
theorem Tuner.complete_identify (t : Tuner) (identity : Byte) :
    let u : Tuner := { t with openTx := none, identified := true, identity := identity }
    (t.waiting = none → t.complete .identify identity = u)
    ∧ ∀ b f, t.waiting = some (b, f) →
        t.complete .identify identity = { u with waiting := none }.send (.setTune b f) := by
  intro u
  refine ⟨fun hw => ?_, fun b f hw => ?_⟩
  · simp only [Tuner.complete, hw, u]
  · simp only [Tuner.complete, hw, u]

/-- A completed SET_TUNE begins the settle wait of its tune or test, unless another request waits (R127, R137). -/
theorem Tuner.complete_setTune (t : Tuner) (b : Band) (f : Nat) (identity : Byte) :
    let u : Tuner := { t with openTx := none }
    (t.waiting = none → t.complete (.setTune b f) identity =
      if t.phase = .sending then { u with phase := .settling, settleCount := 0 } else u)
    ∧ ∀ c g, t.waiting = some (c, g) →
        t.complete (.setTune b f) identity = { u with waiting := none }.send (.setTune c g) := by
  intro u
  refine ⟨fun hw => ?_, fun c g hw => ?_⟩
  · simp only [Tuner.complete, hw, u]
  · simp only [Tuner.complete, hw, u]

/-- FE_ACKNOWLEDGEMENT by the open transaction and the request that waits (R127, R128, R201). -/
theorem Tuner.acknowledge_cases (t : Tuner) (request identity : Byte) (x : Transaction) (hx : t.openTx = some x) :
    let leaves (u : Tuner) : Prop := t.acknowledge request identity = u
    (∀ b f, x.request = .setTune b f → request ≠ 2 → leaves t)
    ∧ (x.request = .identify → request ≠ 1 → leaves t)
    ∧ (x.request = .identify → request = 1 → t.waiting = none →
        leaves { t with openTx := none, identified := true, identity := identity })
    ∧ (∀ b f, x.request = .identify → request = 1 → t.waiting = some (b, f) →
        leaves { t with
          identified := true, identity := identity, waiting := none, ctlSent := some (.setTune b f)
          openTx := some { request := .setTune b f, timer := 2, retried := false } })
    ∧ (∀ b f c g, x.request = .setTune b f → request = 2 → t.waiting = some (c, g) →
        leaves { t with
          waiting := none, ctlSent := some (.setTune c g)
          openTx := some { request := .setTune c g, timer := 2, retried := false } })
    ∧ (∀ b f, x.request = .setTune b f → request = 2 → t.waiting = none →
        leaves (if t.phase = .sending then { t with openTx := none, phase := .settling, settleCount := 0 }
          else { t with openTx := none })) := by
  intro leaves
  have hother (h : request ≠ x.request.byte) : leaves t :=
    t.acknowledge_ignored request identity fun y hy => Option.some.inj (hx.symm.trans hy) ▸ h
  have hnamed (h : request = x.request.byte) : t.acknowledge request identity = t.complete x.request identity :=
    t.acknowledge_completes request identity x hx h
  refine ⟨fun b f hq hr => hother ?_, fun hq hr => hother ?_, fun hq hr hw => (hnamed ?_).trans ?_,
    fun b f hq hr hw => (hnamed ?_).trans ?_, fun b f c g hq hr hw => (hnamed ?_).trans ?_,
    fun b f hq hr hw => (hnamed ?_).trans ?_⟩
  all_goals rw [hq]
  case refine_1 | refine_2 | refine_3 | refine_5 | refine_7 | refine_9 => exact hr
  · exact (t.complete_identify identity).1 hw
  · exact (t.complete_identify identity).2 b f hw
  · exact (t.complete_setTune b f identity).2 c g hw
  · exact (t.complete_setTune b f identity).1 hw

/-! ## Status records and bursts (R129, R201) -/

/-- A status record by the burst it came with, and by where the tune or test stands (R129, R137, R146, R201). -/
theorem State.statusRecord_cases (s : State) (settled : Bool) (level : Nat) (offset : Int) :
    let put (u : Tuner) : Tuner := { u with level := level, offset := offset, statusArrived := true }
    let v : State := { s with tuner := put s.tuner }
    (s.tuner.burst = .short → s.statusRecord settled level offset = s)
    ∧ (s.tuner.burst ≠ .short → (settled = false ∨ s.tuner.phase ≠ .settling) →
        s.statusRecord settled level offset = v)
    ∧ (s.tuner.burst ≠ .short → settled = true → s.tuner.phase = .settling →
        s.statusRecord settled level offset = v.settled) := by
  intro put v
  have hsettles : (settled && decide (s.tuner.phase = .settling)) = true ↔
      settled = true ∧ s.tuner.phase = .settling := by
    rw [Bool.and_eq_true, decide_eq_true_iff]
  refine ⟨fun hb => if_pos hb, fun hb h => (if_neg hb).trans (if_neg (mt hsettles.mp ?_)),
    fun hb hs hp => (if_neg hb).trans (if_pos (hsettles.mpr ⟨hs, hp⟩))⟩
  rintro ⟨hs, hp⟩
  exact h.elim (fun hn => Bool.false_ne_true (hn.symm.trans hs)) fun hn => hn hp

/-- A burst by its length and the tuner's state (R129, R201). -/
theorem Tuner.takeBurst_cases (t : Tuner) (ps : List (BitVec 16 × BitVec 16)) :
    (ps.length < 192 → t.takeBurst ps = { t with burst := .short })
    ∧ (192 ≤ ps.length → (t.state = .idle ∨ t.state = .feFault) → t.takeBurst ps = { t with burst := .none })
    ∧ (192 ≤ ps.length → t.state ≠ .idle → t.state ≠ .feFault → t.takeBurst ps = { t with burst := .full ps }) := by
  refine ⟨fun hl => if_pos hl, fun hl hs => (if_neg (Nat.not_lt.mpr hl)).trans (if_pos ?_),
    fun hl hi hf => (if_neg (Nat.not_lt.mpr hl)).trans (if_neg ?_)⟩
  · rcases hs with hs | hs
    all_goals
      rw [hs]
      rfl
  · cases hs : t.state with
    | idle => exact absurd hs hi
    | feFault => exact absurd hs hf
    | _ => decide

/-! ## The pilot (R140, R141) -/

/-- When the pilot's period counter runs (R140, log 19). -/
theorem Tuner.pilotRuns_iff (t : Tuner) : t.pilotRuns = true ↔ t.band = .fm ∧ (t.state = .tuned
    ∨ ((t.state = .seeking ∨ t.state = .scanning) ∧ (t.phase = .dwell ∨ t.phase = .advance))) := by
  simp [Tuner.pilotRuns]

/-- A capture in the window makes the run of hits longer, to PRESENT at 16, and any other the run of misses, to ABSENT at
4 (R140, R141). -/
theorem Tuner.capture_cases (t : Tuner) (c : Nat) :
    (640 ≤ c → c ≤ 653 → t.capture c = { t with
      pilotCount := 0, inRun := min 16 (t.inRun + 1), missRun := 0
      pilot := if 15 ≤ t.inRun then .present else t.pilot })
    ∧ ((c < 640 ∨ 653 < c) → t.capture c = { t with
      pilotCount := 0, missRun := min 4 (t.missRun + 1), inRun := 0
      pilot := if 3 ≤ t.missRun then .absent else t.pilot }) := by
  have hwindow : inWindow c = true ↔ 640 ≤ c ∧ c ≤ 653 := by simp [inWindow]
  have hsixteen : min 16 (t.inRun + 1) = 16 ↔ 15 ≤ t.inRun := by omega
  have hfour : min 4 (t.missRun + 1) = 4 ↔ 3 ≤ t.missRun := by omega
  refine ⟨fun hlo hhi => (if_pos (hwindow.mpr ⟨hlo, hhi⟩)).trans ?_, fun hout => (if_neg (mt hwindow.mp ?_)).trans ?_⟩
  · simp only [hsixteen]
  · omega
  · simp only [hfour]

/-- A capture is used while the counter runs, and a change of the pilot is reported (R140, R141). -/
theorem State.pilotCapture_cases (s : State) (c : Nat) :
    let t := s.tuner.capture c
    (s.tuner.pilotRuns = false → s.pilotCapture c = s)
    ∧ (s.tuner.pilotRuns = true → s.pilotCapture c =
        if t.pilot = s.tuner.pilot then { s with tuner := t } else ({ s with tuner := t } : State).radioReport .pilot) :=
  ⟨fun h => if_pos h, fun h => if_neg (by simp [h])⟩

/-- Settles O59: acknowledgements, status records, bursts, the bytes of a request, and the pilot's captures. -/
theorem frontEndArrivals : Obligations.FrontEndArrivals := by
  refine ⟨?acknowledgements, ?records, ?bursts, fun b f => ⟨rfl, ?bytes⟩, ?line, ?pilot⟩
  case acknowledgements =>
    intro s request identity t leaves
    have hleaves {x : Tuner} (h : t.acknowledge request identity = x) : leaves x :=
      congrArg (fun u : Tuner => Host.Outcome.next ({ s with tuner := u } : State)) h
    refine ⟨fun ho => hleaves (t.acknowledge_ignored request identity fun x hx => ?_), fun x hx => ?_⟩
    · cases ho.symm.trans hx
    · obtain ⟨htune, hidentify, hidentified, hsends, hnext, hsettles⟩ := t.acknowledge_cases request identity x hx
      exact ⟨fun b f hq hr => hleaves (htune b f hq hr), fun hq hr => hleaves (hidentify hq hr),
        fun hq hr hw => hleaves (hidentified hq hr hw), fun b f hq hr hw => hleaves (hsends b f hq hr hw),
        fun b f c g hq hr hw => hleaves (hnext b f c g hq hr hw), fun b f hq hr hw => hleaves (hsettles b f hq hr hw)⟩
  case records =>
    intro s settled level offset put
    obtain ⟨hshort, harrives, hsettles⟩ := s.statusRecord_cases settled level.toNat offset.toInt
    refine ⟨fun hb => congrArg Host.Outcome.next (hshort hb), fun hb h => congrArg Host.Outcome.next (harrives hb h),
      fun hb hs hp ht => congrArg Host.Outcome.next ((hsettles hb hs hp).trans (if_neg ht)), fun hb hs hp ht => ?_⟩
    have hends := (hsettles hb hs hp).trans (if_pos ht)
    exact ⟨congrArg Host.Outcome.next hends,
      fun hop => congrArg Host.Outcome.next (hends.trans ((State.endTune_cases _ false).1 hop))⟩
  case bursts =>
    intro s ps leaves
    have hleaves {b : Burst} (h : s.tuner.takeBurst ps = { s.tuner with burst := b }) : leaves b :=
      congrArg (fun u : Tuner => Host.Outcome.next ({ s with tuner := u } : State)) h
    obtain ⟨hshort, hunused, hfull⟩ := s.tuner.takeBurst_cases ps
    exact ⟨fun hl => hleaves (hshort hl), fun hl hs => hleaves (hunused hl hs),
      fun hl hi hf => hleaves (hfull hl hi hf)⟩
  case bytes => cases b <;> rfl
  case line =>
    intro t
    exact ⟨fun h => by simp only [Tuner.controlLine, h], fun q h => by simp only [Tuner.controlLine, h]⟩
  case pilot =>
    intro s n t runs c put hit miss
    have hruns : s.tuner.pilotRuns = true ↔ runs := s.tuner.pilotRuns_iff
    have hstopped (h : ¬ runs) (k : Nat) : s.pilotCapture k = s :=
      (s.pilotCapture_cases k).1 (Bool.eq_false_iff.mpr (mt hruns.mp h))
    have hcapture (h : runs) (k : Nat) (x : Tuner) (hx : s.tuner.capture k = x) : s.pilotCapture k = put s x :=
      hx ▸ (s.pilotCapture_cases k).2 (hruns.mpr h)
    exact ⟨fun h => ⟨congrArg Host.Outcome.next (hstopped h c), congrArg Host.Outcome.next (hstopped h 1000)⟩,
      fun h hlo hhi => congrArg Host.Outcome.next (hcapture h c hit ((s.tuner.capture_cases c).1 hlo hhi)),
      fun h hout => congrArg Host.Outcome.next (hcapture h c miss ((s.tuner.capture_cases c).2 hout)),
      fun h => congrArg Host.Outcome.next (hcapture h 1000 miss ((s.tuner.capture_cases 1000).2 (by decide)))⟩

end Sys2Proof.Machine
end

section
/-! SUPPORT. The tuner's part of a block step by step, as its timers read it: the frames placed (R139), the acknowledgement
timer (R127), the status silence (R129), the settle wait (R137), the dwell (R147) and the blend (R142); and the statement
about the timers' rows. -/

namespace Sys2Proof.Machine

open Sys2Proof

/-! ## The steps before the settle wait and the dwell (log 54) -/

/-- The tuner's part of a block up to the placing of its frames (R139, R142, R143). -/
def State.framesPlaced (s : State) : State :=
  (if tunerActive s.tuner.state then s.ampBlock else s).blendBlock.deliverFrames

/-- The tuner's part of a block is the placing of its frames, the two timers, and the step of its tune or test. -/
theorem State.tunerBlock_eq (s : State) : s.tunerBlock = s.framesPlaced.ackBlock.silenceBlock.phaseBlock.laneUsed := rfl

/-- The status lane does not reach its limit at this block: a record came, the silence is short, or the tuner is not in
use (R129). -/
def Tuner.Heard (t : Tuner) : Prop :=
  t.statusArrived = true ∨ t.silence < 4
    ∨ ¬ (t.state = .tuning ∨ t.state = .tuned ∨ t.state = .seeking ∨ t.state = .scanning)

/-- The blend moves the tuner only. -/
theorem State.blendBlock_eq (s : State) : s.blendBlock = { s with tuner := s.blendBlock.tuner } := by
  unfold State.blendBlock
  dsimp only
  split_ifs <;> rfl

/-- What the blend moves of the tuner. -/
theorem State.blendBlock_tuner (s : State) : ∃ b target timer,
    s.blendBlock.tuner = { s.tuner with blend := b, blendTarget := target, blendTimer := timer } := by
  unfold State.blendBlock
  dsimp only
  split_ifs
  · exact ⟨_, _, _, rfl⟩
  · exact ⟨_, _, _, rfl⟩
  · exact ⟨_, _, _, rfl⟩

/-- The blend does not read the amplitude history. -/
theorem State.blendBlock_ampHistory (s : State) (hist : List Bool) :
    State.blendBlock { s with tuner := { s.tuner with ampHistory := hist } }
      = { s with tuner := { s.blendBlock.tuner with ampHistory := hist } } := by
  have htarget : State.blendTarget { s with tuner := { s.tuner with ampHistory := hist } } = s.blendTarget := rfl
  unfold State.blendBlock
  dsimp only
  rw [htarget]
  split_ifs <;> rfl

/-- The amplitude check and the blend move the amplitude history and the blend (R142, R143). -/
theorem State.checkedBlend_eq (s : State) : ∃ hist,
    (if tunerActive s.tuner.state then s.ampBlock else s).blendBlock
      = { s with tuner := { s.blendBlock.tuner with ampHistory := hist } } := by
  split_ifs with ha
  · exact ⟨_, s.blendBlock_ampHistory _⟩
  · obtain ⟨b, target, timer, ht⟩ := s.blendBlock_tuner
    refine ⟨s.tuner.ampHistory, s.blendBlock_eq.trans ?_⟩
    rw [ht]

/-- Two states with the same records of the radio: the tuner, the region, the presets and the stations. -/
structure State.SameRadio (s t : State) : Prop where
  tuner    : t.tuner = s.tuner
  region   : t.region = s.region
  presets  : t.presets = s.presets
  stations : t.stations = s.stations

theorem State.SameRadio.refl (s : State) : s.SameRadio s := ⟨rfl, rfl, rfl, rfl⟩

/-- A frame that arrives at a path moves no record of the radio (R91, R104). -/
theorem State.SameRadio.pushFrame {s t : State} (h : s.SameRadio t) (p : PathId) (f : Frame) :
    s.SameRadio (t.pushFrame p f) := by
  have hset {u : State} (hu : s.SameRadio u) (r : PathRec) : s.SameRadio (u.setPath p r) :=
    ⟨by simpa using hu.tuner, by simpa using hu.region, by simpa using hu.presets, by simpa using hu.stations⟩
  have hraise {u : State} (hu : s.SameRadio u) (k : ReportKind) (i : Nat) (payload : List Byte) :
      s.SameRadio (u.raise k i payload) :=
    ⟨by simpa using hu.tuner, by simpa using hu.region, by simpa using hu.presets, by simpa using hu.stations⟩
  exact State.ite_has h (State.ite_has (State.ite_has h (hraise (hset (hset h _) _) _ _ _)) (hset h _))

/-- Placing the frames moves no record of the radio (R139). -/
theorem State.deliverFrames_sameRadio (s : State) : s.SameRadio s.deliverFrames := by
  unfold State.deliverFrames
  refine State.ite_has (.refl s) ?_
  split
  case h_1 => exact .refl s
  case h_2 p _ => exact forEach_has (fun f _ h => h.pushFrame p f) (.refl s)

/-- What the placing of the frames, with the amplitude check and the blend before it, leaves of the radio's records. -/
theorem State.framesPlaced_radio (s : State) : ∃ hist,
    s.framesPlaced.tuner = { s.blendBlock.tuner with ampHistory := hist } ∧ s.framesPlaced.region = s.region
      ∧ s.framesPlaced.presets = s.presets ∧ s.framesPlaced.stations = s.stations := by
  obtain ⟨hist, heq⟩ := s.checkedBlend_eq
  have hplaced : s.framesPlaced = State.deliverFrames { s with tuner := { s.blendBlock.tuner with ampHistory := hist } } :=
    congrArg State.deliverFrames heq
  rw [hplaced]
  obtain ⟨htuner, hregion, hpresets, hstations⟩ :=
    State.deliverFrames_sameRadio { s with tuner := { s.blendBlock.tuner with ampHistory := hist } }
  exact ⟨hist, htuner, hregion, hpresets, hstations⟩

/-- What the placing of the frames keeps of the tuner's line and of its lane. -/
theorem State.framesPlaced_line (s : State) :
    s.framesPlaced.tuner.openTx = s.tuner.openTx ∧ s.framesPlaced.tuner.statusArrived = s.tuner.statusArrived
      ∧ s.framesPlaced.tuner.silence = s.tuner.silence ∧ s.framesPlaced.tuner.state = s.tuner.state := by
  obtain ⟨hist, htuner, -, -, -⟩ := s.framesPlaced_radio
  obtain ⟨b, target, timer, hblend⟩ := s.blendBlock_tuner
  rw [htuner, hblend]
  exact ⟨rfl, rfl, rfl, rfl⟩

/-- A status lane that is heard only moves its silence count (R129). -/
theorem State.silenceBlock_heard (s : State) (h : s.tuner.Heard) : ∃ n,
    s.silenceBlock = { s with tuner := { s.tuner with silence := n } } := by
  obtain ⟨hzero, hrises, -⟩ := s.silenceBlock_cases
  by_cases hquiet : tunerActive s.tuner.state = false ∨ s.tuner.statusArrived = true
  · exact ⟨0, hzero hquiet⟩
  · obtain ⟨hon, hnone⟩ := not_or.mp hquiet
    have hactive : tunerActive s.tuner.state = true := Bool.not_eq_false _ ▸ hon
    have hshort : s.tuner.silence < 4 :=
      (h.resolve_left hnone).resolve_right (not_not.mpr ((tunerActive_iff _).mp hactive))
    exact ⟨_, hrises hactive (Bool.eq_false_iff.mpr hnone) hshort⟩

/-- With no transaction open and a lane that is heard, the block comes to the tune or test with the amplitude history, the
silence count and the blend moved, and nothing else of the radio. -/
theorem State.timers_quiet (s : State) (ho : s.tuner.openTx = none) (h : s.tuner.Heard) :
    ∃ (w : State) (hist : List Bool) (n : Nat),
    s.tunerBlock = w.phaseBlock.laneUsed ∧ w.tuner = { s.blendBlock.tuner with ampHistory := hist, silence := n }
      ∧ w.region = s.region ∧ w.presets = s.presets ∧ w.stations = s.stations := by
  obtain ⟨hist, htuner, hregion, hpresets, hstations⟩ := s.framesPlaced_radio
  obtain ⟨hopen, harrived, hsilence, hstate⟩ := s.framesPlaced_line
  have hack : s.framesPlaced.ackBlock = s.framesPlaced := s.framesPlaced.ackBlock_cases.1 (hopen.trans ho)
  have hheard : s.framesPlaced.tuner.Heard := by rwa [Tuner.Heard, harrived, hsilence, hstate]
  obtain ⟨n, hn⟩ := s.framesPlaced.silenceBlock_heard hheard
  refine ⟨s.framesPlaced.silenceBlock, hist, n, by rw [State.tunerBlock_eq, hack], ?_⟩
  rw [hn]
  exact ⟨by rw [htuner], hregion, hpresets, hstations⟩

/-! ## The step of the tune or test (R137, R147) -/

/-- A state that agrees with another in what a tune, seek or scan reads where it stands: the tuner's state, band, frequency
and operation, the region, the presets and the stations. -/
structure State.Standing (s u : State) : Prop where
  state    : u.tuner.state = s.tuner.state
  band     : u.tuner.band = s.tuner.band
  freq     : u.tuner.freq = s.tuner.freq
  op       : u.tuner.op = s.tuner.op
  region   : u.region = s.region
  presets  : u.presets = s.presets
  stations : u.stations = s.stations

/-- At the settle limit the wait ends unsettled (R137, R146). -/
theorem State.tunerBlock_settling (s : State) (hp : s.tuner.phase = .settling) (ho : s.tuner.openTx = none)
    (h : s.tuner.Heard) (hl : settleLimit s.tuner.band ≤ s.tuner.settleCount + 1) :
    ∃ u, s.Standing u ∧ s.tunerBlock = u.unsettled.laneUsed := by
  obtain ⟨w, hist, n, hblock, htuner, hregion, hpresets, hstations⟩ := s.timers_quiet ho h
  obtain ⟨b, target, timer, hblend⟩ := s.blendBlock_tuner
  rw [hblend] at htuner
  have hphase : w.tuner.phase = .settling := by rw [htuner]; exact hp
  have hlimit : (if w.tuner.band = .fm then 10 else 30) ≤ w.tuner.settleCount + 1 := by
    rw [← settleLimit_eq, htuner]
    exact hl
  refine ⟨_, ?_, hblock.trans (congrArg State.laneUsed ((w.phaseBlock_settling hphase).2 hlimit))⟩
  rw [htuner]
  exact ⟨rfl, rfl, rfl, rfl, hregion, hpresets, hstations⟩

/-- At its last block a dwell ends with that block's values added (R147). -/
theorem State.tunerBlock_dwell (s : State) (hp : s.tuner.phase = .dwell) (ho : s.tuner.openTx = none)
    (h : s.tuner.Heard) (hl : dwellBlocks s.tuner.band ≤ s.tuner.dwell.blocks + 1) :
    ∃ u, s.Standing u ∧ s.tunerBlock = (u.endDwell (s.tuner.dwell.add s.tuner s.ampError)).laneUsed := by
  obtain ⟨w, hist, n, hblock, htuner, hregion, hpresets, hstations⟩ := s.timers_quiet ho h
  obtain ⟨b, target, timer, hblend⟩ := s.blendBlock_tuner
  rw [hblend] at htuner
  have hphase : w.tuner.phase = .dwell := by rw [htuner]; exact hp
  have hpairs : w.tuner.pairsOf = s.tuner.pairsOf := by
    rw [htuner]
    rfl
  have hamp : w.ampError = s.ampError := by
    unfold State.ampError
    rw [hpairs, hregion]
  have hsums : w.tuner.dwell.add w.tuner w.ampError = s.tuner.dwell.add s.tuner s.ampError := by
    rw [hamp, htuner]
    rfl
  have hlimit : (if w.tuner.band = .fm then 8 else 16) ≤ (w.tuner.dwell.add w.tuner w.ampError).blocks := by
    rw [← dwellBlocks_eq, htuner]
    exact hl
  have hends := (w.phaseBlock_dwell hphase).2 hlimit
  rw [hsums] at hends
  refine ⟨_, ?_, hblock.trans (congrArg State.laneUsed hends)⟩
  rw [htuner]
  exact ⟨rfl, rfl, rfl, rfl, hregion, hpresets, hstations⟩

/-- A tune or test that is not in its settle wait or dwell, nor between a dwell and the next point, stands (R137). -/
theorem State.phaseBlock_rests (s : State) (h : s.tuner.phase = .none ∨ s.tuner.phase = .sending) :
    s.phaseBlock = s := by
  rcases h with h | h
  all_goals simp only [State.phaseBlock, h]

/-! ## Ends of tunes and searches -/

/-- A tune or a candidate test begins with its request (R137, R146). -/
@[simp] theorem Tuner.startAt_phase (t : Tuner) (st : TunerState) (b : Band) (f : Nat) :
    (t.startAt st b f).phase = .sending := by
  obtain ⟨hwaits, hsends, hidentifies⟩ := t.startAt_cases st b f
  by_cases ho : t.openTx = none
  · cases hi : t.identified with
    | true => rw [hsends ho hi]
    | false => rw [hidentifies ho hi]
  · rw [hwaits ho]

/-- The tuner at the end of a tune (R137). -/
@[simp] theorem State.endTune_tuner (s : State) (unsettled : Bool) :
    (s.endTune unsettled).tuner = { s.tuner with state := .tuned, phase := .none, op := none } := by
  simp [State.endTune]

/-- The end of an operation keeps the stations. -/
@[simp] theorem State.endOp_stations (s : State) (res : CmdResult) (flags : Byte) (level : Nat) :
    (s.endOp res flags level).stations = s.stations := by
  cases hop : s.tuner.op with
  | none => rw [s.endOp_none res flags level hop]
  | some op => rw [s.endOp_some res flags level op hop, State.raiseDone_stations]

/-- A report of the radio keeps the stations. -/
@[simp] theorem State.radioReport_stations (s : State) (c : RadioCause) : (s.radioReport c).stations = s.stations :=
  s.raise_stations ..

/-- A seek that passes leaves the tuner TUNED with no operation, and the stations as they are (R149). -/
theorem State.seekFound_leaves (s : State) (d : Dwell) :
    (s.seekFound d).tuner = { s.tuner with state := .tuned, phase := .none, op := none }
      ∧ (s.seekFound d).stations = s.stations := by
  simp [State.seekFound]

/-- A scan that counts a point moves its operation record only (R151). -/
theorem State.countTested_scan (s : State) (op : OpRecord) (hop : s.tuner.op = some op) (hk : op.kind = .scan) :
    s.countTested.tuner = { s.tuner with op := some { op with tested := op.tested + 1 } }
      ∧ s.countTested.region = s.region ∧ s.countTested.stations = s.stations := by
  obtain ⟨-, hcounts, hreports⟩ := s.countTested_cases op hop
  by_cases hm : (op.tested + 1) % 32 = 0
  · rw [hreports hk hm]
    exact ⟨State.radioReport_tuner .., State.raise_region .., State.radioReport_stations ..⟩
  · rw [hcounts hk hm]
    exact ⟨rfl, rfl, rfl⟩

/-- After a settle limit a seek goes on to the adjacent point, or back to its start (R146, R149). -/
theorem State.unsettled_seek (s : State) (op : OpRecord) (hs : s.tuner.state ≠ .tuning) (hop : s.tuner.op = some op)
    (hk : op.kind = .seek) :
    let t := s.unsettled.tuner
    let next := s.region.adjacent s.tuner.band s.tuner.freq op.dir
    t.phase = .sending
      ∧ (next ≠ op.startFreq → t.state = s.tuner.state ∧ t.band = s.tuner.band ∧ t.freq = next)
      ∧ (next = op.startFreq → t.state = .tuning ∧ t.band = op.startBand ∧ t.freq = op.startFreq) := by
  intro t next
  have hnot : op.kind ≠ .scan := by rw [hk]; decide
  have hgoes : s.unsettled = s.nextPoint :=
    (if_neg hs).trans (congrArg State.nextPoint ((s.countTested_cases op hop).1 hnot))
  obtain ⟨-, -, hback, htest⟩ := s.nextPoint_cases op hop
  have hsending : t.phase = .sending := by
    by_cases hn : next = op.startFreq
    · simp only [t, hgoes, hback hnot hn, State.tuneTo, Tuner.startAt_phase]
    · simp only [t, hgoes, htest hnot hn, State.testAt, Tuner.startAt_phase]
  refine ⟨hsending, fun hn => ?_, fun hn => ?_⟩
  · obtain ⟨hstate, hband, hfreq, -⟩ := s.tuner.startAt_fields s.tuner.state s.tuner.band next
    simp only [t, hgoes, htest hnot hn, State.testAt]
    exact ⟨hstate, hband, hfreq⟩
  · obtain ⟨hstate, hband, hfreq, -⟩ := s.tuner.startAt_fields .tuning op.startBand op.startFreq
    simp only [t, hgoes, hback hnot hn, State.tuneTo]
    exact ⟨hstate, hband, hfreq⟩

/-- After a settle limit a scan counts the point and goes on to the next, or back to its start (R146, R151). -/
theorem State.unsettled_scan (s : State) (op : OpRecord) (hs : s.tuner.state ≠ .tuning) (hop : s.tuner.op = some op)
    (hk : op.kind = .scan) :
    let t := s.unsettled.tuner
    t.phase = .sending ∧ t.op = some { op with tested := op.tested + 1 } ∧ s.unsettled.stations = s.stations
      ∧ (s.tuner.freq < s.region.top s.tuner.band → t.state = s.tuner.state ∧ t.band = s.tuner.band
          ∧ t.freq = s.tuner.freq + s.region.step s.tuner.band)
      ∧ (s.region.top s.tuner.band ≤ s.tuner.freq →
          t.state = .tuning ∧ t.band = op.startBand ∧ t.freq = op.startFreq) := by
  intro t
  obtain ⟨htuner, hregion, hstations⟩ := s.countTested_scan op hop hk
  have hgoes : s.unsettled = s.countTested.nextPoint := if_neg hs
  obtain ⟨hback, htest, -, -⟩ := s.countTested.nextPoint_cases _ (congrArg Tuner.op htuner)
  simp only [hregion, htuner] at hback htest
  by_cases htop : s.region.top s.tuner.band ≤ s.tuner.freq
  · have hu := hgoes.trans (hback hk htop)
    obtain ⟨hstate, hband, hfreq, -, -, -, -, -, -, hrecord⟩ :=
      s.countTested.tuner.startAt_fields .tuning op.startBand op.startFreq
    simp only [t, hu, State.tuneTo]
    exact ⟨Tuner.startAt_phase .., hrecord.trans (congrArg Tuner.op htuner), hstations,
      fun h => absurd htop (Nat.not_le.mpr h), fun _ => ⟨hstate, hband, hfreq⟩⟩
  · have hu := hgoes.trans (htest hk (Nat.not_le.mp htop))
    obtain ⟨hstate, hband, hfreq, -, -, -, -, -, -, hrecord⟩ :=
      s.countTested.tuner.startAt_fields s.countTested.tuner.state s.tuner.band
        (s.tuner.freq + s.region.step s.tuner.band)
    simp only [t, hu, State.testAt]
    exact ⟨Tuner.startAt_phase .., hrecord.trans (congrArg Tuner.op htuner), hstations,
      fun _ => ⟨hstate.trans (by rw [htuner]), hband, hfreq⟩, fun h => absurd h htop⟩

/-- The end of a dwell of a seek: TUNED where it passes, and else the wait for the next point (R149, log 19). -/
theorem State.endDwell_seek (s : State) (d : Dwell) (op : OpRecord) (hop : s.tuner.op = some op) (hk : op.kind = .seek) :
    let u := s.endDwell d
    u.tuner.freq = s.tuner.freq ∧ u.stations = s.stations
      ∧ (s.region.passes s.tuner.band d = true →
          u.tuner.state = .tuned ∧ u.tuner.phase = .none ∧ u.tuner.op = none)
      ∧ (s.region.passes s.tuner.band d = false →
          u.tuner.state = s.tuner.state ∧ u.tuner.phase = .advance ∧ u.tuner.op = some op) := by
  intro u
  have hnot : op.kind ≠ .scan := by rw [hk]; decide
  obtain ⟨-, -, hfound, hwaits⟩ := s.endDwell_cases d op hop
  cases hpass : s.region.passes s.tuner.band d with
  | true =>
    obtain ⟨htuner, hstations⟩ := s.seekFound_leaves d
    rw [show u = s.seekFound d from hfound hnot hpass, htuner]
    exact ⟨rfl, hstations, fun _ => ⟨rfl, rfl, rfl⟩, fun h => absurd h (by decide)⟩
  | false =>
    rw [show u = _ from hwaits hnot hpass]
    exact ⟨rfl, rfl, fun h => absurd h (by decide), fun _ => ⟨rfl, rfl, hop⟩⟩

/-- The end of a dwell of a scan: the point is counted, and taken where it passes (R151, R154). -/
theorem State.endDwell_scan (s : State) (d : Dwell) (op : OpRecord) (hop : s.tuner.op = some op) (hk : op.kind = .scan) :
    let u := s.endDwell d
    let v : Station :=
      { band := s.tuner.band, freq := s.tuner.freq, level := d.levelSum / d.blocks
        stereo := d.stereo && decide (s.tuner.band = .fm), label := s.presetLabel s.tuner.band s.tuner.freq }
    let l := insertCandidate (s.region.step s.tuner.band) v s.stations
    u.tuner.state = s.tuner.state ∧ u.tuner.phase = .advance
      ∧ (s.region.passes s.tuner.band d = false →
          u.tuner.op = some { op with tested := op.tested + 1 } ∧ u.stations = s.stations)
      ∧ (s.region.passes s.tuner.band d = true → u.stations = l.1 ∧ u.tuner.op = some { op with
          found := op.found + 1, dropped := op.dropped + (if l.2 = true then 1 else 0), tested := op.tested + 1 }) := by
  intro u v l
  obtain ⟨htakes, hmisses, -, -⟩ := s.endDwell_cases d op hop
  cases hpass : s.region.passes s.tuner.band d with
  | true =>
    obtain ⟨htuner, -, hstations⟩ := (s.takeCandidate d).countTested_scan
      { op with found := op.found + 1, dropped := op.dropped + (if l.2 = true then 1 else 0) }
      (by rw [s.takeCandidate_some d op hop]) hk
    rw [s.takeCandidate_some d op hop] at htuner hstations
    rw [show u = _ from htakes hk hpass, s.takeCandidate_some d op hop]
    dsimp only
    rw [htuner, hstations]
    exact ⟨rfl, rfl, fun h => absurd h (by decide), fun _ => ⟨rfl, rfl⟩⟩
  | false =>
    obtain ⟨htuner, -, hstations⟩ := s.countTested_scan op hop hk
    rw [show u = _ from hmisses hk hpass]
    dsimp only
    rw [htuner, hstations]
    exact ⟨rfl, rfl, fun _ => ⟨rfl, rfl⟩, fun h => absurd h (by decide)⟩

/-! ## A transaction that stays open (R127) -/

/-- The open transaction of a state. -/
def State.Awaits (x : Transaction) (s : State) : Prop := s.tuner.openTx = some x

section awaits
variable {s : State} {x : Transaction}

namespace State.Awaits

theorem radioReport {c : RadioCause} (h : s.Awaits x) : (s.radioReport c).Awaits x := by
  rw [Awaits, radioReport_tuner]
  exact h

theorem endOp {res : CmdResult} {flags : Byte} {level : Nat} (h : s.Awaits x) : (s.endOp res flags level).Awaits x := by
  rw [Awaits, endOp_tuner]
  exact h

/-- A tune or a candidate test that begins waits for the open transaction (R127). -/
theorem startAt {st : TunerState} {b : Band} {f : Nat} (h : s.Awaits x) :
    ({ s with tuner := s.tuner.startAt st b f } : State).Awaits x := by
  have hopen : s.tuner.openTx ≠ none := fun hn => Option.some_ne_none x (h.symm.trans hn)
  rw [Awaits, (s.tuner.startAt_cases st b f).1 hopen]
  exact h

theorem nextPoint (h : s.Awaits x) : s.nextPoint.Awaits x := by
  unfold State.nextPoint
  dsimp only
  split
  · exact h
  · exact State.ite_has (State.ite_has h.startAt h.startAt) (State.ite_has h.startAt h.startAt)

theorem countTested (h : s.Awaits x) : s.countTested.Awaits x := by
  unfold State.countTested
  split
  · exact h
  · exact State.ite_has h (State.ite_has (radioReport h) h)

theorem takeCandidate {d : Dwell} (h : s.Awaits x) : (s.takeCandidate d).Awaits x := by
  unfold State.takeCandidate
  split
  · exact h
  · exact h

theorem endDwell {d : Dwell} (h : s.Awaits x) : (s.endDwell d).Awaits x := by
  unfold State.endDwell
  dsimp only
  split
  · exact h
  · exact State.ite_has (countTested (State.ite_has h.takeCandidate h))
      (State.ite_has (radioReport (endOp (show State.Awaits x { s with tuner := _ } from h))) h)

theorem unsettled (h : s.Awaits x) : s.unsettled.Awaits x :=
  State.ite_has (radioReport (endOp (show State.Awaits x { s with tuner := _ } from h))) h.countTested.nextPoint

/-- The step of the tune or test keeps an open transaction. -/
theorem phaseBlock (h : s.Awaits x) : s.phaseBlock.Awaits x := by
  unfold State.phaseBlock
  dsimp only
  split
  · exact h
  · exact h
  · exact State.ite_has (unsettled h) h
  · exact State.ite_has (endDwell h) h
  · exact h.nextPoint

end State.Awaits

end awaits

/-! ## FE_FAULT in a block (R127, R129, R130) -/

/-- What FE_FAULT leaves of the tuner (R130). -/
def Tuner.Failed (t : Tuner) : Prop :=
  t.state = .feFault ∧ t.openTx = none ∧ t.waiting = none ∧ t.identified = false ∧ t.op = none ∧ t.pilot = .absent
    ∧ t.blend = 0 ∧ t.phase = .none

/-- A tuner that has failed has no tune or test under way. -/
theorem Tuner.Failed.phase {t : Tuner} (h : t.Failed) : t.phase = .none := by
  obtain ⟨-, -, -, -, -, -, -, hphase⟩ := h
  exact hphase

/-- FE_FAULT leaves the tuner so. -/
theorem State.feFault_failed (s : State) : s.feFault.tuner.Failed := by
  rw [s.feFault_eq, State.radioReport_tuner]
  exact ⟨rfl, rfl, rfl, rfl, rfl, rfl, rfl, rfl⟩

/-- A tuner that has failed leaves the rest of its part of the block with its counts at rest. -/
theorem State.failed_rests (s : State) (h : s.tuner.Failed) :
    s.silenceBlock.phaseBlock.laneUsed.tuner.Failed
      ∧ ∀ p, (s.silenceBlock.phaseBlock.laneUsed).path p = s.path p := by
  obtain ⟨hstate, hopen, hwaiting, hidentified, hop, hpilot, hblend, hphase⟩ := h
  have hsilence : s.silenceBlock = { s with tuner := { s.tuner with silence := 0 } } :=
    s.silenceBlock_cases.1 (.inl (by rw [hstate]; rfl))
  have hrests : s.silenceBlock.phaseBlock = s.silenceBlock := by
    refine s.silenceBlock.phaseBlock_rests (.inl ?_)
    rw [hsilence]
    exact hphase
  rw [hrests, hsilence]
  exact ⟨⟨hstate, hopen, hwaiting, hidentified, hop, hpilot, hblend, hphase⟩, fun _ => rfl⟩

/-- FE_FAULT keeps the path records. -/
theorem State.feFault_path (s : State) (p : PathId) : s.feFault.path p = s.path p := by
  rw [s.feFault_eq, State.radioReport_path]
  exact (s.endOp_sameRecords ..).path p

/-- The acknowledgement timer's block fails the tuner, or moves the line only (R127). -/
theorem State.ackBlock_failsOrWaits (s : State) :
    s.ackBlock = s.feFault
      ∨ ∃ o c, s.ackBlock = { s with tuner := { s.tuner with openTx := o, ctlSent := c } } := by
  obtain ⟨hnone, hsome⟩ := s.ackBlock_cases
  cases ho : s.tuner.openTx with
  | none => exact .inr ⟨s.tuner.openTx, s.tuner.ctlSent, hnone ho⟩
  | some x =>
    obtain ⟨hcounts, hfails, hagain⟩ := hsome x ho
    by_cases ht : 1 < x.timer
    · exact .inr ⟨_, _, hcounts ht⟩
    · cases hr : x.retried with
      | true => exact .inl (hfails (Nat.not_lt.mp ht) hr)
      | false => exact .inr ⟨_, _, hagain (Nat.not_lt.mp ht) hr⟩

/-- A transaction that fails takes the tuner to FE_FAULT (R127, R130). -/
theorem State.tunerBlock_ackFails (s : State) (q : Transaction) (ho : s.tuner.openTx = some q) (ht : q.timer ≤ 1)
    (hr : q.retried = true) : s.tunerBlock.tuner.Failed := by
  obtain ⟨hopen, -, -, -⟩ := s.framesPlaced_line
  obtain ⟨-, hfails, -⟩ := s.framesPlaced.ackBlock_cases.2 q (hopen.trans ho)
  rw [State.tunerBlock_eq, hfails ht hr]
  exact (State.failed_rests _ (State.feFault_failed _)).1

/-- A request that is not answered is sent once more (R127). -/
theorem State.tunerBlock_ackAgain (s : State) (q : Transaction) (ho : s.tuner.openTx = some q) (ht : q.timer ≤ 1)
    (hr : q.retried = false) (h : s.tuner.Heard) :
    s.tunerBlock.tuner.openTx = some { q with timer := 2, retried := true } := by
  obtain ⟨hopen, harrived, hsilence, hstate⟩ := s.framesPlaced_line
  obtain ⟨-, -, hagain⟩ := s.framesPlaced.ackBlock_cases.2 q (hopen.trans ho)
  have hheard : s.framesPlaced.ackBlock.tuner.Heard := by
    rw [hagain ht hr, Tuner.Heard]
    dsimp only
    rwa [harrived, hsilence, hstate]
  obtain ⟨n, hn⟩ := s.framesPlaced.ackBlock.silenceBlock_heard hheard
  have hawaits : s.framesPlaced.ackBlock.silenceBlock.Awaits { q with timer := 2, retried := true } := by
    rw [hn, hagain ht hr]
    rfl
  exact hawaits.phaseBlock

/-- A status silence of 5 takes the tuner to FE_FAULT, and the paths keep what the block's frames left (R129, R130). -/
theorem State.tunerBlock_silent (s : State)
    (ha : s.tuner.state = .tuning ∨ s.tuner.state = .tuned ∨ s.tuner.state = .seeking ∨ s.tuner.state = .scanning)
    (hq : s.tuner.statusArrived = false) (hs : 4 ≤ s.tuner.silence) :
    s.tunerBlock.tuner.Failed ∧ ∀ p, s.tunerBlock.path p = s.framesPlaced.path p := by
  obtain ⟨-, harrived, hsilence, hstate⟩ := s.framesPlaced_line
  rw [State.tunerBlock_eq]
  rcases s.framesPlaced.ackBlock_failsOrWaits with hfails | ⟨o, c, hwaits⟩
  · rw [hfails]
    obtain ⟨hfailed, hpath⟩ := State.failed_rests _ s.framesPlaced.feFault_failed
    exact ⟨hfailed, fun p => (hpath p).trans (State.feFault_path _ p)⟩
  · generalize hv : s.framesPlaced.ackBlock = v at hwaits ⊢
    obtain ⟨-, -, hfault⟩ := v.silenceBlock_cases
    have hlane : v.tuner.state = s.tuner.state ∧ v.tuner.statusArrived = s.tuner.statusArrived
        ∧ v.tuner.silence = s.tuner.silence := by
      rw [hwaits]
      exact ⟨hstate, harrived, hsilence⟩
    obtain ⟨hvstate, hvarrived, hvsilence⟩ := hlane
    rw [hfault (by rw [hvstate]; exact (tunerActive_iff _).mpr ha) (hvarrived.trans hq) (hvsilence ▸ hs)]
    have hfailed := State.feFault_failed { v with tuner := { v.tuner with silence := 5 } }
    have hpath := State.feFault_path { v with tuner := { v.tuner with silence := 5 } }
    rw [State.phaseBlock_rests _ (.inl hfailed.phase)]
    refine ⟨hfailed, fun p => (hpath p).trans ?_⟩
    rw [hwaits]
    rfl

/-- The blended frames of a block are as many as the block has samples (R139). -/
theorem State.tunerFrames_length (s : State) : s.tunerFrames.length = 48 := by simp [State.tunerFrames]

/-- A TUNED tuner places the 48 frames of the block at the end of its path's FIFO (R139, R142). -/
theorem State.framesPlaced_fifo (s : State) (p : PathId) (ht : s.tuner.state = .tuned) (hp : s.tunerPath = some p)
    (hf : (s.path p).formatPending = false) (hl : (s.path p).fifo.length ≤ 2000) :
    (s.framesPlaced.path p).fifo = (s.path p).fifo ++ State.tunerFrames (State.blendBlock
      { s with tuner := { s.tuner with ampHistory := (s.ampError :: s.tuner.ampHistory).take 8 } }) := by
  have hamp : (if tunerActive s.tuner.state then s.ampBlock else s)
      = { s with tuner := { s.tuner with ampHistory := (s.ampError :: s.tuner.ampHistory).take 8 } } :=
    if_pos (by rw [ht]; rfl)
  rw [State.framesPlaced, hamp]
  generalize hu : State.blendBlock
    { s with tuner := { s.tuner with ampHistory := (s.ampError :: s.tuner.ampHistory).take 8 } } = u
  obtain ⟨t, hut⟩ : ∃ t, u = { s with tuner := t } := ⟨_, hu ▸ s.blendBlock_ampHistory _⟩
  have hstate : u.tuner.state = .tuned := by
    obtain ⟨b, target, timer, hblend⟩ := State.blendBlock_tuner
      { s with tuner := { s.tuner with ampHistory := (s.ampError :: s.tuner.ampHistory).take 8 } }
    rw [← hu, hblend]
    exact ht
  have hpath : u.path p = s.path p := by
    rw [hut]
    rfl
  have hbound : u.tunerPath = some p := by
    rw [hut]
    exact hp
  have hroom : (u.path p).fifo.length + u.tunerFrames.length ≤ 2048 := by
    rw [hpath, u.tunerFrames_length]
    omega
  obtain ⟨-, -, hplaces⟩ := u.deliverFrames_cases
  rw [hplaces p hstate hbound, State.pushFrames_fit _ u p (by rw [hpath]; exact hf) hroom,
    State.path_setPath_same, hpath]

/-! ## The rows of the timers (log 2) -/

/-- A timer's row whose event occurs makes the tuner's part of the block, and marks it (log 2). -/
theorem tunerEvent_leaves {c : Instr} {s b : State} {occurs : State → Bool} {P : State → Prop} (hb : s.pathsMade = b)
    (hx : exec c s = .next (tunerEvent occurs s)) (hk : BlockPart.tuner ∉ s.taken) (ho : occurs b = true)
    (hP : ∀ u marks, b.tunerBlock = u → P { u with taken := marks }) : ∃ t, exec c s = .next t ∧ P t := by
  subst hb
  exact ⟨_, hx.trans (congrArg Host.Outcome.next (blockEvent_occurs _ _ _ _ s hk ho)), hP _ _ rfl⟩

/-- When the acknowledgement timer's event occurs (R127). -/
theorem State.ackTimeoutOccurs_of (s : State) (q : Transaction) (ho : s.tuner.openTx = some q) (ht : q.timer ≤ 1) :
    s.ackTimeoutOccurs = true := by
  simp only [State.ackTimeoutOccurs, ho, decide_eq_true ht]

/-- When the status silence's event occurs (R129). -/
theorem State.statusSilenceOccurs_of (s : State)
    (ha : s.tuner.state = .tuning ∨ s.tuner.state = .tuned ∨ s.tuner.state = .seeking ∨ s.tuner.state = .scanning)
    (hq : s.tuner.statusArrived = false) (hs : 4 ≤ s.tuner.silence) : s.statusSilenceOccurs = true := by
  simp [State.statusSilenceOccurs, (tunerActive_iff _).mpr ha, hq, hs]

/-- When the settle limit's event occurs (R137). -/
theorem State.settleLimitOccurs_of (s : State) (hp : s.tuner.phase = .settling)
    (hl : settleLimit s.tuner.band ≤ s.tuner.settleCount + 1) : s.settleLimitOccurs = true := by
  simp [State.settleLimitOccurs, hp, hl]

/-- When the end of the dwell occurs (R147). -/
theorem State.dwellEndOccurs_of (s : State) (hp : s.tuner.phase = .dwell)
    (hl : dwellBlocks s.tuner.band ≤ s.tuner.dwell.blocks + 1) : s.dwellEndOccurs = true := by
  simp [State.dwellEndOccurs, hp, hl]

/-- When the blend steps (R142). -/
theorem State.blendStepOccurs_of (s : State)
    (ha : s.tuner.state = .tuning ∨ s.tuner.state = .tuned ∨ s.tuner.state = .seeking ∨ s.tuner.state = .scanning)
    (h7 : s.tuner.blendTimer = 7) : s.blendStepOccurs = true := by
  simp [State.blendStepOccurs, (tunerActive_iff _).mpr ha, h7]

/-- The blended frames of a block, from the free values of the demodulator (R139, R142, log 8). -/
theorem State.tunerFrames_eq (u : State) : u.tunerFrames = (List.range 48).map fun j =>
    let m := saturate (Config.demodMid u.freeIdx u.tuner.band.code u.tuner.pairsOf j)
    let side := if u.tuner.band = .fm then saturate (Config.demodSide u.freeIdx u.tuner.pairsOf j) else 0
    let d := (u.tuner.blend : Int) * side / 16
    [saturate (m + d), saturate (m - d)] := by
  have hshift (x : Int) : asr x 4 = x / 16 := asr_eq_div (by norm_num) x
  simp only [State.tunerFrames, blendFrame, hshift]

/-- The pairs of a block are those of its full burst (R201). -/
theorem Tuner.pairsOf_cases (t : Tuner) :
    (∀ ps, t.burst = .full ps → t.pairsOf = ps) ∧ (t.burst = .none ∨ t.burst = .short → t.pairsOf = []) := by
  refine ⟨fun ps h => by simp only [Tuner.pairsOf, h], fun h => ?_⟩
  rcases h with h | h
  all_goals simp only [Tuner.pairsOf, h]

/-- A search stands in a state other than TUNING. -/
theorem not_tuning_of_searching {st : TunerState} (h : st = .seeking ∨ st = .scanning) : st ≠ .tuning := by
  rcases h with rfl | rfl
  all_goals decide

/-- Settles O60: the rows of the five timers, and the frames. -/
theorem frontEndTimers : Obligations.FrontEndTimers := by
  intro s hk
  generalize hb : s.pathsMade = b
  intro _ x active heard failed d
  refine ⟨?again, ?fails, ?silent, fun u => ⟨u.tuner.pairsOf_cases.1, u.tuner.pairsOf_cases.2, u.tunerFrames_eq⟩,
    ?tune, ?seek, ?scan, fun k => ⟨settleLimit_eq k, dwellBlocks_eq k⟩, ?seekDwell, ?scanDwell, ?blend⟩
  case again =>
    intro q ho ht hr hh
    have hopen := b.tunerBlock_ackAgain q ho ht hr hh
    refine tunerEvent_leaves hb rfl hk (b.ackTimeoutOccurs_of q ho ht) fun u _ hu => ?_
    rw [hu] at hopen
    exact hopen
  case fails =>
    intro q ho ht hr
    have hfailed := b.tunerBlock_ackFails q ho ht hr
    refine tunerEvent_leaves hb rfl hk (b.ackTimeoutOccurs_of q ho ht) fun u _ hu => ?_
    rw [hu] at hfailed
    exact hfailed
  case silent =>
    intro ha hq hs
    obtain ⟨hfailed, hpath⟩ := b.tunerBlock_silent ha hq hs
    refine tunerEvent_leaves hb rfl hk (b.statusSilenceOccurs_of ha hq hs) fun u _ hu => ?_
    rw [hu] at hfailed hpath
    refine ⟨hfailed, fun p ht hp hf hl => ?_⟩
    exact (congrArg PathRec.fifo (hpath p)).trans (b.framesPlaced_fifo p ht hp hf hl)
  case tune =>
    intro ht hp ho hh hl
    obtain ⟨u, hu, hblock⟩ := b.tunerBlock_settling hp ho hh hl
    have hends : u.unsettled.tuner = { u.tuner with state := .tuned, phase := .none, op := none } := by
      rw [show u.unsettled = u.endTune true from if_pos (hu.state.trans ht), State.endTune_tuner]
    refine tunerEvent_leaves hb rfl hk (b.settleLimitOccurs_of hp hl) fun v _ hv => ?_
    obtain rfl := hblock.symm.trans hv
    dsimp only [State.laneUsed]
    rw [hends]
    exact ⟨rfl, rfl, rfl, hu.band, hu.freq⟩
  case seek =>
    intro op ht hp ho hh hop hkind hl
    obtain ⟨u, hu, hblock⟩ := b.tunerBlock_settling hp ho hh hl
    have hgoes := u.unsettled_seek op (hu.state ▸ not_tuning_of_searching ht) (hu.op.trans hop) hkind
    simp only [hu.state, hu.band, hu.freq, hu.region] at hgoes
    refine tunerEvent_leaves hb rfl hk (b.settleLimitOccurs_of hp hl) fun v _ hv => ?_
    obtain rfl := hblock.symm.trans hv
    exact hgoes
  case scan =>
    intro op ht hp ho hh hop hkind hl
    obtain ⟨u, hu, hblock⟩ := b.tunerBlock_settling hp ho hh hl
    have hgoes := u.unsettled_scan op (hu.state ▸ not_tuning_of_searching ht) (hu.op.trans hop) hkind
    simp only [hu.state, hu.band, hu.freq, hu.region, hu.stations] at hgoes
    refine tunerEvent_leaves hb rfl hk (b.settleLimitOccurs_of hp hl) fun v _ hv => ?_
    obtain rfl := hblock.symm.trans hv
    exact hgoes
  case seekDwell =>
    intro op ht hp ho hh hop hkind hl
    obtain ⟨u, hu, hblock⟩ := b.tunerBlock_dwell hp ho hh hl
    have hends := u.endDwell_seek d op (hu.op.trans hop) hkind
    simp only [hu.state, hu.band, hu.freq, hu.region, hu.stations] at hends
    refine tunerEvent_leaves hb rfl hk (b.dwellEndOccurs_of hp hl) fun v _ hv => ?_
    obtain rfl := hblock.symm.trans hv
    obtain ⟨hfreq, hstations, hpass, hmiss⟩ := hends
    refine ⟨hfreq, hstations, hpass, fun h => ?_⟩
    obtain ⟨hstate, hwait, hrecord⟩ := hmiss h
    exact ⟨hstate.trans ht, hwait, hrecord⟩
  case scanDwell =>
    intro op ht hp ho hh hop hkind hl
    obtain ⟨u, hu, hblock⟩ := b.tunerBlock_dwell hp ho hh hl
    have hlabel : u.presetLabel b.tuner.band b.tuner.freq = b.presetLabel b.tuner.band b.tuner.freq := by
      rw [State.presetLabel, hu.presets]
      rfl
    have hends := u.endDwell_scan d op (hu.op.trans hop) hkind
    simp only [hu.state, hu.band, hu.freq, hu.region, hu.stations, hlabel] at hends
    obtain ⟨hstate, hwait, hmiss, hpass⟩ := hends
    refine tunerEvent_leaves hb rfl hk (b.dwellEndOccurs_of hp hl) fun v _ hv => ?_
    obtain rfl := hblock.symm.trans hv
    exact ⟨hstate.trans ht, hwait, hmiss, hpass⟩
  case blend =>
    intro r target ha h7 ho hh hrest
    obtain ⟨w, hist, n, hblock, htuner, hregion, -, hstations⟩ := b.timers_quiet ho hh
    obtain ⟨-, -, hsteps⟩ := b.blendBlock_cases
    rw [hsteps ((tunerActive_iff _).mpr ha) h7] at htuner
    have hphase : w.phaseBlock = w := w.phaseBlock_rests (by rw [htuner]; exact hrest)
    refine tunerEvent_leaves hb rfl hk (b.blendStepOccurs_of ha h7) fun v _ hv => ?_
    obtain rfl := hblock.symm.trans hv
    rw [hphase]
    dsimp only [State.laneUsed]
    rw [htuner]
    exact ⟨rfl, rfl, rfl, rfl, rfl, hregion, hstations⟩

end Sys2Proof.Machine
end

section
/-! SUPPORT. The commands that change the station list and the preset table: CLEAR_STATIONS (R155), STORE_PRESET (R157),
SET_PRESET and CLEAR_PRESET (R158), each by its checks, and the statement about them. -/

namespace Sys2Proof.Machine

open Sys2Proof

/-! ## CLEAR_STATIONS (R155) -/

/-- A number above 2 selects no stations (R198). -/
theorem StationSelector.ofCode_above {n : Nat} (h : 2 < n) : StationSelector.ofCode n = none :=
  match n, h with
  | _ + 3, _ => rfl

/-- CLEAR_STATIONS of a selector that is none of the three (R155). -/
theorem cmdClearStations_above {sel : Byte} (s : State) (h : 2 < sel.toNat) :
    cmdClearStations sel s = refuse s .badArg := by
  rw [cmdClearStations, StationSelector.ofCode_above h]

/-- CLEAR_STATIONS of all stations (R155). -/
theorem cmdClearStations_all (s : State) :
    cmdClearStations 2 s = done { s with stations := [] } s.stations.length :=
  congrArg (done _) (Int.sub_zero _)

/-- As many stations go with a band as the list has of it. -/
theorem length_sub_dropBand (b : Band) (xs : List Station) :
    (xs.length : Int) - (dropBand b xs).length = (xs.filter fun x => decide (x.band = b)).length := by
  have hsplit := xs.length_eq_length_filter_add fun x => decide (x.band = b)
  simp only [dropBand, ne_eq, decide_not]
  omega

/-- CLEAR_STATIONS of a band (R155). -/
theorem cmdClearStations_band (b : Band) (s : State) :
    cmdClearStations (if b = .fm then 0 else 1) s
      = done { s with stations := s.stations.filter fun x => decide (x.band ≠ b) }
        (s.stations.filter fun x => decide (x.band = b)).length := by
  rw [← length_sub_dropBand]
  cases b with
  | fm => rfl
  | am => rfl

/-! ## STORE_PRESET (R157) -/

/-- A number above 39 is no index of the preset table. -/
theorem fin40?_above {n : Nat} (h : 39 < n) : fin40? n = none := dif_neg (by omega)

/-- A given label is stored (R157). -/
theorem storedLabel_given (old : Option Preset) (b : Band) (f : Nat) {given : Option (List Byte)} (h : given ≠ none) :
    storedLabel old b f given = given := by
  obtain ⟨l, rfl⟩ := Option.ne_none_iff_exists'.mp h
  rfl

/-- With no label given, an entry of the same band and frequency keeps its label (R157). -/
theorem storedLabel_kept {old : Option Preset} {b : Band} {f : Nat} {p : Preset} (hp : old = some p) (hb : p.band = b)
    (hf : p.freq = f) : storedLabel old b f none = p.label := by
  subst hp
  exact if_pos ⟨hb, hf⟩

/-- With no label given, an entry that was empty or of another station has none (R157). -/
theorem storedLabel_absent {old : Option Preset} {b : Band} {f : Nat}
    (h : ∀ p, old = some p → p.band ≠ b ∨ p.freq ≠ f) : storedLabel old b f none = none := by
  cases old with
  | none => rfl
  | some p => exact if_neg (not_and_or.mpr (h p rfl))

/-- STORE_PRESET at an index above 39, or with a malformed label (R157). -/
theorem cmdStorePreset_badArg {index : Byte} {label : LabelArg} (s : State)
    (h : 39 < index.toNat ∨ decodeLabel label = none) : cmdStorePreset index label s = refuse s .badArg := by
  rcases h with hi | hl
  · rw [cmdStorePreset, fin40?_above hi]
  · rw [cmdStorePreset, hl]
    cases fin40? index.toNat with
    | none => rfl
    | some i => rfl

section storing
variable {index : Byte} {label : LabelArg} {i : Fin 40} {given : Option (List Byte)} (hi : i.val = index.toNat)
  (hl : decodeLabel label = some given)
include hi hl

/-- STORE_PRESET while the tuner tunes or searches (R157). -/
theorem cmdStorePreset_busy {s : State}
    (h : s.tuner.state = .tuning ∨ s.tuner.state = .seeking ∨ s.tuner.state = .scanning) :
    cmdStorePreset index label s = refuse s .busy := by
  rw [cmdStorePreset, fin40?_some _ i hi, hl]
  rcases h with h | h | h
  all_goals simp only [h]

/-- STORE_PRESET while the tuner stands on a station, or keeps one (R157). -/
theorem cmdStorePreset_stores {s : State}
    (h : s.tuner.state = .tuned ∨ s.tuner.state = .idle ∨ s.tuner.state = .feFault) :
    cmdStorePreset index label s = done (s.setPreset i (some
      { band := s.tuner.band, freq := s.tuner.freq
        label := storedLabel (getAt s.presets i) s.tuner.band s.tuner.freq given })) s.tuner.freq := by
  rw [cmdStorePreset, fin40?_some _ i hi, hl]
  rcases h with h | h | h
  all_goals simp only [h]

end storing

/-! ## SET_PRESET and CLEAR_PRESET (R158) -/

/-- The edges of a band are in order in every region. -/
theorem Region.low_le_high (r : Region) (b : Band) : r.low b ≤ r.high b := by
  cases b with
  | fm => exact (by decide : 87500 ≤ 108000)
  | am =>
    show (if r.amGrid = 10 then 520 else 522) ≤ 1710
    split_ifs <;> omega

/-- SET_PRESET at an index above 39, of no band, with a malformed label or with a frequency outside its band (R158). -/
theorem cmdSetPreset_badArg {index b : Byte} {f : BitVec 32} {label : LabelArg} {s : State}
    (h : 39 < index.toNat ∨ Band.ofCode b.toNat = none ∨ decodeLabel label = none
      ∨ ∃ band, Band.ofCode b.toNat = some band ∧ (f.toNat < s.region.low band ∨ s.region.high band < f.toNat)) :
    cmdSetPreset index b f label s = refuse s .badArg := by
  unfold cmdSetPreset
  split
  next i band l hi hb hl =>
    refine if_pos ((s.region.clamps_iff band _ (s.region.low_le_high band)).mpr ?_)
    rcases h with h | h | h | ⟨x, hx, hout⟩
    · cases hi.symm.trans (fin40?_above h)
    · cases hb.symm.trans h
    · cases hl.symm.trans h
    · cases hb.symm.trans hx
      exact hout
  next => rfl

/-- SET_PRESET of a frequency of its band (R158). -/
theorem cmdSetPreset_stores {index b : Byte} {f : BitVec 32} {label : LabelArg} {s : State} {i : Fin 40} {band : Band}
    {l : Option (List Byte)} (hi : i.val = index.toNat) (hb : Band.ofCode b.toNat = some band)
    (hl : decodeLabel label = some l) (hlow : s.region.low band ≤ f.toNat) (hhigh : f.toNat ≤ s.region.high band) :
    cmdSetPreset index b f label s
      = done (s.setPreset i (some { band := band, freq := f.toNat, label := l })) 0 := by
  rw [cmdSetPreset, fin40?_some _ i hi, hb, hl]
  exact if_neg (mt (s.region.clamps_iff band _ (s.region.low_le_high band)).mp (by omega))

/-- CLEAR_PRESET at an index above 39 (R158). -/
theorem cmdClearPreset_above {index : Byte} (s : State) (h : 39 < index.toNat) :
    cmdClearPreset index s = refuse s .badArg := by
  rw [cmdClearPreset, fin40?_above h]

/-- CLEAR_PRESET at an index of the table (R158). -/
theorem cmdClearPreset_clears {index : Byte} (s : State) {i : Fin 40} (hi : i.val = index.toNat) :
    cmdClearPreset index s = done (s.setPreset i none) 0 := by
  rw [cmdClearPreset, fin40?_some _ i hi]

/-- A preset entry written after the handover of a command (R158). -/
theorem State.handOver_setPreset (s : State) (op target : Byte) (args : List Byte) (i : Fin 40) (p : Option Preset) :
    (s.handOver op target args).setPreset i p
      = { s.handOver op target args with presets := setAt s.presets i p } := by
  rw [State.setPreset, State.handOver_presets]

/-- Settles O39: each command is answered with the result of its case, on the list and the table as they stand. -/
theorem stationsAndPresets : Obligations.StationsAndPresets := by
  refine ⟨fun s sel hready => ⟨fun h => ?above, ?all, ?band⟩, fun s index label hready => ?stores,
    fun s index b f label hready => ?sets,
    fun s index hready => ⟨fun h => ?clearBad, fun i hi => ?clear⟩⟩
  case above => exact congrArg Host.Outcome.next (State.runHost_refused hready rfl (cmdClearStations_above _ h))
  case all =>
    rintro rfl
    have hclears := cmdClearStations_all (s.handOver 0x26 0 [2])
    rw [State.handOver_stations] at hclears
    exact congrArg Host.Outcome.next (State.runHost_answered (fun u => { u with stations := [] }) hready rfl hclears)
  case band =>
    rintro b rfl
    have hclears := cmdClearStations_band b (s.handOver 0x26 0 [if b = .fm then 0 else 1])
    rw [State.handOver_stations] at hclears
    exact congrArg Host.Outcome.next (State.runHost_answered
      (fun u => { u with stations := s.stations.filter fun x => decide (x.band ≠ b) }) hready rfl hclears)
  case stores =>
    intro args
    refine ⟨fun h => ?bad, fun i given hi hl => ⟨fun h => ?busy, fun h => ?stored⟩⟩
    case bad => exact congrArg Host.Outcome.next (State.runHost_refused hready rfl (cmdStorePreset_badArg _ h))
    case busy =>
      exact congrArg Host.Outcome.next (State.runHost_refused hready rfl
        (cmdStorePreset_busy hi hl (by simpa using h)))
    case stored =>
      refine ⟨storedLabel (getAt s.presets i) s.tuner.band s.tuner.freq given, storedLabel_given _ _ _, ?_, ?_, ?_⟩
      · rintro rfl p hp hb hf
        exact storedLabel_kept hp hb hf
      · rintro rfl hother
        exact storedLabel_absent hother
      · have hstores := cmdStorePreset_stores (s := s.handOver 0x28 index args) hi hl (by simpa using h)
        rw [State.handOver_setPreset, State.handOver_tuner, State.handOver_presets] at hstores
        exact congrArg Host.Outcome.next (State.runHost_answered (fun u =>
          { u with presets := setAt s.presets i (some
            { band := s.tuner.band, freq := s.tuner.freq
              label := storedLabel (getAt s.presets i) s.tuner.band s.tuner.freq given }) }) hready rfl hstores)
  case sets =>
    intro args
    refine ⟨fun h => ?bad, fun i band l hi hb hl hlow hhigh => ?stored⟩
    case bad =>
      exact congrArg Host.Outcome.next (State.runHost_refused hready rfl (cmdSetPreset_badArg (by simpa using h)))
    case stored =>
      exact congrArg Host.Outcome.next (State.runHost_answered (fun u =>
        { u with presets := setAt s.presets i (some { band := band, freq := f.toNat, label := l }) }) hready rfl
        ((cmdSetPreset_stores hi hb hl (by simpa using hlow) (by simpa using hhigh)).trans
          (congrArg (done · 0) (State.handOver_setPreset ..))))
  case clearBad => exact congrArg Host.Outcome.next (State.runHost_refused hready rfl (cmdClearPreset_above _ h))
  case clear =>
    exact congrArg Host.Outcome.next (State.runHost_answered (fun u => { u with presets := setAt s.presets i none })
      hready rfl ((cmdClearPreset_clears _ hi).trans (congrArg (done · 0) (State.handOver_setPreset ..))))

end Sys2Proof.Machine
end

section
/-! SUPPORT. The station list (R153, R154): its order, the weakest station of a band, what inserting a candidate does to
the list by the steps of R154, and the statement about it. -/

namespace Sys2Proof.Machine

open Sys2Proof

/-! ## The order of stations (R153) -/

/-- The order of stations is transitive. -/
theorem Station.before_trans {x y z : Station} (hxy : x.before y = true) (hyz : y.before z = true) :
    x.before z = true := by
  rw [Station.before_iff] at *
  rcases hxy with ⟨hx, hy⟩ | ⟨hxy, hlt⟩
  · rcases hyz with ⟨hy', -⟩ | ⟨hyz, -⟩
    · cases hy.symm.trans hy'
    · exact .inl ⟨hx, hyz.symm.trans hy⟩
  · rcases hyz with ⟨hy, hz⟩ | ⟨hyz, hlt'⟩
    · exact .inl ⟨hxy.trans hy, hz⟩
    · exact .inr ⟨hxy.trans hyz, hlt.trans hlt'⟩

/-- Of two stations at different places, the one that does not stand before the other stands after it. -/
theorem Station.before_of_not_before {x y : Station} (hs : x.same y = false) (hb : ¬ x.before y = true) :
    y.before x = true := by
  replace hs := mt (x.same_iff y).mpr (Bool.eq_false_iff.mp hs)
  rw [Station.before_iff] at *
  by_cases hband : x.band = y.band
  · have hne : x.freq ≠ y.freq := fun h => hs ⟨hband, h⟩
    have hle : ¬ x.freq < y.freq := fun h => hb (.inr ⟨hband, h⟩)
    exact .inr ⟨hband.symm, by omega⟩
  · cases hx : x.band with
    | fm =>
      cases hy : y.band with
      | fm => exact absurd (hx.trans hy.symm) hband
      | am => exact absurd (.inl ⟨hx, hy⟩) hb
    | am =>
      cases hy : y.band with
      | fm => exact .inl ⟨rfl, rfl⟩
      | am => exact absurd (hx.trans hy.symm) hband

/-- Stations one of which stands before the other are at different places. -/
theorem Station.not_same_of_before {x y : Station} (h : x.before y = true) : ¬ x.same y = true := by
  intro hs
  obtain ⟨hband, hfreq⟩ := (x.same_iff y).mp hs
  rcases (x.before_iff y).mp h with ⟨hx, hy⟩ | ⟨-, hlt⟩
  · cases hx.symm.trans (hband.trans hy)
  · omega

/-- Being at one place is symmetric. -/
theorem Station.same_comm (x y : Station) : x.same y = y.same x := by
  simp only [Station.same, eq_comm]

/-- Two stations at the place of a third are at one place. -/
theorem Station.same_of_same {x y z : Station} (hy : x.same y = true) (hz : x.same z = true) : y.same z = true := by
  obtain ⟨hyband, hyfreq⟩ := (x.same_iff y).mp hy
  obtain ⟨hzband, hzfreq⟩ := (x.same_iff z).mp hz
  exact (y.same_iff z).mpr ⟨hyband.symm.trans hzband, hyfreq.symm.trans hzfreq⟩

/-- Standing a grid step apart is symmetric. -/
theorem Station.adjacentTo_comm (step : Nat) (x y : Station) : x.adjacentTo step y = y.adjacentTo step x := by
  rw [Bool.eq_iff_iff, Station.adjacentTo_iff, Station.adjacentTo_iff, eq_comm, Or.comm]

/-- No station stands a grid step apart from itself. -/
theorem Station.adjacentTo_self {step : Nat} (h : 0 < step) (x : Station) : x.adjacentTo step x = false := by
  refine Bool.eq_false_iff.mpr fun ha => ?_
  obtain ⟨-, hfreq⟩ := (Station.adjacentTo_iff ..).mp ha
  omega

/-! ## The list as R153 keeps it -/

/-- A station list as R153 keeps it, but for its length: in strict order, with no two entries of a band one grid step
apart. -/
structure StationsKept (grid : Band → Nat) (list : List Station) : Prop where
  ordered : list.Pairwise fun y z => y.before z = true
  apart : ∀ y ∈ list, ∀ z ∈ list, y.adjacentTo (grid y.band) z = false

/-- In a list in strict order, two entries at one place are one entry. -/
theorem eq_of_same_of_ordered {list : List Station} (ho : list.Pairwise fun y z => y.before z = true) {y z : Station}
    (hy : y ∈ list) (hz : z ∈ list) (hs : y.same z = true) : y = z :=
  List.Pairwise.forall_of_forall_of_flip (R := fun y z : Station => y.same z = true → y = z) (fun _ _ _ => rfl)
    (ho.imp fun hb hs => absurd hs (Station.not_same_of_before hb))
    (ho.imp fun {y z} hb hs => absurd ((y.same_comm z).trans hs) (Station.not_same_of_before hb)) hy hz hs

/-- Entries may go from a list that is kept. -/
theorem StationsKept.sublist {grid : Band → Nat} {kept list : List Station} (h : StationsKept grid list)
    (hsub : kept.Sublist list) : StationsKept grid kept :=
  ⟨h.ordered.sublist hsub, fun y hy z hz => h.apart y (hsub.subset hy) z (hsub.subset hz)⟩

/-- Entries of a list that is kept may change, each at its place. -/
theorem StationsKept.map {grid : Band → Nat} {list : List Station} (h : StationsKept grid list)
    {f : Station → Station} (hband : ∀ y, (f y).band = y.band) (hfreq : ∀ y, (f y).freq = y.freq) :
    StationsKept grid (list.map f) := by
  refine ⟨List.pairwise_map.mpr (h.ordered.imp fun {y z} hb => ?_), ?_⟩
  · rw [Station.before_iff] at *
    rwa [hband, hband, hfreq, hfreq]
  · simp only [List.forall_mem_map]
    intro y hy z hz
    have := h.apart y hy z hz
    rwa [Station.adjacentTo, hband, hband, hfreq, hfreq]

/-! ## Inserting in order -/

/-- The list with a station inserted holds that station and the entries it held. -/
theorem insertStation_perm (x : Station) (list : List Station) : (insertStation x list).Perm (x :: list) := by
  induction list with
  | nil => exact .refl _
  | cons y ys ih =>
    rw [insertStation]
    split
    · exact .refl _
    · exact (ih.cons y).trans (.swap x y ys)

/-- A list in strict order stays so when a station at a new place is inserted. -/
theorem insertStation_ordered {x : Station} {list : List Station} (ho : list.Pairwise fun y z => y.before z = true)
    (hfresh : ∀ y ∈ list, x.same y = false) : (insertStation x list).Pairwise fun y z => y.before z = true := by
  induction list with
  | nil => exact List.pairwise_singleton ..
  | cons y ys ih =>
    obtain ⟨hhead, htail⟩ := List.pairwise_cons.mp ho
    obtain ⟨hxy, hxs⟩ := List.forall_mem_cons.mp hfresh
    rw [insertStation]
    split
    next hb =>
      exact List.pairwise_cons.mpr
        ⟨List.forall_mem_cons.mpr ⟨hb, fun z hz => Station.before_trans hb (hhead z hz)⟩, ho⟩
    next hb =>
      refine List.pairwise_cons.mpr ⟨fun z hz => ?_, ih htail hxs⟩
      rcases List.mem_cons.mp ((insertStation_perm x ys).mem_iff.mp hz) with rfl | hz
      · exact Station.before_of_not_before hxy hb
      · exact hhead z hz

/-- A list that is kept takes a station at a new place, apart from its entries. -/
theorem StationsKept.insert {grid : Band → Nat} {x : Station} {list : List Station} (h : StationsKept grid list)
    (hstep : 0 < grid x.band) (hfresh : ∀ y ∈ list, x.same y = false)
    (hapart : ∀ y ∈ list, x.adjacentTo (grid x.band) y = false) : StationsKept grid (insertStation x list) := by
  refine ⟨insertStation_ordered h.ordered hfresh, ?_⟩
  simp only [(insertStation_perm x list).mem_iff, List.forall_mem_cons]
  refine ⟨⟨Station.adjacentTo_self hstep x, hapart⟩, fun y hy => ⟨?_, h.apart y hy⟩⟩
  by_cases hband : y.band = x.band
  · rw [hband, Station.adjacentTo_comm]
    exact hapart y hy
  · simp [Station.adjacentTo, hband]

/-! ## The weakest station of a band (R154) -/

/-- A station is the weakest of a band in a list: the lowest level, and of several the lowest frequency (R154). -/
structure IsWeakest (b : Band) (list : List Station) (w : Station) : Prop where
  mem : w ∈ list
  band : w.band = b
  least : ∀ y ∈ list, y.band = b → w.level < y.level ∨ (w.level = y.level ∧ w.freq ≤ y.freq)

/-- The weakest station of a band in a list in strict order is one entry. -/
theorem IsWeakest.unique {b : Band} {list : List Station} {w v : Station}
    (ho : list.Pairwise fun y z => y.before z = true) (hw : IsWeakest b list w) (hv : IsWeakest b list v) : w = v := by
  have hwv := hw.least v hv.mem hv.band
  have hvw := hv.least w hw.mem hw.band
  exact eq_of_same_of_ordered ho hw.mem hv.mem ((w.same_iff v).mpr ⟨hw.band.trans hv.band.symm, by omega⟩)

/-- A list without stations of a band has no weakest one. -/
theorem weakest_none {b : Band} {list : List Station} (h : ∀ y ∈ list, y.band ≠ b) : weakest b list = none := by
  induction list with
  | nil => rfl
  | cons y ys ih =>
    obtain ⟨hy, hys⟩ := List.forall_mem_cons.mp h
    exact (if_pos hy).trans (ih hys)

/-- What is found in a list in strict order is the weakest station of the band, or that there is none. -/
theorem weakest_spec {b : Band} {list : List Station} (ho : list.Pairwise fun y z => y.before z = true) :
    (weakest b list = none → ∀ y ∈ list, y.band ≠ b) ∧ ∀ w, weakest b list = some w → IsWeakest b list w := by
  induction list with
  | nil => exact ⟨fun _ _ hy => absurd hy List.not_mem_nil, fun w hw => nomatch hw⟩
  | cons y ys ih =>
    obtain ⟨hhead, htail⟩ := List.pairwise_cons.mp ho
    obtain ⟨hnone, hsome⟩ := ih htail
    rw [weakest]
    split
    next hy =>
      refine ⟨fun h => List.forall_mem_cons.mpr ⟨hy, hnone h⟩, fun w hw => ?_⟩
      obtain ⟨hmem, hband, hleast⟩ := hsome w hw
      exact ⟨.tail _ hmem, hband, List.forall_mem_cons.mpr ⟨fun h => absurd h hy, hleast⟩⟩
    next hy =>
      replace hy : y.band = b := not_not.mp hy
      cases hrest : weakest b ys with
      | none =>
        refine ⟨nofun, ?_⟩
        rintro _ ⟨⟩
        exact ⟨.head _, hy, List.forall_mem_cons.mpr
          ⟨fun _ => .inr ⟨rfl, le_rfl⟩, fun z hz hb => absurd hb (hnone hrest z hz)⟩⟩
      | some v =>
        obtain ⟨hmem, hband, hleast⟩ := hsome v hrest
        have hyv : y.freq < v.freq := by
          rcases (y.before_iff v).mp (hhead v hmem) with ⟨hfm, ham⟩ | ⟨-, hlt⟩
          · cases hfm.symm.trans (hy.trans (hband.symm.trans ham))
          · exact hlt
        by_cases hlevel : v.level < y.level
        · simp only [if_pos hlevel]
          refine ⟨nofun, ?_⟩
          rintro _ ⟨⟩
          exact ⟨.tail _ hmem, hband, List.forall_mem_cons.mpr ⟨fun _ => .inl hlevel, hleast⟩⟩
        · simp only [if_neg hlevel]
          refine ⟨nofun, ?_⟩
          rintro _ ⟨⟩
          refine ⟨.head _, hy, List.forall_mem_cons.mpr ⟨fun _ => .inr ⟨rfl, le_rfl⟩, fun z hz hb => ?_⟩⟩
          have := hleast z hz hb
          omega

/-- The weakest station of a band is found. -/
theorem weakest_eq {b : Band} {list : List Station} {w : Station} (ho : list.Pairwise fun y z => y.before z = true)
    (hw : IsWeakest b list w) : weakest b list = some w := by
  obtain ⟨hnone, hsome⟩ := weakest_spec (b := b) ho
  cases hfound : weakest b list with
  | none => exact absurd hw.band (hnone hfound w hw.mem)
  | some v => rw [(hsome v hfound).unique ho hw]

/-! ## The steps of R154 -/

/-- An entry after a candidate: a weaker one at the candidate's place takes its level, stereo flag and label (R154). -/
def Station.taking (x y : Station) : Station :=
  if x.same y && decide (y.level < x.level) then { y with level := x.level, stereo := x.stereo, label := x.label } else y

/-- An entry that is not weaker than the candidate stands as it is. -/
theorem Station.taking_stronger {x y : Station} (h : x.level ≤ y.level) : x.taking y = y :=
  if_neg (by simp [h])

/-- A weaker entry at the candidate's place takes the candidate's values. -/
theorem Station.taking_weaker {x y : Station} (hs : x.same y = true) (h : y.level < x.level) :
    x.taking y = { y with level := x.level, stereo := x.stereo, label := x.label } :=
  if_pos (by simp [hs, h])

/-- An entry at another place stands as it is. -/
theorem Station.taking_other {x y : Station} (hs : ¬ x.same y = true) : x.taking y = y :=
  if_neg (by simp [hs])

/-- An entry keeps its band. -/
@[simp] theorem Station.taking_band (x y : Station) : (x.taking y).band = y.band := by
  unfold Station.taking
  split <;> rfl

/-- An entry keeps its frequency. -/
@[simp] theorem Station.taking_freq (x y : Station) : (x.taking y).freq = y.freq := by
  unfold Station.taking
  split <;> rfl

section inserting
variable {step : Nat} {x : Station} {list : List Station}

/-- The list holds an entry at the candidate's place (R154, step 1). -/
theorem insertCandidate_same {y : Station} (hy : y ∈ list) (hs : x.same y = true) :
    insertCandidate step x list = (list.map x.taking, false) :=
  if_pos (List.ne_nil_of_mem (List.mem_filter.mpr ⟨hy, hs⟩))

section fresh
variable (hfresh : ∀ y ∈ list, x.same y = false)
include hfresh

/-- An adjacent entry is not weaker than the candidate (R154, step 2). -/
theorem insertCandidate_adjacent_stays {y : Station} (hy : y ∈ list) (ha : x.adjacentTo step y = true)
    (hl : x.level ≤ y.level) : insertCandidate step x list = (list, false) := by
  refine (if_neg (by simpa using hfresh)).trans
    ((if_pos (List.ne_nil_of_mem (List.mem_filter.mpr ⟨hy, ha⟩))).trans (if_neg fun h => ?_))
  exact absurd (of_decide_eq_true (List.all_eq_true.mp h y (List.mem_filter.mpr ⟨hy, ha⟩))) (by omega)

/-- Every adjacent entry is weaker than the candidate, and there is one (R154, step 2). -/
theorem insertCandidate_adjacent_goes {y : Station} (hy : y ∈ list) (ha : x.adjacentTo step y = true)
    (hl : ∀ z ∈ list, x.adjacentTo step z = true → z.level < x.level) :
    insertCandidate step x list = (insertStation x (list.filter fun z => !x.adjacentTo step z), false) := by
  refine (if_neg (by simpa using hfresh)).trans
    ((if_pos (List.ne_nil_of_mem (List.mem_filter.mpr ⟨hy, ha⟩))).trans (if_pos ?_))
  refine List.all_eq_true.mpr fun z hz => decide_eq_true ?_
  obtain ⟨hmem, hadj⟩ := List.mem_filter.mp hz
  exact hl z hmem hadj

section apart
variable (hapart : ∀ y ∈ list, x.adjacentTo step y = false)
include hapart

/-- No entry is near the candidate, and the list has a place (R154, step 4). -/
theorem insertCandidate_room (hl : list.length < 64) : insertCandidate step x list = (insertStation x list, false) :=
  (if_neg (by simpa using hfresh)).trans
    ((if_neg (by simpa using hapart)).trans (if_neg (by omega)))

/-- No entry is near the candidate, and the list is full (R154, step 3). -/
theorem insertCandidate_full (hl : 64 ≤ list.length) :
    (weakest x.band list = none → insertCandidate step x list = (list, true))
    ∧ ∀ w, weakest x.band list = some w →
      (x.level ≤ w.level → insertCandidate step x list = (list, true))
      ∧ (w.level < x.level → insertCandidate step x list
          = (insertStation x (list.filter fun y => !w.same y), true)) := by
  have hfull : insertCandidate step x list = _ :=
    (if_neg (by simpa using hfresh)).trans
      ((if_neg (by simpa using hapart)).trans (if_pos hl))
  refine ⟨fun hw => ?_, fun w hw => ⟨fun h => ?_, fun h => ?_⟩⟩
  · rw [hfull, hw]
  · rw [hfull, hw]
    exact if_neg (by omega)
  · rw [hfull, hw]
    exact if_pos h

end apart
end fresh

/-- What a candidate does to a list of at most 64 entries: nothing, an entry takes its values, or it is inserted where
it is new and apart, in what the list has left of fewer than 64 entries (R154). -/
theorem insertCandidate_list (ho : list.Pairwise fun y z => y.before z = true) (hl : list.length ≤ 64) :
    (insertCandidate step x list).1 = list ∨ (insertCandidate step x list).1 = list.map x.taking
    ∨ ∃ kept, kept.Sublist list ∧ kept.length < 64 ∧ (∀ y ∈ kept, x.same y = false)
        ∧ (∀ y ∈ kept, x.adjacentTo step y = false) ∧ (insertCandidate step x list).1 = insertStation x kept := by
  have hgone {p : Station → Bool} {y : Station} (hy : y ∈ list) (hp : ¬ p y = true) : (list.filter p).length < 64 :=
    (List.length_filter_lt_length_iff_exists.mpr ⟨y, hy, hp⟩).trans_le hl
  have hstill {q : Station → Prop} (p : Station → Bool) (h : ∀ y ∈ list, q y) : ∀ y ∈ list.filter p, q y :=
    fun y hy => h y (List.mem_of_mem_filter hy)
  by_cases hfresh : ∀ y ∈ list, x.same y = false
  case neg =>
    simp only [not_forall, Bool.not_eq_false] at hfresh
    obtain ⟨y, hy, hs⟩ := hfresh
    exact .inr (.inl (congrArg Prod.fst (insertCandidate_same hy hs)))
  by_cases hapart : ∀ y ∈ list, x.adjacentTo step y = false
  case neg =>
    simp only [not_forall, Bool.not_eq_false] at hapart
    obtain ⟨y, hy, ha⟩ := hapart
    by_cases hweaker : ∀ z ∈ list, x.adjacentTo step z = true → z.level < x.level
    · refine .inr (.inr ⟨_, List.filter_sublist, hgone hy (by simp [ha]), hstill _ hfresh, fun z hz => ?_,
        congrArg Prod.fst (insertCandidate_adjacent_goes hfresh hy ha hweaker)⟩)
      simpa using List.of_mem_filter hz
    · simp only [not_forall, Nat.not_lt] at hweaker
      obtain ⟨z, hz, hadj, hle⟩ := hweaker
      exact .inl (congrArg Prod.fst (insertCandidate_adjacent_stays hfresh hz hadj hle))
  by_cases hroom : list.length < 64
  · exact .inr (.inr ⟨list, .refl _, hroom, hfresh, hapart,
      congrArg Prod.fst (insertCandidate_room hfresh hapart hroom)⟩)
  · obtain ⟨hnone, hsome⟩ := insertCandidate_full hfresh hapart (Nat.not_lt.mp hroom)
    cases hw : weakest x.band list with
    | none => exact .inl (congrArg Prod.fst (hnone hw))
    | some w =>
      obtain ⟨hdrops, hreplaces⟩ := hsome w hw
      by_cases hlevel : w.level < x.level
      · have hmem : w ∈ list := ((weakest_spec ho).2 w hw).mem
        have hself : w.same w = true := (w.same_iff w).mpr ⟨rfl, rfl⟩
        exact .inr (.inr ⟨_, List.filter_sublist, hgone hmem (by simp [hself]), hstill _ hfresh, hstill _ hapart,
          congrArg Prod.fst (hreplaces hlevel)⟩)
      · exact .inl (congrArg Prod.fst (hdrops (Nat.not_lt.mp hlevel)))

/-- A candidate leaves the list as R153 keeps it. -/
theorem insertCandidate_keeps {grid : Band → Nat} (hstep : 0 < grid x.band) (h : StationsKept grid list)
    (hl : list.length ≤ 64) :
    StationsKept grid (insertCandidate (grid x.band) x list).1
      ∧ (insertCandidate (grid x.band) x list).1.length ≤ 64 := by
  rcases insertCandidate_list (step := grid x.band) (x := x) h.ordered hl with
    heq | heq | ⟨kept, hsub, hroom, hfresh, hapart, heq⟩
  · rw [heq]
    exact ⟨h, hl⟩
  · rw [heq, List.length_map]
    exact ⟨h.map x.taking_band x.taking_freq, hl⟩
  · rw [heq, (insertStation_perm x kept).length_eq]
    exact ⟨(h.sublist hsub).insert hstep hfresh hapart, hroom⟩

end inserting

/-- In a list in strict order, the entry at the candidate's place alone may take its values (R154). -/
theorem map_taking_eq {x y : Station} {list : List Station} (ho : list.Pairwise fun y z => y.before z = true)
    (hy : y ∈ list) (hs : x.same y = true) :
    list.map x.taking = list.map fun z => if z = y then x.taking y else z := by
  refine List.map_congr_left fun z hz => ?_
  split_ifs with hzy
  · rw [hzy]
  · exact Station.taking_other fun hsz => hzy (eq_of_same_of_ordered ho hz hy (Station.same_of_same hsz hs))

/-- In a list in strict order, the entries that are not at an entry's place are the other ones. -/
theorem filter_not_same {w : Station} {list : List Station} (ho : list.Pairwise fun y z => y.before z = true)
    (hw : w ∈ list) : (list.filter fun y => !w.same y) = list.filter fun y => decide (y ≠ w) := by
  refine List.filter_congr fun y hy => ?_
  by_cases hyw : y = w
  · rw [hyw, (w.same_iff w).mpr ⟨rfl, rfl⟩]
    simp
  · rw [Bool.eq_false_iff.mpr fun hs => hyw (eq_of_same_of_ordered ho hw hy hs).symm]
    simp [hyw]

/-- Settles O41: the order of stations, the steps of R154 by their conditions, and the list they leave. -/
theorem candidateIsInserted : Obligations.CandidateIsInserted := by
  refine ⟨fun x y step => ⟨x.before_iff y, x.same_iff y, x.adjacentTo_iff step y⟩, insertStation_perm, ?_⟩
  intro grid x list hgrid ho ha hl step fresh apart res
  obtain ⟨⟨hordered, hapart⟩, hlength⟩ := insertCandidate_keeps (x := x) (hgrid x.band) ⟨ho, ha⟩ hl
  refine ⟨fun y hy hs => ?same, fun hf y hy hadj hle => insertCandidate_adjacent_stays hf hy hadj hle,
    fun hf hn hw => ?goes, fun hf hp hroom => insertCandidate_room hf hp hroom, fun hf hp hfull hb => ?noneOfBand,
    fun hf hp hfull w hw hband hleast => ?weakest, hordered, hapart, hlength⟩
  case same =>
    have hres : res = (list.map fun z => if z = y then x.taking y else z, false) :=
      (insertCandidate_same hy hs).trans (congrArg (·, false) (map_taking_eq ho hy hs))
    refine ⟨fun hle => ?_, fun hlt => ?_⟩
    · rw [hres, Station.taking_stronger hle, List.map_id'' fun z => ite_eq_right_iff.mpr Eq.symm]
    · rw [hres, Station.taking_weaker hs hlt]
  case goes =>
    simp only [apart, not_forall, Bool.not_eq_false] at hn
    obtain ⟨y, hy, hadj⟩ := hn
    exact insertCandidate_adjacent_goes hf hy hadj hw
  case noneOfBand => exact (insertCandidate_full hf hp hfull.ge).1 (weakest_none hb)
  case weakest =>
    obtain ⟨-, hsome⟩ := insertCandidate_full hf hp hfull.ge
    obtain ⟨hdrops, hreplaces⟩ := hsome w (weakest_eq ho ⟨hw, hband, hleast⟩)
    refine ⟨hdrops, fun hlt => ?_⟩
    rw [← filter_not_same ho hw]
    exact hreplaces hlt

end Sys2Proof.Machine
end

