-- ==== Sys2Proof/Proofs/ChangeGroups.lean ====
section
/-! SUPPORT. Change groups (R164 to R168) and the delay pool (R169): steps that each act on one channel, the channels of a
group that forms, applies or waits, the roles invariant (R161), and the statement about them. -/

namespace Sys2Proof.Machine

open Sys2Proof

/-! ## Steps that each act on one channel -/

/-- Steps, one for each element of a list, of which each reads and writes its own element only: what a run of them leaves
of an element is what that element's own step leaves of it. -/
theorem forEach_own {ι α : Type} [DecidableEq ι] {f : ι → State → State} {view : ι → State → α}
    (hother : ∀ x d s, d ≠ x → view d (f x s) = view d s)
    (hown : ∀ x d s, d ≠ x → view d (f d (f x s)) = view d (f d s)) {xs : List ι} (hn : xs.Nodup) (d : ι) (s : State) :
    view d (forEach f xs s) = if d ∈ xs then view d (f d s) else view d s := by
  induction xs generalizing s with
  | nil => rfl
  | cons x xs ih =>
    obtain ⟨hx, hn⟩ := List.nodup_cons.mp hn
    rw [forEach, ih hn]
    by_cases hd : d = x
    · subst hd
      rw [if_neg hx, if_pos List.mem_cons_self]
    · simp only [hother x d s hd, hown x d s hd, List.mem_cons, hd, false_or]

/-- A channel's record stands when another channel's is put in its place. -/
theorem State.chan_setChan_other {s : State} {x d : Fin 12} {r : Channel} (h : d ≠ x) :
    (s.setChan x r).chan d = s.chan d :=
  (s.chan_setChan x d r).trans (if_neg (Ne.symm h))

/-- Another channel's record does not make a channel silent (R167). -/
theorem State.chanSilent_setChan {s : State} {x d : Fin 12} {r : Channel} (h : d ≠ x) :
    (s.setChan x r).chanSilent d = s.chanSilent d := by
  simp only [State.chanSilent, State.chan_setChan_other h]
  rfl

/-! ## Silence (R167) -/

/-- When a channel is silent (R167). -/
theorem State.chanSilent_iff (s : State) (c : Fin 12) : s.chanSilent c = true ↔
    (s.chan c).zone = none
    ∨ (∃ z, (s.chan c).zone = some z ∧ ((s.zone z).power = .standby ∨ (s.zone z).ramp = -240))
    ∨ (s.pair (pairOf c)).state ∈ [PairState.protect, .recoverWait, .lockout] ∨ (s.chan c).ramp = -240 := by
  have hpair : pairSilenced (s.pair (pairOf c)).state = true
      ↔ (s.pair (pairOf c)).state ∈ [PairState.protect, .recoverWait, .lockout] := by
    cases (s.pair (pairOf c)).state <;> decide
  unfold State.chanSilent
  simp only [Bool.or_eq_true, decide_eq_true_eq, hpair]
  cases (s.chan c).zone with
  | none => simp
  | some z => simp [or_assoc]

/-- The members of a group (R166). -/
theorem State.mem_groupMembers (s : State) (g c : Fin 12) : c ∈ s.groupMembers g ↔ (s.chan c).group = some g := by
  simp [State.groupMembers]

theorem State.groupMembers_nodup (s : State) (g : Fin 12) : (s.groupMembers g).Nodup := (List.nodup_finRange 12).filter _

/-- A group is silent when all its channels are (R167). -/
theorem State.groupSilent_iff (s : State) (g : Fin 12) :
    s.groupSilent g = true ↔ ∀ c, (s.chan c).group = some g → s.chanSilent c = true := by
  simp only [State.groupSilent, List.all_eq_true, s.mem_groupMembers]

/-! ## RECONFIG (R166) -/

/-- A channel that is silent receives no RECONFIG (R166). -/
theorem State.markReconfig_silent {s : State} {c : Fin 12} (h : s.chanSilent c = true) : s.markReconfig c = s := if_pos h

theorem State.markReconfig_heard {s : State} {c : Fin 12} (h : s.chanSilent c = false) :
    s.markReconfig c = s.setChan c { s.chan c with reconfig := true } :=
  if_neg (by simp [h])

/-- RECONFIG marks a channel that is heard (R166). -/
theorem State.markReconfig_eq (s : State) (c : Fin 12) : s.markReconfig c
    = s.setChan c (if s.chanSilent c = false then { s.chan c with reconfig := true } else s.chan c) := by
  cases h : s.chanSilent c with
  | true =>
    rw [State.markReconfig_silent h, if_neg (by simp)]
    exact (congrArg (s.withChannels ·) (setAt_getAt s.out.channels c)).symm
  | false => rw [State.markReconfig_heard h, if_pos rfl]

/-- RECONFIG for several channels: each of them that is heard receives it, and nothing else changes (R166). -/
theorem State.markReconfigs_spec {xs : List (Fin 12)} (hn : xs.Nodup) (s : State) :
    forEach (fun c t => t.markReconfig c) xs s
      = s.withChannels (forEach (fun c t => t.markReconfig c) xs s).out.channels
    ∧ ∀ c, (forEach (fun c t => t.markReconfig c) xs s).chan c
      = if c ∈ xs ∧ s.chanSilent c = false then { s.chan c with reconfig := true } else s.chan c := by
  refine ⟨forEach_channelsOnly _ (fun x t => by rw [t.markReconfig_eq x]; rfl) xs s, fun c => ?_⟩
  have hrun := forEach_own (f := fun c t => State.markReconfig t c) (view := fun c t => t.chan c)
    (fun x d t h => by simp only [t.markReconfig_eq x, State.chan_setChan_other h])
    (fun x d t h => by simp only [State.markReconfig_eq _ d, State.chan_setChan_same, t.markReconfig_eq x,
      State.chan_setChan_other h, State.chanSilent_setChan h]) hn c s
  rw [hrun, s.markReconfig_eq c, State.chan_setChan_same]
  by_cases hc : c ∈ xs <;> simp [hc]

/-! ## A group that applies (R167) -/

/-- The record of a channel that applies, from the AV delays of the zones: its target settings are applied, it waits in no
group, r_ch is -240; the line is zeros when the total delay or the role changed, and the crossover starts afresh when the
role or the size did (R167, R170). -/
def Channel.settledAt (av : Option Zone → Nat) (r : Channel) : Channel :=
  let after := if r.target.role = .unused then 0 else r.target.delay + av (roleZone r.target.role)
  { r with
    applied := r.target, appliedAv := av (roleZone r.target.role), pend := none, group := none, reconfig := false
    ramp := -240
    line := if after = r.appliedAlloc ∧ r.target.role = r.applied.role then r.line else zeros after
    crossover := if r.target.role = r.applied.role ∧ r.target.size = r.applied.size then r.crossover
      else CrossoverState.cleared }

/-- A channel that applies reads its own record and the AV delays (R167). -/
theorem State.applyChannel_eq (s : State) (c : Fin 12) :
    s.applyChannel c = s.setChan c ((s.chan c).settledAt s.avOf) := by
  by_cases h : (s.chan c).target.role = .unused
  · simp only [State.applyChannel, Channel.settledAt, Channel.appliedAlloc, h, if_true]
    rfl
  · simp only [State.applyChannel, Channel.settledAt, Channel.appliedAlloc, if_neg h]

/-- A channel that applies leaves the others (R167). -/
theorem State.applyChannel_other {s : State} {x d : Fin 12} (h : d ≠ x) : (s.applyChannel x).chan d = s.chan d :=
  State.chan_setChan_other h

/-- A channel applies its own settings, with the AV delay of its zone, whatever others have applied (R167). -/
theorem State.applyChannel_own {s : State} {x d : Fin 12} (h : d ≠ x) :
    ((s.applyChannel x).applyChannel d).chan d = (s.applyChannel d).chan d := by
  have hd : (s.applyChannel x).chan d = s.chan d := State.applyChannel_other h
  have hav : (s.applyChannel x).avOf = s.avOf := rfl
  rw [State.applyChannel_eq, State.applyChannel_eq s d, State.chan_setChan_same, State.chan_setChan_same, hd, hav]

/-- A group that applies gives its channels their settings, and no other channel (R167). -/
theorem State.applyGroup_chan (s : State) (g c : Fin 12) :
    (s.applyGroup g).chan c = if (s.chan c).group = some g then (s.applyChannel c).chan c else s.chan c := by
  have hrun := forEach_own (f := fun c t => State.applyChannel t c) (view := fun c t => t.chan c)
    (fun _ _ _ => State.applyChannel_other) (fun _ _ _ => State.applyChannel_own) (s.groupMembers_nodup g) c s
  simp only [s.mem_groupMembers] at hrun
  exact hrun

/-! ## A group that forms (R166, R168) -/

/-- The channels of a group that forms wait in it with their target settings (R166). -/
def State.gathered (s : State) (g : Fin 12) (xs : List (Fin 12)) : State :=
  forEach (fun c t => t.setChan c { t.chan c with pend := some (t.chan c).target, group := some g }) xs s

/-- Gathering puts pending settings and the group in the channels' records, and changes nothing else (R166). -/
theorem State.gathered_spec (s : State) (g : Fin 12) {xs : List (Fin 12)} (hn : xs.Nodup) :
    s.gathered g xs = s.withChannels (s.gathered g xs).out.channels
    ∧ ∀ c, (s.gathered g xs).chan c
      = if c ∈ xs then { s.chan c with pend := some (s.chan c).target, group := some g } else s.chan c := by
  refine ⟨forEach_channelsOnly _ (fun _ _ => rfl) xs s, fun c => ?_⟩
  have hrun := forEach_own
    (f := fun c t => t.setChan c { t.chan c with pend := some (t.chan c).target, group := some g })
    (view := fun c t => t.chan c) (fun _ _ _ => State.chan_setChan_other)
    (fun x d t h => by simp only [State.chan_setChan_same, State.chan_setChan_other h]) hn c s
  simp only [State.chan_setChan_same] at hrun
  exact hrun

/-- The channels of a group that forms stand in rising order. -/
theorem State.mergedGroup_sorted (s : State) (cs : List (Fin 12)) : (s.mergedGroup cs).Pairwise (fun a b => a < b) := by
  unfold State.mergedGroup
  exact (List.pairwise_lt_finRange 12).filter _

theorem State.mergedGroup_nodup (s : State) (cs : List (Fin 12)) : (s.mergedGroup cs).Nodup :=
  (s.mergedGroup_sorted cs).imp fun h => Fin.ne_of_lt h

/-- A group of no channels does not form. -/
theorem State.formGroup_nil {s : State} {cs : List (Fin 12)} (h : s.mergedGroup cs = []) : s.formGroup cs = s := by
  unfold State.formGroup
  rw [h]

/-- The group that forms applies at once when all its channels are silent (R167). -/
theorem State.formGroup_applies {s : State} {cs rest : List (Fin 12)} {g : Fin 12} (h : s.mergedGroup cs = g :: rest)
    (hs : (s.gathered g (g :: rest)).groupSilent g = true) :
    s.formGroup cs = (s.gathered g (g :: rest)).applyGroup g := by
  unfold State.formGroup
  rw [h]
  exact if_pos hs

/-- The group that forms waits while one of its channels can be heard (R166). -/
theorem State.formGroup_waits {s : State} {cs rest : List (Fin 12)} {g : Fin 12} (h : s.mergedGroup cs = g :: rest)
    (hs : (s.gathered g (g :: rest)).groupSilent g = false) :
    s.formGroup cs = forEach (fun c t => t.markReconfig c) (g :: rest) (s.gathered g (g :: rest)) := by
  unfold State.formGroup
  rw [h]
  exact if_neg (by rw [Bool.not_eq_true]; exact hs)

/-- Which channels join a group because SW enters or leaves the layout (R168). -/
theorem State.mem_swJoiners (s : State) (c : Fin 12) : c ∈ s.swJoiners ↔
    ¬ ((∃ d, (s.chan d).applied.role = .sw) ↔ ∃ d, (s.chan d).target.role = .sw)
    ∧ roleZone (s.chan c).target.role = some .main ∧ (s.chan c).target.size = .small
    ∧ (s.chan c).target.role ≠ .sw := by
  have hmoves : s.swApplied = s.swTarget
      ↔ ((∃ d, (s.chan d).applied.role = .sw) ↔ ∃ d, (s.chan d).target.role = .sw) := by
    rw [Bool.eq_iff_iff]
    simp [State.swApplied, State.swTarget]
  unfold State.swJoiners
  by_cases h : s.swApplied = s.swTarget
  · simp [← hmoves, h]
  · simp [← hmoves, h, and_assoc]

/-! ## The delay pool (R169) -/

/-- The AV delay that a zone, or none, gives (R169). -/
theorem State.avOf_eq (s : State) (z : Option Zone) : s.avOf z = match z with
    | none => 0
    | some z => (s.zone z).avDelay := by
  cases z <;> rfl

/-- The sum of the claims of all channels (R169). -/
theorem State.claims_eq (s : State) : s.claims
    = s.claim 0 + s.claim 1 + s.claim 2 + s.claim 3 + s.claim 4 + s.claim 5 + s.claim 6 + s.claim 7 + s.claim 8
      + s.claim 9 + s.claim 10 + s.claim 11 := by
  have hall : List.finRange 12 = [0, 1, 2, 3, 4, 5, 6, 7, 8, 9, 10, 11] := by decide
  simp only [State.claims, hall, List.map, sumNat]
  omega

/-! ## The roles invariant (R161, log 66) -/

/-- The roles invariant speaks of the channels' roles and groups only. -/
theorem State.RolesInv.congr {s t : State} (h : s.RolesInv)
    (ht : ∀ c, (t.chan c).target.role = (s.chan c).target.role) (ha : ∀ c, (t.chan c).applied.role = (s.chan c).applied.role)
    (hg : ∀ c, (t.chan c).group = (s.chan c).group) : t.RolesInv := by
  obtain ⟨targets, applied, waiting⟩ := h
  constructor <;> simpa only [ht, ha, hg]

/-- A group that applies keeps the roles invariant: a role passes from one of its channels to another at once (R161). -/
theorem State.RolesInv.applyGroup {s : State} (h : s.RolesInv) (g : Fin 12) : (s.applyGroup g).RolesInv := by
  have htarget (c : Fin 12) : ((s.applyGroup g).chan c).target = (s.chan c).target := (s.applyGroup_settings g c).1
  have happlied (c : Fin 12) : ((s.applyGroup g).chan c).applied
      = if (s.chan c).group = some g then (s.chan c).target else (s.chan c).applied := (s.applyGroup_settings g c).2.1
  have hgroup (c : Fin 12) : ((s.applyGroup g).chan c).group
      = if (s.chan c).group = some g then none else (s.chan c).group := (s.applyGroup_settings g c).2.2
  -- One channel of the group and one outside never hold one role together, the one as its target.
  have hcross {c d : Fin 12} (hne : c ≠ d) (hc : (s.chan c).group = some g) (hd : (s.chan d).group ≠ some g)
      (he : (s.chan c).target.role = (s.chan d).applied.role) : SharedRole (s.chan c).target.role := by
    obtain hs | ⟨x, hcx, hdx⟩ := h.waiting c d hne he
    · exact hs
    · rw [hc] at hcx
      exact absurd (hdx.trans hcx.symm) hd
  constructor
  · intro c d hne
    rw [htarget, htarget]
    exact h.targets c d hne
  · intro c d hne
    rw [happlied, happlied]
    by_cases hc : (s.chan c).group = some g <;> by_cases hd : (s.chan d).group = some g
    · rw [if_pos hc, if_pos hd]
      exact h.targets c d hne
    · rw [if_pos hc, if_neg hd]
      exact hcross hne hc hd
    · rw [if_neg hc, if_pos hd]
      exact fun he => he ▸ hcross hne.symm hd hc he.symm
    · rw [if_neg hc, if_neg hd]
      exact h.applied c d hne
  · intro c d hne
    rw [htarget, happlied, hgroup, hgroup]
    by_cases hd : (s.chan d).group = some g
    · rw [if_pos hd]
      exact fun he => .inl (h.targets c d hne he)
    · rw [if_neg hd, if_neg hd]
      intro he
      by_cases hc : (s.chan c).group = some g
      · exact .inl (hcross hne hc hd he)
      · rw [if_neg hc]
        exact h.waiting c d hne he

/-- The roles invariant but for some channels, which are to form a group: among them a role may pass that no group holds
yet (R161, log 66). -/
structure State.RolesPass (s : State) (cs : List (Fin 12)) : Prop where
  targets : ∀ c d, c ≠ d → (s.chan c).target.role = (s.chan d).target.role → SharedRole (s.chan c).target.role
  applied : ∀ c d, c ≠ d → (s.chan c).applied.role = (s.chan d).applied.role → SharedRole (s.chan c).applied.role
  waiting : ∀ c d, c ≠ d → (s.chan c).target.role = (s.chan d).applied.role →
    SharedRole (s.chan c).target.role ∨ (∃ g, (s.chan c).group = some g ∧ (s.chan d).group = some g) ∨ (c ∈ cs ∧ d ∈ cs)

/-- Where the roles invariant holds, any channels may form a group. -/
theorem State.RolesInv.rolesPass {s : State} (h : s.RolesInv) (cs : List (Fin 12)) : s.RolesPass cs :=
  ⟨h.targets, h.applied, fun c d hne he => (h.waiting c d hne he).imp_right .inl⟩

/-- RECONFIG leaves the roles and the groups. -/
theorem State.RolesInv.markReconfigs {s : State} (h : s.RolesInv) (xs : List (Fin 12)) :
    (forEach (fun c t => t.markReconfig c) xs s).RolesInv := by
  have hsame (c : Fin 12) := forEach_markReconfig xs c s
  refine h.congr (fun c => ?_) (fun c => ?_) fun c => (hsame c).2.2
  · rw [Channel.target, (hsame c).1, (hsame c).2.1]
    rfl
  · rw [(hsame c).1]

/-- A group that holds one of a group's channels is taken in whole (R166). -/
theorem State.mergedGroup_closed {s : State} {cs : List (Fin 12)} {c d g : Fin 12} (hc : (s.chan c).group = some g)
    (hd : (s.chan d).group = some g) (hm : c ∈ s.mergedGroup cs) : d ∈ s.mergedGroup cs := by
  rw [s.mem_mergedGroup] at hm ⊢
  obtain hbase | ⟨x, b, hx, hb, hbase⟩ := hm
  · exact .inr ⟨g, c, hd, hc, hbase⟩
  · rw [hc] at hx
    cases hx
    exact .inr ⟨g, b, hd, hb, hbase⟩

/-- The channels that are to form a group are gathered in one, and so the roles invariant holds (R161, log 66). -/
theorem State.RolesPass.gathered {s : State} {cs : List (Fin 12)} (h : s.RolesPass cs) (g : Fin 12) :
    (s.gathered g (s.mergedGroup cs)).RolesInv := by
  obtain ⟨-, hchan⟩ := s.gathered_spec g (s.mergedGroup_nodup cs)
  have htarget (c : Fin 12) : ((s.gathered g (s.mergedGroup cs)).chan c).target = (s.chan c).target := by
    rw [hchan]
    split
    · rfl
    · rfl
  have happlied (c : Fin 12) : ((s.gathered g (s.mergedGroup cs)).chan c).applied = (s.chan c).applied := by
    rw [hchan]
    split
    · rfl
    · rfl
  have hgroup (c : Fin 12) : ((s.gathered g (s.mergedGroup cs)).chan c).group
      = if c ∈ s.mergedGroup cs then some g else (s.chan c).group := by
    rw [hchan]
    split
    · rfl
    · rfl
  constructor
  · simpa only [htarget] using h.targets
  · simpa only [happlied] using h.applied
  · intro c d hne
    rw [htarget, happlied, hgroup, hgroup]
    intro he
    obtain hs | ⟨x, hc, hd⟩ | ⟨hc, hd⟩ := h.waiting c d hne he
    · exact .inl hs
    · by_cases hm : c ∈ s.mergedGroup cs
      · exact .inr ⟨g, if_pos hm, if_pos (State.mergedGroup_closed hc hd hm)⟩
      · exact .inr ⟨x, (if_neg hm).trans hc, (if_neg (mt (State.mergedGroup_closed hd hc) hm)).trans hd⟩
    · exact .inr ⟨g, if_pos ((s.mem_mergedGroup cs c).mpr (.inl (.inl hc))),
        if_pos ((s.mem_mergedGroup cs d).mpr (.inl (.inl hd)))⟩

/-- When the group forms, the roles invariant holds (R161, R166). -/
theorem State.RolesPass.formGroup {s : State} {cs : List (Fin 12)} (h : s.RolesPass cs) : (s.formGroup cs).RolesInv := by
  cases hm : s.mergedGroup cs with
  | nil =>
    rw [State.formGroup_nil hm]
    refine ⟨h.targets, h.applied, fun c d hne he => ?_⟩
    obtain hs | hg | ⟨hc, -⟩ := h.waiting c d hne he
    · exact .inl hs
    · exact .inr hg
    · have hmem : c ∈ s.mergedGroup cs := (s.mem_mergedGroup cs c).mpr (.inl (.inl hc))
      rw [hm] at hmem
      exact absurd hmem List.not_mem_nil
  | cons g rest =>
    have hgathered := h.gathered g
    rw [hm] at hgathered
    cases hs : (s.gathered g (g :: rest)).groupSilent g with
    | true =>
      rw [State.formGroup_applies hm hs]
      exact hgathered.applyGroup g
    | false =>
      rw [State.formGroup_waits hm hs]
      exact hgathered.markReconfigs _

/-! ## A group at a block (R166, R167) -/

section block
variable {s : State} {g : Fin 12}

/-- A group without channels does nothing. -/
theorem State.groupBlock_empty (h : ∀ c, (s.chan c).group ≠ some g) : s.groupBlock g = s := by
  refine if_pos (List.isEmpty_iff.mpr (List.eq_nil_iff_forall_not_mem.mpr fun c hc => ?_))
  exact h c ((s.mem_groupMembers g c).mp hc)

section waits
variable (h : ¬ ∀ c, (s.chan c).group ≠ some g)
include h

theorem State.groupMembers_nonempty : ¬ (s.groupMembers g).isEmpty = true := by
  rw [List.isEmpty_iff]
  intro hnil
  exact h fun c hc => List.not_mem_nil (hnil ▸ (s.mem_groupMembers g c).mpr hc)

/-- A group whose channels are all silent applies (R167). -/
theorem State.groupBlock_applies (hs : s.groupSilent g = true) : s.groupBlock g = s.applyGroup g :=
  (if_neg (State.groupMembers_nonempty h)).trans (if_pos hs)

/-- A group of which a channel can be heard waits (R166). -/
theorem State.groupBlock_waits (hs : s.groupSilent g = false) :
    s.groupBlock g = forEach (fun c t => t.markReconfig c) (s.groupMembers g) s :=
  (if_neg (State.groupMembers_nonempty h)).trans (if_neg (by simp [hs]))

end waits

/-- A group at a block keeps the roles invariant (R161). -/
theorem State.RolesInv.groupBlock (h : s.RolesInv) : (s.groupBlock g).RolesInv :=
  State.ite_has h (State.ite_has (h.applyGroup g) (h.markReconfigs _))

end block

/-! ## The statement -/

/-- Settles O44: silence and RECONFIG by their conditions, the group that forms by its channels, a group at a block by its
cases, the pool, and the roles invariant. -/
theorem changeGroups : Obligations.ChangeGroups := by
  refine ⟨fun s c => ?silence, State.groupSilent_iff, fun x => ?zones, fun s cs => ?forms, fun s g => ?block,
    fun s z => ?spread, fun s c => ?claim, fun s => ?pool, fun s h => ?roles⟩
  case silence =>
    exact ⟨rfl, s.chanSilent_iff c, State.markReconfig_silent, State.markReconfig_heard, fun g => s.mem_groupMembers g c⟩
  case zones => cases x <;> rfl
  case forms =>
    intro swMoves joins new
    have hnew (c : Fin 12) : (c ∈ cs ∨ c ∈ s.swJoiners) ↔ new c := or_congr_right (s.mem_swJoiners c)
    refine ⟨s.mergedGroup_sorted cs, fun c => ?_, State.formGroup_nil, fun g rest hm => ?_⟩
    · rw [s.mem_mergedGroup]
      simp only [hnew]
    · have hn : (g :: rest).Nodup := hm ▸ s.mergedGroup_nodup cs
      obtain ⟨hv, hchan⟩ := s.gathered_spec g hn
      obtain ⟨ht, hmarked⟩ := State.markReconfigs_spec hn (s.gathered g (g :: rest))
      exact ⟨s.gathered g (g :: rest), hv, hchan, State.formGroup_applies hm,
        fun hs => ⟨_, State.formGroup_waits hm hs, ht, hmarked⟩⟩
  case block =>
    intro empty
    refine ⟨State.groupBlock_empty, fun h hs => State.groupBlock_applies h hs, fun h hs => ?_⟩
    obtain ⟨ht, hmarked⟩ := State.markReconfigs_spec (s.groupMembers_nodup g) s
    simp only [s.mem_groupMembers] at hmarked
    exact ⟨_, State.groupBlock_waits h hs, ht, hmarked⟩
  case spread =>
    refine ⟨fun c => ?_, fun h => if_pos h, fun h => if_neg h⟩
    simp only [State.avChannels, List.mem_filter, List.mem_finRange, true_and, Bool.and_eq_true, decide_eq_true_eq]
    exact Iff.rfl
  case claim =>
    intro r applied target
    have htarget : s.targetAlloc r.target = target := by
      rw [State.targetAlloc, s.avOf_eq] <;> rfl
    exact congrArg (max applied) htarget
  case pool => rw [State.poolFits, decide_eq_true_eq, s.claims_eq]
  case roles => exact ⟨fun cs => (h.rolesPass cs).formGroup, fun g => ⟨h.applyGroup g, h.groupBlock⟩⟩

end Sys2Proof.Machine
end

