-- ==== Sys2Proof/Proofs/OutputSettings.lean ====
section
/-! SUPPORT. The output commands (R164, R165, R171): the channels that an assignment moves, each command's outcome for the
arguments that a channel and its settings have, the roles invariant (R161), and the statement about them. -/

namespace Sys2Proof.Machine

open Sys2Proof

/-! ## The channels that an assignment moves (R164) -/

section assigning
variable {s : State} {c x : Fin 12} {r : Role}

/-- No other channel gives up a role that any number may hold, or that none of them holds (R164). -/
theorem State.roleHolder_free (h : r = .sw ∨ r = .unused ∨ ∀ y, y ≠ c → (s.chan y).target.role ≠ r) :
    s.roleHolder c r = none := by
  cases hx : s.roleHolder c r with
  | none => rfl
  | some y =>
    obtain ⟨hy, hrole, hsw, hunused⟩ := s.roleHolder_some c y r hx
    obtain h | h | h := h
    · exact absurd h hsw
    · exact absurd h hunused
    · exact absurd hrole (h y hy)

/-- The one other channel whose target role it is gives up the role (R164). -/
theorem State.roleHolder_taken (hsw : r ≠ .sw) (hunused : r ≠ .unused) (hx : x ≠ c) (hrole : (s.chan x).target.role = r)
    (hone : ∀ y, y ≠ c → (s.chan y).target.role = r → y = x) : s.roleHolder c r = some x := by
  cases hy : s.roleHolder c r with
  | none =>
    obtain h | h | h := s.roleHolder_none c r hy
    · exact absurd h hsw
    · exact absurd h hunused
    · exact absurd hrole (h x hx)
  | some y =>
    obtain ⟨hyc, hyr, -, -⟩ := s.roleHolder_some c y r hy
    rw [hone y hyc hyr]

/-- The channels that have the role applied, in rising order (R161). -/
theorem State.roleKeepers_eq (s : State) (c : Fin 12) (r : Role) : s.roleKeepers c r
    = (List.finRange 12).filter fun y => decide (y ≠ c ∧ (s.chan y).applied.role = r ∧ r ≠ .sw ∧ r ≠ .unused) := by
  unfold State.roleKeepers
  split
  next h => obtain h | h := h <;> simp [h]
  next h =>
    obtain ⟨hsw, hunused⟩ := not_or.mp h
    exact List.filter_congr fun y _ => by simp [hsw, hunused]

/-- An assignment of a role that no channel gives up (R164). -/
theorem State.assigned_free (h : s.roleHolder c r = none) : s.assigned c r
    = (s.givePending c { (s.chan c).target with role := r }, c :: s.roleKeepers c r) := by
  simp only [State.assigned, h]

/-- An assignment of a role that a channel gives up: that channel's target role is UNUSED (R164). -/
theorem State.assigned_taken (h : s.roleHolder c r = some x) : s.assigned c r
    = ((s.givePending c { (s.chan c).target with role := r }).givePending x { (s.chan x).target with role := .unused },
      c :: x :: s.roleKeepers c r) := by
  simp only [State.assigned, h]

end assigning

/-- Handing a command over moves no channel, and so no holder of a role. -/
@[simp] theorem State.handOver_roleHolder (s : State) (op target : Byte) (args : List Byte) (c : Fin 12) (r : Role) :
    (s.handOver op target args).roleHolder c r = s.roleHolder c r := by
  simp only [State.roleHolder, State.handOver_chanAt]

@[simp] theorem State.handOver_roleKeepers (s : State) (op target : Byte) (args : List Byte) (c : Fin 12) (r : Role) :
    (s.handOver op target args).roleKeepers c r = s.roleKeepers c r := by
  simp only [State.roleKeepers, State.handOver_chanAt]

/-- The delay pool counts what the channels and the zones' AV delays claim (R169). -/
theorem State.poolFits_congr {u v : State} (hchan : ∀ d, u.chan d = v.chan d) (hzone : ∀ z, u.zone z = v.zone z) :
    u.poolFits = v.poolFits := by
  have hav : u.avOf = v.avOf := funext fun z => by rw [u.avOf_eq, v.avOf_eq]; cases z <;> simp only [hzone]
  have hclaim : u.claim = v.claim := funext fun d => by simp only [State.claim, State.targetAlloc, hchan, hav]
  rw [State.poolFits, State.poolFits, State.claims, State.claims, hclaim]

/-- Handing a command over moves nothing that the delay pool counts, whatever settings the command gives (R169). -/
theorem State.handOver_setChan_poolFits (s : State) (op target : Byte) (args : List Byte) (c : Fin 12) (q : Channel) :
    ((s.handOver op target args).setChan c q).poolFits = (s.setChan c q).poolFits :=
  State.poolFits_congr (fun d => by rw [State.chan_setChan, State.chan_setChan, State.handOver_chanAt])
    fun z => s.handOver_zoneAt op target args z

theorem State.handOver_setChans_poolFits (s : State) (op target : Byte) (args : List Byte) (c x : Fin 12)
    (q p : Channel) :
    (((s.handOver op target args).setChan c q).setChan x p).poolFits = ((s.setChan c q).setChan x p).poolFits :=
  State.poolFits_congr (fun d => by simp only [State.chan_setChan, State.handOver_chanAt])
    fun z => s.handOver_zoneAt op target args z

/-! ## The commands' outcomes -/

/-- ASSIGN_OUTPUT of a channel above 11, or of a role that no channel takes (R164). -/
theorem cmdAssignOutput_badArg {channel role : Byte} (s : State)
    (h : 11 < channel.toNat ∨ ∀ r, Role.ofCode role.toNat = some r → r.isOutput = false) :
    cmdAssignOutput channel role s = refuse s .badArg := by
  unfold cmdAssignOutput
  split
  next c r hc hr =>
    obtain h | h := h
    · rw [fin12?_none _ h] at hc
      exact absurd hc (by simp)
    · exact if_pos (h r hr)
  next => rfl

section assignOutput
variable {channel role : Byte} {c : Fin 12} {r : Role} (hc : c.val = channel.toNat)
  (hr : Role.ofCode role.toNat = some r) (hout : r.isOutput = true)
include hc hr hout

/-- ASSIGN_OUTPUT of the role that the channel's target settings have (R164). -/
theorem cmdAssignOutput_same {s : State} (h : (s.chan c).target.role = r) :
    cmdAssignOutput channel role s = done s 0 := by
  simp only [cmdAssignOutput, fin12?_some _ c hc, hr, hout, h, Bool.true_eq_false, if_false, if_true]

/-- ASSIGN_OUTPUT of another role: the pool's check, and then the group (R164, R169). -/
theorem cmdAssignOutput_other {s : State} (h : (s.chan c).target.role ≠ r) :
    cmdAssignOutput channel role s
      = if (s.assigned c r).1.poolFits = false then refuse s .noRoom
        else done ((s.assigned c r).1.formGroup (s.assigned c r).2)
          (if (((s.assigned c r).1.formGroup (s.assigned c r).2).chan c).group = none then 0 else 1) := by
  simp only [cmdAssignOutput, fin12?_some _ c hc, hr, hout, h, Bool.true_eq_false, if_false]

end assignOutput

/-- SET_CHANNEL of a channel above 11, or of a code that is no polarity or no size (R165). -/
theorem cmdSetChannel_badArg {channel polarity size : Byte} (trim : Byte) (delay : BitVec 16) (s : State)
    (h : 11 < channel.toNat ∨ Polarity.ofCode polarity.toNat = none ∨ SpeakerSize.ofCode size.toNat = none) :
    cmdSetChannel channel trim delay polarity size s = refuse s .badArg := by
  unfold cmdSetChannel
  split
  next c pol sz hc hp hs =>
    obtain h | h | h := h
    · rw [fin12?_none _ h] at hc
      exact absurd hc (by simp)
    · exact absurd (hp.symm.trans h) (by simp)
    · exact absurd (hs.symm.trans h) (by simp)
  next => rfl

/-- SET_CHANNEL of a channel: the pool's check, and then the trim and, if other settings are new, the group (R165). -/
theorem cmdSetChannel_channel {channel polarity size : Byte} {c : Fin 12} {pol : Polarity} {sz : SpeakerSize}
    (trim : Byte) (delay : BitVec 16) (s : State) (hc : c.val = channel.toNat)
    (hpol : Polarity.ofCode polarity.toNat = some pol) (hsz : SpeakerSize.ofCode size.toNat = some sz) :
    let tr := max (-24) (min 24 trim.toInt)
    let d := min 1440 delay.toNat
    let res := clampResult [(trim.toInt, tr), ((delay.toNat : Int), (d : Int))]
    let new : ChanSettings := { role := (s.chan c).target.role, delay := d, polarity := pol, size := sz }
    cmdSetChannel channel trim delay polarity size s
      = if (s.setChan c { s.chan c with pend := some new }).poolFits = false then refuse s .noRoom
        else { st := if new = (s.chan c).target then s.setChan c { s.chan c with trim := tr }
                 else (s.setChan c { s.chan c with pend := some new, trim := tr }).formGroup [c]
               res := res.1, val := res.2 } := by
  intro tr d res new
  have htr : clampInt (-24) 24 trim.toInt = tr := clampInt_eq _ _ _ (by decide)
  have hd : clampNat 0 1440 delay.toNat = d := clampNat_zero ..
  simp only [cmdSetChannel, fin12?_some _ c hc, hpol, hsz, htr, hd, clampedOr_eq, State.givePending,
    State.chan_setChan_same, State.setChan_setChan]
  by_cases hn : new = (s.chan c).target
  · rw [if_pos hn, if_pos hn]
  · rw [if_neg hn, if_neg hn]

/-- The crossover that stands changes nothing (R171). -/
theorem State.setCrossover_same {s : State} {n : Nat} (h : s.out.crossover = n) :
    { s with out := { s.out with crossover := n } } = s := by
  subst h
  rfl

/-! ## The roles invariant (R161, log 66) -/

/-- A row of the command ring keeps the roles invariant when its command does. -/
theorem State.RolesInv.runHost {s : State} (h : s.RolesInv) {op : Nat} {target : Byte} {args : List Byte}
    {cmd : State → CmdOut} (hcmd : ∀ u : State, u.RolesInv → (cmd u).st.RolesInv) :
    (s.runHost op target args cmd).RolesInv := by
  refine State.ite_has h ?_
  obtain ⟨c, link, hreturn⟩ := State.returnCommand_eq (cmd (s.handOver (BitVec.ofNat 8 op) target args))
    (BitVec.ofNat 8 op) target
  rw [hreturn]
  have hover : (s.handOver (BitVec.ofNat 8 op) target args).RolesInv :=
    h.congr (fun _ => rfl) (fun _ => rfl) fun _ => rfl
  exact (hcmd _ hover).congr (fun _ => rfl) (fun _ => rfl) fun _ => rfl

/-- A channel's record with the same roles and the same group keeps the roles invariant. -/
theorem State.RolesInv.setChan {s : State} (h : s.RolesInv) {c : Fin 12} {r : Channel}
    (ht : r.target.role = (s.chan c).target.role) (ha : r.applied.role = (s.chan c).applied.role)
    (hg : r.group = (s.chan c).group) : (s.setChan c r).RolesInv := by
  have hchan (d : Fin 12) : (s.setChan c r).chan d = if c = d then r else s.chan d := s.chan_setChan c d r
  refine h.congr (fun d => ?_) (fun d => ?_) fun d => ?_
  all_goals
    rw [hchan]
    by_cases hd : c = d
    · subst hd
      simpa only [if_true]
    · rw [if_neg hd]

section assigned
variable {s : State} (c : Fin 12) (r : Role)

/-- The target role that an assignment leaves a channel (R164). -/
def State.roleAfter (s : State) (c : Fin 12) (r : Role) (d : Fin 12) : Role :=
  if d = c then r else if s.roleHolder c r = some d then .unused else (s.chan d).target.role

/-- What an assignment leaves of a channel: its applied settings and its group, and its target role (R164). -/
theorem State.assigned_chan (s : State) (d : Fin 12) :
    ((s.assigned c r).1.chan d).applied = (s.chan d).applied ∧ ((s.assigned c r).1.chan d).group = (s.chan d).group
    ∧ ((s.assigned c r).1.chan d).target.role = s.roleAfter c r d := by
  unfold State.roleAfter
  cases hx : s.roleHolder c r with
  | none =>
    rw [State.assigned_free hx, State.givePending, State.chan_setChan]
    by_cases hd : d = c
    · subst hd
      simp [Channel.target]
    · simp [hd, Ne.symm hd]
  | some x =>
    obtain ⟨hxc, -, -, -⟩ := s.roleHolder_some c x r hx
    rw [State.assigned_taken hx]
    simp only [State.givePending, State.chan_setChan, Option.some.injEq]
    by_cases hd : d = c
    · subst hd
      simp [hxc, Channel.target]
    · by_cases hdx : x = d
      · subst hdx
        simp [hd, hxc.symm, Channel.target]
      · simp [hd, hdx, Ne.symm hd]

/-- The channel that is assigned the role, and each channel that has it applied, are to form the group (R164, log 66). -/
theorem State.mem_assigned (s : State) :
    c ∈ (s.assigned c r).2 ∧ ∀ d ∈ s.roleKeepers c r, d ∈ (s.assigned c r).2 := by
  cases hx : s.roleHolder c r with
  | none =>
    rw [State.assigned_free hx]
    exact ⟨List.mem_cons_self, fun d hd => List.mem_cons_of_mem _ hd⟩
  | some x =>
    rw [State.assigned_taken hx]
    exact ⟨List.mem_cons_self, fun d hd => List.mem_cons_of_mem _ (List.mem_cons_of_mem _ hd)⟩

/-- After the assignment no other channel has the role as its target role, unless any number may hold it (R161). -/
theorem State.RolesInv.roleAfter_other (h : s.RolesInv) {d : Fin 12} (hd : d ≠ c) (he : s.roleAfter c r d = r) :
    SharedRole r := by
  rw [State.roleAfter, if_neg hd] at he
  by_cases hx : s.roleHolder c r = some d
  · rw [if_pos hx] at he
    exact .inr he.symm
  · rw [if_neg hx] at he
    cases hy : s.roleHolder c r with
    | none =>
      obtain hsw | hunused | hnone := s.roleHolder_none c r hy
      · exact .inl hsw
      · exact .inr hunused
      · exact absurd he (hnone d hd)
    | some y =>
      obtain ⟨-, hyr, -, -⟩ := s.roleHolder_some c y r hy
      have hne : y ≠ d := fun hyd => hx (hyd ▸ hy)
      exact hyr ▸ h.targets y d hne (hyr.trans he.symm)

/-- The assignment leaves the roles invariant but for the channels that are to form the group (R161, R164, log 66). -/
theorem State.RolesInv.assigned (h : s.RolesInv) : (s.assigned c r).1.RolesPass (s.assigned c r).2 := by
  have happlied (d : Fin 12) : ((s.assigned c r).1.chan d).applied = (s.chan d).applied := (s.assigned_chan c r d).1
  have hgroup (d : Fin 12) : ((s.assigned c r).1.chan d).group = (s.chan d).group := (s.assigned_chan c r d).2.1
  have htarget (d : Fin 12) : ((s.assigned c r).1.chan d).target.role = s.roleAfter c r d := (s.assigned_chan c r d).2.2
  have hself : s.roleAfter c r c = r := if_pos rfl
  constructor
  · intro d e hne
    rw [htarget, htarget]
    intro he
    by_cases hd : d = c
    · subst hd
      rw [hself] at he ⊢
      exact h.roleAfter_other d r hne.symm he.symm
    · by_cases hec : e = c
      · subst hec
        rw [hself] at he
        rw [he]
        exact h.roleAfter_other e r hd he
      · by_cases hdx : s.roleHolder c r = some d
        · exact .inr ((if_neg hd).trans (if_pos hdx))
        · by_cases hex : s.roleHolder c r = some e
          · exact .inr (he.trans ((if_neg hec).trans (if_pos hex)))
          · simp only [State.roleAfter, if_neg hd, if_neg hec, if_neg hdx, if_neg hex] at he ⊢
            exact h.targets d e hne he
  · simpa only [happlied] using h.applied
  · intro d e hne
    rw [htarget, happlied, hgroup, hgroup]
    intro he
    by_cases hd : d = c
    · subst hd
      rw [hself] at he ⊢
      obtain ⟨hmem, hkeeps⟩ := s.mem_assigned d r
      by_cases hshared : SharedRole r
      · exact .inl hshared
      · obtain ⟨hsw, hunused⟩ := not_or.mp hshared
        exact .inr (.inr ⟨hmem, hkeeps e ((s.mem_roleKeepers d e r).mpr ⟨hne.symm, he.symm, hsw, hunused⟩)⟩)
    · by_cases hdx : s.roleHolder c r = some d
      · exact .inl (.inr ((if_neg hd).trans (if_pos hdx)))
      · simp only [State.roleAfter, if_neg hd, if_neg hdx] at he ⊢
        exact (h.waiting d e hne he).imp_right .inl

end assigned

/-- ASSIGN_OUTPUT keeps the roles invariant (R161). -/
theorem State.RolesInv.cmdAssignOutput {s : State} (h : s.RolesInv) (channel role : Byte) :
    (cmdAssignOutput channel role s).st.RolesInv := by
  by_cases hbad : 11 < channel.toNat ∨ ∀ r, Role.ofCode role.toNat = some r → r.isOutput = false
  · rw [cmdAssignOutput_badArg s hbad]
    exact h
  · simp only [not_or, Nat.not_lt, not_forall, Bool.not_eq_false] at hbad
    obtain ⟨hc, r, hr, hout⟩ := hbad
    by_cases hsame : (s.chan ⟨channel.toNat, by omega⟩).target.role = r
    · rw [cmdAssignOutput_same rfl hr hout hsame]
      exact h
    · rw [cmdAssignOutput_other rfl hr hout hsame]
      split
      next => exact h
      next => exact (h.assigned _ r).formGroup

/-- SET_CHANNEL keeps the roles invariant: it gives no role (R161, R165). -/
theorem State.RolesInv.cmdSetChannel {s : State} (h : s.RolesInv) (channel trim : Byte) (delay : BitVec 16)
    (polarity size : Byte) : (cmdSetChannel channel trim delay polarity size s).st.RolesInv := by
  by_cases hbad : 11 < channel.toNat ∨ Polarity.ofCode polarity.toNat = none ∨ SpeakerSize.ofCode size.toNat = none
  · rw [cmdSetChannel_badArg trim delay s hbad]
    exact h
  · simp only [not_or, Nat.not_lt, ← ne_eq, Option.ne_none_iff_exists'] at hbad
    obtain ⟨hc, ⟨pol, hpol⟩, sz, hsz⟩ := hbad
    rw [cmdSetChannel_channel (c := ⟨channel.toNat, by omega⟩) trim delay s rfl hpol hsz]
    split
    next => exact h
    next =>
      refine State.ite_has (h.setChan rfl rfl rfl) ?_
      exact State.RolesPass.formGroup (State.RolesInv.rolesPass (h.setChan (by rfl) (by rfl) (by rfl)) _)

/-! ## The statement -/

/-- Settles O43: each command's outcome by its arguments, and the roles invariant. -/
theorem outputSettings : Obligations.OutputSettings := by
  refine ⟨fun s channel role hready => ?assign, fun s channel trim delay polarity size hready => ?channel,
    fun s hz hready => ?bass, fun i s t hi h ht => ?roles⟩
  case assign =>
    intro gives
    have hgives {res : CmdResult} {v : Int} (f : State → State)
        (hcmd : cmdAssignOutput channel role (s.handOver 0x30 channel [role])
          = { st := f (s.handOver 0x30 channel [role]), res := res, val := v }) : gives res v f :=
      congrArg Host.Outcome.next (s.runHost_answered f hready rfl hcmd)
    refine ⟨fun hbad => hgives id (cmdAssignOutput_badArg _ hbad), fun c r hc hr hout => ?_⟩
    intro set h keepers
    have hkeepers : h.roleKeepers c r = keepers := (s.handOver_roleKeepers ..).trans (s.roleKeepers_eq c r)
    have hchan (d : Fin 12) : h.chan d = s.chan d := s.handOver_chanAt ..
    have hother (hne : (s.chan c).target.role ≠ r) :=
      cmdAssignOutput_other hc hr hout (s := h) (by rw [hchan]; exact hne)
    refine ⟨fun hsame => hgives id (cmdAssignOutput_same hc hr hout (by rw [hchan]; exact hsame)),
      fun hne hfree => ?free, fun x hne hsw hunused hx hrole hone => ?taken⟩
    case free =>
      have hassigned : h.assigned c r = (set h, c :: keepers) := by
        rw [State.assigned_free ((s.handOver_roleHolder ..).trans (State.roleHolder_free hfree)), hkeepers,
          State.givePending, hchan]
      have hpool : (set h).poolFits = (set s).poolFits := s.handOver_setChan_poolFits ..
      have hcmd := hother hne
      rw [hassigned, hpool] at hcmd
      exact ⟨fun hfull => hgives id (hcmd.trans (if_pos hfull)),
        fun hfits => hgives _ (hcmd.trans (if_neg (by rw [Bool.not_eq_false]; exact hfits)))⟩
    case taken =>
      intro two
      have hassigned : h.assigned c r = (two h, c :: x :: keepers) := by
        rw [State.assigned_taken ((s.handOver_roleHolder ..).trans (State.roleHolder_taken hsw hunused hx hrole hone)),
          hkeepers, State.givePending, State.givePending, State.chan_setChan_other hx, hchan, hchan]
      have hpool : (two h).poolFits = (two s).poolFits := s.handOver_setChans_poolFits ..
      have hcmd := hother hne
      rw [hassigned, hpool] at hcmd
      exact ⟨fun hfull => hgives id (hcmd.trans (if_pos hfull)),
        fun hfits => hgives _ (hcmd.trans (if_neg (by rw [Bool.not_eq_false]; exact hfits)))⟩
  case channel =>
    intro gives
    let h := s.handOver 0x31 channel ([trim, 0] ++ leBytes 2 delay.toNat ++ [polarity, size])
    have hgives {res : CmdResult} {v : Int} (f : State → State)
        (hcmd : cmdSetChannel channel trim delay polarity size h = { st := f h, res := res, val := v }) : gives res v f :=
      congrArg Host.Outcome.next (s.runHost_answered f hready rfl hcmd)
    refine ⟨fun hbad => hgives id (cmdSetChannel_badArg trim delay h hbad),
      fun c pol sz hc hpol hsz => ?_⟩
    intro tr d res new
    have hcmd := cmdSetChannel_channel trim delay h hc hpol hsz
    have hchan : h.chan c = s.chan c := s.handOver_chanAt ..
    rw [hchan] at hcmd
    have hpool : (h.setChan c { s.chan c with pend := some new }).poolFits
        = (s.setChan c { s.chan c with pend := some new }).poolFits := s.handOver_setChan_poolFits ..
    refine ⟨fun hfull => hgives id (hcmd.trans (if_pos (hpool.trans hfull))), fun hfits => ?_⟩
    have hfit := hcmd.trans (if_neg (by rw [Bool.not_eq_false]; exact hpool.trans hfits))
    refine ⟨fun hsame => hgives _ (hfit.trans ?_), fun hnew => hgives _ (hfit.trans ?_)⟩
    · rw [if_pos hsame]
    · rw [if_neg hnew]
  case bass =>
    intro gives
    have hgives {res : CmdResult} {v : Int} (f : State → State)
        (hcmd : cmdSetBass hz (s.handOver 0x32 0 [hz]) = { st := f (s.handOver 0x32 0 [hz]), res := res, val := v }) :
        gives res v f := congrArg Host.Outcome.next (s.runHost_answered f hready rfl hcmd)
    refine ⟨fun hbad => hgives id (if_pos hbad), fun hok hsame => hgives id ?_,
      fun hok _ => hgives _ (if_neg (not_not.mpr hok))⟩
    refine (if_neg (not_not.mpr hok)).trans (congrArg (done · hz.toNat) (State.setCrossover_same ?_))
    rw [State.handOver_out, hsame]
  case roles =>
    obtain ⟨channel, role, rfl⟩ | ⟨channel, trim, delay, polarity, size, rfl⟩ := hi
    · cases ht
      exact h.runHost fun u hu => hu.cmdAssignOutput channel role
    · cases ht
      exact h.runHost fun u hu => hu.cmdSetChannel channel trim delay polarity size

end Sys2Proof.Machine
end

