-- ==== Sys2Proof/Proofs/ChannelEvents.lean ====
section
/-! SUPPORT. The channels' steps of their own (R167, R176 to R181): when each occurs and what it leaves, the limiter's cases,
the end of a meter period, and the statement about them. -/

namespace Sys2Proof.Machine

open Sys2Proof

/-! ## Soft starts (R176, R177) -/

theorem Channel.held_eq_false {r : Channel} (hreconfig : r.reconfig = false) (hprotect : r.protect = false) :
    r.held = false := by
  rw [Channel.held, hreconfig, hprotect]
  rfl

/-- The fourth block of a soft start below full level, with the thermal line deasserted, raises r_ch by 1 (R176). -/
theorem Channel.rampStep_softRise {r : Channel} (hsoft : r.softStart = true) (hreconfig : r.reconfig = false)
    (hprotect : r.protect = false) (hramp : r.ramp < 0) (hcount : r.softCount = 3) :
    r.rampStep false = { r with softCount := 0, ramp := r.ramp + 1 } := by
  have hup : moveToward 0 1 r.ramp = r.ramp + 1 := by
    unfold moveToward
    rw [if_pos hramp, if_neg (by omega)]
  rw [Channel.rampStep_steps (by simp [hreconfig, hprotect]) hsoft (by simp [hramp.ne]) hcount, hup]

/-- When a soft-start count reaches 4 (R176). -/
theorem State.softCountOccurs_iff (s : State) (c : Fin 12) : s.softCountOccurs c = true ↔
    (s.chan c).softStart = true ∧ (s.chan c).held = false ∧ (s.chan c).ramp ≠ 0 ∧ (s.chan c).softCount = 3
      ∧ s.thermal.lastLine = false := by
  simp [State.softCountOccurs, and_assoc]

/-- A soft start that ends in a pair which waits for it makes the pair NORMAL (R188). -/
theorem State.endSoftStart_ends {s : State} {n : Fin 6} (h : (s.pair n).state = .softStart) :
    s.endSoftStart n
      = ((s.mapPair n fun c => { c with softStart := false, softCount := 0 }).setPair n
          { s.pair n with state := .normal, normalRun := 0 }).protectReport n := if_pos h

theorem State.endSoftStart_clears {s : State} {n : Fin 6} (h : (s.pair n).state ≠ .softStart) :
    s.endSoftStart n = s.mapPair n fun c => { c with softStart := false, softCount := 0 } := if_neg h

/-! ## The limiter (R178, R179) -/

section limit
variable {r : Channel} {v peak : Nat}

/-- A peak over the ceiling level: a fall of Lr is due, and the release count starts afresh (R178, log 17). -/
theorem Channel.limit_falls (h : v < peak) :
    r.limit (some v) peak = { r with lrDue := limiterFall peak v, release := 0 } := if_pos h

section under
variable (h : ¬ v < peak)
include h

/-- The sixteenth block without a fall raises Lr (R179). -/
theorem Channel.limit_releases (hc : r.release = 15) :
    r.limit (some v) peak = { r with release := 0, lr := if r.lr < 0 then r.lr + 1 else r.lr } :=
  (if_neg h).trans (if_pos (by omega))

theorem Channel.limit_counts (hc : r.release ≠ 15) :
    r.limit (some v) peak = { r with release := r.release + 1 } :=
  (if_neg h).trans (if_neg (by omega))

end under
end limit

/-- The ceiling level of a channel is that of its zone (R178). -/
theorem State.ceilingLevel_zone {s : State} {c : Fin 12} {z : Zone} (h : (s.chan c).zone = some z) :
    s.ceilingLevel c = some (levelAt (s.zone z).ceiling) := by
  rw [State.ceilingLevel, h]
  rfl

/-- When Lr rises (R179). -/
theorem State.limiterReleaseOccurs_iff (s : State) (c : Fin 12) : s.limiterReleaseOccurs c = true ↔
    (∃ z, (s.chan c).zone = some z ∧ (s.chan c).blockPeak ≤ levelAt (s.zone z).ceiling) ∧ (s.chan c).release = 15 := by
  unfold State.limiterReleaseOccurs
  cases hz : (s.chan c).zone with
  | none => simp [State.ceilingLevel, hz]
  | some z => simp [State.ceilingLevel_zone hz]

/-! ## The end of a meter period (R181) -/

/-- What a section that is being placed leaves, while the MIRROR window stands (R24). -/
structure BesideSection where
  windows     : Vector Window 16
  channels    : Vector Channel 12
  meterPeriod : Nat
  taken       : List BlockPart

def State.besideSection (s : State) : BesideSection where
  windows := s.windows
  channels := s.out.channels
  meterPeriod := s.out.meterPeriod
  taken := s.taken

theorem State.sectionDone_beside (s : State) (x : SnapSection) : (s.sectionDone x).besideSection = s.besideSection := by
  rw [s.sectionDone_eq]
  rfl

/-- A move of the mirror discards nothing while the MIRROR window stands (R24). -/
theorem State.mirrorMove_beside {s : State} (h : s.mirrorBase ≠ none) :
    s.mirrorMove.besideSection = s.besideSection := by
  unfold State.mirrorMove
  split
  next => rfl
  next hb => exact absurd hb h
  next =>
    split
    next => exact s.sectionDone_beside _
    next =>
      split
      next => rfl
      next => exact State.ite_has (P := fun t => t.besideSection = s.besideSection) (State.sectionDone_beside _ _) rfl

/-- The MIRROR window is read from the windows. -/
theorem State.mirrorBase_congr {s t : State} (h : t.windows = s.windows) : t.mirrorBase = s.mirrorBase := by
  simp only [State.mirrorBase, State.window, h]

theorem State.mirrorPump_beside (n : Nat) {s : State} (h : s.mirrorBase ≠ none) :
    (State.mirrorPump n s).besideSection = s.besideSection := by
  induction n generalizing s with
  | zero => rfl
  | succ n ih =>
    have hmove := State.mirrorMove_beside h
    have hwindows : s.mirrorMove.windows = s.windows := congrArg BesideSection.windows hmove
    exact (ih (by rwa [State.mirrorBase_congr hwindows])).trans hmove

/-- The end of a meter period hands the held values over and begins a meter section, while meters are on, a MIRROR window
stands and no section is being placed (R25, R181). -/
theorem State.meterPeriod_hands {s : State} (hon : s.mirror.metersOn = true) (hbase : s.mirrorBase ≠ none)
    (hjob : s.mirror.job = none) : s.meterPeriod.besideSection = s.handMeters.besideSection
      ∧ getAt s.meterPeriod.mirror.counts 0 = getAt s.mirror.counts 0 + 1 := by
  have hbegins : s.meterPeriod = s.beginSection .meters true := if_pos ⟨hon, Option.isSome_iff_ne_none.mpr hbase, hjob⟩
  rw [hbegins]
  refine ⟨?_, (s.beginSection_counts .meters .meters true).trans (if_pos rfl)⟩
  rw [s.beginSection_eq]
  exact State.mirrorPump_beside 20 hbase

/-- The end of a meter period that cannot hand over keeps the held values (R181). -/
theorem State.meterPeriod_keeps {s : State} (h : s.mirror.metersOn = false ∨ s.mirrorBase = none ∨ s.mirror.job ≠ none) :
    s.meterPeriod = s := by
  refine if_neg fun ⟨hon, hbase, hjob⟩ => ?_
  obtain h | h | h := h
  · rw [hon] at h
    exact absurd h (by decide)
  · rw [h] at hbase
    exact absurd hbase (by decide)
  · exact h hjob

/-- The hundredth block ends the meter period (R181). -/
theorem State.meterBlock_ends {s : State} (h : s.out.meterPeriod = 99) :
    s.meterBlock = ({ s with out := { s.out with meterPeriod := 0 } } : State).meterPeriod := by
  unfold State.meterBlock
  rw [h]
  rfl

/-- A meter period that ends and hands over, with its part marked as made, leaves held values at 0 (R181). -/
theorem State.meterBlock_hands {s : State} (h : s.out.meterPeriod = 99) (hon : s.mirror.metersOn = true)
    (hbase : s.mirrorBase ≠ none) (hjob : s.mirror.job = none) :
    ∃ t : State, t = { s.meterBlock with taken := .meters :: s.meterBlock.taken } ∧ t.out.meterPeriod = 0
      ∧ (∀ c, (t.chan c).heldPeak = 0 ∧ (t.chan c).heldClip = false ∧ (t.chan c).heldBlocks = 0)
      ∧ getAt t.mirror.counts 0 = getAt s.mirror.counts 0 + 1 ∧ t.taken = .meters :: s.taken := by
  let u : State := { s with out := { s.out with meterPeriod := 0 } }
  obtain ⟨hbeside, hcount⟩ := State.meterPeriod_hands (s := u) hon hbase hjob
  have hchannels : u.meterPeriod.out.channels = u.handMeters.out.channels := congrArg BesideSection.channels hbeside
  have hheld (c : Fin 12) : getAt u.meterPeriod.out.channels c
      = { s.chan c with heldPeak := 0, heldClip := false, heldBlocks := 0 } := by
    rw [hchannels]
    exact u.handMeters_spec.1 c
  refine ⟨_, rfl, ?_⟩
  rw [State.meterBlock_ends h]
  refine ⟨congrArg BesideSection.meterPeriod hbeside, fun c => ?_, hcount,
    congrArg (BlockPart.meters :: ·) (congrArg BesideSection.taken hbeside)⟩
  simp only [State.chan]
  rw [show getAt _ c = _ from hheld c]
  exact ⟨rfl, rfl, rfl⟩

/-- A meter period that ends and cannot hand over only begins afresh (R181). -/
theorem State.meterBlock_restarts {s : State} (h : s.out.meterPeriod = 99)
    (hidle : s.mirror.metersOn = false ∨ s.mirrorBase = none ∨ s.mirror.job ≠ none) :
    s.meterBlock = { s with out := { s.out with meterPeriod := 0 } } := by
  rw [State.meterBlock_ends h]
  exact State.meterPeriod_keeps hidle

section meterEvent
variable {before : State → State} {s b : State} (hb : before s = b)
include hb

/-- The event of a meter period that ends at the coming block, by what the stages before it leave (R181). -/
theorem blockEvent_meterPeriod (hopen : BlockPart.meters ∉ s.taken) (h : b.out.meterPeriod = 99) :
    blockEvent .meters before (fun t => decide (t.out.meterPeriod = 99)) State.meterBlock s
      = { b.meterBlock with taken := .meters :: b.meterBlock.taken } := by
  subst hb
  exact blockEvent_occurs _ _ _ _ _ hopen (decide_eq_true h)

theorem blockEvent_meterPeriod_none (h : b.out.meterPeriod ≠ 99) :
    blockEvent .meters before (fun t => decide (t.out.meterPeriod = 99)) State.meterBlock s = s := by
  subst hb
  exact blockEvent_none _ _ _ _ _ (.inr (decide_eq_false h))

end meterEvent

/-! ## The statement -/

/-- Settles O57: the rows by what the stages before their unit leave. -/
theorem channelEvents : Obligations.ChannelEvents := by
  refine ⟨fun s c lines => ?apply, fun s c => ?channel, fun s g c => ?group, fun s c therm hopen => ?count,
    fun s n therm => ?softEnd, fun s c lines hopen => ?release, fun s hopen => ?meters⟩
  case apply =>
    intro b
    have hrow : exec (.changeGroupApply ⟨c, lines⟩) s = execChangeGroupApply ⟨c, lines⟩ s := rfl
    refine ⟨fun hg => ?_, fun g hg => ⟨fun hs => ?_, fun hs => ?_⟩⟩
    · simp only [hrow, execChangeGroupApply, show ((s.startsMade lines.faults lines.therm).chan c).group = none from hg]
    · simp only [hrow, execChangeGroupApply, show ((s.startsMade lines.faults lines.therm).chan c).group = some g from hg]
      exact congrArg Host.Outcome.next (if_pos hs)
    · simp only [hrow, execChangeGroupApply, show ((s.startsMade lines.faults lines.therm).chan c).group = some g from hg]
      exact congrArg Host.Outcome.next (if_neg (by simpa using hs))
  case channel =>
    intro r av before after
    have hav : s.avOf (roleZone r.target.role) = av := by
      rw [s.avOf_eq] <;> rfl
    rw [s.applyChannel_eq, Channel.settledAt, hav]
    rfl
  case group =>
    intro r t
    have hchan : t.chan c = if r.group = some g then (s.applyChannel c).chan c else r := s.applyGroup_chan g c
    refine ⟨fun hg => hchan.trans (if_neg hg), fun hg => ?_⟩
    rw [hchan, if_pos hg, s.applyChannel_eq, State.chan_setChan_same]
    exact ⟨rfl, rfl, rfl, rfl, rfl, rfl⟩
  case count =>
    intro b r
    refine ⟨fun hsoft hreconfig hprotect hramp hcount hline => congrArg Host.Outcome.next ?_,
      fun hnone => congrArg Host.Outcome.next (blockEvent_none _ _ _ _ _ (.inr ?_))⟩
    · have hoccurs : b.softCountOccurs c = true :=
        (b.softCountOccurs_iff c).mpr ⟨hsoft, Channel.held_eq_false hreconfig hprotect, hramp.ne, hcount, hline⟩
      have hblock : b.rampBlock c = b.setChan c { r with softCount := 0, ramp := r.ramp + 1 } := by
        rw [State.rampBlock, hline, Channel.rampStep_softRise hsoft hreconfig hprotect hramp hcount]
      refine Eq.trans (blockEvent_occurs _ _ _ _ _ hopen hoccurs) ?_
      rw [hblock, State.setChan_taken]
    · rw [← Bool.not_eq_true]
      intro hoccurs
      obtain ⟨hsoft, -, -, hcount, hline⟩ := (b.softCountOccurs_iff c).mp hoccurs
      obtain h | h | h := hnone
      · exact absurd (hsoft.symm.trans h) (by decide)
      · exact h hcount
      · exact absurd (hline.symm.trans h) (by decide)
  case softEnd =>
    intro b both clear
    have hrow : exec (.softStartEnd ⟨n, therm⟩) s = .next (if b.softStartDone n then b.endSoftStart n else s) := rfl
    have hdone : b.softStartDone n = true ↔ both := b.softStartDone_iff n
    refine ⟨fun hboth hstate => ?_, fun hboth hstate => ?_, fun hnot => ?_⟩
    · rw [hrow, if_pos (hdone.mpr hboth), State.endSoftStart_ends hstate]
    · rw [hrow, if_pos (hdone.mpr hboth), State.endSoftStart_clears hstate]
    · rw [hrow, if_neg (mt hdone.mp hnot)]
  case release =>
    intro b r
    refine ⟨fun z hz hpeak hrelease => congrArg Host.Outcome.next ?_,
      fun hnone => congrArg Host.Outcome.next (blockEvent_none _ _ _ _ _ (.inr ?_))⟩
    · have hoccurs : b.limiterReleaseOccurs c = true :=
        (b.limiterReleaseOccurs_iff c).mpr ⟨⟨z, hz, hpeak⟩, hrelease⟩
      have hlimit : b.limitPart c = b.setChan c { r with release := 0, lr := if r.lr < 0 then r.lr + 1 else r.lr } := by
        rw [State.limitPart, State.limitBlock, State.ceilingLevel_zone hz,
          Channel.limit_releases (Nat.not_lt.mpr hpeak) hrelease]
      refine Eq.trans (blockEvent_occurs _ _ _ _ _ hopen hoccurs) ?_
      rw [hlimit, State.setChan_taken]
    · rw [← Bool.not_eq_true]
      intro hoccurs
      obtain ⟨⟨z, hz, hpeak⟩, hrelease⟩ := (b.limiterReleaseOccurs_iff c).mp hoccurs
      obtain h | h := hnone
      · exact h hrelease
      · exact absurd (h z hz) (Nat.not_lt.mpr hpeak)
  case meters =>
    intro b u
    have hb : (fun t : State => t.tapMade s.pins.faults s.pins.therm) s = b := rfl
    have hoccurs (h : b.out.meterPeriod = 99) : exec .meterPeriodEnd s
        = .next { b.meterBlock with taken := .meters :: b.meterBlock.taken } :=
      congrArg Host.Outcome.next (blockEvent_meterPeriod hb hopen h)
    refine ⟨fun h => congrArg Host.Outcome.next (blockEvent_meterPeriod_none hb h), fun h hidle => ?_,
      fun h hon hbase hjob => ?_⟩
    · rw [hoccurs h, State.meterBlock_restarts h hidle]
    · obtain ⟨t, ht, hleaves⟩ := State.meterBlock_hands h hon hbase hjob
      exact ⟨t, (hoccurs h).trans (congrArg Host.Outcome.next ht.symm), hleaves⟩

end Sys2Proof.Machine
end

