-- ==== Sys2Proof/Proofs/ChannelSound.lean ====
section
/-! SUPPORT. What the channels play (R162, R170 to R175, R178, R180, R201): each channel plays from its own record, the
gain arithmetic, the limiter's fall, the frames of an output lane, and the statement about them. -/

namespace Sys2Proof.Machine

open Sys2Proof

/-! ## A channel plays (R162, R175, R180) -/

section playing
variable (s : State) (c : Fin 12) (xs : List Sample) (st : CrossoverState)

/-- The scaled samples of the frames that leave a channel's delay stage (R170, R175). -/
def State.played (s : State) (c : Fin 12) (xs : List Sample) : List Int :=
  s.scaled c (delayFrames (s.chan c).line xs).1

/-- What a channel puts out (R175). -/
theorem State.playChannel_samples : getAt (s.playChannel c xs st).out.samples c
    = if (s.played c xs).isEmpty then zeros 48 else (s.played c xs).map saturate := by
  rw [State.playChannel]
  exact getAt_setAt_same ..

/-- What playing leaves of a channel: its delay line, its crossover, and its meters (R170, R172, R180). -/
theorem State.playChannel_chan : (s.playChannel c xs st).chan c
    = { s.chan c with line := (delayFrames (s.chan c).line xs).2, crossover := st }.meter (s.played c xs) := by
  rw [State.playChannel]
  exact getAt_setAt_same ..

section other
variable {c} {d : Fin 12} (h : d ≠ c)
include h

/-- A channel that plays leaves the others. -/
theorem State.playChannel_chan_other : (s.playChannel c xs st).chan d = s.chan d := by
  rw [State.playChannel]
  exact State.chan_setChan_other h

theorem State.playChannel_samples_other : getAt (s.playChannel c xs st).out.samples d = getAt s.out.samples d := by
  rw [State.playChannel]
  exact getAt_setAt_other _ _ _ _ h.symm

/-- A channel's gain is read from its own record, and from nothing that another channel's playing moves (R174). -/
theorem State.playChannel_gainIndex_other : (s.playChannel c xs st).gainIndex d = s.gainIndex d := by
  simp only [State.gainIndex, s.playChannel_chan_other xs st h]
  rfl

theorem State.playChannel_chanSilent_other : (s.playChannel c xs st).chanSilent d = s.chanSilent d := by
  simp only [State.chanSilent, s.playChannel_chan_other xs st h]
  rfl

/-- A channel scales its samples alike, whatever another channel has played (R175). -/
theorem State.playChannel_played_other (ys : List Sample) :
    (s.playChannel c xs st).played d ys = s.played d ys := by
  simp only [State.played, State.scaled, s.playChannel_chan_other xs st h, s.playChannel_gainIndex_other xs st h,
    s.playChannel_chanSilent_other xs st h]

end other
end playing

/-- What a block shows of a channel: the samples it puts out, and its record. -/
def State.channelView (s : State) (c : Fin 12) : List Sample × Channel := (getAt s.out.samples c, s.chan c)

/-- A channel plays alike, whatever another channel has played. -/
theorem State.playChannel_view_other {s : State} {c d : Fin 12} {xs ys : List Sample} {st tt : CrossoverState} (h : d ≠ c) :
    ((s.playChannel c xs st).playChannel d ys tt).channelView d = (s.playChannel d ys tt).channelView d := by
  simp only [State.channelView, State.playChannel_samples, State.playChannel_chan, s.playChannel_played_other xs st h,
    s.playChannel_chan_other xs st h]

/-- The signal that enters a channel's delay stage: the subwoofer feed for an SW channel, and else the high band of its
destination signal (R162, R172). -/
def State.entry (s : State) (c : Fin 12) : List Sample :=
  if (s.chan c).applied.role = .sw then s.subFeed ((List.finRange 12).map s.bands) else (s.bands c).high

/-- The output stage of a block plays each channel once, from the signals of the block (R162). -/
theorem State.soundBlock_eq (s : State) : s.soundBlock
    = forEach (fun c t => t.playChannel c (s.entry c) (s.bands c).state) (List.finRange 12) s := by
  have hband (c : Fin 12) (x : Split) : ((List.finRange 12).map s.bands).getD c.val x = s.bands c := by
    simp [List.getD_eq_getElem?_getD]
  simp only [State.soundBlock, hband]
  rfl

/-- After the output stage a channel stands as its own playing leaves it (R162). -/
theorem State.soundBlock_view (s : State) (c : Fin 12) :
    s.soundBlock.channelView c = (s.playChannel c (s.entry c) (s.bands c).state).channelView c := by
  have hrun := forEach_own (f := fun c t => State.playChannel t c (s.entry c) (s.bands c).state)
    (view := fun c t => t.channelView c)
    (fun x d t h => by
      simp only [State.channelView, t.playChannel_chan_other _ _ h, t.playChannel_samples_other _ _ h])
    (fun _ _ _ => State.playChannel_view_other) (List.nodup_finRange 12) c s
  rw [if_pos (List.mem_finRange c)] at hrun
  rw [s.soundBlock_eq]
  exact hrun

/-- When a channel is split (R172, R173). -/
theorem State.isSplit_iff (s : State) (c : Fin 12) : s.isSplit c = true ↔
    Role.sw ∈ s.mixer.layout ∧ (s.chan c).zone = some .main ∧ (s.chan c).applied.size = .small
      ∧ (s.chan c).applied.role ≠ .sw := by
  simp [State.isSplit, and_assoc]

/-! ## The gain (R174, R175) -/

/-- The input trim is that of the entry which the zone's path is bound to (R174). -/
theorem State.inputTrim_eq (s : State) (z : Zone) : s.inputTrim z = match (s.zone z).attached with
    | none => 0
    | some p => match (s.path p).binding with
      | none => 0
      | some e => (s.source e).trim := by
  unfold State.inputTrim
  cases (s.zone z).attached with
  | none => rfl
  | some p =>
    simp only [State.pathSource]
    cases (s.path p).binding <;> rfl

/-- The gain index of a channel without a zone (R174). -/
theorem State.gainIndex_none {s : State} {c : Fin 12} (h : (s.chan c).zone = none) : s.gainIndex c = -240 := by
  simp only [State.gainIndex, h]

/-- The gain index adds the levels of the zone, the source, the channel and the protection (R174). -/
theorem State.gainIndex_zone {s : State} {c : Fin 12} {z : Zone} (h : (s.chan c).zone = some z) :
    s.gainIndex c = max (-240) (min 24
      ((s.zone z).masterCurrent + (s.chan c).trim + s.inputTrim z + (s.zone z).ramp + (s.chan c).ramp + (s.chan c).lr
        + s.thermal.t)) := by
  simp only [State.gainIndex, h]
  exact clampInt_eq _ _ _ (by decide)

/-- The mantissas in R175's order. -/
theorem mantissa_eq {k : Nat} (h : k ≤ 11) :
    mantissa k = ([8388608, 7917792, 7473400, 7053950, 6658043, 6284355, 5931642, 5598724, 5284492, 4987896, 4707947,
      4443710] : List Int).getD k 0 := by
  interval_cases k <;> rfl

/-- The gain arithmetic by the quotient and the mantissa's number of an index (R175). -/
theorem gainScale_eq {n q : Int} {k : Nat} (hk : k ≤ 11) (hn : n = 12 * q - k) (x : Int) :
    gainScale n x = (x * mantissa k + 2 ^ ((23 - q).toNat - 1)) / 2 ^ (23 - q).toNat := by
  have hq : gainQ n = q := by unfold gainQ; omega
  have hgk : gainK n = k := by rw [gainK, hq]; omega
  rw [gainScale, gainSh, hgk, hq, asr]

/-- A larger sample scales to a larger one (R175). -/
theorem gainScale_mono (n : Int) {x y : Int} (h : x ≤ y) : gainScale n x ≤ gainScale n y := by
  have hpos : 0 ≤ mantissa (gainK n) := by
    unfold mantissa
    split <;> decide
  unfold gainScale asr
  exact Int.ediv_le_ediv (by positivity) (by gcongr)

/-! ## The limiter's fall (R178) -/

/-- The ceiling levels are at least a quarter of full scale (R178). -/
theorem quarter_le_level {d : Nat} (h : d ≤ 24) : 2097152 ≤ gainScale (-(d : Int)) 8388607 := by
  interval_cases d <;> decide

theorem levelAt_eq {d : Nat} (h : d ≤ 24) : (levelAt d : Int) = gainScale (-(d : Int)) 8388607 :=
  Int.toNat_of_nonneg (le_trans (by decide) (quarter_le_level h))

/-- A fall by 48 steps brings the greatest peak to or below any ceiling level (R178). -/
theorem gainScale_fall_le_level {d peak : Nat} (hd : d ≤ 24) (hp : peak ≤ 33554432) :
    gainScale (-48) peak ≤ levelAt d := by
  calc gainScale (-48) peak ≤ gainScale (-48) 33554432 := gainScale_mono _ (by exact_mod_cast hp)
    _ = 2097152 := by decide
    _ ≤ gainScale (-(d : Int)) 8388607 := quarter_le_level hd
    _ = levelAt d := (levelAt_eq hd).symm

/-- The fall is the least of 1 or more that brings the peak to the level, when one of the 64 does (R178). -/
theorem limiterFall_spec {peak level n : Nat} (h1 : 1 ≤ n) (h64 : n ≤ 64)
    (hn : gainScale (-(n : Int)) peak ≤ level) :
    1 ≤ limiterFall peak level ∧ gainScale (-(limiterFall peak level : Int)) peak ≤ level
      ∧ ∀ m : Nat, 1 ≤ m → m < limiterFall peak level → (level : Int) < gainScale (-(m : Int)) peak := by
  unfold limiterFall
  cases hf : ((List.range 64).map (fun d : Nat => d + 1)).find? fun d : Nat =>
      decide (gainScale (-(d : Int)) peak ≤ level) with
  | none =>
    have hmem : n ∈ (List.range 64).map (fun d : Nat => d + 1) :=
      List.mem_map.mpr ⟨n - 1, List.mem_range.mpr (by omega), by omega⟩
    exact absurd (decide_eq_true hn) (List.find?_eq_none.mp hf n hmem)
  | some b =>
    obtain ⟨hb, i, hi, hib, hless⟩ := List.find?_eq_some_iff_getElem.mp hf
    simp only [List.getElem_map, List.getElem_range, Bool.not_eq_true', decide_eq_false_iff_not, not_le] at hib hless
    rw [Option.getD_some]
    refine ⟨by omega, of_decide_eq_true hb, fun m h1m hm => ?_⟩
    have hbefore := hless (m - 1) (by omega)
    rwa [Nat.sub_add_cancel h1m] at hbefore

/-! ## The block peak and the lanes (R175, R163, R201) -/

/-- The block peak bounds the samples, and one of them reaches it unless all are 0 (R175). -/
theorem peakOf_spec (ys : List Int) :
    (∀ y ∈ ys, y.natAbs ≤ peakOf ys) ∧ (peakOf ys = 0 ∨ ∃ y ∈ ys, peakOf ys = y.natAbs) := by
  induction ys with
  | nil => exact ⟨fun _ h => absurd h List.not_mem_nil, .inl rfl⟩
  | cons x ys ih =>
    obtain ⟨hbound, hreached⟩ := ih
    refine ⟨fun y hy => ?_, ?_⟩
    · obtain rfl | hy := List.mem_cons.mp hy
      · exact Nat.le_max_left ..
      · exact (hbound y hy).trans (Nat.le_max_right ..)
    · obtain hle | hle := Nat.le_total (peakOf ys) x.natAbs
      · exact .inr ⟨x, List.mem_cons_self, Nat.max_eq_left hle⟩
      · have hmax : peakOf (x :: ys) = peakOf ys := Nat.max_eq_right hle
        rw [hmax]
        exact hreached.imp_right fun ⟨y, hy, he⟩ => ⟨y, List.mem_cons_of_mem x hy, he⟩

/-- A sample of 24 bits stands sign-extended in 32 (R201). -/
theorem toInt_ofInt_sample {a : Int} (hl : -8388608 ≤ a) (hh : a ≤ 8388607) : (BitVec.ofInt 32 a).toInt = a :=
  BitVec.toInt_ofInt_eq_self (by decide) (by norm_num; omega) (by norm_num; omega)

/-- The two halves of a lane's frame (R163, R201). -/
theorem laneWord_halves (a b : Sample) :
    (laneWord a b).extractLsb' 32 32 = BitVec.ofInt 32 a ∧ (laneWord a b).extractLsb' 0 32 = BitVec.ofInt 32 b :=
  ⟨BitVec.extractLsb'_append_eq_left, BitVec.extractLsb'_append_eq_right⟩

/-! ## The statement -/

/-- Settles O54: the signals that enter, the gain, what a channel plays, and the limiter, each by its own lemma. -/
theorem channelSound : Obligations.ChannelSound := by
  refine ⟨fun s c => ?block, fun s c => ?signals, fun s splits => ?feed, fun s c => ?index, fun n q k x _ _ hk hn => ?scale,
    fun s c xs st => ?plays, peakOf_spec, fun d peak hd hp => ?fall, fun s c => ?limits, fun r => ⟨?notDue, ?due⟩,
    fun a b hal hah hbl hbh => ?word, fun o n j a b ha hb => ?lane⟩
  case block =>
    obtain ⟨hsamples, hchan⟩ := Prod.mk.inj (s.soundBlock_view c)
    exact ⟨hsamples, hchan⟩
  case signals =>
    intro r split
    have hdest : s.destination c = match r.applied.role with
      | .unused | .none | .lfe | .sw => zeros 48
      | .z2l => (s.zoneDownmix .zone2).map Prod.fst
      | .z2r => (s.zoneDownmix .zone2).map Prod.snd
      | .fl | .fr | .c | .sl | .sr | .bl | .br | .tfl | .tfr | .tbl | .tbr =>
        s.mainRoles.map fun f => foldFrame s.mixer.layout f r.applied.role := rfl
    refine ⟨fun hnot => if_neg (mt (s.isSplit_iff c).mp hnot), fun hr => ?_, fun hr => ?_, fun hr => ?_, fun hr => ?_⟩
    · rw [hdest, hr]
    · rw [hdest, hr]
    · rw [hdest, hr]
      rfl
    · rw [hdest]
      generalize r.applied.role = role at hr ⊢
      cases role with
      | unused | none | lfe | sw | z2l | z2r => exact absurd hr (by decide)
      | _ => rfl
  case feed =>
    refine List.map_congr_left fun j _ => ?_
    rw [plus20, asr_eq_div (m := 2097152) (by norm_num)]
    rfl
  case index =>
    intro r
    refine ⟨State.gainIndex_none, fun z trim hz htrim => ?_, s.chanSilent_iff c⟩
    rw [State.gainIndex_zone hz, htrim, s.inputTrim_eq] <;> rfl
  case scale =>
    intro table
    rw [gainScale_eq hk hn, mantissa_eq hk]
  case plays =>
    intro r n all scaled ys t
    have hgain : gainSample n r.applied.polarity = scaled := by
      funext x
      simp only [scaled]
      cases r.applied.polarity <;> rfl
    have hys : s.played c xs = ys := by
      rw [State.played, State.scaled, hgain]
      rfl
    refine ⟨?_, ?_, fun d hd => ⟨s.playChannel_chan_other xs st hd, s.playChannel_samples_other xs st hd⟩⟩
    · rw [s.playChannel_samples, hys]
      simp only [List.isEmpty_iff]
      rfl
    · rw [s.playChannel_chan, hys]
      rfl
  case fall =>
    intro level
    exact ⟨levelAt_eq hd, fun _ =>
      limiterFall_spec (n := 48) (by decide) (by decide) (gainScale_fall_le_level hd hp)⟩
  case limits =>
    intro r
    refine ⟨fun hz => ?_, fun z hz => ?_⟩
    · rw [State.limitPart, State.limitBlock, State.ceilingLevel, hz]
      exact congrArg (s.withChannels ·) (setAt_getAt s.out.channels c)
    · intro level
      have hpart : s.limitPart c = s.setChan c (r.limit (some level) r.blockPeak) := by
        rw [State.limitPart, State.limitBlock, State.ceilingLevel_zone hz]
      rw [hpart]
      exact ⟨fun hover => by rw [Channel.limit_falls hover],
        fun hunder hrelease => by rw [Channel.limit_releases (Nat.not_lt.mpr hunder) hrelease],
        fun hunder hrelease => by rw [Channel.limit_counts (Nat.not_lt.mpr hunder) hrelease]⟩
  case notDue => exact fun h => if_pos h
  case due => exact fun h => if_neg h
  case word =>
    obtain ⟨heven, hodd⟩ := laneWord_halves a b
    rw [heven, hodd]
    exact ⟨toInt_ofInt_sample hal hah, toInt_ofInt_sample hbl hbh⟩
  case lane =>
    rw [OutputUnit.laneFrames, List.getElem?_zipWith, ha, hb]

end Sys2Proof.Machine
end

