-- ==== Sys2Proof/Proofs/BlockBeside.lean ====
section
/-! SUPPORT. What only a few parts of an output block write: the counters, the thermal record, the lines, the meter period
count, the samples and the marks of the parts. Each unit's own steps leave all of it. -/

namespace Sys2Proof.Machine

open Sys2Proof

/-- What the units' own steps leave: the block and free-value counters, the thermal record, the lines, the meter period
count, the samples put out and the marks of the parts (log 2). -/
structure Beside where
  block       : BitVec 32
  freeIdx     : Nat
  thermal     : Thermal
  pins        : Pins
  meterPeriod : Nat
  samples     : Vector (List Sample) 12
  taken       : List BlockPart

/-- What the units' own steps leave, of a state. -/
def State.beside (s : State) : Beside where
  block := s.block
  freeIdx := s.freeIdx
  thermal := s.thermal
  pins := s.pins
  meterPeriod := s.out.meterPeriod
  samples := s.out.samples
  taken := s.taken

/-- A state that stands beside the units' steps as given. -/
def State.HasBeside (k : Beside) (s : State) : Prop := s.beside = k

section beside
variable {s : State} {k : Beside}

namespace State.HasBeside

/-! ### The shared operations -/

theorem forEach {α : Type} {f : α → State → State} (hf : ∀ x t, t.HasBeside k → (f x t).HasBeside k) {xs : List α}
    (h : s.HasBeside k) : (forEach f xs s).HasBeside k :=
  forEach_has hf h

theorem setZone {z : Zone} {r : ZoneRec} (h : s.HasBeside k) : (s.setZone z r).HasBeside k := by
  cases z with
  | main => exact h
  | zone2 => exact h

theorem setPath {p : PathId} {r : PathRec} (h : s.HasBeside k) : (s.setPath p r).HasBeside k := by
  cases p with
  | p0 => exact h
  | p1 => exact h

/-- A report enters the queues only (R19, R21). -/
theorem raise {kind : ReportKind} {i : Nat} {payload : List Byte} (h : s.HasBeside k) :
    (s.raise kind i payload).HasBeside k := by
  rw [State.raise_eq]
  exact h

theorem raiseDone {tag : Option Nat} {payload : List Byte} (h : s.HasBeside k) :
    (s.raiseDone tag payload).HasBeside k := by
  rw [State.raiseDone_eq]
  exact h

theorem setLane {l : Fin 4} {r : LaneRec} (h : s.HasBeside k) : (s.setLane l r).HasBeside k := h

theorem setGroup {e : Fin 12} {g : Option GroupRec} (h : s.HasBeside k) : (s.setGroup e g).HasBeside k := h

theorem setRing {w : Fin 16} {r : Option Ring} (h : s.HasBeside k) : (s.setRing w r).HasBeside k := h

theorem withTuner {t : Tuner} (h : s.HasBeside k) : ({ s with tuner := t } : State).HasBeside k := h

theorem withOwner {o : Option Zone} (h : s.HasBeside k) : ({ s with owner := o } : State).HasBeside k := h

theorem withBindFirst {p : PathId} (h : s.HasBeside k) : ({ s with bindFirst := p } : State).HasBeside k := h

theorem setPair {n : Fin 6} {r : Pair} (h : s.HasBeside k) : (s.setPair n r).HasBeside k := h

theorem setChan {c : Fin 12} {r : Channel} (h : s.HasBeside k) : (s.setChan c r).HasBeside k := h

theorem mapPair {n : Fin 6} {f : Channel → Channel} (h : s.HasBeside k) : (s.mapPair n f).HasBeside k :=
  h.forEach fun _ _ => setChan

theorem enqueue {i : Injected} (h : s.HasBeside k) : (s.enqueue i).HasBeside k := h

theorem withTap {t : Tap} (h : s.HasBeside k) : ({ s with tap := t } : State).HasBeside k := h

theorem withMirror {m : Mirror} (h : s.HasBeside k) : ({ s with mirror := m } : State).HasBeside k := h

/-! ### Lanes (R56, R62) -/

theorem mapLanes {ls : List (Fin 4)} {f : LaneRec → LaneRec} (h : s.HasBeside k) : (s.mapLanes ls f).HasBeside k :=
  h.forEach fun _ _ => setLane

theorem laneReports {ls : List (Fin 4)} {cause : LaneCause} (h : s.HasBeside k) :
    (s.laneReports ls cause).HasBeside k :=
  h.forEach fun _ _ => raise

theorem groupReform {e : Fin 12} (h : s.HasBeside k) : (s.groupReform e).HasBeside k := setGroup h.mapLanes

theorem leaveMeasuring {l : Fin 4} (h : s.HasBeside k) : (s.leaveMeasuring l).HasBeside k := by
  unfold State.leaveMeasuring
  split
  · exact State.ite_has h.groupReform h
  · exact h

theorem dropGroup {l : Fin 4} {f : LaneRec → LaneRec} {cause : LaneCause} (h : s.HasBeside k) :
    (s.dropGroup l f cause).HasBeside k := by
  unfold State.dropGroup
  split
  · exact h
  · exact laneReports (groupReform (setLane h.mapLanes))

theorem laneLost {l : Fin 4} (h : s.HasBeside k) : (s.laneLost l).HasBeside k := by
  unfold State.laneLost
  split
  · exact raise h.setLane
  · exact raise h.setLane
  · exact raise h.leaveMeasuring.setLane
  · exact h.dropGroup
  all_goals exact h

/-- A lane's part of a block. -/
theorem laneBlock {l : Fin 4} (h : s.HasBeside k) : (s.laneBlock l).HasBeside k :=
  State.ite_has h.setLane (State.ite_has h (State.ite_has (laneLost h.setLane) h.setLane))

/-! ### Paths (R91 to R106) -/

theorem adoptFormat {p : PathId} (h : s.HasBeside k) : (s.adoptFormat p).HasBeside k := by
  unfold State.adoptFormat
  split
  · exact h
  · exact raise (State.ite_has (P := HasBeside k) h.setPath h.setPath)

theorem handFormat {p : PathId} {f : Format} (h : s.HasBeside k) : (s.handFormat p f).HasBeside k :=
  State.ite_has h.setPath (State.ite_has (adoptFormat h.setPath) h.setPath)

theorem pushFrame {p : PathId} {f : Frame} (h : s.HasBeside k) : (s.pushFrame p f).HasBeside k :=
  State.ite_has h (State.ite_has (State.ite_has h (raise (setPath h.setPath))) h.setPath)

theorem consumeBlock {p : PathId} (h : s.HasBeside k) : (s.consumeBlock p).HasBeside k :=
  State.ite_has h.setPath (State.ite_has (adoptFormat h.setPath)
    (State.ite_has (setPath h.setPath) (raise (setPath h.setPath))))

theorem holdBlock {p : PathId} (h : s.HasBeside k) : (s.holdBlock p).HasBeside k :=
  State.ite_has h.setPath h.consumeBlock

theorem acquireBlock {p : PathId} (h : s.HasBeside k) : (s.acquireBlock p).HasBeside k :=
  have hran := consumeBlock h.setPath
  State.ite_has (State.ite_has (raise hran.setPath) hran.setPath) hran

theorem trackBlock {p : PathId} (h : s.HasBeside k) : (s.trackBlock p).HasBeside k :=
  consumeBlock (State.ite_has (raise h.setPath) h.setPath)

theorem trackerBlock {p : PathId} (h : s.HasBeside k) : (s.trackerBlock p).HasBeside k := by
  unfold State.trackerBlock
  dsimp only
  split
  · exact h.setPath
  · exact State.ite_has h.setPath (State.ite_has (consumeBlock h.setPath) (acquireBlock h.setPath))
  · exact State.ite_has h.setPath h.holdBlock
  · exact State.ite_has h.acquireBlock (holdBlock h.setPath)
  · exact State.ite_has h.trackBlock (holdBlock h.setPath)
  · exact State.ite_has h.consumeBlock (holdBlock h.setPath)

theorem countHandover {p : PathId} (h : s.HasBeside k) : (s.countHandover p).HasBeside k := by
  unfold State.countHandover
  split
  · exact h
  · split
    · exact h
    · exact h.setRing

/-- A path's part of a block. -/
theorem pathBlock {p : PathId} (h : s.HasBeside k) : (s.pathBlock p).HasBeside k := by
  unfold State.pathBlock
  split
  · exact h.setPath
  · exact State.ite_has (setPath (adoptFormat h.countHandover.setPath)) (trackerBlock h.countHandover.setPath)

/-! ### The tuner (R127 to R151) -/

theorem endOp {res : CmdResult} {flags : Byte} {level : Nat} (h : s.HasBeside k) :
    (s.endOp res flags level).HasBeside k := by
  unfold State.endOp
  split
  · exact h
  · exact raiseDone h.withTuner

theorem feFault (h : s.HasBeside k) : s.feFault.HasBeside k := raise (withTuner h.endOp)

theorem tunerIdle (h : s.HasBeside k) : s.tunerIdle.HasBeside k := raise (withTuner h.endOp)

theorem endTune {u : Bool} (h : s.HasBeside k) : (s.endTune u).HasBeside k := raise (endOp h.withTuner)

theorem nextPoint (h : s.HasBeside k) : s.nextPoint.HasBeside k := by
  unfold State.nextPoint
  dsimp only
  split
  · exact h
  · exact State.ite_has (State.ite_has h.withTuner h.withTuner) (State.ite_has h.withTuner h.withTuner)

theorem countTested (h : s.HasBeside k) : s.countTested.HasBeside k := by
  unfold State.countTested
  split
  · exact h
  · exact State.ite_has h (State.ite_has (raise h.withTuner) h.withTuner)

theorem takeCandidate {d : Dwell} (h : s.HasBeside k) : (s.takeCandidate d).HasBeside k := by
  unfold State.takeCandidate
  split
  · exact h
  · exact h

theorem endDwell {d : Dwell} (h : s.HasBeside k) : (s.endDwell d).HasBeside k := by
  unfold State.endDwell
  dsimp only
  split
  · exact h
  · exact State.ite_has (countTested (withTuner (State.ite_has h.takeCandidate h)))
      (State.ite_has (raise (endOp h.withTuner)) h.withTuner)

theorem unsettled (h : s.HasBeside k) : s.unsettled.HasBeside k := State.ite_has h.endTune h.countTested.nextPoint

theorem ackBlock (h : s.HasBeside k) : s.ackBlock.HasBeside k := by
  unfold State.ackBlock
  split
  · exact h
  · exact State.ite_has h.withTuner (State.ite_has h.feFault h.withTuner)

theorem silenceBlock (h : s.HasBeside k) : s.silenceBlock.HasBeside k :=
  State.ite_has h.withTuner (State.ite_has h.withTuner (State.ite_has (feFault h.withTuner) h.withTuner))

theorem blendBlock (h : s.HasBeside k) : s.blendBlock.HasBeside k :=
  State.ite_has h.withTuner (State.ite_has h.withTuner h.withTuner)

theorem deliverFrames (h : s.HasBeside k) : s.deliverFrames.HasBeside k := by
  unfold State.deliverFrames
  refine State.ite_has h ?_
  split
  · exact h
  · exact h.forEach fun _ _ => pushFrame

theorem phaseBlock (h : s.HasBeside k) : s.phaseBlock.HasBeside k := by
  unfold State.phaseBlock
  dsimp only
  split
  · exact h
  · exact h
  · exact State.ite_has (unsettled h.withTuner) h.withTuner
  · exact State.ite_has (endDwell h.withTuner) h.withTuner
  · exact h.nextPoint

/-- The tuner's part of a block. -/
theorem tunerBlock (h : s.HasBeside k) : s.tunerBlock.HasBeside k :=
  have hchecked : (if tunerActive s.tuner.state then s.ampBlock else s).HasBeside k := State.ite_has h.withTuner h
  withTuner hchecked.blendBlock.deliverFrames.ackBlock.silenceBlock.phaseBlock

/-! ### Zones (R71 to R73, R76 to R87) -/

theorem setOwner {z : Zone} (h : s.HasBeside k) : (s.setOwner z).HasBeside k := raise h.withOwner

theorem feedIfNamed {w : Fin 16} (h : s.HasBeside k) : (s.feedIfNamed w).HasBeside k := by
  cases hr : s.ring w with
  | none =>
    obtain ⟨-, hfeed⟩ := s.flushWindow_none w hr
    rwa [hfeed]
  | some r =>
    obtain ⟨q, hfeed, -⟩ := s.feedIfNamed_eq w r hr
    rw [hfeed]
    exact h

theorem flushWindow {w : Fin 16} (h : s.HasBeside k) : (s.flushWindow w).HasBeside k := by
  cases hr : s.ring w with
  | none =>
    obtain ⟨hflush, -⟩ := s.flushWindow_none w hr
    rwa [hflush]
  | some r =>
    rw [s.flushWindow_spec w r hr]
    exact feedIfNamed h

theorem tellBound {p : PathId} {e : Fin 12} (h : s.HasBeside k) : (s.tellBound p e).HasBeside k := by
  unfold State.tellBound
  split
  · exact h
  · split
    · exact h.handFormat
    · exact h
  · split
    · exact h
    · exact h.feedIfNamed
  · exact withTuner h.handFormat

theorem joinPath {z : Zone} {p : PathId} (h : s.HasBeside k) : (s.joinPath z p).HasBeside k :=
  State.ite_has (P := HasBeside k) h.setZone h.setZone

theorem bindPath {p : PathId} {e : Fin 12} (h : s.HasBeside k) : (s.bindPath p e).HasBeside k :=
  tellBound (setPath h.withBindFirst)

theorem attach {z : Zone} {e : Fin 12} (h : s.HasBeside k) : (s.attach z e).HasBeside k := by
  unfold State.attach
  dsimp only
  split
  · exact State.ite_has h.joinPath.setOwner h.joinPath
  · exact State.ite_has h.joinPath.bindPath.setOwner h.joinPath.bindPath

theorem releasePath {p : PathId} (h : s.HasBeside k) : (s.releasePath p).HasBeside k := by
  have hfree : ({ s with bindFirst := p.other }.setPath p PathRec.free).HasBeside k := setPath h.withBindFirst
  unfold State.releasePath
  dsimp only
  split
  · exact hfree
  · exact hfree
  · split
    · exact hfree
    · exact hfree.flushWindow
  · exact tunerIdle hfree.withOwner

theorem detach {z : Zone} (h : s.HasBeside k) : (s.detach z).HasBeside k := by
  unfold State.detach
  split
  · exact h
  · exact State.ite_has (State.ite_has (setOwner h.setZone) h.setZone) (releasePath h.setZone)

theorem completeSwitch {z : Zone} (h : s.HasBeside k) : (s.completeSwitch z).HasBeside k :=
  raiseDone (raise (setZone h.setZone))

theorem startFadeIn {z : Zone} (h : s.HasBeside k) : (s.startFadeIn z).HasBeside k :=
  State.ite_has (completeSwitch h.setZone) h.setZone

theorem startWait {z : Zone} (h : s.HasBeside k) : (s.startWait z).HasBeside k :=
  State.ite_has (startFadeIn h.setZone) h.setZone

theorem endFadeOut {z : Zone} (h : s.HasBeside k) : (s.endFadeOut z).HasBeside k := by
  unfold State.endFadeOut
  split
  · exact h
  · exact startWait (State.ite_has h h.detach.attach)

theorem abortSwitch {z : Zone} (h : s.HasBeside k) : (s.abortSwitch z).HasBeside k :=
  setZone (State.ite_has h h.raiseDone)

theorem standbyIfSilent {z : Zone} (h : s.HasBeside k) : (s.standbyIfSilent z).HasBeside k :=
  State.ite_has (raise h.detach.setZone) h

theorem switchBlock {z : Zone} (h : s.HasBeside k) : (s.switchBlock z).HasBeside k := by
  unfold State.switchBlock
  dsimp only
  split
  · exact h
  · exact State.ite_has h.endFadeOut h
  · exact State.ite_has h.startFadeIn (State.ite_has (raise h.setZone) h.setZone)
  · exact State.ite_has h.completeSwitch h

theorem sleepBlock {z : Zone} (h : s.HasBeside k) : (s.sleepBlock z).HasBeside k :=
  State.ite_has h (State.ite_has h.setZone (State.ite_has h.setZone
    (standbyIfSilent (raise (raise h.abortSwitch.setZone)))))

/-- A zone's part of a block. -/
theorem zoneBlock {z : Zone} (h : s.HasBeside k) : (s.zoneBlock z).HasBeside k :=
  h.setZone.switchBlock.standbyIfSilent.sleepBlock

/-! ### The pairs (R184 to R190) -/

theorem enterProtect {n : Fin 6} {line : Bool} (h : s.HasBeside k) : (s.enterProtect n line).HasBeside k :=
  raise (mapPair h.setPair)

theorem recoverExpiry {n : Fin 6} (h : s.HasBeside k) : (s.recoverExpiry n).HasBeside k :=
  State.ite_has (mapPair h.setPair) (raise h.setPair)

theorem pairBlock {n : Fin 6} {line : Bool} (h : s.HasBeside k) : (s.pairBlock n line).HasBeside k := by
  unfold State.pairBlock
  dsimp only
  split
  · exact State.ite_has (enterProtect h.setPair) h.setPair
  · exact State.ite_has (enterProtect h.setPair) h.setPair
  · exact State.ite_has h.setPair h.setPair
  · exact State.ite_has h.setPair (State.ite_has (recoverExpiry h.setPair) h.setPair)
  · exact h.setPair

/-- The end of a pair's soft start at a block (R177, R188). -/
theorem softStartBlock {n : Fin 6} (h : s.HasBeside k) : (s.softStartBlock n).HasBeside k :=
  State.ite_has (State.ite_has (raise (setPair h.mapPair)) h.mapPair) h

/-! ### The change groups (R166, R167) -/

theorem applyGroup {g : Fin 12} (h : s.HasBeside k) : (s.applyGroup g).HasBeside k := by
  rw [State.applyGroup_eq]
  exact h

/-- A change group at a block. -/
theorem groupBlock {g : Fin 12} (h : s.HasBeside k) : (s.groupBlock g).HasBeside k :=
  State.ite_has h (State.ite_has h.applyGroup (h.forEach fun _ _ h => State.ite_has h h.setChan))

/-! ### The tap (R44) -/

theorem placeTapItem {it : TapItem} (h : s.HasBeside k) : (s.placeTapItem it).HasBeside k := by
  unfold State.placeTapItem
  split
  · exact h
  · split
    · exact h.enqueue
    · exact withTap h.enqueue

theorem tapMove (h : s.HasBeside k) : s.tapMove.1.HasBeside k := by
  unfold State.tapMove
  split
  · split_ifs
    · exact h
    · exact placeTapItem h.withTap
  · split
    · dsimp only
      split_ifs
      · exact h
      · exact withTap h.placeTapItem
      · exact h.withTap
    · exact h

theorem tapPump {n : Nat} (h : s.HasBeside k) : (State.tapPump n s).HasBeside k := by
  induction n generalizing s with
  | zero => exact h
  | succ n ih => exact State.ite_has (ih h.tapMove) h

theorem tapPart (h : s.HasBeside k) : s.tapPart.HasBeside k := by
  unfold State.tapPart State.tapBlock
  split
  · exact h
  · split
    · exact h
    · exact State.ite_has h.withTap (State.ite_has (tapPump h.withTap) (withTap h.tapPump))

/-! ### The sections (R24, R25) -/

theorem dropSection (h : s.HasBeside k) : s.dropSection.HasBeside k := by
  unfold State.dropSection
  split
  · exact h
  · refine State.ite_has ?_ h.withMirror
    unfold State.mergeSent
    split
    · exact h.withMirror
    · exact h

theorem sectionDone {x : SnapSection} (h : s.HasBeside k) : (s.sectionDone x).HasBeside k :=
  State.ite_has (P := HasBeside k) h h.withMirror

theorem mirrorMove (h : s.HasBeside k) : s.mirrorMove.HasBeside k := by
  unfold State.mirrorMove
  split
  · exact h
  · exact h.dropSection
  · split
    · exact h.sectionDone
    · exact State.ite_has h (State.ite_has (sectionDone (enqueue h.withMirror)) (enqueue h.withMirror))

theorem mirrorPump {n : Nat} (h : s.HasBeside k) : (State.mirrorPump n s).HasBeside k := by
  induction n generalizing s with
  | zero => exact h
  | succ n ih => exact ih h.mirrorMove

theorem beginSection {x : SnapSection} {periodic : Bool} (h : s.HasBeside k) :
    (s.beginSection x periodic).HasBeside k :=
  mirrorPump (withMirror (State.ite_has (P := HasBeside k) h h))

end State.HasBeside

end beside

end Sys2Proof.Machine
end

