-- ==== Sys2Proof/Proofs/OutputBlock.lean ====
section
/-! SUPPORT. An output block from its beginning to its end (R162, R184): what stands from part to part, what the thermal
record's part, the playing and the meter period count write of it, the range of the samples, and the statement. -/

namespace Sys2Proof.Machine

open Sys2Proof

/-! ## What stands from part to part -/

/-- A state within a block stands beside the units' steps as given, and the parts of a list are not made yet (log 2). -/
structure State.Carries (k : Beside) (waits : List BlockPart) (s : State) : Prop where
  stands : s.beside = { k with taken := s.taken }
  waiting : ∀ j ∈ waits, j ∉ s.taken

namespace State.Carries

section parts
variable {s : State} {k : Beside} {waits : List BlockPart} {b : BlockPart} {f : State → State}

theorem weaken {w : List BlockPart} (h : s.Carries k waits) (hw : w ⊆ waits) : s.Carries k w :=
  ⟨h.stands, fun j hj => h.waiting j (hw hj)⟩

/-- The fields of what stands, of a state. -/
theorem fields (h : s.Carries k waits) : s.freeIdx = k.freeIdx ∧ s.thermal = k.thermal ∧ s.pins = k.pins
    ∧ s.out.meterPeriod = k.meterPeriod :=
  ⟨congrArg Beside.freeIdx h.stands, congrArg Beside.thermal h.stands, congrArg Beside.pins h.stands,
    congrArg Beside.meterPeriod h.stands⟩

/-- A step of the units keeps what stands. -/
theorem keeps (h : s.Carries k waits) (hf : (f s).beside = s.beside) : (f s).Carries k waits := by
  have htaken : (f s).taken = s.taken := congrArg Beside.taken hf
  exact ⟨by rw [hf, htaken]; exact h.stands, fun j hj => htaken ▸ h.waiting j hj⟩

/-- A part that is made is marked, and so waits no longer (log 2). -/
theorem marked (h : s.Carries k waits) (hb : b ∉ waits) :
    ({ s with taken := b :: s.taken } : State).Carries k waits := by
  refine ⟨congrArg (fun x : Beside => { x with taken := b :: s.taken }) h.stands, fun j hj hm => ?_⟩
  obtain rfl | hm := List.mem_cons.mp hm
  · exact hb hj
  · exact h.waiting j hj hm

/-- A part that writes one field of what stands, unless it is made already: the field's value is then the part's. -/
theorem takePart_writes {α : Type} {w : α → Beside} {x y : α} (h : s.Carries (w x) waits) (hb : b ∉ waits)
    (hf : (f s).beside = { w y with taken := s.taken }) :
    ∃ z, (Machine.takePart b f s).Carries (w z) waits ∧ (b ∉ s.taken → z = y) := by
  by_cases hm : b ∈ s.taken
  · exact ⟨x, by rwa [takePart_made b f s hm], fun hn => absurd hm hn⟩
  · have htaken : (f s).taken = s.taken := congrArg Beside.taken hf
    have hmade : (f s).Carries (w y) waits := ⟨by rw [hf, htaken], fun j hj => htaken ▸ h.waiting j hj⟩
    exact ⟨y, by rw [takePart_open b f s hm]; exact hmade.marked hb, fun _ => rfl⟩

/-- A part that keeps what stands where it is made. -/
theorem takePart_keeps (h : s.Carries k waits) (hb : b ∉ waits) (hf : (f s).beside = s.beside) :
    (Machine.takePart b f s).Carries k waits := by
  by_cases hm : b ∈ s.taken
  · rwa [takePart_made b f s hm]
  · rw [takePart_open b f s hm]
    exact (h.keeps hf).marked hb

/-- A part whose unit's steps keep what stands. -/
theorem takePart (hb : b ∉ waits) (hf : ∀ t j, t.HasBeside j → (f t).HasBeside j) (h : s.Carries k waits) :
    (takePart b f s).Carries k waits :=
  h.takePart_keeps hb (hf s _ rfl)

end parts

end State.Carries

/-! ## The parts that write (R193, R184, R162, R181) -/

/-- The thermal record's part writes the record and its line (R193). -/
theorem State.thermalBlock_beside (s : State) (line : Bool) : (s.thermalBlock line).beside
    = { s.beside with thermal := s.thermal.block line, pins := { s.pins with therm := line } } :=
  State.ite_has (P := State.HasBeside _) rfl (State.HasBeside.raise rfl)

/-- Sampling the line of a pair as the lines have it changes no line (R184). -/
theorem setLine_self (faults : BitVec 6) (n : Fin 6) : setLine faults n (faults.getLsbD n.val) = faults := by
  refine BitVec.eq_of_getLsbD_eq fun i hi => ?_
  have hline := setLine_getLsbD faults n ⟨i, hi⟩ (faults.getLsbD n.val)
  simp only at hline
  rw [hline]
  by_cases h : (⟨i, hi⟩ : Fin 6) = n
  · rw [if_pos h, ← h]
  · rw [if_neg h]

/-- A pair's part on the lines as the block samples them keeps what stands (R184). -/
theorem State.pairPart_beside {s : State} {faults : BitVec 6} (n : Fin 6) (h : s.pins.faults = faults) :
    (s.pairPart n (faults.getLsbD n.val)).beside = s.beside := by
  subst h
  exact State.HasBeside.pairBlock (s := { s with pins := { s.pins with
    faults := setLine s.pins.faults n (s.pins.faults.getLsbD n.val) } }) (by rw [setLine_self]; rfl)

/-- The playing of a channel writes the samples (R162). -/
theorem State.playChannel_beside (s : State) (c : Fin 12) (xs : List Sample) (st : CrossoverState) :
    (s.playChannel c xs st).beside = { s.beside with samples := (s.playChannel c xs st).out.samples } := rfl

theorem State.soundBlock_beside (s : State) :
    s.soundBlock.beside = { s.beside with samples := s.soundBlock.out.samples } := by
  have hplays : ∃ ys, s.soundBlock.beside = { s.beside with samples := ys } := by
    rw [s.soundBlock_eq]
    exact forEach_has (P := fun t => ∃ ys, t.beside = { s.beside with samples := ys })
      (fun c t ⟨ys, ht⟩ => ⟨_, by rw [t.playChannel_beside, ht]⟩) ⟨_, rfl⟩
  obtain ⟨ys, hys⟩ := hplays
  have hsamples : s.soundBlock.out.samples = ys := congrArg Beside.samples hys
  rw [hsamples, hys]

/-- The mixer's part writes the mixer (R110). -/
theorem State.mixBlock_beside (s : State) : s.mixBlock.beside = s.beside := rfl

/-- The falls of Lr, the mix and the playing write the samples only, of what stands (R162). -/
theorem State.soundPart_beside (s : State) :
    s.soundPart.beside = { s.beside with samples := s.soundPart.out.samples } := by
  have hdue : (forEach (fun c t => t.setChan c (t.chan c).applyDue) (List.finRange 12) s).beside = s.beside :=
    State.HasBeside.forEach (fun _ _ => State.HasBeside.setChan) rfl
  rw [State.soundPart, State.soundBlock_beside, State.mixBlock_beside, hdue]

/-- The meter period count's part writes the count (R181). -/
theorem State.meterBlock_beside (s : State) :
    s.meterBlock.beside = { s.beside with meterPeriod := (s.out.meterPeriod + 1) % 100 } :=
  State.ite_has (P := State.HasBeside _) (State.ite_has (P := State.HasBeside _) (State.HasBeside.beginSection rfl) rfl) rfl

/-! ## The range of the samples (R175) -/

/-- A saturated sample lies in the 24-bit range (R175). -/
theorem saturate_range (x : Int) : -8388608 ≤ saturate x ∧ saturate x ≤ 8388607 := by
  rw [saturate, clampInt_eq _ _ _ (by decide)]
  exact ⟨Int.le_max_left .., Int.max_le.mpr ⟨by decide, Int.min_le_left ..⟩⟩

/-- Every sample that a channel puts out lies in the 24-bit range (R175). -/
theorem State.soundBlock_range (s : State) (c : Fin 12) :
    ∀ x ∈ getAt s.soundBlock.out.samples c, -8388608 ≤ x ∧ x ≤ 8388607 := by
  have hplays : getAt s.soundBlock.out.samples c
      = getAt (s.playChannel c (s.entry c) (s.bands c).state).out.samples c := congrArg Prod.fst (s.soundBlock_view c)
  rw [hplays, s.playChannel_samples]
  split
  next =>
    intro x hx
    rw [List.eq_of_mem_replicate hx]
    decide
  next =>
    intro x hx
    obtain ⟨y, -, rfl⟩ := List.mem_map.mp hx
    exact saturate_range y

/-! ## The stages of a block -/

namespace State.Carries

section stages
variable {s : State} {k : Beside} {waits : List BlockPart} {faults : BitVec 6} {therm : Bool}

/-- The stages up to the zones' keep what stands at the beginning. -/
theorem zonesMade (h : s.begun.Carries k waits) (hw : waits ⊆ [.thermal, .sound, .meters]) :
    s.zonesMade.Carries k waits :=
  have hskip {b : BlockPart} (hb : b ∉ [BlockPart.thermal, .sound, .meters]) : b ∉ waits := fun hm => hb (hw hm)
  have hlanes : s.lanesMade.Carries k waits :=
    forEach_has (fun _ _ => takePart (hskip (by simp)) fun _ _ => HasBeside.laneBlock) h
  have hzero := takePart (b := .path .p0) (hskip (by decide)) (fun _ _ => HasBeside.pathBlock) hlanes
  have hpaths : s.pathsMade.Carries k waits :=
    takePart (b := .path .p1) (hskip (by decide)) (fun _ _ => HasBeside.pathBlock) hzero
  have htuner : s.tunerMade.Carries k waits :=
    takePart (b := .tuner) (hskip (by decide)) (fun _ _ => HasBeside.tunerBlock) hpaths
  have hmain := takePart (b := .zone .main) (hskip (by decide)) (fun _ _ => HasBeside.zoneBlock) htuner
  takePart (b := .zone .zone2) (hskip (by decide)) (fun _ _ => HasBeside.zoneBlock) hmain

/-- The thermal record's part writes the record, unless it is made already (R193). -/
theorem thermalMade (h : s.zonesMade.Carries k waits) (hw : waits ⊆ [.sound, .meters]) (ht : k.pins.therm = therm) :
    ∃ r, (s.thermalMade therm).Carries { k with thermal := r } waits
      ∧ (BlockPart.thermal ∉ s.zonesMade.taken → r = k.thermal.block therm) := by
  obtain ⟨-, hthermal, hpins, -⟩ := h.fields
  refine takePart_writes (w := fun r => { k with thermal := r }) (x := k.thermal) h (fun hm => ?_) ?_
  · exact absurd (hw hm) (by decide)
  · rw [State.thermalBlock_beside, h.stands, hthermal, hpins, ← ht]

/-- The stages from the ramps' to the change groups' keep what stands. -/
theorem groupsMade (h : (s.thermalMade therm).Carries k waits) (hw : waits ⊆ [.sound, .meters])
    (hf : k.pins.faults = faults) : (s.groupsMade faults therm).Carries k waits :=
  have hskip {b : BlockPart} (hb : b ∉ [BlockPart.sound, .meters]) : b ∉ waits := fun hm => hb (hw hm)
  have hramps : (s.rampsMade therm).Carries k waits :=
    forEach_has (fun _ _ => takePart (hskip (by simp)) fun _ _ => HasBeside.setChan) h
  have hpairs : (s.pairsMade faults therm).Carries k waits :=
    forEach_has (fun n _ ht =>
      have ⟨_, _, hpins, _⟩ := ht.fields
      ht.takePart_keeps (hskip (by simp)) (State.pairPart_beside n ((congrArg Pins.faults hpins).trans hf))) hramps
  have hstarts : (s.startsMade faults therm).Carries k waits :=
    forEach_has (fun n t ht => ht.keeps (f := fun t => t.softStartBlock n) (HasBeside.softStartBlock rfl)) hpairs
  forEach_has (fun g t ht => ht.keeps (f := fun t => t.groupBlock g) (HasBeside.groupBlock rfl)) hstarts

/-- The playing writes the samples, unless it is made already (R162). -/
theorem soundMade (h : (s.groupsMade faults therm).Carries k waits) (hw : waits ⊆ [.meters]) :
    ∃ ys, (s.soundMade faults therm).Carries { k with samples := ys } waits
      ∧ (BlockPart.sound ∉ (s.groupsMade faults therm).taken → ys = (s.groupsMade faults therm).soundPart.out.samples) := by
  refine takePart_writes (w := fun ys => { k with samples := ys }) (x := k.samples) h (fun hm => ?_) ?_
  · exact absurd (hw hm) (by decide)
  · rw [State.soundPart_beside, h.stands]

/-- The limiter and the tap keep what stands. -/
theorem tapMade (h : (s.soundMade faults therm).Carries k waits) (hw : waits ⊆ [.meters]) :
    (s.tapMade faults therm).Carries k waits :=
  have hskip {b : BlockPart} (hb : b ∉ [BlockPart.meters]) : b ∉ waits := fun hm => hb (hw hm)
  have hlimiter : (s.limiterMade faults therm).Carries k waits :=
    forEach_has (fun _ _ => takePart (hskip (by simp)) fun _ _ => HasBeside.setChan) h
  takePart (b := .tap) (hskip (by decide)) (fun _ _ => HasBeside.tapPart) hlimiter

/-- The meter period count's part writes the count, unless it is made already (R181). -/
theorem metersMade (h : (s.tapMade faults therm).Carries k []) :
    ∃ n, (s.metersMade faults therm).Carries { k with meterPeriod := n } []
      ∧ (BlockPart.meters ∉ (s.tapMade faults therm).taken → n = (k.meterPeriod + 1) % 100) := by
  obtain ⟨-, -, -, hcount⟩ := h.fields
  refine takePart_writes (w := fun n => { k with meterPeriod := n }) (x := k.meterPeriod) h List.not_mem_nil ?_
  rw [State.meterBlock_beside, h.stands, hcount]

end stages

/-- The end of a block: the free-value counter rises, and no part of the next block is made (log 9). -/
theorem endBlock {s : State} {k : Beside} (h : s.Carries k []) :
    s.endBlock.beside = { k with freeIdx := k.freeIdx + 1, taken := [] } := by
  obtain ⟨hfree, -⟩ := h.fields
  rw [@State.endBlock_eq s (Classical.propDecidable _), hfree]
  exact congrArg (fun x : Beside => { x with freeIdx := k.freeIdx + 1, taken := [] }) h.stands

end State.Carries

/-! ## A whole block -/

/-- What stands once a block has begun on given lines (log 15). -/
def State.begins (s : State) (pins : Pins) : Beside :=
  { s.beside with block := if BlockPart.begin ∈ s.taken then s.block else s.block + 1, pins := pins }

/-- The parts of a list that no row has made ahead (log 2). -/
def State.notAhead (s : State) (parts : List BlockPart) : List BlockPart := parts.filter fun j => decide (j ∉ s.taken)

theorem State.mem_notAhead {s : State} {parts : List BlockPart} {j : BlockPart} :
    j ∈ s.notAhead parts ↔ j ∈ parts ∧ j ∉ s.taken := by
  rw [State.notAhead, List.mem_filter, decide_eq_true_eq]

theorem State.notAhead_subset (s : State) (parts : List BlockPart) : s.notAhead parts ⊆ parts :=
  List.filter_subset_self parts

theorem State.notAhead_mono (s : State) {parts more : List BlockPart} (h : parts ⊆ more) :
    s.notAhead parts ⊆ s.notAhead more :=
  List.filter_subset _ h

/-- The beginning of a block moves the counter, and makes no other part (log 15). -/
theorem State.begun_carries (s : State) (pins : Pins) {parts : List BlockPart} (hparts : BlockPart.begin ∉ parts) :
    ({ s with pins := pins } : State).begun.Carries (s.begins pins) (s.notAhead parts) := by
  rw [State.begun_eq]
  refine ⟨rfl, fun j hj hm => ?_⟩
  obtain ⟨hmem, hopen⟩ := State.mem_notAhead.mp hj
  dsimp only at hm
  split at hm
  next => exact hopen hm
  next =>
    obtain rfl | hm := List.mem_cons.mp hm
    · exact hparts hmem
    · exact hopen hm

/-- A whole block, made on given lines: what stands at its end, and what its own parts wrote where no row had made them
ahead (log 2). -/
theorem State.metersMade_carries (s : State) (faults : BitVec 6) (therm : Bool) :
    let pins : Pins := { faults := faults, therm := therm }
    let x : State := { s with pins := pins }
    ∃ r ys n, (x.metersMade faults therm).Carries { s.begins pins with thermal := r, samples := ys, meterPeriod := n } []
      ∧ (BlockPart.thermal ∉ s.taken → r = s.thermal.block therm)
      ∧ (BlockPart.sound ∉ s.taken → ys = (x.groupsMade faults therm).soundPart.out.samples)
      ∧ (BlockPart.meters ∉ s.taken → n = (s.out.meterPeriod + 1) % 100) := by
  intro pins x
  have hzones : x.zonesMade.Carries (s.begins pins) (s.notAhead [.thermal, .sound, .meters]) :=
    (s.begun_carries pins (by decide)).zonesMade (s.notAhead_subset _)
  have hplays : s.notAhead [.sound, .meters] ⊆ s.notAhead [.thermal, .sound, .meters] := s.notAhead_mono (by decide)
  have hcounts : s.notAhead [.meters] ⊆ s.notAhead [.sound, .meters] := s.notAhead_mono (by decide)
  obtain ⟨r, hthermal, hr⟩ := (hzones.weaken hplays).thermalMade (therm := therm) (s.notAhead_subset _) rfl
  have hgroups := hthermal.groupsMade (faults := faults) (s.notAhead_subset _) rfl
  obtain ⟨ys, hsound, hys⟩ := (hgroups.weaken hcounts).soundMade (s.notAhead_subset _)
  have htap := hsound.tapMade (s.notAhead_subset _)
  obtain ⟨n, hmeters, hn⟩ := (htap.weaken (List.nil_subset _)).metersMade
  refine ⟨r, ys, n, hmeters, fun h => hr ?_, fun h => hys ?_, fun h => hn ?_⟩
  · exact hzones.waiting _ (State.mem_notAhead.mpr ⟨by decide, h⟩)
  · exact hgroups.waiting _ (State.mem_notAhead.mpr ⟨by decide, h⟩)
  · exact htap.waiting _ (State.mem_notAhead.mpr ⟨by decide, h⟩)

/-! ## The statement -/

/-- The fields of a state that stands as given. -/
theorem State.HasBeside.fields {s : State} {k : Beside} (h : s.HasBeside k) :
    s.block = k.block ∧ s.freeIdx = k.freeIdx ∧ s.taken = k.taken ∧ s.pins = k.pins ∧ s.thermal = k.thermal
      ∧ s.out.meterPeriod = k.meterPeriod ∧ s.out.samples = k.samples := by
  subst h
  exact ⟨rfl, rfl, rfl, rfl, rfl, rfl, rfl⟩

/-- What only commands set, field by field. -/
theorem State.fields_of_settings {s t : State} (h : t.settings = s.settings) :
    t.cmd = s.cmd ∧ t.windows = s.windows ∧ t.strap = s.strap ∧ t.region = s.region ∧ t.presets = s.presets
      ∧ t.out.crossover = s.out.crossover ∧ t.pending = s.pending :=
  ⟨congrArg Settings.cmd h, congrArg Settings.windows h, congrArg Settings.strap h, congrArg Settings.region h,
    congrArg Settings.presets h, congrArg Settings.crossover h, congrArg Settings.pending h⟩

/-- Settles O49: what stands through the block's parts, and the settings and units that no part changes. -/
theorem outputBlockAdvances : Obligations.OutputBlockAdvances := by
  intro s faults therm
  let x : State := { s with pins := { faults := faults, therm := therm } }
  obtain ⟨r, ys, n, hmade, hr, hys, hn⟩ := s.metersMade_carries faults therm
  obtain ⟨hblock, hfree, htaken, hpins, hthermal, hperiod, hsamples⟩ := State.HasBeside.fields hmade.endBlock
  obtain ⟨hup, -⟩ := x.block_keeps faults therm
  have hsettings : (x.metersMade faults therm).endBlock.settings = s.settings :=
    (congrArg Upstream.toSettings hup).trans (State.HasSettings.zonesMade (s := x) rfl)
  refine ⟨_, execOutputBlock_next faults therm s, hblock, hfree, htaken, congrArg Pins.faults hpins,
    congrArg Pins.therm hpins, fun h => ?thermal, fun h => ?period, fun h => ⟨?samples, fun c => ?range⟩,
    State.fields_of_settings hsettings⟩
  case thermal => rw [← hr h, hthermal]
  case period => rw [← hn h, hperiod]
  case samples => rw [← hys h, hsamples]
  case range =>
    rw [hsamples, hys h]
    exact State.soundBlock_range _ c

end Sys2Proof.Machine
end
